-- ==== Sys2Proof/Word.lean ====
section
/-! DEFINITION. The word types of the Laelle J9: bytes, instruction words, scalar registers,
lane registers and lane masks. -/

namespace Sys2Proof

/-- One byte of memory. -/
abbrev Byte := BitVec 8
/-- A 64-bit unit: an instruction word, a clause header, a scalar register (R58, R62). -/
abbrev Word := BitVec 64
/-- One lane register (R62). -/
abbrev LaneWord := BitVec 32
/-- A hierarchical mask: lane `l` is bit `l` (R10). -/
abbrev Mask := BitVec 1024
/-- A timestamp: its coordinates from c0 outward, one to four of them (R248). -/
abbrev Stamp := List Nat

end Sys2Proof
end

