-- ==== Sys2Proof/Syntax.lean ====
section
/-! DEFINITION. The syntax of the machine: register specifiers (R62), type codes (R60), the
three forms of a core word (R59), the seven forms of a Sill word (R313), and Instr, one
constructor for each row of spec/opcode_table.json: core words, Sill words and the events by
which every other agent of the device acts (spec/95). -/

namespace Sys2Proof

/-- An 8-bit register specifier (R62). Every byte is one of these. -/
inductive Reg
  /-- V0..V127, a lane's own register. -/
  | v (n : Fin 128)
  /-- S0..S63, a scalar. -/
  | s (n : Fin 64)
  /-- K0..K15, a mask. -/
  | k (n : Fin 16)
  /-- Q0..Q15, a queue register. -/
  | q (n : Fin 16)
  /-- A0..A15, an arrival counter. -/
  | a (n : Fin 16)
  /-- ZERO, 0xF0. -/
  | zero
  /-- LANE, 0xF1. -/
  | lane
  /-- TEAMIX, 0xF2. -/
  | teamix
  /-- TEAMS, 0xF3. -/
  | teams
  /-- 0xF4..0xFF, reserved. -/
  | reserved (n : Fin 12)
  deriving DecidableEq, Repr

/-- The specifier's number, 0..255 (R62). -/
def Reg.code : Reg → Nat
  | .v n => n.val
  | .s n => 0x80 + n.val
  | .k n => 0xC0 + n.val
  | .q n => 0xD0 + n.val
  | .a n => 0xE0 + n.val
  | .zero => 0xF0
  | .lane => 0xF1
  | .teamix => 0xF2
  | .teams => 0xF3
  | .reserved n => 0xF4 + n.val

/-- The specifier byte. -/
def Reg.toByte (r : Reg) : BitVec 8 := BitVec.ofNat 8 r.code

/-- The register a byte names (R62). -/
def Reg.ofByte (b : BitVec 8) : Reg :=
  let n := b.toNat
  if h : n < 128 then .v ⟨n, h⟩
  else if n < 0xC0 then .s ⟨(n - 128) % 64, Nat.mod_lt _ (by decide)⟩
  else if n < 0xD0 then .k ⟨(n - 0xC0) % 16, Nat.mod_lt _ (by decide)⟩
  else if n < 0xE0 then .q ⟨(n - 0xD0) % 16, Nat.mod_lt _ (by decide)⟩
  else if n < 0xF0 then .a ⟨(n - 0xE0) % 16, Nat.mod_lt _ (by decide)⟩
  else if n = 0xF0 then .zero
  else if n = 0xF1 then .lane
  else if n = 0xF2 then .teamix
  else if n = 0xF3 then .teams
  else .reserved ⟨(n - 0xF4) % 12, Nat.mod_lt _ (by decide)⟩

/-- The type codes of R60. -/
inductive Ty
  | i8 | i16 | i32 | i64 | n8 | n16 | n32 | n64
  | f16 | bf16 | f32 | f64 | e4m3 | e5m2 | e2m1 | d64
  deriving DecidableEq, Repr

/-- The code of a type (R60). -/
def Ty.code : Ty → Nat
  | .i8 => 0 | .i16 => 1 | .i32 => 2 | .i64 => 3 | .n8 => 4 | .n16 => 5 | .n32 => 6 | .n64 => 7
  | .f16 => 8 | .bf16 => 9 | .f32 => 10 | .f64 => 11 | .e4m3 => 12 | .e5m2 => 13 | .e2m1 => 14
  | .d64 => 15

/-- The type a code names (R60); codes above 15 do not occur. -/
def Ty.ofCode (n : Nat) : Ty :=
  match n with
  | 0 => .i8 | 1 => .i16 | 2 => .i32 | 3 => .i64 | 4 => .n8 | 5 => .n16 | 6 => .n32 | 7 => .n64
  | 8 => .f16 | 9 => .bf16 | 10 => .f32 | 11 => .f64 | 12 => .e4m3 | 13 => .e5m2 | 14 => .e2m1
  | _ => .d64

/-- A T-form word less its OP and FN (R59). -/
structure TForm where
  ty : Ty
  la : BitVec 4
  km : Fin 16
  d : Reg
  a : Reg
  b : Reg
  c : Reg
  mod : BitVec 6
  deriving DecidableEq, Repr

/-- An I-form word less its OP and FN (R59). -/
structure IForm where
  ty : Ty
  la : BitVec 4
  km : Fin 16
  d : Reg
  a : Reg
  imm : BitVec 22
  deriving DecidableEq, Repr

/-- A B-form word less its OP and FN (R59). -/
structure BForm where
  ty : Ty
  la : BitVec 4
  km : Fin 16
  d : Reg
  imm : BitVec 30
  deriving DecidableEq, Repr

/-- V form of a Sill word (R313). -/
structure SillV where
  d : BitVec 5
  a : BitVec 5
  b : BitVec 5
  c : BitVec 5
  t : BitVec 2
  mod : BitVec 5
  deriving DecidableEq, Repr

/-- I form of a Sill word (R313). -/
structure SillI where
  d : BitVec 5
  t : BitVec 2
  imm : BitVec 16
  deriving DecidableEq, Repr

/-- K form of a Sill word (R313). -/
structure SillK where
  g : BitVec 2
  x : BitVec 2
  p : BitVec 1
  e : BitVec 4
  w : BitVec 5
  set : BitVec 1
  off : BitVec 8
  deriving DecidableEq, Repr

/-- A form of a Sill word (R313). -/
structure SillA where
  d : BitVec 2
  a : BitVec 2
  base : BitVec 1
  imm : BitVec 22
  deriving DecidableEq, Repr

/-- L form of a Sill word (R313); `stop` is the field END. -/
structure SillL where
  l : BitVec 1
  stop : BitVec 7
  count : BitVec 16
  deriving DecidableEq, Repr

/-- Q form of a Sill word less FROM, which the constructor of Instr fixes (R313). -/
structure SillQ where
  p : BitVec 1
  e : BitVec 4
  w : BitVec 5
  n : BitVec 2
  bank : BitVec 4
  deriving DecidableEq, Repr

/-- The instructions and events of spec/opcode_table.json, one constructor a row, in the table's order. -/
inductive Instr
  /-- Does nothing; its only valid word is 0x0000_003C_0000_0000. (R81) -/
  | frNop (f : TForm)
  /-- Copies a scalar source into D at the width of TY, extended per R74. (R81) -/
  | frMov (f : TForm)
  /-- Writes a sign-extended 22-bit immediate into D at the width of TY. (R81) -/
  | frMovi (f : IForm)
  /-- Shifts S[D] left by 22 bits and ORs in a natural 22-bit immediate. (R81) -/
  | frMovhi (f : IForm)
  /-- Scalar addition modulo 2^w of two register sources. (R79) -/
  | frAddT (f : TForm)
  /-- Scalar addition modulo 2^w of a register and an immediate. (R79) -/
  | frAddI (f : IForm)
  /-- Scalar subtraction modulo 2^w of two register sources. (R79) -/
  | frSubT (f : TForm)
  /-- Scalar subtraction modulo 2^w of an immediate from a register. (R79) -/
  | frSubI (f : IForm)
  /-- Scalar multiplication modulo 2^w of two register sources. (R79) -/
  | frMulT (f : TForm)
  /-- Scalar multiplication modulo 2^w of a register and an immediate. (R79) -/
  | frMulI (f : IForm)
  /-- Writes the high w bits of the exact 2w-bit scalar product. (R79) -/
  | frMulh (f : TForm)
  /-- Long-latency scalar truncating division that traps FPDIVZ on a zero divisor. (R82) -/
  | frDiv (f : TForm)
  /-- Long-latency scalar remainder with the sign of the dividend, trapping FPDIVZ on zero. (R82) -/
  | frRem (f : TForm)
  /-- Scalar bitwise AND of two register sources. (R79) -/
  | frAndT (f : TForm)
  /-- Scalar bitwise AND of a register and an immediate. (R79) -/
  | frAndI (f : IForm)
  /-- Scalar bitwise OR of two register sources. (R79) -/
  | frOrT (f : TForm)
  /-- Scalar bitwise OR of a register and an immediate. (R79) -/
  | frOrI (f : IForm)
  /-- Scalar bitwise XOR of two register sources. (R79) -/
  | frXorT (f : TForm)
  /-- Scalar bitwise XOR of a register and an immediate. (R79) -/
  | frXorI (f : IForm)
  /-- Scalar left shift by a register count, 0 when the count is at least w. (R79) -/
  | frShlT (f : TForm)
  /-- Scalar left shift by an immediate count. (R79) -/
  | frShlI (f : IForm)
  /-- Scalar logical right shift by a register count. (R79) -/
  | frShrT (f : TForm)
  /-- Scalar logical right shift by an immediate count. (R79) -/
  | frShrI (f : IForm)
  /-- Scalar arithmetic right shift by a register count. (R79) -/
  | frSraT (f : TForm)
  /-- Scalar arithmetic right shift by an immediate count. (R79) -/
  | frSraI (f : IForm)
  /-- Scalar lesser of two register sources, signed or natural per TY. (R79) -/
  | frMinT (f : TForm)
  /-- Scalar lesser of a register and an immediate. (R79) -/
  | frMinI (f : IForm)
  /-- Scalar greater of two register sources, signed or natural per TY. (R79) -/
  | frMaxT (f : TForm)
  /-- Scalar greater of a register and an immediate. (R79) -/
  | frMaxI (f : IForm)
  /-- Writes 1 or 0 to D as the MOD condition holds between two scalars. (R80) -/
  | frCmp (f : TForm)
  /-- Writes A when C read in full is non-zero, otherwise B. (R80) -/
  | frSel (f : TForm)
  /-- Counts leading zero bits of a scalar within width w. (R79) -/
  | frClz (f : TForm)
  /-- Counts set bits of a scalar within width w. (R79) -/
  | frPopc (f : TForm)
  /-- Long-latency scalar load on the front path from S[A] plus an offset. (R83) -/
  | frLd (f : IForm)
  /-- Scalar store on the front path, taking one DRAIN unit and side-logging on a walk fault. (R83) -/
  | frSt (f : IForm)
  /-- Reads a control register into D, waiting for dependent results where R22 and R76 require. (R85) -/
  | frCsrr (f : IForm)
  /-- Writes D read in full to a control register under that register's map. (R85) -/
  | frCsrw (f : IForm)
  /-- Uniform branch taken when S[D] is non-zero or EXM & K[D] is non-empty. (R86) -/
  | ctlBr (f : BForm)
  /-- Unconditional uniform jump to a clause header. (R86) -/
  | ctlJmp (f : BForm)
  /-- Writes the link address to S[D] and transfers to the target. (R86) -/
  | ctlCall (f : BForm)
  /-- Continues at S[A], raising MISALIGN when bits 2:0 are non-zero. (R86) -/
  | ctlRet (f : TForm)
  /-- Divergent branch that pushes a PENDING entry when both lane sets are non-empty. (R87) -/
  | ctlBrv (f : BForm)
  /-- Turns a PENDING entry into MERGE or pops a MERGE entry, restoring EXM. (R88) -/
  | ctlJoin (f : TForm)
  /-- Calls per-lane descriptor targets, uniformly or by pushing a PARK entry and one task per lane. (R89) -/
  | ctlCallv (f : TForm)
  /-- Returns a callee lane's V0..V3 to its parent lane after its writes drain, or acts as ctl.ret. (R91) -/
  | ctlRetq (f : TForm)
  /-- Marks the active lanes exited and clears them from EXM and every stack entry. (R93) -/
  | ctlExit (f : TForm)
  /-- Sets K[D] to lanes f..f+n-1 with f and n from S registers. (R94) -/
  | kmSetT (f : TForm)
  /-- Sets K[D] to a lane range given in the immediate. (R94) -/
  | kmSetI (f : IForm)
  /-- Writes the AND of two masks. (R94) -/
  | kmAnd (f : TForm)
  /-- Writes the OR of two masks. (R94) -/
  | kmOr (f : TForm)
  /-- Writes K[A] & ~K[B]. (R94) -/
  | kmAndn (f : TForm)
  /-- Writes the XOR of two masks. (R94) -/
  | kmXor (f : TForm)
  /-- Writes the existing lanes not in K[A]. (R94) -/
  | kmNot (f : TForm)
  /-- Counts the lanes of a mask, optionally ANDed with EXM. (R94) -/
  | kmPop (f : TForm)
  /-- Writes the lowest lane of a mask, or all ones when empty. (R94) -/
  | kmFirst (f : TForm)
  /-- Writes a mask word selected by S[B] from S[A]. (R94) -/
  | kmInsT (f : TForm)
  /-- Writes a mask word selected by the immediate from S[A]. (R94) -/
  | kmInsI (f : IForm)
  /-- Reads a mask word or the summary word selected by S[B]. (R94) -/
  | kmExtT (f : TForm)
  /-- Reads a mask word or the summary word selected by the immediate. (R94) -/
  | kmExtI (f : IForm)
  /-- Saves EXM to K[D] and sets EXM from K[A], never readmitting exited or held lanes. (R95) -/
  | kmExm (f : TForm)
  /-- Copies a source into each active lane's D. (R103) -/
  | lnMov (f : TForm)
  /-- Writes a sign-extended immediate into each active lane. (R103) -/
  | lnMovi (f : IForm)
  /-- Reads a register indexed per lane from base A plus B. (R103) -/
  | lnMovs (f : TForm)
  /-- Per-lane wrapping or saturating addition of two register sources. (R100) -/
  | lnAddT (f : TForm)
  /-- Per-lane wrapping addition of a register and an immediate. (R100) -/
  | lnAddI (f : IForm)
  /-- Per-lane wrapping or saturating subtraction of two register sources. (R100) -/
  | lnSubT (f : TForm)
  /-- Per-lane wrapping subtraction of an immediate. (R100) -/
  | lnSubI (f : IForm)
  /-- Per-lane addition with carry-in from a K register and carry-out to a K register. (R102) -/
  | lnAddc (f : TForm)
  /-- Per-lane subtraction with borrow-in and borrow-out in K registers. (R102) -/
  | lnSubb (f : TForm)
  /-- Per-lane wrapping or saturating product, or non-trapping quotient or remainder. (R101) -/
  | lnMulT (f : TForm)
  /-- Per-lane wrapping product with an immediate. (R100) -/
  | lnMulI (f : IForm)
  /-- Per-lane high half of the exact 2w-bit product. (R100) -/
  | lnMulh (f : TForm)
  /-- Per-lane a × b + c, wrapping or saturating from the exact value. (R100) -/
  | lnMad (f : TForm)
  /-- Per-lane bitwise AND of two register sources. (R100) -/
  | lnAndT (f : TForm)
  /-- Per-lane bitwise AND with an immediate. (R100) -/
  | lnAndI (f : IForm)
  /-- Per-lane bitwise OR of two register sources. (R100) -/
  | lnOrT (f : TForm)
  /-- Per-lane bitwise OR with an immediate. (R100) -/
  | lnOrI (f : IForm)
  /-- Per-lane bitwise XOR of two register sources. (R100) -/
  | lnXorT (f : TForm)
  /-- Per-lane bitwise XOR with an immediate. (R100) -/
  | lnXorI (f : IForm)
  /-- Per-lane bitwise complement. (R100) -/
  | lnNot (f : TForm)
  /-- Per-lane left shift by a register count. (R100) -/
  | lnShlT (f : TForm)
  /-- Per-lane left shift by an immediate count. (R100) -/
  | lnShlI (f : IForm)
  /-- Per-lane logical right shift by a register count. (R100) -/
  | lnShrT (f : TForm)
  /-- Per-lane logical right shift by an immediate count. (R100) -/
  | lnShrI (f : IForm)
  /-- Per-lane arithmetic right shift by a register count. (R100) -/
  | lnSraT (f : TForm)
  /-- Per-lane arithmetic right shift by an immediate count. (R100) -/
  | lnSraI (f : IForm)
  /-- Per-lane left rotation by a register count modulo w. (R100) -/
  | lnRotT (f : TForm)
  /-- Per-lane left rotation by an immediate count modulo w. (R100) -/
  | lnRotI (f : IForm)
  /-- Per-lane lesser of two register sources. (R100) -/
  | lnMinT (f : TForm)
  /-- Per-lane lesser of a register and an immediate. (R100) -/
  | lnMinI (f : IForm)
  /-- Per-lane greater of two register sources. (R100) -/
  | lnMaxT (f : TForm)
  /-- Per-lane greater of a register and an immediate. (R100) -/
  | lnMaxI (f : IForm)
  /-- Per-lane absolute value, wrapping or saturating. (R100) -/
  | lnAbs (f : TForm)
  /-- Per-lane negation, wrapping or saturating. (R100) -/
  | lnNeg (f : TForm)
  /-- Per-lane integer comparison into a K bit or a 32-bit V value, with keep. (R104) -/
  | lnCmp (f : TForm)
  /-- Per-lane select of A or B under a K, V, S or ZERO condition. (R105) -/
  | lnSel (f : TForm)
  /-- Per-lane count of leading zero bits. (R100) -/
  | lnClz (f : TForm)
  /-- Per-lane count of set bits. (R100) -/
  | lnPopc (f : TForm)
  /-- Per-lane bit-field extract, natural or sign-extended. (R106) -/
  | lnBfx (f : TForm)
  /-- Per-lane bit-field insert into D. (R106) -/
  | lnBfi (f : TForm)
  /-- Per-lane byte permute from the bytes of A then B under selectors. (R106) -/
  | lnPerm (f : TForm)
  /-- Per-lane integer width conversion keeping the low bits. (R107) -/
  | lnCvt (f : TForm)
  /-- Per-lane integer width conversion with saturation. (R107) -/
  | lnSat (f : TForm)
  /-- Cross-lane shuffle by index, up or down with a register operand. (R109) -/
  | xlShflT (f : TForm)
  /-- Cross-lane indexed shuffle with an immediate lane. (R109) -/
  | xlShflI (f : IForm)
  /-- Cross-lane XOR shuffle with a register operand. (R109) -/
  | xlShfxT (f : TForm)
  /-- Cross-lane XOR shuffle with an immediate operand. (R109) -/
  | xlShfxI (f : IForm)
  /-- Broadcasts lane j's value, j from a uniform register, into V or S. (R110) -/
  | xlBcastT (f : TForm)
  /-- Broadcasts lane j's value, j from the immediate, into V or S. (R110) -/
  | xlBcastI (f : IForm)
  /-- Long-latency fold over all lanes in ascending order with an identity for inactive lanes. (R111) -/
  | xlRed (f : TForm)
  /-- Long-latency min or max fold that also returns the first lane holding it. (R112) -/
  | xlRedi (f : TForm)
  /-- Long-latency inclusive or exclusive prefix fold in ascending lane order. (R113) -/
  | xlScan (f : TForm)
  /-- Collects the votes of active lanes with non-zero A into K or S. (R114) -/
  | xlBallot (f : TForm)
  /-- Per-lane binary addition rounded once under FPC. (R143) -/
  | fpAdd (f : TForm)
  /-- Per-lane binary subtraction rounded once under FPC. (R143) -/
  | fpSub (f : TForm)
  /-- Per-lane binary multiplication rounded once under FPC. (R143) -/
  | fpMul (f : TForm)
  /-- Per-lane fused multiply-add with one rounding. (R143) -/
  | fpFma (f : TForm)
  /-- Per-lane minimumNumber or minimum. (R145) -/
  | fpMin (f : TForm)
  /-- Per-lane maximumNumber or maximum. (R145) -/
  | fpMax (f : TForm)
  /-- Clears the sign bit per lane, raising nothing. (R146) -/
  | fpAbs (f : TForm)
  /-- Inverts the sign bit per lane, raising nothing. (R146) -/
  | fpNeg (f : TForm)
  /-- Per-lane binary comparison into K or V under eight conditions. (R147) -/
  | fpCmp (f : TForm)
  /-- Writes a one-hot class mask of each lane's value. (R148) -/
  | fpCls (f : TForm)
  /-- Long-latency per-lane binary division. (R143) -/
  | fpDiv (f : TForm)
  /-- Long-latency per-lane square root. (R143) -/
  | fpSqrt (f : TForm)
  /-- Long-latency correctly rounded reciprocal. (R143) -/
  | fpRcp (f : TForm)
  /-- Long-latency correctly rounded reciprocal square root. (R143) -/
  | fpRsq (f : TForm)
  /-- Long-latency correctly rounded power of two. (R143) -/
  | fpExp2 (f : TForm)
  /-- Long-latency correctly rounded base-2 logarithm. (R143) -/
  | fpLog2 (f : TForm)
  /-- Rounds each lane's value to an integral value in the named mode. (R149) -/
  | fpRnd (f : TForm)
  /-- Converts between binary floating formats, optionally saturating. (R150) -/
  | fpCvt (f : TForm)
  /-- Converts binary floating values to integers. (R151) -/
  | fpFti (f : TForm)
  /-- Converts integers to binary floating values. (R151) -/
  | fpItf (f : TForm)
  /-- Multiplies each lane's value by 2^n. (R143) -/
  | fpLdexp (f : TForm)
  /-- Writes the fraction or the exponent of each lane's value. (R152) -/
  | fpFrexp (f : TForm)
  /-- Long-latency decimal64 addition under DCC. (R153) -/
  | dcAdd (f : TForm)
  /-- Long-latency decimal64 subtraction under DCC. (R153) -/
  | dcSub (f : TForm)
  /-- Long-latency decimal64 multiplication under DCC. (R153) -/
  | dcMul (f : TForm)
  /-- Long-latency decimal64 fused multiply-add. (R153) -/
  | dcFma (f : TForm)
  /-- Long-latency decimal64 division with per-lane traps. (R153) -/
  | dcDiv (f : TForm)
  /-- Per-lane decimal64 comparison into K or V. (R147) -/
  | dcCmp (f : TForm)
  /-- Long-latency quantize of a to b's exponent. (R154) -/
  | dcQuant (f : TForm)
  /-- Long-latency conversion into or out of decimal64. (R155) -/
  | dcCvt (f : TForm)
  /-- Long-latency rounding of decimal64 to an integral value. (R149) -/
  | dcRnd (f : TForm)
  /-- Writes the E8M0 scale code that the scale rule gives for a block. (R158) -/
  | scScale (f : TForm)
  /-- Long-latency quantisation of 48 FP32 values into a block in RULE or BEST3 mode. (R157) -/
  | scQuant (f : TForm)
  /-- Dequantises a block into 48 FP32 values. (R159) -/
  | scDeq (f : TForm)
  /-- Packs 48 element codes into the packed registers. (R160) -/
  | scPack (f : TForm)
  /-- Unpacks packed codes into one register per element. (R160) -/
  | scUnpack (f : TForm)
  /-- Chooses an E2M1 block's special value at its existing scale. (R161) -/
  | scSpec (f : TForm)
  /-- Takes the Latchkey or waits for it. (R174) -/
  | mxTake (f : TForm)
  /-- Puts the Latchkey in PASSING for the giving team. (R174) -/
  | mxGive (f : TForm)
  /-- Multiplies each lane's dense A row by the B tile into its accumulator row. (R176) -/
  | mxMma (f : TForm)
  /-- Multiplies block-scaled A rows by the B tile into accumulator rows. (R176) -/
  | mxMmas (f : TForm)
  /-- Writes exact squared distances of each A row to every B column. (R177) -/
  | mxDist (f : TForm)
  /-- Ranks the 128 columns of each lane's row and writes the top m. (R178) -/
  | mxTopk (f : TForm)
  /-- Copies a B tile from memory into the weight buffer, counted on an arrival counter. (R175) -/
  | mxWload (f : TForm)
  /-- Copies V registers into accumulator columns. (R179) -/
  | mxAload (f : TForm)
  /-- Copies accumulator columns into V registers. (R179) -/
  | mxAstore (f : TForm)
  /-- Writes +0 to all 128 columns of each active lane's row. (R180) -/
  | mxAzero (f : TForm)
  /-- Swaps MXC with S[A], returning the old value in S[D]. (R170) -/
  | mxCfg (f : TForm)
  /-- Issues split-phase loads of m elements per lane counted on an arrival counter. (R188) -/
  | memLdi (f : TForm)
  /-- Blocks until an arrival counter reaches a threshold. (R190) -/
  | memAwait (f : TForm)
  /-- Stores m elements per lane on the lane path, taking one DRAIN unit. (R191) -/
  | memSt (f : TForm)
  /-- Long-latency scratchpad read that waits until its lines are full. (R192) -/
  | memLds (f : TForm)
  /-- Scratchpad write that never waits and leaves full/empty bits unchanged. (R192) -/
  | memSts (f : TForm)
  /-- Tests, fills or empties the full/empty bit of a scratchpad line. (R194) -/
  | memFe (f : TForm)
  /-- Per-lane read-modify-write at device scope on the Mortar path or at team scope. (R195) -/
  | memAtom (f : TForm)
  /-- Release, acquire or full fence on the lane and front paths at a scope. (R196) -/
  | memFence (f : TForm)
  /-- Orders accesses on the from-paths before accesses on the to-paths. (R197) -/
  | memXfence (f : TForm)
  /-- Waits for the window's writes at system scope, then increments its version. (R198) -/
  | memPublish (f : TForm)
  /-- Sends one operator-table operation per active lane on the Mortar path. (R225) -/
  | memOpx (f : TForm)
  /-- Checks and binds an operator table as a new version of a table number. (R213) -/
  | memOptab (f : TForm)
  /-- Contributes one slice to a collective copy into the scratchpad. (R200) -/
  | cpColl (f : TForm)
  /-- Fills the scratchpad with rows gathered from an index list. (R201) -/
  | cpGath (f : TForm)
  /-- Writes a scratchpad range to global memory on the copy path. (R202) -/
  | cpPut (f : TForm)
  /-- Makes the team ineligible until a copy completes, then continues at the target. (R204) -/
  | cpYield (f : BForm)
  /-- Blocks until a named copy, or every copy, has completed. (R203) -/
  | cpWait (f : TForm)
  /-- Binds a queue register to an endpoint after earlier complete words are accepted. (R205) -/
  | qBind (f : TForm)
  /-- Pushes a scalar once or one word per active lane. (R207) -/
  | qPut (f : TForm)
  /-- Pops once into S or once per active lane into V. (R207) -/
  | qTake (f : TForm)
  /-- Pops or pushes without blocking and reports success. (R208) -/
  | qTry (f : TForm)
  /-- Reports words available to pop and places free to push. (R208) -/
  | qLen (f : TForm)
  /-- Writes the time pair of NOW. (R263) -/
  | ltNow (f : TForm)
  /-- Advances the last coordinate of NOW, moving identical holds. (R263) -/
  | ltAdv (f : TForm)
  /-- Appends a coordinate 0 to NOW, moving identical holds. (R263) -/
  | ltEnter (f : TForm)
  /-- Removes the last coordinate of NOW, moving identical holds. (R263) -/
  | ltLeave (f : TForm)
  /-- Adds a covered (location, time) hold with a count of one. (R263) -/
  | ltHold (f : TForm)
  /-- Removes a hold, its count retiring after drain. (R263) -/
  | ltDrop (f : TForm)
  /-- Blocks until the frontier at a location has passed a time. (R264) -/
  | ltWait (f : TForm)
  /-- Reports without blocking whether, or where, the frontier stands. (R264) -/
  | ltTest (f : TForm)
  /-- Sends one task to the cluster's gatherer with a covered stamp. (R272) -/
  | tkPush (f : TForm)
  /-- Reports the task origin of the team, or a lane's task record. (R275) -/
  | tkArgs (f : TForm)
  /-- Pushes one stamped slot into an early-push ring, visible at once. (R269) -/
  | tkEq (f : TForm)
  /-- Pops the head slot after the producer's units drain. (R270) -/
  | tkDq (f : TForm)
  /-- Reports occupancy, size and owner of a ring. (R271) -/
  | tkRing (f : TForm)
  /-- Opens a child region and reports the acceptance code. (R298) -/
  | rgOpen (f : TForm)
  /-- Waits for or kills a child region, then closes it. (R299) -/
  | rgClose (f : TForm)
  /-- Sets SCORE to the better of SCORE and S[A]. (R300) -/
  | rgScore (f : TForm)
  /-- Grants scratchpad, rows or cores from the unclaimed budget. (R301) -/
  | rgGrow (f : TForm)
  /-- Writes one of four region information items. (R302) -/
  | rgInfo (f : TForm)
  /-- Reads ALLOW and optionally parks the team in a tournament. (R303) -/
  | rgAllow (f : TForm)
  /-- Checks a Sill program and queues a grid of blocks on the affinity channels. (R326) -/
  | nmLaunch (f : TForm)
  /-- Sets SPLIT and computes the rows sent to the banks. (R325) -/
  | nmRatio (f : TForm)
  /-- Retires and raises a USER delivery. (R368) -/
  | sysTrap (f : TForm)
  /-- Returns from the handler, optionally dropping faulting lanes or skipping the instruction. (R369) -/
  | sysEret (f : TForm)
  /-- Writes the delivery's record count after its records are performed. (R370) -/
  | sysFrec (f : TForm)
  /-- Appends a USER entry to the device fault log. (R371) -/
  | sysFlog (f : TForm)
  /-- Gives up the issue slot at the end of its clause. (R372) -/
  | sysYield (f : TForm)
  /-- With debug on, logs an entry and saves the team until the host resumes it. (R373) -/
  | sysDbg (f : TForm)
  /-- Does nothing. (R316) -/
  | slNop
  /-- Waits for sent words to be popped and writes accepted, then ends the block. (R316) -/
  | slHalt
  /-- Sets MODE to all-bank. (R316) -/
  | slAbm
  /-- Sets MODE to single-bank. (R316) -/
  | slSbm
  /-- Opens the DRAM row holding the address in the banks it acts on. (R319) -/
  | slAct (f : SillK)
  /-- Reads 64 bytes of one bank into a W register pair. (R319) -/
  | slRd (f : SillK)
  /-- Writes a W register pair to 64 bytes of one bank. (R319) -/
  | slWr (f : SillK)
  /-- Writes two W registers into a BX register of every bank. (R321) -/
  | slBx (f : SillV)
  /-- Forms each bank's block sum against BX and sets or adds it into a BA entry. (R320) -/
  | slMac (f : SillK)
  /-- Folds one BA entry over banks 0..15 into an element of a W register. (R321) -/
  | slBred (f : SillK)
  /-- Element-wise addition of W registers. (R322) -/
  | slAdd (f : SillV)
  /-- Element-wise subtraction of W registers. (R322) -/
  | slSub (f : SillV)
  /-- Element-wise multiplication of W registers. (R322) -/
  | slMul (f : SillV)
  /-- Element-wise fused multiply-add of W registers. (R322) -/
  | slFma (f : SillV)
  /-- Element-wise minimum in num or prop mode. (R322) -/
  | slMin (f : SillV)
  /-- Element-wise maximum in num or prop mode. (R322) -/
  | slMax (f : SillV)
  /-- Element-wise comparison writing all ones or zero. (R322) -/
  | slCmp (f : SillV)
  /-- Element-wise select of A or B under C. (R322) -/
  | slSel (f : SillV)
  /-- Converts between f16 and f32 elements of one half. (R322) -/
  | slCvt (f : SillV)
  /-- Writes an immediate into every element of a W register. (R322) -/
  | slMovi (f : SillI)
  /-- Copies a W register. (R322) -/
  | slMov (f : SillV)
  /-- Writes an address generator from another or from the affinity address plus an offset. (R317) -/
  | slAg (f : SillA)
  /-- Repeats the following body through index END COUNT times. (R318) -/
  | slLoop (f : SillL)
  /-- Pushes a BA entry of one bank or of banks 0..15 to the launching team. (R323) -/
  | slSendBa (f : SillQ)
  /-- Pushes m 64-bit words of a W register to the launching team. (R323) -/
  | slSendW (f : SillQ)
  /-- Pops m words from the team into a W register. (R323) -/
  | slRecv (f : SillQ)
  /-- Waits until earlier sl.wr writes are accepted by the slice. (R316) -/
  | slFence
  /-- Control reaches a word taken as a clause header, which is checked before its waits. (R16) -/
  | clauseHeader (team : Nat)
  /-- A team held at a header starts its clause once its counter and line conditions hold. (R19) -/
  | clauseWaitSatisfied (team : Nat)
  /-- A team waiting at a blocking point resumes where it stopped once the condition is met. (R187) -/
  | blockingPointResume (team : Nat)
  /-- After 2^20 blocked cycles the waiting instruction raises QSTALL. (R187) -/
  | qstall (team : Nat)
  /-- A load reply lands in a lane's register, poisoned or not. (R188) -/
  | loadLanding (team : Nat) (op : Nat) (part : Nat) (hit : Bool)
  /-- A long-latency instruction completes, writing its result and its flags. (R23) -/
  | longLatencyComplete (team : Nat) (op : Nat) (lanes : BitVec 1024)
  /-- The last byte of an mx.wload is placed and its counter gains one. (R175) -/
  | wloadResident (core : Nat) (id : Nat) (first : Nat) (count : Nat)
  /-- When the giver's mx work completes, the baton passes to the first waiter in ring order or becomes free. (R171) -/
  | latchkeyHandover (core : Nat)
  /-- An operation arrives at a Mortar queue and is reduced against the word's pending entries. (R215) -/
  | mortarArrival (index : Nat)
  /-- A queue applies a word's oldest entry to the committed value and removes it. (R215) -/
  | mortarDrain (addr : Nat) (size : Nat)
  /-- A memory-side slice or the host link accepts the bytes of a write unit. (R186) -/
  | sliceWriteAccept (index : Nat)
  /-- A −1 at a (location, time) pair is released once the team's DRAIN.DONE covers it. (R259) -/
  | countRetire (index : Nat)
  /-- The root computes a location's frontier from its totals and announces it to every core. (R256) -/
  | frontierAnnounce (core : Nat) (asid : Nat) (loc : Nat)
  /-- The gatherer accepts a pushed task into a task group and its DRAIN unit drains. (R272) -/
  | taskAccept (index : Nat)
  /-- A group that 256 cycles pass without a task joining becomes a team. (R273) -/
  | taskGroupTimeout (group : Nat) (core : Nat)
  /-- A copy has written every byte of a line and the line becomes full. (R193) -/
  | copyLineFilled (copy : Nat) (chunk : Nat)
  /-- A copy completes and releases its handle, its counts and yielding teams. (R199) -/
  | copyComplete (copy : Nat)
  /-- At each 64 KiB boundary an adv copy re-stamps, moves its counts and renews its leases. (R344) -/
  | copyRestamp (copy : Nat)
  /-- A unit starts its next pending block with cleared state and loaded program. (R307) -/
  | sillBlockStart (chan : Nat)
  /-- An all-bank command starts its next sub-wave of min(LIMIT, LIVE) banks. (R312) -/
  | sillSubwave (chan : Nat)
  /-- A block waiting 2^22 cycles in sl.send, sl.recv or sl.halt ends with SILL detail 8. (R323) -/
  | sillStall (chan : Nat)
  /-- Hearth writes a unit's LIMIT from the stack's thermal state. (R311) -/
  | banklim (chan : Nat) (limit : Nat)
  /-- Hearth chooses a candidate region and writes one bind record. (R285) -/
  | hearthDecision
  /-- A cluster distributor starts the next team of its range on a core that fits it. (R284) -/
  | distributorTeamStart (record : Nat) (core : Nat)
  /-- Every 100 µs Hearth reads telemetry and recomputes K. (R286) -/
  | hearthTimer (watts : Nat) (east : Nat) (west : Nat)
  /-- The drain window of a pre-empted context passes and it enters SEEK. (R359) -/
  | drainWindow (ctx : Nat)
  /-- After 2,700 cycles unsaved teams are fully saved at their next clause boundary. (R359) -/
  | seekDeadline (ctx : Nat)
  /-- A context's state is written and it becomes SAVED, freeing the core. (R359) -/
  | saveComplete (ctx : Nat)
  /-- A context's state is read back and its teams resume, pending deliveries first. (R363) -/
  | restoreComplete (ctx : Nat)
  /-- A walk of the page tables completes with a leaf or a fault. (R336) -/
  | pageWalk (team : Nat) (va : BitVec 64) (write : Bool)
  /-- After its units drain a region enters COMPLETE or FAILED and increments DONEW. (R280) -/
  | regionDone (region : Nat)
  /-- When the frontier at TLOC passes the round time the entrants are ranked and the worse half killed. (R295) -/
  | rank (region : Nat)
  /-- The ticket unit releases a deterministic team's staged effects after its predecessor's release. (R291) -/
  | ticketRelease (region : Nat)
  /-- An idle device enters the deepest power state within LTOL. (R384) -/
  | idleEntry
  /-- A doorbell, admin command or link traffic starts the exit from a power state. (R384) -/
  | powerExit
  /-- A host link trains as PCIe at x16, x8 or x4, or as CXL. (R375) -/
  | hostLinkTrain (link : Nat) (lanes : Nat) (cxl : Bool)
  /-- An expander link goes down, poisoning its replies and marking it lost. (R377) -/
  | cxlLinkLost (expander : Nat)
  /-- A CXL completion times out and the lanes' elements land as 0 with poison. (R357) -/
  | completionTimeout (expander : Nat)
  /-- A Laelle Link port fails and its outstanding reads return poisoned. (R383) -/
  | portFailure (port : Nat)
  /-- A host write to device memory is stored, a poisoned TLP with the metadata poison bit. (R375) -/
  | hostTlpWrite (addr : Nat) (data : List Byte) (poisoned : Bool)
  /-- At reset the boot ROM verifies the firmware signatures and runs Hearth or stays in Vault. (R390) -/
  | deviceReset
  /-- A patrol read checks an atom, correcting, remapping or poisoning it. (R389) -/
  | patrolScrub (atom : Nat) (found : Nat)
  /-- Firmware narrows or retires a pseudo-channel while no block is there and increments its layout id. (R327) -/
  | layoutChange (chan : Nat) (target : Nat) (start : Nat) (base : Nat) (size : Nat)
  /-- A write of the admin producer index makes commands available to Hearth. (R378) -/
  | admpi (value : BitVec 32)
  /-- A write of a work queue's producer index makes its entries available. (R380) -/
  | wqpi (queue : Nat) (value : BitVec 32)
  /-- The host reports admin completions consumed, freeing completion slots. (R381) -/
  | admcc (value : BitVec 32)
  /-- The host reports a work queue's completions consumed, letting more entries be taken. (R381) -/
  | wqcc (queue : Nat) (value : BitVec 32)
  /-- A write to an admin window register without behaviour of its own. (R376) -/
  | bar0Write (offset : Nat) (size : Nat) (value : BitVec 64)
  /-- The device takes a work-queue entry and opens its RCB as a root region. (R380) -/
  | rootSubmission (queue : Nat)
  /-- Creates a work queue with its rings, address space and vector. (R379) -/
  | createWq (queue : Nat) (ring : BitVec 64) (slots : Nat) (compl : BitVec 64) (asid : Nat) (vector : Nat)
  /-- Deletes a work queue once its root regions are CLOSED. (R379) -/
  | deleteWq (queue : Nat)
  /-- Registers an address space from its translation record. (R379) -/
  | registerAs (record : BitVec 64)
  /-- Releases an address space with no open region and clears its images. (R379) -/
  | releaseAs (asid : Nat)
  /-- Answers a page request with RETRY or DECLARE. (R345) -/
  | pageAnswer (rid : Nat) (answer : Nat)
  /-- Raises the generation floor of a timeline with no counts. (R379) -/
  | raiseFloor (asid : Nat) (timeline : Nat) (value : Nat)
  /-- Defines a host publication window. (R379) -/
  | setWindow (window : Nat) (asid : Nat) (base : BitVec 64) (length : BitVec 64) (bar2 : BitVec 64) (version : BitVec 64)
  /-- Removes a window after its publishes in progress. (R379) -/
  | clearWindow (window : Nat)
  /-- Sets the host power cap, 1,200..2,600 W. (R386) -/
  | setCap (watts : Nat)
  /-- Sets the latency tolerance for idle power states. (R384) -/
  | setLtol (micros : BitVec 32)
  /-- Sets the drain window of later pre-emptions. (R379) -/
  | setDrain (cycles : Nat)
  /-- Sets the debug enable and resumes a context that sys.dbg saved. (R373) -/
  | debug (asid : Nat) (enable : Bool) (ctx : Nat)
  /-- Clears the lost mark of an expander. (R377) -/
  | resetLink (link : Nat) (expander : Nat)
  /-- Copies device-fault-log entries to a host buffer. (R366) -/
  | readFaultlog (buffer : BitVec 64) (first : BitVec 64) (count : Nat)
  /-- Pre-empts every context and writes memory and state to the Cellar. (R387) -/
  | checkpoint (target : BitVec 64) (asids : BitVec 64)
  /-- The checkpoint finishes writing, records its sequence number and resumes the device. (R388) -/
  | checkpointComplete
  /-- Writes back a Cellar checkpoint, leaving contexts SAVED and regions READY. (R387) -/
  | restore (target : BitVec 64)
  /-- Verifies a signed Plely image and admits its sections for an address space. (R394) -/
  | checkImage (asid : Nat) (addr : BitVec 64) (length : Nat)
  /-- Fills a key slot with Ed25519 and ML-DSA-65 public keys. (R392) -/
  | enrolKey (pair : BitVec 64) (slot : Nat)
  /-- Writes a verified firmware image to flash for the next reset. (R391) -/
  | loadFw (image : BitVec 64)
  /-- Writes a signed attestation report with the nonce. (R393) -/
  | attest (nonce : List Byte) (buffer : BitVec 64)
  /-- Writes one consistent snapshot of the device state. (R382) -/
  | summary (buffer : BitVec 64) (length : Nat)
  /-- A host link fails; a checkpoint in progress then leaves the Cellar state 3 and the device resumes. (R388) -/
  | linkFailure (link : Nat)
  /-- A lost expander link retrains, after which RESET_LINK can clear its lost mark. (R377) -/
  | cxlLinkRetrain (expander : Nat)
  deriving DecidableEq, Repr

end Sys2Proof
end

