-- ==== Sys2Proof/Machine/State.lean ====
section
/-! DEFINITION. The state of the machine as plain data: teams, cores, clusters, memory, Mortar
queues, copies, Sill units, address spaces, regions, Hearth and its host interface; the state
after reset; and the reasons a step can stop. Each field's docstring names the rule that gives
it. -/

namespace Sys2Proof.Machine

/-- Sparse data by key: keys strictly rising, no entry equal to what an unlisted key reads as. -/
abbrev SMap (α : Type) := List (Nat × α)

/-- The cause codes of a fault record (R353). -/
inductive Cause
  | encoding | header | misalign | nomap | protect | absent | lease | poison | remote | qstall
  | fpinv | fpdivz | fpovf | fpunf | fpinx | determ | optab | budget | timeuse | scratch | accum
  | latchkey | sill | layout | user | cstack | safegap
  deriving DecidableEq, Repr, Inhabited

/-- A fault record before it is laid out in 32 bytes (R350). -/
structure Rec where
  /-- Effective address, 0 where the cause has none. -/
  ea : Word := 0
  /-- 0..15, 0xF header, 0xE Sill, 0xD another header delivery. -/
  index : Nat := 0
  clause : Word := 0
  /-- TEAMIX of the team. -/
  teamix : Nat := 0
  lane : Nat := 0
  /-- Access size in bytes. -/
  size : Nat := 0
  cause : Cause
  detail : Nat := 0
  ctx : Nat := 0
  /-- The cause code that poisoned the register, for POISON. -/
  origin : Nat := 0
  decimal : Bool := false
  store : Bool := false
  load : Bool := false
  logged : Bool := false
  hdr : Bool := false
  /-- It keeps the clause and index it names when it is delivered at a header (R205). -/
  named : Bool := false
  deriving DecidableEq, Repr, Inhabited

/-- A kernel descriptor as read (R51). -/
structure Desc where
  addr : Nat := 0
  entry : Word := 0
  traph : Word := 0
  livetab : Word := 0
  psumtab : Word := 0
  optabs : Word := 0
  lanes : Nat := 32
  vregs : Nat := 128
  sregs : Nat := 64
  scratch : Nat := 0
  accrows : Nat := 0
  argbytes : Nat := 0
  ten : Nat := 0
  det : Nat := 0
  prio : Nat := 0xFF
  layout : Nat := 0xFFFFFFFF
  tdepth : Nat := 4
  affarg : Nat := 0xFF
  livecnt : Nat := 0
  optcnt : Nat := 0
  psumcnt : Nat := 0
  deriving DecidableEq, Repr, Inhabited

/-- A launch: the region that carries it and, in a tournament, the entrant (R277, R292). -/
structure LaunchId where
  region : Nat := 0
  entrant : Nat := 0
  deriving DecidableEq, Repr, Inhabited

/-- A (location, time) pair a team holds, with the number of counts that stand behind it (R258,
R274). -/
structure Hold where
  loc : Nat
  stamp : Stamp
  share : Nat := 1
  /-- The pair of a gathered team's tasks, which its lanes share (R274). -/
  task : Bool := false
  deriving DecidableEq, Repr, Inhabited

/-- The kinds of a reconvergence entry (R25). -/
inductive EntryKind
  | pending | merge | park
  deriving DecidableEq, Repr, Inhabited

/-- An entry of the reconvergence stack (R25). -/
structure StackEntry where
  kind : EntryKind
  pc : Word
  mask : Mask
  deriving DecidableEq, Repr, Inhabited

/-- The binding of a queue register (R205), with the words of an incomplete command pushed under
it (R206). -/
structure QBind where
  kind : Nat
  ident : Nat
  words : List Word := []
  deriving DecidableEq, Repr, Inhabited

/-- The clause that is issuing (R20): its header's address and fields, its words, and the index
of the next word. -/
structure OpenClause where
  header : Word
  eng : Nat
  safe : Bool := false
  words : List Word
  idx : Nat := 0
  deriving DecidableEq, Repr, Inhabited

/-- A transfer that takes effect at the end of the open clause. -/
inductive Transfer
  /-- A taken branch, jump, call or return (R86, R87, R26). -/
  | jump (target : Word)
  /-- cp.yield: wait for a copy, 0 for all of them, then continue at the target (R204). -/
  | yield (handle : Nat) (target : Word)
  deriving DecidableEq, Repr, Inhabited

/-- How far an instruction has come that stands at a blocking point (R187). -/
structure Progress where
  served : Mask := 0
  popped : List (Nat × Word) := []
  step : Nat := 0
  reissue : Bool := false
  unitNow : Option Nat := none
  groupNow : Option Nat := none
  deriving DecidableEq, Repr, Inhabited

/-- Where a team resumes after a delivery (R355, R369). -/
structure Resume where
  clause : Word := 0
  /-- The index of the instruction, 0 at a header. -/
  index : Nat := 0
  /-- The point is a header rather than an instruction. -/
  atHeader : Bool := true
  /-- The point is an instruction that faulted and did not retire. -/
  faulted : Bool := false
  /-- The transfer that the interrupted clause had still to make at its end. -/
  after : Option Transfer := none
  /-- A sys.yield of the interrupted clause has still to take effect (R372). -/
  gaveUp : Bool := false
  /-- What the instruction at the point has already done (R187). -/
  progress : Progress := {}
  deriving DecidableEq, Repr, Inhabited

/-- A delivery that is built and not yet written (R355, R356, R358). -/
structure Delivery where
  recs : List Rec
  resume : Resume
  deriving DecidableEq, Repr, Inhabited

/-- A point at which a team stands and issues nothing (R187, R346, R360). -/
structure Block where
  /-- The detail QSTALL would carry, 0 where the wait is exempt. -/
  detail : Nat := 0
  /-- The lane QSTALL would name. -/
  lane : Nat := 0
  /-- The page requests the team waits on (R346). -/
  rids : List Nat := []
  /-- A point at which a team may be saved (R187, R360). -/
  point : Bool := true
  /-- The team is held by a page or by a full side log, or waits for the Latchkey: no record is delivered
  there (R172, R346, R347, R354). -/
  held : Bool := false
  deriving DecidableEq, Repr, Inhabited

/-- A fault that a DECLARE answered (R346): a 4 KiB page with the cause and the detail. -/
structure Declared where
  page : Nat
  cause : Cause
  detail : Nat
  deriving DecidableEq, Repr, Inhabited

/-- A lane register or a scalar register of a team. -/
inductive Dst
  | v (lane reg : Nat)
  | s (reg : Nat)
  deriving DecidableEq, Repr, Inhabited

/-- A result that has not landed: its register, its bits, and the code of the cause that poisoned
it, 0 for none (R23, R357). -/
structure Result where
  dst : Dst
  value : Word
  poison : Nat := 0
  deriving DecidableEq, Repr, Inhabited

/-- An element that a load has requested and that has not landed (R188). -/
structure Part where
  lane : Nat
  /-- The first register it lands in, the second one behind it for 8 bytes of lane registers. -/
  dst : Dst
  /-- Physical key of its first byte. -/
  key : Nat
  size : Nat
  /-- A signed type narrower than the register. -/
  signed : Bool
  deriving DecidableEq, Repr, Inhabited

/-- An instruction in flight (R23, R188, R225). -/
structure Op where
  ident : Nat
  /-- How many further instructions may issue before it completes; none for a split-phase load
  or a mem.opx, which hold nothing back. -/
  window : Option Nat := none
  parts : List Part := []
  results : List Result := []
  /-- Flags it raises when it completes (R136). -/
  fpf : Nat := 0
  dcf : Nat := 0
  /-- The arrival counter that gains one when every part has landed. -/
  counter : Option Nat := none
  /-- Mortar operations of it that are not yet accepted or answered (R225). -/
  mortar : Nat := 0
  /-- An mx instruction (R171). -/
  matrix : Bool := false
  /-- Its faults, reported when it completes, with the point at which sys.eret resumes (R24). -/
  faults : List Rec := []
  resume : Resume := {}
  deriving DecidableEq, Repr, Inhabited

/-- A task (R272, R89). Its record is 32 bytes, four words. -/
structure Task where
  /-- 1 tk.push, 2 ctl.callv. -/
  kind : Nat
  desc : Nat
  loc : Nat
  stamp : Stamp
  record : List Word
  launch : LaunchId
  asid : Nat
  timeline : Nat
  /-- The team that pushed it, and its DRAIN unit. -/
  pusher : Nat
  unit : Nat
  /-- The parent's lane, for ctl.callv. -/
  lane : Nat := 0
  /-- The ctl.callv it came from, 0 for tk.push (R273). -/
  call : Nat := 0
  /-- Page requests that the reading of its descriptor waits on (R346). -/
  rids : List Nat := []
  deriving DecidableEq, Repr, Inhabited

/-- What a task's lane remembers of it: the record (R275) and the parent's lane (R91). -/
structure LaneTask where
  record : List Word
  parent : Nat
  lane : Nat
  deriving DecidableEq, Repr, Inhabited

/-- A slot of an early-push ring (R265). -/
structure RingSlot where
  bytes : List Byte
  stamp : Stamp
  /-- Timeline of its count, the pusher's (R253). -/
  timeline : Nat
  eos : Bool
  producer : Nat
  drain : Nat
  deriving DecidableEq, Repr, Inhabited

/-- The bytes of a store, of a copy or of a host write that no slice has accepted (R186). -/
structure PendWrite where
  team : Nat
  unit : Nat
  /-- The access path (R184); 7 for a host or peer write. -/
  path : Nat
  /-- The lane that stores, 0 for a uniform access (R350). -/
  lane : Nat := 0
  /-- Virtual address, and physical key, of the first byte. -/
  va : Word := 0
  key : Nat
  bytes : List Byte
  asid : Nat
  /-- The writes that together may clear a poisoned burst (R389): one instruction's, one copy's. -/
  group : Nat
  /-- How often the copy had re-stamped when it moved them (R344). -/
  part : Nat := 0
  poisoned : Bool := false
  deriving DecidableEq, Repr, Inhabited

/-- One Mortar operation, on its way or pending at its word (R210, R215). -/
structure MortarOp where
  team : Nat
  unit : Nat
  asid : Nat
  /-- Physical key of the word and its size. -/
  key : Nat
  size : Nat
  /-- 0 LOAD, 1 STORE, 2 COMBINE. -/
  kind : Nat
  ty : Nat
  fn : Nat
  inexact : Bool := false
  /-- The table's version in its address space, 0 for an operation no relation covers (R349). -/
  version : Nat := 0
  table : Nat := 0
  slot : Nat := 0
  /-- The operand's bits. -/
  value : Word := 0
  /-- Further operands an x32 entry keeps exactly (R220). -/
  more : List Word := []
  det : Bool := false
  /-- The operation in flight that a LOAD answers, with its destination; none discards it. -/
  op : Nat := 0
  dst : Option Dst := none
  deriving DecidableEq, Repr, Inhabited

/-- An entry of a core's side log (R348). -/
structure SideEntry where
  /-- 0 lane store, 1 front store, 2 Mortar operation. -/
  kind : Nat
  team : Nat
  unit : Nat
  asid : Nat
  timeline : Nat
  va : Word
  /-- log2 of the element's size. -/
  size : Nat
  data : Word
  gen : Nat
  cause : Cause
  detail : Nat
  lane : Nat
  opk : Nat := 0
  ty : Nat := 0
  fn : Nat := 0
  ctx : Nat := 0
  /-- The page request it waits on, if one was posted. -/
  rid : Option Nat := none
  group : Nat := 0
  deriving DecidableEq, Repr, Inhabited

/-- An effect of a deterministic team that the ticket unit has not released (R291). -/
inductive Effect
  | write (w : PendWrite)
  | mortar (m : MortarOp)
  /-- A tk.eq push to the ring named by its number, counted at a location, with its place in the team's
  program order. -/
  | push (ring loc order : Nat) (slot : RingSlot)
  | task (t : Task)
  /-- A copy command or a cp.put, by the number of its copy. -/
  | copy (ident : Nat)
  /-- A fence: what lies behind it on the paths `to` is released once what the team issued before it on the
  paths `from_`, up to a unit and before the object of a number, has been performed (R196, R197, R234). -/
  | fence (from_ to_ unit before : Nat)
  deriving DecidableEq, Repr, Inhabited

/-- A word pushed to the matrix command stream and not yet executed (R205): it and the instruction
that pushed it, with the page requests it waits on and those declared. -/
structure MxWord where
  word : Word
  clause : Word
  index : Nat
  rids : List Nat := []
  declared : List Declared := []
  deriving DecidableEq, Repr, Inhabited

/-- A mx.wload whose bytes are not all in place (R175). -/
structure Wload where
  ident : Nat
  team : Nat
  /-- Physical key of each byte still to place with its offset in the buffer: runs. -/
  runs : List (Nat × Nat × Nat)
  counter : Nat
  deriving DecidableEq, Repr, Inhabited

/-- A cached translation (R339). -/
structure Tlb where
  asid : Nat
  /-- First address and size of what it maps. -/
  va : Nat
  size : Nat
  /-- Physical address of its first byte, in the numbering of its KIND (R334). -/
  frame : Nat
  kind : Nat
  r : Bool
  w : Bool
  x : Bool
  tlid : Nat
  lend : Nat
  deriving DecidableEq, Repr, Inhabited

/-- What a callee had issued when a lane of it returned: its units up to one, and what it had issued without a unit
before the object of a number. The counts its parent retires from then on, by the number `since`, wait for it
(R242, R291). -/
structure Owed where
  since : Nat
  team : Nat
  unit : Nat
  before : Nat
  deriving DecidableEq, Repr, Inhabited

/-- Where a team is (R293, R359). -/
inductive Place
  | resident | saved | ended
  deriving DecidableEq, Repr, Inhabited

/-- One team (R8, R9). -/
structure Team where
  asid : Nat := 0
  /-- Timeline of its root (R337). -/
  timeline : Nat := 0
  launch : LaunchId := {}
  desc : Desc := {}
  /-- LANES: the descriptor's, or the tasks gathered (R90, R274). -/
  lanes : Nat := 32
  teamix : Nat := 0
  /-- 0 launch, 1 tk.push, 2 ctl.callv (R275). -/
  origin : Nat := 0
  /-- Queue location of its tasks (R274). -/
  taskLoc : Nat := 0
  tasks : List LaneTask := []
  /-- Residency: the core, the slot, and whether it is resident (R8). -/
  place : Place := .resident
  core : Nat := 0
  slot : Nat := 0
  /-- The bind record that started it, for a launch team (R283). -/
  bind : Option Nat := none
  /-- Its context number (R359). -/
  ctx : Nat := 0
  /-- Parked in a tournament (R293). -/
  parked : Bool := false
  /-- Saved by sys.dbg or about to be (R373). -/
  debugStop : Bool := false
  /-- The live mask it was saved under, all ones for a full save (R361). -/
  saveLive : BitVec 240 := BitVec.allOnes 240
  fullSave : Bool := true
  /-- It held the Latchkey when it was saved, with the weight buffer as it stood (R172). -/
  keptKey : Bool := false
  keptBuf : SMap Byte := []
  keptPoison : SMap Nat := []
  keptTags : SMap Bool := []
  /-- Its mx.wloads that have still to fill that buffer, as they fill the one of the core it left (R172, R175). -/
  keptLoads : List Wload := []
  /-- EXM (R10). -/
  exm : Mask := 0
  /-- K1..K15 (R10). -/
  k : SMap Mask := []
  /-- A0..A15 (R9). -/
  a : SMap (BitVec 8) := []
  /-- V0..V127 of every lane, by 128 * lane + register (R62). -/
  v : SMap LaneWord := []
  /-- S0..S63 (R62). -/
  s : SMap Word := []
  /-- ORIGIN codes of the poisoned V registers, by 128 * lane + register (R357). -/
  vPoison : SMap Nat := []
  /-- ORIGIN codes of the poisoned S registers (R357). -/
  sPoison : SMap Nat := []
  /-- Q0..Q15 (R205). -/
  q : SMap QBind := []
  /-- The reconvergence stack, top first (R25). -/
  stack : List StackEntry := []
  /-- Lanes that have exited (R26, R32). -/
  exited : Mask := 0
  /-- The header that control takes next (R17). -/
  pc : Word := 0
  clause : Option OpenClause := none
  after : Option Transfer := none
  /-- A sys.eret of the open clause, by its MOD, that takes effect at the clause's end (R369). -/
  returning : Option Nat := none
  /-- Instructions of the next clause that are not issued, as it resumes behind them (R369). -/
  skip : Nat := 0
  block : Option Block := none
  /-- Progress of the instruction the team stands at: lanes or words served. -/
  served : Mask := 0
  popped : List (Nat × Word) := []
  step : Nat := 0
  /-- The open instruction has issued before and resumes (R289). -/
  reissue : Bool := false
  /-- DRAIN unit and program-order number of the open instruction. -/
  unitNow : Option Nat := none
  groupNow : Option Nat := none
  declared : List Declared := []
  /-- Cycles spent at the blocking point (R187). -/
  stalled : Nat := 0
  /-- ACCB.BASE (R164). -/
  accb : BitVec 12 := 0
  /-- MXC (R170): bit 7 ZACC, bits 6:0 WSLOT. -/
  mxc : BitVec 8 := 0
  /-- FPC, FPF, DCC, DCF (R131, R132, R133). -/
  fpc : BitVec 64 := 0
  fpf : BitVec 5 := 0
  dcc : BitVec 64 := 0
  dcf : BitVec 5 := 0
  /-- FRECB.BASE, bits 56:5 of the record area's address (R351). -/
  frecb : BitVec 52 := 0
  /-- CAUSE (R352) and RPC (R355). -/
  handler : Bool := false
  causeCount : Nat := 0
  causeOrigin : Nat := 0
  causeCode : Nat := 0
  rpc : Resume := {}
  /-- The records of the delivery being handled, for `drop` (R369). -/
  handled : List Rec := []
  delivery : Option Delivery := none
  /-- Records that wait for a header (R354). -/
  headerRecs : List Rec := []
  score : Word := 0
  /-- ALLOW (R289), all ones when none is imposed. -/
  allow : Word := BitVec.allOnes 64
  /-- ALLOW has reached 0 and BUDGET has not been raised for it (R289). -/
  budgetDue : Bool := false
  /-- SPLIT (R325). -/
  split : Nat := 16
  /-- NOW at DEPTH (R249). -/
  now : Stamp := [0]
  holds : List Hold := []
  /-- DRAIN.ISSUED, before it is cut to 32 bits, and the units not drained with the operations
  each still owes (R186). -/
  issued : Nat := 0
  undrained : List (Nat × Nat) := []
  /-- What its callees had staged when they returned to it, not yet performed (R242). -/
  owed : List Owed := []
  /-- The next copy sequence number (R199). -/
  copySeq : BitVec 32 := 1
  /-- Gap count (R360). -/
  gap : Nat := 0
  ops : List Op := []
  /-- Accumulator rows by 128 * row + column, and how many it has (R163). -/
  acc : SMap LaneWord := []
  accrows : Nat := 0
  /-- Staged effects of a deterministic team, oldest first (R291). -/
  staged : List Effect := []
  /-- The ticket unit releases its effects as they issue (R291). -/
  released : Bool := false
  /-- It has taken a Latchkey in mx.take and waits (R171). -/
  wantsKey : Bool := false
  /-- It issues nothing until its PARK entry pops (R26, R89). -/
  parkWait : Bool := false
  /-- A sys.yield of the open clause takes effect at its end, and the teams of the core that then
  go ahead (R372). -/
  gaveUp : Bool := false
  behind : List Nat := []
  /-- It has made an acquire at device or system scope: its later loads are served at the slices
  (R196, R239). -/
  acquired : Bool := false
  /-- Words of its matrix command stream not yet executed, oldest first (R205). -/
  mxq : List MxWord := []
  /-- The last-page register of each lane and the front unit's page register for the team (R340). -/
  lanePages : SMap Tlb := []
  frontPage : Option Tlb := none
  deriving DecidableEq, Repr, Inhabited

/-- The states of a core's Latchkey (R171). -/
inductive Latch
  | free
  | held (team : Nat)
  | passing (team slot : Nat)
  deriving DecidableEq, Repr, Inhabited

/-- A line of a core's load cache (R184, R357). -/
structure CacheLine where
  /-- Physical key of its 64 bytes. -/
  key : Nat
  bytes : List Byte
  /-- ORIGIN code of the poison the line was filled with, 0 for none. -/
  poison : Nat
  /-- Teams that came to the core since it was filled and have not read it since (R374). -/
  gone : List Nat
  deriving DecidableEq, Repr, Inhabited

/-- A launch's scratchpad allocation on a core (R183). -/
structure Alloc where
  launch : LaunchId
  size : Nat
  bytes : SMap Byte := []
  /-- Lines that are empty (R193). -/
  empties : List Nat := []
  /-- ORIGIN codes of poisoned bytes (R199). -/
  poison : SMap Nat := []
  deriving DecidableEq, Repr, Inhabited

/-- One contribution to a collective (R200). -/
structure Slice where
  idx : Nat
  team : Nat
  handle : Nat
  src : Word
  off : Nat
  size : Nat
  adv : Bool
  stamp : Stamp
  pairs : List Hold
  /-- Its place in the team's program order (R232). -/
  order : Nat
  deriving DecidableEq, Repr, Inhabited

/-- A collective that is forming (R200). -/
structure Coll where
  launch : LaunchId
  key : Nat
  mem : Nat
  slices : List Slice
  deriving DecidableEq, Repr, Inhabited

/-- The latest announcement of a frontier that a core has received (R256). -/
structure Announced where
  asid : Nat
  loc : Nat
  front : Option Stamp
  deriving DecidableEq, Repr, Inhabited

/-- One core (R283). -/
structure Core where
  /-- CYC (R29). -/
  cyc : Word := 0
  latch : Latch := .free
  /-- Weight buffer, 393,216 bytes, the ORIGIN code of poisoned bytes, and the sparse tags
  (R166, R173). -/
  wbuf : SMap Byte := []
  wpoison : SMap Nat := []
  tags : SMap Bool := []
  wloads : List Wload := []
  cache : List CacheLine := []
  /-- The side log (R347), oldest first. -/
  log : List SideEntry := []
  tlb : List Tlb := []
  allocs : List Alloc := []
  colls : List Coll := []
  heard : List Announced := []
  /-- The address space the core was last bound to (R166). -/
  asid : Nat := 0
  deriving DecidableEq, Repr, Inhabited

/-- An attached early-push ring (R265, R266). -/
structure Ring where
  asid : Nat
  desc : Word
  /-- Physical key of the descriptor. -/
  key : Nat
  /-- Owner core and the launch whose allocation there holds it. -/
  core : Nat
  launch : LaunchId
  line : Nat
  slotSize : Nat
  slots : Nat
  head : BitVec 32
  tail : BitVec 32
  loc : Nat
  /-- The slots between HEAD and TAIL, oldest first. -/
  queue : List RingSlot := []
  timeline : Nat
  deriving DecidableEq, Repr, Inhabited

/-- A copy in progress (R199 to R202, R205). -/
structure Copy where
  team : Nat
  /-- The team's handles that complete with it, team and sequence number (R200). -/
  handles : List (Nat × Nat)
  /-- 0 collective, 1 gather, 2 put, 3 command. -/
  kind : Nat
  core : Nat
  launch : LaunchId
  asid : Nat
  timeline : Nat
  /-- What is still to move, in order: global source or destination, scratchpad offset, size. -/
  runs : List (Word × Nat × Nat) := []
  /-- Rows of a gather whose index is still to be read: its address, scratchpad offset, size (R201). -/
  rows : List (Word × Nat × Nat) := []
  /-- Destination address of a command, whose source is the run's address (R205); table of a gather. -/
  dst : Word := 0
  /-- Completion word of a command, 0 for none (R205). -/
  done : Word := 0
  /-- Copy engine of a command, by which it waits its turn (R205). -/
  engine : Option Nat := none
  /-- DRAIN unit, none for a fill (R186). -/
  unit : Option Nat := none
  adv : Bool := false
  /-- Bytes moved, for the 64 KiB boundary (R344). -/
  moved : Nat := 0
  restamp : Bool := false
  stamp : Stamp := [0]
  pairs : List Hold := []
  /-- Page requests it is paused on. -/
  rids : List Nat := []
  /-- A fault was declared (R205). -/
  failed : Bool := false
  /-- Lines of scratchpad it still has to fill. -/
  lines : List Nat := []
  /-- Every byte has been moved; a put or a command waits for acceptance. -/
  issuedAll : Bool := false
  /-- The ticket unit has not released it (R291). -/
  held : Bool := false
  /-- Its place in the team's program order (R232). -/
  order : Nat
  /-- How often it has re-stamped (R344). -/
  part : Nat := 0
  /-- Translations that its engine holds for it (R339). -/
  tlb : List Tlb := []
  deriving DecidableEq, Repr, Inhabited

/-- A block of a grid on a Sill unit (R307, R326). -/
structure SillBlock where
  grid : Nat
  index : Nat
  team : Nat
  asid : Nat
  timeline : Nat
  gen : Nat
  prog : List (BitVec 32)
  /-- Affinity address and SPLIT (R307). -/
  affinity : Word
  split : Nat
  /-- The block stops after its current instruction (R328). -/
  stop : Bool := false
  deriving DecidableEq, Repr, Inhabited

/-- An active loop of a Sill block (R318). -/
structure SillLoop where
  counter : Nat
  start : Nat
  stop : Nat
  deriving DecidableEq, Repr, Inhabited

/-- One Sill unit (R306, R311). -/
structure Sill where
  running : Option SillBlock := none
  pending : List SillBlock := []
  idx : Nat := 0
  w : SMap (BitVec 256) := []
  g : SMap Word := []
  l : SMap (BitVec 16) := []
  /-- Active loops, innermost first. -/
  loops : List SillLoop := []
  allBank : Bool := false
  inq : List Word := []
  outq : List Word := []
  /-- By 4 * bank + register. -/
  bx : SMap (BitVec 512) := []
  /-- By 32 * bank + 16 * P + entry. -/
  ba : SMap (BitVec 32) := []
  /-- BANKLIM: LIMIT and LIVE, 16 less the value (R311). -/
  limitLess : Nat := 0
  liveLess : Nat := 0
  /-- Banks acted on by the command in progress, and its channel offset (R312). -/
  wave : Nat := 0
  base : Nat := 0
  /-- Words of a send or receive already moved (R323). -/
  words : Nat := 0
  /-- The block waits in sl.send, sl.recv or sl.halt. -/
  waiting : Bool := false
  /-- Words still poppable after the block that sent them ended by a fault, with the team that
  launched it (R324). -/
  left : List (Nat × Word) := []
  /-- Translations that the unit holds (R339). -/
  tlb : List Tlb := []
  deriving DecidableEq, Repr, Inhabited

/-- A grid: its join location, its hold, its size and the blocks that have not ended (R326,
R328). -/
structure Grid where
  team : Nat
  asid : Nat
  timeline : Nat
  loc : Nat
  stamp : Stamp
  size : Nat
  blocks : Nat
  /-- Blocks that no unit has accepted yet, in ascending order, with their pseudo-channels (R326). -/
  rest : List (Nat × SillBlock) := []
  deriving DecidableEq, Repr, Inhabited

/-- The total of the counts at one pair (R253, R254), by timeline (R338). -/
structure Count where
  timeline : Nat
  loc : Nat
  stamp : Stamp
  n : Nat
  deriving DecidableEq, Repr, Inhabited

/-- An entry that a pair has taken in the count hierarchy (R254): level 0 core, 1 cluster,
2 die, 3 root, with the number of the node. -/
structure CountEntry where
  level : Nat
  node : Nat
  loc : Nat
  stamp : Stamp
  deriving DecidableEq, Repr, Inhabited

/-- What a −1 waits for (R259). -/
inductive Until
  /-- The team's units up to a number have drained, and what it issued without a unit before the object of
  a number has been performed (R242). -/
  | drained (team unit before : Nat)
  /-- The writes of a grid, of the groups from `group` on, have been accepted. -/
  | accepted (group count : Nat)
  /-- The writes that a copy moved before its re-stamp of a number have been accepted. -/
  | moved (copy part : Nat)
  deriving DecidableEq, Repr, Inhabited

/-- A −1 not yet released (R259). -/
structure Retire where
  timeline : Nat
  loc : Nat
  stamp : Stamp
  n : Nat
  till : Until
  deriving DecidableEq, Repr, Inhabited

/-- The actions of a path summary (R252, R54). -/
inductive Action
  | keep
  | inc (k : Nat)
  | enter
  | leave
  deriving DecidableEq, Repr, Inhabited

/-- A path-summary entry with the launches that added it (R252). -/
structure Psum where
  src : Nat
  dst : Nat
  act : Action
  users : List Nat := []
  deriving DecidableEq, Repr, Inhabited

/-- One entry of a reach list (R252). -/
structure Reach where
  dst : Nat
  src : Nat
  acts : List Action
  deriving DecidableEq, Repr, Inhabited

/-- A range of an admitted image: section id, first address, size (R394). -/
structure Section where
  ident : Nat
  addr : Nat
  size : Nat
  deriving DecidableEq, Repr, Inhabited

/-- One address space (R332). -/
structure Space where
  /-- Physical address of its translation record, and the record's fields. -/
  record : Nat := 0
  root : Nat := 0
  prqb : Nat := 0
  prqn : Nat := 16
  prqt : Nat := 0
  floorb : Nat := 0
  /-- Records written to the page-request ring. -/
  prqTail : Nat := 0
  /-- Operator-table bindings by table number: the version, a number that no other bind takes (R213, R214). -/
  bound : SMap Nat := []
  /-- The copy of each version's table. -/
  tables : SMap (List Byte) := []
  psums : List Psum := []
  reach : List Reach := []
  counts : List Count := []
  entries : List CountEntry := []
  retires : List Retire := []
  /-- Floors of the timelines (R338), and the greatest c0 each has held. -/
  floors : SMap Nat := []
  tops : SMap Nat := []
  /-- Admitted images (R394). -/
  images : List (List Section) := []
  debug : Bool := false
  deriving DecidableEq, Repr, Inhabited

/-- The states of a region (R280). -/
inductive RState
  | ready | running | complete | failed | closed
  deriving DecidableEq, Repr, Inhabited

/-- The states of a tournament's entrant (R293). -/
inductive EState
  | run | parked | finished | killed
  deriving DecidableEq, Repr, Inhabited

/-- Team indices: ranges of a first index and a count, ascending. -/
abbrev Ranges := List (Nat × Nat)

/-- A launch inside its region: the one of a plain region, or one entrant's (R277, R292). -/
structure Launch where
  state : EState := .run
  /-- The team indices not bound, and how many have started and ended. -/
  left : Ranges := []
  started : Nat := 0
  ended : Nat := 0
  /-- Groups formed: the next gathered team index above TEAMS (R273). -/
  gathered : Nat := 0
  /-- Gathered teams that have ended. -/
  gatheredEnded : Nat := 0
  cores : Nat := 0
  scratchk : Nat := 0
  accrows : Nat := 0
  /-- Core reserve granted by rg.grow (R289), and shares of a ranking, scratchpad in bytes (R296). -/
  reserve : Nat := 0
  shareCores : Nat := 0
  shareScratch : Nat := 0
  shareRows : Nat := 0
  /-- Bytes of scratchpad that rg.grow has drawn from the launch's shares (R301). -/
  grown : Nat := 0
  /-- SCORE values of the teams that have ended (R295). -/
  scores : List Word := []
  /-- An entrant that a fatal fault has killed (R290). -/
  fell : Bool := false
  /-- Its count at the launch's pair still stands (R253). -/
  counted : Bool := true
  /-- The next team index the ticket unit releases (R291). -/
  ticket : Nat := 0
  deriving DecidableEq, Repr, Inhabited

/-- A region (R277, R278). -/
structure Region where
  asid : Nat := 0
  timeline : Nat := 0
  /-- RCB address and, for a child, the parent region's number. -/
  rcb : Word := 0
  parent : Option Nat := none
  /-- Physical key of the RCB, and the entrant of the parent whose team opened it (R295). -/
  key : Nat := 0
  opener : Nat := 0
  kind : Nat := 0
  prio : Nat := 0
  energy : Nat := 0
  fdpol : Nat := 0
  cores : Nat := 0
  scratchk : Nat := 0
  accrows : Nat := 0
  allowb : Word := 0
  desc : Desc := {}
  args : List Word := []
  teams : Nat := 1
  inloc : Nat := 0
  /-- TIME after R279, with the coordinate that KIND 1 or 2 appends. -/
  time : Stamp := [0]
  state : RState := .ready
  cause : Nat := 0
  donew : Word := 0
  /-- Deterministic: by KIND, by an ancestor, or by DET (R279). -/
  det : Bool := false
  entrants : Nat := 0
  roundcap : Nat := 1
  cmp : Nat := 0
  round : Nat := 0
  winner : Nat := 0xFF
  tloc : Nat := 0
  arena : Word := 0
  arenasz : Word := 0
  launches : List Launch := []
  /-- The region's own count of a tournament: the time it stands at (R294). -/
  roundCount : Option Stamp := none
  /-- The tournament has reached DONE (R294). -/
  decided : Bool := false
  /-- Order in which it became READY, credit and passed count (R285). -/
  order : Nat := 0
  credit : Int := 0
  passed : Nat := 0
  depth : Nat := 1
  /-- For a root: its work queue and TAG (R380). -/
  queue : Nat := 0
  tag : Word := 0
  /-- The entry to COMPLETE or FAILED has been written and DONEW incremented (R280). -/
  reported : Bool := false
  /-- Page requests that the increment of DONEW waits on, and those declared. -/
  rids : List Nat := []
  declared : List Declared := []
  deriving DecidableEq, Repr, Inhabited

/-- A bind record (R283), with the range of each cluster's distributor still to start (R284). -/
structure Bind where
  region : Nat := 0
  entrant : Nat := 0
  rcb : Word := 0
  first : Nat := 0
  count : Nat := 0
  cmask : BitVec 160 := 0
  dp : Nat := 4
  /-- 1 valid, 2 retiring. -/
  state : Nat := 1
  seq : Nat := 0
  /-- Unstarted indices of each cluster's distributor (R284). -/
  ranges : SMap Ranges := []
  deriving DecidableEq, Repr, Inhabited

/-- The states of a context under pre-emption (R359). -/
inductive CtxState
  | run | drain | seek | saving | saved | restoring
  deriving DecidableEq, Repr, Inhabited

/-- A context: the teams of one launch on one core (R359). What is saved of it stands in the teams
and in its save area (R361). -/
structure Ctx where
  launch : LaunchId := {}
  core : Nat := 0
  state : CtxState := .run
  /-- Order of saving, for R288. -/
  order : Nat := 0
  /-- The core it is being restored to (R288). -/
  dest : Nat := 0
  /-- The seek deadline has passed (R359). -/
  late : Bool := false
  deriving DecidableEq, Repr, Inhabited

/-- An outstanding page request (R345). -/
structure PageReq where
  rid : Nat
  asid : Nat
  /-- Address of the 4 KiB page. -/
  page : Nat
  cause : Cause
  detail : Nat
  access : Nat
  tlid : Nat
  gen : Nat
  /-- Slot of the ring it holds until it is answered. -/
  slot : Nat
  deriving DecidableEq, Repr, Inhabited

/-- A work queue (R380, R381). -/
structure WorkQueue where
  ring : Nat
  slots : Nat
  compl : Nat
  asid : Nat
  vector : Nat
  pi : BitVec 32 := 0
  /-- Entries taken and completions written and reported consumed, modulo 2^32. -/
  taken : BitVec 32 := 0
  written : BitVec 32 := 0
  cc : BitVec 32 := 0
  /-- DELETE_WQ has been taken (R379). -/
  closing : Bool := false
  /-- A root submission waits for these page requests (R281). -/
  rids : List Nat := []
  declared : List Declared := []
  deriving DecidableEq, Repr, Inhabited

/-- A host publication window (R198, R379). -/
structure Window where
  asid : Nat
  base : Word
  length : Word
  bar2 : Word
  /-- Host address of the version word, and the last version. -/
  versionAt : Nat
  version : Word
  deriving DecidableEq, Repr, Inhabited

/-- A host link, an expander or a Laelle Link port (R375, R377, R383, R395). -/
structure Link where
  /-- 0 down, 1 up, 2 lost. -/
  state : Nat := 0
  lanes : Nat := 0
  cxl : Bool := false
  /-- The link has retrained since the mark was set (R377). -/
  retrained : Bool := false
  deriving DecidableEq, Repr, Inhabited

/-- Where firmware moved bytes of a retired channel: `size` of them, from channel offset `start` to
offset `base` of channel `chan` (R327, R334). -/
structure Moved where
  chan : Nat := 0
  start : Nat := 0
  base : Nat := 0
  size : Nat := 0
  deriving DecidableEq, Repr, Inhabited

/-- Repair state of a pseudo-channel (R327, R334, R389). -/
structure Channel where
  /-- Layout id less 1 (R327). -/
  layoutMore : Nat := 0
  /-- Retired: where its contents are served (R334). -/
  moved : Option Moved := none
  /-- Atoms that the base die's table redirects, by their addresses divided by 32. -/
  remapped : List Nat := []
  /-- Atoms corrected once, by their addresses divided by 32. -/
  once : List Nat := []
  corrected : Nat := 0
  uncorrected : Nat := 0
  deriving DecidableEq, Repr, Inhabited

/-- An entry of the device fault log (R366). -/
structure LogEntry where
  seq : Nat
  record : Rec
  deriving DecidableEq, Repr, Inhabited

/-- The power states (R384). -/
inductive Power
  | run | quiet | drowse | slumber | vault
  deriving DecidableEq, Repr, Inhabited

/-- An enrolled key pair: an Ed25519 and an ML-DSA-65 public key, each with its identifier (R392). -/
structure KeyPair where
  edIdent : Nat := 0
  edKey : List Byte := []
  mlIdent : Nat := 0
  mlKey : List Byte := []
  deriving DecidableEq, Repr, Inhabited

/-- Hearth, its registers and its host interface. -/
structure Hearth where
  /-- The slot table of 512 bind records (R283) and the last SEQ. -/
  binds : SMap Bind := []
  seq : Nat := 0
  /-- K, measured power, per-die temperatures and firings of the timer (R286, R388). -/
  k : Nat := 0
  measured : Nat := 0
  east : Nat := 0
  west : Nat := 0
  firings : Nat := 0
  /-- CAP less than 2,600 by this much, as set and as in force (R386). -/
  capLess : Nat := 0
  capNext : Nat := 0
  /-- Consecutive firings above CAP, and the steps of giving way taken (R386). -/
  aboveCap : Nat := 0
  steps : Nat := 0
  /-- The issue rate of copies halved this often, and matrix passes stalled (R386). -/
  copyShift : Nat := 0
  matrixStall : Bool := false
  /-- LIMIT of every unit as it was before each halving (R386). -/
  limits : List (SMap Nat) := []
  ltol : Nat := 0
  power : Power := .run
  /-- Drain window less than 14,000 by this much (R359). -/
  drainLess : Nat := 0
  ctxs : SMap Ctx := []
  requests : List PageReq := []
  nextRid : Nat := 0
  /-- Device fault log (R366) and the next sequence number. -/
  flog : List LogEntry := []
  flogNext : Nat := 0
  /-- Admin queue registers (R376, R381). -/
  admqb : Nat := 0
  admqn : Nat := 0
  admcb : Nat := 0
  admpi : BitVec 32 := 0
  admci : BitVec 32 := 0
  admcc : BitVec 32 := 0
  /-- Admin completions written, modulo 2^32. -/
  admdone : BitVec 32 := 0
  queues : SMap WorkQueue := []
  windows : SMap Window := []
  keys : SMap KeyPair := []
  /-- Firmware in flash, by its bytes as read, and the image that runs since the last reset
  (R390, R391). -/
  flash : List Byte := []
  running : List Byte := []
  bootFailed : Bool := false
  /-- Cellar (R388): state, bytes moved, sequence and firings of the last checkpoint. -/
  cellar : Nat := 0
  cellarBytes : Nat := 0
  cellarSeq : Nat := 0
  cellarAt : Nat := 0
  cellarTarget : Nat := 0
  /-- The address spaces of the checkpoint in progress (R387). -/
  cellarSet : List Nat := []
  patrol : Nat := 0
  links : SMap Link := []
  expanders : SMap Link := []
  ports : SMap Link := []
  /-- Vectors sent (R378, R380), latest first. -/
  msix : List Nat := []
  deriving DecidableEq, Repr, Inhabited

/-- A parent lane that returns once its callee's units up to one have drained, and its stores that take no
unit and were issued before the object of a number have been accepted (R91, R92). -/
structure Return where
  team : Nat
  unit : Nat
  before : Nat
  parent : Nat
  lane : Nat
  deriving DecidableEq, Repr, Inhabited

/-- What a checkpoint wrote (R387). -/
structure Checkpoint where
  seq : Nat
  /-- The pages it covers: KIND, physical address, size. -/
  spans : List (Nat × Nat × Nat)
  mem : List Host.Cell
  metadata : SMap (BitVec 32)
  teams : SMap Team
  returns : List Return
  cores : SMap Core
  rings : SMap Ring
  copies : SMap Copy
  spaces : SMap Space
  regions : SMap Region
  ctxs : SMap Ctx
  tasks : List (Nat × Task)
  pushed : List (Nat × Task)
  requests : List PageReq
  deriving DecidableEq, Repr, Inhabited

/-- Bytes of a burst written under one group, for the poison bit (R389): the group, the burst's
key and a bit a byte. -/
structure Cover where
  group : Nat
  burst : Nat
  bits : BitVec 64
  deriving DecidableEq, Repr, Inhabited

/-- Who acts next: the model's own (log 1). -/
inductive Turn
  /-- A team issues its next word, or takes its next header. -/
  | team (ident : Nat)
  /-- A Sill unit runs its next word. -/
  | sill (chan : Nat)
  /-- Another agent acts: a device event of the opcode table. -/
  | event (e : Instr)
  deriving DecidableEq, Repr, Inhabited

/-- The whole machine. -/
structure State where
  /-- The turns already decided, first first (log 1). -/
  turns : List Turn
  /-- The team whose word is at issue (log 1). -/
  cur : Option Nat
  /-- The Sill unit whose word is at issue (log 1). -/
  curUnit : Option Nat
  /-- How many free values have been taken (log 2). -/
  free : Nat
  /-- The number the next object takes (log 1). -/
  serial : Nat
  teams : SMap Team
  returns : List Return
  cores : SMap Core
  /-- The tasks the gatherers hold, in the order accepted (R272), by cluster of the pusher. -/
  tasks : List (Nat × Task)
  /-- Tasks pushed and not yet accepted, in the order pushed (R272). -/
  pushed : List (Nat × Task)
  /-- Attached rings by number (R266). -/
  rings : SMap Ring
  /-- DRAM, CXL and host memory by physical key (R183, R334). -/
  mem : List Host.Cell
  /-- Metadata of each 64-byte burst of DRAM (R389). -/
  metadata : SMap (BitVec 32)
  covers : List Cover
  /-- Writes that no slice has accepted, oldest first (R186). -/
  writes : List PendWrite
  /-- Mortar operations that have not reached their queue, oldest first (R215). -/
  mortarIn : List MortarOp
  /-- Entries pending in the Mortar queues, oldest first (R215). -/
  mortar : List MortarOp
  copies : SMap Copy
  sills : SMap Sill
  grids : SMap Grid
  channels : SMap Channel
  spaces : SMap Space
  regions : SMap Region
  hearth : Hearth
  /-- Complete checkpoints by their Cellar targets (R387). -/
  cellars : SMap Checkpoint
  deriving DecidableEq, Repr

/-- The machine right after reset. Values the spec does not give are named in log 3 and log 4. -/
def State.reset : State where
  turns := []
  cur := none
  curUnit := none
  free := 0
  serial := 1
  teams := []
  returns := []
  cores := []
  tasks := []
  pushed := []
  rings := []
  mem := []
  metadata := []
  covers := []
  writes := []
  mortarIn := []
  mortar := []
  copies := []
  sills := []
  grids := []
  channels := []
  spaces := []
  regions := []
  hearth := {}
  cellars := []

/-- Why the machine stops with a fault. Both are the model's own and no fault of the hardware. -/
inductive Fault
  /-- A core instruction was executed while no team is at issue; raised by every core
  instruction's meaning; safe: `step` never does it. -/
  | noIssuer
  /-- A Sill instruction was executed while no block runs on a unit at issue; raised by every
  Sill instruction's meaning; safe: `step` never does it. -/
  | noBlock
  deriving DecidableEq, Repr

/-- Why the machine refuses. -/
inductive Refusal
  /-- The instruction of that mnemonic has no meaning in the model; raised by an arm of exec;
  safe. -/
  | notModelled (mnemonic : String)
  deriving DecidableEq, Repr

end Sys2Proof.Machine
end

