-- ==== Sys2Proof/Config.lean ====
section
/-! DEFINITION. What the spec leaves to each implementation or leaves open: constants and free
values without a body, so that no proof can use a value of them. Each is named in the assumption
log. -/

namespace Sys2Proof.Config

open Sys2Proof.Machine

/-- Who acts when State.turns is empty (log 1). -/
opaque schedule : Nat → Turn
/-- What a register outside the live mask holds after a resume (log 9; R52). -/
opaque freeWord : Nat → Word
/-- Cycles a core counts between two readings of CYC (log 5; R29). -/
opaque cycleGap : Nat → Word
/-- Whether a load that finds its line in the load cache is served from it (log 12; R184). -/
opaque cacheHit : Nat → Bool
/-- Which line leaves a full load cache, among those it holds (log 12; R3). -/
opaque cacheVictim : Nat → Nat
/-- The memory-side slice, 0..255, that fronts a 64-byte burst, by its key divided by 64, taken modulo 256
(log 13; R3, R210). -/
opaque sliceOf : Nat → Nat
/-- Contiguous bytes behind a scratchpad allocation that shares its core with others, in lines
(log 23; R301). -/
opaque contiguous : Nat → Nat
/-- Whether both signatures of a firmware image verify against the fused keys (log 16; R391). -/
opaque firmwareGood : List Byte → Bool
/-- Length of a firmware image (log 16; R391). -/
opaque firmwareLength : Nat
/-- Versions of boot ROM, Hearth and base-die firmware in an image (log 16; R395). -/
opaque versions : List Byte → Nat × Nat × Nat
/-- The attestation report over a payload: identity, signatures and certificate (log 16; R393). -/
opaque attestation : List Byte → List Byte
/-- Which of the 24 orders the two identifiers and the two keys have in the 2,000 bytes of a key pair, taken
modulo 24 (log 15; R392). -/
opaque keyOrder : Nat
/-- The Laelle Link port whose peer aperture holds a host address (log 15; R383). -/
opaque peerPort : Nat → Option Nat
/-- First channel-local frame and frames of a channel that SUMMARY reports (log 15; R395). -/
opaque channelFrames : Nat → Nat × Nat
/-- Rate per lane in Mb/s of an expander's link that SUMMARY reports (log 15; R395). -/
opaque expanderRate : Nat → Nat

end Sys2Proof.Config
end

