-- ==== Sys2Proof/Machine/Encoding.lean ====
section
/-! DEFINITION. The encoding tables of R59 to R69: where each field of a word stands, which
instruction each opcode and function select, and what each entry admits in each field. The
checks of R69 (tests 5 to 9) are computed from these rows, for the decoder, for WellFormed and
for the check a running team makes. -/

namespace Sys2Proof

/-- The core instructions of the opcode map (R68). -/
inductive Mn
  | frNop | frMov | frMovi | frMovhi | frAddT | frAddI | frSubT | frSubI
  | frMulT | frMulI | frMulh | frDiv | frRem | frAndT | frAndI | frOrT
  | frOrI | frXorT | frXorI | frShlT | frShlI | frShrT | frShrI | frSraT
  | frSraI | frMinT | frMinI | frMaxT | frMaxI | frCmp | frSel | frClz
  | frPopc | frLd | frSt | frCsrr | frCsrw | ctlBr | ctlJmp | ctlCall
  | ctlRet | ctlBrv | ctlJoin | ctlCallv | ctlRetq | ctlExit | kmSetT | kmSetI
  | kmAnd | kmOr | kmAndn | kmXor | kmNot | kmPop | kmFirst | kmInsT
  | kmInsI | kmExtT | kmExtI | kmExm | lnMov | lnMovi | lnMovs | lnAddT
  | lnAddI | lnSubT | lnSubI | lnAddc | lnSubb | lnMulT | lnMulI | lnMulh
  | lnMad | lnAndT | lnAndI | lnOrT | lnOrI | lnXorT | lnXorI | lnNot
  | lnShlT | lnShlI | lnShrT | lnShrI | lnSraT | lnSraI | lnRotT | lnRotI
  | lnMinT | lnMinI | lnMaxT | lnMaxI | lnAbs | lnNeg | lnCmp | lnSel
  | lnClz | lnPopc | lnBfx | lnBfi | lnPerm | lnCvt | lnSat | xlShflT
  | xlShflI | xlShfxT | xlShfxI | xlBcastT | xlBcastI | xlRed | xlRedi | xlScan
  | xlBallot | fpAdd | fpSub | fpMul | fpFma | fpMin | fpMax | fpAbs
  | fpNeg | fpCmp | fpCls | fpDiv | fpSqrt | fpRcp | fpRsq | fpExp2
  | fpLog2 | fpRnd | fpCvt | fpFti | fpItf | fpLdexp | fpFrexp | dcAdd
  | dcSub | dcMul | dcFma | dcDiv | dcCmp | dcQuant | dcCvt | dcRnd
  | scScale | scQuant | scDeq | scPack | scUnpack | scSpec | mxTake | mxGive
  | mxMma | mxMmas | mxDist | mxTopk | mxWload | mxAload | mxAstore | mxAzero
  | mxCfg | memLdi | memAwait | memSt | memLds | memSts | memFe | memAtom
  | memFence | memXfence | memPublish | memOpx | memOptab | cpColl | cpGath | cpPut
  | cpYield | cpWait | qBind | qPut | qTake | qTry | qLen | ltNow
  | ltAdv | ltEnter | ltLeave | ltHold | ltDrop | ltWait | ltTest | tkPush
  | tkArgs | tkEq | tkDq | tkRing | rgOpen | rgClose | rgScore | rgGrow
  | rgInfo | rgAllow | nmLaunch | nmRatio | sysTrap | sysEret | sysFrec | sysFlog
  | sysYield | sysDbg
  deriving DecidableEq, Repr

/-- The instruction classes (R67). -/
inductive Cls
  | fr | ctl | km | ln | xl | fp | dc | sc | mx | mem | cp | q | lt | tk | rg | nm | sys
  deriving DecidableEq, Repr

/-- The three forms (R59). -/
inductive Form
  | t | i | b
  deriving DecidableEq, Repr

/-- The register classes a position admits (R62). -/
structure Adm where
  v : Bool
  s : Bool
  k : Bool
  q : Bool
  a : Bool
  zero : Bool
  lane : Bool
  teamix : Bool
  teams : Bool
  deriving DecidableEq, Repr

/-- How many registers an operand takes, and whether it starts at an even one (R63 and the
entries). -/
inductive Wd
  /-- At the width of TY: a pair for a 64-bit type. -/
  | ty
  /-- One register of any index. -/
  | one
  /-- An even pair. -/
  | two
  /-- At the width of the source format named in MOD. -/
  | from
  /-- fp.frexp: the width of TY, or one register under `exp` (R152). -/
  | frexp
  /-- An A row of the matrix engine (R169). -/
  | arow
  /-- The results of mx.topk (R178). -/
  | topk
  /-- MOD + 1 registers (R179). -/
  | cols
  /-- MOD + 1 elements of TY (R185). -/
  | elems
  /-- One register, or an even pair under `pair` (R207). -/
  | pair
  /-- 48 registers of source values (R156). -/
  | block
  /-- The packed codes of a block (R156). -/
  | codes
  /-- The packed codes of a block and its scale register (R156). -/
  | coded
  /-- So many S registers. -/
  | span (n : Nat)
  /-- One S register, three under `front` (R264). -/
  | ltTest
  /-- One S register, four under `rec` (R275). -/
  | tkArgs
  /-- Two S registers, four under `stamp` (R270). -/
  | tkDq
  /-- Two S registers for a pop, one for a push (R208). -/
  | tryPop
  /-- The results of xl.redi (R112). -/
  | redi
  deriving DecidableEq, Repr

/-- What an entry says of one specifier field. -/
inductive OpRule
  /-- Not used: must be zero (R63). -/
  | unused
  /-- Must hold the specifier of ZERO (fr.nop, R81). -/
  | zeroSpec
  /-- A raw value, no register. -/
  | raw
  /-- A register of an admitted class. -/
  | reg (adm : Adm) (wd : Wd)
  /-- mem.fe: a destination under `test`, otherwise zero (R185, R194). -/
  | feDest (adm : Adm)
  /-- mem.atom: read for cas, otherwise ZERO (R195). -/
  | casOnly (adm : Adm)
  deriving DecidableEq, Repr

/-- The sets of types that R68 names. -/
inductive TySet
  | none | int | sint | bin | el | mem | words64 | moved | f32f64 | fpDest | d64 | dcDest | e2m1
  | dist | f32 | tile | atom
  deriving DecidableEq, Repr

/-- Whether a type code is in a set (R68). -/
def TySet.has (t : TySet) (c : Nat) : Bool :=
  match t with
  | .none => c == 0
  | .int => c < 8
  | .sint => c < 4
  | .bin => 8 ≤ c && c < 12
  | .el => 12 ≤ c && c < 15
  | .mem => c < 8 || c == 10 || c == 11
  | .words64 => c == 3 || c == 7
  | .moved => c < 12
  | .f32f64 => c == 10 || c == 11
  | .fpDest => 8 ≤ c && c < 14
  | .d64 => c == 15
  | .dcDest => c == 3 || c == 7 || c == 11 || c == 15
  | .e2m1 => c == 14
  | .dist => 8 ≤ c && c < 11
  | .f32 => c == 10
  | .tile => c == 8 || c == 9 || (12 ≤ c && c < 15)
  | .atom => c == 2 || c == 3 || c == 6 || c == 7

/-- One entry of the encoding tables. -/
structure Row where
  form : Form
  cls : Cls
  ty : TySet
  /-- Long-latency: LA may be non-zero (R68). -/
  long : Bool
  /-- A control transfer (R18). -/
  ctl : Bool
  /-- Whether KM is used. -/
  km : Bool
  d : OpRule
  a : OpRule
  b : OpRule
  c : OpRule
  /-- The bits of MOD (T) or IMM (I, B) that the entry leaves unused. -/
  unused : Nat
  deriving DecidableEq, Repr

/-- Admits a. -/
def admA : Adm := ⟨false, false, false, false, true, false, false, false, false⟩
/-- Admits k, zero. -/
def admKZ : Adm := ⟨false, false, true, false, false, true, false, false, false⟩
/-- Admits q. -/
def admQ : Adm := ⟨false, false, false, true, false, false, false, false, false⟩
/-- Admits s. -/
def admS : Adm := ⟨false, true, false, false, false, false, false, false, false⟩
/-- Admits s, a, zero. -/
def admSAZ : Adm := ⟨false, true, false, false, true, true, false, false, false⟩
/-- Admits s, a, zero, teamix, teams. -/
def admSAZXN : Adm := ⟨false, true, false, false, true, true, false, true, true⟩
/-- Admits s, k, zero. -/
def admSKZ : Adm := ⟨false, true, true, false, false, true, false, false, false⟩
/-- Admits s, q, a, zero. -/
def admSQAZ : Adm := ⟨false, true, false, true, true, true, false, false, false⟩
/-- Admits s, q, a, zero, teamix, teams. -/
def admSQAZXN : Adm := ⟨false, true, false, true, true, true, false, true, true⟩
/-- Admits s, zero. -/
def admSZ : Adm := ⟨false, true, false, false, false, true, false, false, false⟩
/-- Admits v. -/
def admV : Adm := ⟨true, false, false, false, false, false, false, false, false⟩
/-- Admits v, k, zero. -/
def admVKZ : Adm := ⟨true, false, true, false, false, true, false, false, false⟩
/-- Admits v, s. -/
def admVS : Adm := ⟨true, true, false, false, false, false, false, false, false⟩
/-- Admits v, s, a, zero, lane, teamix, teams. -/
def admVSAZLXN : Adm := ⟨true, true, false, false, true, true, true, true, true⟩
/-- Admits v, s, k, zero. -/
def admVSKZ : Adm := ⟨true, true, true, false, false, true, false, false, false⟩
/-- Admits v, s, zero. -/
def admVSZ : Adm := ⟨true, true, false, false, false, true, false, false, false⟩
/-- Admits v, zero. -/
def admVZ : Adm := ⟨true, false, false, false, false, true, false, false, false⟩

/-- The encoding of each instruction, row by row of R68 with the operands of its entry:
form, class, admitted types, long-latency, control transfer, KM used, D, A, B, C and the
bits of MOD or IMM that the entry leaves unused. DESIGN CHOICE (log 6): A of dc.cvt is an even pair whatever source
MOD codes. -/
def Mn.row : Mn → Row
  | .frNop => ⟨.t, .fr, .none, false, false, false, .zeroSpec, .unused, .unused, .unused, 63⟩
  | .frMov => ⟨.t, .fr, .int, false, false, false, .reg admSQAZ .one, .reg admSQAZXN .one, .unused, .unused, 63⟩
  | .frMovi => ⟨.i, .fr, .int, false, false, false, .reg admSQAZ .one, .unused, .unused, .unused, 0⟩
  | .frMovhi => ⟨.i, .fr, .words64, false, false, false, .reg admS .one, .unused, .unused, .unused, 0⟩
  | .frAddT => ⟨.t, .fr, .int, false, false, false, .reg admSQAZ .one, .reg admSQAZXN .one, .reg admSQAZXN .one, .unused, 63⟩
  | .frAddI => ⟨.i, .fr, .int, false, false, false, .reg admSQAZ .one, .reg admSQAZXN .one, .unused, .unused, 0⟩
  | .frSubT => ⟨.t, .fr, .int, false, false, false, .reg admSQAZ .one, .reg admSQAZXN .one, .reg admSQAZXN .one, .unused, 63⟩
  | .frSubI => ⟨.i, .fr, .int, false, false, false, .reg admSQAZ .one, .reg admSQAZXN .one, .unused, .unused, 0⟩
  | .frMulT => ⟨.t, .fr, .int, false, false, false, .reg admSQAZ .one, .reg admSQAZXN .one, .reg admSQAZXN .one, .unused, 63⟩
  | .frMulI => ⟨.i, .fr, .int, false, false, false, .reg admSQAZ .one, .reg admSQAZXN .one, .unused, .unused, 0⟩
  | .frMulh => ⟨.t, .fr, .int, false, false, false, .reg admSQAZ .one, .reg admSQAZXN .one, .reg admSQAZXN .one, .unused, 63⟩
  | .frDiv => ⟨.t, .fr, .int, true, false, false, .reg admSQAZ .one, .reg admSQAZXN .one, .reg admSQAZXN .one, .unused, 63⟩
  | .frRem => ⟨.t, .fr, .int, true, false, false, .reg admSQAZ .one, .reg admSQAZXN .one, .reg admSQAZXN .one, .unused, 63⟩
  | .frAndT => ⟨.t, .fr, .int, false, false, false, .reg admSQAZ .one, .reg admSQAZXN .one, .reg admSQAZXN .one, .unused, 63⟩
  | .frAndI => ⟨.i, .fr, .int, false, false, false, .reg admSQAZ .one, .reg admSQAZXN .one, .unused, .unused, 0⟩
  | .frOrT => ⟨.t, .fr, .int, false, false, false, .reg admSQAZ .one, .reg admSQAZXN .one, .reg admSQAZXN .one, .unused, 63⟩
  | .frOrI => ⟨.i, .fr, .int, false, false, false, .reg admSQAZ .one, .reg admSQAZXN .one, .unused, .unused, 0⟩
  | .frXorT => ⟨.t, .fr, .int, false, false, false, .reg admSQAZ .one, .reg admSQAZXN .one, .reg admSQAZXN .one, .unused, 63⟩
  | .frXorI => ⟨.i, .fr, .int, false, false, false, .reg admSQAZ .one, .reg admSQAZXN .one, .unused, .unused, 0⟩
  | .frShlT => ⟨.t, .fr, .int, false, false, false, .reg admSQAZ .one, .reg admSQAZXN .one, .reg admSQAZXN .one, .unused, 63⟩
  | .frShlI => ⟨.i, .fr, .int, false, false, false, .reg admSQAZ .one, .reg admSQAZXN .one, .unused, .unused, 0⟩
  | .frShrT => ⟨.t, .fr, .int, false, false, false, .reg admSQAZ .one, .reg admSQAZXN .one, .reg admSQAZXN .one, .unused, 63⟩
  | .frShrI => ⟨.i, .fr, .int, false, false, false, .reg admSQAZ .one, .reg admSQAZXN .one, .unused, .unused, 0⟩
  | .frSraT => ⟨.t, .fr, .int, false, false, false, .reg admSQAZ .one, .reg admSQAZXN .one, .reg admSQAZXN .one, .unused, 63⟩
  | .frSraI => ⟨.i, .fr, .int, false, false, false, .reg admSQAZ .one, .reg admSQAZXN .one, .unused, .unused, 0⟩
  | .frMinT => ⟨.t, .fr, .int, false, false, false, .reg admSQAZ .one, .reg admSQAZXN .one, .reg admSQAZXN .one, .unused, 63⟩
  | .frMinI => ⟨.i, .fr, .int, false, false, false, .reg admSQAZ .one, .reg admSQAZXN .one, .unused, .unused, 0⟩
  | .frMaxT => ⟨.t, .fr, .int, false, false, false, .reg admSQAZ .one, .reg admSQAZXN .one, .reg admSQAZXN .one, .unused, 63⟩
  | .frMaxI => ⟨.i, .fr, .int, false, false, false, .reg admSQAZ .one, .reg admSQAZXN .one, .unused, .unused, 0⟩
  | .frCmp => ⟨.t, .fr, .int, false, false, false, .reg admSQAZ .one, .reg admSQAZXN .one, .reg admSQAZXN .one, .unused, 0⟩
  | .frSel => ⟨.t, .fr, .int, false, false, false, .reg admSQAZ .one, .reg admSQAZXN .one, .reg admSQAZXN .one, .reg admSQAZXN .one, 63⟩
  | .frClz => ⟨.t, .fr, .int, false, false, false, .reg admSQAZ .one, .reg admSQAZXN .one, .unused, .unused, 63⟩
  | .frPopc => ⟨.t, .fr, .int, false, false, false, .reg admSQAZ .one, .reg admSQAZXN .one, .unused, .unused, 63⟩
  | .frLd => ⟨.i, .fr, .int, true, false, false, .reg admSQAZ .one, .reg admSZ .one, .unused, .unused, 0⟩
  | .frSt => ⟨.i, .fr, .int, false, false, false, .reg admSQAZ .one, .reg admSZ .one, .unused, .unused, 0⟩
  | .frCsrr => ⟨.i, .fr, .none, false, false, false, .reg admSAZ .one, .unused, .unused, .unused, 4190208⟩
  | .frCsrw => ⟨.i, .fr, .none, false, false, false, .reg admSAZ .one, .unused, .unused, .unused, 4190208⟩
  | .ctlBr => ⟨.b, .ctl, .none, false, true, false, .reg admSKZ .one, .unused, .unused, .unused, 0⟩
  | .ctlJmp => ⟨.b, .ctl, .none, false, true, false, .unused, .unused, .unused, .unused, 0⟩
  | .ctlCall => ⟨.b, .ctl, .none, false, true, false, .reg admSZ .one, .unused, .unused, .unused, 0⟩
  | .ctlRet => ⟨.t, .ctl, .none, false, true, false, .unused, .reg admS .one, .unused, .unused, 63⟩
  | .ctlBrv => ⟨.b, .ctl, .none, false, true, true, .unused, .unused, .unused, .unused, 0⟩
  | .ctlJoin => ⟨.t, .ctl, .none, false, true, false, .unused, .unused, .unused, .unused, 63⟩
  | .ctlCallv => ⟨.t, .ctl, .none, false, true, false, .reg admSZ .one, .reg admV .two, .unused, .unused, 63⟩
  | .ctlRetq => ⟨.t, .ctl, .none, false, true, false, .unused, .reg admS .one, .unused, .unused, 63⟩
  | .ctlExit => ⟨.t, .ctl, .none, false, true, true, .unused, .unused, .unused, .unused, 63⟩
  | .kmSetT => ⟨.t, .km, .none, false, false, false, .reg admKZ .one, .reg admS .one, .reg admS .one, .unused, 63⟩
  | .kmSetI => ⟨.i, .km, .none, false, false, false, .reg admKZ .one, .unused, .unused, .unused, 0⟩
  | .kmAnd => ⟨.t, .km, .none, false, false, false, .reg admKZ .one, .reg admKZ .one, .reg admKZ .one, .unused, 63⟩
  | .kmOr => ⟨.t, .km, .none, false, false, false, .reg admKZ .one, .reg admKZ .one, .reg admKZ .one, .unused, 63⟩
  | .kmAndn => ⟨.t, .km, .none, false, false, false, .reg admKZ .one, .reg admKZ .one, .reg admKZ .one, .unused, 63⟩
  | .kmXor => ⟨.t, .km, .none, false, false, false, .reg admKZ .one, .reg admKZ .one, .reg admKZ .one, .unused, 63⟩
  | .kmNot => ⟨.t, .km, .none, false, false, false, .reg admKZ .one, .reg admKZ .one, .unused, .unused, 63⟩
  | .kmPop => ⟨.t, .km, .none, false, false, false, .reg admSAZ .one, .reg admKZ .one, .unused, .unused, 0⟩
  | .kmFirst => ⟨.t, .km, .none, false, false, false, .reg admSAZ .one, .reg admKZ .one, .unused, .unused, 0⟩
  | .kmInsT => ⟨.t, .km, .none, false, false, false, .reg admKZ .one, .reg admS .one, .reg admS .one, .unused, 63⟩
  | .kmInsI => ⟨.i, .km, .none, false, false, false, .reg admKZ .one, .reg admS .one, .unused, .unused, 4194272⟩
  | .kmExtT => ⟨.t, .km, .none, false, false, false, .reg admSAZ .one, .reg admKZ .one, .reg admS .one, .unused, 63⟩
  | .kmExtI => ⟨.i, .km, .none, false, false, false, .reg admSAZ .one, .reg admKZ .one, .unused, .unused, 4194240⟩
  | .kmExm => ⟨.t, .km, .none, false, false, false, .reg admKZ .one, .reg admKZ .one, .unused, .unused, 0⟩
  | .lnMov => ⟨.t, .ln, .int, false, false, true, .reg admVZ .ty, .reg admVSAZLXN .ty, .unused, .unused, 63⟩
  | .lnMovi => ⟨.i, .ln, .int, false, false, true, .reg admVZ .ty, .unused, .unused, .unused, 0⟩
  | .lnMovs => ⟨.t, .ln, .int, false, false, true, .reg admVZ .ty, .reg admV .ty, .reg admVSAZLXN .one, .unused, 63⟩
  | .lnAddT => ⟨.t, .ln, .int, false, false, true, .reg admVZ .ty, .reg admVSAZLXN .ty, .reg admVSAZLXN .ty, .unused, 0⟩
  | .lnAddI => ⟨.i, .ln, .int, false, false, true, .reg admVZ .ty, .reg admVSAZLXN .ty, .unused, .unused, 0⟩
  | .lnSubT => ⟨.t, .ln, .int, false, false, true, .reg admVZ .ty, .reg admVSAZLXN .ty, .reg admVSAZLXN .ty, .unused, 0⟩
  | .lnSubI => ⟨.i, .ln, .int, false, false, true, .reg admVZ .ty, .reg admVSAZLXN .ty, .unused, .unused, 0⟩
  | .lnAddc => ⟨.t, .ln, .int, false, false, true, .reg admVZ .ty, .reg admVSAZLXN .ty, .reg admVSAZLXN .ty, .reg admKZ .one, 48⟩
  | .lnSubb => ⟨.t, .ln, .int, false, false, true, .reg admVZ .ty, .reg admVSAZLXN .ty, .reg admVSAZLXN .ty, .reg admKZ .one, 48⟩
  | .lnMulT => ⟨.t, .ln, .int, false, false, true, .reg admVZ .ty, .reg admVSAZLXN .ty, .reg admVSAZLXN .ty, .unused, 0⟩
  | .lnMulI => ⟨.i, .ln, .int, false, false, true, .reg admVZ .ty, .reg admVSAZLXN .ty, .unused, .unused, 0⟩
  | .lnMulh => ⟨.t, .ln, .int, false, false, true, .reg admVZ .ty, .reg admVSAZLXN .ty, .reg admVSAZLXN .ty, .unused, 0⟩
  | .lnMad => ⟨.t, .ln, .int, false, false, true, .reg admVZ .ty, .reg admVSAZLXN .ty, .reg admVSAZLXN .ty, .reg admVSAZLXN .ty, 0⟩
  | .lnAndT => ⟨.t, .ln, .int, false, false, true, .reg admVZ .ty, .reg admVSAZLXN .ty, .reg admVSAZLXN .ty, .unused, 0⟩
  | .lnAndI => ⟨.i, .ln, .int, false, false, true, .reg admVZ .ty, .reg admVSAZLXN .ty, .unused, .unused, 0⟩
  | .lnOrT => ⟨.t, .ln, .int, false, false, true, .reg admVZ .ty, .reg admVSAZLXN .ty, .reg admVSAZLXN .ty, .unused, 0⟩
  | .lnOrI => ⟨.i, .ln, .int, false, false, true, .reg admVZ .ty, .reg admVSAZLXN .ty, .unused, .unused, 0⟩
  | .lnXorT => ⟨.t, .ln, .int, false, false, true, .reg admVZ .ty, .reg admVSAZLXN .ty, .reg admVSAZLXN .ty, .unused, 0⟩
  | .lnXorI => ⟨.i, .ln, .int, false, false, true, .reg admVZ .ty, .reg admVSAZLXN .ty, .unused, .unused, 0⟩
  | .lnNot => ⟨.t, .ln, .int, false, false, true, .reg admVZ .ty, .reg admVSAZLXN .ty, .unused, .unused, 0⟩
  | .lnShlT => ⟨.t, .ln, .int, false, false, true, .reg admVZ .ty, .reg admVSAZLXN .ty, .reg admVSAZLXN .one, .unused, 0⟩
  | .lnShlI => ⟨.i, .ln, .int, false, false, true, .reg admVZ .ty, .reg admVSAZLXN .ty, .unused, .unused, 0⟩
  | .lnShrT => ⟨.t, .ln, .int, false, false, true, .reg admVZ .ty, .reg admVSAZLXN .ty, .reg admVSAZLXN .one, .unused, 0⟩
  | .lnShrI => ⟨.i, .ln, .int, false, false, true, .reg admVZ .ty, .reg admVSAZLXN .ty, .unused, .unused, 0⟩
  | .lnSraT => ⟨.t, .ln, .int, false, false, true, .reg admVZ .ty, .reg admVSAZLXN .ty, .reg admVSAZLXN .one, .unused, 0⟩
  | .lnSraI => ⟨.i, .ln, .int, false, false, true, .reg admVZ .ty, .reg admVSAZLXN .ty, .unused, .unused, 0⟩
  | .lnRotT => ⟨.t, .ln, .int, false, false, true, .reg admVZ .ty, .reg admVSAZLXN .ty, .reg admVSAZLXN .one, .unused, 0⟩
  | .lnRotI => ⟨.i, .ln, .int, false, false, true, .reg admVZ .ty, .reg admVSAZLXN .ty, .unused, .unused, 0⟩
  | .lnMinT => ⟨.t, .ln, .int, false, false, true, .reg admVZ .ty, .reg admVSAZLXN .ty, .reg admVSAZLXN .ty, .unused, 0⟩
  | .lnMinI => ⟨.i, .ln, .int, false, false, true, .reg admVZ .ty, .reg admVSAZLXN .ty, .unused, .unused, 0⟩
  | .lnMaxT => ⟨.t, .ln, .int, false, false, true, .reg admVZ .ty, .reg admVSAZLXN .ty, .reg admVSAZLXN .ty, .unused, 0⟩
  | .lnMaxI => ⟨.i, .ln, .int, false, false, true, .reg admVZ .ty, .reg admVSAZLXN .ty, .unused, .unused, 0⟩
  | .lnAbs => ⟨.t, .ln, .sint, false, false, true, .reg admVZ .ty, .reg admVSAZLXN .ty, .unused, .unused, 0⟩
  | .lnNeg => ⟨.t, .ln, .sint, false, false, true, .reg admVZ .ty, .reg admVSAZLXN .ty, .unused, .unused, 0⟩
  | .lnCmp => ⟨.t, .ln, .int, false, false, true, .reg admVKZ .one, .reg admVSAZLXN .ty, .reg admVSAZLXN .ty, .unused, 48⟩
  | .lnSel => ⟨.t, .ln, .int, false, false, true, .reg admVZ .ty, .reg admVSAZLXN .ty, .reg admVSAZLXN .ty, .reg admVSKZ .one, 63⟩
  | .lnClz => ⟨.t, .ln, .int, false, false, true, .reg admVZ .ty, .reg admVSAZLXN .ty, .unused, .unused, 0⟩
  | .lnPopc => ⟨.t, .ln, .int, false, false, true, .reg admVZ .ty, .reg admVSAZLXN .ty, .unused, .unused, 0⟩
  | .lnBfx => ⟨.t, .ln, .int, false, false, true, .reg admVZ .ty, .reg admVSAZLXN .ty, .reg admVSAZLXN .one, .reg admVSAZLXN .one, 0⟩
  | .lnBfi => ⟨.t, .ln, .int, false, false, true, .reg admV .ty, .reg admVSAZLXN .ty, .reg admVSAZLXN .one, .reg admVSAZLXN .one, 63⟩
  | .lnPerm => ⟨.t, .ln, .int, false, false, true, .reg admVZ .ty, .reg admVSAZLXN .ty, .reg admVSAZLXN .ty, .reg admVSAZLXN .ty, 63⟩
  | .lnCvt => ⟨.t, .ln, .int, false, false, true, .reg admVZ .ty, .reg admVSAZLXN .from, .unused, .unused, 56⟩
  | .lnSat => ⟨.t, .ln, .int, false, false, true, .reg admVZ .ty, .reg admVSAZLXN .from, .unused, .unused, 56⟩
  | .xlShflT => ⟨.t, .xl, .moved, false, false, true, .reg admVZ .ty, .reg admVSAZLXN .ty, .reg admVSAZLXN .one, .unused, 0⟩
  | .xlShflI => ⟨.i, .xl, .moved, false, false, true, .reg admVZ .ty, .reg admVSAZLXN .ty, .unused, .unused, 0⟩
  | .xlShfxT => ⟨.t, .xl, .moved, false, false, true, .reg admVZ .ty, .reg admVSAZLXN .ty, .reg admVSAZLXN .one, .unused, 0⟩
  | .xlShfxI => ⟨.i, .xl, .moved, false, false, true, .reg admVZ .ty, .reg admVSAZLXN .ty, .unused, .unused, 0⟩
  | .xlBcastT => ⟨.t, .xl, .moved, false, false, true, .reg admVSZ .ty, .reg admVSAZLXN .ty, .reg admSAZXN .one, .unused, 63⟩
  | .xlBcastI => ⟨.i, .xl, .moved, false, false, true, .reg admVSZ .ty, .reg admVSAZLXN .ty, .unused, .unused, 0⟩
  | .xlRed => ⟨.t, .xl, .mem, true, false, true, .reg admVSZ .ty, .reg admVSAZLXN .ty, .reg admSAZ .one, .unused, 0⟩
  | .xlRedi => ⟨.t, .xl, .mem, true, false, true, .reg admVSZ .redi, .reg admVSAZLXN .ty, .reg admSAZ .one, .unused, 0⟩
  | .xlScan => ⟨.t, .xl, .mem, true, false, true, .reg admVZ .ty, .reg admVSAZLXN .ty, .reg admSAZ .one, .unused, 0⟩
  | .xlBallot => ⟨.t, .xl, .none, false, false, true, .reg admSKZ .one, .reg admV .one, .unused, .unused, 0⟩
  | .fpAdd => ⟨.t, .fp, .bin, false, false, true, .reg admVZ .ty, .reg admVSZ .ty, .reg admVSZ .ty, .unused, 0⟩
  | .fpSub => ⟨.t, .fp, .bin, false, false, true, .reg admVZ .ty, .reg admVSZ .ty, .reg admVSZ .ty, .unused, 0⟩
  | .fpMul => ⟨.t, .fp, .bin, false, false, true, .reg admVZ .ty, .reg admVSZ .ty, .reg admVSZ .ty, .unused, 0⟩
  | .fpFma => ⟨.t, .fp, .bin, false, false, true, .reg admVZ .ty, .reg admVSZ .ty, .reg admVSZ .ty, .reg admVSZ .ty, 0⟩
  | .fpMin => ⟨.t, .fp, .bin, false, false, true, .reg admVZ .ty, .reg admVSZ .ty, .reg admVSZ .ty, .unused, 0⟩
  | .fpMax => ⟨.t, .fp, .bin, false, false, true, .reg admVZ .ty, .reg admVSZ .ty, .reg admVSZ .ty, .unused, 0⟩
  | .fpAbs => ⟨.t, .fp, .bin, false, false, true, .reg admVZ .ty, .reg admVSZ .ty, .unused, .unused, 63⟩
  | .fpNeg => ⟨.t, .fp, .bin, false, false, true, .reg admVZ .ty, .reg admVSZ .ty, .unused, .unused, 63⟩
  | .fpCmp => ⟨.t, .fp, .bin, false, false, true, .reg admVKZ .one, .reg admVSZ .ty, .reg admVSZ .ty, .unused, 0⟩
  | .fpCls => ⟨.t, .fp, .bin, false, false, true, .reg admV .one, .reg admVSZ .ty, .unused, .unused, 63⟩
  | .fpDiv => ⟨.t, .fp, .f32f64, true, false, true, .reg admVZ .ty, .reg admVSZ .ty, .reg admVSZ .ty, .unused, 0⟩
  | .fpSqrt => ⟨.t, .fp, .f32f64, true, false, true, .reg admVZ .ty, .reg admVSZ .ty, .unused, .unused, 0⟩
  | .fpRcp => ⟨.t, .fp, .f32f64, true, false, true, .reg admVZ .ty, .reg admVSZ .ty, .unused, .unused, 0⟩
  | .fpRsq => ⟨.t, .fp, .f32f64, true, false, true, .reg admVZ .ty, .reg admVSZ .ty, .unused, .unused, 0⟩
  | .fpExp2 => ⟨.t, .fp, .f32f64, true, false, true, .reg admVZ .ty, .reg admVSZ .ty, .unused, .unused, 0⟩
  | .fpLog2 => ⟨.t, .fp, .f32f64, true, false, true, .reg admVZ .ty, .reg admVSZ .ty, .unused, .unused, 0⟩
  | .fpRnd => ⟨.t, .fp, .bin, false, false, true, .reg admVZ .ty, .reg admVSZ .ty, .unused, .unused, 48⟩
  | .fpCvt => ⟨.t, .fp, .fpDest, false, false, true, .reg admVZ .ty, .reg admVSZ .from, .unused, .unused, 32⟩
  | .fpFti => ⟨.t, .fp, .int, false, false, true, .reg admVZ .ty, .reg admVSZ .from, .unused, .unused, 56⟩
  | .fpItf => ⟨.t, .fp, .bin, false, false, true, .reg admVZ .ty, .reg admVSAZLXN .from, .unused, .unused, 56⟩
  | .fpLdexp => ⟨.t, .fp, .bin, false, false, true, .reg admVZ .ty, .reg admVSZ .ty, .reg admVSAZLXN .one, .unused, 0⟩
  | .fpFrexp => ⟨.t, .fp, .bin, false, false, true, .reg admVZ .frexp, .reg admVSZ .ty, .unused, .unused, 0⟩
  | .dcAdd => ⟨.t, .dc, .d64, true, false, true, .reg admVZ .ty, .reg admVSZ .ty, .reg admVSZ .ty, .unused, 0⟩
  | .dcSub => ⟨.t, .dc, .d64, true, false, true, .reg admVZ .ty, .reg admVSZ .ty, .reg admVSZ .ty, .unused, 0⟩
  | .dcMul => ⟨.t, .dc, .d64, true, false, true, .reg admVZ .ty, .reg admVSZ .ty, .reg admVSZ .ty, .unused, 0⟩
  | .dcFma => ⟨.t, .dc, .d64, true, false, true, .reg admVZ .ty, .reg admVSZ .ty, .reg admVSZ .ty, .reg admVSZ .ty, 0⟩
  | .dcDiv => ⟨.t, .dc, .d64, true, false, true, .reg admVZ .ty, .reg admVSZ .ty, .reg admVSZ .ty, .unused, 0⟩
  | .dcCmp => ⟨.t, .dc, .d64, false, false, true, .reg admVKZ .one, .reg admVSZ .ty, .reg admVSZ .ty, .unused, 0⟩
  | .dcQuant => ⟨.t, .dc, .d64, true, false, true, .reg admVZ .ty, .reg admVSZ .ty, .reg admVSZ .ty, .unused, 63⟩
  | .dcCvt => ⟨.t, .dc, .dcDest, true, false, true, .reg admVZ .ty, .reg admVSZ .ty, .unused, .unused, 32⟩
  | .dcRnd => ⟨.t, .dc, .d64, true, false, true, .reg admVZ .ty, .reg admVSZ .ty, .unused, .unused, 48⟩
  | .scScale => ⟨.t, .sc, .el, false, false, true, .reg admV .one, .reg admV .block, .unused, .unused, 63⟩
  | .scQuant => ⟨.t, .sc, .el, true, false, true, .reg admV .coded, .reg admV .block, .unused, .unused, 0⟩
  | .scDeq => ⟨.t, .sc, .el, false, false, true, .reg admV .block, .reg admV .codes, .reg admV .one, .unused, 60⟩
  | .scPack => ⟨.t, .sc, .el, false, false, true, .reg admV .codes, .reg admV .block, .unused, .unused, 63⟩
  | .scUnpack => ⟨.t, .sc, .el, false, false, true, .reg admV .block, .reg admV .codes, .unused, .unused, 63⟩
  | .scSpec => ⟨.t, .sc, .e2m1, false, false, true, .reg admV .coded, .reg admV .block, .unused, .unused, 63⟩
  | .mxTake => ⟨.t, .mx, .none, false, false, false, .unused, .unused, .unused, .unused, 63⟩
  | .mxGive => ⟨.t, .mx, .none, false, false, false, .unused, .unused, .unused, .unused, 63⟩
  | .mxMma => ⟨.t, .mx, .fpDest, true, false, true, .reg admV .arow, .unused, .unused, .unused, 63⟩
  | .mxMmas => ⟨.t, .mx, .el, true, false, true, .reg admV .arow, .reg admV .one, .unused, .unused, 60⟩
  | .mxDist => ⟨.t, .mx, .dist, true, false, true, .reg admV .arow, .unused, .unused, .unused, 62⟩
  | .mxTopk => ⟨.t, .mx, .f32, true, false, true, .reg admV .topk, .unused, .unused, .unused, 0⟩
  | .mxWload => ⟨.t, .mx, .tile, true, false, false, .reg admSAZ .one, .reg admSZ .one, .reg admA .one, .unused, 0⟩
  | .mxAload => ⟨.t, .mx, .f32, true, false, true, .reg admV .cols, .reg admSAZ .one, .unused, .unused, 0⟩
  | .mxAstore => ⟨.t, .mx, .f32, true, false, true, .reg admV .cols, .reg admSAZ .one, .unused, .unused, 0⟩
  | .mxAzero => ⟨.t, .mx, .none, false, false, false, .unused, .unused, .unused, .unused, 63⟩
  | .mxCfg => ⟨.t, .mx, .none, false, false, false, .reg admSZ .one, .reg admSZ .one, .unused, .unused, 63⟩
  | .memLdi => ⟨.t, .mem, .mem, false, false, true, .reg admV .elems, .reg admVS .two, .reg admA .one, .unused, 0⟩
  | .memAwait => ⟨.t, .mem, .none, false, false, false, .unused, .reg admA .one, .unused, .raw, 63⟩
  | .memSt => ⟨.t, .mem, .mem, false, false, true, .reg admVSZ .elems, .reg admVS .two, .unused, .unused, 0⟩
  | .memLds => ⟨.t, .mem, .mem, true, false, true, .reg admV .elems, .reg admVSZ .one, .unused, .unused, 0⟩
  | .memSts => ⟨.t, .mem, .mem, false, false, true, .reg admVSZ .elems, .reg admVSZ .one, .unused, .unused, 0⟩
  | .memFe => ⟨.t, .mem, .none, false, false, true, .feDest admVKZ, .reg admVSZ .one, .unused, .unused, 60⟩
  | .memAtom => ⟨.t, .mem, .atom, true, false, true, .reg admVZ .ty, .reg admVS .two, .reg admVSZ .ty, .casOnly admVSZ, 48⟩
  | .memFence => ⟨.t, .mem, .none, false, false, false, .unused, .unused, .unused, .unused, 48⟩
  | .memXfence => ⟨.t, .mem, .none, false, false, false, .unused, .raw, .raw, .unused, 60⟩
  | .memPublish => ⟨.t, .mem, .none, false, false, false, .reg admSZ .one, .reg admS .one, .unused, .unused, 63⟩
  | .memOpx => ⟨.t, .mem, .none, false, false, true, .reg admVZ .one, .reg admVS .two, .reg admVSZ .one, .reg admVSZ .one, 0⟩
  | .memOptab => ⟨.t, .mem, .none, false, false, false, .unused, .reg admSZ .one, .unused, .unused, 0⟩
  | .cpColl => ⟨.t, .cp, .none, false, false, true, .reg admSZ .one, .reg admS .one, .reg admS .one, .reg admS .one, 62⟩
  | .cpGath => ⟨.t, .cp, .none, false, false, true, .reg admSZ .one, .reg admS .one, .reg admS .one, .reg admS .one, 32⟩
  | .cpPut => ⟨.t, .cp, .none, false, false, true, .reg admSZ .one, .reg admS .one, .reg admS .one, .unused, 62⟩
  | .cpYield => ⟨.b, .cp, .none, false, false, false, .reg admSZ .one, .unused, .unused, .unused, 0⟩
  | .cpWait => ⟨.t, .cp, .none, false, false, false, .unused, .reg admSZ .one, .unused, .unused, 62⟩
  | .qBind => ⟨.t, .q, .none, false, false, false, .reg admQ .one, .reg admS .one, .unused, .unused, 63⟩
  | .qPut => ⟨.t, .q, .none, false, false, true, .reg admQ .one, .reg admVSZ .pair, .unused, .unused, 62⟩
  | .qTake => ⟨.t, .q, .none, false, false, true, .reg admVS .pair, .reg admQ .one, .unused, .unused, 62⟩
  | .qTry => ⟨.t, .q, .none, false, false, false, .reg admS .tryPop, .reg admQ .one, .reg admSZ .one, .unused, 62⟩
  | .qLen => ⟨.t, .q, .none, false, false, false, .reg admS .one, .reg admQ .one, .unused, .unused, 63⟩
  | .ltNow => ⟨.t, .lt, .none, false, false, false, .reg admS (.span 2), .unused, .unused, .unused, 63⟩
  | .ltAdv => ⟨.t, .lt, .none, false, false, false, .reg admSZ .one, .unused, .unused, .unused, 63⟩
  | .ltEnter => ⟨.t, .lt, .none, false, false, false, .unused, .unused, .unused, .unused, 63⟩
  | .ltLeave => ⟨.t, .lt, .none, false, false, false, .unused, .unused, .unused, .unused, 63⟩
  | .ltHold => ⟨.t, .lt, .none, false, false, false, .reg admSZ .one, .reg admSZ (.span 2), .unused, .unused, 60⟩
  | .ltDrop => ⟨.t, .lt, .none, false, false, false, .reg admSZ .one, .reg admSZ (.span 2), .unused, .unused, 60⟩
  | .ltWait => ⟨.t, .lt, .none, false, false, false, .reg admSZ .one, .reg admSZ (.span 2), .unused, .unused, 60⟩
  | .ltTest => ⟨.t, .lt, .none, false, false, false, .reg admS .ltTest, .reg admSZ .one, .reg admSZ (.span 2), .unused, 56⟩
  | .tkPush => ⟨.t, .tk, .none, false, false, false, .reg admS .one, .reg admSZ .one, .reg admSZ (.span 4), .reg admSZ (.span 2), 60⟩
  | .tkArgs => ⟨.t, .tk, .none, false, false, false, .reg admS .tkArgs, .reg admSZ .one, .unused, .unused, 62⟩
  | .tkEq => ⟨.t, .tk, .none, false, false, false, .reg admS .one, .reg admSZ .one, .unused, .unused, 60⟩
  | .tkDq => ⟨.t, .tk, .none, false, false, false, .reg admS .tkDq, .reg admS .one, .reg admSZ .one, .unused, 62⟩
  | .tkRing => ⟨.t, .tk, .none, false, false, false, .reg admS .one, .reg admS .one, .unused, .unused, 63⟩
  | .rgOpen => ⟨.t, .rg, .none, false, false, false, .reg admSZ .one, .reg admS .one, .unused, .unused, 63⟩
  | .rgClose => ⟨.t, .rg, .none, false, false, false, .reg admSZ .one, .reg admS .one, .unused, .unused, 62⟩
  | .rgScore => ⟨.t, .rg, .none, false, false, false, .reg admSZ .one, .reg admSZ .one, .unused, .unused, 63⟩
  | .rgGrow => ⟨.t, .rg, .none, false, false, false, .reg admSZ .one, .reg admSZ .one, .unused, .unused, 60⟩
  | .rgInfo => ⟨.t, .rg, .none, false, false, false, .reg admS .one, .reg admSZ .one, .unused, .unused, 60⟩
  | .rgAllow => ⟨.t, .rg, .none, false, false, false, .reg admSZ .one, .unused, .unused, .unused, 62⟩
  | .nmLaunch => ⟨.t, .nm, .none, false, false, false, .reg admSZ .one, .reg admS .one, .reg admSZ .one, .reg admSZ .one, 63⟩
  | .nmRatio => ⟨.t, .nm, .none, false, false, false, .reg admSZ .one, .reg admSZ .one, .unused, .unused, 32⟩
  | .sysTrap => ⟨.t, .sys, .none, false, false, false, .unused, .reg admSZ .one, .unused, .unused, 0⟩
  | .sysEret => ⟨.t, .sys, .none, false, false, false, .unused, .unused, .unused, .unused, 0⟩
  | .sysFrec => ⟨.t, .sys, .none, false, false, false, .reg admSZ .one, .unused, .unused, .unused, 63⟩
  | .sysFlog => ⟨.t, .sys, .none, false, false, false, .reg admSZ .one, .reg admSZ .one, .unused, .unused, 0⟩
  | .sysYield => ⟨.t, .sys, .none, false, false, false, .unused, .unused, .unused, .unused, 63⟩
  | .sysDbg => ⟨.t, .sys, .none, false, false, false, .unused, .unused, .unused, .unused, 0⟩

/-- The instruction an opcode and function select (R67, R68). -/
def Mn.ofOpFn (op fn : Nat) : Option Mn :=
  match op with
  | 0 => match fn with
    | 0 => some .frNop
    | 1 => some .frMov
    | 4 => some .frAddT
    | 5 => some .frSubT
    | 6 => some .frMulT
    | 7 => some .frMulh
    | 8 => some .frDiv
    | 9 => some .frRem
    | 10 => some .frAndT
    | 11 => some .frOrT
    | 12 => some .frXorT
    | 13 => some .frShlT
    | 14 => some .frShrT
    | 15 => some .frSraT
    | 16 => some .frMinT
    | 17 => some .frMaxT
    | 18 => some .frCmp
    | 19 => some .frSel
    | 20 => some .frClz
    | 21 => some .frPopc
    | _ => none
  | 1 => match fn with
    | 2 => some .frMovi
    | 3 => some .frMovhi
    | 4 => some .frAddI
    | 5 => some .frSubI
    | 6 => some .frMulI
    | 10 => some .frAndI
    | 11 => some .frOrI
    | 12 => some .frXorI
    | 13 => some .frShlI
    | 14 => some .frShrI
    | 15 => some .frSraI
    | 16 => some .frMinI
    | 17 => some .frMaxI
    | 22 => some .frLd
    | 23 => some .frSt
    | 24 => some .frCsrr
    | 25 => some .frCsrw
    | _ => none
  | 32 => match fn with
    | 0 => some .ctlBr
    | 1 => some .ctlJmp
    | 2 => some .ctlCall
    | 3 => some .ctlBrv
    | _ => none
  | 33 => match fn with
    | 0 => some .ctlRet
    | 1 => some .ctlJoin
    | 2 => some .ctlCallv
    | 3 => some .ctlRetq
    | 4 => some .ctlExit
    | _ => none
  | 48 => match fn with
    | 0 => some .kmSetT
    | 1 => some .kmAnd
    | 2 => some .kmOr
    | 3 => some .kmAndn
    | 4 => some .kmXor
    | 5 => some .kmNot
    | 6 => some .kmPop
    | 7 => some .kmFirst
    | 8 => some .kmInsT
    | 9 => some .kmExtT
    | 10 => some .kmExm
    | _ => none
  | 49 => match fn with
    | 0 => some .kmSetI
    | 8 => some .kmInsI
    | 9 => some .kmExtI
    | _ => none
  | 64 => match fn with
    | 0 => some .lnMov
    | 2 => some .lnMovs
    | 3 => some .lnAddT
    | 4 => some .lnSubT
    | 5 => some .lnAddc
    | 6 => some .lnSubb
    | 7 => some .lnMulT
    | 8 => some .lnMulh
    | 9 => some .lnMad
    | 10 => some .lnAndT
    | 11 => some .lnOrT
    | 12 => some .lnXorT
    | 13 => some .lnNot
    | 14 => some .lnShlT
    | 15 => some .lnShrT
    | 16 => some .lnSraT
    | 17 => some .lnRotT
    | 18 => some .lnMinT
    | 19 => some .lnMaxT
    | 20 => some .lnAbs
    | 21 => some .lnNeg
    | 22 => some .lnCmp
    | 23 => some .lnSel
    | 24 => some .lnClz
    | 25 => some .lnPopc
    | 26 => some .lnBfx
    | 27 => some .lnBfi
    | 28 => some .lnPerm
    | 29 => some .lnCvt
    | 30 => some .lnSat
    | _ => none
  | 65 => match fn with
    | 1 => some .lnMovi
    | 3 => some .lnAddI
    | 4 => some .lnSubI
    | 7 => some .lnMulI
    | 10 => some .lnAndI
    | 11 => some .lnOrI
    | 12 => some .lnXorI
    | 14 => some .lnShlI
    | 15 => some .lnShrI
    | 16 => some .lnSraI
    | 17 => some .lnRotI
    | 18 => some .lnMinI
    | 19 => some .lnMaxI
    | _ => none
  | 96 => match fn with
    | 0 => some .xlShflT
    | 1 => some .xlShfxT
    | 2 => some .xlBcastT
    | 3 => some .xlRed
    | 4 => some .xlRedi
    | 5 => some .xlScan
    | 6 => some .xlBallot
    | _ => none
  | 97 => match fn with
    | 0 => some .xlShflI
    | 1 => some .xlShfxI
    | 2 => some .xlBcastI
    | _ => none
  | 104 => match fn with
    | 0 => some .fpAdd
    | 1 => some .fpSub
    | 2 => some .fpMul
    | 3 => some .fpFma
    | 4 => some .fpMin
    | 5 => some .fpMax
    | 6 => some .fpAbs
    | 7 => some .fpNeg
    | 8 => some .fpCmp
    | 9 => some .fpCls
    | 10 => some .fpDiv
    | 11 => some .fpSqrt
    | 12 => some .fpRcp
    | 13 => some .fpRsq
    | 14 => some .fpExp2
    | 15 => some .fpLog2
    | 16 => some .fpRnd
    | 17 => some .fpCvt
    | 18 => some .fpFti
    | 19 => some .fpItf
    | 20 => some .fpLdexp
    | 21 => some .fpFrexp
    | _ => none
  | 128 => match fn with
    | 0 => some .dcAdd
    | 1 => some .dcSub
    | 2 => some .dcMul
    | 3 => some .dcFma
    | 4 => some .dcDiv
    | 5 => some .dcCmp
    | 6 => some .dcQuant
    | 7 => some .dcCvt
    | 8 => some .dcRnd
    | _ => none
  | 144 => match fn with
    | 0 => some .scScale
    | 1 => some .scQuant
    | 2 => some .scDeq
    | 3 => some .scPack
    | 4 => some .scUnpack
    | 5 => some .scSpec
    | _ => none
  | 152 => match fn with
    | 0 => some .mxTake
    | 1 => some .mxGive
    | 2 => some .mxMma
    | 3 => some .mxMmas
    | 4 => some .mxDist
    | 5 => some .mxTopk
    | 6 => some .mxWload
    | 7 => some .mxAload
    | 8 => some .mxAstore
    | 9 => some .mxAzero
    | 10 => some .mxCfg
    | _ => none
  | 160 => match fn with
    | 0 => some .memLdi
    | 1 => some .memAwait
    | 2 => some .memSt
    | 3 => some .memLds
    | 4 => some .memSts
    | 5 => some .memFe
    | 6 => some .memAtom
    | 7 => some .memFence
    | 8 => some .memXfence
    | 9 => some .memPublish
    | 10 => some .memOpx
    | 11 => some .memOptab
    | _ => none
  | 176 => match fn with
    | 0 => some .cpColl
    | 1 => some .cpGath
    | 2 => some .cpPut
    | 4 => some .cpWait
    | _ => none
  | 177 => match fn with
    | 3 => some .cpYield
    | _ => none
  | 184 => match fn with
    | 0 => some .qBind
    | 1 => some .qPut
    | 2 => some .qTake
    | 3 => some .qTry
    | 4 => some .qLen
    | _ => none
  | 192 => match fn with
    | 0 => some .ltNow
    | 1 => some .ltAdv
    | 2 => some .ltEnter
    | 3 => some .ltLeave
    | 4 => some .ltHold
    | 5 => some .ltDrop
    | 6 => some .ltWait
    | 7 => some .ltTest
    | _ => none
  | 200 => match fn with
    | 0 => some .tkPush
    | 1 => some .tkArgs
    | 2 => some .tkEq
    | 3 => some .tkDq
    | 4 => some .tkRing
    | _ => none
  | 208 => match fn with
    | 0 => some .rgOpen
    | 1 => some .rgClose
    | 2 => some .rgScore
    | 3 => some .rgGrow
    | 4 => some .rgInfo
    | 5 => some .rgAllow
    | _ => none
  | 216 => match fn with
    | 0 => some .nmLaunch
    | 1 => some .nmRatio
    | _ => none
  | 220 => match fn with
    | 0 => some .sysTrap
    | 1 => some .sysEret
    | 2 => some .sysFrec
    | 3 => some .sysFlog
    | 4 => some .sysYield
    | 5 => some .sysDbg
    | _ => none
  | _ => none

/-- Whether an opcode is assigned (R67). -/
def opAssigned (op : Nat) : Bool :=
  [0, 1, 32, 33, 48, 49, 64, 65, 96, 97, 104, 128, 144, 152, 160, 176, 177, 184, 192, 200, 208, 216, 220].contains op

/-- The fields of a core word as numbers, before they are given a meaning (R59). `low` is MOD,
or IMM in the I and B forms. -/
structure Fields where
  ty : Nat
  la : Nat
  km : Nat
  d : Reg
  a : Reg
  b : Reg
  c : Reg
  low : Nat
  deriving DecidableEq, Repr

/-- All fields zero. -/
def Fields.zero : Fields := ⟨0, 0, 0, .v 0, .v 0, .v 0, .v 0, 0⟩

/-- Bits `lo + len - 1 .. lo` of a word. -/
def field (w : Word) (lo len : Nat) : Nat := (w.extractLsb' lo len).toNat

/-- OP, bits 63:56 (R59). -/
def wordOp (w : Word) : Nat := field w 56 8
/-- FN, bits 55:50 (R59). -/
def wordFn (w : Word) : Nat := field w 50 6
/-- KM, bits 41:38 (R59). -/
def wordKm (w : Word) : Nat := field w 38 4

/-- The T-form fields of a word (R59). -/
def TForm.ofWord (w : Word) : TForm :=
  { ty := Ty.ofCode (field w 46 4), la := w.extractLsb' 42 4,
    km := ⟨field w 38 4 % 16, Nat.mod_lt _ (by decide)⟩,
    d := Reg.ofByte (w.extractLsb' 30 8), a := Reg.ofByte (w.extractLsb' 22 8),
    b := Reg.ofByte (w.extractLsb' 14 8), c := Reg.ofByte (w.extractLsb' 6 8),
    mod := w.extractLsb' 0 6 }

/-- The I-form fields of a word (R59). -/
def IForm.ofWord (w : Word) : IForm :=
  { ty := Ty.ofCode (field w 46 4), la := w.extractLsb' 42 4,
    km := ⟨field w 38 4 % 16, Nat.mod_lt _ (by decide)⟩,
    d := Reg.ofByte (w.extractLsb' 30 8), a := Reg.ofByte (w.extractLsb' 22 8),
    imm := w.extractLsb' 0 22 }

/-- The B-form fields of a word (R59). -/
def BForm.ofWord (w : Word) : BForm :=
  { ty := Ty.ofCode (field w 46 4), la := w.extractLsb' 42 4,
    km := ⟨field w 38 4 % 16, Nat.mod_lt _ (by decide)⟩,
    d := Reg.ofByte (w.extractLsb' 30 8), imm := w.extractLsb' 0 30 }

/-- Bits 63:30 of a word, which every form shares (R59). -/
def headBits (op fn : Nat) (ty : Ty) (la : BitVec 4) (km : Fin 16) (d : Reg) : BitVec 34 :=
  BitVec.ofNat 8 op ++ BitVec.ofNat 6 fn ++ BitVec.ofNat 4 ty.code ++ la ++
    BitVec.ofNat 4 km.val ++ d.toByte

/-- The word of a T-form instruction (R59). -/
def TForm.word (f : TForm) (op fn : Nat) : Word :=
  headBits op fn f.ty f.la f.km f.d ++ f.a.toByte ++ f.b.toByte ++ f.c.toByte ++ f.mod

/-- The word of an I-form instruction (R59). -/
def IForm.word (f : IForm) (op fn : Nat) : Word :=
  headBits op fn f.ty f.la f.km f.d ++ f.a.toByte ++ f.imm

/-- The word of a B-form instruction (R59). -/
def BForm.word (f : BForm) (op fn : Nat) : Word :=
  headBits op fn f.ty f.la f.km f.d ++ f.imm

/-- The fields of a T-form instruction. -/
def TForm.fields (f : TForm) : Fields :=
  ⟨f.ty.code, f.la.toNat, f.km.val, f.d, f.a, f.b, f.c, f.mod.toNat⟩
/-- The fields of an I-form instruction. -/
def IForm.fields (f : IForm) : Fields :=
  ⟨f.ty.code, f.la.toNat, f.km.val, f.d, f.a, .v 0, .v 0, f.imm.toNat⟩
/-- The fields of a B-form instruction. -/
def BForm.fields (f : BForm) : Fields :=
  ⟨f.ty.code, f.la.toNat, f.km.val, f.d, .v 0, .v 0, .v 0, f.imm.toNat⟩

/-- The fields of a word under a form (R59). -/
def Fields.ofWord (fm : Form) (w : Word) : Fields :=
  match fm with
  | .t => (TForm.ofWord w).fields
  | .i => (IForm.ofWord w).fields
  | .b => (BForm.ofWord w).fields

/-- The 64-bit types (R60). -/
def is64 (ty : Nat) : Bool := ty == 3 || ty == 7 || ty == 11 || ty == 15

/-- The CSR numbers of R64. -/
def csrAssigned (n : Nat) : Bool :=
  [0x000, 0x001, 0x002, 0x010, 0x011, 0x012, 0x013, 0x014, 0x020, 0x021, 0x022, 0x023, 0x024,
    0x030, 0x031, 0x040, 0x041, 0x050, 0x051, 0x060].contains n

/-- The source format that MOD names, where an entry converts (R107, R150, R151, R155). -/
def sourceFormat (m : Mn) (low : Nat) : Nat :=
  match m with
  | .lnCvt | .lnSat | .fpItf => low % 8
  | .fpFti => 8 + low % 4
  | _ => low % 16

/-- How many lane registers an A row takes (R169), and whether it starts at an even one. -/
def arowSpan (ty : Nat) : Nat × Bool :=
  match ty with
  | 8 | 9 => (24, false)
  | 10 => (48, false)
  | 11 => (24, true)
  | 14 => (6, false)
  | _ => (12, false)

/-- How many V registers an operand takes and whether it must start at an even one. -/
def spanV (m : Mn) (wd : Wd) (ty low : Nat) : Nat × Bool :=
  let wide (b : Bool) : Nat × Bool := if b then (2, true) else (1, false)
  match wd with
  | .ty => wide (is64 ty)
  | .one => (1, false)
  | .two => (2, true)
  | .from => wide (is64 (sourceFormat m low))
  | .frexp => if low == 1 then (1, false) else wide (is64 ty)
  | .arow => arowSpan ty
  | .topk => ((low % 16 + 1) * (if low / 32 % 2 == 1 then 2 else 1), false)
  | .cols => (low + 1, false)
  | .elems => if is64 ty then (2 * (low + 1), true) else (low + 1, false)
  | .pair => wide (low % 2 == 1)
  | .block => (48, false)
  | .codes => (if ty == 14 then 6 else 12, false)
  | .coded => (if ty == 14 then 7 else 13, false)
  | .redi => if is64 ty then (3, true) else (2, true)
  | .span n => (n, false)
  | .ltTest | .tkArgs | .tkDq | .tryPop => (1, false)

/-- How many S registers an operand takes. -/
def spanS (wd : Wd) (ty low : Nat) : Nat :=
  match wd with
  | .elems => low + 1
  | .redi => if is64 ty then 2 else 1
  | .span n => n
  | .ltTest => if low / 4 % 2 == 1 then 3 else 1
  | .tkArgs => if low % 2 == 1 then 4 else 1
  | .tkDq => if low % 2 == 1 then 4 else 2
  | .tryPop => if low % 2 == 1 then 1 else 2
  | _ => 1

/-- Test 7 of R69 for one operand: its class is admitted (R62) and its registers lie below
VREGS or SREGS, an even pair where it must be one (R63). -/
def regOk (m : Mn) (vregs sregs : Nat) (adm : Adm) (wd : Wd) (ty low : Nat) (r : Reg) : Bool :=
  match r with
  | .v n =>
    let sp := spanV m wd ty low
    adm.v && n.val + sp.1 ≤ vregs && (!sp.2 || n.val % 2 == 0)
  | .s n => adm.s && n.val + spanS wd ty low ≤ sregs
  | .k _ => adm.k
  | .q _ => adm.q
  | .a _ => adm.a
  | .zero => adm.zero
  | .lane => adm.lane
  | .teamix => adm.teamix
  | .teams => adm.teams
  | .reserved _ => false

/-- Test 7 of R69 for one field. -/
def test7 (m : Mn) (vregs sregs : Nat) (f : Fields) (rl : OpRule) (r : Reg) : Bool :=
  match rl with
  | .unused | .zeroSpec | .raw => true
  | .reg adm wd => regOk m vregs sregs adm wd f.ty f.low r
  | .feDest adm => f.low % 4 != 0 || regOk m vregs sregs adm .one f.ty f.low r
  | .casOnly adm => f.low % 8 != 7 || regOk m vregs sregs adm .ty f.ty f.low r

/-- Test 8 of R69 for one specifier field: an unused one must be zero. -/
def test8 (f : Fields) (rl : OpRule) (r : Reg) : Bool :=
  match rl with
  | .unused => r == .v 0
  | .zeroSpec => r == .zero
  | .raw | .reg _ _ => true
  | .feDest _ => f.low % 4 == 0 || r == .v 0
  | .casOnly _ => f.low % 8 == 7 || r == .zero

/-- Test 8 of R69 where an entry names ZERO in a specifier that the instruction does not use
under the given MOD (R38, R203, R208, R275, R302). DEDUCED (log 6): the detail is that of mem.atom's C. -/
def zeroUnless (m : Mn) (f : Fields) : Bool :=
  match m with
  | .cpWait => f.low % 2 == 0 || f.a == .zero
  | .tkArgs => f.low % 2 == 1 || f.a == .zero
  | .rgInfo => f.low % 4 == 3 || f.a == .zero
  | .qTry => f.low % 2 == 1 || f.b == .zero
  | _ => true

/-- Test 9 of R69: MOD or IMM holds a value the entry reserves, or a CSR number is unassigned. DEDUCED
(log 6): xl.ballot with D = ZERO, for which R114 names no MOD, takes the values it gives for S. DESIGN CHOICE (log 6):
a MOD of ln.bfx that R106 does not list is reserved. -/
def reserved (m : Mn) (f : Fields) : Bool :=
  let md := f.low
  match m with
  | .frCmp => 5 < md
  | .frCsrr | .frCsrw => !csrAssigned (md % 4096)
  | .kmPop | .kmFirst | .kmExm => 1 < md
  | .kmExtI => 32 < md
  | .lnAddT | .lnSubT | .lnMad | .lnAbs | .lnNeg | .lnBfx => 1 < md
  | .lnMulT => 3 < md
  | .lnMulh | .lnAndT | .lnOrT | .lnXorT | .lnNot | .lnShlT | .lnShrT | .lnSraT | .lnRotT
  | .lnMinT | .lnMaxT | .lnClz | .lnPopc => 0 < md
  | .lnCmp => 5 < md % 8 || (7 < md && (match f.d with | .v _ => true | _ => false))
  | .xlShflT => 2 < md
  | .xlShfxT => 0 < md
  | .xlRed => 5 < md || (2 < md && 10 ≤ f.ty)
  | .xlRedi => md != 1 && md != 2
  | .xlScan => 15 < md || 5 < md % 8 || (2 < md % 8 && 10 ≤ f.ty)
  | .xlBallot => match f.d with | .k _ => 0 < md | _ => 15 < md
  | .fpAdd | .fpSub | .fpMul | .fpFma | .fpDiv | .fpSqrt | .fpRcp | .fpRsq | .fpExp2 | .fpLog2
  | .fpLdexp => 0 < md
  | .fpMin | .fpMax | .fpFrexp => 1 < md
  | .fpCmp | .dcCmp => 15 < md || (7 < md && (match f.d with | .v _ => true | _ => false))
  | .fpRnd | .dcRnd => 5 < md % 8
  | .fpCvt => md % 16 < 8 || 13 < md % 16 || (15 < md % 32 && f.ty < 12)
  | .dcAdd | .dcSub | .dcMul | .dcFma | .dcDiv => 0 < md
  | .dcCvt =>
    !TySet.dcDest.has (md % 16) || ((f.ty == 15) == (md % 16 == 15)) ||
      (15 < md % 32 && f.ty != 3 && f.ty != 7)
  | .scQuant => 1 < md
  | .scDeq => md % 4 == 3 && f.ty == 14
  | .mxMmas => md % 4 == 3 && f.ty == 14
  | .mxWload =>
    md % 4 == 3 || (md % 4 == 1 && f.ty < 12) || (md % 4 == 2 && 9 < f.ty) ||
      (md % 4 != 2 && 3 < md)
  | .memFe => md % 4 == 3
  | .memFence => md % 4 == 3 || md / 4 % 4 == 3
  | .memXfence =>
    f.a.code == 0 || 127 < f.a.code || f.b.code == 0 || 127 < f.b.code || md % 4 == 3
  | .memOpx => 15 < md
  | .memOptab => 7 < md
  | .ltHold | .ltDrop | .ltWait => f.a == .zero && 0 < md
  | .ltTest => f.b == .zero && 0 < md % 4
  | .tkPush => f.c == .zero && 0 < md
  | .rgGrow => 2 < md
  | .nmRatio => 16 < md
  | .sysEret => 3 < md
  | _ => false

/-- The Q specifiers among the register fields of a word (R63). -/
def queueSpecs (row : Row) (f : Fields) : List Nat :=
  let one (rl : OpRule) (r : Reg) : List Nat :=
    match rl, r with
    | .reg _ _, .q n => [n.val]
    | _, _ => []
  one row.d f.d ++ one row.a f.a ++ one row.b f.b ++ one row.c f.c

/-- Each Q specifier stands at most once in one instruction (R63). DEDUCED (log 6): two
different ones may meet, a pop and a push, since R63 orders every pop before every push. -/
def queuesOnce (row : Row) (f : Fields) : Bool := decide (queueSpecs row f).Nodup

/-- The classes whose own rule gives detail 9 to a MOD value that the entry does not define (R173, R185, R261,
R297); elsewhere a bit of MOD that the entry leaves unassigned is an unused sub-field (R63, R75, log 6). -/
def Cls.modIsValue : Cls → Bool
  | .mx | .mem | .cp | .q | .lt | .tk | .rg => true
  | .fr | .ctl | .km | .ln | .xl | .fp | .dc | .sc | .nm | .sys => false

/-- Tests 5 to 9 of R69, in their order, on the fields of one word; the number of the first
that fails. VREGS and SREGS are the kernel's. -/
def fieldsFail (m : Mn) (vregs sregs : Nat) (f : Fields) : Option Nat :=
  let row := m.row
  let t7 := test7 m vregs sregs f
  let stray := Nat.land f.low row.unused != 0
  if !row.ty.has f.ty then some 5
  else if !row.long && f.la != 0 then some 6
  else if !(t7 row.d f.d && t7 row.a f.a && t7 row.b f.b && t7 row.c f.c) ||
      !queuesOnce row f then some 7
  else if !(test8 f row.d f.d && test8 f row.a f.a && test8 f row.b f.b && test8 f row.c f.c) ||
      (!row.km && f.km != 0) || (stray && !row.cls.modIsValue) || !zeroUnless m f then some 8
  else if reserved m f || stray then some 9
  else none

/-- The clause classes of R15 that admit a class. -/
def Cls.eng : Cls → Nat
  | .fr | .km | .sys => 0
  | .ln | .xl | .fp | .dc | .sc => 1
  | .mx => 2
  | .mem | .q => 3
  | .cp => 4
  | .lt | .tk | .rg | .nm => 5
  | .ctl => 0

/-- The clause class that admits an instruction (R15): the ctl instructions are split. -/
def Mn.eng (m : Mn) : Nat :=
  match m with
  | .ctlBrv | .ctlJoin | .ctlCallv | .ctlRetq => 1
  | _ => m.row.cls.eng

/-- The check of R69 on a word of a clause: the number of the first failing test. `eng` is the
clause's ENG, `last` whether the word stands in its last position. -/
def checkWord (eng : Nat) (last : Bool) (vregs sregs : Nat) (w : Word) : Option Nat :=
  if !opAssigned (wordOp w) then some 1
  else match Mn.ofOpFn (wordOp w) (wordFn w) with
    | none => some 2
    | some m =>
      if m.eng != eng then some 3
      else if m.row.ctl && !last then some 4
      else fieldsFail m vregs sregs (Fields.ofWord m.row.form w)

end Sys2Proof
end

