-- ==== Sys2Proof/Machine/Maps.lean ====
section
/-! DEFINITION. Sparse maps in canonical form, masks, and little-endian bytes. -/

namespace Sys2Proof.Machine

/-- What a key reads as. -/
def SMap.find {α : Type} : SMap α → Nat → Option α
  | [], _ => none
  | (a, v) :: m, k => if a = k then some v else SMap.find m k

/-- What a key reads as, with a value for unlisted keys. -/
def SMap.val {α : Type} (m : SMap α) (d : α) (k : Nat) : α := (SMap.find m k).getD d

/-- List a key, in order. -/
def SMap.put {α : Type} : SMap α → Nat → α → SMap α
  | [], k, v => [(k, v)]
  | (a, w) :: m, k, v =>
    if k < a then (k, v) :: (a, w) :: m
    else if a = k then (k, v) :: m
    else (a, w) :: SMap.put m k v

/-- Unlist a key. -/
def SMap.del {α : Type} : SMap α → Nat → SMap α
  | [], _ => []
  | (a, w) :: m, k => if a = k then SMap.del m k else (a, w) :: SMap.del m k

/-- Write a key of a map whose unlisted keys read as `d`. -/
def SMap.set {α : Type} [DecidableEq α] (d : α) (m : SMap α) (k : Nat) (v : α) : SMap α :=
  if v = d then SMap.del m k else SMap.put m k v

/-- Change a key of such a map. -/
def SMap.upd {α : Type} [DecidableEq α] (d : α) (m : SMap α) (k : Nat) (f : α → α) : SMap α :=
  SMap.set d m k (f (SMap.val m d k))

/-- Change a listed key; an unlisted one stays unlisted. -/
def SMap.alter {α : Type} (m : SMap α) (k : Nat) (f : α → α) : SMap α :=
  match SMap.find m k with
  | some v => SMap.put m k (f v)
  | none => m

/-- Keys strictly rising. -/
def SMap.sorted {α : Type} : SMap α → Bool
  | [] => true
  | [_] => true
  | (a, _) :: (b, w) :: m => decide (a < b) && SMap.sorted ((b, w) :: m)

/-- The canonical form: keys strictly rising and no entry equal to `d`. -/
def SMap.wf {α : Type} [DecidableEq α] (d : α) (m : SMap α) : Bool :=
  SMap.sorted m && m.all fun e => decide (e.2 ≠ d)

/-- The mask of lanes 0..n−1 (R10). -/
def lanesMask (n : Nat) : Mask := BitVec.ofNat 1024 (2 ^ n - 1)

/-- The lanes of a mask below `n`, ascending. -/
def lanesIn (n : Nat) (m : Mask) : List Nat := (List.range n).filter fun l => m.getLsbD l

/-- The mask of one lane. -/
def laneBit (l : Nat) : Mask := BitVec.twoPow 1024 l

/-- The mask of a list of lanes. -/
def maskOf (ls : List Nat) : Mask := ls.foldl (fun m l => m ||| laneBit l) 0

/-- How many lanes below `n` a mask has. -/
def laneCount (n : Nat) (m : Mask) : Nat := (lanesIn n m).length

/-- Mask word `i` (R10). -/
def maskWord (m : Mask) (i : Nat) : BitVec 32 := m.extractLsb' (32 * i) 32

/-- The summary word: bit `w` set when mask word `w` is non-empty (R10). -/
def summary (m : Mask) : BitVec 32 :=
  BitVec.ofNat 32 ((List.range 32).foldl (fun n i => if maskWord m i = 0 then n else n + 2 ^ i) 0)

/-- A mask with word `i` replaced; out of range, unchanged. -/
def setMaskWord (m : Mask) (i : Nat) (w : BitVec 32) : Mask :=
  if i < 32 then
    (m &&& ~~~(BitVec.zeroExtend 1024 (BitVec.allOnes 32) <<< (32 * i))) |||
      (BitVec.zeroExtend 1024 w <<< (32 * i))
  else m

/-- The number that bytes make, the first lowest. -/
def leNat : List Byte → Nat
  | [] => 0
  | b :: bs => b.toNat + 256 * leNat bs

/-- The low `n` bytes of a number, the lowest first. -/
def leBytes : Nat → Nat → List Byte
  | 0, _ => []
  | n + 1, v => BitVec.ofNat 8 v :: leBytes n (v / 256)

/-- A field of a list of bytes as a number. -/
def bytesAt (bs : List Byte) (off n : Nat) : Nat := leNat ((bs.drop off).take n)

/-- `n` bytes of zero. -/
def zeros (n : Nat) : List Byte := List.replicate n 0

/-- Overlay bytes on bytes at an offset, as far as they reach. -/
def overlay (base : List Byte) (off : Nat) (bs : List Byte) : List Byte :=
  base.take off ++ bs.take (base.length - off) ++ base.drop (off + bs.length)

/-- Pieces of an address range that each lie in one aligned unit of `u` bytes: address and size.
`fuel` bounds the number of pieces. -/
def pieces (u : Nat) : Nat → Nat → Nat → List (Nat × Nat)
  | 0, _, _ => []
  | fuel + 1, a, n =>
    if n = 0 then []
    else
      let k := min n (u - a % u)
      (a, k) :: pieces u fuel (a + k) (n - k)

/-- Pieces of a range by 4 KiB pages. -/
def pagePieces (a n : Nat) : List (Nat × Nat) := pieces 4096 (n / 4096 + 2) a n

end Sys2Proof.Machine
end

