-- ==== Sys2Proof/Machine/Base.lean ====
section
/-! DEFINITION. The shape every meaning takes: an action on the state that may stop at a blocking
point or trap; the accessors of teams, cores and registers; and the building of fault records. -/

namespace Sys2Proof.Machine

/-- Why an instruction's action ends before it retires. What it did to the state until then
stays done: the lanes that do not trap proceed (R5), the lanes served keep their effects (R187). -/
inductive Stop
  /-- It stands at a blocking point or a hold (R187, R346). -/
  | block (b : Block)
  /-- It faults: an instruction delivery of these records (R354). -/
  | trap (rs : List Rec)
  /-- Control has already been moved; nothing retires. -/
  | gone
  deriving DecidableEq, Repr

/-- An action on the state. -/
abbrev Act (α : Type) := ExceptT Stop (StateM State) α

/-- Run an action. -/
def Act.go {α : Type} (m : Act α) (s : State) : Except Stop α × State := (ExceptT.run m).run s

/-- The code of a cause (R353). -/
def Cause.code : Cause → Nat
  | .encoding => 0x01 | .header => 0x02 | .misalign => 0x03 | .nomap => 0x04 | .protect => 0x05
  | .absent => 0x06 | .lease => 0x07 | .poison => 0x08 | .remote => 0x09 | .qstall => 0x0A
  | .fpinv => 0x0B | .fpdivz => 0x0C | .fpovf => 0x0D | .fpunf => 0x0E | .fpinx => 0x0F
  | .determ => 0x10 | .optab => 0x11 | .budget => 0x12 | .timeuse => 0x13 | .scratch => 0x14
  | .accum => 0x15 | .latchkey => 0x16 | .sill => 0x17 | .layout => 0x18 | .user => 0x19
  | .cstack => 0x1A | .safegap => 0x1B

/-- Replayable: system software can change what a reissue finds (R350). -/
def Rec.replayable (r : Rec) : Bool :=
  match r.cause with
  | .nomap | .absent | .lease | .poison | .remote | .qstall => true
  | .protect => r.detail < 4
  | _ => false

/-- The 32 bytes of a record (R350). -/
def Rec.bytes (r : Rec) : List Byte :=
  let bit (b : Bool) (n : Nat) : Nat := if b then 2 ^ n else 0
  let fl := bit r.decimal 0 + bit r.replayable 1 + bit r.store 2 + bit r.load 3 +
    bit r.logged 4 + bit r.hdr 5
  leBytes 8 r.ea.toNat ++
  leBytes 8 (r.clause.toNat % 2 ^ 57 + r.index % 16 * 2 ^ 60) ++
  leBytes 8 (r.cause.code + r.size % 256 * 2 ^ 8 + r.lane % 1024 * 2 ^ 16 +
    r.teamix % 2 ^ 32 * 2 ^ 32) ++
  leBytes 8 (fl + r.origin % 256 * 2 ^ 8 + r.ctx % 2 ^ 16 * 2 ^ 16 + r.detail % 2 ^ 32 * 2 ^ 32)

/-! ## The pieces of the state -/

/-- A team by number. -/
def State.team (s : State) (i : Nat) : Team := SMap.val s.teams {} i
/-- Change a team. -/
def State.withTeam (s : State) (i : Nat) (f : Team → Team) : State :=
  { s with teams := SMap.alter s.teams i f }
/-- A core by number (R283). -/
def State.core (s : State) (c : Nat) : Core := SMap.val s.cores {} c
/-- Change a core. -/
def State.withCore (s : State) (c : Nat) (f : Core → Core) : State :=
  { s with cores := SMap.upd {} s.cores c f }
/-- An address space by ASID (R332). -/
def State.space (s : State) (a : Nat) : Space := SMap.val s.spaces {} a
/-- Change an address space that is registered. -/
def State.withSpace (s : State) (a : Nat) (f : Space → Space) : State :=
  { s with spaces := SMap.alter s.spaces a f }
/-- A region by number. -/
def State.region (s : State) (r : Nat) : Region := SMap.val s.regions {} r
/-- Change a region. -/
def State.withRegion (s : State) (r : Nat) (f : Region → Region) : State :=
  { s with regions := SMap.alter s.regions r f }
/-- A Sill unit by pseudo-channel (R306). -/
def State.sill (s : State) (c : Nat) : Sill := SMap.val s.sills {} c
/-- Change a Sill unit. -/
def State.withSill (s : State) (c : Nat) (f : Sill → Sill) : State :=
  { s with sills := SMap.upd {} s.sills c f }
/-- Change Hearth. -/
def State.withHearth (s : State) (f : Hearth → Hearth) : State := { s with hearth := f s.hearth }
/-- A pseudo-channel's repair state. -/
def State.channel (s : State) (c : Nat) : Channel := SMap.val s.channels {} c

/-- The launch of a region by entrant. -/
def Region.launch (r : Region) (e : Nat) : Launch := r.launches.getD e {}
/-- Change a launch of a region. -/
def Region.withLaunch (r : Region) (e : Nat) (f : Launch → Launch) : Region :=
  { r with launches := r.launches.modify e f }
/-- Change the launch a team belongs to. -/
def State.withLaunch (s : State) (l : LaunchId) (f : Launch → Launch) : State :=
  s.withRegion l.region fun r => r.withLaunch l.entrant f

/-- The number under which a saved context's scratchpad, side log and forming collectives stand: its
save area, beside the core it left (R361, R362; log 25). -/
def saveArea (core ctx : Nat) : Nat := core % 160 + 160 * ctx
/-- Cluster of a core, and of the core a save area stands beside (R283). -/
def clusterOf (core : Nat) : Nat := core % 160 / 8
/-- Die of a core (R283). -/
def dieOf (core : Nat) : Nat := core % 160 / 80

/-! ## The team at issue -/

/-- The number of the team at issue. -/
def me : Act Nat := do return (← get).cur.getD 0
/-- The team at issue. -/
def tm : Act Team := do
  let s ← get
  return s.team (s.cur.getD 0)
/-- Change the team at issue. -/
def modTm (f : Team → Team) : Act Unit := modify fun s => s.withTeam (s.cur.getD 0) f
/-- A new object number. -/
def fresh : Act Nat := do
  let s ← get
  set { s with serial := s.serial + 1 }
  return s.serial
/-- The number of the next free value (log 2). -/
def nextFree : Act Nat := do
  let s ← get
  set { s with free := s.free + 1 }
  return s.free
/-- Stand at a blocking point. -/
def blockAt {α : Type} (b : Block) : Act α := throw (.block b)
/-- Trap with one record. -/
def trap {α : Type} (r : Rec) : Act α := throw (.trap [r])

/-! ## Registers -/

/-- Key of a lane register. -/
def vKey (lane reg : Nat) : Nat := 128 * lane + reg
/-- V[reg] of a lane (R62). -/
def Team.getV (t : Team) (lane reg : Nat) : LaneWord := SMap.val t.v 0 (vKey lane reg)
/-- Write V[reg] of a lane; the write clears its poison bit (R357). -/
def Team.setV (t : Team) (lane reg : Nat) (x : LaneWord) : Team :=
  { t with v := SMap.set 0 t.v (vKey lane reg) x, vPoison := SMap.del t.vPoison (vKey lane reg) }
/-- S[reg]. -/
def Team.getS (t : Team) (reg : Nat) : Word := SMap.val t.s 0 reg
/-- Write S[reg]; the write clears its poison bit (R357). -/
def Team.setS (t : Team) (reg : Nat) (x : Word) : Team :=
  { t with s := SMap.set 0 t.s reg x, sPoison := SMap.del t.sPoison reg }
/-- K[n]: K0 reads as lanes 0..LANES−1 (R10). -/
def Team.getK (t : Team) (n : Nat) : Mask := if n = 0 then lanesMask t.lanes else SMap.val t.k 0 n
/-- Write K[n]: a write to K0 is discarded, bits at and above LANES too (R9, R10). -/
def Team.setK (t : Team) (n : Nat) (m : Mask) : Team :=
  if n = 0 then t else { t with k := SMap.set 0 t.k n (m &&& lanesMask t.lanes) }
/-- A[n]. -/
def Team.getA (t : Team) (n : Nat) : BitVec 8 := SMap.val t.a 0 n
/-- Write A[n]. -/
def Team.setA (t : Team) (n : Nat) (x : BitVec 8) : Team := { t with a := SMap.set 0 t.a n x }
/-- Add one to A[n], modulo 256 (R188). -/
def Team.bumpA (t : Team) (n : Nat) : Team := t.setA n (t.getA n + 1)
/-- ORIGIN code of the poison of V[reg] of a lane, 0 for none (R357). -/
def Team.poisonV (t : Team) (lane reg : Nat) : Nat := SMap.val t.vPoison 0 (vKey lane reg)
/-- ORIGIN code of the poison of S[reg]. -/
def Team.poisonS (t : Team) (reg : Nat) : Nat := SMap.val t.sPoison 0 reg
/-- Two registers of a lane as 64 bits, the first lowest (R62). -/
def Team.getPair (t : Team) (lane reg : Nat) : Word := t.getV lane (reg + 1) ++ t.getV lane reg
/-- Write two registers of a lane. -/
def Team.setPair (t : Team) (lane reg : Nat) (x : Word) : Team :=
  (t.setV lane reg (x.extractLsb' 0 32)).setV lane (reg + 1) (x.extractLsb' 32 32)
/-- Land a value in a register, poisoned with the given ORIGIN code when not 0 (R357). -/
def Team.land (t : Team) (r : Result) : Team :=
  match r.dst with
  | .v l n =>
    let t' := t.setV l n (r.value.setWidth 32)
    if r.poison = 0 then t' else { t' with vPoison := SMap.set 0 t'.vPoison (vKey l n) r.poison }
  | .s n =>
    let t' := t.setS n r.value
    if r.poison = 0 then t' else { t' with sPoison := SMap.set 0 t'.sPoison n r.poison }
/-- Set EXM; bits at and above LANES stay clear (R9). -/
def Team.setExm (t : Team) (m : Mask) : Team := { t with exm := m &&& lanesMask t.lanes }
/-- The active set under a K register (R11). -/
def Team.active (t : Team) (km : Nat) : Mask := t.exm &&& t.getK km
/-- The active lanes, ascending (R13, R30). -/
def Team.lanesOf (t : Team) (km : Nat) : List Nat := lanesIn t.lanes (t.active km)
/-- Lanes that a stack entry holds. -/
def Team.stacked (t : Team) : Mask := t.stack.foldl (fun m e => m ||| e.mask) 0
/-- Every lane has exited, in EXM and on the stack alike (R32). -/
def Team.spent (t : Team) : Bool :=
  (lanesMask t.lanes &&& ~~~t.exited) == 0 && (t.stacked &&& ~~~t.exited) == 0

/-- TEAMS: the number of teams in the launch (R62). -/
def State.teamsOf (s : State) (t : Team) : Nat := (s.region t.launch.region).teams
/-- Generation of the team's accesses: c0 of NOW (R337). -/
def Team.gen (t : Team) : Nat := t.now.headD 0
/-- Whether the team's launch is deterministic (R279). -/
def State.detOf (s : State) (t : Team) : Bool := (s.region t.launch.region).det

/-! ## Records -/

/-- A record of the word at issue, or of the header the team stands at (R350). -/
def Team.record (t : Team) (c : Cause) (detail : Nat) : Rec :=
  match t.clause with
  | some o =>
    { cause := c, detail := detail, clause := o.header, index := o.idx, teamix := t.teamix,
      ctx := t.ctx }
  | none =>
    { cause := c, detail := detail, clause := t.pc, index := 0xF, teamix := t.teamix,
      ctx := t.ctx, hdr := true }

/-- Trap with a cause, a detail and an effective address, lane 0 (R78). -/
def fail {α : Type} (c : Cause) (detail : Nat) (ea : Word := 0) : Act α := do
  let t ← tm
  trap { t.record c detail with ea := ea }

/-- A use of a poisoned register: POISON with its specifier (R357). -/
def Team.poisonRec (t : Team) (lane : Nat) (r : Reg) (origin : Nat) : Rec :=
  { t.record .poison r.code with lane := lane, origin := origin }

end Sys2Proof.Machine
end

