-- ==== Sys2Proof/Machine/Num.lean ====
section
/-! DEFINITION. Exact binary arithmetic (R118 to R140): values of the binary floating formats,
one rounding with its exceptions (R129), the elementary functions (R143, R144), comparisons
(R147), exact sums (R139, R140). A value is computed exactly, or to many bits with a mark that
more follow, and narrowed once at the end. -/

namespace Sys2Proof.Num

/-- A binary floating value: a NaN (signalling or not), an infinity, or (-1)^neg * m * 2^e. -/
inductive FVal
  | nan (signalling : Bool)
  | inf (neg : Bool)
  | fin (neg : Bool) (m : Nat) (e : Int)
  deriving DecidableEq, Repr

/-- The rounding modes (R131, R133, R149). -/
inductive Rm
  | rne | rna | rtz | rup | rdn
  deriving DecidableEq, Repr

/-- A binary format (R118): its widths and bias, and whether its all-ones exponent holds
infinities and NaNs (the IEEE layout) or, as in E4M3, numbers and one NaN. -/
structure Fmt where
  width : Nat
  ebits : Nat
  fbits : Nat
  bias : Nat
  ieee : Bool
  deriving DecidableEq, Repr

/-- The format of a type code 8..14 (R60, R118, R120). -/
def fmtOf (ty : Nat) : Fmt :=
  match ty with
  | 8 => ⟨16, 5, 10, 15, true⟩
  | 9 => ⟨16, 8, 7, 127, true⟩
  | 10 => ⟨32, 8, 23, 127, true⟩
  | 11 => ⟨64, 11, 52, 1023, true⟩
  | 12 => ⟨8, 4, 3, 7, false⟩
  | 13 => ⟨8, 5, 2, 15, true⟩
  | _ => ⟨4, 2, 1, 1, false⟩

/-- FP32 (R118). -/
def f32 : Fmt := fmtOf 10
/-- FP64 (R118). -/
def f64 : Fmt := fmtOf 11
/-- FP16 (R118). -/
def f16 : Fmt := fmtOf 8

/-- The exception flags of one operation, in the bit order of FPF (R132). -/
abbrev Flags := BitVec 5
/-- Invalid (R129). -/
def inv : Flags := 1
/-- Divide by zero (R129). -/
def divz : Flags := 2
/-- Overflow (R129). -/
def ovf : Flags := 4
/-- Underflow (R129). -/
def unf : Flags := 8
/-- Inexact (R129). -/
def inx : Flags := 16

/-- Number of bits of a natural number; 0 for 0. -/
def bitlen (n : Nat) : Nat := if n = 0 then 0 else Nat.log2 n + 1

/-- The canonical NaN of a format (R118, R119). -/
def Fmt.nanBits (f : Fmt) : Nat :=
  if f.ieee then (2 ^ f.ebits - 1) * 2 ^ f.fbits + 2 ^ (f.fbits - 1) else 0x7F
/-- The bits of an infinity of a format that has one. -/
def Fmt.infBits (f : Fmt) (neg : Bool) : Nat :=
  (if neg then 2 ^ (f.width - 1) else 0) + (2 ^ f.ebits - 1) * 2 ^ f.fbits
/-- The largest finite magnitude, as its bits (R118). -/
def Fmt.maxBits (f : Fmt) : Nat :=
  if f.ieee then (2 ^ f.ebits - 1) * 2 ^ f.fbits - 1
  else if f.width = 8 then 0x7E else 2 ^ (f.ebits + f.fbits) - 1
/-- The exponent of the least normal number. -/
def Fmt.emin (f : Fmt) : Int := 1 - (f.bias : Int)
/-- The sign bit's weight. -/
def Fmt.signBit (f : Fmt) (neg : Bool) : Nat := if neg then 2 ^ (f.width - 1) else 0

/-- The value of a bit pattern (R118). E2M1's code 0b1000 reads as -0 here; a block gives it its
special value (R122). -/
def Fmt.value (f : Fmt) (bits : Nat) : FVal :=
  let neg := bits / 2 ^ (f.width - 1) % 2 == 1
  let ef := bits / 2 ^ f.fbits % 2 ^ f.ebits
  let fr := bits % 2 ^ f.fbits
  if ef + 1 = 2 ^ f.ebits && f.ieee then
    if fr = 0 then .inf neg else .nan (fr / 2 ^ (f.fbits - 1) % 2 == 0)
  else if f.width = 8 && !f.ieee && ef + 1 = 2 ^ f.ebits && fr = 7 then .nan false
  else if ef = 0 then .fin neg fr (f.emin - f.fbits)
  else .fin neg (2 ^ f.fbits + fr) ((ef : Int) - f.bias - f.fbits)

/-- `m * 2^k` for an integer `k`, the bits shifted out dropped. -/
def shiftInt (m : Nat) (k : Int) : Nat :=
  if 0 ≤ k then m * 2 ^ k.toNat else m / 2 ^ (-k).toNat

/-- The bits of a finite value that the format holds exactly. -/
def Fmt.pack (f : Fmt) (neg : Bool) (m : Nat) (e : Int) : Nat :=
  if m = 0 then f.signBit neg
  else
    let top : Int := (bitlen m : Int) - 1 + e
    if top < f.emin then f.signBit neg + shiftInt m (e - (f.emin - f.fbits))
    else
      f.signBit neg + (top + f.bias).toNat * 2 ^ f.fbits +
        (shiftInt m (e - (top - f.fbits)) - 2 ^ f.fbits)

/-- Whether a magnitude is rounded up, from the kept integer's last bit, the sign, and where the
dropped part lies against one half (`ord`, with nothing dropped when `rest` is false). -/
def roundUp (rm : Rm) (neg odd : Bool) (half : Ordering) (rest : Bool) : Bool :=
  match rm with
  | .rne => half == .gt || (half == .eq && odd)
  | .rna => half != .lt
  | .rtz => false
  | .rup => rest && !neg
  | .rdn => rest && neg

/-- Rounds the magnitude `m * 2^e` (and a little more when `sticky`) to a multiple of `2^g`:
the multiple, and whether anything was lost. -/
def roundAt (rm : Rm) (neg : Bool) (m : Nat) (e : Int) (sticky : Bool) (g : Int) : Nat × Bool :=
  if g ≤ e then
    let q := shiftInt m (e - g)
    (if sticky && roundUp rm neg false .lt true then q + 1 else q, sticky)
  else
    let d := (g - e).toNat
    let q := m / 2 ^ d
    let r := m % 2 ^ d
    let half : Ordering :=
      let c := compare (2 * r) (2 ^ d)
      if c == .eq && sticky then .gt else c
    let rest := r != 0 || sticky
    (if roundUp rm neg (q % 2 == 1) half rest then q + 1 else q, rest)

/-- Rounds a finite magnitude once to a format (R129, R131, R137): the bits and the exceptions.
`sat` is the saturating form, `ftz` flushes a tiny result. -/
def Fmt.round (f : Fmt) (rm : Rm) (ftz sat : Bool) (neg : Bool) (m : Nat) (e : Int)
    (sticky : Bool) : Nat × Flags :=
  if m = 0 && !sticky then (f.signBit neg, 0)
  else
    let p := f.fbits + 1
    let g1 : Int := (bitlen m : Int) + e - p
    let r1 := roundAt rm neg m e sticky g1
    let top : Int := (bitlen r1.1 : Int) - 1 + g1
    if r1.1 = 0 || top < f.emin then
      if ftz then (f.signBit neg, unf ||| inx)
      else
        let g : Int := f.emin - f.fbits
        let r := roundAt rm neg m e sticky g
        (f.pack neg r.1 g, if r.2 then unf ||| inx else 0)
    else
      let fieldTop : Int := top + f.bias
      let bits := f.pack false r1.1 g1
      if (2 ^ f.ebits : Int) ≤ fieldTop || f.maxBits < bits then
        if sat then (f.signBit neg + f.maxBits, inx)
        else if !f.ieee then (f.nanBits, ovf ||| inx)
        else
          let toInf := match rm with
            | .rne | .rna => true
            | .rtz => false
            | .rup => !neg
            | .rdn => neg
          (if toInf then f.infBits neg else f.signBit neg + f.maxBits, ovf ||| inx)
      else (f.signBit neg + bits, if r1.2 then inx else 0)

/-- The bits of a value that is rounded once to a format, with what FTZ and saturation do; a NaN
is canonical (R119, R137). -/
def Fmt.deliver (f : Fmt) (rm : Rm) (ftz sat : Bool) (v : FVal) : Nat × Flags :=
  match v with
  | .nan s => (f.nanBits, if s then inv else 0)
  | .inf neg =>
    if sat then (f.signBit neg + f.maxBits, 0)
    else if f.ieee then (f.infBits neg, 0)
    else (f.nanBits, inv)
  | .fin neg m e => f.round rm ftz sat neg m e false

/-- DAZ: a subnormal operand read as zero of its sign (R131). -/
def Fmt.read (f : Fmt) (daz : Bool) (bits : Nat) : FVal :=
  match f.value bits with
  | .fin neg m e => if daz && m < 2 ^ f.fbits then .fin neg 0 e else .fin neg m e
  | v => v

/-- Whether a value is a signalling NaN. -/
def FVal.isSnan : FVal → Bool
  | .nan s => s
  | _ => false
/-- Whether a value is a NaN. -/
def FVal.isNan : FVal → Bool
  | .nan _ => true
  | _ => false
/-- The negated value. -/
def FVal.negate : FVal → FVal
  | .nan s => .nan s
  | .inf n => .inf (!n)
  | .fin n m e => .fin (!n) m e
/-- The sign of a value. -/
def FVal.isNeg : FVal → Bool
  | .nan _ => false
  | .inf n => n
  | .fin n _ _ => n
/-- Whether a value is a zero. -/
def FVal.isZero : FVal → Bool
  | .fin _ 0 _ => true
  | _ => false

/-- A signed integer `x * 2^e` as a value; a zero takes the sign given. -/
def ofInt (x : Int) (e : Int) (zneg : Bool) : FVal :=
  if x = 0 then .fin zneg 0 e else .fin (x < 0) x.natAbs e

/-- The signed integer of a finite value in units of `2^g`, `g` at most its exponent. -/
def toUnits (neg : Bool) (m : Nat) (e g : Int) : Int :=
  let q : Int := shiftInt m (e - g)
  if neg then -q else q

/-- The exact sum of two values, with the sign an exact zero takes in a rounding mode, and the
exceptions other than those of rounding (R129, R142). -/
def addExact (rm : Rm) (x y : FVal) : FVal × Flags :=
  let sig : Flags := if x.isSnan || y.isSnan then inv else 0
  match x, y with
  | .nan _, _ => (.nan false, sig)
  | _, .nan _ => (.nan false, sig)
  | .inf a, .inf b => if a = b then (.inf a, 0) else (.nan false, inv)
  | .inf a, .fin _ _ _ => (.inf a, 0)
  | .fin _ _ _, .inf b => (.inf b, 0)
  | .fin a m e, .fin b n f =>
    let g := min e f
    let s := toUnits a m e g + toUnits b n f g
    let zneg := if a = b && (m = 0 && n = 0) then a else rm == .rdn
    (ofInt s g zneg, 0)

/-- The exact product of two values (R129). -/
def mulExact (x y : FVal) : FVal × Flags :=
  let sig : Flags := if x.isSnan || y.isSnan then inv else 0
  match x, y with
  | .nan _, _ => (.nan false, sig)
  | _, .nan _ => (.nan false, sig)
  | .inf a, .inf b => (.inf (a != b), 0)
  | .inf a, .fin b m _ => if m = 0 then (.nan false, inv) else (.inf (a != b), 0)
  | .fin a m _, .inf b => if m = 0 then (.nan false, inv) else (.inf (a != b), 0)
  | .fin a m e, .fin b n f => (.fin (a != b) (m * n) (e + f), 0)

/-- An exact value as it enters a format, with the exceptions raised so far. -/
def Fmt.finish (f : Fmt) (rm : Rm) (ftz : Bool) (v : FVal × Flags) : Nat × Flags :=
  let r := f.deliver rm ftz false v.1
  (r.1, v.2 ||| r.2)

/-- a + b, rounded once (R143). -/
def Fmt.add (f : Fmt) (rm : Rm) (ftz : Bool) (x y : FVal) : Nat × Flags :=
  f.finish rm ftz (addExact rm x y)
/-- a * b, rounded once (R143). -/
def Fmt.mul (f : Fmt) (rm : Rm) (ftz : Bool) (x y : FVal) : Nat × Flags :=
  f.finish rm ftz (mulExact x y)
/-- a * b + c with the product exact, rounded once (R139, R143); 0 * ∞ raises invalid even when
c is a quiet NaN. -/
def Fmt.fma (f : Fmt) (rm : Rm) (ftz : Bool) (x y z : FVal) : Nat × Flags :=
  let p := mulExact x y
  let s := addExact rm p.1 z
  f.finish rm ftz (s.1, p.2 ||| s.2)

/-- a / b, rounded once (R143). -/
def Fmt.div (f : Fmt) (rm : Rm) (ftz : Bool) (x y : FVal) : Nat × Flags :=
  let sig : Flags := if x.isSnan || y.isSnan then inv else 0
  match x, y with
  | .nan _, _ => (f.nanBits, sig)
  | _, .nan _ => (f.nanBits, sig)
  | .inf _, .inf _ => (f.nanBits, inv)
  | .inf a, .fin b _ _ => (f.infBits (a != b), 0)
  | .fin a _ _, .inf b => (f.signBit (a != b), 0)
  | .fin a m e, .fin b n g =>
    if n = 0 then
      if m = 0 then (f.nanBits, inv) else (f.infBits (a != b), divz)
    else if m = 0 then (f.signBit (a != b), 0)
    else
      let k := f.fbits + 4 + bitlen n
      let q := m * 2 ^ k / n
      f.round rm ftz false (a != b) q (e - g - k) (m * 2 ^ k % n != 0)

/-- Finds the integer square root bit by bit, from bit `k - 1` down. -/
def isqrtFrom (n : Nat) : Nat → Nat → Nat
  | 0, r => r
  | k + 1, r =>
    let t := r + 2 ^ k
    isqrtFrom n k (if t * t ≤ n then t else r)

/-- The integer square root. -/
def isqrt (n : Nat) : Nat := isqrtFrom n (bitlen n / 2 + 1) 0

/-- √a, rounded once (R143, R144). -/
def Fmt.sqrt (f : Fmt) (rm : Rm) (ftz : Bool) (x : FVal) : Nat × Flags :=
  match x with
  | .nan s => (f.nanBits, if s then inv else 0)
  | .inf neg => if neg then (f.nanBits, inv) else (f.infBits false, 0)
  | .fin neg m e =>
    if m = 0 then (f.signBit neg, 0)
    else if neg then (f.nanBits, inv)
    else
      let k := 2 * (f.fbits + 4) + (e % 2).toNat
      let n := m * 2 ^ k
      let r := isqrt n
      f.round rm ftz false false r ((e - k) / 2) (r * r != n)

/-- 1 / a, rounded once (R143, R144). -/
def Fmt.rcp (f : Fmt) (rm : Rm) (ftz : Bool) (x : FVal) : Nat × Flags :=
  f.div rm ftz (.fin false 1 0) x

/-- 1 / √a, rounded once (R143, R144). -/
def Fmt.rsq (f : Fmt) (rm : Rm) (ftz : Bool) (x : FVal) : Nat × Flags :=
  match x with
  | .nan s => (f.nanBits, if s then inv else 0)
  | .inf neg => if neg then (f.nanBits, inv) else (f.signBit false, 0)
  | .fin neg m e =>
    if m = 0 then (f.infBits neg, divz)
    else if neg then (f.nanBits, inv)
    else
      let odd := (e % 2).toNat
      let m2 := m * 2 ^ odd
      let h : Int := (e - odd) / 2
      let k := f.fbits + 4 + bitlen m2
      let r := isqrt (2 ^ (2 * k) / m2)
      f.round rm ftz false false r (-h - k) (r * r * m2 != 2 ^ (2 * k))

/-- The fraction bits the elementary functions keep. -/
def wideBits : Nat := 320

/-- Multiplies `acc` by 2^(2^-i) for each set bit of the fraction, most significant first; `root`
is 2^(2^-i) with wideBits fraction bits. -/
def exp2Go (frac t : Nat) : Nat → Nat → Nat → Nat
  | 0, _, acc => acc
  | k + 1, root, acc =>
    let root' := isqrt (root * 2 ^ wideBits)
    let acc' := if frac / 2 ^ k % 2 = 1 then acc * root' / 2 ^ wideBits else acc
    exp2Go frac t k root' acc'

/-- 2^a, rounded once (R143, R144). A fraction that is not zero gives an irrational result, so
more bits always follow those computed. UNVERIFIED (log 7): the wideBits fraction bits decide
every rounding. -/
def Fmt.exp2 (f : Fmt) (rm : Rm) (ftz : Bool) (x : FVal) : Nat × Flags :=
  match x with
  | .nan s => (f.nanBits, if s then inv else 0)
  | .inf neg => if neg then (f.signBit false, 0) else (f.infBits false, 0)
  | .fin neg m e =>
    if m = 0 then f.round rm ftz false false 1 0 false
    else
      let p := f.fbits + 4
      let top : Int := (bitlen m : Int) - 1 + e
      if top < -(p : Int) - 4 then
        if neg then f.round rm ftz false false (2 ^ p - 1) (-p) true
        else f.round rm ftz false false (2 ^ p) (-p) true
      else if 0 ≤ e || 2 ^ (-e).toNat ∣ m then
        let n : Int := shiftInt m e
        let n := if neg then -n else n
        if n < -4096 then f.round rm ftz false false 1 (-4096) true
        else if 4096 < n then f.round rm ftz false false 1 4096 true
        else f.round rm ftz false false 1 n false
      else
        let t := (-e).toNat
        let whole : Int := (m / 2 ^ t : Nat)
        let fr := m % 2 ^ t
        let n : Int := if neg then -whole - 1 else whole
        let fr := if neg then 2 ^ t - fr else fr
        if n < -4096 then f.round rm ftz false false 1 (-4096) true
        else if 4096 < n then f.round rm ftz false false 1 4096 true
        else
          let y := exp2Go fr t t (2 * 2 ^ wideBits) (2 ^ wideBits)
          f.round rm ftz false false y (n - wideBits) true

/-- Fraction bits of log₂, one a squaring (R143). -/
def log2Go (P : Nat) : Nat → Nat → Nat → Nat
  | 0, _, acc => acc
  | k + 1, y, acc =>
    let y2 := y * y / 2 ^ P
    if 2 ^ (P + 1) ≤ y2 then log2Go P k (y2 / 2) (2 * acc + 1)
    else log2Go P k y2 (2 * acc)

/-- log₂ a, rounded once (R143, R144). UNVERIFIED (log 7): as for exp2. -/
def Fmt.log2 (f : Fmt) (rm : Rm) (ftz : Bool) (x : FVal) : Nat × Flags :=
  match x with
  | .nan s => (f.nanBits, if s then inv else 0)
  | .inf neg => if neg then (f.nanBits, inv) else (f.infBits false, 0)
  | .fin neg m e =>
    if m = 0 then (f.infBits true, divz)
    else if neg then (f.nanBits, inv)
    else
      let b := bitlen m - 1
      let E : Int := (b : Int) + e
      if m = 2 ^ b then f.round rm ftz false (E < 0) E.natAbs 0 false
      else
        let N := 240
        let P := 640
        let L := log2Go P N (m * 2 ^ (P - b)) 0
        let T : Int := E * 2 ^ N + L
        if 0 ≤ T then f.round rm ftz false false T.toNat (-N) true
        else f.round rm ftz false true (T.natAbs - 1) (-N) true

/-- Compares two numbers by value; -0 equals +0. NaNs do not occur. -/
def cmpVal (x y : FVal) : Ordering :=
  match x, y with
  | .inf a, .inf b => if a = b then .eq else if a then .lt else .gt
  | .inf a, _ => if a then .lt else .gt
  | _, .inf b => if b then .gt else .lt
  | .fin a m e, .fin b n f =>
    let g := min e f
    compare (toUnits a m e g) (toUnits b n f g)
  | _, _ => .eq

/-- Whether x lies below y, with -0 below +0 (R115, R145). -/
def below (x y : FVal) : Bool :=
  match cmpVal x y with
  | .lt => true
  | .gt => false
  | .eq => x.isZero && y.isZero && x.isNeg && !y.isNeg

/-- fp.min and fp.max on values read under DAZ (R145): the operand delivered as its value, and
the flags. `prop` is MOD 1. -/
def minMax (max prop : Bool) (x y : FVal) : FVal × Flags :=
  let fl : Flags := if x.isSnan || y.isSnan then inv else 0
  let pick := if (if max then below x y else below y x) then y else x
  if prop then
    if x.isNan || y.isNan then (.nan false, fl) else (pick, 0)
  else if x.isNan then (if y.isNan then .nan false else y, fl)
  else if y.isNan then (x, fl)
  else (pick, 0)

/-- Condition `c` of R147 on two values: the result and the flags. -/
def condition (c : Nat) (x y : FVal) : Bool × Flags :=
  let un := x.isNan || y.isNan
  let o := cmpVal x y
  let quiet : Flags := if x.isSnan || y.isSnan then inv else 0
  let loud : Flags := if un then inv else 0
  match c with
  | 0 => (!un && o == .eq, quiet)
  | 1 => (un || o != .eq, quiet)
  | 2 => (!un && o == .lt, loud)
  | 3 => (!un && o != .gt, loud)
  | 4 => (!un && o == .gt, loud)
  | 5 => (!un && o != .lt, loud)
  | 6 => (un, quiet)
  | _ => (!un, quiet)

/-- Rounds a finite value to an integer (R149, R151). -/
def toInteger (rm : Rm) (neg : Bool) (m : Nat) (e : Int) : Int × Bool :=
  let r := roundAt rm neg m e false 0
  (if neg then -(r.1 : Int) else r.1, r.2)

/-- fp.rnd (R149): the value rounded to an integral value, its sign kept at zero. -/
def Fmt.integral (f : Fmt) (rm : Rm) (ftz exact : Bool) (frm : Rm) (v : FVal) : Nat × Flags :=
  match v with
  | .fin neg m e =>
    let r := roundAt rm neg m e false 0
    if 0 ≤ e then f.deliver frm ftz false v
    else
      let out := f.deliver frm ftz false (.fin neg r.1 0)
      (out.1, (if exact && r.2 then inx else 0) ||| out.2)
  | v => f.deliver frm ftz false v

/-- The binary-to-integer row of R137 for a value already rounded: clamped to `lo..hi`, with
invalid for a NaN or a value outside. -/
def clampInt (lo hi : Int) (v : FVal) (rm : Rm) : Int × Flags :=
  match v with
  | .nan _ => (0, inv)
  | .inf neg => (if neg then lo else hi, inv)
  | .fin neg m e =>
    let x := (toInteger rm neg m e).1
    if x < lo then (lo, inv) else if hi < x then (hi, inv) else (x, 0)

/-- The exact sum of a list of terms under R140: NaN for a NaN term or infinities of both signs,
that infinity for an infinite term, +0 for an exact zero unless every term is -0. -/
def sumExact (ts : List FVal) : FVal :=
  let pos := ts.any fun t => match t with | .inf n => !n | _ => false
  let negi := ts.any fun t => match t with | .inf n => n | _ => false
  if ts.any FVal.isNan || (pos && negi) then .nan false
  else if pos then .inf false
  else if negi then .inf true
  else
    let g := ts.foldl (fun g t => match t with | .fin _ _ e => min g e | _ => g) (0 : Int)
    let s := ts.foldl (fun s t => match t with | .fin n m e => s + toUnits n m e g | _ => s) (0 : Int)
    let allNegZero := ts.all fun t => match t with | .fin n m _ => n && m == 0 | _ => false
    ofInt s g (allNegZero && !ts.isEmpty)

/-- One term of an exact sum: a product, with NaN for 0 * ∞ (R140). -/
def prod (x y : FVal) : FVal := (mulExact x y).1

/-- A value rounded once, RNE, to FP32, flags dropped (R130, R139). -/
def rne32 (v : FVal) : Nat := (f32.deliver .rne false false v).1
/-- A value rounded once, RNE, to FP64, flags dropped. -/
def rne64 (v : FVal) : Nat := (f64.deliver .rne false false v).1

/-- floor(log2 |x|) of a non-zero finite value. -/
def floorLog2 (m : Nat) (e : Int) : Int := (bitlen m : Int) - 1 + e

/-- The block sum of sl.mac (R138): each product truncated below 30 bits under the largest, the
integers summed, rounded once to FP32. -/
def blockSum (ps : List FVal) : Nat :=
  let pos := ps.any fun t => match t with | .inf n => !n | _ => false
  let negi := ps.any fun t => match t with | .inf n => n | _ => false
  if ps.any FVal.isNan || (pos && negi) then f32.nanBits
  else if pos then f32.infBits false
  else if negi then f32.infBits true
  else
    let mags := ps.filterMap fun t =>
      match t with | .fin _ m e => if m = 0 then none else some (floorLog2 m e) | _ => none
    match mags with
    | [] => 0
    | a :: rest =>
      let E := rest.foldl max a
      let t : Int := ps.foldl (fun s p =>
        match p with
        | .fin n m e => s + (let q : Int := shiftInt m (e - (E - 30)); if n then -q else q)
        | _ => s) 0
      rne32 (ofInt t (E - 30) false)

end Sys2Proof.Num
end

