-- ==== Sys2Proof/Machine/Memory.lean ====
section
/-! DEFINITION. Physical memory: the keys of its bytes, bursts and their metadata, the memory-side
slices with their Mortar queues, the acceptance of writes, and what drains when. -/

namespace Sys2Proof.Machine

/-! ## Keys (R334)

Device DRAM has the keys of its interleaved addresses, 0..2^39−1; a byte of CXL expander `e` has
2^44 + e * 2^40 + offset; a byte of host memory 2^56 + its host physical address. -/

/-- Interleaved address of channel `c`, channel offset `o` (R334). -/
def interleave (c o : Nat) : Nat :=
  let hi := o / 256 % 2 ^ 22
  let x := hi * 2 ^ 17 + o % 256
  let chan := Nat.xor c (x / 2 ^ 30 % 512)
  hi * 2 ^ 17 + chan % 512 * 256 + o % 256

/-- Channel and channel offset of an interleaved address (R334). -/
def channelOf (x : Nat) : Nat × Nat :=
  (Nat.xor (x / 256 % 512) (x / 2 ^ 30 % 512), x / 2 ^ 17 % 2 ^ 22 * 256 + x % 256)

/-- The channel and offset at which a byte stood before retirements moved it to the given place. -/
def movedFrom (cs : SMap Channel) : Nat → Nat → Nat → Nat × Nat
  | 0, c, o => (c, o)
  | fuel + 1, c, o =>
    match cs.find? fun x => x.2.moved.any fun m => m.chan == c && m.base ≤ o && o < m.base + m.size with
    | some (r, x) =>
      let m := x.moved.getD {}
      movedFrom cs fuel r (o - m.base + m.start)
    | none => (c, o)

/-- The key a device byte is kept under. A byte that firmware moved off a retired channel keeps its
key, so that its interleaved address and its new frame name one location (R327, R334). -/
def State.deviceKey (s : State) (x : Nat) : Nat :=
  if s.channels.any fun c => c.2.moved.isSome then
    let co := channelOf x
    let a := movedFrom s.channels s.channels.length co.1 co.2
    interleave a.1 a.2
  else x % 2 ^ 39

/-- Key of a physical address under its KIND (R334). -/
def State.keyOf (s : State) (kind pa : Nat) : Nat :=
  match kind with
  | 0 => s.deviceKey (pa % 2 ^ 39)
  | 1 => s.deviceKey (interleave (pa / 2 ^ 30 % 512) (pa % 2 ^ 30))
  | 2 => 2 ^ 44 + pa % 2 ^ 43
  | _ => 2 ^ 56 + pa % 2 ^ 52

/-- Key of a host physical address. -/
def hostKey (a : Nat) : Nat := 2 ^ 56 + a % 2 ^ 52
/-- Whether a key is device DRAM. -/
def isDram (key : Nat) : Bool := key < 2 ^ 39
/-- The expander of a CXL key. -/
def expanderOf (key : Nat) : Option Nat :=
  if 2 ^ 44 ≤ key && key < 2 ^ 44 + 2 ^ 43 then some ((key - 2 ^ 44) / 2 ^ 40) else none
/-- The host address of a host key. -/
def hostOf (key : Nat) : Option Nat := if 2 ^ 56 ≤ key then some (key - 2 ^ 56) else none

/-! ## Bytes -/

/-- One byte of memory; one that nothing has written reads 0 (log 3). -/
def readByte (m : List Host.Cell) (a : Nat) : Byte := SMap.val m 0 a
/-- Write one byte. -/
def writeByte (m : List Host.Cell) (a : Nat) (b : Byte) : List Host.Cell := SMap.set 0 m a b
/-- `n` bytes from an address upward. -/
def readBytes (m : List Host.Cell) (a n : Nat) : List Byte :=
  (List.range n).map fun i => readByte m (a + i)
/-- Write bytes from an address upward. -/
def writeBytes (m : List Host.Cell) (a : Nat) : List Byte → List Host.Cell
  | [] => m
  | b :: bs => writeBytes (writeByte m a b) (a + 1) bs
/-- The canonical form of memory. -/
def Memory.wf (m : List Host.Cell) : Bool := SMap.wf (0 : Byte) m

/-! ## Metadata (R389) -/

/-- Metadata of a burst by its key divided by 64. -/
def State.burst (s : State) (b : Nat) : BitVec 32 := SMap.val s.metadata 0 b
/-- Set MTAG of the bursts a write touches. -/
def State.tag (s : State) (key n asid : Nat) : State :=
  if isDram key then
    (pieces 64 (n / 64 + 2) key n).foldl (fun s p =>
      let md := s.burst (p.1 / 64)
      let new : BitVec 32 := BitVec.ofNat 16 asid ++ md.extractLsb' 0 16
      { s with metadata := SMap.set 0 s.metadata (p.1 / 64) new }) s
  else s
/-- Set POISON and SEV of a burst. -/
def State.poisonBurst (s : State) (b sev : Nat) : State :=
  let md := s.burst b
  let new : BitVec 32 :=
    md.extractLsb' 16 16 ++ (1 : BitVec 1) ++ BitVec.ofNat 2 sev ++ (0 : BitVec 13)
  { s with metadata := SMap.set 0 s.metadata b new }
/-- Clear POISON and SEV of a burst. -/
def State.cleanBurst (s : State) (b : Nat) : State :=
  let md := s.burst b
  let new : BitVec 32 := md.extractLsb' 16 16 ++ (0 : BitVec 16)
  { s with metadata := SMap.set 0 s.metadata b new }
/-- Note the bytes of a poisoned burst that one group of writes has replaced, and clear the
poison when it has replaced all 64 (R389). A write of group 0 stands alone. -/
def State.cover (s : State) (group key n : Nat) : State :=
  if isDram key then
    (pieces 64 (n / 64 + 2) key n).foldl (fun s p =>
      let b := p.1 / 64
      if (s.burst b).getLsbD 15 then
        let mine (c : Cover) : Bool := group != 0 && c.group == group && c.burst == b
        let old : BitVec 64 := ((s.covers.find? mine).map (·.bits)).getD 0
        let new := old ||| (BitVec.ofNat 64 (2 ^ p.2 - 1) <<< (p.1 % 64))
        let rest := s.covers.filter fun c => !mine c
        if new = BitVec.allOnes 64 then { s.cleanBurst b with covers := rest }
        else if group = 0 then s
        else { s with covers := ⟨group, b, new⟩ :: rest }
      else s) s
  else s
/-- Bytes written poisoned are no bytes that any group has replaced (R389). -/
def State.uncover (s : State) (key n : Nat) : State :=
  let cut (c : Cover) : Cover :=
    { c with bits := (List.range 64).foldl (fun b i =>
        if key ≤ 64 * c.burst + i && 64 * c.burst + i < key + n then b &&& ~~~(BitVec.twoPow 64 i) else b) c.bits }
  if s.covers.isEmpty then s else { s with covers := (s.covers.map cut).filter fun c => c.bits != 0 }
/-- ORIGIN code of the poison a read at a slice meets: POISON for a poisoned burst, REMOTE for a
lost expander or a failed port; 0 for none (R357, R383, R389). -/
def State.poisonAt (s : State) (key : Nat) : Nat :=
  if isDram key then (if (s.burst (key / 64)).getLsbD 15 then Cause.code .poison else 0)
  else match expanderOf key with
    | some e => if (SMap.val s.hearth.expanders {} e).state == 2 then Cause.code .remote else 0
    | none =>
      match hostOf key with
      | some a =>
        match Config.peerPort a with
        | some p =>
          if (SMap.val s.hearth.ports { state := 1 } p).state == 2 then Cause.code .remote else 0
        | none => 0
      | none => 0

/-! ## What a Mortar operation does to its word (R210, R211, R220) -/

/-- Size of a slot type's word (R210). -/
def slotSize (ty : Nat) : Nat := match ty with | 2 | 3 | 5 => 8 | _ => 4

/-- FN(w, x) on the bits of a word (R210). -/
def mortarFn (ty fn w x : Nat) : Nat :=
  let n := 8 * slotSize ty
  let fm := if ty = 5 then Num.f64 else Num.f32
  let fp := ty = 4 || ty = 5
  let asInt (v : Nat) : Int := if ty = 0 || ty = 2 then (BitVec.ofNat n v).toInt else (v : Int)
  match fn with
  | 0 =>
    if fp then (fm.add .rne false (fm.value w) (fm.value x)).1
    else if ty = 6 then Num.rne32 (Num.sumExact [Num.f32.value w, Num.f32.value x])
    else (w + x) % 2 ^ n
  | 1 | 2 =>
    if fp then (fm.finish .rne false (Num.minMax (fn == 1) false (fm.value w) (fm.value x))).1
    else if fn = 1 then (if asInt w < asInt x then x else w)
    else (if asInt x < asInt w then x else w)
  | 3 => Nat.land w x
  | 4 => Nat.lor w x
  | _ => Nat.xor w x

/-- The exact sum of an x32 entry's operands, rounded once (R220). -/
def MortarOp.exact (m : MortarOp) (first : List Nat) : Nat :=
  Num.rne32 (Num.sumExact ((first ++ (m.value :: m.more).map (·.toNat)).map Num.f32.value))

/-- The word after an entry is applied (R210, R220). -/
def MortarOp.apply (m : MortarOp) (w : Nat) : Nat :=
  match m.kind with
  | 1 => if m.ty = 6 && !m.more.isEmpty then m.exact [] else m.value.toNat % 2 ^ (8 * m.size)
  | 2 => if m.ty = 6 then m.exact [w] else mortarFn m.ty m.fn w (m.value.toNat % 2 ^ (8 * m.size))
  | _ => w

/-- An x32 COMBINE entry, or an x32 STORE entry that has composed with one, keeps its operand exactly
(R220). -/
def MortarOp.gathers (m : MortarOp) : Bool := m.ty == 6 && (m.kind == 2 || !m.more.isEmpty)

/-- What FORWARD answers with (R216). -/
def MortarOp.forward (m : MortarOp) : Nat := m.apply 0

/-- Whether an entry's operand is its function's identity (R210), for CANCEL. -/
def MortarOp.isIdentity (m : MortarOp) : Bool :=
  let n := 8 * m.size
  let v := m.value.toNat % 2 ^ n
  if m.ty = 6 then
    (Num.sumExact ((m.value :: m.more).map fun x => Num.f32.value x.toNat)).isZero
  else match m.fn with
    | 0 | 4 | 5 => v == 0
    | 3 => v == 2 ^ n - 1
    | 1 => if m.ty = 0 || m.ty = 2 then v == 2 ^ (n - 1) else v == 0
    | _ => if m.ty = 0 || m.ty = 2 then v == 2 ^ (n - 1) - 1 else v == 2 ^ n - 1

/-- KIND, TYPE, FN and INEXACT_OK of a slot of a table (R53). -/
def slotOf (table : List Byte) (i : Nat) : Nat × Nat × Nat × Bool :=
  let b (k : Nat) : Nat := bytesAt table (16 + 8 * i + k) 1
  (b 0, b 1, b 2, b 3 % 2 == 1)

/-- REL and RESULT of a pair, earlier slot first (R53). -/
def relOf (table : List Byte) (a b : Nat) : Nat × Nat :=
  let v := bytesAt table (144 + 16 * a + b) 1
  (v % 8, v / 8 % 16)

/-- The two operations address one word. -/
def MortarOp.sameWord (e b : MortarOp) : Bool := e.key == b.key && e.size == b.size

/-- Bytes of two ranges meet. -/
def meets (a n b m : Nat) : Bool := decide (0 < n) && decide (0 < m) && decide (a < b + m) && decide (b < a + n)

/-- The relation between a pending entry and an arriving operation, with the RESULT slot: the
matrix byte of their table, ORDER where R214, R222 or R223 say so. -/
def State.relation (s : State) (e b : MortarOp) : Nat × Nat :=
  if e.version = 0 || b.version = 0 || e.version ≠ b.version || e.table ≠ b.table ||
      e.asid ≠ b.asid || !e.sameWord b then (0, 0)
  else
    let r := relOf (SMap.val (s.space b.asid).tables [] b.version) e.slot b.slot
    let floating (m : MortarOp) : Bool := m.kind == 2 && (m.ty == 4 || m.ty == 5)
    if (e.det || b.det) && floating e && floating b && (r.1 == 1 || r.1 == 2 || r.1 == 4) then (0, 0)
    else r

/-- An entry composed with a later COMBINE under a result slot (R211, R220). -/
def State.compose (s : State) (e b : MortarOp) (slot : Nat) : MortarOp :=
  let d := slotOf (SMap.val (s.space b.asid).tables [] b.version) slot
  let r := { e with slot := slot, kind := d.1, fn := d.2.2.1, inexact := d.2.2.2, det := e.det || b.det }
  if e.ty = 6 then { r with more := e.more ++ b.value :: b.more }
  else
    let n := 2 ^ (8 * e.size)
    { r with value := BitVec.ofNat 64 (mortarFn e.ty b.fn (e.value.toNat % n) (b.value.toNat % n)) }

/-- How a reduction ends (R215). -/
inductive Reduced
  /-- It must be placed. -/
  | place
  /-- It composed, or cancelled. -/
  | merged
  /-- FORWARD answers it with this word. -/
  | answered (v : Nat)

/-- COMPOSE, CANCEL and FORWARD on the entry at an index (R215). -/
def State.actOn (s : State) (q : List MortarOp) (i : Nat) (e b : MortarOp) (rel slot : Nat) :
    List MortarOp × Reduced :=
  match rel with
  | 2 => (q.set i (s.compose e b slot), .merged)
  | 4 =>
    let c := s.compose e b slot
    (if c.isIdentity then q.eraseIdx i else q.set i c, .merged)
  | _ => (q, .answered e.forward)

/-- The scan past entries that COMMUTE, youngest first (R215). -/
def State.scanOlder (s : State) (b : MortarOp) :
    List (Nat × MortarOp) → List MortarOp → List MortarOp × Reduced
  | [], q => (q, .place)
  | (i, f) :: older, q =>
    let r := s.relation f b
    match r.1 with
    | 1 => s.scanOlder b older q
    | 3 => s.scanOlder b older (q.eraseIdx i)
    | 0 => (q, .place)
    | rel => s.actOn q i f b rel r.2

/-- The entries whose bytes meet an operation's, youngest first, with their indices. -/
def entriesOf (q : List MortarOp) (b : MortarOp) : List (Nat × MortarOp) :=
  ((List.range q.length).zip q).reverse.filter fun p => meets p.2.key p.2.size b.key b.size

/-- The reduction of R215. The first argument bounds how often ABSORB begins it again. -/
def State.reduce (s : State) : Nat → List MortarOp → MortarOp → List MortarOp × Reduced
  | 0, q, _ => (q, .place)
  | fuel + 1, q, b =>
    match entriesOf q b with
    | [] => (q, .place)
    | (i, e) :: older =>
      let r := s.relation e b
      match r.1 with
      | 0 => (q, .place)
      | 1 => s.scanOlder b (older.take 7) q
      | 3 => s.reduce fuel (q.eraseIdx i) b
      | rel => s.actOn q i e b rel r.2

/-! ## What drains (R186, R91) -/

/-- Return a parent lane: out of the PARK entry that holds it, into EXM; the entry pops when its mask
empties (R26, R91). While the call still pushes its tasks, a handler may have entries above it. -/
def Team.returnLane (t : Team) (lane : Nat) : Team :=
  let holds (e : StackEntry) : Bool := decide (e.kind = .park) && e.mask.getLsbD lane
  match t.stack.find? holds with
  | some e =>
    let m := e.mask &&& ~~~ laneBit lane
    let t' := t.setExm (t.exm ||| laneBit lane)
    if m = 0 && t.parkWait then { t' with stack := t.stack.eraseP holds, pc := e.pc, parkWait := false }
    else { t' with stack := t.stack.map fun x => if holds x then { x with mask := m } else x }
  | none => t

/-- DRAIN.DONE covers a unit: it and every earlier one have drained (R186). -/
def Team.covered (t : Team) (unit : Nat) : Bool := t.undrained.all fun u => decide (unit < u.1)

/-- Something of a copy is still to be performed; in a deterministic launch, of a put or of a copy command
something is still to be staged. A command is staged as it issues (R291). -/
def State.copyOwed (s : State) (c : Copy) : Bool :=
  if (c.kind == 2 || c.kind == 3) && s.detOf (s.team c.team) then c.kind == 2 && !c.issuedAll else true

/-- What a team has issued without a unit, before the object of a number, is still to be performed: the store
half of a team-scope atomic, a fault record, a staged push (R195, R291, R374). -/
def State.looseWrites (s : State) (team before : Nat) : Bool :=
  let loose (w : PendWrite) : Bool := w.team == team && w.path < 2 && w.unit == 0 && decide (w.group < before)
  s.writes.any loose || (s.team team).staged.any fun e => match e with
    | .write w => loose w
    | .push _ _ n _ => decide (n < before)
    | _ => false

/-- The drain wait of ctl.retq over what a team has issued, up to a unit and before the object of a number. In a
deterministic launch what is staged counts as drained, what stands in the side log does not, nor does a put
whose bytes are still to be staged (R91, R291). -/
def State.drainedTo (s : State) (team unit before : Nat) : Bool :=
  let t := s.team team
  if s.detOf t then
    !(s.cores.any fun c => c.2.log.any fun e => e.team == team && decide (e.unit ≤ unit)) &&
      !(s.copies.any fun c => c.2.team == team && (c.2.unit.any fun u => decide (u ≤ unit)) && s.copyOwed c.2)
  else t.covered unit && !s.looseWrites team before

/-- All that a team had issued, up to a unit and before the object of a number, has been performed, and so has all
that the callees had issued that had returned to it by then; the fuel bounds how deep calls go (R242, R259). -/
def State.performed (s : State) : Nat → Nat → Nat → Nat → Bool
  | 0, team, unit, before => (s.team team).covered unit && !s.looseWrites team before
  | fuel + 1, team, unit, before =>
    (s.team team).covered unit && !s.looseWrites team before &&
      (s.team team).owed.all fun o => decide (before < o.since) || s.performed fuel o.team o.unit o.before

/-- A parent lane returns. What its callee has issued and what has only been staged of it so far, the parent's
counts wait for from now on (R91, R242, R291). -/
def State.laneBack (s : State) (r : Return) : State :=
  let o : Owed := ⟨s.serial, r.team, r.unit, r.before⟩
  let open_ (o : Owed) : Bool := !s.performed s.teams.length o.team o.unit o.before
  s.withTeam r.parent fun p =>
    let p1 := p.returnLane r.lane
    let left := p1.owed.filter open_
    { p1 with owed := if open_ o && !left.contains o then left ++ [o] else left }

/-- Carry out the returns of a team whose units have drained (R92). -/
def State.flushReturns (s : State) (team : Nat) : State :=
  let ready (r : Return) : Bool := r.team == team && s.drainedTo team r.unit r.before
  let s' := { s with returns := s.returns.filter fun r => !ready r }
  (s.returns.filter ready).foldl State.laneBack s'

/-- A lane of a parent returns once all that its callee has issued has drained (R92). -/
def State.returnsTo (s : State) (team parent lane : Nat) : State :=
  ({ s with returns := s.returns ++ [⟨team, (s.team team).issued, s.serial, parent, lane⟩] } : State).flushReturns team

/-- One operation of a write unit is accepted; a unit with none left drains (R186). -/
def State.ackUnit (s : State) (team unit : Nat) : State :=
  (s.withTeam team fun t =>
    let us := t.undrained.map fun u => if u.1 = unit then (u.1, u.2 - 1) else u
    { t with undrained := us.filter fun u => decide (0 < u.2) }).flushReturns team

/-- A Mortar operation in flight has been accepted or answered: its counter gains one when none
is left (R225). -/
def State.ackOp (s : State) (team op : Nat) : State :=
  s.withTeam team fun t =>
    match t.ops.find? (·.ident == op) with
    | none => t
    | some o =>
      if o.mortar ≤ 1 && o.parts.isEmpty then
        let t' := { t with ops := t.ops.filter fun o => o.ident != op }
        match o.counter with
        | some c => t'.bumpA c
        | none => t'
      else { t with ops := t.ops.map fun o => if o.ident = op then { o with mortar := o.mortar - 1 } else o }

/-- Land the answer of a Mortar LOAD, poisoned with the given ORIGIN code (R216, R225). -/
def State.answer (s : State) (m : MortarOp) (v poison : Nat) : State :=
  let bits := BitVec.ofNat 64 (if poison = 0 then v else 0)
  let s' := match m.dst with
    | some (.v l n) =>
      s.withTeam m.team fun t =>
        if t.place = Place.ended then t
        else
          let t1 := t.land ⟨.v l n, bits.extractLsb' 0 32 |>.setWidth 64, poison⟩
          if m.size = 8 then t1.land ⟨.v l (n + 1), bits.extractLsb' 32 32 |>.setWidth 64, poison⟩ else t1
    | _ => s
  s'.ackOp m.team m.op

/-! ## The device fault log (R366) -/

/-- Append a record; the oldest is overwritten when 4,096 are held. -/
def State.logFault (s : State) (r : Rec) : State :=
  s.withHearth fun h =>
    let l := h.flog ++ [⟨h.flogNext, r⟩]
    { h with flog := l.drop (l.length - 4096), flogNext := (h.flogNext + 1) % 2 ^ 64 }
/-- Append records in order. -/
def State.logFaults (s : State) (rs : List Rec) : State := rs.foldl State.logFault s

/-- A record that arises apart from an instruction waits for the team's next header; for a team
that has ended it goes to the device fault log (R354, R366). -/
def State.headerRec (s : State) (i : Nat) (r : Rec) : State :=
  let t := s.team i
  let r' := { r with teamix := t.teamix, ctx := t.ctx, hdr := true }
  if t.place = .ended then s.logFault r' else s.withTeam i fun t => { t with headerRecs := t.headerRecs ++ [r'] }

/-! ## Slices -/

/-- Apply an entry to the committed value (R215). A LOAD completes (MORTAR_LOAD_COMPLETE). -/
def State.applyEntry (s : State) (m : MortarOp) : State :=
  let w := leNat (readBytes s.mem m.key m.size)
  if m.kind = 0 then s.answer m w (s.poisonAt m.key)
  else ({ s with mem := writeBytes s.mem m.key (leBytes m.size (m.apply w)) }).tag m.key m.size m.asid

/-- Apply every entry pending on a word that overlaps a range, oldest first (R223, R309). Words
are at most 8 bytes and aligned, so the range is widened to 8-byte bounds to keep their order. -/
def State.drainOver (s : State) (key n : Nat) : State :=
  let lo := key / 8 * 8
  let hi := (key + n + 7) / 8 * 8
  let hit (m : MortarOp) : Bool := meets m.key m.size lo (hi - lo)
  if s.mortar.any hit then
    (s.mortar.filter hit).foldl State.applyEntry { s with mortar := s.mortar.filter fun m => !hit m }
  else s

/-- A plain read at a slice: bytes and the ORIGIN code of their poison (R223, R357). -/
def readSlice (key n : Nat) : Act (List Byte × Nat) := do
  modify fun s => s.drainOver key n
  let s ← get
  return (readBytes s.mem key n, s.poisonAt key)

/-- Bytes of device or host memory as a plain read at the slice finds them. -/
def readPhys (key n : Nat) : Act (List Byte) := do return (← readSlice key n).1

/-- Write bytes at a slice: pending Mortar entries on them come first (R223), MTAG follows the
writer. The write leaves POISON as it stands, as an atomic does (R389). -/
def State.storeKept (s : State) (key : Nat) (bs : List Byte) (asid : Nat) : State :=
  let s1 := s.drainOver key bs.length
  ({ s1 with mem := writeBytes s1.mem key bs }).tag key bs.length asid

/-- Write bytes at a slice; a group that covers a burst clears its POISON (R389). -/
def State.store (s : State) (key : Nat) (bs : List Byte) (asid group : Nat) : State :=
  (s.storeKept key bs asid).cover group key bs.length

/-- Write bytes at a slice that are poisoned themselves: they leave their burst poisoned (R389). -/
def State.storePoisoned (s : State) (key : Nat) (bs : List Byte) (asid : Nat) : State :=
  ((s.storeKept key bs asid).uncover key bs.length).poisonBurst (key / 64) 3

/-- Bring the issuer's load cache in step with a store it made (R184, R235). -/
def State.refresh (s : State) (core key : Nat) (bs : List Byte) : State :=
  let hits := (s.core core).cache.any fun l => meets l.key 64 key bs.length
  if hits then
    s.withCore core fun c =>
      { c with cache := c.cache.map fun l =>
          if l.key ≤ key && key < l.key + 64 then { l with bytes := overlay l.bytes (key - l.key) bs }
          else l }
  else s

/-- Accept the bytes of a pending write (R186). A write to a lost expander is discarded: its
unit drains and the team receives REMOTE at a header (R357). -/
def State.acceptWrite (s : State) (w : PendWrite) : State :=
  let lost := match expanderOf w.key with
    | some e => (SMap.val s.hearth.expanders {} e).state == 2
    | none => false
  if lost then
    (s.headerRec w.team
      { cause := .remote, ea := w.va, index := 0xD, lane := w.lane, size := w.bytes.length, store := true }).ackUnit w.team w.unit
  else
    let s1 := if w.poisoned then s.storePoisoned w.key w.bytes w.asid else s.store w.key w.bytes w.asid w.group
    let s2 := if w.path < 2 then s1.refresh (s1.team w.team).core w.key w.bytes else s1
    s2.ackUnit w.team w.unit

/-- No load of a team that touches a range has still to land: a later read of one path goes
behind an earlier one (R234, R235). -/
def State.rangeLanded (s : State) (team key n : Nat) : Bool :=
  (s.team team).ops.all fun o => o.parts.all fun p => !meets p.key p.size key n

/-- The slice whose queue serves a key: words of one 64-byte burst share it (R3, R210; log 13). -/
def sliceAt (key : Nat) : Nat := Config.sliceOf (key / 64) % 256

/-- Entries a Mortar queue holds, counted by slice only when some queue could be full (R217). -/
def State.queueFull (s : State) (key : Nat) : Bool :=
  512 ≤ s.mortar.length &&
    512 ≤ (s.mortar.filter fun m => sliceAt m.key == sliceAt key).length

/-- LOADs complete, each once no earlier entry meets its bytes (MORTAR_LOAD_COMPLETE, R215, R223). -/
def State.completeLoads (s : State) : Nat → State
  | 0 => s
  | fuel + 1 =>
    let q := s.mortar
    let ready (p : Nat × MortarOp) : Bool :=
      p.2.kind == 0 && !((q.take p.1).any fun e => meets e.key e.size p.2.key p.2.size)
    match ((List.range q.length).zip q).find? ready with
    | some (i, m) => (State.applyEntry { s with mortar := q.eraseIdx i } m).completeLoads fuel
    | none => s

/-- A drain of the entry at an index, with the LOADs that then stand first (R215). -/
def State.drainEntry (s : State) (i : Nat) (m : MortarOp) : State :=
  (State.applyEntry { s with mortar := s.mortar.eraseIdx i } m).completeLoads s.mortar.length

/-- Drain the oldest entry of a full queue (R217). -/
def State.makeRoom (s : State) (key : Nat) : State :=
  if s.queueFull key then
    match s.mortar.find? fun m => sliceAt m.key == sliceAt key with
    | some e => s.drainEntry (s.mortar.findIdx fun m => sliceAt m.key == sliceAt key) e
    | none => s
  else s

/-- An operation reaches its queue and is accepted: reduced, then placed if it must be, its write
unit and counter told (R215, R217, R225). A LOAD that finds nothing pending, or nothing once room was made, is
answered at once (R216). -/
def State.arrive (s : State) (b : MortarOp) : State :=
  let r := s.reduce (s.mortar.length + 1) s.mortar b
  let s1 := { s with mortar := r.1 }
  match r.2 with
  | .answered v => (s1.answer b v 0).ackUnit b.team b.unit
  | .merged => (s1.ackOp b.team b.op).ackUnit b.team b.unit
  | .place =>
    let first (s : State) : Bool := b.kind == 0 && (entriesOf s.mortar b).isEmpty
    let s2 := if first s1 then s1 else s1.makeRoom b.key
    if first s2 then
      (s2.answer b (leNat (readBytes s2.mem b.key b.size)) (s2.poisonAt b.key)).ackUnit b.team b.unit
    else
      let s3 := { s2 with mortar := s2.mortar ++ [b] }
      (if b.kind = 0 then s3 else s3.ackOp b.team b.op).ackUnit b.team b.unit

end Sys2Proof.Machine
end

