-- ==== Sys2Proof/Machine/Access.lean ====
section
/-! DEFINITION. Translation under leases (R331 to R346): the walk, cached translations, page
requests, and the reads and writes a team makes through them. -/

namespace Sys2Proof.Machine

/-- What an access needs of a page: R, W, X, and the use that R336 may refuse: 4 Sill, 5 device
atomic, 6 Mortar, 0 another. -/
structure Need where
  r : Bool := false
  w : Bool := false
  x : Bool := false
  use : Nat := 0
  deriving DecidableEq, Repr

/-- How a translation ends. -/
inductive Xlate
  /-- The physical key of the address, and the page's KIND. -/
  | ok (key kind : Nat)
  /-- A walk fault, which posts a page request (R345). -/
  | fault (c : Cause) (detail : Nat)
  /-- PROTECT details 4 to 6 (R336). -/
  | refuse (detail : Nat)
  /-- Outside the canonical space (R331). -/
  | bad
  deriving DecidableEq, Repr

/-- Bits 63:57 all equal bit 56 (R331). -/
def canonical (va : Word) : Bool :=
  let top := va.toNat / 2 ^ 56
  top == 0 || top == 255

/-- A bit of a number. -/
def bitOf (n i : Nat) : Bool := n / 2 ^ i % 2 == 1
/-- Bits hi..lo of a number. -/
def bitsOf (n hi lo : Nat) : Nat := n / 2 ^ lo % 2 ^ (hi - lo + 1)

/-- A page-table entry that is valid and malformed (R334). -/
def entryMalformed (level lo hi : Nat) : Bool :=
  bitsOf lo 63 52 != 0 || bitsOf lo 11 9 != 0 || bitsOf hi 63 48 != 0 ||
    (if bitOf lo 1 then
      level < 3 || (4096 ≤ bitsOf hi 47 32 && bitsOf hi 47 32 != 0xFFFF) ||
        (level == 3 && bitsOf lo 29 12 != 0) || (level == 4 && bitsOf lo 20 12 != 0) ||
        (level < 5 && bitOf lo 5)
    else bitsOf lo 8 2 != 0 || hi != 0 || bitOf lo 12 || level == 5)

/-- Members of a 64 KiB group agree as R335 asks: low and high halves of the 16 entries. -/
def groupGood (es : List (Nat × Nat)) : Bool :=
  let strip (lo : Nat) : Nat := lo - bitsOf lo 15 12 * 2 ^ 12
  match es with
  | [] => false
  | (lo0, hi0) :: _ =>
    (List.range es.length).zip es |>.all fun p =>
      bitOf p.2.1 0 && bitOf p.2.1 1 && bitOf p.2.1 5 && !entryMalformed 5 p.2.1 p.2.2 &&
        bitsOf p.2.1 15 12 == p.1 && strip p.2.1 == strip lo0 && p.2.2 == hi0

/-- Read an entry of a table at device scope (R336). -/
def readEntry (addr : Nat) : Act (Nat × Nat) := do
  let s ← get
  let bs ← readPhys (s.deviceKey (addr % 2 ^ 39)) 16
  return (bytesAt bs 0 8, bytesAt bs 8 8)

/-- What a walk finds before leases and permissions: the level, the leaf's halves and its
address, or a fault. -/
def walkTo (va : Nat) : List Nat → Nat → Act (Except (Cause × Nat) (Nat × Nat × Nat × Nat))
  | [], _ => return .error (.nomap, 4)
  | level :: rest, table => do
    let at_ := table + 16 * (va / 2 ^ (57 - 9 * level) % 512)
    let (lo, hi) ← readEntry at_
    if !bitOf lo 0 then return .error (.nomap, 2)
    else if entryMalformed level lo hi then return .error (.nomap, 4)
    else if bitOf lo 1 then return .ok (level, lo, hi, at_)
    else walkTo va rest (bitsOf lo 51 12 * 4096)

/-- The first permission an access lacks (R336). -/
def Tlb.lacks (t : Tlb) (n : Need) : Option Nat :=
  if n.r && !t.r then some 1 else if n.w && !t.w then some 2 else if n.x && !t.x then some 3 else none

/-- The refusals of R336 by KIND. -/
def refused (kind use : Nat) : Option Nat :=
  match use with
  | 4 => if kind = 1 then none else some 4
  | 5 => if kind < 2 then none else some 5
  | 6 => if kind < 2 then none else some 6
  | _ => none

/-- A KIND 2 page names an expander that is trained; KIND 0 and 1 lie in device DRAM (R334). -/
def State.frameValid (s : State) (kind pa : Nat) : Bool :=
  match kind with
  | 0 | 1 => pa < 2 ^ 39
  | 2 => pa < 2 ^ 43 && (SMap.val s.hearth.expanders {} (pa / 2 ^ 40)).state != 0
  | _ => true

/-- The walk of R336, in its order of tests: the leaf as a translation, or a fault. A Mortar
operation to a page outside device HBM is refused ahead of every other translation fault
(R226). -/
def walk (asid va u g : Nat) (need : Need) : Act (Except (Cause × Nat) Tlb) := do
  let s ← get
  match ← walkTo va [1, 2, 3, 4, 5] (s.space asid).root with
  | .error e => return .error e
  | .ok (level, lo, hi, at_) =>
    if need.use = 6 && 2 ≤ bitsOf lo 7 6 then return .error (.protect, 6)
    if bitOf lo 8 then return .error (.absent, 1)
    let group := bitOf lo 5
    let good ←
      if group then do
        let es ← (List.range 16).mapM fun i => readEntry (at_ / 256 * 256 + 16 * i)
        pure (groupGood es)
      else pure true
    if !good then return .error (.nomap, 3)
    let kind := bitsOf lo 7 6
    let pa := bitsOf lo 51 12 * 4096
    if !s.frameValid kind pa then return .error (.nomap, 5)
    let tlid := bitsOf hi 47 32
    let lend := bitsOf hi 31 0
    if tlid != u && tlid != 0xFFFF then return .error (.lease, 2)
    if lend < g then return .error (.lease, 1)
    let size := if level = 3 then 2 ^ 30 else if level = 4 then 2 ^ 21 else if group then 65536 else 4096
    let t : Tlb :=
      { asid := asid, va := va / size * size, size := size, frame := pa / size * size, kind := kind,
        r := bitOf lo 2, w := bitOf lo 3, x := bitOf lo 4, tlid := tlid, lend := lend }
    match t.lacks need with
    | some d => return .error (.protect, d)
    | none => return .ok t

/-- Whether a cached translation may serve an access (R339). -/
def Tlb.usable (t : Tlb) (asid va u g : Nat) (need : Need) : Bool :=
  t.asid == asid && t.va ≤ va && va < t.va + t.size && g ≤ t.lend &&
    (t.tlid == u || t.tlid == 0xFFFF) && (t.lacks need).isNone

/-- Where a translation sends an address, after the refusals of R336. -/
def State.through (s : State) (t : Tlb) (va : Nat) (need : Need) : Xlate :=
  match refused t.kind need.use with
  | some d => .refuse d
  | none => .ok (s.keyOf t.kind (t.frame + (va - t.va))) t.kind

/-- Where an access looks for a cached translation, and keeps the one it walked for (R339, R340). -/
inductive Holder
  /-- Nowhere: the access walks. -/
  | none
  | core (core : Nat)
  /-- A lane's last-page register, before its core. -/
  | lane (team lane : Nat)
  /-- The front unit's page register for a team, before its core. -/
  | front (team : Nat)
  /-- The engine that carries a copy. -/
  | copy (ident : Nat)
  | sill (chan : Nat)
  deriving DecidableEq, Repr

/-- Change a copy. -/
def State.withCopy (s : State) (id : Nat) (f : Copy → Copy) : State := { s with copies := SMap.alter s.copies id f }

/-- The translations a holder has, in the order it looks them up (R340). -/
def State.cached (s : State) (h : Holder) : List Tlb :=
  match h with
  | .none => []
  | .core c => (s.core c).tlb
  | .lane i l => (SMap.find (s.team i).lanePages l).toList ++ (s.core (s.team i).core).tlb
  | .front i => (s.team i).frontPage.toList ++ (s.core (s.team i).core).tlb
  | .copy id => ((SMap.find s.copies id).map (·.tlb)).getD []
  | .sill c => (s.sill c).tlb

/-- A holder keeps the translation that served an access: a page register takes it in place of the one
it had, the others take in what was walked for (R339, R340). -/
def State.keep (s : State) (h : Holder) (t : Tlb) (walked : Bool) : State :=
  let inCore (s : State) (c : Nat) : State := if walked then s.withCore c fun k => { k with tlb := t :: k.tlb } else s
  match h with
  | .none => s
  | .core c => inCore s c
  | .lane i l => (inCore s (s.team i).core).withTeam i fun x => { x with lanePages := SMap.put x.lanePages l t }
  | .front i => (inCore s (s.team i).core).withTeam i fun x => { x with frontPage := some t }
  | .copy id => if walked then s.withCopy id fun c => { c with tlb := t :: c.tlb } else s
  | .sill c => if walked then s.withSill c fun u => { u with tlb := t :: u.tlb } else s

/-- The leaf that maps an address for an access of generation `g` on timeline `u`: a translation its
holder has and that may serve, else what a walk finds (R339). -/
def leafFor (h : Holder) (asid u g a : Nat) (need : Need) : Act (Except (Cause × Nat) Tlb) := do
  let s ← get
  match (s.cached h).find? fun (t : Tlb) => t.usable asid a u g need with
  | some t => do
    modify fun (s : State) => s.keep h t false
    return .ok t
  | none =>
    match ← walk asid a u g need with
    | .error e => return .error e
    | .ok t => do
      modify fun (s : State) => s.keep h t true
      return .ok t

/-- Translate an address (R331, R336, R339). -/
def translate (h : Holder) (asid u g : Nat) (va : Word) (need : Need) : Act Xlate := do
  if !canonical va then return .bad
  let a := va.toNat % 2 ^ 57
  match ← leafFor h asid u g a need with
  | .ok t => return (← get).through t a need
  | .error (c, d) => return if c = .protect && 3 < d then .refuse d else .fault c d

/-! ## Locations (R230) -/

/-- The location that an address names in the tables as they stand, leases and permissions apart. -/
def State.locOf (s : State) (asid va : Nat) : Option Nat :=
  let a := va % 2 ^ 57
  match ((walkTo a [1, 2, 3, 4, 5] (s.space asid).root).go s).1 with
  | .ok (.ok (level, lo, _, _)) =>
    let size := if level = 3 then 2 ^ 30 else if level = 4 then 2 ^ 21 else 4096
    some (s.keyOf (bitsOf lo 7 6) (bitsOf lo 51 12 * 4096 / size * size + a % size))
  | _ => none

/-- A range of addresses names a location of a range. -/
def State.touches (s : State) (asid va n key m : Nat) : Bool :=
  (pagePieces va n).any fun p => (s.locOf asid p.1).any fun k => meets k p.2 key m

/-! ## Page requests (R345) -/

/-- The 32 bytes of a request record; PAGE is a canonical address (R331). -/
def PageReq.bytes (r : PageReq) : List Byte :=
  leBytes 8 (if bitOf r.page 56 then r.page + 127 * 2 ^ 57 else r.page) ++ leBytes 1 r.cause.code ++ leBytes 1 r.detail ++ leBytes 1 r.access ++ zeros 1 ++
    leBytes 2 r.tlid ++ leBytes 2 r.asid ++ leBytes 4 r.gen ++ zeros 4 ++ leBytes 4 r.rid ++ zeros 4

/-- Post a request for a walk fault and give its number; the one outstanding for the page and
cause serves where there is one. None while the next slot of the ring still waits for its answer
(log 14). -/
def postRequest (asid u g : Nat) (va : Word) (c : Cause) (detail access : Nat) : Act (Option Nat) := do
  let s ← get
  let page := va.toNat % 2 ^ 57 / 4096 * 4096
  match s.hearth.requests.find? fun r => r.asid == asid && r.page == page && r.cause == c with
  | some r => return some r.rid
  | none =>
    let sp := s.space asid
    let slot := sp.prqTail % sp.prqn
    if s.hearth.requests.any fun r => r.asid == asid && r.slot == slot then return none
    let r : PageReq := ⟨s.hearth.nextRid, asid, page, c, detail, access, u, g, slot⟩
    let s1 := s.store (hostKey (sp.prqb + 32 * slot)) r.bytes 0 0
    let s2 := s1.store (hostKey sp.prqt) (leBytes 8 (sp.prqTail + 1)) 0 0
    let s3 := s2.withSpace asid fun sp => { sp with prqTail := sp.prqTail + 1 }
    set (s3.withHearth fun h => { h with requests := h.requests ++ [r], nextRid := (r.rid + 1) % 2 ^ 32 })
    return some r.rid

/-! ## Accesses of the team at issue -/

/-- How a lane's access to an address stands. -/
inductive Reached
  | key (k kind : Nat)
  /-- It traps with a cause and a detail. -/
  | trap (c : Cause) (detail : Nat)
  /-- It waits for page requests, or for the side log. -/
  | wait (rids : List Nat)
  /-- A walk fault of a store, which goes to the side log (R347). -/
  | log (c : Cause) (detail : Nat) (rid : Option Nat)
  deriving DecidableEq, Repr

/-- ACCESS of a request record (R345). -/
def accRead : Nat := 1
/-- A write. -/
def accWrite : Nat := 2
/-- An instruction fetch. -/
def accFetch : Nat := 4
/-- A Mortar access. -/
def accMortar : Nat := 8

/-- The team has a side-log entry for the page of an address (R347). -/
def State.inLog (s : State) (team : Nat) (va : Word) : Bool :=
  (s.core (s.team team).core).log.any fun e =>
    e.team == team && e.va.toNat % 2 ^ 57 / 4096 == va.toNat % 2 ^ 57 / 4096

/-- Reach an address for the team at issue, through the translations of a holder. `ordered` says the
access is on the lane, front or Mortar path, which the side log orders (R347); `logged` that a walk
fault is a store's. -/
def reach (h : Holder) (va : Word) (need : Need) (access : Nat) (ordered logged : Bool) : Act Reached := do
  let t ← tm
  let id ← me
  let s ← get
  if !canonical va then return .trap .nomap 1
  if ordered && s.inLog id va then
    if logged then
      match (s.core t.core).log.find? fun e =>
          e.team == id && e.va.toNat % 2 ^ 57 / 4096 == va.toNat % 2 ^ 57 / 4096 with
      | some e => return .log e.cause e.detail e.rid
      | none => return .wait []
    else return .wait []
  let page := va.toNat % 2 ^ 57 / 4096 * 4096
  match t.declared.find? (·.page == page) with
  | some d => return .trap d.cause d.detail
  | none =>
    match ← translate h t.asid t.timeline t.gen va need with
    | .ok k kind => return .key k kind
    | .bad => return .trap .nomap 1
    | .refuse d => return .trap .protect d
    | .fault c d =>
      let rid ← postRequest t.asid t.timeline t.gen va c d (access + if logged then 16 else 0)
      if logged then return .log c d rid
      else return .wait rid.toList

/-- The refusals of R336 come before the side log and before any fault of a walk (R226): its detail. -/
def refusedFirst (h : Holder) (va : Word) (need : Need) : Act (Option Nat) := do
  let t ← tm
  match ← translate h t.asid t.timeline t.gen va need with
  | .refuse d => return some d
  | _ => return none

/-- The keys of a range of addresses, page by page; a fault names the given lane, and as EA the first byte of the
range in the page that faults, the model's choice (R175; log 20). -/
def reachRange (need : Need) (access : Nat) (a : Word) (n lane : Nat) : Act (List (Nat × Nat)) := do
  let t ← tm
  (pagePieces a.toNat n).mapM fun p => do
    match ← reach (.core t.core) (BitVec.ofNat 64 p.1) need access false false with
    | .key k _ => return (k, p.2)
    | .trap c d => trap { t.record c d with ea := BitVec.ofNat 64 p.1, lane := lane, load := true }
    | .wait rids => blockAt { rids := rids, held := true }
    | .log _ _ _ => return (0, 0)

/-- Bytes at a key with those of a write laid over them. -/
def PendWrite.over (w : PendWrite) (key : Nat) (bs : List Byte) : List Byte :=
  if meets w.key w.bytes.length key bs.length then
    if key ≤ w.key then overlay bs (w.key - key) w.bytes else overlay bs 0 (w.bytes.drop (key - w.key))
  else bs

/-- Bytes at an 8-aligned key under an effect issued before an access (R291). -/
def Effect.over (e : Effect) (before key : Nat) (bs : List Byte) : List Byte :=
  match e with
  | .write w => if w.group < before then w.over key bs else bs
  | .mortar m =>
    if key ≤ m.key && m.key + m.size ≤ key + bs.length then
      overlay bs (m.key - key) (leBytes m.size (m.apply (bytesAt bs (m.key - key) m.size)))
    else bs
  | _ => bs

/-- The effects of a deterministic team that no slice has accepted, in their order: those the ticket unit
has released, then those staged (R291). -/
def State.ownEffects (s : State) (team : Nat) : List Effect :=
  ((s.writes.filter (·.team == team)).map Effect.write ++ (s.mortarIn.filter (·.team == team)).map Effect.mortar) ++
    (s.copies.filter fun c => c.2.team == team && c.2.kind == 3 && !c.2.held).map (fun c => Effect.copy c.1) ++
    (s.team team).staged

/-- Where a range of addresses stands: each page's key, the offset of its first byte in the range, its size. -/
def State.located (s : State) (asid va n : Nat) : List (Nat × Nat × Nat) :=
  (pagePieces va n).filterMap fun p => (s.locOf asid p.1).map fun k => (k, p.1 - va, p.2)

/-- What a copy command has still to move into `n` bytes at a key: the source address, the offset there, the
size (R205). -/
def State.movesInto (s : State) (c : Copy) (key n : Nat) : List (Word × Nat × Nat) :=
  c.runs.flatMap fun r =>
    ((s.located c.asid (c.dst + BitVec.ofNat 64 r.2.1).toNat r.2.2).filter fun p => meets p.1 p.2.2 key n).map fun p =>
      let lo := max p.1 key
      (r.1 + BitVec.ofNat 64 (p.2.1 + (lo - p.1)), lo - key, min (p.1 + p.2.2) (key + n) - lo)

/-- Bytes at an 8-aligned key under a team's effects that were issued before an access, the latest first. A copy
command lays what it moves over those before it, and counts in its completion word (R205, R238, R291). -/
def State.underEffects (s : State) (before : Nat) : List Effect → Nat → List Byte → List Byte
  | [], _, bs => bs
  | e :: earlier, key, bs =>
    let under := s.underEffects before earlier key bs
    match e with
    | .copy i =>
      match if i < before then SMap.find s.copies i else none with
      | some c =>
        if c.kind = 3 then
          let source (a : Word) (n : Nat) : List (Nat × List Byte) :=
            (s.located c.asid a.toNat n).map fun p =>
              let lo := p.1 / 8 * 8
              let m := (p.1 + p.2.2 + 7) / 8 * 8 - lo
              (p.2.1, ((s.underEffects before earlier lo (readBytes (s.drainOver lo m).mem lo m)).drop (p.1 - lo)).take p.2.2)
          let moved := (s.movesInto c key bs.length).foldl (fun bs p =>
            (source p.1 p.2.2).foldl (fun bs q => overlay bs (p.2.1 + q.1) q.2) bs) under
          match if c.done = 0 then none else s.locOf c.asid c.done.toNat with
          | some k =>
            if key ≤ k && k + 8 ≤ key + bs.length then
              overlay moved (k - key) (leBytes 8 (bytesAt moved (k - key) 8 + if c.failed then 2 ^ 63 + 1 else 1))
            else moved
          | none => moved
        else under
      | none => under
    | _ => e.over before key under

/-- What a team's own access finds at an 8-aligned key where a slice has the given bytes. In a
deterministic launch its earlier effects on every path are applied, as a fence is passed once they are
staged; elsewhere its pending stores on the lane and front paths are (R22, R30, R291; log 22). -/
def State.ownOver (s : State) (team before key : Nat) (bs : List Byte) : List Byte :=
  if s.detOf (s.team team) then s.underEffects before (s.ownEffects team).reverse key bs
  else (s.writes.filter fun w => w.team == team && w.path < 2 && w.group < before).foldl (fun bs w => w.over key bs) bs

/-- A team's read at a slice on the copy, gather, matrix or Mortar path: bytes and the ORIGIN code of their
poison (R223, R291, R357). -/
def ownRead (team before key n : Nat) : Act (List Byte × Nat) := do
  let lo := key / 8 * 8
  let (bs, p) ← readSlice lo ((key + n + 7) / 8 * 8 - lo)
  let s ← get
  let own := if s.detOf (s.team team) then s.ownOver team before lo bs else bs
  return ((own.drop (key - lo)).take n, p)

/-- Bytes of one piece of a structure that the team reads as a uniform operand: the team is held
while a request is outstanding, and faults once when it is declared (R346). In a deterministic launch its own
staged effects are found there (R291). Poison of what is read counts for nothing, the model's choice (R213, R357;
log 20). `ordered` as for `reach`. -/
def readPiece (need : Need) (access : Nat) (a : Word) (n : Nat) (ordered : Bool := false) :
    Act (List Byte × Nat × Nat) := do
  let t ← tm
  match ← reach (.core t.core) a need access ordered false with
  | .key k kind => return ((← ownRead (← me) (← get).serial k n).1, k, kind)
  | .trap c d =>
    let t ← tm
    trap { t.record c d with ea := a, size := 0, load := true }
  | .wait rids => blockAt { rids := rids, held := true }
  | .log _ _ _ => return ([], 0, 0)

/-- A structure of `n` bytes at an address, read at device scope (R346). -/
def readVirt (a : Word) (n : Nat) : Act (List Byte) := do
  let ps ← (pagePieces a.toNat n).mapM fun p => readPiece { r := true } accRead (BitVec.ofNat 64 p.1) p.2
  return (ps.map (·.1)).flatten

/-- A store of the team on the lane and front paths that was issued before an access and that no slice
has accepted meets a range. -/
def State.ownPending (s : State) (team before key n : Nat) : Bool :=
  s.writes.any fun w =>
    w.team == team && w.path < 2 && decide (w.group < before) && meets w.key w.bytes.length key n

/-- A load of the team may be served. After a device-scope acquire its slice serves it (R239), once the
team's own earlier stores to the bytes are there. -/
def State.mayLoad (s : State) (team before key n : Nat) : Bool :=
  !(s.team team).acquired || !s.ownPending team before key n

/-- Lines of a core's load cache: 256 KiB of 64 bytes each (R3; the line size is the model's, log 12). -/
def cacheLines : Nat := 4096

/-- A line enters a load cache in place of the one with its key, or of a victim where the cache is full
(R3; log 12). -/
def Core.fill (c : Core) (l : CacheLine) (victim : Nat) : Core :=
  let others := c.cache.filter fun x => x.key != l.key
  { c with cache := l :: if cacheLines ≤ others.length then others.eraseIdx (victim % others.length) else others }

/-- A load on the lane or front path, served by the load cache or by the slice (R184, R196, R239, R357):
bytes and the ORIGIN code of their poison. `hit` lets a cached line serve it; a line does not serve a
team that came to the core after it was filled, nor one that has made an acquire. -/
def loadAt (team before key n : Nat) (hit : Bool) : Act (List Byte × Nat) := do
  let s ← get
  let c := (s.team team).core
  let base := key / 64 * 64
  let serves (l : CacheLine) : Bool := l.key == base && hit && !(s.team team).acquired && !l.gone.contains team
  let (bs, p) ← match (s.core c).cache.find? serves with
    | some l => pure (l.bytes, l.poison)
    | none => do
      let (bs, p) ← readSlice base 64
      let victim ← if cacheLines ≤ (s.core c).cache.length then do
          let k ← nextFree
          pure (Config.cacheVictim k)
        else pure 0
      modify fun (s : State) => s.withCore c (·.fill ⟨base, bs, p, []⟩ victim)
      pure (bs, p)
  let lo := key / 8 * 8
  let own := (← get).ownOver team before lo ((bs.drop (lo - base)).take ((key + n + 7) / 8 * 8 - lo))
  if p = 0 then return ((own.drop (key - lo)).take n, 0) else return (zeros n, p)

/-- An acquire at device or system scope: the team's later loads are served at the slices (R196, R239,
R242, R243). -/
def State.acquire (s : State) (team : Nat) : State := s.withTeam team fun t => { t with acquired := true }

/-- A team that has come to bytes at their slice reads no line that the core's load cache held of them before: its
reads of them never go back, and find what it wrote there (R235). -/
def State.unseeAt (s : State) (core team key n : Nat) : State :=
  if (s.core core).cache.any fun l => meets l.key 64 key n then
    s.withCore core fun k =>
      { k with cache := k.cache.map fun l =>
          if meets l.key 64 key n && !l.gone.contains team then { l with gone := team :: l.gone } else l }
  else s

/-- A team that comes to a core reads no line that the core's load cache has held from before (R374). -/
def State.unsee (s : State) (core team : Nat) : State :=
  if (s.core core).cache.isEmpty then s
  else s.withCore core fun k =>
    { k with cache := k.cache.map fun l => if l.gone.contains team then l else { l with gone := team :: l.gone } }

/-! ## Write units -/

/-- The program-order number of the open instruction, taken when it first issues. -/
def groupOf : Act Nat := do
  let t ← tm
  match t.groupNow with
  | some g => return g
  | none =>
    let g ← fresh
    modTm fun t => { t with groupNow := some g }
    return g

/-- In a deterministic launch a team waits while 4,096 of its units are staged or on their way (R291). -/
def unitRoom : Act Unit := do
  let t ← tm
  if (← get).detOf t && 4096 ≤ t.undrained.length then blockAt {}

/-- The DRAIN unit of the open instruction, taken when it first issues (R186). It owes one
operation of its own until the instruction retires or traps. -/
def unitOf : Act Nat := do
  let t ← tm
  match t.unitNow with
  | some u => return u
  | none =>
    unitRoom
    let u := t.issued + 1
    modTm fun t =>
      { t with issued := u, undrained := t.undrained ++ [(u, 1)], unitNow := some u }
    return u

/-- One more operation of a unit. -/
def State.owe (s : State) (team unit : Nat) : State :=
  s.withTeam team fun t =>
    { t with undrained := t.undrained.map fun u => if u.1 = unit then (u.1, u.2 + 1) else u }

/-- Issue a store of the team: it waits for its slice, or for the ticket unit in a deterministic
launch (R186, R291). The store half of a team-scope atomic takes no unit. -/
def issueWrite (path lane : Nat) (va : Word) (key : Nat) (bs : List Byte) (unit : Bool := true) : Act Unit := do
  let id ← me
  let t ← tm
  let u ← if unit then unitOf else pure 0
  let g ← groupOf
  let w : PendWrite :=
    { team := id, unit := u, path := path, lane := lane, va := va, key := key, bytes := bs, asid := t.asid, group := g }
  modify fun s =>
    let s1 := s.owe id u
    if s1.detOf t then s1.withTeam id fun t => { t with staged := t.staged ++ [.write w] }
    else { s1 with writes := s1.writes ++ [w] }

/-- A store retires into the side log of its core (R347). It waits while the log is full. -/
def sideLog (e : SideEntry) : Act Unit := do
  let id ← me
  let t ← tm
  let s ← get
  if 256 ≤ (s.core t.core).log.length then blockAt { held := true }
  let u ← unitOf
  let g ← groupOf
  let e' : SideEntry :=
    { e with team := id, unit := u, asid := t.asid, timeline := t.timeline, ctx := t.ctx, gen := t.gen, group := g }
  modify fun s => (s.owe id u).withCore t.core fun k => { k with log := k.log ++ [e'] }

end Sys2Proof.Machine
end

