-- ==== Sys2Proof/Machine/Ltime.lean ====
section
/-! DEFINITION. Logical time: timestamps, path summaries and the reach table, counts, frontiers,
floors, and the holds of teams (R248 to R260, R337, R338). -/

namespace Sys2Proof.Machine

/-! ## Timestamps (R248) -/

/-- ≤ on the shared prefix. -/
def stampLe : Stamp → Stamp → Bool
  | [], _ => true
  | _, [] => true
  | a :: s, b :: t => decide (a < b) || (a == b && stampLe s t)
/-- Each ≤ the other. -/
def stampLevel (s t : Stamp) : Bool := stampLe s t && stampLe t s
/-- ≤ and not level. -/
def stampLt (s t : Stamp) : Bool := stampLe s t && !stampLe t s

/-- The time pair of a stamp (R250). -/
def pairOf (t : Stamp) : Word × Word :=
  let c (i : Nat) : Nat := t.getD i 0 % 2 ^ 32
  (BitVec.ofNat 64 (c 0 + c 1 * 2 ^ 32), BitVec.ofNat 64 (c 2 + c 3 * 2 ^ 32))
/-- The stamp of a time pair at a depth (R250). -/
def stampOf (depth : Nat) (lo hi : Word) : Stamp :=
  [lo.toNat % 2 ^ 32, lo.toNat / 2 ^ 32, hi.toNat % 2 ^ 32, hi.toNat / 2 ^ 32].take depth

/-- The last coordinate changed. -/
def lastCoord (f : Nat → Nat) (t : Stamp) : Stamp :=
  match t.getLast? with
  | some c => t.dropLast ++ [f c]
  | none => t

/-- What an action does to a time (R252). -/
def Action.map (a : Action) (t : Stamp) : Stamp :=
  match a with
  | .keep => t
  | .inc k => lastCoord (fun c => min 0xFFFFFFFF (c + k)) t
  | .enter => if t.length < 4 then t ++ [0] else t
  | .leave => if 1 < t.length then t.dropLast else t
/-- A list of actions in turn (R252). -/
def mapActs (as : List Action) (t : Stamp) : Stamp := as.foldl (fun t a => a.map t) t

/-! ## The reach table (R252) -/

/-- Chains from a location that visit none twice: where they end and their actions. `deep` marks
a chain longer than the bound. -/
def chains (ps : List Psum) : Nat → List Nat → Nat → List Action → List (Nat × List Action × Bool)
  | 0, seen, here, acts =>
    if ps.any fun p => p.src == here && !seen.contains p.dst then [(here, acts, true)] else []
  | fuel + 1, seen, here, acts =>
    (ps.filter fun p => p.src == here && !seen.contains p.dst).flatMap fun p =>
      (p.dst, acts ++ [p.act], false) :: chains ps fuel (p.dst :: seen) p.dst (acts ++ [p.act])

/-- Chains that return to their start. -/
def cycles (ps : List Psum) (start : Nat) : Nat → List Nat → Nat → List Action → List (List Action)
  | 0, _, _, _ => []
  | fuel + 1, seen, here, acts =>
    ((ps.filter fun p => p.src == here && p.dst == start).map fun p => acts ++ [p.act]) ++
      (ps.filter fun p => p.src == here && p.dst != start && !seen.contains p.dst).flatMap fun p =>
        cycles ps start fuel (p.dst :: seen) p.dst (acts ++ [p.act])

/-- The cycle rule on one chain: at least one INC, no ENTER and no LEAVE. -/
def cycleGood (acts : List Action) : Bool :=
  (acts.any fun a => match a with | .inc _ => true | _ => false) &&
    !(acts.any fun a => match a with | .enter | .leave => true | _ => false)

/-- The reach table of a set of summaries, or none where a bound or the cycle rule breaks. -/
def reachTable (ps : List Psum) : Option (List Reach) :=
  let srcs := (ps.map (·.src)).eraseDups
  let found := srcs.flatMap fun l => (chains ps 8 [l] l []).map fun c => (l, c)
  if found.any fun f => f.2.2.2 then none
  else if srcs.any fun l => (cycles ps l 9 [l] l []).any fun a => !cycleGood a then none
  else
    let table : List Reach := (found.map fun f => (⟨f.2.1, f.1, f.2.2.1⟩ : Reach)).eraseDups
    if table.any fun r => 32 < (table.filter fun q => q.dst == r.dst).length then none
    else some table

/-- The reach list of a location: sources with their actions, itself among them (R252). -/
def Space.reachOf (sp : Space) (loc : Nat) : List (Nat × List Action) :=
  (loc, []) :: (sp.reach.filter fun r => r.dst == loc).map fun r => (r.src, r.acts)

/-! ## Frontiers (R255) -/

/-- The candidates at a location. -/
def Space.candidates (sp : Space) (loc : Nat) : List Stamp :=
  (sp.reachOf loc).flatMap fun r =>
    (sp.counts.filter fun c => c.loc == r.1 && decide (0 < c.n)).map fun c => mapActs r.2 c.stamp

/-- The least of a list of candidates: ≤ every other, of least depth. -/
def leastOf (cs : List Stamp) : Option Stamp :=
  (cs.filter fun c => cs.all fun d => stampLe c d).foldl (fun best c =>
    match best with
    | none => some c
    | some b => if c.length < b.length then some c else some b) none

/-- The frontier at a location, none when empty. -/
def Space.frontier (sp : Space) (loc : Nat) : Option Stamp := leastOf (sp.candidates loc)

/-- A frontier has passed a time (R255). -/
def passedBy (front : Option Stamp) (t : Stamp) : Bool :=
  match front with
  | none => true
  | some f => stampLt t f

/-- The frontier a core answers from: that of its latest announcement, the root's where it has received
none (R256, R264; log 21). -/
def State.heardAt (s : State) (core asid loc : Nat) : Option Stamp :=
  match (s.core core).heard.find? fun a => a.asid == asid && a.loc == loc with
  | some a => a.front
  | none => (s.space asid).frontier loc

/-! ## Counts (R253, R254, R338) -/

/-- The floor of a timeline. -/
def Space.floor (sp : Space) (t : Nat) : Nat := SMap.val sp.floors 0 t

/-- The floor after a change of the counts (R338). -/
def Space.newFloor (sp : Space) (t : Nat) : Nat :=
  let cs := (sp.counts.filter fun c => c.timeline == t).map fun c => c.stamp.headD 0
  match cs with
  | [] =>
    match SMap.find sp.tops t with
    | some top => max (sp.floor t) (min 0xFFFFFFFF (top + 1))
    | none => sp.floor t
  | c :: rest => max (sp.floor t) (rest.foldl min c)

/-- Set the floor of a timeline and tell the host (R338). -/
def State.settleFloor (s : State) (asid t : Nat) : State :=
  let sp := s.space asid
  let f := sp.newFloor t
  if f = sp.floor t then s
  else
    let s1 := s.withSpace asid fun sp => { sp with floors := SMap.set 0 sp.floors t f }
    if sp.floorb = 0 then s1 else s1.store (hostKey (sp.floorb + 4 * t)) (leBytes 4 f) 0 0

/-- Add to the total of a pair. -/
def addTo (cs : List Count) (t loc : Nat) (st : Stamp) (n : Nat) : List Count :=
  if cs.any fun c => c.timeline == t && c.loc == loc && c.stamp == st then
    cs.map fun c => if c.timeline == t && c.loc == loc && c.stamp == st then { c with n := c.n + n } else c
  else cs ++ [⟨t, loc, st, n⟩]

/-- Take from the total of a pair. -/
def takeFrom (cs : List Count) (t loc : Nat) (st : Stamp) (n : Nat) : List Count :=
  (cs.map fun c => if c.timeline == t && c.loc == loc && c.stamp == st then { c with n := c.n - n } else c).filter
    fun c => decide (0 < c.n)

/-- Entries in use at a node of the hierarchy, over all address spaces (R254). -/
def State.entriesAt (s : State) (level node : Nat) : Nat :=
  s.spaces.foldl (fun n sp =>
    n + (sp.2.entries.filter fun e => e.level == level && e.node == node).length) 0

/-- The nodes above a core, lowest first, with their capacities (R254); the root alone for
Hearth. -/
def nodesOf (core : Option Nat) : List (Nat × Nat × Nat) :=
  match core with
  | some c => [(0, c, 128), (1, clusterOf c, 1024), (2, dieOf c, 8192), (3, 0, 16384)]
  | none => [(3, 0, 16384)]

/-- Find or take an entry for a pair; none when no level has a free one (R254). -/
def State.takeEntry (s : State) (core : Option Nat) (asid loc : Nat) (st : Stamp) : Option State :=
  let nodes := nodesOf core
  let mine := (s.space asid).entries.any fun e =>
    e.loc == loc && e.stamp == st && nodes.any fun n => n.1 == e.level && n.2.1 == e.node
  if mine then some s
  else
    match nodes.find? fun n => s.entriesAt n.1 n.2.1 < n.2.2 with
    | some n => some (s.withSpace asid fun sp => { sp with entries := ⟨n.1, n.2.1, loc, st⟩ :: sp.entries })
    | none => none

/-- Add `n` counts at a pair; none when no entry is free (R253, R254). -/
def State.addCount (s : State) (core : Option Nat) (asid t loc : Nat) (st : Stamp) (n : Nat := 1) :
    Option State :=
  match s.takeEntry core asid loc st with
  | none => none
  | some s1 =>
    let s2 := s1.withSpace asid fun sp =>
      { sp with counts := addTo sp.counts t loc st n, tops := SMap.put sp.tops t (max (st.headD 0) (SMap.val sp.tops 0 t)) }
    some (s2.settleFloor asid t)

/-- Retire `n` counts at a pair at once (R253). -/
def State.dropCount (s : State) (asid t loc : Nat) (st : Stamp) (n : Nat := 1) : State :=
  let s1 := s.withSpace asid fun sp =>
    let cs := takeFrom sp.counts t loc st n
    let gone := !(cs.any fun c => c.loc == loc && c.stamp == st)
    { sp with counts := cs, entries := if gone then sp.entries.filter fun e => !(e.loc == loc && e.stamp == st) else sp.entries }
  s1.settleFloor asid t

/-- Owe a −1 that is released under R259. -/
def State.owes (s : State) (asid : Nat) (r : Retire) : State :=
  s.withSpace asid fun sp => { sp with retires := sp.retires ++ [r] }

/-- Whether what a −1 waits for has come about (R242, R259). -/
def State.due (s : State) (u : Until) : Bool :=
  match u with
  | .drained team unit before => s.performed s.teams.length team unit before
  | .moved c n =>
    let of (w : PendWrite) : Bool := w.path == 2 && w.group == c && decide (w.part ≤ n)
    !(s.writes.any of || s.teams.any fun t => t.2.staged.any fun e => match e with | .write w => of w | _ => false)
  | .accepted g n => !(s.writes.any fun w => g ≤ w.group && w.group < g + n)

/-! ## Holds (R258) -/

/-- The team covers (L, t) (R258). -/
def Team.covers (t : Team) (sp : Space) (loc : Nat) (st : Stamp) : Bool :=
  (sp.reachOf loc).any fun r => t.holds.any fun h => h.loc == r.1 && stampLe (mapActs r.2 h.stamp) st

/-- What a −1 of a team waits for: its DRAIN.DONE reaches what ISSUED is now, every store it has
issued without a unit has been accepted, and what its callees had staged as they returned is performed (R242,
R259). -/
def State.whenDrained (s : State) (team : Nat) : Until := .drained team (s.team team).issued s.serial

/-- Release a −1 for a hold of a team under R259. -/
def State.releaseHold (s : State) (team : Nat) (h : Hold) : State :=
  let t := s.team team
  s.owes t.asid ⟨t.timeline, h.loc, h.stamp, h.share, s.whenDrained team⟩

/-- Retire every hold of a team (R260). -/
def State.releaseHolds (s : State) (team : Nat) : State :=
  let s' := (s.team team).holds.foldl (fun s h => s.releaseHold team h) s
  s'.withTeam team fun t => { t with holds := [] }

/-- Add a hold for the team at issue with its count; a blocking point while no entry is free
(R254, R258). A pair already held stays one hold. -/
def holdFor (loc : Nat) (st : Stamp) : Act Unit := do
  let t ← tm
  let id ← me
  let s ← get
  if t.holds.any fun h => h.loc == loc && h.stamp == st then pure ()
  else
    match s.addCount (some t.core) t.asid t.timeline loc st with
    | none => blockAt { detail := 8 }
    | some s1 => set (s1.withTeam id fun t => { t with holds := t.holds ++ [{ loc := loc, stamp := st }] })

/-- One count at each of a list of pairs; none when an entry is missing (R253, R254). -/
def State.countPairs (s : State) (core asid t : Nat) (ps : List Hold) : Option State :=
  ps.foldl (fun o h => o.bind fun s => s.addCount (some core) asid t h.loc h.stamp) (some s)

/-- A count of the team's at a pair, without a hold: a ring slot, a task, a copy or a grid. -/
def countFor (loc : Nat) (st : Stamp) : Act Unit := do
  let t ← tm
  let s ← get
  match s.addCount (some t.core) t.asid t.timeline loc st with
  | none => blockAt { detail := 8 }
  | some s1 => set s1

end Sys2Proof.Machine
end

