-- ==== Sys2Proof/Machine/Ops.lean ====
section
/-! DEFINITION. The shared operations: the end of a team, the failure of regions, taking an
exception (a delivery) and returning from one, the retirement of an instruction, and saving a
team. -/

namespace Sys2Proof.Machine

/-! ## Copies that a team's end concerns (R199, R200) -/

/-- A copy or a forming collective still owes completion to a team's handle. -/
def State.copyOpen (s : State) (team handle : Nat) : Bool :=
  (s.copies.any fun c => c.2.handles.contains (team, handle)) ||
    s.cores.any fun c => c.2.colls.any fun k => k.slices.any fun x => x.team == team && x.handle == handle

/-- How many handles a team has outstanding (R199). -/
def State.copiesOf (s : State) (team : Nat) : List Nat :=
  let a := s.copies.flatMap fun c => (c.2.handles.filter fun h => h.1 == team).map (·.2)
  let b := s.cores.flatMap fun c => c.2.colls.flatMap fun k =>
    (k.slices.filter fun x => x.team == team).map (·.handle)
  (a ++ b).eraseDups

/-- The copies of a collective that starts: one a slice that moves bytes, each owing every
contributor's handle (R200). -/
def State.startColl (s : State) (core : Nat) (k : Coll) : State :=
  let handles := k.slices.map fun x => (x.team, x.handle)
  let s1 := s.withCore core fun c => { c with colls := c.colls.filter fun j => j != k }
  k.slices.foldl (fun s x =>
    let t := s.team x.team
    let lines := (List.range (x.size / 128)).map (x.off / 128 + ·)
    if x.size = 0 then
      x.pairs.foldl (fun s h => s.dropCount t.asid t.timeline h.loc h.stamp) s
    else
      let c : Copy :=
        { team := x.team, handles := handles, kind := 0, core := core, launch := k.launch, asid := t.asid,
          timeline := t.timeline, runs := [(x.src, x.off, x.size)], adv := x.adv, stamp := x.stamp,
          pairs := x.pairs, lines := lines, order := x.order }
      { s with copies := SMap.put s.copies x.order c }) s1

/-- A task of a launch is on its way to a team: staged, pushed or accepted (R272, R291). -/
def State.tasksComing (s : State) (l : LaunchId) : Bool :=
  ((s.tasks ++ s.pushed).any fun k => decide (k.2.launch = l)) ||
    s.teams.any fun t => decide (t.2.launch = l) && t.2.staged.any fun e => match e with | .task _ => true | _ => false

/-- Every index has contributed, or as many teams of the launch have ended on the core without a contribution as
indices are missing, and no team is left that could give one: none is still to start or to form, and none is
live on the core without a contribution (R200; log 17). -/
def State.collReady (s : State) (core : Nat) (k : Coll) : Bool :=
  let g := s.region k.launch.region
  let missing := (List.range 8).filter fun i => bitOf k.mem i && !(k.slices.any fun x => x.idx == i)
  let absent := s.teams.filter fun t =>
    decide (t.2.launch = k.launch) && t.2.core == core && !(k.slices.any fun x => x.team == t.1)
  missing.isEmpty ||
    ((g.launch k.launch.entrant).started == g.teams && !s.tasksComing k.launch &&
      (absent.all fun t => decide (t.2.place = Place.ended)) && decide (missing.length ≤ absent.length))

/-- Start the collectives of a core that are ready (R200). -/
def State.startColls (s : State) (core : Nat) : State :=
  (s.core core).colls.foldl (fun s k => if s.collReady core k then s.startColl core k else s) s

/-- Start the collectives that are ready on every core (R200). -/
def State.startAllColls (s : State) : State := s.cores.foldl (fun s c => s.startColls c.1) s

/-- Cores from which this number on keep the allocations of launches that have no team left on a core,
for the copies that still move their bytes (R33; log 17). -/
def keptCores : Nat := 160 * 2 ^ 20

/-- A copy leaves; with the last copy of an allocation kept for its copies that goes too. -/
def State.removeCopy (s : State) (id : Nat) : State :=
  match SMap.find s.copies id with
  | none => s
  | some c =>
    let s1 := { s with copies := SMap.del s.copies id }
    if keptCores ≤ c.core && !(s1.copies.any fun d => d.2.core == c.core) then
      { s1 with cores := SMap.del s1.cores c.core }
    else s1

/-- Cancel the copies of a killed team: their counts retire once what they moved has been accepted
(R253, R295). -/
def State.cancelCopies (s : State) (team : Nat) : State :=
  (s.copies.filter fun c => c.2.team == team).foldl (fun s c =>
    let s1 := s.removeCopy c.1
    let s2 := c.2.pairs.foldl (fun s h =>
      s.owes c.2.asid ⟨c.2.timeline, h.loc, h.stamp, 1, .moved c.1 c.2.part⟩) s1
    let mine (e : Effect) : Bool := match e with | .write w => w.path == 2 && w.group == c.1 | .copy i => i == c.1 | _ => false
    let bytes := (s2.team team).staged.filter fun e => match e with | .write _ => mine e | _ => false
    let s3 := s2.withTeam team fun t => { t with staged := t.staged.filter fun e => !mine e }
    match c.2.unit with
    | some u => (bytes.foldl (fun s _ => s.ackUnit team u) s3).ackUnit team u
    | none => s3) s

/-! ## Contexts (R359) -/

/-- The context of a team. -/
def State.ctxOf (s : State) (i : Nat) : Ctx := SMap.val s.hearth.ctxs {} (s.team i).ctx
/-- A context whose last team has been saved or has ended goes from SEEK to SAVING (R359). -/
def State.settleCtx (s : State) (c : Nat) : State :=
  let done := s.teams.all fun t => t.2.ctx != c || decide (t.2.place ≠ Place.resident)
  s.withHearth fun h =>
    { h with ctxs := SMap.alter h.ctxs c fun x => if x.state = .seek && done then { x with state := .saving } else x }

/-! ## The end of a team (R32, R33) -/

/-- Detach a ring: HEAD and TAIL go back to the descriptor, unpopped slots and their counts are
discarded (R267). -/
def State.detach (s : State) (i : Nat) : State :=
  match SMap.find s.rings i with
  | none => s
  | some r =>
    let s1 := s.store (r.key + 8) (leBytes 4 r.head.toNat ++ leBytes 4 r.tail.toNat) r.asid 0
    let s2 := r.queue.foldl (fun s q => s.dropCount r.asid q.timeline r.loc q.stamp) s1
    { s2 with rings := SMap.del s2.rings i }

/-- Free a launch's allocation on a core when its last team there has ended (R183, R267). Collectives that form
there start, with empty slices for the teams that ended (R200), and copies already issued complete all the
same, from the bytes as they keep them (R33; log 17). -/
def State.freeAlloc (s : State) (core : Nat) (l : LaunchId) : State :=
  let live := s.teams.any fun t => decide (t.2.launch = l) && t.2.core == core && decide (t.2.place ≠ Place.ended)
  if live then s
  else
    let mine := s.rings.filter fun r => r.2.core == core && decide (r.2.launch = l)
    let s0 := mine.foldl (fun s r => s.detach r.1) s
    let s1 := ((s0.core core).colls.filter fun k => decide (k.launch = l)).foldl (fun s k => s.startColl core k) s0
    let al := (s1.core core).allocs.filter fun a => decide (a.launch = l)
    let s2 := s1.withCore core fun c =>
      { c with allocs := c.allocs.filter fun a => decide (a.launch ≠ l) }
    let moving (c : Copy) : Bool := c.core == core && decide (c.launch = l)
    let s3 : State :=
      if s2.copies.any fun c => moving c.2 then
        let kept := keptCores + 160 * s2.serial + core % 160
        let s3 := s2.withCore kept fun c => { c with allocs := al }
        { s3 with
          serial := s3.serial + 1
          copies := s3.copies.map fun c => (c.1, if moving c.2 then { c.2 with core := kept } else c.2) }
      else s2
    s3.withHearth fun h =>
      { h with ctxs := h.ctxs.filter fun c => !(decide (c.2.launch = l) && c.2.core == core) }

/-- A block of a grid has ended. With the last one the grid's count retires, once its writes are
accepted (R328). -/
def State.endOfBlock (s : State) (g : Nat) : State :=
  match SMap.find s.grids g with
  | none => s
  | some x =>
    if 1 < x.blocks then { s with grids := SMap.put s.grids g { x with blocks := x.blocks - 1 } }
    else
      ({ s with grids := SMap.del s.grids g } : State).owes x.asid
        ⟨x.timeline, x.loc, x.stamp, 1, .accepted g (x.size + 1)⟩

/-- Stop the grids of a team: a running block stops after its current instruction, pending ones
never start (R328). -/
def State.stopGrids (s : State) (team : Nat) : State :=
  let s := (s.grids.filter fun g => g.2.team == team).foldl (fun s g =>
    g.2.rest.foldl (fun s _ => s.endOfBlock g.1) { s with grids := SMap.put s.grids g.1 { g.2 with rest := [] } }) s
  s.sills.foldl (fun s u =>
    let drop := u.2.pending.filter fun b => b.team == team
    let touched := !drop.isEmpty || (u.2.running.any fun b => b.team == team) || u.2.left.any fun w => w.1 == team
    if touched then
      let s1 := s.withSill u.1 fun x =>
        { x with
          pending := x.pending.filter fun b => b.team != team
          running := x.running.map fun b => if b.team = team then { b with stop := true } else b
          left := x.left.filter fun w => w.1 != team }
      drop.foldl (fun s b => s.endOfBlock b.grid) s1
    else s) s

/-- Free the cores of a bind record whose range is exhausted and whose teams have ended
(BIND_RECORD_RETIRE, R283). -/
def State.retireBind (s : State) (b : Nat) : State :=
  match SMap.find s.hearth.binds b with
  | none => s
  | some r =>
    let busy := s.teams.any fun t => t.2.bind == some b && decide (t.2.place ≠ Place.ended)
    if r.ranges.isEmpty && !busy then s.withHearth fun h => { h with binds := SMap.del h.binds b } else s

/-- Run an action of another agent's; what it did until it had to wait stays done. -/
def State.doing (s : State) (a : Act Unit) : State := (a.go s).2

/-! ## The side log (R347 to R349) -/

/-- The record of an entry that is declared (R349). -/
def SideEntry.record (e : SideEntry) (cause : Cause) (detail : Nat) : Rec :=
  { ea := e.va, index := 0xD, lane := e.lane, size := 2 ^ e.size, cause := cause, detail := detail, store := true,
    logged := true }

/-- An entry leaves the log as a record, and its unit drains (R349). -/
def State.declareEntry (s : State) (e : SideEntry) (cause : Cause) (detail : Nat) : State :=
  (s.headerRec e.team (e.record cause detail)).ackUnit e.team e.unit

/-- An entry is replayed: its write or Mortar operation goes on its own path, where no relation
covers it (R349). The ticket unit has it first in a deterministic launch (R291). -/
def State.replayAt (s : State) (e : SideEntry) (key : Nat) : State :=
  let t := s.team e.team
  let staged := s.detOf t
  let eff : Effect :=
    if e.kind = 2 then
      .mortar { team := e.team, unit := e.unit, asid := e.asid, key := key, size := 2 ^ e.size, kind := e.opk, ty := e.ty,
                fn := e.fn, value := e.data, det := s.detOf t }
    else
      .write { team := e.team, unit := e.unit, path := e.kind, lane := e.lane, va := e.va, key := key,
               bytes := leBytes (2 ^ e.size) e.data.toNat, asid := e.asid, group := e.group }
  if staged then s.withTeam e.team fun t => { t with staged := t.staged ++ [eff] }
  else match eff with
    | .mortar m => { s with mortarIn := s.mortarIn ++ [m] }
    | .write w => { s with writes := s.writes ++ [w] }
    | _ => s

/-- Walk for an entry again, at its GEN: it is replayed, refused for good, or stays with a new request, or
with none while the ring is full (R345); only the last two keep it. -/
def replayEntry (e : SideEntry) : Act (Option SideEntry) := do
  let need : Need := { w := true, use := if e.kind = 2 then 6 else 0 }
  match ← translate .none e.asid e.timeline e.gen e.va need with
  | .ok k _ => do
    modify fun (s : State) => s.replayAt e k
    return none
  | .fault c d => do
    let rid ← postRequest e.asid e.timeline e.gen e.va c d ((if e.kind = 2 then accMortar + accWrite else accWrite) + 16)
    return some { e with cause := c, detail := d, rid := rid }
  | .refuse d => do
    modify fun (s : State) => s.declareEntry e .protect d
    return none
  | .bad => return none

/-- Replay the entries of a core's log that a test names, in log order (SIDE_LOG_REPLAY). Returns that
waited on them go ahead (R92). -/
def State.replayLog (s : State) (core : Nat) (p : SideEntry → Bool) : State :=
  let mine := (s.core core).log.filter p
  if mine.isEmpty then s
  else
    let s1 := s.doing do
      let keep ← (s.core core).log.mapM fun e => if p e then replayEntry e else pure (some e)
      modify fun (s : State) => s.withCore core fun c => { c with log := keep.filterMap id }
    ((mine.map (·.team)).eraseDups).foldl State.flushReturns s1

/-- The request of an entry has been answered (R364). -/
def State.answeredFor (s : State) (e : SideEntry) : Bool :=
  e.rid.any fun r => !(s.hearth.requests.any fun q => q.rid == r)

/-- No context has this save area: what it still holds belongs to teams that have ended (R290). -/
def State.abandoned (s : State) (area : Nat) : Bool :=
  160 ≤ area && !(s.hearth.ctxs.any fun c => saveArea c.2.core c.1 == area)

/-- Side-log entries in the save area of a context that is no more: those whose request has been answered
replay at once, the rest on their answer (R290, R364). -/
def State.replaySaved (s : State) (core ctx : Nat) : State :=
  let area := saveArea core ctx
  if s.abandoned area then s.replayLog area s.answeredFor else s

/-! ## Ending a team (R33) -/

/-- A team ends (R33): it frees its registers and slot, passes a Latchkey it holds, discards the
replies still owed to it, and its holds retire when its units have drained (R260). Its side-log entries replay all the same (R290). Records that
still wait go to the device fault log (R366). -/
def State.endTeam (s : State) (i : Nat) : State :=
  let t := s.team i
  if t.place = .ended then s
  else
    let open_ := [t.unitNow, t.rpc.progress.unitNow, t.delivery.bind (·.resume.progress.unitNow)].filterMap id
    let s := open_.eraseDups.foldl (fun s u => s.ackUnit i u) s
    let t := s.team i
    let s1 := if t.place = .resident then
        s.withCore t.core fun c =>
          { c with latch := if c.latch = .held i then .passing i t.slot else c.latch }
      else s
    let s2 := s1.releaseHolds i
    let s3 := s2.logFaults (t.headerRecs ++ ((t.delivery.map (·.recs)).getD []))
    let s4 := s3.stopGrids i
    let gone : Team :=
      { asid := t.asid, timeline := t.timeline, launch := t.launch, lanes := t.lanes, teamix := t.teamix,
        origin := t.origin, place := .ended, core := t.core, slot := t.slot, bind := t.bind, ctx := t.ctx,
        exited := lanesMask t.lanes, issued := t.issued, undrained := t.undrained, owed := t.owed, staged := t.staged,
        released := t.released, score := t.score, now := t.now }
    let s5 := s4.withTeam i fun _ => gone
    let s6 := s5.withLaunch t.launch fun l =>
      let l1 := { l with scores := l.scores ++ [t.score] }
      if t.origin = 0 then { l1 with ended := l.ended + 1 } else { l1 with gatheredEnded := l.gatheredEnded + 1 }
    let s7 := (s6.startColls t.core).freeAlloc t.core t.launch
    let s8 := (s7.replaySaved t.core t.ctx).settleCtx t.ctx
    match t.bind with
    | some b => s8.retireBind b
    | none => s8

/-! ## Regions that fail (R290, R293, R295) -/

/-- Write bytes of a region's RCB at device scope (R280). -/
def State.writeRcb (s : State) (r off : Nat) (bs : List Byte) : State :=
  let g := s.region r
  if (SMap.find s.regions r).isNone then s else s.store (g.key + off) bs g.asid 0

/-- The code of a region's state (R280). -/
def RState.code : RState → Nat
  | .ready => 1 | .running => 2 | .complete => 3 | .failed => 4 | .closed => 5

/-- Set a region's STATE, in its RCB too. -/
def State.setRState (s : State) (r : Nat) (st : RState) : State :=
  (s.withRegion r fun g => { g with state := st }).writeRcb r 80 (leBytes 1 st.code)

/-- A region is live: neither COMPLETE, FAILED nor CLOSED. -/
def Region.live (r : Region) : Bool := decide (r.state = .ready) || decide (r.state = .running)

/-- The task that a staged effect pushes. -/
def Effect.task? (e : Effect) : Option Task :=
  match e with
  | .task k => some k
  | _ => none

/-- Discard the pending tasks that a launch's teams pushed, those staged among them: their counts retire
at once, and the units of those the gatherer has not accepted drain (R260, R290). -/
def State.dropTasks (s : State) (p : Task → Bool) : State :=
  let staged := s.teams.flatMap fun t => (t.2.staged.filterMap Effect.task?).filter p
  let open_ := (s.pushed.map (·.2)).filter p ++ staged
  let mine := (s.tasks.map (·.2)).filter p ++ open_
  let s1 := { s with
    tasks := s.tasks.filter fun t => !p t.2
    pushed := s.pushed.filter fun t => !p t.2
    teams := if staged.isEmpty then s.teams
      else s.teams.map fun t => (t.1, { t.2 with staged := t.2.staged.filter fun e => !(e.task?.any p) }) }
  let s2 := mine.foldl (fun s k => if k.kind = 1 then s.dropCount k.asid k.timeline k.loc k.stamp else s) s1
  open_.foldl (fun s k => if k.unit = 0 then s else s.ackUnit k.pusher k.unit) s2

/-- The pair at which a launch counts until its teams have started (R253, R281). -/
def Region.startPair (r : Region) : Nat × Stamp := if r.kind = 2 then (r.tloc, r.time) else (r.inloc, r.time)

/-- A launch that has teams unstarted starts none any more: its count retires. -/
def State.dropLaunchCount (s : State) (l : LaunchId) : State :=
  let r := s.region l.region
  if (r.launch l.entrant).counted && decide (l.entrant < r.launches.length) then
    (s.dropCount r.asid r.timeline r.startPair.1 r.startPair.2).withLaunch l fun x => { x with counted := false }
  else s

/-- End the teams of a launch and withdraw what it has not started; with `cancel` the copies of all its teams
are cancelled, of those that had ended before too (R295). -/
def State.endLaunch (s : State) (l : LaunchId) (cancel : Bool) : State :=
  let all := s.teams.filter fun t => decide (t.2.launch = l)
  let s1 := s.withHearth fun h =>
    let mine (b : Bind) : Bool := b.region == l.region && b.entrant == l.entrant
    { h with binds := h.binds.map fun b => (b.1, if mine b.2 then { b.2 with ranges := [], state := 2 } else b.2) }
  let s2 := all.foldl (fun s t => s.endTeam t.1) (s1.dropTasks fun t => decide (t.launch = l))
  let s3 := if cancel then all.foldl (fun s t => s.cancelCopies t.1) s2 else s2
  let s4 := s3.hearth.binds.foldl (fun s b =>
    if b.2.region = l.region && b.2.entrant = l.entrant then s.retireBind b.1 else s) s3
  s4.dropLaunchCount l

/-- A launch still has teams to start: unbound ones, or saved contexts. -/
def State.unbound (s : State) (l : LaunchId) : Bool :=
  let g := s.region l.region
  let x := g.launch l.entrant
  decide (x.state ≠ .killed) && (!x.left.isEmpty ||
    s.hearth.ctxs.any fun c => decide (c.2.launch = l) && decide (c.2.state = .saved))

/-- READY while the launch has teams to bind, RUNNING from then on (R280, R287). A region that becomes READY
again has a credit of 0, and is the latest to have become so (R285). -/
def State.settleReady (s : State) (r : Nat) : State :=
  let g := s.region r
  if !g.live then s
  else
    let more := (List.range g.launches.length).any fun e => s.unbound ⟨r, e⟩
    let st : RState := if more then .ready else .running
    if g.state = st then s
    else if st = .running then s.setRState r st
    else
      let s1 := s.withRegion r fun g => { g with credit := 0, order := s.serial }
      ({ s1 with serial := s.serial + 1 } : State).setRState r st

/-- Children of a region. -/
def State.childrenOf (s : State) (r : Nat) : List Nat :=
  (s.regions.filter fun g => g.2.parent == some r).map (·.1)

/-- A region and its descendants, down to a depth. -/
def State.subtree (s : State) : Nat → Nat → List Nat
  | 0, r => [r]
  | fuel + 1, r => r :: (s.childrenOf r).flatMap (s.subtree fuel)

/-- The regions that fail with one, under FDPOL (R290). -/
def State.failSet (s : State) : Nat → Nat → List Nat
  | 0, r => s.subtree 16 r
  | fuel + 1, r =>
    let g := s.region r
    match g.fdpol, g.parent with
    | 1, some p => s.subtree 16 r ++ s.failSet fuel p
    | 2, some p => (s.childrenOf p).flatMap (s.subtree 16)
    | _, _ => s.subtree 16 r

/-- Entrants not killed, as a mask (R278). -/
def Region.aliveMask (r : Region) : Nat :=
  ((List.range r.launches.length).filter fun e => decide ((r.launch e).state ≠ .killed)).foldl
    (fun m e => m + 2 ^ e) 0
/-- How many entrants are not killed (R278). -/
def Region.alive (r : Region) : Nat :=
  ((List.range r.launches.length).filter fun e => decide ((r.launch e).state ≠ .killed)).length

/-- ROUND, ALIVE, WINNER and ALIVEM of a tournament's RCB (R278). -/
def State.writeRound (s : State) (r : Nat) : State :=
  let g := s.region r
  (s.writeRcb r 99 (leBytes 1 g.round ++ leBytes 1 g.alive ++ leBytes 1 g.winner)).writeRcb r 104 (leBytes 8 g.aliveMask)

/-- One region fails with a cause (R290). STATE and CAUSE are written to its RCB once its teams'
units have drained (R280, R304). -/
def State.failOne (s : State) (cause : Nat) (r : Nat) : State :=
  let g := s.region r
  if !g.live then s
  else
    let s2 := s.withRegion r fun g => { g with cause := cause, state := .failed }
    let s3 := (List.range g.launches.length).foldl (fun s e => s.endLaunch ⟨r, e⟩ false) s2
    let s4 := if g.kind = 2 then
        (s3.withRegion r fun g => { g with launches := g.launches.map fun l => { l with state := .killed } }).writeRound r
      else s3
    match g.roundCount with
    | some t => (s4.dropCount g.asid g.timeline g.tloc t).withRegion r fun g => { g with roundCount := none }
    | none => s4

/-- A live region fails, and the failure spreads under FDPOL (REGION_FAIL, R290). -/
def State.failRegion (s : State) (r cause : Nat) : State :=
  if (s.region r).live then (s.failSet 16 r).eraseDups.foldl (fun s q => s.failOne cause q) s else s

/-- An entrant is killed: its teams end, its copies are cancelled, the regions they opened fail
with USER (R293, R295). -/
def State.killEntrant (s : State) (r e : Nat) : State :=
  let s1 := s.withLaunch ⟨r, e⟩ fun l => { l with state := .killed }
  let s2 := s1.endLaunch ⟨r, e⟩ true
  let kids := (s2.childrenOf r).filter fun k => (s2.region k).opener == e
  let s3 := (kids.flatMap (s2.subtree 16)).foldl (fun s q => s.failOne (Cause.code .user) q) s2
  (s3.writeRound r).settleReady r

/-- Records that are fatal: they go to the device fault log, and the team's region fails, or the
team's entrant is killed (FATAL_RECORD, R356, R290). A tournament fails once such records have killed every
entrant, with the cause of the last of them. -/
def State.fatal (s : State) (i : Nat) (rs : List Rec) : State :=
  let t := s.team i
  let s1 := (s.withTeam i fun t => { t with delivery := none }).logFaults rs
  let cause := (rs.head?.map fun r => r.cause.code).getD 0
  match SMap.find s.regions t.launch.region with
  | none => s1.endTeam i
  | some g =>
    if g.kind = 2 then
      let s2 := (s1.withLaunch t.launch fun l => { l with fell := true }).killEntrant t.launch.region t.launch.entrant
      let last := (rs.getLast?.map fun r => r.cause.code).getD 0
      if (s2.region t.launch.region).launches.all (·.fell) then s2.failRegion t.launch.region last else s2
    else s1.failRegion t.launch.region cause

/-! ## Saving a team (R359 to R363) -/

/-- Save a team where it stands: with the registers a live mask names, or every one (R360, R361). Its page
registers are discarded (R340). A Latchkey it holds passes on as by mx.give, and the weight buffer is kept with it
together with the mx.wloads that still fill it, there and on the core it leaves (R171, R172, R175). -/
def State.saveTeam (s : State) (i : Nat) (live : BitVec 240) (full : Bool) : State :=
  let t := s.team i
  let c := s.core t.core
  let holds := decide (c.latch = .held i)
  let s1 := s.withTeam i fun t =>
    { t with
      place := .saved, saveLive := live, fullSave := full, keptKey := t.keptKey || holds
      keptBuf := if holds then c.wbuf else t.keptBuf
      keptPoison := if holds then c.wpoison else t.keptPoison
      keptTags := if holds then c.tags else t.keptTags
      keptLoads := if holds then c.wloads.filter (·.team == i) else t.keptLoads
      lanePages := [], frontPage := none }
  let s2 := if holds then
      s1.withCore t.core fun c => { c with latch := .passing i t.slot }
    else s1
  let mine (e : SideEntry) : Bool := e.team == i
  let entries := (s2.core t.core).log.filter mine
  let s3 := if entries.isEmpty then s2
    else s2.withCore t.core fun c => { c with log := c.log.filter fun e => !mine e }
  let s4 := if entries.isEmpty then s3
    else s3.withCore (saveArea t.core t.ctx) fun c => { c with log := c.log ++ entries }
  s4.settleCtx t.ctx

/-- In SEEK a team that stands at a blocking point, a hold, a PARK entry or in wait of its baton, or
that is parked, is saved there with every register (R360). -/
def State.seekSave (s : State) (i : Nat) : State :=
  let t := s.team i
  if (s.ctxOf i).state = .seek && decide (t.place = .resident) && (t.parkWait || t.parked || t.keptKey || t.block.any (·.point)) then
    s.saveTeam i (BitVec.allOnes 240) true
  else s

/-! ## Taking an exception (R354 to R356) -/

/-- What the open instruction kept of its progress is forgotten: one that waited for the baton leaves the waiters,
but for a word of the command stream that waits for it (R171, R205; log 17). -/
def Team.closed (t : Team) : Team :=
  { t with
    wantsKey := t.wantsKey && !t.mxq.isEmpty
    served := 0, popped := [], step := 0, reissue := false, unitNow := none, groupNow := none,
    declared := [], block := none, stalled := 0 }

/-- The instruction that stood open is closed, and its write unit owes no more for it. -/
def State.closeInstr (s : State) (i : Nat) : State :=
  let s1 := s.withTeam i Team.closed
  match (s.team i).unitNow with
  | some u => s1.ackUnit i u
  | none => s1

/-- What the open instruction has done so far. -/
def Team.progress (t : Team) : Progress :=
  { served := t.served, popped := t.popped, step := t.step, reissue := t.reissue, unitNow := t.unitNow, groupNow := t.groupNow }
/-- Set the open instruction's progress. -/
def Team.withProgress (t : Team) (p : Progress) : Team :=
  { t with served := p.served, popped := p.popped, step := p.step, reissue := p.reissue, unitNow := p.unitNow, groupNow := p.groupNow }

/-- Where the records of a delivery go: the 32-byte places from FRECB on, each with its key. The delivery is held
where a page request holds a write, or the side log an earlier store to its page (R347), and fatal where no
write can be made (R351, R356). -/
def recordPlaces (i n : Nat) : Act (List (Word × Nat)) := do
  let t := (← get).team i
  (List.range n).mapM fun j => do
    let va : Word := BitVec.ofNat 64 (t.frecb.toNat * 32 + 32 * j)
    let page := va.toNat % 2 ^ 57 / 4096 * 4096
    if (t.declared.any fun d => d.page == page) then throw .gone
    match ((← get).core t.core).log.find? fun e => e.team == i && e.va.toNat % 2 ^ 57 / 4096 * 4096 == page with
    | some e => blockAt { rids := e.rid.toList, held := true }
    | none =>
      match ← translate (.front i) t.asid t.timeline t.gen va { w := true } with
      | .ok k _ => return (va, k)
      | .fault c d =>
        let rid ← postRequest t.asid t.timeline t.gen va c d accWrite
        blockAt { rids := rid.toList, held := true }
      | _ => throw .gone

/-- Write the records on the front path at team scope (R374), staged in a deterministic launch (R291). Each write
stands alone: no instruction joins them (R389). -/
def State.writeRecords (s : State) (i : Nat) (places : List (Word × Nat)) (rs : List Rec) : State :=
  let t := s.team i
  (places.zip rs).foldl (fun s p =>
    (List.range 4).foldl (fun s q =>
      let s1 := { s with serial := s.serial + 1 }
      let w : PendWrite :=
        { team := i, unit := 0, path := 1, va := p.1.1 + BitVec.ofNat 64 (8 * q), key := p.1.2 + 8 * q
          bytes := (p.2.bytes.drop (8 * q)).take 8, asid := t.asid, group := s.serial }
      if s.detOf t then s1.withTeam i fun t => { t with staged := t.staged ++ [.write w] }
      else { s1 with writes := s1.writes ++ [w] }) s) s

/-- The first instruction in flight, in program order, whose faults are still to be reported (R24). -/
def Team.faulty (t : Team) : Option Op := t.ops.find? fun o => !o.faults.isEmpty

/-- A team whose every lane has exited ends (R32), once no instruction in flight has faults to report (R24; log 25). -/
def State.endIfSpent (s : State) (i : Nat) : State :=
  if (s.team i).spent && (s.team i).faulty.isNone then s.endTeam i else s

/-- Hand the pending delivery of a team to its handler (HANDLER_ENTRY, R355): the records are
written, RPC takes the resume point, CAUSE the first record, and control the header TRAPH. The
delivery is held while a record write waits for a page request, and is fatal where R356 says. A team whose
every lane has exited ends with the records written (R32). -/
def State.enterHandler (s : State) (i : Nat) : State :=
  let t := s.team i
  match t.delivery with
  | none => s
  | some d =>
    if t.desc.traph = 0 || t.handler then s.fatal i d.recs
    else
      let r := (recordPlaces i d.recs.length).go s
      match r.1 with
      | .ok places =>
        ((r.2.writeRecords i places d.recs).withTeam i fun t =>
          { t with
            delivery := none, block := none, declared := [], stalled := 0, clause := none, after := none, skip := 0
            returning := none, gaveUp := false
            rpc := d.resume, handler := true, handled := d.recs
            causeCount := d.recs.length % 2 ^ 16
            causeOrigin := (d.recs.head?.map (·.origin)).getD 0
            causeCode := (d.recs.head?.map fun r => r.cause.code).getD 0
            pc := t.desc.traph }).endIfSpent i
      | .error (.block b) => (r.2.withTeam i fun t => { t with block := some b }).seekSave i
      | .error _ => r.2.fatal i d.recs

/-- Where a team stands, as a resume point. -/
def Team.here (t : Team) (next faulted : Bool) : Resume :=
  match t.clause with
  | some o =>
    { clause := o.header, index := o.idx + (if next then 1 else 0), atHeader := false, faulted := faulted, after := t.after,
      gaveUp := t.gaveUp }
  | none => { clause := t.pc, index := t.skip, atHeader := true, faulted := false, after := t.after, gaveUp := t.gaveUp }

/-- Put a delivery in place: the gap count starts again (R360). Where a save is due, the team is saved with
the delivery unwritten; a saved team has it when it resumes (R358). -/
def State.handOn (s : State) (i : Nat) (rs : List Rec) (resume : Resume) : State :=
  let s1 := s.withTeam i fun t => { t with delivery := some ⟨rs, resume⟩, gap := 0, block := none }
  let x := s1.ctxOf i
  if (s1.team i).place ≠ .resident then s1
  else if x.state = .seek && x.late then s1.saveTeam i (BitVec.allOnes 240) true
  else s1.enterHandler i

/-- An instruction in flight completes: what is left of its results lands, and its flags rise (R23, R136). -/
def Team.complete (t : Team) (o : Op) : Team :=
  let t1 := o.results.foldl Team.land t
  { t1 with
    ops := t1.ops.filter fun p => p.ident != o.ident
    fpf := t1.fpf ||| BitVec.ofNat 5 o.fpf, dcf := t1.dcf ||| BitVec.ofNat 5 o.dcf }

/-- A long-latency instruction that faults completes: its delivery resumes at it, and those behind it that
have not completed are issued again with it (R24). -/
def State.reportOp (s : State) (i : Nat) (o : Op) : State :=
  let s1 := s.closeInstr i
  (s1.withTeam i fun t =>
    let t1 := t.complete o
    { t1 with ops := t1.ops.filter fun p => p.window.isNone || decide (p.ident < o.ident) }).handOn i o.faults o.resume

/-- Take an exception: a delivery of records with its resume point (R354, R355). A fault of an earlier
instruction in flight is reported first, and the one that is younger arises again (R24). -/
def State.deliver (s : State) (i : Nat) (rs : List Rec) (resume : Resume) : State :=
  match (s.team i).faulty with
  | some o => s.reportOp i o
  | none => s.handOn i rs resume

/-- An instruction delivery: the instruction closes without retiring (R354). -/
def State.trapInstr (s : State) (i : Nat) (rs : List Rec) : State :=
  let resume := (s.team i).here false true
  (s.closeInstr i).deliver i rs resume

/-- An instruction delivery of QSTALL: sys.eret resumes behind the lanes already served (R187). -/
def State.stallInstr (s : State) (i : Nat) (rs : List Rec) : State :=
  let t := s.team i
  let done : Progress := { served := t.served, popped := t.popped, step := t.step }
  (s.closeInstr i).deliver i rs { t.here false true with progress := done }

/-- Deliver the header records that wait, at a header or at a blocking point (HEADER_DELIVERY,
R354). At most max(LANES, 256) go in one delivery. -/
def State.deliverHeader (s : State) (i : Nat) : State :=
  let t := s.team i
  if t.headerRecs.isEmpty || t.handler || t.delivery.isSome || t.faulty.isSome then s
  else
    let n := max t.lanes 256
    let at_ := match t.clause with | some o => o.header | none => t.pc
    let rs := (t.headerRecs.take n).map fun r => if r.named then r else { r with clause := at_ }
    let s1 := s.withTeam i fun t =>
      { t with headerRecs := t.headerRecs.drop n, stalled := 0, declared := [] }
    let resume := { t.here false false with progress := t.progress }
    (s1.withTeam i fun t => t.withProgress {}).deliver i rs resume

/-! ## Teams that may issue -/

/-- A page request holds the team (R346). -/
def Team.held (t : Team) : Bool := t.block.any fun b => !b.rids.isEmpty

/-- The team is resident and nothing holds it for good: neither parked, nor behind a PARK entry,
nor a page request, nor the baton it held when it was saved, nor, with every lane exited, faults of an
instruction in flight (R24; log 25). -/
def State.awake (s : State) (i : Nat) : Bool :=
  match SMap.find s.teams i with
  | none => false
  | some t =>
    decide (t.place = .resident) && !t.parked && !t.parkWait && !t.held && !(t.spent && t.faulty.isSome) &&
      (!t.keptKey || decide ((s.core t.core).latch = .free))

/-- An instruction whose window is used up has not completed (R23). -/
def Team.windowShut (t : Team) : Bool := t.ops.any fun o => o.window == some 0

/-- The team could issue now. -/
def State.eligible (s : State) (i : Nat) : Bool :=
  s.awake i && (s.team i).block.isNone && (s.team i).delivery.isNone && !(s.team i).windowShut

/-- Other teams of a team's core that could issue now. -/
def State.others (s : State) (i : Nat) : List Nat :=
  (s.teams.filter fun t => t.1 != i && t.2.core == (s.team i).core && s.eligible t.1).map (·.1)

/-- The team stands at the end of a clause, behind a sys.yield: it goes behind the others, and a
save in SEEK takes it there in full (R372). -/
def State.goBehind (s : State) (i : Nat) : State :=
  let s1 := s.withTeam i fun t => { t with behind := s.others i }
  if (s1.ctxOf i).state = .seek then s1.saveTeam i (BitVec.allOnes 240) true else s1

/-- A sys.yield takes effect (R372). -/
def State.giveWay (s : State) (i : Nat) : State := (s.withTeam i fun t => { t with gaveUp := false }).goBehind i

/-! ## Retirement -/

/-- The address of the header after a clause (R17). -/
def OpenClause.next (o : OpenClause) : Word := o.header + BitVec.ofNat 64 (8 * (1 + o.words.length))

/-- Return from the handler (R369), at the end of a clause that held sys.eret: `drop` ends the
lanes of the delivery's records, `skip` passes the faulting instruction over. Callee lanes that
`drop` ends return their parents (R92). -/
def State.eret (s : State) (i mod : Nat) : State :=
  let t := s.team i
  let drop := if mod % 2 = 1 then maskOf ((t.handled.filter fun r => !r.hdr || r.logged).map (·.lane)) else 0
  let lanes := lanesIn t.lanes (drop &&& ~~~t.exited)
  let skips := decide (2 ≤ mod) && t.rpc.faulted
  let idx := t.rpc.index + (if skips then 1 else 0)
  let left : Progress := if skips then {} else t.rpc.progress
  let s1 := s.withTeam i fun t =>
    { t.withProgress left with
      exited := t.exited ||| (drop &&& lanesMask t.lanes)
      exm := t.exm &&& ~~~drop
      stack := t.stack.map fun e => { e with mask := e.mask &&& ~~~drop }
      handler := false, causeCount := 0, causeOrigin := 0, causeCode := 0, handled := []
      gaveUp := t.rpc.gaveUp
      clause := none, after := t.rpc.after, returning := none, pc := t.rpc.clause, skip := idx }
  lanes.foldl (fun s l =>
    match (s.team i).tasks[l]? with
    | some k =>
      if t.origin = 2 then s.returnsTo i k.parent k.lane else s
    | none => s) s1

/-- Lanes that a task runs retire its share of the queue location's count as they exit (R259,
R274). -/
def State.exitShares (s : State) (i : Nat) (lanes : List Nat) : State :=
  let t := s.team i
  if t.origin = 1 then
    lanes.foldl (fun s _ =>
      let t := s.team i
      match t.holds.find? (·.task) with
      | some h =>
        let s1 := s.owes t.asid ⟨t.timeline, h.loc, h.stamp, 1, s.whenDrained i⟩
        s1.withTeam i fun t =>
          let hs := t.holds.map fun k => if k = h then { k with share := k.share - 1 } else k
          { t with holds := hs.filter fun k => decide (0 < k.share) }
      | none => s) s
  else s

/-- Control leaves the open clause: a sys.eret takes effect, or a transfer does, or the next clause follows
(R18, R20, R369; log 25). A sys.yield of a clause that holds a sys.eret takes effect behind that (R372). -/
def State.endClause (s : State) (i : Nat) (o : OpenClause) : State :=
  let t := s.team i
  match t.returning, t.after with
  | some m, _ =>
    let drop := if m % 2 = 1 then maskOf ((t.handled.filter fun r => !r.hdr || r.logged).map (·.lane)) else 0
    let s1 := (s.eret i m).exitShares i (lanesIn t.lanes (drop &&& ~~~t.exited))
    if t.gaveUp && !(s1.team i).spent then s1.goBehind i else s1
  | none, some (.jump a) => s.withTeam i fun t => { t with clause := none, after := none, pc := a }
  | none, some (.yield h a) => s.withTeam i fun t => { t with clause := none, after := some (.yield h a), pc := a }
  | none, none => s.withTeam i fun t => { t with clause := none, after := none, pc := o.next }

/-- The instruction at issue retires: the team goes on to the next word of its clause, or out of
the clause (R20, R32). -/
def State.retire (s : State) (i : Nat) : State :=
  let s1 := s.closeInstr i
  match (s1.team i).clause with
  | none => s1.endIfSpent i
  | some o =>
    if o.idx + 1 < o.words.length then
      (s1.withTeam i fun t => { t with clause := some { o with idx := o.idx + 1 } }).endIfSpent i
    else (s1.endClause i o).endIfSpent i

/-- The team stands at a blocking point, where a save in SEEK takes it; else records that wait are
delivered there (R187, R354, R358, R360). -/
def State.stand (s : State) (i : Nat) (b : Block) : State :=
  let s1 := s.withTeam i fun t => { t with block := some b, reissue := true }
  if (s1.ctxOf i).state = .seek then s1.seekSave i
  else if b.point && !b.held then s1.deliverHeader i else s1

/-- What becomes of the team at issue once its instruction's action has run. -/
def conclude (i : Nat) (r : Except Stop Unit × State) : State :=
  match r.1 with
  | .ok _ => r.2.retire i
  | .error (.block b) => r.2.stand i b
  | .error (.trap rs) => r.2.trapInstr i rs
  | .error .gone => r.2

/-- A core instruction's meaning: its action, for the team at issue, then its conclusion. -/
def runCore (act : Act Unit) (s : State) : Host.Outcome State Fault Refusal :=
  match s.cur with
  | none => .fault .noIssuer
  | some i =>
    match SMap.find s.teams i with
    | none => .fault .noIssuer
    | some _ => .next (conclude i (act.go s))

end Sys2Proof.Machine
end

