-- ==== Sys2Proof/Machine/Operands.lean ====
section
/-! DEFINITION. Operand forms: scalar and lane sources with the use of poisoned registers, scalar
results, types and widths, sign extension, and the active lanes of an instruction. -/

namespace Sys2Proof.Machine

/-! ## Widths (R60, R74) -/

/-- Width of a type in bits (R60). -/
def tyWidth (ty : Ty) : Nat :=
  match ty with
  | .i8 | .n8 | .e4m3 | .e5m2 => 8
  | .i16 | .n16 | .f16 | .bf16 => 16
  | .i32 | .n32 | .f32 => 32
  | .e2m1 => 4
  | _ => 64
/-- A signed integer type. -/
def tySigned (ty : Ty) : Bool := ty.code < 4
/-- A type that takes a pair of lane registers. -/
def tyWide (ty : Ty) : Bool := is64 ty.code
/-- Width in bytes. -/
def tyBytes (ty : Ty) : Nat := tyWidth ty / 8

/-- The low `w` bits as a number. -/
def lowBits (w : Nat) (x : Word) : Nat := x.toNat % 2 ^ w
/-- The low `w` bits as a signed number. -/
def lowInt (w : Nat) (x : Word) : Int := (BitVec.ofNat w x.toNat).toInt
/-- The low `w` bits read as the type reads them. -/
def asTyped (ty : Ty) (x : Word) : Int :=
  if tySigned ty then lowInt (tyWidth ty) x else (lowBits (tyWidth ty) x : Int)
/-- A result of width `w`, sign- or zero-extended to 64 bits (R74). -/
def extendTo (sgn : Bool) (w : Nat) (x : Nat) : Word :=
  if sgn then BitVec.ofInt 64 (BitVec.ofNat w x).toInt else BitVec.ofNat 64 (x % 2 ^ w)
/-- The immediate of the I form, sign-extended (R61). -/
def immOf (f : IForm) : Word := f.imm.signExtend 64
/-- The target of a branch at an address (R61). -/
def targetOf (here : Word) (f : BForm) : Word := here + (f.imm.signExtend 64 <<< 3)

/-- The address of the word at issue. -/
def Team.wordAt (t : Team) : Word :=
  match t.clause with
  | some o => o.header + BitVec.ofNat 64 (8 * (1 + o.idx))
  | none => t.pc
/-- The address of the header after the open clause. -/
def Team.nextHeader (t : Team) : Word :=
  match t.clause with
  | some o => o.next
  | none => t.pc

/-! ## Scalar operands -/

/-- Trap when a scalar source is poisoned (R357). -/
def usePoison (r : Reg) : Act Unit := do
  let t ← tm
  match r with
  | .s n => if t.poisonS n = 0 then pure () else trap (t.poisonRec 0 r (t.poisonS n))
  | _ => pure ()
/-- Trap when one of `n` scalar registers from one on is poisoned. -/
def usePoisons (r : Reg) (n : Nat) : Act Unit := do
  match r with
  | .s b => (List.range n).forM fun i => do
      let t ← tm
      if t.poisonS (b + i) = 0 then pure ()
      else
        let spec := Reg.ofByte (BitVec.ofNat 8 (0x80 + b + i))
        trap (t.poisonRec 0 spec (t.poisonS (b + i)))
  | _ => pure ()

/-- A scalar source that is no queue, in full (R62). -/
def Team.scalar (t : Team) (teams : Nat) (r : Reg) : Word :=
  match r with
  | .s n => t.getS n
  | .a n => (t.getA n).setWidth 64
  | .teamix => BitVec.ofNat 64 t.teamix
  | .teams => BitVec.ofNat 64 teams
  | _ => 0

/-- Read a scalar source that admits S, A, ZERO, TEAMIX and TEAMS; poison is used (R357). -/
def sread (r : Reg) : Act Word := do
  usePoison r
  let s ← get
  let t ← tm
  return t.scalar (s.teamsOf t) r

/-- The register behind a scalar one: S[n + i]. -/
def sreadAt (r : Reg) (i : Nat) : Act Word := do
  match r with
  | .s n => do
    let t ← tm
    return t.getS (n + i)
  | _ => return 0

/-- Write a scalar result: S takes it in full, A its low 8 bits, ZERO discards it (R74). -/
def swrite (r : Reg) (x : Word) : Act Unit :=
  match r with
  | .s n => modTm fun t => t.setS n x
  | .a n => modTm fun t => t.setA n (x.setWidth 8)
  | _ => pure ()
/-- Write S[n + i]. -/
def swriteAt (r : Reg) (i : Nat) (x : Word) : Act Unit :=
  match r with
  | .s n => modTm fun t => t.setS (n + i) x
  | _ => pure ()

/-! ## Lane operands (R62, R98) -/

/-- A source of a lane at 64 bits: a pair for a 64-bit operand in V, the register zero-extended
otherwise; the same scalar in every lane. -/
def Team.lsrc (t : Team) (teams lane : Nat) (wide : Bool) (r : Reg) : Word :=
  match r with
  | .v n => if wide then t.getPair lane n else (t.getV lane n).setWidth 64
  | .lane => BitVec.ofNat 64 lane
  | r => t.scalar teams r

/-- The first poisoned register among the `n` that a source takes, with its ORIGIN code. -/
def Team.lpoison (t : Team) (lane n : Nat) (r : Reg) : Option (Reg × Nat) :=
  match r with
  | .v b =>
    ((List.range n).find? fun i => t.poisonV lane (b + i) != 0).map fun i =>
      (Reg.ofByte (BitVec.ofNat 8 (b + i)), t.poisonV lane (b + i))
  | .s b => if t.poisonS b = 0 then none else some (r, t.poisonS b)
  | _ => none

/-- How many registers a lane source takes. -/
def srcRegs (wide : Bool) (r : Reg) : Nat := match r with | .v _ => if wide then 2 else 1 | _ => 1

/-- The first poisoned source of a list, each with its count of registers, in operand order. -/
def Team.firstPoison (t : Team) (lane : Nat) (uses : List (Reg × Nat)) : Option (Reg × Nat) :=
  uses.findSome? fun u => t.lpoison lane u.2 u.1

/-- Write a lane result: a pair for a 64-bit one (R98). -/
def Team.ldst (t : Team) (lane : Nat) (wide : Bool) (r : Reg) (x : Word) : Team :=
  match r with
  | .v n => if wide then t.setPair lane n x else t.setV lane n (x.setWidth 32)
  | _ => t

/-- The address of a lane: an even V pair, or a scalar the same in every lane (R185). -/
def Team.laneAddr (t : Team) (lane : Nat) (r : Reg) : Word :=
  match r with
  | .v n => t.getPair lane n
  | .s n => t.getS n
  | _ => 0
/-- A 32-bit operand of a lane, such as a scratchpad offset (R185). -/
def Team.laneWord (t : Team) (lane : Nat) (r : Reg) : Nat :=
  match r with
  | .v n => (t.getV lane n).toNat
  | .s n => (t.getS n).toNat % 2 ^ 32
  | _ => 0

/-- The record of a lane's fault at the word at issue. -/
def Team.laneRec (t : Team) (lane : Nat) (c : Cause) (detail : Nat) : Rec :=
  { t.record c detail with lane := lane }

/-- End an instruction that has served its lanes: trap with their records, in ascending lane
order, if there are any (R354). -/
def finishLanes (rs : List Rec) : Act Unit := if rs.isEmpty then pure () else throw (.trap rs)

/-! ## Instructions in flight (R23) -/

/-- A team after results in registers and flags raised. -/
def Team.putResults (t : Team) (rs : List Result) (fpf dcf : BitVec 5) : Team :=
  let u := rs.foldl Team.land t
  { u with fpf := u.fpf ||| fpf, dcf := u.dcf ||| dcf }

/-- Results of a long-latency instruction: they land at once under LA 0, else they stay in flight
and the next LA instructions may issue before them. Flags follow them (R136), and faults are reported
when it completes (R24). -/
def deliverResults (la : BitVec 4) (rs : List Result) (fpf dcf : BitVec 5) (faults : List Rec := []) : Act Unit := do
  if la = 0 then
    modTm fun t => t.putResults rs fpf dcf
    finishLanes faults
  else
    let i ← fresh
    let stays (r : Result) : Bool := match r.dst with | .v _ _ => true | .s _ => false
    modTm fun t =>
      let t' := (rs.filter fun r => !stays r).foldl Team.land t
      let op : Op :=
        { ident := i, window := some la.toNat, results := rs.filter stays, fpf := fpf.toNat, dcf := dcf.toNat
          matrix := t.clause.any (·.eng == 2), faults := faults, resume := t.here false true }
      { t' with ops := t'.ops ++ [op] }

/-- The results of a lane's value in a V destination, one register or a pair. -/
def resultsAt (lane : Nat) (wide : Bool) (r : Reg) (x : Word) (poison : Nat := 0) : List Result :=
  match r with
  | .v n =>
    if wide then
      [⟨.v lane n, (x.extractLsb' 0 32).setWidth 64, poison⟩,
        ⟨.v lane (n + 1), (x.extractLsb' 32 32).setWidth 64, poison⟩]
    else [⟨.v lane n, (x.extractLsb' 0 32).setWidth 64, poison⟩]
  | _ => []

end Sys2Proof.Machine
end

