-- ==== Sys2Proof/Machine/Mem.lean ====
section
/-! DEFINITION. The mem instructions (R183 to R198, R210 to R227): split-phase loads, stores, the
scratchpad, atomics, fences, publication, operator tables and Mortar operations. -/

namespace Sys2Proof.Machine

/-! ## Lane addresses -/

/-- Elements of an instruction with an `n` in MOD (R185). -/
def elemsOf (f : TForm) : Nat := f.mod.toNat + 1
/-- Registers that an address operand takes. -/
def addrUse (r : Reg) : Reg × Nat := (r, srcRegs true r)

/-- What a lane's elements reach: every key, a trap, or a wait for page requests. -/
inductive LaneReach
  | ok (keys : List Reached)
  | trap (r : Rec)
  | wait (rids : List Nat)
  deriving DecidableEq, Repr

/-- Reach the elements of a lane from a base address (R188, R191). A lane with an element outside the canonical
space walks for none of them (R331). -/
def reachLane (lane : Nat) (base : Word) (n size : Nat) (need : Need) (access : Nat) (logged : Bool) :
    Act LaneReach := do
  let t ← tm
  let i ← me
  let at_ (k : Nat) : Word := base + BitVec.ofNat 64 (k * size)
  let record (k : Nat) (c : Cause) (d : Nat) : Rec :=
    { t.laneRec lane c d with ea := at_ k, size := size, store := logged || need.w, load := !need.w }
  if let some k := (List.range n).find? fun k => !canonical (at_ k) then return .trap (record k .nomap 1)
  let rs ← (List.range n).mapM fun k => reach (.lane i lane) (at_ k) need access true logged
  let bad := ((List.range n).zip rs).findSome? fun p =>
    match p.2 with
    | .trap c d => some (record p.1 c d)
    | _ => none
  match bad with
  | some r => return .trap r
  | none =>
    if rs.any fun r => match r with | .wait _ => true | _ => false then
      return .wait (rs.flatMap fun r => match r with | .wait ids => ids | _ => [])
    else return .ok rs

/-- The keys of a lane whose every element was reached. -/
def keysOf (rs : List Reached) : List Nat := rs.map fun r => match r with | .key k _ => k | _ => 0

/-- Mark a lane as served. -/
def serve (lane : Nat) : Act Unit := modTm fun t => { t with served := t.served ||| laneBit lane }

/-- The lanes of an instruction not yet served, ascending. -/
def lanesLeft (km : Nat) : Act (List Nat) := do
  let t ← tm
  return (t.lanesOf km).filter fun l => !t.served.getLsbD l

/-- A lane's checks before its address is used: POISON on what it reads, then MISALIGN (R188). -/
def laneChecks (t : Team) (lane : Nat) (uses : List (Reg × Nat)) (base size : Nat) (st ld : Bool) : Option Rec :=
  match t.firstPoison lane uses with
  | some (r, o) => some (t.poisonRec lane r o)
  | none =>
    if base % size != 0 then
      some { t.laneRec lane .misalign 0 with ea := BitVec.ofNat 64 base, size := size, store := st, load := ld }
    else none

/-! ## mem.ldi and mem.await (R188 to R190) -/

/-- The operation in flight of the open instruction, opened when it first issues. -/
def openOp (counter : Option Nat) : Act Nat := do
  let g ← groupOf
  modTm fun t =>
    if t.ops.any fun o => o.ident == g then t
    else { t with ops := t.ops ++ [{ ident := g, counter := counter, mortar := 1 }] }
  return g

/-- Add a load part to an operation in flight. -/
def addPart (op : Nat) (p : Part) : Act Unit :=
  modTm fun t => { t with ops := t.ops.map fun o => if o.ident = op then { o with parts := o.parts ++ [p] } else o }

/-- One lane of mem.ldi: its record if it traps, the requests it waits on otherwise. -/
def ldiLane (f : TForm) (op lane : Nat) : Act (Option Rec × List Nat × Bool) := do
  let t ← tm
  let size := tyBytes f.ty
  let base := t.laneAddr lane f.a
  match laneChecks t lane [addrUse f.a] base.toNat size false true with
  | some r => return (some r, [], false)
  | none =>
    match ← reachLane lane base (elemsOf f) size { r := true } accRead false with
    | .trap r => return (some r, [], false)
    | .wait ids => return (none, ids, true)
    | .ok rs => do
      let d := match f.d with | .v n => n.val | _ => 0
      let step := if tyWide f.ty then 2 else 1
      ((List.range (elemsOf f)).zip (keysOf rs)).forM fun p =>
        addPart op ⟨lane, .v lane (d + step * p.1), p.2, size, tySigned f.ty⟩
      serve lane
      return (none, [], false)

/-- mem.ldi (R188). -/
def memLdi (f : TForm) : Act Unit := do
  let counter := match f.b with | .a n => n.val | _ => 0
  let op ← openOp (some counter)
  let rs ← (← lanesLeft f.km.val).mapM (ldiLane f op)
  if rs.any (·.2.2) then blockAt { rids := rs.flatMap (·.2.1), held := true }
  let i ← me
  modify fun (s : State) => s.ackOp i op
  finishLanes (rs.filterMap (·.1))

/-- The arrival test (R19, R190). -/
def reached (a : BitVec 8) (t : Nat) : Bool := (a - BitVec.ofNat 8 t).toNat < 128

/-- mem.await (R190). -/
def memAwait (f : TForm) : Act Unit := do
  let t ← tm
  let n := match f.a with | .a n => n.val | _ => 0
  if !reached (t.getA n) f.c.code then blockAt { detail := 7 }

/-! ## mem.st (R191) -/

/-- The bytes of element `k` of a store's data (R185). -/
def Team.storeData (t : Team) (lane : Nat) (ty : Ty) (r : Reg) (k : Nat) : List Byte :=
  let size := tyBytes ty
  match r with
  | .v n =>
    if tyWide ty then leBytes size (t.getPair lane (n + 2 * k)).toNat
    else leBytes size (t.getV lane (n + k)).toNat
  | .s n => leBytes size (t.getS (n + k)).toNat
  | _ => zeros size

/-- The data registers a store reads, one by one. -/
def dataUses (ty : Ty) (n : Nat) (r : Reg) : List (Reg × Nat) :=
  match r with
  | .v _ => [(r, if tyWide ty then 2 * n else n)]
  | .s b => (List.range n).map fun i => (Reg.ofByte (BitVec.ofNat 8 (0x80 + b.val + i)), 1)
  | _ => []

/-- One lane of mem.st. -/
def stLane (f : TForm) (lane : Nat) : Act (Option Rec) := do
  let t ← tm
  let size := tyBytes f.ty
  let base := t.laneAddr lane f.a
  match laneChecks t lane (dataUses f.ty (elemsOf f) f.d ++ [addrUse f.a]) base.toNat size true false with
  | some r => return some r
  | none =>
    match ← reachLane lane base (elemsOf f) size { w := true } accWrite true with
    | .trap r => return some r
    | .wait ids => blockAt { rids := ids, held := true }
    | .ok rs => do
      let logged := (rs.filter fun r => match r with | .log _ _ _ => true | _ => false).length
      if 256 < ((← get).core t.core).log.length + logged then blockAt { held := true }
      ((List.range (elemsOf f)).zip rs).forM fun p => do
        let va := base + BitVec.ofNat 64 (p.1 * size)
        let bs := t.storeData lane f.ty f.d p.1
        match p.2 with
        | .key k _ => issueWrite 0 lane va k bs
        | .log c d rid =>
          sideLog { kind := 0, team := 0, unit := 0, asid := 0, timeline := 0, va := va, size := Nat.log2 size,
                    data := BitVec.ofNat 64 (leNat bs), gen := 0, cause := c, detail := d, lane := lane, rid := rid }
        | _ => pure ()
      serve lane
      return none

/-- mem.st (R191): one DRAIN unit; a lane whose walk fails goes to the side log. -/
def memSt (f : TForm) : Act Unit := do
  let _ ← unitOf
  let rs ← (← lanesLeft f.km.val).mapM (stLane f)
  finishLanes (rs.filterMap id)

/-! ## The scratchpad (R183, R192 to R194) -/

/-- The allocation of the team's launch on its core. -/
def State.allocOf (s : State) (t : Team) : Alloc :=
  ((s.core t.core).allocs.find? fun a => decide (a.launch = t.launch)).getD { launch := t.launch, size := 0 }
/-- Change it. -/
def State.withAlloc (s : State) (core : Nat) (l : LaunchId) (f : Alloc → Alloc) : State :=
  s.withCore core fun c => { c with allocs := c.allocs.map fun a => if a.launch = l then f a else a }
/-- Bytes of scratchpad a team may address: its own descriptor's SCRATCH, with what rg.grow added
for a launch team (R183, R301). -/
def State.scratchOf (s : State) (t : Team) : Nat :=
  let a := (s.allocOf t).size
  if t.origin = 0 then a else min a t.desc.scratch
/-- Bytes of an allocation. -/
def Alloc.read (a : Alloc) (off n : Nat) : List Byte :=
  (List.range n).map fun i => SMap.val a.bytes 0 (off + i)
/-- Write bytes of an allocation; their poison goes, or comes with the given ORIGIN code. -/
def Alloc.write (a : Alloc) (off : Nat) (bs : List Byte) (poison : Nat := 0) : Alloc :=
  ((List.range bs.length).zip bs).foldl (fun a p =>
    { a with bytes := SMap.set 0 a.bytes (off + p.1) p.2, poison := SMap.set 0 a.poison (off + p.1) poison }) a
/-- Whether every line of a range is full (R193). -/
def Alloc.full (a : Alloc) (off n : Nat) : Bool :=
  a.empties.all fun l => !meets (128 * l) 128 off n
/-- ORIGIN code of the first poisoned byte of a range. -/
def Alloc.poisonIn (a : Alloc) (off n : Nat) : Nat :=
  if a.poison.isEmpty then 0 else ((List.range n).findSome? fun i => SMap.find a.poison (off + i)).getD 0

/-- A lane's checks of a scratchpad range: POISON, MISALIGN, SCRATCH (R192). -/
def scratchChecks (t : Team) (limit lane : Nat) (uses : List (Reg × Nat)) (off n size : Nat) (st : Bool) : Option Rec :=
  match laneChecks t lane uses off size st (!st) with
  | some r => some r
  | none =>
    if limit < off + n * size then
      some { t.laneRec lane .scratch 0 with ea := BitVec.ofNat 64 off, size := size, store := st, load := !st }
    else none

/-- A loaded value in its register or pair, extended as its type says (R98). -/
def loadedAt (ty : Ty) (lane d k : Nat) (bs : List Byte) (poison : Nat) : List Result :=
  let v := leNat bs
  if tyWide ty then
    [⟨.v lane (d + 2 * k), BitVec.ofNat 64 (v % 2 ^ 32), poison⟩,
      ⟨.v lane (d + 2 * k + 1), BitVec.ofNat 64 (v / 2 ^ 32), poison⟩]
  else [⟨.v lane (d + k), BitVec.ofNat 64 ((extendTo (tySigned ty) (tyWidth ty) v).toNat % 2 ^ 32), poison⟩]

/-- mem.lds (R192): waits for the lines of every lane that does not trap, then reads. -/
def memLds (f : TForm) : Act Unit := do
  let t ← tm
  let s ← get
  let size := tyBytes f.ty
  let n := elemsOf f
  let a := s.allocOf t
  let limit := s.scratchOf t
  let check (l : Nat) : Option Rec := scratchChecks t limit l [(f.a, 1)] (t.laneWord l f.a) n size false
  let good := (t.lanesOf f.km.val).filter fun l => (check l).isNone
  if !(good.all fun l => a.full (t.laneWord l f.a) (n * size)) then blockAt {}
  let late (l : Nat) : Option Rec :=
    let p := a.poisonIn (t.laneWord l f.a) (n * size)
    if p = 0 then none
    else some { t.laneRec l .poison 0 with ea := BitVec.ofNat 64 (t.laneWord l f.a), size := size, load := true, origin := p }
  let d := match f.d with | .v n => n.val | _ => 0
  let rs := (good.filter fun l => (late l).isNone).flatMap fun l =>
    (List.range n).flatMap fun k => loadedAt f.ty l d k (a.read (t.laneWord l f.a + k * size) size) 0
  deliverResults f.la rs 0 0
  finishLanes ((t.lanesOf f.km.val).filterMap fun l => match check l with | some r => some r | none => late l)

/-- mem.sts (R192): never waits; lanes in ascending order. -/
def memSts (f : TForm) : Act Unit := do
  let t ← tm
  let s ← get
  let size := tyBytes f.ty
  let n := elemsOf f
  let limit := s.scratchOf t
  let check (l : Nat) : Option Rec :=
    scratchChecks t limit l (dataUses f.ty n f.d ++ [(f.a, 1)]) (t.laneWord l f.a) n size true
  let good := (t.lanesOf f.km.val).filter fun l => (check l).isNone
  modify fun (s : State) => s.withAlloc t.core t.launch fun a =>
    good.foldl (fun a l => (List.range n).foldl (fun a k =>
      a.write (t.laneWord l f.a + k * size) (t.storeData l f.ty f.d k)) a) a
  finishLanes ((t.lanesOf f.km.val).filterMap check)

/-- mem.fe (R194). -/
def memFe (f : TForm) : Act Unit := do
  let t ← tm
  let s ← get
  let limit := s.scratchOf t
  let lanes := t.lanesOf f.km.val
  let check (l : Nat) : Option Rec :=
    match t.firstPoison l [(f.a, 1)] with
    | some (r, o) => some (t.poisonRec l r o)
    | none =>
      if limit ≤ t.laneWord l f.a then
        some { t.laneRec l .scratch 0 with ea := BitVec.ofNat 64 (t.laneWord l f.a) }
      else none
  let good := lanes.filter fun l => (check l).isNone
  let bad := lanes.filter fun l => (check l).isSome
  match f.mod.toNat % 4 with
  | 0 =>
    let a := s.allocOf t
    let isFull (l : Nat) : Bool := !a.empties.contains (t.laneWord l f.a / 128)
    match f.d with
    | .k n =>
      modTm fun t => t.setK n.val ((t.getK n.val &&& maskOf bad) ||| maskOf (good.filter isFull))
    | .v n => modTm fun t => good.foldl (fun t l => t.setV l n.val (if isFull l then 1 else 0)) t
    | _ => pure ()
  | 1 =>
    modify fun (s : State) => s.withAlloc t.core t.launch fun a =>
      { a with empties := a.empties.filter fun e => !(good.any fun l => t.laneWord l f.a / 128 == e) }
  | _ =>
    modify fun (s : State) => s.withAlloc t.core t.launch fun a =>
      let lines := good.map fun l => t.laneWord l f.a / 128
      { a with empties := lines.foldl (fun es e => if es.contains e then es else es ++ [e]) a.empties }
  finishLanes (lanes.filterMap check)

/-! ## mem.atom (R195) -/

/-- The new value of a word. -/
def atomFn (ty : Ty) (op : Nat) (v b c : Nat) : Nat :=
  let w := tyWidth ty
  let sg (x : Nat) : Int := if tySigned ty then (BitVec.ofNat w x).toInt else (x : Int)
  match op with
  | 0 => (v + b) % 2 ^ w
  | 1 => if sg b < sg v then b else v
  | 2 => if sg v < sg b then b else v
  | 3 => Nat.land v b
  | 4 => Nat.lor v b
  | 5 => Nat.xor v b
  | 6 => b
  | _ => if v = c then b else v

/-- How a lane of mem.atom ends. -/
inductive AtomLane
  | done (rs : List Result)
  | trap (r : Rec)
  /-- It waits for page requests. -/
  | page (rids : List Nat)
  /-- It waits for an earlier access of the team to take effect on its word, at the slice of a number. -/
  | behind (slice : Nat)
  deriving DecidableEq, Repr

/-- A device-scope atomic as one step at its slice: the word before and the code of its poison (R195). -/
def atomDevice (f : TForm) (key b c asid : Nat) : Act (Nat × Nat) := do
  let size := tyBytes f.ty
  let (old, p) ← readSlice key size
  let v := leNat old
  modify fun (s : State) => s.storeKept key (leBytes size (atomFn f.ty (f.mod.toNat % 8) v b c)) asid
  return (v, p)

/-- A team-scope atomic as a load and a store on the lane path: the word before and the code of its poison,
for which the word counts as 0 (R195, R357). -/
def atomTeam (f : TForm) (i lane key : Nat) (va : Word) (b c : Nat) : Act (Nat × Nat) := do
  let size := tyBytes f.ty
  let g ← groupOf
  let n ← nextFree
  let (old, p) ← loadAt i (g + 1) key size (Config.cacheHit n)
  let v := if p = 0 then leNat old else 0
  issueWrite 0 lane va key (leBytes size (atomFn f.ty (f.mod.toNat % 8) v b c)) false
  return (v, p)

/-- One lane of mem.atom. An atomic needs the permission W (R334). `shut` are the slices at which a lower lane
waits: a device-scope lane does not go ahead of it there (R30). -/
def atomLane (f : TForm) (shut : List Nat) (lane : Nat) : Act AtomLane := do
  let t ← tm
  let s ← get
  let i ← me
  let size := tyBytes f.ty
  let wide := tyWide f.ty
  let dev := !f.mod.getLsbD 3
  let base := t.laneAddr lane f.a
  let cas := if f.mod.toNat % 8 = 7 then [(f.c, srcRegs wide f.c)] else []
  match laneChecks t lane ([addrUse f.a, (f.b, srcRegs wide f.b)] ++ cas) base.toNat size true true with
  | some r => return .trap r
  | none =>
    if dev && s.detOf t then
      return .trap { t.laneRec lane .determ 0 with ea := base, size := size, store := true, load := true }
    match ← reachLane lane base 1 size { w := true, use := if dev then 5 else 0 } (accRead + accWrite) false with
    | .trap r => return .trap { r with load := true }
    | .wait ids => return .page ids
    | .ok rs => do
      let key := (keysOf rs).headD 0
      let s ← get
      let g ← groupOf
      if !dev && (!s.rangeLanded i key size || !s.mayLoad i (g + 1) key size) then return .behind (sliceAt key)
      if dev && (shut.contains (sliceAt key) || s.mortarIn.any fun m => m.team == i && meets m.key m.size key size) then
        return .behind (sliceAt key)
      let w := tyWidth f.ty
      let b := lowBits w (t.lsrc 0 lane wide f.b)
      let c := lowBits w (t.lsrc 0 lane wide f.c)
      let (v, p) ← if dev then atomDevice f key b c t.asid else atomTeam f i lane key base b c
      serve lane
      return .done (resultsAt lane wide f.d (extendTo (tySigned f.ty) w (if p = 0 then v else 0)) p)

/-- The lanes of mem.atom, ascending (R30). -/
def atomLanes (f : TForm) : List Nat → List Nat → Act (List AtomLane)
  | _, [] => return []
  | shut, l :: rest => do
    let r ← atomLane f shut l
    return r :: (← atomLanes f (match r with | .behind k => k :: shut | _ => shut) rest)

/-- mem.atom (R195). The lanes served keep their effects and their results while others wait. -/
def memAtom (f : TForm) : Act Unit := do
  if !f.mod.getLsbD 3 then
    let _ ← unitOf
    pure ()
  let rs ← atomLanes f [] (← lanesLeft f.km.val)
  let results := rs.flatMap fun r => match r with | .done x => x | _ => []
  let pages := rs.filter fun r => match r with | .page _ => true | _ => false
  if !pages.isEmpty then
    modTm fun t => results.foldl Team.land t
    blockAt { rids := pages.flatMap fun r => match r with | .page ids => ids | _ => [], held := true }
  if rs.any fun r => match r with | .behind _ => true | _ => false then
    modTm fun t => results.foldl Team.land t
    blockAt { point := false }
  deliverResults f.la results 0 0
  finishLanes (rs.filterMap fun r => match r with | .trap r => some r | _ => none)

/-! ## Fences and publication (R196 to R198) -/

/-- Every earlier write of a team on the lane and front paths is accepted; staged ones count as
done (R196, R291). -/
def State.lanesQuiet (s : State) (i : Nat) : Bool :=
  !(s.writes.any fun w => w.team == i && w.path < 2) &&
    !((s.core (s.team i).core).log.any fun e => e.team == i && e.kind < 2)
/-- Every earlier load of a team has landed. -/
def State.loadsQuiet (s : State) (i : Nat) : Bool := (s.team i).ops.all fun o => o.parts.isEmpty

/-- A fence of a team, for what the ticket unit stages: it keeps the order that the fence gives (R234, R291). -/
def State.stageFence (s : State) (i from_ to_ : Nat) : State :=
  if s.detOf (s.team i) then
    s.withTeam i fun t => { t with staged := t.staged ++ [.fence from_ to_ t.issued s.serial] }
  else s

/-- mem.fence (R196). -/
def memFence (f : TForm) : Act Unit := do
  let i ← me
  let s ← get
  let scope := f.mod.toNat % 4
  let kind := f.mod.toNat / 4 % 4
  if kind != 2 && scope != 0 && !s.lanesQuiet i then blockAt { point := false }
  if kind != 1 && !s.loadsQuiet i then blockAt { point := false }
  if kind != 1 && scope != 0 then modify fun (s : State) => s.acquire i
  if kind != 2 && scope != 0 then modify fun (s : State) => s.stageFence i 3 3

/-- Every earlier access of a team on the paths of a mask is performed (R197). For the copy path every
copy to which it has contributed has completed, a collective as a whole; a unit that is staged counts as
done (R291). -/
def State.pathsQuiet (s : State) (i from_ : Nat) : Bool :=
  let on (b : Nat) : Bool := bitOf from_ b
  let part (c : Copy) : Bool := c.team == i || c.handles.any fun h => h.1 == i
  (!(on 0 || on 1) || (s.lanesQuiet i && s.loadsQuiet i)) &&
    (!on 2 || (!(s.copies.any fun c => part c.2 && c.2.kind != 1 && s.copyOwed c.2) &&
      !((s.core (s.team i).core).colls.any fun k => k.slices.any fun x => x.team == i))) &&
    (!on 3 || !(s.copies.any fun c => c.2.team == i && c.2.kind == 1)) &&
    (!on 4 || (!(s.cores.any fun c => c.2.wloads.any fun w => w.team == i) && (s.team i).mxq.isEmpty)) &&
    (!on 5 || (!(s.mortarIn.any fun m => m.team == i) && ((s.team i).ops.all fun o => o.mortar == 0) &&
      !((s.core (s.team i).core).log.any fun e => e.team == i && e.kind == 2))) &&
    (!on 6 || (!(s.grids.any fun g => g.2.team == i && decide (0 < g.2.blocks)) &&
      !(s.writes.any fun w => w.team == i && w.path == 6)))

/-- mem.xfence (R197). The acquire of R196 goes with a `to` that holds the lane or front path; at team scope the
team's later loads there find what the paths before it wrote, and no line filled before it (R238; log 20). -/
def memXfence (f : TForm) : Act Unit := do
  let i ← me
  let s ← get
  let acq := bitOf f.b.code 0 || bitOf f.b.code 1
  if !s.pathsQuiet i f.a.code || (acq && !s.loadsQuiet i) then blockAt { point := false }
  if acq then
    modify fun (s : State) => if f.mod.toNat % 4 = 0 then s.unsee (s.team i).core i else s.acquire i
  modify fun (s : State) => s.stageFence i f.a.code f.b.code

/-- A range of addresses of a space meets the bytes that a window shows, under any address (R198, R230). -/
def State.inWindow (s : State) (win : Window) (asid va n : Nat) : Bool :=
  let inside (a m : Nat) : Bool := meets (a % 2 ^ 57) m (win.base.toNat % 2 ^ 57) win.length.toNat
  (asid == win.asid && inside va n) ||
    (pagePieces va n).any fun p => (s.locOf asid p.1).any fun k => s.touches win.asid win.base.toNat win.length.toNat k p.2

/-- A write that the team has issued on any path is still to reach the bytes of a window (R198): stores,
staged ones too, side-log entries, Mortar operations, what its copies have not moved, and grids whose
blocks have not ended. -/
def State.writesInto (s : State) (i : Nat) (win : Window) : Bool :=
  let t := s.team i
  let shown (key n : Nat) : Bool := s.touches win.asid win.base.toNat win.length.toNat key n
  let stored (w : PendWrite) : Bool := w.team == i && shown w.key w.bytes.length
  let copied (c : Copy) : Bool :=
    c.team == i && (c.kind == 2 || c.kind == 3) &&
      ((c.runs.any fun r =>
          s.inWindow win c.asid (if c.kind = 2 then r.1.toNat else (c.dst + BitVec.ofNat 64 r.2.1).toNat) r.2.2) ||
        (c.done != 0 && s.inWindow win c.asid c.done.toNat 8))
  s.writes.any stored ||
    (t.staged.any fun e => match e with
      | .write w => stored w
      | .mortar m => shown m.key m.size
      | _ => false) ||
    ((s.core t.core).log.any fun e => e.team == i && s.inWindow win e.asid e.va.toNat (2 ^ e.size)) ||
    (s.mortarIn.any fun m => m.team == i && shown m.key m.size) ||
    (s.copies.any fun c => copied c.2) ||
    s.grids.any fun g => g.2.team == i && decide (0 < g.2.blocks)

/-- mem.publish (R198). -/
def memPublish (f : TForm) : Act Unit := do
  let w ← sread f.a
  let i ← me
  let t ← tm
  let s ← get
  match if w.toNat < 64 then SMap.find s.hearth.windows w.toNat else none with
  | none => fail .protect 0 w
  | some win =>
    if win.asid != t.asid then fail .protect 0 w
    if s.writesInto i win then blockAt { point := false }
    let v := win.version + 1
    modify fun (s : State) =>
      ((s.store (hostKey win.versionAt) (leBytes 8 v.toNat) 0 0).withHearth fun h =>
        { h with windows := SMap.put h.windows w.toNat { win with version := v } })
    swrite f.d v

/-! ## Operator tables (R212, R213) -/

/-- The first offending offset of each check of R212, in check order. -/
def optabChecks (b : List Byte) : List (Nat × Option Nat) :=
  let at_ (o : Nat) : Nat := bytesAt b o 1
  let ns := at_ 0
  let kind (i : Nat) : Nat := at_ (16 + 8 * i)
  let type (i : Nat) : Nat := at_ (17 + 8 * i)
  let fn (i : Nat) : Nat := at_ (18 + 8 * i)
  let flags (i : Nat) : Nat := at_ (19 + 8 * i)
  let slots := List.range 16
  let pairs := (List.range 256).map fun n => (n / 16, n % 16)
  let rel (p : Nat × Nat) : Nat := at_ (144 + 16 * p.1 + p.2) % 8
  let res (p : Nat × Nat) : Nat := at_ (144 + 16 * p.1 + p.2) / 8 % 16
  let off (p : Nat × Nat) : Nat := 144 + 16 * p.1 + p.2
  let float (i : Nat) : Bool := type i == 4 || type i == 5
  let first (os : List Nat) (bad : Nat → Bool) : Option Nat := os.find? bad
  let pairBad (bad : Nat × Nat → Bool) : Option Nat := (pairs.find? bad).map off
  let c1 := if ns = 0 || 16 < ns then some 0 else if at_ 1 != 1 then some 1
    else first ((List.range 14).map (· + 2)) fun o => at_ o != 0
  let c2 := slots.findSome? fun i =>
    first ((List.range 8).map fun k => 16 + 8 * i + k) fun o =>
      let k := (o - 16) % 8
      if i < ns then
        (k == 0 && 2 < kind i) || (k == 1 && 6 < type i) || (k == 2 && 5 < fn i) ||
          (k == 3 && 1 < flags i) || (3 < k && at_ o != 0)
      else at_ o != 0
  let c3 := (slots.filter (· < ns)).findSome? fun i =>
    let ok := flags i % 2 == 1
    let badFn :=
      if kind i != 2 then fn i != 0
      else (float i && 2 < fn i) || (type i == 6 && fn i != 0)
    let badFlag := ok && (kind i != 2 || !float i)
    if badFn then some (18 + 8 * i) else if badFlag then some (19 + 8 * i) else none
  let c4 := pairBad fun p =>
    let v := at_ (off p)
    127 < v || 5 < v % 8 || (v != 0 && (ns ≤ p.1 || ns ≤ p.2))
  let c5 := pairBad fun p =>
    (res p != 0 && rel p != 2 && rel p != 4) || ns ≤ res p
  let c6 := pairBad fun p =>
    let a := kind p.1
    let b := kind p.2
    let r := kind (res p)
    match rel p with
    | 0 => false
    | 1 => !((a == 2 && b == 2) || (a == 0 && b == 0))
    | 2 => !((a == 2 || a == 1) && b == 2 && r == a)
    | 3 => !((a == 2 || a == 1) && b == 1)
    | 4 => !(a == 2 && b == 2 && r == 2)
    | _ => !(a == 1 && b == 0)
  let c7 := pairBad fun p =>
    rel p != 0 && (type p.1 != type p.2 || ((rel p == 2 || rel p == 4) && type (res p) != type p.1))
  let c8 := pairBad fun p =>
    let fl := float p.1 && float p.2
    let both := kind p.1 == 2 && kind p.2 == 2 && fl
    let clear := flags p.1 % 2 == 0 || flags p.2 % 2 == 0
    (both && clear && (rel p == 1 || rel p == 2 || rel p == 4)) || (fl && rel p == 4)
  [(1, c1), (2, c2), (3, c3), (4, c4), (5, c5), (6, c6), (7, c7), (8, c8)]

/-- The lowest failing check of a table with the offset of its first offending byte (R212). -/
def optabFail (b : List Byte) : Option (Nat × Nat) :=
  (optabChecks b).findSome? fun c => c.2.map fun o => (c.1, o)

/-- mem.optab (R213). The table is read on the Mortar path: behind the team's own operations on its bytes
that are still under way, and behind its side-log entries of their pages (R30, R347). -/
def memOptab (f : TForm) : Act Unit := do
  let n := f.mod.toNat % 8
  let t ← tm
  match f.a with
  | .zero => modify fun (s : State) => s.withSpace t.asid fun sp => { sp with bound := SMap.del sp.bound n }
  | r => do
    let a ← sread r
    if a.toNat % 16 != 0 then fail .misalign 0 a
    let ps ← (pagePieces a.toNat 400).mapM fun p => do
      let x ← readPiece { r := true } (accRead + accMortar) (BitVec.ofNat 64 p.1) p.2 true
      return (x.1, x.2.1, p.2)
    let i ← me
    if (← get).mortarIn.any fun m => m.team == i && ps.any fun p => meets m.key m.size p.2.1 p.2.2 then
      blockAt { point := false }
    let bs := (ps.map (·.1)).flatten
    match optabFail bs with
    | some (c, o) => fail .optab c (a + BitVec.ofNat 64 o)
    | none =>
      let v ← fresh
      modify fun (s : State) => s.withSpace t.asid fun sp =>
        { sp with tables := SMap.put sp.tables v bs, bound := SMap.put sp.bound n v }

/-! ## mem.opx (R224 to R227) -/

/-- The binding of a table at the instruction's issue: one version for all its lanes (R214). -/
def bindingAt (n : Nat) : Act (Option Nat) := do
  let t ← tm
  match t.popped.find? fun p => p.1 == 1000 + n with
  | some p => return if p.2 = 0 then none else some p.2.toNat
  | none => do
    let v := SMap.val ((← get).space t.asid).bound 0 n
    modTm fun t => { t with popped := t.popped ++ [(1000 + n, BitVec.ofNat 64 v)] }
    return if v = 0 then none else some v

/-- What a selector names: the table, its version, and the slot with its fields (R214, R224). -/
structure Selected where
  table : Nat
  version : Nat
  slot : Nat
  kind : Nat
  ty : Nat
  fn : Nat
  inexact : Bool
  deriving DecidableEq, Repr

/-- The slot that a selector names, or the detail of OPTAB (R225). -/
def selected (sel : Nat) : Act (Except Nat Selected) := do
  if 128 ≤ sel then return .error 10
  match ← bindingAt (sel / 16) with
  | none => return .error 9
  | some v => do
    let t ← tm
    let bytes := SMap.val ((← get).space t.asid).tables [] v
    if bytesAt bytes 0 1 ≤ sel % 16 then return .error 11
    let d := slotOf bytes (sel % 16)
    return .ok ⟨sel / 16, v, sel % 16, d.1, d.2.1, d.2.2.1, d.2.2.2⟩

/-- Issue a Mortar operation of a lane at its word. In a deterministic launch a LOAD is answered under the
team's own staged effects, and the rest is staged (R291). -/
def issueMortar (m : MortarOp) : Act Unit := do
  let t ← tm
  let det := (← get).detOf t
  let more (t : Team) : Team :=
    { t with ops := t.ops.map fun o => if o.ident = m.op then { o with mortar := o.mortar + 1 } else o }
  if det && m.kind = 0 then do
    let (bs, p) ← ownRead m.team (← get).serial m.key m.size
    modTm more
    modify fun (s : State) => s.answer m (leNat bs) p
  else if det then
    modify fun (s : State) =>
      (s.owe m.team m.unit).withTeam m.team fun t => { t with staged := t.staged ++ [.mortar { m with op := 0 }] }
  else do
    modTm more
    modify fun (s : State) => let s1 := s.owe m.team m.unit; { s1 with mortarIn := s1.mortarIn ++ [m] }

/-- One lane of mem.opx once its operands are good: its record, or the requests it waits on. `shut` says that a
lower lane's LOAD is held, whose word is not known: the lane sends nothing ahead of it, though a LOAD posts its
own request (R30, R346; log 21). -/
def opxSend (f : TForm) (op unit : Nat) (shut : Bool) (lane : Nat) (d : Selected) : Act (Option Rec × List Nat × Bool) := do
  let t ← tm
  let i ← me
  let size := slotSize d.ty
  let base := t.laneAddr lane f.a
  let load := d.kind == 0
  let need : Need := if load then { r := true, use := 6 } else { w := true, use := 6 }
  let at_ (c : Cause) (n : Nat) : Rec :=
    { t.laneRec lane c n with ea := base, size := size, store := !load, load := load }
  if base.toNat % size != 0 then return (some (at_ .misalign 0), [], false)
  if let some n := ← refusedFirst (.lane i lane) base need then return (some (at_ .protect n), [], false)
  if shut && !load then return (none, [], true)
  match ← reachLane lane base 1 size need (accMortar + if load then accRead else accWrite) (!load) with
  | .trap r => return (some r, [], false)
  | .wait ids => return (none, ids, true)
  | .ok rs => do
    if shut then return (none, [], true)
    let x := BitVec.ofNat 64 (lowBits (8 * size) (t.lsrc 0 lane (size == 8) f.b))
    match rs.head? with
    | some (.log c n rid) =>
      sideLog { kind := 2, team := 0, unit := 0, asid := 0, timeline := 0, va := base, size := Nat.log2 size,
                data := x, gen := 0, cause := c, detail := n, lane := lane, opk := d.kind, ty := d.ty, fn := d.fn, rid := rid }
    | some (.key k _) =>
      issueMortar
        { team := i, unit := unit, asid := t.asid, key := k, size := size, kind := d.kind, ty := d.ty, fn := d.fn,
          inexact := d.inexact, version := d.version, table := d.table, slot := d.slot, value := if load then 0 else x,
          det := (← get).detOf t, op := op, dst := match f.d with | .v n => some (.v lane n.val) | _ => none }
    | _ => pure ()
    serve lane
    return (none, [], false)

/-- One lane of mem.opx, its faults in the order of R226. -/
def opxLane (f : TForm) (op unit : Nat) (shut : Bool) (lane : Nat) : Act (Option Rec × List Nat × Bool) := do
  let t ← tm
  match t.firstPoison lane [addrUse f.a, (f.c, 1)] with
  | some (r, o) => return (some (t.poisonRec lane r o), [], false)
  | none =>
    let sel ← selected (t.laneWord lane f.c)
    let operand := match sel with
      | .ok d => if d.kind = 0 then none else t.lpoison lane (srcRegs (slotSize d.ty == 8) f.b) f.b
      | .error _ => t.lpoison lane 1 f.b
    match operand with
    | some (r, o) => return (some (t.poisonRec lane r o), [], false)
    | none =>
      let odd (r : Reg) : Bool := match r with | .v n => n.val % 2 == 1 || t.desc.vregs < n.val + 2 | _ => false
      match sel with
      | .error d => return (some (t.laneRec lane .optab d), [], false)
      | .ok d =>
        if slotSize d.ty = 8 && (odd f.b || odd f.d) then return (some (t.laneRec lane .optab 12), [], false)
        opxSend f op unit shut lane d

/-- The lanes of mem.opx, ascending (R30). -/
def opxLanes (f : TForm) (op unit : Nat) : Bool → List Nat → Act (List (Option Rec × List Nat × Bool))
  | _, [] => return []
  | shut, l :: rest => do
    let r ← opxLane f op unit shut l
    return r :: (← opxLanes f op unit (shut || r.2.2) rest)

/-- mem.opx (R225). -/
def memOpx (f : TForm) : Act Unit := do
  let u ← unitOf
  let op ← openOp (some (f.mod.toNat % 16))
  let i ← me
  let rs ← opxLanes f op u false (← lanesLeft f.km.val)
  if rs.any (·.2.2) then blockAt { rids := rs.flatMap (·.2.1), held := true }
  modify fun (s : State) => s.ackOp i op
  finishLanes (rs.filterMap (·.1))

/-! ## The meanings -/

/-- mem.ldi (R188, R189). -/
def execMemLdi (f : TForm) (s : State) : Host.Outcome State Fault Refusal := runCore (memLdi f) s
/-- mem.await (R190). -/
def execMemAwait (f : TForm) (s : State) : Host.Outcome State Fault Refusal := runCore (memAwait f) s
/-- mem.st (R191). -/
def execMemSt (f : TForm) (s : State) : Host.Outcome State Fault Refusal := runCore (memSt f) s
/-- mem.lds (R192). -/
def execMemLds (f : TForm) (s : State) : Host.Outcome State Fault Refusal := runCore (memLds f) s
/-- mem.sts (R192). -/
def execMemSts (f : TForm) (s : State) : Host.Outcome State Fault Refusal := runCore (memSts f) s
/-- mem.fe (R194). -/
def execMemFe (f : TForm) (s : State) : Host.Outcome State Fault Refusal := runCore (memFe f) s
/-- mem.atom (R195). -/
def execMemAtom (f : TForm) (s : State) : Host.Outcome State Fault Refusal := runCore (memAtom f) s
/-- mem.fence (R196). -/
def execMemFence (f : TForm) (s : State) : Host.Outcome State Fault Refusal := runCore (memFence f) s
/-- mem.xfence (R197). -/
def execMemXfence (f : TForm) (s : State) : Host.Outcome State Fault Refusal := runCore (memXfence f) s
/-- mem.publish (R198). -/
def execMemPublish (f : TForm) (s : State) : Host.Outcome State Fault Refusal := runCore (memPublish f) s
/-- mem.opx (R224 to R227). -/
def execMemOpx (f : TForm) (s : State) : Host.Outcome State Fault Refusal := runCore (memOpx f) s
/-- mem.optab (R213). -/
def execMemOptab (f : TForm) (s : State) : Host.Outcome State Fault Refusal := runCore (memOptab f) s

end Sys2Proof.Machine
end

