-- ==== Sys2Proof/Machine/Copies.lean ====
section
/-! DEFINITION. The copy instructions (R199 to R204). -/

namespace Sys2Proof.Machine

/-- A copy's next handle: the team's sequence number, which skips 0 (R199). -/
def takeHandle : Act Nat := do
  let t ← tm
  modTm fun t => { t with copySeq := if t.copySeq + 1 = 0 then 1 else t.copySeq + 1 }
  return t.copySeq.toNat

/-- The lines that a range of scratchpad touches. -/
def linesOf (off n : Nat) : List Nat := (List.range ((off + n + 127) / 128 - off / 128)).map (off / 128 + ·)

/-- A copy that is outstanding, or a collective that forms, fills a line of a range (R199). A line that a copy has
filled already it no longer fills, as the model reads the rule (log 17). -/
def State.filling (s : State) (t : Team) (off n : Nat) : Bool :=
  let inRange (l : Nat) : Bool := meets (128 * l) 128 off n
  (s.copies.any fun c => c.2.core == t.core && decide (c.2.launch = t.launch) && c.2.lines.any inRange) ||
    (s.core t.core).colls.any fun k => decide (k.launch = t.launch) &&
      k.slices.any fun x => meets x.off x.size off n

/-- The offset and size word of a copy: both multiples of 128, the range valid (R199). -/
def offSize (x : Word) (unit : Nat) : Act (Nat × Nat) := do
  let t ← tm
  let s ← get
  let off := x.toNat % 2 ^ 32
  let n := x.toNat / 2 ^ 32 * unit
  if off % 128 != 0 || n % 128 != 0 then fail .misalign 0 (BitVec.ofNat 64 off)
  if s.scratchOf t < off + n then fail .scratch 0 (BitVec.ofNat 64 off)
  return (off, n)

/-- Wait for a free copy slot, and for no copy to fill the lines named (R199). -/
def copyRoom (off n : Nat) : Act Unit := do
  let t ← tm
  let i ← me
  let s ← get
  if 16 ≤ (s.copiesOf i).length || s.filling t off n then blockAt { detail := 6 }

/-- Count a copy at every pair the team holds (R199, R253). -/
def countCopy : Act (List Hold) := do
  let t ← tm
  match (← get).countPairs t.core t.asid t.timeline t.holds with
  | some s => do
    set s
    return t.holds
  | none => blockAt { detail := 8 }

/-- Empty the lines of a fill (R193). -/
def emptyLines (off n : Nat) : Act Unit := do
  let t ← tm
  let add (es : List Nat) (l : Nat) : List Nat := if es.contains l then es else es ++ [l]
  modify fun (s : State) => s.withAlloc t.core t.launch fun a =>
    { a with empties := (linesOf off n).foldl add a.empties }

/-- Commands at an engine that it has not taken up; those that the ticket unit holds are not there yet (R291). -/
def State.waitingOn (s : State) (engine : Nat) : Nat :=
  (s.copies.filter fun c => c.2.engine == some engine && c.2.moved == 0 && !c.2.issuedAll && !c.2.held).length

/-- Start a copy under its number, its place in the team's program order (R232). -/
def addCopy (c : Copy) : Act Unit := modify fun (s : State) => { s with copies := SMap.put s.copies c.order c }

/-- Contribute a slice to a collective (R200). -/
def contribute (key mem idx : Nat) (src : Word) (off n : Nat) (adv : Bool) : Act Nat := do
  let t ← tm
  let i ← me
  let s ← get
  let mine (k : Coll) : Bool := decide (k.launch = t.launch) && k.key == key && k.mem == mem
  let colls := (s.core t.core).colls
  match colls.find? mine with
  | some k => if k.slices.any fun x => x.idx == idx then fail .scratch 3
  | none => if 16 ≤ colls.length then blockAt { detail := 6 }
  copyRoom off n
  let pairs ← countCopy
  let h ← takeHandle
  let order ← fresh
  let x : Slice :=
    { idx := idx, team := i, handle := h, src := src, off := off, size := n, adv := adv, stamp := t.now, pairs := pairs
      order := order }
  emptyLines off n
  modify fun (s : State) =>
    let add (ks : List Coll) : List Coll :=
      if ks.any mine then ks.map fun k => if mine k then { k with slices := k.slices ++ [x] } else k
      else ks ++ [{ launch := t.launch, key := key, mem := mem, slices := [x] }]
    (s.withCore t.core fun c => { c with colls := add c.colls }).startColls t.core
  return h

/-- cp.coll (R200). -/
def cpColl (f : TForm) : Act Unit := do
  let t ← tm
  let idle := (t.lanesOf f.km.val).isEmpty
  let src ← if idle then pure 0 else sread f.a
  let os ← if idle then pure 0 else sread f.b
  let g ← sread f.c
  let n := g.toNat
  let (off, size) ← offSize os 1
  if bitsOf n 15 11 != 0 then fail .misalign 0 g
  let idx := bitsOf n 10 8
  let h ← contribute (bitsOf n 31 16) (Nat.lor (bitsOf n 7 0) (2 ^ idx)) idx src off size (f.mod.getLsbD 0)
  swrite f.d (BitVec.ofNat 64 h)

/-- cp.gath (R201): one run a row, its index still to be read. -/
def cpGath (f : TForm) : Act Unit := do
  let t ← tm
  let i ← me
  if (t.lanesOf f.km.val).isEmpty then swrite f.d (BitVec.ofNat 64 (← takeHandle))
  else do
    let table ← sread f.a
    let ob ← sread f.b
    let list ← sread f.c
    let m := f.mod.toNat / 2 % 16 + 1
    if table.toNat % 128 != 0 then fail .misalign 0 table
    let (off, n) ← offSize ob (128 * m)
    copyRoom off n
    let pairs ← countCopy
    let h ← takeHandle
    let runs := (List.range (ob.toNat / 2 ^ 32)).map fun j =>
      (list + BitVec.ofNat 64 (4 * j), off + 128 * m * j, 128 * m)
    if n != 0 then
      emptyLines off n
      let c ← fresh
      addCopy
        { team := i, handles := [(i, h)], kind := 1, core := t.core, launch := t.launch, asid := t.asid,
          timeline := t.timeline, rows := runs, dst := table, adv := f.mod.getLsbD 0, stamp := t.now,
          pairs := pairs, lines := linesOf off n, order := c }
    else
      modify fun (s : State) => pairs.foldl (fun s p => s.dropCount t.asid t.timeline p.loc p.stamp) s
    swrite f.d (BitVec.ofNat 64 h)

/-- cp.put (R202): it follows a fill still in progress, so it does not wait for one at issue
(log 22). In a deterministic launch its bytes are staged as it reads them, ahead of its own mark (R291). -/
def cpPut (f : TForm) : Act Unit := do
  let t ← tm
  let i ← me
  if (t.lanesOf f.km.val).isEmpty then do
    let _ ← unitOf
    swrite f.d (BitVec.ofNat 64 (← takeHandle))
  else do
    let dst ← sread f.a
    let os ← sread f.b
    let (off, n) ← offSize os 1
    copyRoom 0 0
    let u ← unitOf
    let pairs ← countCopy
    let h ← takeHandle
    let det := (← get).detOf t
    if n != 0 then
      let c ← fresh
      addCopy
        { team := i, handles := [(i, h)], kind := 2, core := t.core, launch := t.launch, asid := t.asid,
          timeline := t.timeline, runs := [(dst, off, n)], unit := some u, adv := f.mod.getLsbD 0,
          stamp := t.now, pairs := pairs, held := det, order := c }
      modify fun (s : State) => s.owe i u
      if det then modTm fun t => { t with staged := t.staged ++ [.copy c] }
    else
      modify fun (s : State) => pairs.foldl (fun s p => s.dropCount t.asid t.timeline p.loc p.stamp) s
    swrite f.d (BitVec.ofNat 64 h)

/-- Every copy a wait names has completed: the one of a handle, or all of them (R203). -/
def State.copyDone (s : State) (team : Nat) (all : Bool) (handle : Nat) : Bool :=
  if all then (s.copiesOf team).isEmpty else !s.copyOpen team handle

/-- cp.wait (R203). -/
def cpWait (f : TForm) : Act Unit := do
  let h ← sread f.a
  let i ← me
  if !(← get).copyDone i (f.mod.getLsbD 0) h.toNat then blockAt {}

/-- cp.yield (R204): the transfer stands at the clause's end; a copy already complete leaves a
plain one. -/
def cpYield (f : BForm) : Act Unit := do
  let h ← sread f.d
  let i ← me
  let t ← tm
  let target := targetOf t.wordAt f
  let all := decide (f.d = .zero)
  let done := (← get).copyDone i all h.toNat
  modTm fun t =>
    { t with after := some (if done then .jump target else .yield (if all then 0 else h.toNat) target) }

/-- cp.coll (R200). -/
def execCpColl (f : TForm) (s : State) : Host.Outcome State Fault Refusal := runCore (cpColl f) s
/-- cp.gath (R201). -/
def execCpGath (f : TForm) (s : State) : Host.Outcome State Fault Refusal := runCore (cpGath f) s
/-- cp.put (R202). -/
def execCpPut (f : TForm) (s : State) : Host.Outcome State Fault Refusal := runCore (cpPut f) s
/-- cp.wait (R203). -/
def execCpWait (f : TForm) (s : State) : Host.Outcome State Fault Refusal := runCore (cpWait f) s
/-- cp.yield (R204). -/
def execCpYield (f : BForm) (s : State) : Host.Outcome State Fault Refusal := runCore (cpYield f) s

end Sys2Proof.Machine
end

