-- ==== Sys2Proof/WellFormed.lean ====
section
/-! DEFINITION. Which terms of Instr are instructions: a core instruction passes tests 5 to 9 of
R69 under the largest budgets (VREGS 128, SREGS 64); a Sill instruction passes the checks R315
makes of a word alone; an event's list arguments are bounded as its rule says. -/

namespace Sys2Proof

/-- The opcode-map entry of a core instruction; none for a Sill word or an event. -/
def Instr.mn (i : Instr) : Option Mn :=
  match i with
  | .frNop _ => some .frNop
  | .frMov _ => some .frMov
  | .frMovi _ => some .frMovi
  | .frMovhi _ => some .frMovhi
  | .frAddT _ => some .frAddT
  | .frAddI _ => some .frAddI
  | .frSubT _ => some .frSubT
  | .frSubI _ => some .frSubI
  | .frMulT _ => some .frMulT
  | .frMulI _ => some .frMulI
  | .frMulh _ => some .frMulh
  | .frDiv _ => some .frDiv
  | .frRem _ => some .frRem
  | .frAndT _ => some .frAndT
  | .frAndI _ => some .frAndI
  | .frOrT _ => some .frOrT
  | .frOrI _ => some .frOrI
  | .frXorT _ => some .frXorT
  | .frXorI _ => some .frXorI
  | .frShlT _ => some .frShlT
  | .frShlI _ => some .frShlI
  | .frShrT _ => some .frShrT
  | .frShrI _ => some .frShrI
  | .frSraT _ => some .frSraT
  | .frSraI _ => some .frSraI
  | .frMinT _ => some .frMinT
  | .frMinI _ => some .frMinI
  | .frMaxT _ => some .frMaxT
  | .frMaxI _ => some .frMaxI
  | .frCmp _ => some .frCmp
  | .frSel _ => some .frSel
  | .frClz _ => some .frClz
  | .frPopc _ => some .frPopc
  | .frLd _ => some .frLd
  | .frSt _ => some .frSt
  | .frCsrr _ => some .frCsrr
  | .frCsrw _ => some .frCsrw
  | .ctlBr _ => some .ctlBr
  | .ctlJmp _ => some .ctlJmp
  | .ctlCall _ => some .ctlCall
  | .ctlRet _ => some .ctlRet
  | .ctlBrv _ => some .ctlBrv
  | .ctlJoin _ => some .ctlJoin
  | .ctlCallv _ => some .ctlCallv
  | .ctlRetq _ => some .ctlRetq
  | .ctlExit _ => some .ctlExit
  | .kmSetT _ => some .kmSetT
  | .kmSetI _ => some .kmSetI
  | .kmAnd _ => some .kmAnd
  | .kmOr _ => some .kmOr
  | .kmAndn _ => some .kmAndn
  | .kmXor _ => some .kmXor
  | .kmNot _ => some .kmNot
  | .kmPop _ => some .kmPop
  | .kmFirst _ => some .kmFirst
  | .kmInsT _ => some .kmInsT
  | .kmInsI _ => some .kmInsI
  | .kmExtT _ => some .kmExtT
  | .kmExtI _ => some .kmExtI
  | .kmExm _ => some .kmExm
  | .lnMov _ => some .lnMov
  | .lnMovi _ => some .lnMovi
  | .lnMovs _ => some .lnMovs
  | .lnAddT _ => some .lnAddT
  | .lnAddI _ => some .lnAddI
  | .lnSubT _ => some .lnSubT
  | .lnSubI _ => some .lnSubI
  | .lnAddc _ => some .lnAddc
  | .lnSubb _ => some .lnSubb
  | .lnMulT _ => some .lnMulT
  | .lnMulI _ => some .lnMulI
  | .lnMulh _ => some .lnMulh
  | .lnMad _ => some .lnMad
  | .lnAndT _ => some .lnAndT
  | .lnAndI _ => some .lnAndI
  | .lnOrT _ => some .lnOrT
  | .lnOrI _ => some .lnOrI
  | .lnXorT _ => some .lnXorT
  | .lnXorI _ => some .lnXorI
  | .lnNot _ => some .lnNot
  | .lnShlT _ => some .lnShlT
  | .lnShlI _ => some .lnShlI
  | .lnShrT _ => some .lnShrT
  | .lnShrI _ => some .lnShrI
  | .lnSraT _ => some .lnSraT
  | .lnSraI _ => some .lnSraI
  | .lnRotT _ => some .lnRotT
  | .lnRotI _ => some .lnRotI
  | .lnMinT _ => some .lnMinT
  | .lnMinI _ => some .lnMinI
  | .lnMaxT _ => some .lnMaxT
  | .lnMaxI _ => some .lnMaxI
  | .lnAbs _ => some .lnAbs
  | .lnNeg _ => some .lnNeg
  | .lnCmp _ => some .lnCmp
  | .lnSel _ => some .lnSel
  | .lnClz _ => some .lnClz
  | .lnPopc _ => some .lnPopc
  | .lnBfx _ => some .lnBfx
  | .lnBfi _ => some .lnBfi
  | .lnPerm _ => some .lnPerm
  | .lnCvt _ => some .lnCvt
  | .lnSat _ => some .lnSat
  | .xlShflT _ => some .xlShflT
  | .xlShflI _ => some .xlShflI
  | .xlShfxT _ => some .xlShfxT
  | .xlShfxI _ => some .xlShfxI
  | .xlBcastT _ => some .xlBcastT
  | .xlBcastI _ => some .xlBcastI
  | .xlRed _ => some .xlRed
  | .xlRedi _ => some .xlRedi
  | .xlScan _ => some .xlScan
  | .xlBallot _ => some .xlBallot
  | .fpAdd _ => some .fpAdd
  | .fpSub _ => some .fpSub
  | .fpMul _ => some .fpMul
  | .fpFma _ => some .fpFma
  | .fpMin _ => some .fpMin
  | .fpMax _ => some .fpMax
  | .fpAbs _ => some .fpAbs
  | .fpNeg _ => some .fpNeg
  | .fpCmp _ => some .fpCmp
  | .fpCls _ => some .fpCls
  | .fpDiv _ => some .fpDiv
  | .fpSqrt _ => some .fpSqrt
  | .fpRcp _ => some .fpRcp
  | .fpRsq _ => some .fpRsq
  | .fpExp2 _ => some .fpExp2
  | .fpLog2 _ => some .fpLog2
  | .fpRnd _ => some .fpRnd
  | .fpCvt _ => some .fpCvt
  | .fpFti _ => some .fpFti
  | .fpItf _ => some .fpItf
  | .fpLdexp _ => some .fpLdexp
  | .fpFrexp _ => some .fpFrexp
  | .dcAdd _ => some .dcAdd
  | .dcSub _ => some .dcSub
  | .dcMul _ => some .dcMul
  | .dcFma _ => some .dcFma
  | .dcDiv _ => some .dcDiv
  | .dcCmp _ => some .dcCmp
  | .dcQuant _ => some .dcQuant
  | .dcCvt _ => some .dcCvt
  | .dcRnd _ => some .dcRnd
  | .scScale _ => some .scScale
  | .scQuant _ => some .scQuant
  | .scDeq _ => some .scDeq
  | .scPack _ => some .scPack
  | .scUnpack _ => some .scUnpack
  | .scSpec _ => some .scSpec
  | .mxTake _ => some .mxTake
  | .mxGive _ => some .mxGive
  | .mxMma _ => some .mxMma
  | .mxMmas _ => some .mxMmas
  | .mxDist _ => some .mxDist
  | .mxTopk _ => some .mxTopk
  | .mxWload _ => some .mxWload
  | .mxAload _ => some .mxAload
  | .mxAstore _ => some .mxAstore
  | .mxAzero _ => some .mxAzero
  | .mxCfg _ => some .mxCfg
  | .memLdi _ => some .memLdi
  | .memAwait _ => some .memAwait
  | .memSt _ => some .memSt
  | .memLds _ => some .memLds
  | .memSts _ => some .memSts
  | .memFe _ => some .memFe
  | .memAtom _ => some .memAtom
  | .memFence _ => some .memFence
  | .memXfence _ => some .memXfence
  | .memPublish _ => some .memPublish
  | .memOpx _ => some .memOpx
  | .memOptab _ => some .memOptab
  | .cpColl _ => some .cpColl
  | .cpGath _ => some .cpGath
  | .cpPut _ => some .cpPut
  | .cpYield _ => some .cpYield
  | .cpWait _ => some .cpWait
  | .qBind _ => some .qBind
  | .qPut _ => some .qPut
  | .qTake _ => some .qTake
  | .qTry _ => some .qTry
  | .qLen _ => some .qLen
  | .ltNow _ => some .ltNow
  | .ltAdv _ => some .ltAdv
  | .ltEnter _ => some .ltEnter
  | .ltLeave _ => some .ltLeave
  | .ltHold _ => some .ltHold
  | .ltDrop _ => some .ltDrop
  | .ltWait _ => some .ltWait
  | .ltTest _ => some .ltTest
  | .tkPush _ => some .tkPush
  | .tkArgs _ => some .tkArgs
  | .tkEq _ => some .tkEq
  | .tkDq _ => some .tkDq
  | .tkRing _ => some .tkRing
  | .rgOpen _ => some .rgOpen
  | .rgClose _ => some .rgClose
  | .rgScore _ => some .rgScore
  | .rgGrow _ => some .rgGrow
  | .rgInfo _ => some .rgInfo
  | .rgAllow _ => some .rgAllow
  | .nmLaunch _ => some .nmLaunch
  | .nmRatio _ => some .nmRatio
  | .sysTrap _ => some .sysTrap
  | .sysEret _ => some .sysEret
  | .sysFrec _ => some .sysFrec
  | .sysFlog _ => some .sysFlog
  | .sysYield _ => some .sysYield
  | .sysDbg _ => some .sysDbg
  | _ => none

/-- The fields of a core instruction as they stand in its word (R59). -/
def Instr.fields (i : Instr) : Fields :=
  match i with
  | .frNop f => f.fields
  | .frMov f => f.fields
  | .frMovi f => f.fields
  | .frMovhi f => f.fields
  | .frAddT f => f.fields
  | .frAddI f => f.fields
  | .frSubT f => f.fields
  | .frSubI f => f.fields
  | .frMulT f => f.fields
  | .frMulI f => f.fields
  | .frMulh f => f.fields
  | .frDiv f => f.fields
  | .frRem f => f.fields
  | .frAndT f => f.fields
  | .frAndI f => f.fields
  | .frOrT f => f.fields
  | .frOrI f => f.fields
  | .frXorT f => f.fields
  | .frXorI f => f.fields
  | .frShlT f => f.fields
  | .frShlI f => f.fields
  | .frShrT f => f.fields
  | .frShrI f => f.fields
  | .frSraT f => f.fields
  | .frSraI f => f.fields
  | .frMinT f => f.fields
  | .frMinI f => f.fields
  | .frMaxT f => f.fields
  | .frMaxI f => f.fields
  | .frCmp f => f.fields
  | .frSel f => f.fields
  | .frClz f => f.fields
  | .frPopc f => f.fields
  | .frLd f => f.fields
  | .frSt f => f.fields
  | .frCsrr f => f.fields
  | .frCsrw f => f.fields
  | .ctlBr f => f.fields
  | .ctlJmp f => f.fields
  | .ctlCall f => f.fields
  | .ctlRet f => f.fields
  | .ctlBrv f => f.fields
  | .ctlJoin f => f.fields
  | .ctlCallv f => f.fields
  | .ctlRetq f => f.fields
  | .ctlExit f => f.fields
  | .kmSetT f => f.fields
  | .kmSetI f => f.fields
  | .kmAnd f => f.fields
  | .kmOr f => f.fields
  | .kmAndn f => f.fields
  | .kmXor f => f.fields
  | .kmNot f => f.fields
  | .kmPop f => f.fields
  | .kmFirst f => f.fields
  | .kmInsT f => f.fields
  | .kmInsI f => f.fields
  | .kmExtT f => f.fields
  | .kmExtI f => f.fields
  | .kmExm f => f.fields
  | .lnMov f => f.fields
  | .lnMovi f => f.fields
  | .lnMovs f => f.fields
  | .lnAddT f => f.fields
  | .lnAddI f => f.fields
  | .lnSubT f => f.fields
  | .lnSubI f => f.fields
  | .lnAddc f => f.fields
  | .lnSubb f => f.fields
  | .lnMulT f => f.fields
  | .lnMulI f => f.fields
  | .lnMulh f => f.fields
  | .lnMad f => f.fields
  | .lnAndT f => f.fields
  | .lnAndI f => f.fields
  | .lnOrT f => f.fields
  | .lnOrI f => f.fields
  | .lnXorT f => f.fields
  | .lnXorI f => f.fields
  | .lnNot f => f.fields
  | .lnShlT f => f.fields
  | .lnShlI f => f.fields
  | .lnShrT f => f.fields
  | .lnShrI f => f.fields
  | .lnSraT f => f.fields
  | .lnSraI f => f.fields
  | .lnRotT f => f.fields
  | .lnRotI f => f.fields
  | .lnMinT f => f.fields
  | .lnMinI f => f.fields
  | .lnMaxT f => f.fields
  | .lnMaxI f => f.fields
  | .lnAbs f => f.fields
  | .lnNeg f => f.fields
  | .lnCmp f => f.fields
  | .lnSel f => f.fields
  | .lnClz f => f.fields
  | .lnPopc f => f.fields
  | .lnBfx f => f.fields
  | .lnBfi f => f.fields
  | .lnPerm f => f.fields
  | .lnCvt f => f.fields
  | .lnSat f => f.fields
  | .xlShflT f => f.fields
  | .xlShflI f => f.fields
  | .xlShfxT f => f.fields
  | .xlShfxI f => f.fields
  | .xlBcastT f => f.fields
  | .xlBcastI f => f.fields
  | .xlRed f => f.fields
  | .xlRedi f => f.fields
  | .xlScan f => f.fields
  | .xlBallot f => f.fields
  | .fpAdd f => f.fields
  | .fpSub f => f.fields
  | .fpMul f => f.fields
  | .fpFma f => f.fields
  | .fpMin f => f.fields
  | .fpMax f => f.fields
  | .fpAbs f => f.fields
  | .fpNeg f => f.fields
  | .fpCmp f => f.fields
  | .fpCls f => f.fields
  | .fpDiv f => f.fields
  | .fpSqrt f => f.fields
  | .fpRcp f => f.fields
  | .fpRsq f => f.fields
  | .fpExp2 f => f.fields
  | .fpLog2 f => f.fields
  | .fpRnd f => f.fields
  | .fpCvt f => f.fields
  | .fpFti f => f.fields
  | .fpItf f => f.fields
  | .fpLdexp f => f.fields
  | .fpFrexp f => f.fields
  | .dcAdd f => f.fields
  | .dcSub f => f.fields
  | .dcMul f => f.fields
  | .dcFma f => f.fields
  | .dcDiv f => f.fields
  | .dcCmp f => f.fields
  | .dcQuant f => f.fields
  | .dcCvt f => f.fields
  | .dcRnd f => f.fields
  | .scScale f => f.fields
  | .scQuant f => f.fields
  | .scDeq f => f.fields
  | .scPack f => f.fields
  | .scUnpack f => f.fields
  | .scSpec f => f.fields
  | .mxTake f => f.fields
  | .mxGive f => f.fields
  | .mxMma f => f.fields
  | .mxMmas f => f.fields
  | .mxDist f => f.fields
  | .mxTopk f => f.fields
  | .mxWload f => f.fields
  | .mxAload f => f.fields
  | .mxAstore f => f.fields
  | .mxAzero f => f.fields
  | .mxCfg f => f.fields
  | .memLdi f => f.fields
  | .memAwait f => f.fields
  | .memSt f => f.fields
  | .memLds f => f.fields
  | .memSts f => f.fields
  | .memFe f => f.fields
  | .memAtom f => f.fields
  | .memFence f => f.fields
  | .memXfence f => f.fields
  | .memPublish f => f.fields
  | .memOpx f => f.fields
  | .memOptab f => f.fields
  | .cpColl f => f.fields
  | .cpGath f => f.fields
  | .cpPut f => f.fields
  | .cpYield f => f.fields
  | .cpWait f => f.fields
  | .qBind f => f.fields
  | .qPut f => f.fields
  | .qTake f => f.fields
  | .qTry f => f.fields
  | .qLen f => f.fields
  | .ltNow f => f.fields
  | .ltAdv f => f.fields
  | .ltEnter f => f.fields
  | .ltLeave f => f.fields
  | .ltHold f => f.fields
  | .ltDrop f => f.fields
  | .ltWait f => f.fields
  | .ltTest f => f.fields
  | .tkPush f => f.fields
  | .tkArgs f => f.fields
  | .tkEq f => f.fields
  | .tkDq f => f.fields
  | .tkRing f => f.fields
  | .rgOpen f => f.fields
  | .rgClose f => f.fields
  | .rgScore f => f.fields
  | .rgGrow f => f.fields
  | .rgInfo f => f.fields
  | .rgAllow f => f.fields
  | .nmLaunch f => f.fields
  | .nmRatio f => f.fields
  | .sysTrap f => f.fields
  | .sysEret f => f.fields
  | .sysFrec f => f.fields
  | .sysFlog f => f.fields
  | .sysYield f => f.fields
  | .sysDbg f => f.fields
  | _ => Fields.zero

/-- The fields of a Sill word that hold W registers are below 24 and T is 0 or 1 (R315). -/
def sillW (n : BitVec 5) : Bool := n.toNat < 24
/-- T of a Sill word (R313): 0 or 1 (R315). -/
def sillT (t : BitVec 2) : Bool := t.toNat < 2

/-- The checks of R314 and R315 on one Sill instruction: unused fields zero, W fields below 24,
even pairs, T below 2. The position of an sl.loop's END is checked at launch, with the program. -/
def Instr.sillOk (i : Instr) : Bool :=
  match i with
  | .slAct f => f.x == 0 && f.p == 0 && f.e == 0 && f.w == 0 && f.set == 0
  | .slRd f | .slWr f =>
    f.x == 0 && f.p == 0 && f.e == 0 && f.set == 0 && sillW f.w && f.w.toNat % 2 == 0
  | .slBx f => f.d.toNat < 4 && sillW f.a && sillW f.b && f.c == 0 && f.t == 0 && f.mod == 0
  | .slMac f => f.w == 0
  | .slBred f => f.g == 0 && f.x == 0 && f.set == 0 && sillW f.w && f.off.toNat < 8
  | .slAdd f | .slSub f | .slMul f =>
    sillW f.d && sillW f.a && sillW f.b && f.c == 0 && sillT f.t && f.mod == 0
  | .slFma f | .slSel f =>
    sillW f.d && sillW f.a && sillW f.b && sillW f.c && sillT f.t && f.mod == 0
  | .slMin f | .slMax f =>
    sillW f.d && sillW f.a && sillW f.b && f.c == 0 && sillT f.t && f.mod.toNat < 2
  | .slCmp f => sillW f.d && sillW f.a && sillW f.b && f.c == 0 && sillT f.t && f.mod.toNat < 8
  | .slCvt f => sillW f.d && sillW f.a && f.b == 0 && f.c == 0 && sillT f.t && f.mod.toNat < 2
  | .slMovi f => sillW f.d && sillT f.t
  | .slMov f => sillW f.d && sillW f.a && f.b == 0 && f.c == 0 && f.t == 0 && f.mod == 0
  | .slAg f => f.base == 0 || f.a == 0
  | .slLoop _ => true
  | .slSendBa f => f.w == 0 && f.n == 0
  | .slSendW f | .slRecv f => f.p == 0 && f.e == 0 && f.bank == 0 && sillW f.w
  | _ => true

/-- An event's arguments are in range: a TLP carries at most 4,096 bytes, a nonce 32 (R393). -/
def Instr.eventOk (i : Instr) : Bool :=
  match i with
  | .hostTlpWrite _ data _ => data.length ≤ 4096
  | .attest nonce _ => nonce.length == 32
  | _ => true

/-- An instruction the machine has: its fields pass the checks of R69 (tests 5 to 9) and R315. -/
def WellFormed (i : Instr) : Bool :=
  match i.mn with
  | some m => (fieldsFail m 128 64 i.fields).isNone
  | none => i.sillOk && i.eventOk

end Sys2Proof
end

