-- ==== Sys2Proof/Decode.lean ====
section
/-! DEFINITION. The decoder of core words (R59 to R69) and of Sill words (R313 to R315), total on
any bytes and refusing by name; after it the encoder, written from the same tables. -/

namespace Sys2Proof

/-- Why a word is no instruction: the number of the failing test of R69 (1, 2, 5 to 9), or the
check of R315 a Sill word fails, or a length the machine has no word of. -/
inductive Reject
  /-- OP is not assigned (test 1). -/
  | opcode
  /-- FN is unassigned under the OP (test 2). -/
  | function
  /-- TY is not admitted (test 5). -/
  | type
  /-- LA on an instruction that is not long-latency (test 6). -/
  | lookahead
  /-- A register specifier breaks R62 or R63 (test 7). -/
  | register
  /-- An unused field is non-zero (test 8). -/
  | unusedField
  /-- A reserved value of MOD or IMM (test 9). -/
  | reservedValue
  /-- A Sill word fails R315. -/
  | sillWord
  /-- No word of the machine has this length. -/
  | length
  deriving DecidableEq, Repr

/-- The name of a failing test of R69. -/
def Reject.ofTest (n : Nat) : Reject :=
  match n with
  | 1 => .opcode | 2 => .function | 5 => .type | 6 => .lookahead | 7 => .register
  | 8 => .unusedField | _ => .reservedValue

/-- The core instruction of a word already checked, its fields pulled out once. -/
def buildCore (m : Mn) (w : Word) : Instr :=
  match m with
  | .frNop => .frNop (TForm.ofWord w)
  | .frMov => .frMov (TForm.ofWord w)
  | .frMovi => .frMovi (IForm.ofWord w)
  | .frMovhi => .frMovhi (IForm.ofWord w)
  | .frAddT => .frAddT (TForm.ofWord w)
  | .frAddI => .frAddI (IForm.ofWord w)
  | .frSubT => .frSubT (TForm.ofWord w)
  | .frSubI => .frSubI (IForm.ofWord w)
  | .frMulT => .frMulT (TForm.ofWord w)
  | .frMulI => .frMulI (IForm.ofWord w)
  | .frMulh => .frMulh (TForm.ofWord w)
  | .frDiv => .frDiv (TForm.ofWord w)
  | .frRem => .frRem (TForm.ofWord w)
  | .frAndT => .frAndT (TForm.ofWord w)
  | .frAndI => .frAndI (IForm.ofWord w)
  | .frOrT => .frOrT (TForm.ofWord w)
  | .frOrI => .frOrI (IForm.ofWord w)
  | .frXorT => .frXorT (TForm.ofWord w)
  | .frXorI => .frXorI (IForm.ofWord w)
  | .frShlT => .frShlT (TForm.ofWord w)
  | .frShlI => .frShlI (IForm.ofWord w)
  | .frShrT => .frShrT (TForm.ofWord w)
  | .frShrI => .frShrI (IForm.ofWord w)
  | .frSraT => .frSraT (TForm.ofWord w)
  | .frSraI => .frSraI (IForm.ofWord w)
  | .frMinT => .frMinT (TForm.ofWord w)
  | .frMinI => .frMinI (IForm.ofWord w)
  | .frMaxT => .frMaxT (TForm.ofWord w)
  | .frMaxI => .frMaxI (IForm.ofWord w)
  | .frCmp => .frCmp (TForm.ofWord w)
  | .frSel => .frSel (TForm.ofWord w)
  | .frClz => .frClz (TForm.ofWord w)
  | .frPopc => .frPopc (TForm.ofWord w)
  | .frLd => .frLd (IForm.ofWord w)
  | .frSt => .frSt (IForm.ofWord w)
  | .frCsrr => .frCsrr (IForm.ofWord w)
  | .frCsrw => .frCsrw (IForm.ofWord w)
  | .ctlBr => .ctlBr (BForm.ofWord w)
  | .ctlJmp => .ctlJmp (BForm.ofWord w)
  | .ctlCall => .ctlCall (BForm.ofWord w)
  | .ctlRet => .ctlRet (TForm.ofWord w)
  | .ctlBrv => .ctlBrv (BForm.ofWord w)
  | .ctlJoin => .ctlJoin (TForm.ofWord w)
  | .ctlCallv => .ctlCallv (TForm.ofWord w)
  | .ctlRetq => .ctlRetq (TForm.ofWord w)
  | .ctlExit => .ctlExit (TForm.ofWord w)
  | .kmSetT => .kmSetT (TForm.ofWord w)
  | .kmSetI => .kmSetI (IForm.ofWord w)
  | .kmAnd => .kmAnd (TForm.ofWord w)
  | .kmOr => .kmOr (TForm.ofWord w)
  | .kmAndn => .kmAndn (TForm.ofWord w)
  | .kmXor => .kmXor (TForm.ofWord w)
  | .kmNot => .kmNot (TForm.ofWord w)
  | .kmPop => .kmPop (TForm.ofWord w)
  | .kmFirst => .kmFirst (TForm.ofWord w)
  | .kmInsT => .kmInsT (TForm.ofWord w)
  | .kmInsI => .kmInsI (IForm.ofWord w)
  | .kmExtT => .kmExtT (TForm.ofWord w)
  | .kmExtI => .kmExtI (IForm.ofWord w)
  | .kmExm => .kmExm (TForm.ofWord w)
  | .lnMov => .lnMov (TForm.ofWord w)
  | .lnMovi => .lnMovi (IForm.ofWord w)
  | .lnMovs => .lnMovs (TForm.ofWord w)
  | .lnAddT => .lnAddT (TForm.ofWord w)
  | .lnAddI => .lnAddI (IForm.ofWord w)
  | .lnSubT => .lnSubT (TForm.ofWord w)
  | .lnSubI => .lnSubI (IForm.ofWord w)
  | .lnAddc => .lnAddc (TForm.ofWord w)
  | .lnSubb => .lnSubb (TForm.ofWord w)
  | .lnMulT => .lnMulT (TForm.ofWord w)
  | .lnMulI => .lnMulI (IForm.ofWord w)
  | .lnMulh => .lnMulh (TForm.ofWord w)
  | .lnMad => .lnMad (TForm.ofWord w)
  | .lnAndT => .lnAndT (TForm.ofWord w)
  | .lnAndI => .lnAndI (IForm.ofWord w)
  | .lnOrT => .lnOrT (TForm.ofWord w)
  | .lnOrI => .lnOrI (IForm.ofWord w)
  | .lnXorT => .lnXorT (TForm.ofWord w)
  | .lnXorI => .lnXorI (IForm.ofWord w)
  | .lnNot => .lnNot (TForm.ofWord w)
  | .lnShlT => .lnShlT (TForm.ofWord w)
  | .lnShlI => .lnShlI (IForm.ofWord w)
  | .lnShrT => .lnShrT (TForm.ofWord w)
  | .lnShrI => .lnShrI (IForm.ofWord w)
  | .lnSraT => .lnSraT (TForm.ofWord w)
  | .lnSraI => .lnSraI (IForm.ofWord w)
  | .lnRotT => .lnRotT (TForm.ofWord w)
  | .lnRotI => .lnRotI (IForm.ofWord w)
  | .lnMinT => .lnMinT (TForm.ofWord w)
  | .lnMinI => .lnMinI (IForm.ofWord w)
  | .lnMaxT => .lnMaxT (TForm.ofWord w)
  | .lnMaxI => .lnMaxI (IForm.ofWord w)
  | .lnAbs => .lnAbs (TForm.ofWord w)
  | .lnNeg => .lnNeg (TForm.ofWord w)
  | .lnCmp => .lnCmp (TForm.ofWord w)
  | .lnSel => .lnSel (TForm.ofWord w)
  | .lnClz => .lnClz (TForm.ofWord w)
  | .lnPopc => .lnPopc (TForm.ofWord w)
  | .lnBfx => .lnBfx (TForm.ofWord w)
  | .lnBfi => .lnBfi (TForm.ofWord w)
  | .lnPerm => .lnPerm (TForm.ofWord w)
  | .lnCvt => .lnCvt (TForm.ofWord w)
  | .lnSat => .lnSat (TForm.ofWord w)
  | .xlShflT => .xlShflT (TForm.ofWord w)
  | .xlShflI => .xlShflI (IForm.ofWord w)
  | .xlShfxT => .xlShfxT (TForm.ofWord w)
  | .xlShfxI => .xlShfxI (IForm.ofWord w)
  | .xlBcastT => .xlBcastT (TForm.ofWord w)
  | .xlBcastI => .xlBcastI (IForm.ofWord w)
  | .xlRed => .xlRed (TForm.ofWord w)
  | .xlRedi => .xlRedi (TForm.ofWord w)
  | .xlScan => .xlScan (TForm.ofWord w)
  | .xlBallot => .xlBallot (TForm.ofWord w)
  | .fpAdd => .fpAdd (TForm.ofWord w)
  | .fpSub => .fpSub (TForm.ofWord w)
  | .fpMul => .fpMul (TForm.ofWord w)
  | .fpFma => .fpFma (TForm.ofWord w)
  | .fpMin => .fpMin (TForm.ofWord w)
  | .fpMax => .fpMax (TForm.ofWord w)
  | .fpAbs => .fpAbs (TForm.ofWord w)
  | .fpNeg => .fpNeg (TForm.ofWord w)
  | .fpCmp => .fpCmp (TForm.ofWord w)
  | .fpCls => .fpCls (TForm.ofWord w)
  | .fpDiv => .fpDiv (TForm.ofWord w)
  | .fpSqrt => .fpSqrt (TForm.ofWord w)
  | .fpRcp => .fpRcp (TForm.ofWord w)
  | .fpRsq => .fpRsq (TForm.ofWord w)
  | .fpExp2 => .fpExp2 (TForm.ofWord w)
  | .fpLog2 => .fpLog2 (TForm.ofWord w)
  | .fpRnd => .fpRnd (TForm.ofWord w)
  | .fpCvt => .fpCvt (TForm.ofWord w)
  | .fpFti => .fpFti (TForm.ofWord w)
  | .fpItf => .fpItf (TForm.ofWord w)
  | .fpLdexp => .fpLdexp (TForm.ofWord w)
  | .fpFrexp => .fpFrexp (TForm.ofWord w)
  | .dcAdd => .dcAdd (TForm.ofWord w)
  | .dcSub => .dcSub (TForm.ofWord w)
  | .dcMul => .dcMul (TForm.ofWord w)
  | .dcFma => .dcFma (TForm.ofWord w)
  | .dcDiv => .dcDiv (TForm.ofWord w)
  | .dcCmp => .dcCmp (TForm.ofWord w)
  | .dcQuant => .dcQuant (TForm.ofWord w)
  | .dcCvt => .dcCvt (TForm.ofWord w)
  | .dcRnd => .dcRnd (TForm.ofWord w)
  | .scScale => .scScale (TForm.ofWord w)
  | .scQuant => .scQuant (TForm.ofWord w)
  | .scDeq => .scDeq (TForm.ofWord w)
  | .scPack => .scPack (TForm.ofWord w)
  | .scUnpack => .scUnpack (TForm.ofWord w)
  | .scSpec => .scSpec (TForm.ofWord w)
  | .mxTake => .mxTake (TForm.ofWord w)
  | .mxGive => .mxGive (TForm.ofWord w)
  | .mxMma => .mxMma (TForm.ofWord w)
  | .mxMmas => .mxMmas (TForm.ofWord w)
  | .mxDist => .mxDist (TForm.ofWord w)
  | .mxTopk => .mxTopk (TForm.ofWord w)
  | .mxWload => .mxWload (TForm.ofWord w)
  | .mxAload => .mxAload (TForm.ofWord w)
  | .mxAstore => .mxAstore (TForm.ofWord w)
  | .mxAzero => .mxAzero (TForm.ofWord w)
  | .mxCfg => .mxCfg (TForm.ofWord w)
  | .memLdi => .memLdi (TForm.ofWord w)
  | .memAwait => .memAwait (TForm.ofWord w)
  | .memSt => .memSt (TForm.ofWord w)
  | .memLds => .memLds (TForm.ofWord w)
  | .memSts => .memSts (TForm.ofWord w)
  | .memFe => .memFe (TForm.ofWord w)
  | .memAtom => .memAtom (TForm.ofWord w)
  | .memFence => .memFence (TForm.ofWord w)
  | .memXfence => .memXfence (TForm.ofWord w)
  | .memPublish => .memPublish (TForm.ofWord w)
  | .memOpx => .memOpx (TForm.ofWord w)
  | .memOptab => .memOptab (TForm.ofWord w)
  | .cpColl => .cpColl (TForm.ofWord w)
  | .cpGath => .cpGath (TForm.ofWord w)
  | .cpPut => .cpPut (TForm.ofWord w)
  | .cpYield => .cpYield (BForm.ofWord w)
  | .cpWait => .cpWait (TForm.ofWord w)
  | .qBind => .qBind (TForm.ofWord w)
  | .qPut => .qPut (TForm.ofWord w)
  | .qTake => .qTake (TForm.ofWord w)
  | .qTry => .qTry (TForm.ofWord w)
  | .qLen => .qLen (TForm.ofWord w)
  | .ltNow => .ltNow (TForm.ofWord w)
  | .ltAdv => .ltAdv (TForm.ofWord w)
  | .ltEnter => .ltEnter (TForm.ofWord w)
  | .ltLeave => .ltLeave (TForm.ofWord w)
  | .ltHold => .ltHold (TForm.ofWord w)
  | .ltDrop => .ltDrop (TForm.ofWord w)
  | .ltWait => .ltWait (TForm.ofWord w)
  | .ltTest => .ltTest (TForm.ofWord w)
  | .tkPush => .tkPush (TForm.ofWord w)
  | .tkArgs => .tkArgs (TForm.ofWord w)
  | .tkEq => .tkEq (TForm.ofWord w)
  | .tkDq => .tkDq (TForm.ofWord w)
  | .tkRing => .tkRing (TForm.ofWord w)
  | .rgOpen => .rgOpen (TForm.ofWord w)
  | .rgClose => .rgClose (TForm.ofWord w)
  | .rgScore => .rgScore (TForm.ofWord w)
  | .rgGrow => .rgGrow (TForm.ofWord w)
  | .rgInfo => .rgInfo (TForm.ofWord w)
  | .rgAllow => .rgAllow (TForm.ofWord w)
  | .nmLaunch => .nmLaunch (TForm.ofWord w)
  | .nmRatio => .nmRatio (TForm.ofWord w)
  | .sysTrap => .sysTrap (TForm.ofWord w)
  | .sysEret => .sysEret (TForm.ofWord w)
  | .sysFrec => .sysFrec (TForm.ofWord w)
  | .sysFlog => .sysFlog (TForm.ofWord w)
  | .sysYield => .sysYield (TForm.ofWord w)
  | .sysDbg => .sysDbg (TForm.ofWord w)

/-- Decodes a core word: tests 1, 2 and 5 to 9 of R69, with VREGS 128 and SREGS 64. Tests 3 and
4, and the kernel's own budgets, need the clause and the team: checkWord makes them. -/
def decodeWord (w : Word) : Except Reject Instr :=
  match Mn.ofOpFn (wordOp w) (wordFn w) with
  | none => .error (if opAssigned (wordOp w) then .function else .opcode)
  | some m =>
    match fieldsFail m 128 64 (Fields.ofWord m.row.form w) with
    | some n => .error (Reject.ofTest n)
    | none => .ok (buildCore m w)

/-- V-form fields of a Sill word (R313). -/
def SillV.ofWord (w : BitVec 32) : SillV :=
  ⟨w.extractLsb' 22 5, w.extractLsb' 17 5, w.extractLsb' 12 5, w.extractLsb' 7 5,
    w.extractLsb' 5 2, w.extractLsb' 0 5⟩
/-- I-form fields of a Sill word (R313). -/
def SillI.ofWord (w : BitVec 32) : SillI :=
  ⟨w.extractLsb' 22 5, w.extractLsb' 20 2, w.extractLsb' 0 16⟩
/-- K-form fields of a Sill word (R313). -/
def SillK.ofWord (w : BitVec 32) : SillK :=
  ⟨w.extractLsb' 25 2, w.extractLsb' 23 2, w.extractLsb' 22 1, w.extractLsb' 18 4,
    w.extractLsb' 13 5, w.extractLsb' 12 1, w.extractLsb' 0 8⟩
/-- A-form fields of a Sill word (R313). -/
def SillA.ofWord (w : BitVec 32) : SillA :=
  ⟨w.extractLsb' 25 2, w.extractLsb' 23 2, w.extractLsb' 22 1, w.extractLsb' 0 22⟩
/-- L-form fields of a Sill word (R313). -/
def SillL.ofWord (w : BitVec 32) : SillL :=
  ⟨w.extractLsb' 26 1, w.extractLsb' 16 7, w.extractLsb' 0 16⟩
/-- Q-form fields of a Sill word (R313). -/
def SillQ.ofWord (w : BitVec 32) : SillQ :=
  ⟨w.extractLsb' 25 1, w.extractLsb' 21 4, w.extractLsb' 16 5, w.extractLsb' 14 2,
    w.extractLsb' 10 4⟩

/-- The word of each form, `op` in bits 31:27 (R313). -/
def SillV.word (f : SillV) (op : Nat) : BitVec 32 :=
  BitVec.ofNat 5 op ++ f.d ++ f.a ++ f.b ++ f.c ++ f.t ++ f.mod
/-- I form (R313). -/
def SillI.word (f : SillI) (op : Nat) : BitVec 32 :=
  BitVec.ofNat 5 op ++ f.d ++ f.t ++ (0 : BitVec 4) ++ f.imm
/-- K form (R313). -/
def SillK.word (f : SillK) (op : Nat) : BitVec 32 :=
  BitVec.ofNat 5 op ++ f.g ++ f.x ++ f.p ++ f.e ++ f.w ++ f.set ++ (0 : BitVec 4) ++ f.off
/-- A form (R313). -/
def SillA.word (f : SillA) (op : Nat) : BitVec 32 :=
  BitVec.ofNat 5 op ++ f.d ++ f.a ++ f.base ++ f.imm
/-- L form (R313). -/
def SillL.word (f : SillL) (op : Nat) : BitVec 32 :=
  BitVec.ofNat 5 op ++ f.l ++ (0 : BitVec 3) ++ f.stop ++ f.count
/-- Q form (R313), `src` the field FROM. -/
def SillQ.word (f : SillQ) (op : Nat) (src : BitVec 1) : BitVec 32 :=
  BitVec.ofNat 5 op ++ src ++ f.p ++ f.e ++ f.w ++ f.n ++ f.bank ++ (0 : BitVec 10)
/-- N form (R313). -/
def sillNWord (op : Nat) : BitVec 32 := BitVec.ofNat 5 op ++ (0 : BitVec 27)

/-- The instruction an OP of a Sill word names, its fields pulled out (R314). -/
def buildSill (w : BitVec 32) : Option Instr :=
  match (w.extractLsb' 27 5).toNat with
  | 0 => some .slNop
  | 1 => some .slHalt
  | 2 => some .slAbm
  | 3 => some .slSbm
  | 4 => some (.slAct (.ofWord w))
  | 5 => some (.slRd (.ofWord w))
  | 6 => some (.slWr (.ofWord w))
  | 7 => some (.slBx (.ofWord w))
  | 8 => some (.slMac (.ofWord w))
  | 9 => some (.slBred (.ofWord w))
  | 10 => some (.slAdd (.ofWord w))
  | 11 => some (.slSub (.ofWord w))
  | 12 => some (.slMul (.ofWord w))
  | 13 => some (.slFma (.ofWord w))
  | 14 => some (.slMin (.ofWord w))
  | 15 => some (.slMax (.ofWord w))
  | 16 => some (.slCmp (.ofWord w))
  | 17 => some (.slSel (.ofWord w))
  | 18 => some (.slCvt (.ofWord w))
  | 19 => some (.slMovi (.ofWord w))
  | 20 => some (.slMov (.ofWord w))
  | 21 => some (.slAg (.ofWord w))
  | 22 => some (.slLoop (.ofWord w))
  | 23 => if w.extractLsb' 26 1 = 0 then some (.slSendBa (.ofWord w)) else some (.slSendW (.ofWord w))
  | 24 => some (.slRecv (.ofWord w))
  | 25 => some .slFence
  | _ => none

/-- The Sill word of an instruction (R313, R314); zero for one that is not a Sill word. -/
def encodeSill (i : Instr) : BitVec 32 :=
  match i with
  | .slNop => sillNWord 0
  | .slHalt => sillNWord 1
  | .slAbm => sillNWord 2
  | .slSbm => sillNWord 3
  | .slAct f => f.word 4
  | .slRd f => f.word 5
  | .slWr f => f.word 6
  | .slBx f => f.word 7
  | .slMac f => f.word 8
  | .slBred f => f.word 9
  | .slAdd f => f.word 10
  | .slSub f => f.word 11
  | .slMul f => f.word 12
  | .slFma f => f.word 13
  | .slMin f => f.word 14
  | .slMax f => f.word 15
  | .slCmp f => f.word 16
  | .slSel f => f.word 17
  | .slCvt f => f.word 18
  | .slMovi f => f.word 19
  | .slMov f => f.word 20
  | .slAg f => f.word 21
  | .slLoop f => f.word 22
  | .slSendBa f => f.word 23 0
  | .slSendW f => f.word 23 1
  | .slRecv f => f.word 24 0
  | .slFence => sillNWord 25
  | _ => 0

/-- Decodes a Sill word. A word whose zero bits are not zero differs from the word its fields
encode to, and is refused with the other checks of R315. -/
def decodeSill (w : BitVec 32) : Except Reject Instr :=
  match buildSill w with
  | none => .error .sillWord
  | some i => if i.sillOk && encodeSill i == w then .ok i else .error .sillWord

/-- The instruction a run of bytes holds, little-endian (R55, R58): four bytes are a Sill word,
eight a core word. -/
def decodeBytes (bs : List Byte) : Except Reject Instr :=
  match bs with
  | [b0, b1, b2, b3] => decodeSill (b3 ++ b2 ++ b1 ++ b0)
  | [b0, b1, b2, b3, b4, b5, b6, b7] => decodeWord (b7 ++ b6 ++ b5 ++ b4 ++ b3 ++ b2 ++ b1 ++ b0)
  | _ => .error .length

/-- The bytes of a number, least significant first. -/
def bytesOfNat : Nat → Nat → List Byte
  | 0, _ => []
  | n + 1, x => BitVec.ofNat 8 x :: bytesOfNat n (x / 256)

/-- The 64-bit word of a core instruction (R59); zero for a Sill word or an event. -/
def encodeCore (i : Instr) : Word :=
  match i with
  | .frNop f => f.word 0 0
  | .frMov f => f.word 0 1
  | .frMovi f => f.word 1 2
  | .frMovhi f => f.word 1 3
  | .frAddT f => f.word 0 4
  | .frAddI f => f.word 1 4
  | .frSubT f => f.word 0 5
  | .frSubI f => f.word 1 5
  | .frMulT f => f.word 0 6
  | .frMulI f => f.word 1 6
  | .frMulh f => f.word 0 7
  | .frDiv f => f.word 0 8
  | .frRem f => f.word 0 9
  | .frAndT f => f.word 0 10
  | .frAndI f => f.word 1 10
  | .frOrT f => f.word 0 11
  | .frOrI f => f.word 1 11
  | .frXorT f => f.word 0 12
  | .frXorI f => f.word 1 12
  | .frShlT f => f.word 0 13
  | .frShlI f => f.word 1 13
  | .frShrT f => f.word 0 14
  | .frShrI f => f.word 1 14
  | .frSraT f => f.word 0 15
  | .frSraI f => f.word 1 15
  | .frMinT f => f.word 0 16
  | .frMinI f => f.word 1 16
  | .frMaxT f => f.word 0 17
  | .frMaxI f => f.word 1 17
  | .frCmp f => f.word 0 18
  | .frSel f => f.word 0 19
  | .frClz f => f.word 0 20
  | .frPopc f => f.word 0 21
  | .frLd f => f.word 1 22
  | .frSt f => f.word 1 23
  | .frCsrr f => f.word 1 24
  | .frCsrw f => f.word 1 25
  | .ctlBr f => f.word 32 0
  | .ctlJmp f => f.word 32 1
  | .ctlCall f => f.word 32 2
  | .ctlRet f => f.word 33 0
  | .ctlBrv f => f.word 32 3
  | .ctlJoin f => f.word 33 1
  | .ctlCallv f => f.word 33 2
  | .ctlRetq f => f.word 33 3
  | .ctlExit f => f.word 33 4
  | .kmSetT f => f.word 48 0
  | .kmSetI f => f.word 49 0
  | .kmAnd f => f.word 48 1
  | .kmOr f => f.word 48 2
  | .kmAndn f => f.word 48 3
  | .kmXor f => f.word 48 4
  | .kmNot f => f.word 48 5
  | .kmPop f => f.word 48 6
  | .kmFirst f => f.word 48 7
  | .kmInsT f => f.word 48 8
  | .kmInsI f => f.word 49 8
  | .kmExtT f => f.word 48 9
  | .kmExtI f => f.word 49 9
  | .kmExm f => f.word 48 10
  | .lnMov f => f.word 64 0
  | .lnMovi f => f.word 65 1
  | .lnMovs f => f.word 64 2
  | .lnAddT f => f.word 64 3
  | .lnAddI f => f.word 65 3
  | .lnSubT f => f.word 64 4
  | .lnSubI f => f.word 65 4
  | .lnAddc f => f.word 64 5
  | .lnSubb f => f.word 64 6
  | .lnMulT f => f.word 64 7
  | .lnMulI f => f.word 65 7
  | .lnMulh f => f.word 64 8
  | .lnMad f => f.word 64 9
  | .lnAndT f => f.word 64 10
  | .lnAndI f => f.word 65 10
  | .lnOrT f => f.word 64 11
  | .lnOrI f => f.word 65 11
  | .lnXorT f => f.word 64 12
  | .lnXorI f => f.word 65 12
  | .lnNot f => f.word 64 13
  | .lnShlT f => f.word 64 14
  | .lnShlI f => f.word 65 14
  | .lnShrT f => f.word 64 15
  | .lnShrI f => f.word 65 15
  | .lnSraT f => f.word 64 16
  | .lnSraI f => f.word 65 16
  | .lnRotT f => f.word 64 17
  | .lnRotI f => f.word 65 17
  | .lnMinT f => f.word 64 18
  | .lnMinI f => f.word 65 18
  | .lnMaxT f => f.word 64 19
  | .lnMaxI f => f.word 65 19
  | .lnAbs f => f.word 64 20
  | .lnNeg f => f.word 64 21
  | .lnCmp f => f.word 64 22
  | .lnSel f => f.word 64 23
  | .lnClz f => f.word 64 24
  | .lnPopc f => f.word 64 25
  | .lnBfx f => f.word 64 26
  | .lnBfi f => f.word 64 27
  | .lnPerm f => f.word 64 28
  | .lnCvt f => f.word 64 29
  | .lnSat f => f.word 64 30
  | .xlShflT f => f.word 96 0
  | .xlShflI f => f.word 97 0
  | .xlShfxT f => f.word 96 1
  | .xlShfxI f => f.word 97 1
  | .xlBcastT f => f.word 96 2
  | .xlBcastI f => f.word 97 2
  | .xlRed f => f.word 96 3
  | .xlRedi f => f.word 96 4
  | .xlScan f => f.word 96 5
  | .xlBallot f => f.word 96 6
  | .fpAdd f => f.word 104 0
  | .fpSub f => f.word 104 1
  | .fpMul f => f.word 104 2
  | .fpFma f => f.word 104 3
  | .fpMin f => f.word 104 4
  | .fpMax f => f.word 104 5
  | .fpAbs f => f.word 104 6
  | .fpNeg f => f.word 104 7
  | .fpCmp f => f.word 104 8
  | .fpCls f => f.word 104 9
  | .fpDiv f => f.word 104 10
  | .fpSqrt f => f.word 104 11
  | .fpRcp f => f.word 104 12
  | .fpRsq f => f.word 104 13
  | .fpExp2 f => f.word 104 14
  | .fpLog2 f => f.word 104 15
  | .fpRnd f => f.word 104 16
  | .fpCvt f => f.word 104 17
  | .fpFti f => f.word 104 18
  | .fpItf f => f.word 104 19
  | .fpLdexp f => f.word 104 20
  | .fpFrexp f => f.word 104 21
  | .dcAdd f => f.word 128 0
  | .dcSub f => f.word 128 1
  | .dcMul f => f.word 128 2
  | .dcFma f => f.word 128 3
  | .dcDiv f => f.word 128 4
  | .dcCmp f => f.word 128 5
  | .dcQuant f => f.word 128 6
  | .dcCvt f => f.word 128 7
  | .dcRnd f => f.word 128 8
  | .scScale f => f.word 144 0
  | .scQuant f => f.word 144 1
  | .scDeq f => f.word 144 2
  | .scPack f => f.word 144 3
  | .scUnpack f => f.word 144 4
  | .scSpec f => f.word 144 5
  | .mxTake f => f.word 152 0
  | .mxGive f => f.word 152 1
  | .mxMma f => f.word 152 2
  | .mxMmas f => f.word 152 3
  | .mxDist f => f.word 152 4
  | .mxTopk f => f.word 152 5
  | .mxWload f => f.word 152 6
  | .mxAload f => f.word 152 7
  | .mxAstore f => f.word 152 8
  | .mxAzero f => f.word 152 9
  | .mxCfg f => f.word 152 10
  | .memLdi f => f.word 160 0
  | .memAwait f => f.word 160 1
  | .memSt f => f.word 160 2
  | .memLds f => f.word 160 3
  | .memSts f => f.word 160 4
  | .memFe f => f.word 160 5
  | .memAtom f => f.word 160 6
  | .memFence f => f.word 160 7
  | .memXfence f => f.word 160 8
  | .memPublish f => f.word 160 9
  | .memOpx f => f.word 160 10
  | .memOptab f => f.word 160 11
  | .cpColl f => f.word 176 0
  | .cpGath f => f.word 176 1
  | .cpPut f => f.word 176 2
  | .cpYield f => f.word 177 3
  | .cpWait f => f.word 176 4
  | .qBind f => f.word 184 0
  | .qPut f => f.word 184 1
  | .qTake f => f.word 184 2
  | .qTry f => f.word 184 3
  | .qLen f => f.word 184 4
  | .ltNow f => f.word 192 0
  | .ltAdv f => f.word 192 1
  | .ltEnter f => f.word 192 2
  | .ltLeave f => f.word 192 3
  | .ltHold f => f.word 192 4
  | .ltDrop f => f.word 192 5
  | .ltWait f => f.word 192 6
  | .ltTest f => f.word 192 7
  | .tkPush f => f.word 200 0
  | .tkArgs f => f.word 200 1
  | .tkEq f => f.word 200 2
  | .tkDq f => f.word 200 3
  | .tkRing f => f.word 200 4
  | .rgOpen f => f.word 208 0
  | .rgClose f => f.word 208 1
  | .rgScore f => f.word 208 2
  | .rgGrow f => f.word 208 3
  | .rgInfo f => f.word 208 4
  | .rgAllow f => f.word 208 5
  | .nmLaunch f => f.word 216 0
  | .nmRatio f => f.word 216 1
  | .sysTrap f => f.word 220 0
  | .sysEret f => f.word 220 1
  | .sysFrec f => f.word 220 2
  | .sysFlog f => f.word 220 3
  | .sysYield f => f.word 220 4
  | .sysDbg f => f.word 220 5
  | _ => 0

/-- The bytes of an instruction as the device stores them: eight for a core word, four for a
Sill word, none for an event. -/
def encode (i : Instr) : List Byte :=
  match i.mn with
  | some _ => bytesOfNat 8 (encodeCore i).toNat
  | none =>
    match i with
    | .slNop | .slHalt | .slAbm | .slSbm | .slFence | .slAct _ | .slRd _ | .slWr _ | .slBx _
    | .slMac _ | .slBred _ | .slAdd _ | .slSub _ | .slMul _ | .slFma _ | .slMin _ | .slMax _
    | .slCmp _ | .slSel _ | .slCvt _ | .slMovi _ | .slMov _ | .slAg _ | .slLoop _ | .slSendBa _
    | .slSendW _ | .slRecv _ => bytesOfNat 4 (encodeSill i).toNat
    | _ => []

/-- The instruction the decoder reads from bits numbered as the opcode table numbers them. The
table gives a Sill row 32 bits and a core row 64, and no word has more (R55, R58). -/
def decodeTableWord (nbits w : Nat) : Option Instr :=
  match decodeBytes (bytesOfNat (nbits / 8) (w % 2 ^ nbits)) with
  | .ok i => some i
  | .error _ => none

end Sys2Proof
end

