-- ==== Sys2Proof/Machine/Blocks.lean ====
section
/-! DEFINITION. Block-scaled values (R120 to R125): the value of an element under its scale and
special byte, the scale rule, the coding of a block and the BEST3 search. -/

namespace Sys2Proof.Blocks

open Sys2Proof.Num (FVal Fmt fmtOf)

/-- A block's codes, scale code and special byte (R121). -/
structure Coded where
  codes : List Nat
  scale : Nat
  special : Nat
  deriving DecidableEq, Repr

/-- emax of an element format (R121). -/
def emax (ty : Nat) : Int :=
  match ty with
  | 14 => 2
  | 12 => 8
  | _ => 15

/-- A finite value times a power of two. -/
def scaled (v : FVal) (s : Int) : FVal :=
  match v with
  | .fin n m e => .fin n m (e + s)
  | v => v

/-- The value of an element code (R118, R120); E2M1's 0b1000 is the block's special value. -/
def elem (ty code : Nat) : FVal := (fmtOf ty).value code

/-- The value of an element under scale code `c` and special byte `p` (R122). -/
def value (ty code c p : Nat) : FVal :=
  if c = 0xFF then .nan false
  else if ty = 14 && code = 8 then
    match (fmtOf 12).value p with
    | .fin n 0 _ => if p = 0 then .fin false 0 0 else .fin n 0 0
    | v => scaled v ((c : Int) - 127)
  else scaled (elem ty code) ((c : Int) - 127)

/-- Whether a value is a NaN or an infinity. -/
def special? (v : FVal) : Bool :=
  match v with
  | .fin _ _ _ => false
  | _ => true

/-- The scale exponent before clamping is floor(log2 max|x|) - emax (R123); none when every |x|
is 0. -/
def scaleExp (ty : Nat) (xs : List FVal) : Option Int :=
  let tops := xs.filterMap fun v =>
    match v with
    | .fin _ m e => if m = 0 then none else some (Num.floorLog2 m e)
    | _ => none
  match tops with
  | [] => none
  | a :: rest => some (rest.foldl max a - emax ty)

/-- A scale exponent clamped to -127..127 (R123). -/
def clampScale (s : Int) : Int := max (-127) (min 127 s)

/-- The scale code R123 gives a block. -/
def scaleCode (ty : Nat) (xs : List FVal) : Nat :=
  if xs.any special? then 0xFF
  else match scaleExp ty xs with
    | none => 0
    | some s => (clampScale s + 127).toNat

/-- The code nearest x / 2^s, saturated; a zero takes code 0 (R124). -/
def code (ty : Nat) (s : Int) (x : FVal) : Nat :=
  match x with
  | .fin n m e =>
    let f := fmtOf ty
    let bits := (f.round .rne false true false m (e - s) false).1
    if bits = 0 then 0 else f.signBit n + bits
  | _ => 0

/-- |x / 2^s - v| as a magnitude in units of 2^g, with `g` below every exponent concerned. -/
def errUnits (g : Int) (s : Int) (x v : FVal) : Nat :=
  match x, v with
  | .fin n m e, .fin k j h => (Num.toUnits n m (e - s) g - Num.toUnits k j h g).natAbs
  | _, _ => 0

/-- The least exponent of a list of values, at most `h`. -/
def leastExp (h : Int) (xs : List FVal) : Int :=
  xs.foldl (fun g v => match v with | .fin _ _ e => min g e | _ => g) h

/-- The exact squared error of a block under scale exponent `s`, in units of 2^(2 g) (R125). -/
def blockError (ty : Nat) (g s : Int) (xs : List FVal) : Nat :=
  xs.foldl (fun acc x =>
    let e := errUnits (g - s) s x (elem ty (code ty s x))
    acc + e * e) 0

/-- Steps 3 to 5 of R125 under scale exponent `s`: the codes and the special byte of an E2M1
block. -/
def addSpecial (s : Int) (xs : List FVal) : List Nat × Nat :=
  let codes := xs.map (code 14 s)
  let g := leastExp (-16) xs - s - 16
  let g := min g (-16)
  let errs := xs.map fun x => errUnits g s x (elem 14 (code 14 s x))
  let worst := errs.foldl max 0
  if worst = 0 then (codes, 0)
  else
    let x := xs.getD (errs.findIdx (· == worst)) (.fin false 0 0)
    let p := match x with
      | .fin n m e =>
        let b := ((fmtOf 12).round .rne false true n m (e - s) false).1
        if b % 128 = 0 then 0 else b
      | _ => 0
    let pv := (fmtOf 12).value p
    let recoded := (xs.zip (codes.zip errs)).map fun t =>
      if errUnits g s t.1 pv < t.2.2 then 8 else t.2.1
    if recoded.contains 8 then (recoded, p) else (codes, 0)

/-- The quantiser (R123 to R125, R157): mode RULE, or BEST3 when `best` is set. -/
def quantize (ty : Nat) (best : Bool) (xs : List FVal) : Coded :=
  if xs.any special? then ⟨xs.map fun _ => 0, 0xFF, 0⟩
  else match scaleExp ty xs with
    | none => ⟨xs.map fun _ => 0, 0, 0⟩
    | some s =>
      let s0 := clampScale s
      if !best then ⟨xs.map (code ty s0), (s0 + 127).toNat, 0⟩
      else
        let g := leastExp (-40) xs - 160
        let err := fun t => blockError ty g t xs
        let better (a b : Int) : Int :=
          if !(decide (-127 ≤ b ∧ b ≤ 127)) then a
          else if err b < err a then b
          else a
        -- ties go to s0, then to the larger scale
        let k := better (better s0 (s0 + 1)) (s0 - 1)
        if ty = 14 then
          let r := addSpecial k xs
          ⟨r.1, (k + 127).toNat, r.2⟩
        else ⟨xs.map (code ty k), (k + 127).toNat, 0⟩

/-- sc.spec (R161): the block coded anew under the scale code `c`, with a special value. -/
def respecial (c : Nat) (xs : List FVal) : Coded :=
  if c = 0xFF || xs.any special? then ⟨xs.map fun _ => 0, 0xFF, 0⟩
  else
    let r := addSpecial ((c : Int) - 127) xs
    ⟨r.1, c, r.2⟩

end Sys2Proof.Blocks
end

