-- ==== Sys2Proof/Machine/Matrix.lean ====
section
/-! DEFINITION. The matrix engine (R163 to R181): accumulator rows, weight-buffer tiles, A rows,
the Latchkey, the actions of the eleven mx instructions, and the matrix command stream, whose words a push
hands over (R205). -/

namespace Sys2Proof.Machine

/-- Bytes of the weight buffer (R166). -/
def wbufSize : Nat := 393216

/-- Whether the team at issue holds its core's Latchkey (R171). -/
def State.holdsKey (s : State) (i : Nat) : Bool := decide ((s.core (s.team i).core).latch = .held i)

/-- A uniform fault of an mx instruction names the lowest active lane, or 0 (R173). -/
def mxFail {α : Type} (km : Nat) (c : Cause) (detail : Nat) (ea : Word) : Act α := do
  let t ← tm
  let lane := (t.lanesOf km).headD 0
  trap { t.record c detail with ea := ea, lane := lane }

/-- LATCHKEY, for every mx instruction but mx.take (R173). -/
def needKey (km : Nat) : Act Unit := do
  let s ← get
  let i ← me
  if s.holdsKey i then pure () else mxFail km .latchkey 0 0

/-- A uniform operand of an mx instruction; its poison names the lowest active lane (R173). -/
def mxRead (km : Nat) (r : Reg) : Act Word := do
  let t ← tm
  match t.lpoison 0 1 r with
  | some (q, o) => trap (t.poisonRec ((t.lanesOf km).headD 0) q o)
  | none => sread r

/-! ## Accumulator rows -/

/-- Key of an accumulator column. -/
def accKey (row col : Nat) : Nat := 128 * row + col
/-- A column of a row (R163). -/
def Team.getAcc (t : Team) (row col : Nat) : LaneWord := SMap.val t.acc 0 (accKey row col)
/-- Write a column of a row. -/
def Team.setAcc (t : Team) (row col : Nat) (x : LaneWord) : Team :=
  { t with acc := SMap.set 0 t.acc (accKey row col) x }
/-- Write consecutive columns of a row. -/
def Team.setCols (t : Team) (row col : Nat) : List LaneWord → Team
  | [] => t
  | x :: xs => (t.setAcc row col x).setCols row (col + 1) xs
/-- The row of a lane (R164). -/
def Team.rowOf (t : Team) (lane : Nat) : Nat := t.accb.toNat + lane

/-! ## A rows (R169, R156) -/

/-- The bits of element `k` of the A row that starts at V[d]. -/
def Team.rowBits (t : Team) (ty : Ty) (lane d k : Nat) : Nat :=
  match ty with
  | .f16 | .bf16 => (t.getV lane (d + k / 2)).toNat / 2 ^ (16 * (k % 2)) % 2 ^ 16
  | .f32 => (t.getV lane (d + k)).toNat
  | .f64 => (t.getPair lane (d + 2 * k)).toNat
  | .e2m1 => (t.getV lane (d + k / 8)).toNat / 2 ^ (4 * (k % 8)) % 16
  | _ => (t.getV lane (d + k / 4)).toNat / 2 ^ (8 * (k % 4)) % 256

/-- How many elements an A row has (R169). -/
def rowLen (ty : Ty) : Nat := if ty = .f64 then 12 else 48

/-! ## B tiles (R167, R168) -/

/-- Stride of a column's record. -/
def tileStride (ty : Ty) (sparse : Bool) : Nat :=
  match ty, sparse with
  | .e2m1, false => 32 | .e2m1, true => 24
  | .e4m3, false | .e5m2, false => 64
  | .e4m3, true | .e5m2, true => 32
  | .f32, _ => 192
  | _, _ => 96

/-- Offset in the buffer of a byte of a tile, wrapping (R166). -/
def tileByte (slot off : Nat) : Nat := (4096 * slot + off) % wbufSize

/-- A byte of a tile. -/
def Core.tile (c : Core) (slot off : Nat) : Nat := (SMap.val c.wbuf 0 (tileByte slot off)).toNat

/-- The two positions a pattern nibble keeps; none reads as four zeros (R168). -/
def keptAt (nib : Nat) : Option (Nat × Nat) :=
  match nib with
  | 0 => some (0, 1) | 1 => some (0, 2) | 2 => some (0, 3) | 3 => some (1, 2) | 4 => some (1, 3)
  | 5 => some (2, 3) | _ => none

/-- The bits of element `k` of column `j` of the tile at a slot (R167, R168). -/
def Core.elemBits (c : Core) (ty : Ty) (sparse : Bool) (slot j k : Nat) : Nat :=
  let base := tileStride ty sparse * j
  let byte (o : Nat) : Nat := c.tile slot (base + o)
  let nibble (o i : Nat) : Nat := byte (o + i / 2) / 16 ^ (i % 2) % 16
  match ty with
  | .f16 | .bf16 => byte (2 * k) + 256 * byte (2 * k + 1)
  | .f32 => leNat ((List.range 4).map fun i => BitVec.ofNat 8 (byte (4 * k + i)))
  | .f64 => leNat ((List.range 8).map fun i => BitVec.ofNat 8 (byte (8 * k + i)))
  | _ =>
    let four := ty = .e2m1
    if sparse then
      let g := k / 4
      let nib := nibble (if four then 12 else 24) g
      let kept (i : Nat) : Nat := if four then nibble 0 i else byte i
      match keptAt nib with
      | some (lo, hi) => if k % 4 = lo then kept (2 * g) else if k % 4 = hi then kept (2 * g + 1) else 0
      | none => 0
    else if four then nibble 0 k else byte k

/-- Offsets within a column's record of the scale and the special byte (R167). -/
def scaleAt (ty : Ty) (sparse : Bool) : Nat :=
  match ty, sparse with
  | .e2m1, false => 24 | .e2m1, true => 18 | _, false => 48 | _, true => 30

/-- How many bytes of a column's record the instruction reads; those shown as zero are not read
(R167). -/
def columnBytes (ty : Ty) (sparse scaled : Bool) : Nat :=
  match ty with
  | .e2m1 => if sparse then 20 else 26
  | .e4m3 | .e5m2 => if sparse then (if scaled then 31 else 30) else if scaled then 49 else 48
  | .f32 => 192
  | _ => 96

/-- The first poisoned byte of a tile that the instruction reads, with its ORIGIN (R173). -/
def Core.tilePoison (c : Core) (ty : Ty) (sparse scaled : Bool) (slot cols : Nat) : Option (Nat × Nat) :=
  if c.wpoison.isEmpty then none
  else (List.range cols).findSome? fun j =>
    (List.range (columnBytes ty sparse scaled)).findSome? fun o =>
      let b := tileByte slot (tileStride ty sparse * j + o)
      match SMap.find c.wpoison b with
      | some g => some (b, g)
      | none => none

/-- The value of element `k` of column `j`: with the column's scale and special byte when
`scaled` (R122). -/
def Core.elem (c : Core) (ty : Ty) (sparse scaled : Bool) (slot j k : Nat) : Num.FVal :=
  let bits := c.elemBits ty sparse slot j k
  if scaled then
    let base := tileStride ty sparse * j + scaleAt ty sparse
    Blocks.value ty.code bits (c.tile slot base) (c.tile slot (base + 1))
  else (Num.fmtOf ty.code).value bits

/-- Whether an instruction of a type reads the tile in sparse form (R168). -/
def Core.sparseAt (c : Core) (ty : Ty) (slot : Nat) : Bool :=
  (ty == .e2m1 || ty == .e4m3 || ty == .e5m2) && SMap.val c.tags false (slot % 96)

/-! ## The lanes of a per-lane instruction -/

/-- The records of the lanes that trap, ACCUM before POISON (R165, R173), and the lanes that
proceed. `uses` lists the registers a lane reads. -/
def mxLanes (t : Team) (km : Nat) (uses : List (Reg × Nat)) (tile : Option (Nat × Nat)) :
    List Rec × List Nat :=
  let check (l : Nat) : Option Rec :=
    if t.accrows ≤ t.rowOf l then
      some { t.laneRec l .accum 1 with ea := BitVec.ofNat 64 (t.rowOf l) }
    else match t.firstPoison l uses with
      | some (r, o) => some (t.poisonRec l r o)
      | none =>
        match tile with
        | some (b, o) => some { t.laneRec l .poison 0x100 with ea := BitVec.ofNat 64 b, origin := o }
        | none => none
  ((t.lanesOf km).filterMap check, (t.lanesOf km).filter fun l => (check l).isNone)

/-- One row of mx.mma and mx.mmas (R176). -/
def mmaRow (t : Team) (c : Core) (ty : Ty) (sparse scaled : Bool) (slot lane d : Nat)
    (scale special : Nat) : Team :=
  let r := t.rowOf lane
  let zacc := t.mxc.getLsbD 7
  let a (k : Nat) : Num.FVal :=
    let bits := t.rowBits ty lane d k
    if scaled then Blocks.value ty.code bits scale special else (Num.fmtOf ty.code).value bits
  let as := (List.range (rowLen ty)).map a
  if ty = .f64 then
    (List.range 64).foldl (fun u j =>
      let old : Word := if zacc then 0 else u.getAcc r (2 * j + 1) ++ u.getAcc r (2 * j)
      let sum := ((List.range 12).zip as).foldl (fun acc p =>
        (Num.f64.fma .rne false p.2 (c.elem ty sparse false slot j p.1) (Num.f64.value acc)).1) old.toNat
      (u.setAcc r (2 * j) (BitVec.ofNat 32 sum)).setAcc r (2 * j + 1) (BitVec.ofNat 32 (sum / 2 ^ 32))) t
  else
    t.setCols r 0 ((List.range 128).map fun j =>
      let old := if zacc then 0 else (t.getAcc r j).toNat
      let ps := ((List.range 48).zip as).map fun p => Num.prod p.2 (c.elem ty sparse scaled slot j p.1)
      BitVec.ofNat 32 (Num.rne32 (Num.sumExact (Num.f32.value old :: ps))))

/-- WSLOT (R170). -/
def Team.wslot (t : Team) : Nat := t.mxc.toNat % 128

/-- mx.mma and mx.mmas (R176). -/
def mxMul (f : TForm) (scaled : Bool) : Act Unit := do
  needKey f.km.val
  let t ← tm
  let c := (← get).core t.core
  let d := match f.d with | .v n => n.val | _ => 0
  let slot := t.wslot
  let sparse := c.sparseAt f.ty slot
  let cols := if f.ty = .f64 then 64 else 128
  let uses := (f.d, (arowSpan f.ty.code).1) :: if scaled then [(f.a, 1)] else []
  let (traps, lanes) := mxLanes t f.km.val uses (c.tilePoison f.ty sparse scaled slot cols)
  let bsel := f.mod.toNat % 4
  modTm fun t => lanes.foldl (fun u l =>
    let sc := match f.a with | .v n => (u.getV l n).toNat | _ => 0
    mmaRow u c f.ty sparse scaled slot l d (sc / 256 ^ bsel % 256) (sc / 256 ^ (bsel + 1) % 256)) t
  finishLanes traps

/-- The exact difference of two values; infinities of one sign have none (R177). -/
def exactDiff (x y : Num.FVal) : Num.FVal := (Num.addExact .rne x y.negate).1

/-- mx.dist (R177). -/
def mxDist (f : TForm) : Act Unit := do
  needKey f.km.val
  let t ← tm
  let c := (← get).core t.core
  let d := match f.d with | .v n => n.val | _ => 0
  let slot := t.wslot
  let fmt := Num.fmtOf f.ty.code
  let (traps, lanes) :=
    mxLanes t f.km.val [(f.d, (arowSpan f.ty.code).1)] (c.tilePoison f.ty false false slot 128)
  let keep := f.mod.getLsbD 0
  modTm fun t => lanes.foldl (fun u l =>
    let r := u.rowOf l
    let as := (List.range 48).map fun k => fmt.value (u.rowBits f.ty l d k)
    u.setCols r 0 ((List.range 128).map fun j =>
      let old := if keep then (u.getAcc r j).toNat else 0
      let ps := ((List.range 48).zip as).map fun p =>
        let df := exactDiff p.2 (c.elem f.ty false false slot j p.1)
        Num.prod df df
      BitVec.ofNat 32 (Num.rne32 (Num.sumExact (Num.f32.value old :: ps))))) t
  finishLanes traps

/-- The place of an FP32 bit pattern among numbers, −0 below +0; none for a NaN (R178). -/
def rankKey (bits : LaneWord) : Option Int :=
  let b : Nat := bits.toNat
  let m : Nat := b % 2 ^ 31
  if 0x7F800000 < m then none else some (if 2 ^ 31 ≤ b then -(m : Int) - 1 else (m : Int))

/-- Whether column `i` ranks before column `j` (R178). -/
def ranksBefore (max : Bool) (row : Nat → LaneWord) (i j : Nat) : Bool :=
  match rankKey (row i), rankKey (row j) with
  | some a, some b => if a = b then decide (i < j) else if max then decide (b < a) else decide (a < b)
  | some _, none => true
  | none, some _ => false
  | none, none => decide (i < j)

/-- Insertion into a list sorted by a relation. -/
def insertBy {α : Type} (before : α → α → Bool) (x : α) : List α → List α
  | [] => [x]
  | y :: ys => if before x y then x :: y :: ys else y :: insertBy before x ys
/-- Sort by a relation. -/
def sortBy {α : Type} (before : α → α → Bool) (xs : List α) : List α :=
  xs.foldl (fun acc x => insertBy before x acc) []

/-- mx.topk (R178). -/
def mxTopk (f : TForm) : Act Unit := do
  needKey f.km.val
  let t ← tm
  let m := f.mod.toNat % 16 + 1
  let max := f.mod.getLsbD 4
  let val := f.mod.getLsbD 5
  let d := match f.d with | .v n => n.val | _ => 0
  let (traps, lanes) := mxLanes t f.km.val [] none
  let rs := lanes.flatMap fun l =>
    let row (j : Nat) : LaneWord := t.getAcc (t.rowOf l) j
    let best := (sortBy (ranksBefore max row) (List.range 128)).take m
    let idx := ((List.range m).zip best).map fun p =>
      (⟨.v l (d + p.1), BitVec.ofNat 64 p.2, 0⟩ : Result)
    let vals := ((List.range m).zip best).map fun p =>
      (⟨.v l (d + m + p.1), (row p.2).setWidth 64, 0⟩ : Result)
    if val then idx ++ vals else idx
  deliverResults f.la rs 0 0 traps

/-- A column operand of mx.aload and mx.astore, read in full, with the check of its range (R179).
With an empty active set nothing is read (R31); a poisoned one traps every active lane, with ACCUM where its row
lies outside the team's (R173). -/
def mxColumn (f : TForm) : Act Nat := do
  let t ← tm
  let lanes := t.lanesOf f.km.val
  if lanes.isEmpty then return 0
  match t.lpoison 0 1 f.a with
  | some _ => throw (.trap (mxLanes t f.km.val [(f.a, 1)] none).1)
  | none => do
    let c ← sread f.a
    if 128 < c.toNat + f.mod.toNat + 1 then mxFail f.km.val .accum 2 c
    return c.toNat

/-- mx.aload (R179). -/
def mxAload (f : TForm) : Act Unit := do
  needKey f.km.val
  let c ← mxColumn f
  let t ← tm
  let m := f.mod.toNat + 1
  let d := match f.d with | .v n => n.val | _ => 0
  let (traps, lanes) := mxLanes t f.km.val [(f.d, m)] none
  modTm fun t => lanes.foldl (fun u l =>
    u.setCols (u.rowOf l) c ((List.range m).map fun i => u.getV l (d + i))) t
  finishLanes traps

/-- mx.astore (R179). -/
def mxAstore (f : TForm) : Act Unit := do
  needKey f.km.val
  let c ← mxColumn f
  let t ← tm
  let m := f.mod.toNat + 1
  let d := match f.d with | .v n => n.val | _ => 0
  let (traps, lanes) := mxLanes t f.km.val [] none
  let rs := lanes.flatMap fun l => (List.range m).map fun i =>
    (⟨.v l (d + i), (t.getAcc (t.rowOf l) (c + i)).setWidth 64, 0⟩ : Result)
  deliverResults f.la rs 0 0 traps

/-- mx.azero (R180). -/
def mxAzero (f : TForm) : Act Unit := do
  needKey f.km.val
  let t ← tm
  let (traps, lanes) := mxLanes t f.km.val [] none
  modTm fun t => lanes.foldl (fun u l => u.setCols (u.rowOf l) 0 (List.replicate 128 0)) t
  finishLanes traps

/-- mx.cfg (R170). -/
def mxCfg (f : TForm) : Act Unit := do
  needKey 0
  let x ← mxRead 0 f.a
  let t ← tm
  swrite f.d (t.mxc.setWidth 64)
  modTm fun t =>
    { t with mxc := BitVec.ofNat 8 (x.toNat % 128 % 96 + (if x.getLsbD 7 then 128 else 0)) }

/-- mx.take (R171). -/
def mxTake : Act Unit := do
  let t ← tm
  let i ← me
  let s ← get
  match (s.core t.core).latch with
  | .free =>
    modify fun (s : State) => (s.withCore t.core fun c => { c with latch := .held i }).withTeam i fun t => { t with wantsKey := false }
  | .held j =>
    if j = i then modTm fun t => { t with wantsKey := false }
    else do
      modTm fun t => { t with wantsKey := true }
      blockAt { held := true }
  | .passing _ _ => do
    modTm fun t => { t with wantsKey := true }
    blockAt { held := true }

/-- mx.give (R171, R174). -/
def mxGive : Act Unit := do
  needKey 0
  let t ← tm
  let i ← me
  modify fun (s : State) => s.withCore t.core fun c => { c with latch := .passing i t.slot }

/-- Bytes that a mx.wload moves (R175). -/
def wloadBytes (f : TForm) : Nat :=
  let kind := f.mod.toNat % 4
  if kind = 2 then 4096 * (f.mod.toNat / 4 + 1) else 128 * tileStride f.ty (kind == 1)

/-- mx.wload (R175): the request is accepted; residency comes byte by byte (WLOAD_RESIDENT). -/
def mxWload (f : TForm) : Act Unit := do
  needKey 0
  let slot ← mxRead 0 f.d
  let addr ← mxRead 0 f.a
  if addr.toNat % 128 != 0 then mxFail 0 .misalign 0 addr
  let n := wloadBytes f
  let start := 4096 * (slot.toNat % 96)
  let t ← tm
  let ks ← reachRange { r := true } accRead addr n ((t.lanesOf 0).headD 0)
  let i ← fresh
  let id ← me
  let counter := match f.b with | .a n => n.val | _ => 0
  let offs := ks.foldl (fun (p : Nat × List (Nat × Nat × Nat)) k => (p.1 + k.2, p.2 ++ [(k.1, p.1, k.2)])) (start, [])
  let sparse := f.mod.toNat % 4 == 1
  let slots := (List.range ((n + 4095) / 4096)).map fun k => (start / 4096 + k) % 96
  modify fun (s : State) => s.withCore t.core fun c =>
    { c with
      tags := slots.foldl (fun m k => SMap.set false m k sparse) c.tags
      wloads := c.wloads ++ [⟨i, id, offs.2, counter⟩] }

/-! ## The matrix command stream (R205; log 18) -/

/-- The action of an mx instruction as a word of the stream: its results land as it is executed. -/
def mxAct (i : Instr) : Option (Act Unit) :=
  match i with
  | .mxTake _ => some mxTake
  | .mxGive _ => some mxGive
  | .mxMma f => some (mxMul f false)
  | .mxMmas f => some (mxMul f true)
  | .mxDist f => some (mxDist f)
  | .mxTopk f => some (mxTopk { f with la := 0 })
  | .mxWload f => some (mxWload f)
  | .mxAload f => some (mxAload f)
  | .mxAstore f => some (mxAstore { f with la := 0 })
  | .mxAzero f => some (mxAzero f)
  | .mxCfg f => some (mxCfg f)
  | _ => none

/-- The action of a word, checked as in a MATRIX clause: ENCODING where it fails (R69). -/
def mxWord (w : Word) : Act (Act Unit) := do
  let t ← tm
  match checkWord 2 false t.desc.vregs t.desc.sregs w with
  | some d => fail .encoding d
  | none =>
    match decodeWord w with
    | .ok i =>
      match mxAct i with
      | some a => return a
      | none => fail .encoding 3
    | .error _ => fail .encoding 1

/-- Execute a word of a team's stream under the clause and index of the instruction that pushed it; what
the team has open otherwise stays as it is. -/
def State.mxRun (s : State) (i : Nat) (x : MxWord) : Except Stop Unit × State :=
  let t := s.team i
  let c : OpenClause := { header := x.clause, eng := 2, words := [], idx := x.index }
  let s1 := s.withTeam i fun t => ({ t with clause := some c, declared := x.declared } : Team).withProgress {}
  let act : Act Unit := do (← mxWord x.word)
  let r := act.go { s1 with cur := some i }
  let s2 := r.2.withTeam i fun u => ({ u with clause := t.clause, declared := t.declared } : Team).withProgress t.progress
  (r.1, { s2 with cur := s.cur })

/-- Execute the words of a team's stream in order, up to one that must wait. The records of a fault wait for
the team's next header and name the instruction that pushed the word. -/
def State.mxDrain (s : State) (i : Nat) : Nat → State
  | 0 => s
  | fuel + 1 =>
    let t := s.team i
    match t.mxq with
    | [] => s
    | x :: rest =>
      if !x.rids.isEmpty || t.keptKey || decide (t.place ≠ Place.resident) then s
      else
        let r := s.mxRun i x
        let rest (f : Team → Team) : State := r.2.withTeam i fun t => f { t with mxq := rest }
        match r.1 with
        | .error (.block b) => r.2.withTeam i fun t => { t with mxq := { x with rids := b.rids } :: t.mxq.drop 1 }
        | .error (.trap rs) =>
          (rest fun t => { t with headerRecs := t.headerRecs ++ rs.map fun r => { r with named := true } }).mxDrain i fuel
        | _ => (rest id).mxDrain i fuel

/-- Words that a matrix command stream holds. -/
def mxPlaces : Nat := 32

/-- What the stream of a team can execute is executed (MATRIX_STREAM). -/
def State.mxGo (s : State) (i : Nat) : State := s.mxDrain i (mxPlaces + 1)

/-- An mx instruction of a clause: it comes behind the words pushed before it. -/
def mxDirect (a : Act Unit) : Act Unit := do
  let i ← me
  modify fun (s : State) => s.mxGo i
  if !(← tm).mxq.isEmpty then blockAt { held := true }
  a

/-- Push a word to the stream. One that can be executed at once is, and its faults are the push's; else it
takes a place, for which the push waits. -/
def mxPush (w : Word) : Act Unit := do
  let _ ← mxWord w
  let i ← me
  modify fun (s : State) => s.mxGo i
  let t ← tm
  if mxPlaces ≤ t.mxq.length then blockAt { detail := 1 }
  let r := t.record .encoding 0
  let x : MxWord := { word := w, clause := r.clause, index := r.index }
  let add (x : MxWord) : Act Unit := modTm fun t => { t with mxq := t.mxq ++ [x] }
  if t.mxq.isEmpty then
    let r := (← get).mxRun i x
    set r.2
    match r.1 with
    | .ok _ => pure ()
    | .error (.block b) => add { x with rids := b.rids }
    | .error e => throw e
  else add x

/-! ## The meanings (R173) -/

/-- mx.take (R171, R174). -/
def execMxTake (_f : TForm) (s : State) : Host.Outcome State Fault Refusal := runCore (mxDirect mxTake) s
/-- mx.give (R171, R174). -/
def execMxGive (_f : TForm) (s : State) : Host.Outcome State Fault Refusal := runCore (mxDirect mxGive) s
/-- mx.mma (R176). -/
def execMxMma (f : TForm) (s : State) : Host.Outcome State Fault Refusal := runCore (mxDirect (mxMul f false)) s
/-- mx.mmas (R176). -/
def execMxMmas (f : TForm) (s : State) : Host.Outcome State Fault Refusal := runCore (mxDirect (mxMul f true)) s
/-- mx.dist (R177). -/
def execMxDist (f : TForm) (s : State) : Host.Outcome State Fault Refusal := runCore (mxDirect (mxDist f)) s
/-- mx.topk (R178). -/
def execMxTopk (f : TForm) (s : State) : Host.Outcome State Fault Refusal := runCore (mxDirect (mxTopk f)) s
/-- mx.wload (R175). -/
def execMxWload (f : TForm) (s : State) : Host.Outcome State Fault Refusal := runCore (mxDirect (mxWload f)) s
/-- mx.aload (R179). -/
def execMxAload (f : TForm) (s : State) : Host.Outcome State Fault Refusal := runCore (mxDirect (mxAload f)) s
/-- mx.astore (R179). -/
def execMxAstore (f : TForm) (s : State) : Host.Outcome State Fault Refusal := runCore (mxDirect (mxAstore f)) s
/-- mx.azero (R180). -/
def execMxAzero (f : TForm) (s : State) : Host.Outcome State Fault Refusal := runCore (mxDirect (mxAzero f)) s
/-- mx.cfg (R170). -/
def execMxCfg (f : TForm) (s : State) : Host.Outcome State Fault Refusal := runCore (mxDirect (mxCfg f)) s

end Sys2Proof.Machine
end

