-- ==== Sys2Proof/Machine/Descriptor.lean ====
section
/-! DEFINITION. Kernel descriptors (R51): their fields, the checks a launch makes of them, and
whether one is usable (R394). -/

namespace Sys2Proof.Machine

/-- The fields of a descriptor at an address (R51). -/
def descOf (addr : Nat) (b : List Byte) : Desc :=
  { addr := addr
    entry := BitVec.ofNat 64 (bytesAt b 0 8)
    traph := BitVec.ofNat 64 (bytesAt b 8 8)
    livetab := BitVec.ofNat 64 (bytesAt b 16 8)
    psumtab := BitVec.ofNat 64 (bytesAt b 24 8)
    optabs := BitVec.ofNat 64 (bytesAt b 32 8)
    lanes := bytesAt b 40 2
    vregs := bytesAt b 42 1
    sregs := bytesAt b 43 1
    scratch := bytesAt b 44 4
    accrows := bytesAt b 48 2
    argbytes := bytesAt b 50 2
    ten := bytesAt b 52 2
    det := bytesAt b 54 1
    prio := bytesAt b 55 1
    layout := bytesAt b 56 4
    tdepth := bytesAt b 60 1
    affarg := bytesAt b 61 1
    livecnt := bytesAt b 62 1
    optcnt := bytesAt b 63 1
    psumcnt := bytesAt b 64 2 }

/-- A descriptor's fields lie in their ranges, and its reserved bytes are zero (R8, R46, R51). -/
def Desc.valid (d : Desc) (b : List Byte) : Bool :=
  d.entry.toNat % 8 == 0 && d.traph.toNat % 8 == 0 &&
  d.lanes % 32 == 0 && 32 ≤ d.lanes && d.lanes ≤ 1024 &&
  d.vregs % 8 == 0 && 8 ≤ d.vregs && d.vregs ≤ 128 &&
  d.sregs % 8 == 0 && 8 ≤ d.sregs && d.sregs ≤ 64 && d.argbytes / 8 ≤ d.sregs &&
  d.scratch % 128 == 0 && d.scratch ≤ 786432 && d.accrows ≤ 3072 &&
  d.argbytes % 8 == 0 && d.argbytes ≤ 256 &&
  Nat.land d.ten 0xE0E0 == 0 && d.det ≤ 1 && (d.prio ≤ 7 || d.prio == 0xFF) &&
  1 ≤ d.tdepth && d.tdepth ≤ 4 && (d.affarg == 0xFF || d.affarg < d.argbytes / 8) &&
  d.livecnt ≤ 64 && d.optcnt ≤ 8 && d.psumcnt ≤ 256 && ((d.psumtab == 0) == (d.psumcnt == 0)) &&
  (b.drop 66).all fun x => x == 0

/-- A range lies in a section of an admitted image. -/
def inSection (img : List Section) (ident addr size : Nat) : Bool :=
  img.any fun c => c.ident == ident && c.addr ≤ addr && addr + size ≤ c.addr + c.size

/-- ENTRY, and TRAPH where there is one, lie in no section that is not executable: .text alone is (R51). One
outside every admitted image lies in no section that is known, and is refused for that (R282, code 10). -/
def Desc.executable (d : Desc) (sp : Space) : Bool :=
  let known (a : Word) : Bool := sp.images.any fun img => img.any fun c => inSection [c] c.ident a.toNat 1
  let text (a : Word) : Bool := !known a || sp.images.any fun img => inSection img 1 a.toNat 8
  text d.entry && (d.traph == 0 || text d.traph)

/-- A descriptor is usable: it lies in the .kdesc of an admitted image, with its ENTRY and TRAPH
in the .text of the same image (R394). -/
def Desc.usable (d : Desc) (sp : Space) : Bool :=
  sp.images.any fun img =>
    inSection img 2 d.addr 128 && inSection img 1 d.entry.toNat 8 &&
      (d.traph == 0 || inSection img 1 d.traph.toNat 8)

end Sys2Proof.Machine
end

