-- ==== Sys2Proof/Machine/Regions.lean ====
section
/-! DEFINITION. Regions: the fields of a region control block, budgets, opening a launch, closing
a region, and the states of a tournament's entrants (R277 to R282, R289, R292 to R296). -/

namespace Sys2Proof.Machine

/-! ## The tree -/

/-- A region and its ancestors, itself first. -/
def State.lineage (s : State) : Nat → Nat → List Region
  | 0, _ => []
  | fuel + 1, r =>
    match SMap.find s.regions r with
    | none => []
    | some g =>
      match g.parent with
      | some p => g :: s.lineage fuel p
      | none => [g]

/-- CMP of the nearest tournament among a region and its ancestors (R300). -/
def State.nearestCmp (s : State) (r : Nat) : Option Nat :=
  ((s.lineage 16 r).find? fun g => g.kind == 2).map (·.cmp)

/-- A score as a key: greater is better (R295). -/
def scoreKey (cmp : Nat) (x : Word) : Int :=
  let k : Int :=
    match cmp % 4 with
    | 0 => x.toInt
    | 1 => x.toNat
    | _ => if x.toNat < 2 ^ 63 then x.toNat else -((x.toNat - 2 ^ 63 : Nat) : Int) - 1
  if bitOf cmp 2 then -k else k

/-! ## Budgets (R289) -/

/-- A team takes up its slot, registers and rows: it is resident, or saved in a context that has
not left the core (R359). -/
def Team.seated (t : Team) : Bool :=
  match t.place with
  | .resident => true
  | .saved => !t.debugStop && decide (t.core < 160)
  | .ended => false
/-- The teams that take up a core. -/
def State.seated (s : State) (core : Nat) : SMap Team := s.teams.filter fun t => t.2.core == core && t.2.seated

/-- Amounts of the three budgets: cores, bytes of scratchpad, accumulator rows. -/
structure Amounts where
  cores : Nat := 0
  scratch : Nat := 0
  rows : Nat := 0
  deriving DecidableEq, Repr

/-- The sum of two. -/
def Amounts.plus (a b : Amounts) : Amounts := ⟨a.cores + b.cores, a.scratch + b.scratch, a.rows + b.rows⟩
/-- What is left of one, never below 0. -/
def Amounts.less (a b : Amounts) : Amounts := ⟨a.cores - b.cores, a.scratch - b.scratch, a.rows - b.rows⟩

/-- The cores of a mask. -/
def maskCores (m : BitVec 160) : List Nat := (List.range 160).filter fun c => m.getLsbD c
/-- Cores bound to a launch. -/
def State.boundCores (s : State) (l : LaunchId) : Nat :=
  s.hearth.binds.foldl (fun n b =>
    if b.2.region = l.region && b.2.entrant = l.entrant then n + (maskCores b.2.cmask).length else n) 0

/-- What a launch holds: the greater of its bound cores and its reserve, its allocations and its
rows (R289). -/
def State.heldBy (s : State) (l : LaunchId) : Amounts :=
  { cores := max (s.boundCores l) ((s.region l.region).launch l.entrant).reserve
    scratch := s.cores.foldl (fun n c =>
      c.2.allocs.foldl (fun n a => if a.launch = l then n + a.size else n) n) 0
    rows := s.teams.foldl (fun n t =>
      if t.2.launch = l && decide (t.2.place ≠ Place.ended) then n + t.2.accrows else n) 0 }

/-- The budget of a launch: the region's, or its entrant's own (R292). -/
def Region.budget (g : Region) (e : Nat) : Amounts :=
  if g.kind = 2 then
    let l := g.launch e
    ⟨l.cores, l.scratchk * 1024 + l.grown, l.accrows⟩
  else ⟨g.cores, g.scratchk * 1024, g.accrows⟩

/-- What the child regions of a launch hold. -/
def State.childHeld (s : State) (l : LaunchId) : Amounts :=
  s.regions.foldl (fun a c =>
    if c.2.parent = some l.region && ((s.region l.region).kind ≠ 2 || c.2.opener = l.entrant) then
      a.plus ⟨c.2.cores, c.2.scratchk * 1024, c.2.accrows⟩
    else a) {}

/-- The unclaimed amounts of a launch (R289). -/
def State.unclaimed (s : State) (l : LaunchId) : Amounts :=
  (((s.region l.region).budget l.entrant).less (s.childHeld l)).less (s.heldBy l)

/-- How many more cores Hearth may bind to a launch: its region's CORES less what its children hold, or its
reserve where that is more, less those bound (R301). -/
def State.bindable (s : State) (l : LaunchId) : Nat :=
  let g := s.region l.region
  max (g.launch l.entrant).reserve ((g.budget l.entrant).cores - (s.childHeld l).cores) - s.boundCores l

/-- What rg.grow may draw on: the shares in a tournament, else the unclaimed budget (R301). -/
def State.growable (s : State) (l : LaunchId) : Amounts :=
  let g := s.region l.region
  if g.kind = 2 then
    let x := g.launch l.entrant
    ⟨x.shareCores, x.shareScratch, x.shareRows⟩
  else s.unclaimed l

/-! ## The control block (R278) -/

/-- A field outside its range, or a reserved byte that is not zero (R282, code 1). -/
def rcbBad (b : List Byte) : Bool :=
  let f (o n : Nat) : Nat := bytesAt b o n
  let clear (o n : Nat) : Bool := ((b.drop o).take n).all fun x => x == 0
  let tdep := f 62 1
  3 < f 8 1 || 7 < f 9 1 || 7 < f 10 1 || 2 < f 11 1 || 255 < f 12 4 ||
    f 16 2 < 1 || 160 < f 16 2 || !clear 18 2 || !clear 28 4 ||
    f 56 4 < 1 || 2 ^ 24 < f 56 4 || 4095 < f 60 2 || tdep < 1 || 4 < tdep || !clear 63 1 ||
    !clear (64 + 4 * tdep) (16 - 4 * tdep) || !clear 82 6 || !clear 128 128 ||
    (if f 8 1 = 2 then
      f 96 1 < 2 || 64 < f 96 1 || f 97 1 < 1 || 32 < f 97 1 || 7 < f 98 1 || f 98 1 % 4 == 3 ||
        4095 < f 102 2
    else !clear 96 32)

/-- TIME as it stands in the block, at TDEP. -/
def rcbTime (b : List Byte) : Stamp :=
  (List.range 4).map (fun i => bytesAt b (64 + 4 * i) 4) |>.take (bytesAt b 62 1)

/-- A region as its block and its parent give it (R279). `up` is the parent with the unclaimed
amounts of its launch; a root takes every field as written. -/
def regionOf (b : List Byte) (up : Option (Region × Amounts)) (now : Stamp) : Region :=
  let f (o n : Nat) : Nat := bytesAt b o n
  let w (o : Nat) : Word := BitVec.ofNat 64 (f o 8)
  let pick {α : Type} (bit : Nat) (own : α) (inherit : Region × Amounts → α) : α :=
    match up with
    | none => own
    | some u => if bitOf (f 12 4) bit then own else inherit u
  let kind := f 8 1
  let base := pick 7 (rcbTime b) fun _ => now
  { kind := kind
    prio := pick 0 (f 9 1) (·.1.prio)
    energy := pick 1 (f 10 1) (·.1.energy)
    fdpol := pick 2 (f 11 1) (·.1.fdpol)
    cores := pick 3 (f 16 2) (·.2.cores)
    scratchk := pick 4 (f 20 4) (·.2.scratch / 1024)
    accrows := pick 5 (f 24 4) (·.2.rows)
    allowb := pick 6 (w 32) (·.1.allowb)
    teams := f 56 4
    inloc := f 60 2
    time := if kind = 1 || kind = 2 then base ++ [0] else base
    donew := w 88
    entrants := if kind = 2 then f 96 1 else 0
    roundcap := f 97 1
    cmp := f 98 1
    tloc := f 102 2
    arena := w 112
    arenasz := w 120 }

/-- The pair at which an opener must cover, and the launch counts (R281). -/
def Region.openPair (g : Region) : Nat × Stamp := g.startPair

/-- An entrant's own amount of a budget: the remainder goes to the lowest indices (R292). -/
def shareOf (total n i : Nat) : Nat := total / n + (if i < total % n then 1 else 0)

/-- The launches of a region (R277, R292). -/
def Region.makeLaunches (g : Region) : List Launch :=
  if g.kind = 2 then
    (List.range g.entrants).map fun i =>
      { left := [(0, g.teams)], cores := shareOf g.cores g.entrants i, scratchk := shareOf g.scratchk g.entrants i,
        accrows := shareOf g.accrows g.entrants i }
  else [{ left := [(0, g.teams)] }]

/-! ## Reading for an open (R281) -/

/-- Who reads the structures of an open. -/
structure Opener where
  holder : Holder
  asid : Nat
  timeline : Nat
  gen : Nat
  declared : List Declared
  /-- The team that opens; none for a root. -/
  team : Option Nat := none

/-- Bytes at an address; none where they cannot be translated and no answer is awaited. The open
waits while a page request is outstanding. A team of a deterministic launch finds what it has staged (R291). -/
def Opener.read (o : Opener) (a : Word) (n : Nat) (need : Need := { r := true }) : Act (Option (List Byte × List (Nat × Nat))) := do
  let ps ← (pagePieces a.toNat n).mapM fun p => do
    let va : Word := BitVec.ofNat 64 p.1
    let page := p.1 % 2 ^ 57 / 4096 * 4096
    if (o.declared.any fun d => d.page == page) then return none
    match ← translate o.holder o.asid o.timeline o.gen va need with
    | .ok k _ => do
      let bs ← match o.team with
        | some i => do pure (← ownRead i (← get).serial k p.2).1
        | none => readPhys k p.2
      return some (bs, k, p.2)
    | .fault c d => do
      let rid ← postRequest o.asid o.timeline o.gen va c d accRead
      blockAt { rids := rid.toList, held := true }
    | _ => return none
  if ps.all (·.isSome) then
    return some ((ps.filterMap id).flatMap (·.1), (ps.filterMap id).map (·.2))
  else return none

/-- Bytes alone. -/
def Opener.bytes (o : Opener) (a : Word) (n : Nat) : Act (Option (List Byte)) := do
  return (← o.read a n).map (·.1)

/-- An address behind another. -/
def after (a : Word) (n : Nat) : Word := a + BitVec.ofNat 64 n

/-- The operator tables a descriptor lists; none for each that could not be read. -/
def Opener.tables (o : Opener) (d : Desc) : Act (List (Option (List Byte))) :=
  (List.range d.optcnt).mapM fun i => do
    match ← o.bytes (after d.optabs (8 * i)) 8 with
    | none => return none
    | some p => o.bytes (BitVec.ofNat 64 (leNat p)) 400

/-! ## Path summaries (R252, R54) -/

/-- A path-summary entry; none where its code is refused. -/
def psumOf (b : List Byte) : Option Psum :=
  let k := bytesAt b 6 2
  let act : Option Action :=
    match bytesAt b 4 1 with
    | 0 => if k = 0 then some .keep else none
    | 1 => some (.inc k)
    | 2 => if k = 0 then some .enter else none
    | 3 => if k = 0 then some .leave else none
    | _ => none
  if bytesAt b 5 1 != 0 || 4095 < bytesAt b 0 2 || 4095 < bytesAt b 2 2 then none
  else act.map fun a => ⟨bytesAt b 0 2, bytesAt b 2 2, a, []⟩

/-- The same entry, whoever added it. -/
def Psum.same (p q : Psum) : Bool := p.src == q.src && p.dst == q.dst && p.act == q.act

/-- The table with a launch's entries added. -/
def addPsums (old new : List Psum) (user : Nat) : List Psum :=
  new.foldl (fun ps p =>
    if ps.any p.same then ps.map fun q => if p.same q then { q with users := user :: q.users.erase user } else q
    else ps ++ [{ p with users := [user] }]) old

/-- A candidate at or below a time already passed (R252): every time counts as passed when the
frontier is empty. -/
def movesBack (front : Option Stamp) (c : Stamp) : Bool :=
  match front with
  | none => true
  | some f => stampLt (c ++ List.replicate (4 - c.length) 0) f

/-- The reach table after a launch adds its entries, or none where it is refused (R252). -/
def Space.withPsums (sp : Space) (new : List Psum) : Option (List Reach) :=
  let all := addPsums sp.psums new 0
  if 256 < all.length then none
  else if all.length = sp.psums.length then some sp.reach
  else
    match reachTable all with
    | none => none
    | some table =>
      let added := table.filter fun r => !sp.reach.contains r
      let back := added.any fun r => sp.counts.any fun c =>
        c.loc == r.src && decide (0 < c.n) && movesBack (sp.frontier r.dst) (mapActs r.acts c.stamp)
      if back then none else some table

/-- A launch's entries leave the table when the last launch that added them has ended (R252). -/
def State.dropPsums (s : State) (r : Nat) : State :=
  s.withSpace (s.region r).asid fun sp =>
    let ps := (sp.psums.map fun p => { p with users := p.users.filter (· != r) }).filter fun p => !p.users.isEmpty
    if ps.length = sp.psums.length then { sp with psums := ps }
    else { sp with psums := ps, reach := (reachTable ps).getD [] }

/-! ## Opening (R281, R282, R298) -/

/-- What is known of a launch when the codes of R282 are tried. -/
structure Offer where
  region : Region
  desc : Option (Desc × List Byte)
  args : Option (List Word)
  tables : List (Option (List Byte))
  psums : Option (List (Option Psum))

/-- A launch's structures, read as R281 says. -/
def Opener.offer (o : Opener) (g : Region) (kdesc args : Word) : Act Offer := do
  match ← o.bytes kdesc 128 with
  | none => return ⟨g, none, none, [], none⟩
  | some b =>
    let d := descOf kdesc.toNat b
    if kdesc.toNat % 128 != 0 || !d.valid b then return ⟨g, some (d, b), some [], [], some []⟩
    let a ← if d.argbytes = 0 then pure (some []) else o.bytes args d.argbytes
    let ts ← o.tables d
    let ps ← if d.psumcnt = 0 then pure (some []) else o.bytes d.psumtab (8 * d.psumcnt)
    let words := a.map fun b => (List.range (d.argbytes / 8)).map fun i => BitVec.ofNat 64 (bytesAt b (8 * i) 8)
    let sums := ps.map fun b => (List.range d.psumcnt).map fun i => psumOf ((b.drop (8 * i)).take 8)
    return ⟨{ g with desc := d, args := words.getD [] }, some (d, b), words, ts, sums⟩

/-- Code 3 for one launch: a team's needs above what a launch of the region may hold (R282). -/
def tooSmall (g : Region) (d : Desc) : Bool :=
  if g.kind = 2 then
    g.scratchk / g.entrants * 1024 < d.scratch || g.accrows / g.entrants < d.accrows
  else g.scratchk * 1024 < d.scratch || g.accrows < d.accrows

/-- Code 3 apart from the kernel's needs: a budget above what the parent leaves, or a tournament with more
entrants than cores (R282). -/
def overdrawn (g : Region) (up : Option Amounts) : Bool :=
  (up.any fun a => a.cores < g.cores || a.scratch / 1024 < g.scratchk || a.rows < g.accrows) ||
    (g.kind == 2 && g.cores < g.entrants)

/-- The first refusal that the region and its structures meet, 0 for none (R282). `up` is the
parent, its unclaimed amounts and its lineage; `covered` whether the opener covers. -/
def State.refusal (s : State) (asid : Nat) (o : Offer) (up : Option (Amounts × List Region)) (covered : Bool) : Nat :=
  let g := o.region
  let sp := s.space asid
  let lineage := (up.map (·.2)).getD []
  let bad2 := match o.desc with
    | none => false
    | some (d, b) =>
      d.addr % 128 != 0 || !d.valid b || !d.executable sp || 524288 < d.lanes * d.vregs || d.tdepth < g.time.length
  let bad3 := overdrawn g (up.map (·.1)) || (o.desc.any fun d => tooSmall g d.1)
  let bad4 := (o.tables.filterMap id).any fun t => (optabFail t).isSome
  let bad5 := match o.psums with
    | some ps => ps.any (·.isNone) || (sp.withPsums (ps.filterMap id)).isNone
    | none => false
  let open_ := (s.regions.filter fun r => r.2.asid == asid).length
  let bad8 := (g.kind == 2 && lineage.any fun p => p.kind == 3) || (g.kind == 3 && lineage.any fun p => p.kind == 2)
  let bad10 := match o.desc with
    | some (d, _) => !d.usable sp
    | none => false
  if 4 < g.time.length then 1
  else if bad2 then 2
  else if bad3 then 3
  else if bad4 then 4
  else if bad5 then 5
  else if 16 < lineage.length + 1 || 4096 ≤ open_ then 6
  else if !covered then 7
  else if bad8 then 8
  else if bad10 then 10
  else if o.desc.isNone || o.args.isNone || o.tables.contains none || o.psums.isNone then 11
  else 0

/-- Add a region that is accepted to the tree: PARENT and STATE are written and its counts added
(R281, R294, R298). It waits while the count hierarchy has no entry free (R254). -/
def enrol (g : Region) (o : Offer) (parentRcb : Word) : Act Nat := do
  let s ← get
  let r := s.serial
  let p := g.openPair
  let n := if g.kind = 2 then g.entrants else 1
  let next := lastCoord (· + 1) g.time
  let counted := (s.addCount none g.asid g.timeline p.1 p.2 n).bind fun s1 =>
    if g.kind = 2 then s1.addCount none g.asid g.timeline g.tloc next else some s1
  match counted with
  | none => blockAt { detail := 8 }
  | some s1 =>
    let ps := (o.psums.getD []).filterMap id
    let sp := s.space g.asid
    let reach := (sp.withPsums ps).getD sp.reach
    let s2 := s1.withSpace g.asid fun sp => { sp with psums := addPsums sp.psums ps r, reach := reach }
    let whole : Region :=
      { g with
        state := .ready, launches := g.makeLaunches, order := r
        roundCount := if g.kind = 2 then some next else none }
    let s3 := { s2 with regions := SMap.put s2.regions r whole, serial := r + 1 }
    let s4 := (s3.writeRcb r 0 (leBytes 8 parentRcb.toNat)).writeRcb r 80 [1, 0]
    set (if g.kind = 2 then s4.writeRound r else s4)
    return r

/-- Open a region from the bytes of its block (R281, R282, R298): the code, and the region when
it is 0. -/
def openRegion (who : Opener) (rcb : Word) (key : Nat) (b : List Byte) (parent : Option (Nat × LaunchId))
    (now : Stamp) (covers : Nat → Stamp → Bool) (queue : Nat) (tag : Word) : Act (Nat × Option Nat) := do
  let s ← get
  let up := parent.map fun p => (s.region p.1, s.unclaimed p.2)
  if rcbBad b then return (1, none)
  let raised := match up with
    | some (p, _) => bitOf (bytesAt b 12 4) 0 && bytesAt b 9 1 < p.prio
    | none => false
  let g := regionOf b up now
  if raised || 4 < g.time.length then return (1, none)
  let o ← { who with gen := g.time.headD 0 }.offer g (BitVec.ofNat 64 (bytesAt b 40 8)) (BitVec.ofNat 64 (bytesAt b 48 8))
  let s ← get
  let lineage := (parent.map fun p => s.lineage 16 p.1).getD []
  let g := o.region
  let p := g.openPair
  let code := s.refusal who.asid o (up.map fun u => (u.2, lineage)) (covers p.1 p.2)
  if code != 0 then return (code, none)
  let det := g.kind == 3 || g.desc.det == 1 || lineage.any fun a => a.kind == 3
  let r ← enrol
    { g with
      asid := who.asid, timeline := who.timeline, rcb := rcb, key := key, parent := parent.map (·.1)
      opener := ((parent.map (·.2.entrant)).getD 0), det := det, depth := lineage.length + 1
      queue := queue, tag := tag } o ((parent.map fun p => (s.region p.1).rcb).getD 0)
  return (0, some r)

/-! ## Progress (R280) -/

/-- The effective class of a launch (R279). -/
def Region.effClass (g : Region) : Nat := if g.desc.prio = 0xFF then g.prio else max g.prio g.desc.prio

/-- Remove a region and its descendants from the tree; one of these whose last state has still to be written
stays until it is (R280; log 23). -/
def State.forget (s : State) (r : Nat) : State :=
  let gone := s.subtree 16 r
  { s with regions := s.regions.filter fun g => !(gone.contains g.1 && (g.1 == r || g.2.reported)) }

/-! ## Entrants (R293, R294) -/

/-- The round-`k` time of a tournament. -/
def Region.roundTime (g : Region) (k : Nat) : Stamp := g.time.dropLast ++ [k]

/-- An entrant whose live teams are all parked is PARKED; one whose teams have all ended is
FINISHED (R293). -/
def State.settleEntrant (s : State) (l : LaunchId) : State :=
  let g := s.region l.region
  let x := g.launch l.entrant
  if g.kind ≠ 2 || x.state ≠ .run then s
  else
    let live := s.teams.filter fun t => decide (t.2.launch = l) && decide (t.2.place ≠ Place.ended)
    let st : EState :=
      if !live.isEmpty then (if live.all fun t => t.2.parked then .parked else .run)
      else if x.ended = g.teams then .finished else .run
    s.withLaunch l fun x => { x with state := st }

/-- A team of a tournament parks: it issues nothing, and its hold at the round retires under
R259 (R293). -/
def State.parkTeam (s : State) (i : Nat) : State :=
  let t := s.team i
  let g := s.region t.launch.region
  if g.kind ≠ 2 || t.parked then s
  else
    let now := g.roundTime (if g.decided then g.round + 1 else g.round)
    let mine (h : Hold) : Bool := h.loc == g.tloc && stampLevel h.stamp now
    let s1 := (t.holds.filter mine).foldl (fun s h => s.releaseHold i h) s
    (s1.withTeam i fun t => { t with parked := true, holds := t.holds.filter fun h => !mine h }).settleEntrant t.launch

end Sys2Proof.Machine
end

