-- ==== Sys2Proof/Machine/Header.lean ====
section
/-! DEFINITION. What a team does between two instructions: its clause headers and their waits, the
fetch of a clause, safe points, and the teams that may issue (R16 to R20, R65, R66, R289, R293,
R346, R354, R360). -/

namespace Sys2Proof.Machine

/-! ## Header fields (R65) and checks (R16, R66) -/

/-- ENG. -/
def hdrEng (h : Word) : Nat := field h 60 4
/-- Instruction words of the clause, CNT + 1. -/
def hdrWords (h : Word) : Nat := field h 56 4 + 1
/-- SAFE. -/
def hdrSafe (h : Word) : Bool := h.getLsbD 55
/-- LIVE. -/
def hdrLive (h : Word) : Nat := field h 49 6
/-- WAE. -/
def hdrWae (h : Word) : Bool := h.getLsbD 48
/-- WAC. -/
def hdrWac (h : Word) : Nat := field h 44 4
/-- WAT. -/
def hdrWat (h : Word) : Nat := field h 36 8
/-- WFE. -/
def hdrWfe (h : Word) : Bool := h.getLsbD 35
/-- WFS. -/
def hdrWfs (h : Word) : Nat := field h 29 6
/-- The XOR of bytes 7..1. -/
def hdrSum (h : Word) : Nat := (List.range 7).foldl (fun x i => Nat.xor x (field h (8 * (i + 1)) 8)) 0

/-- The position of the first check of R16 that a header fails. -/
def headerFail (livecnt : Nat) (h : Word) : Option Nat :=
  if field h 0 8 ≠ hdrSum h then some 1
  else if field h 8 21 ≠ 0 then some 2
  else if 6 ≤ hdrEng h then some 3
  else if !hdrWae h && (hdrWac h != 0 || hdrWat h != 0) then some 4
  else if !hdrWfe h && hdrWfs h != 0 then some 5
  else if !hdrSafe h && hdrLive h != 0 then some 6
  else if hdrSafe h && livecnt ≤ hdrLive h then some 7
  else none

/-! ## Fetch (R58, R346) -/

/-- Bytes of code: the team is held at the clause while a page request is outstanding, and a
declared fault is a record at the header. -/
def fetchCode (a : Word) (n : Nat) : Act (List Byte) := do
  let ps ← (pagePieces a.toNat n).mapM fun p => do
    match ← reach (.core (← tm).core) (BitVec.ofNat 64 p.1) { x := true } accFetch false false with
    | .key k _ => readPhys k p.2
    | .trap c d =>
      let t ← tm
      trap { t.record c d with ea := BitVec.ofNat 64 p.1 }
    | .wait rids => blockAt { rids := rids, held := true }
    | .log _ _ _ => return []
  return ps.flatten

/-! ## Safe points (R52, R360) -/

/-- The live mask of an entry of the kernel's table, read page by page; every register where it cannot be
read, and then a walk fault posts its request (R345; log 9). -/
def liveMask (n : Nat) : Act (BitVec 240) := do
  let t ← tm
  let keys ← (pagePieces (t.desc.livetab + BitVec.ofNat 64 (32 * n)).toNat 30).mapM fun p => do
    match ← translate (.core t.core) t.asid t.timeline t.gen (BitVec.ofNat 64 p.1) { r := true } with
    | .ok k _ => return some (k, p.2)
    | .fault c d => do
      let _ ← postRequest t.asid t.timeline t.gen (BitVec.ofNat 64 p.1) c d accRead
      return none
    | _ => return none
  if keys.all Option.isSome then
    let bs ← (keys.filterMap id).mapM fun k => readPhys k.1 k.2
    return BitVec.ofNat 240 (leNat bs.flatten)
  else return BitVec.allOnes 240

/-- Every register, for a team that stands where it may be saved in full. -/
def saveFull : Act Unit := do
  let i ← me
  modify fun (s : State) => s.saveTeam i (BitVec.allOnes 240) true
  throw .gone

/-! ## Waits (R19) -/

/-- The header's condition on an arrival counter. -/
def Team.counterReady (t : Team) (h : Word) : Bool :=
  !hdrWae h || reached (t.getA (hdrWac h)) (hdrWat h)
/-- The offset of the line that the header waits for. Its read of S[WFS] is no use of the register's poison,
and finds 0 in a register above SREGS (R19; log 27). -/
def Team.lineWaited (t : Team) (h : Word) : Nat := (t.getS (hdrWfs h)).toNat % 2 ^ 32
/-- The header's condition on a scratchpad line. -/
def State.lineReady (s : State) (t : Team) (h : Word) : Bool :=
  !hdrWfe h || !(s.allocOf t).empties.contains (t.lineWaited h / 128)

/-- A record that arises at a header and is delivered as a header delivery (R289, R360). In the
handler it waits, once for each cause (R354; log 25). -/
def headerRaise (c : Cause) (detail : Nat) : Act Unit := do
  let t ← tm
  let i ← me
  if t.handler && t.headerRecs.any (·.cause == c) then pure ()
  else
    modTm fun t =>
      { t with headerRecs := t.headerRecs ++ [{ t.record c detail with index := 0xD }] }
    if !t.handler then
      modify fun (s : State) => s.deliverHeader i
      throw .gone

/-- A team that resumes inside a clause has started it (R20); one that has not stands at the
boundary before it. -/
def Team.fresh (t : Team) : Bool := t.skip == 0 && decide (t.progress = {}) && t.after.isNone

/-! ## The issue slots (R20) -/

/-- How many clauses of an engine class a core has in issue at once: one on the front unit, one on each of
the four datapaths of the lanes, one on the matrix engine; no number is given of the others (log 27). -/
def slotsOf (eng : Nat) : Option Nat :=
  match eng with
  | 0 => some 1
  | 1 => some 4
  | 2 => some 1
  | _ => none

/-- A team gives up its issue slot where it stands: at a blocking point, or held (R20, R187, R346). Any other
wait inside a clause keeps the slot. -/
def Team.givesUp (t : Team) : Bool := t.block.any fun b => b.point || b.held

/-- A team is issuing a clause of a class: it has started one and has not given up its slot. -/
def State.issuing (s : State) (i eng : Nat) : Bool :=
  let t := s.team i
  s.awake i && !t.givesUp && t.delivery.isNone && t.clause.any fun o => o.eng == eng

/-- A team may take an issue slot of a class on its core: other teams leave one (R20). -/
def State.slotFree (s : State) (i eng : Nat) : Bool :=
  match slotsOf eng with
  | none => true
  | some n =>
    decide ((s.teams.filter fun x => x.1 != i && x.2.core == (s.team i).core && s.issuing x.1 eng).length < n)

/-- Start a clause whose header and waits are in order: its words are fetched whole, once the waits hold
(log 27), and the team takes an issue slot. -/
def startClause (h : Word) : Act Unit := do
  let t ← tm
  let i ← me
  if !(← get).slotFree i (hdrEng h) then blockAt { point := false }
  let n := hdrWords h
  let body ← fetchCode (t.pc + 8) (8 * n)
  let ws : List Word := (List.range n).map fun k => BitVec.ofNat 64 (bytesAt body (8 * k) 8)
  let o : OpenClause := { header := t.pc, eng := hdrEng h, safe := hdrSafe h, words := ws, idx := t.skip }
  modTm fun t =>
    { t with
      clause := some o, skip := 0, declared := [], block := none, behind := [], gap := if hdrSafe h then 0 else t.gap }
  if n ≤ t.skip then modify fun (s : State) => (s.endClause i o).endIfSpent i

/-- Control stands at a word taken as a header (R16 to R20). -/
def atHeader : Act Unit := do
  let t ← tm
  let i ← me
  let code ← fetchCode t.pc 8
  let h : Word := BitVec.ofNat 64 (leNat code)
  let fails := headerFail t.desc.livecnt h
  let safe := hdrSafe h
  if fails.isNone && safe && t.fresh && ((← get).ctxOf i).state == .seek then
    let live ← liveMask (hdrLive h)
    modify fun (s : State) => s.saveTeam i live false
    throw .gone
  if !t.headerRecs.isEmpty && !t.handler then
    modify fun (s : State) => s.deliverHeader i
    throw .gone
  match fails with
  | some d => trap (t.record .header d)
  | none => pure ()
  if safe && ((← get).region t.launch.region).kind == 2 && t.allow == 0 then
    modify fun (s : State) => s.parkTeam i
    throw .gone
  if safe && t.budgetDue then
    modTm fun t => { t with budgetDue := false }
    headerRaise .budget 1
  if !safe && 8192 < t.gap then headerRaise .safegap t.gap
  let s ← get
  if hdrWfe h && s.scratchOf t ≤ t.lineWaited h then
    trap { t.record .scratch 0 with ea := BitVec.ofNat 64 (t.lineWaited h) }
  if !(t.counterReady h && s.lineReady t h) then blockAt { point := false }
  startClause h

/-- A team takes the baton it held when it was saved, with the weight buffer as it stood and the mx.wloads
that still filled it, when it finds it free (R172, R175). -/
def State.takeKept (s : State) (i : Nat) : State :=
  let t := s.team i
  let s1 := s.withCore t.core fun c =>
    { c with
      latch := .held i, wbuf := t.keptBuf, wpoison := t.keptPoison, tags := t.keptTags
      wloads := c.wloads ++ t.keptLoads }
  let s2 := s1.withTeam i fun t =>
    { t with keptKey := false, keptBuf := [], keptPoison := [], keptTags := [], keptLoads := [] }
  s2.mxGo i

/-- What comes of a header's action: a fault of a header is delivered at it, and is fatal in the
handler (R354). -/
def State.concludeHeader (i : Nat) (r : Except Stop Unit × State) : State :=
  match r.1 with
  | .ok _ => r.2
  | .error (.block b) => (r.2.withTeam i fun t => { t with block := some b }).seekSave i
  | .error (.trap rs) =>
    (r.2.withTeam i fun t => { t with declared := [] }).deliver i rs ((r.2.team i).here false false)
  | .error .gone => r.2

/-! ## Teams that may issue -/

/-- No team that a sys.yield let ahead is still to issue (R372). -/
def State.mayIssue (s : State) (i : Nat) : Bool := s.awake i && (s.team i).behind.all fun j => !s.eligible j

/-- A team has issued: it no longer stands ahead of those that yielded to it. -/
def State.passed (s : State) (i : Nat) : State :=
  if s.teams.any fun t => t.2.behind.contains i then
    { s with teams := s.teams.map fun t => (t.1, { t.2 with behind := t.2.behind.erase i }) }
  else s

/-! ## The boundary between clauses -/

/-- A cp.yield has still to let control go on (R204). -/
def Team.yields (t : Team) : Option (Nat × Word) :=
  match t.after with
  | some (.yield h a) => if t.skip = 0 && t.clause.isNone then some (h, a) else none
  | _ => none

/-- One turn of a team that stands before a clause: a delivery that is built goes first, then a
save that is due, records that wait, and the header (CLAUSE_HEADER). In SEEK the header is read before the
records are delivered, as a save at a safe point keeps them (R358). -/
def State.headerTurn (s : State) (i : Nat) : State :=
  let t := s.team i
  let x := s.ctxOf i
  let late := decide (x.state = .seek) && x.late
  if t.delivery.isSome then s.enterHandler i
  else if t.clause.isSome then s
  else if late then s.saveTeam i (BitVec.allOnes 240) true
  else if t.gaveUp && t.skip = 0 then s.giveWay i
  else
    let s1 := if t.keptKey then s.takeKept i else s
    match t.yields with
    | some (h, a) =>
      if s1.copyDone i (h == 0) h then s1.withTeam i fun t => { t with after := none, pc := a } else s1
    | none =>
      if !t.headerRecs.isEmpty && !t.handler && decide (x.state ≠ .seek) then s1.deliverHeader i
      else State.concludeHeader i (atHeader.go { s1 with cur := some i, curUnit := none })

end Sys2Proof.Machine
end

