-- ==== Sys2Proof/Machine/Residency.lean ====
section
/-! DEFINITION. Making teams resident: what fits a core, the state a team starts with, and the
teams formed from tasks (R8, R9, R90, R163, R183, R272 to R275, R281, R289). -/

namespace Sys2Proof.Machine

/-! ## What a core holds (R8, R163, R183) -/

/-- Words of registers a team takes (R8): a gathered one counts as 32 lanes. -/
def Team.regWords (t : Team) : Nat := max 32 t.lanes * t.desc.vregs
/-- The lowest free slot of a core. -/
def State.freeSlot (s : State) (core : Nat) : Option Nat :=
  (List.range 16).find? fun k => !((s.seated core).any fun t => t.2.slot == k)
/-- The context of a launch on a core, by its number. -/
def State.ctxAt (s : State) (l : LaunchId) (core : Nat) : Option (Nat × Ctx) :=
  s.hearth.ctxs.find? fun c => decide (c.2.launch = l) && c.2.core == core

/-- Teams with these needs fit beside those seated on a core: residency, the launch's allocation
at its kernel's SCRATCH, and, for a new one, the region's budgets (R8, R163, R183, R289). -/
def State.fits (s : State) (core : Nat) (l : LaunchId) (regWords accrows count : Nat) (fresh : Bool) : Bool :=
  let on := s.seated core
  let sum (f : Team → Nat) : Nat := on.foldl (fun n t => n + f t.2) 0
  let scratch := (s.region l.region).desc.scratch
  let have_ := (s.core core).allocs.any fun a => decide (a.launch = l)
  let used := (s.core core).allocs.foldl (fun n a => n + a.size) 0
  let left := s.unclaimed l
  on.length + count ≤ 16 && sum Team.regWords + regWords ≤ 524288 && sum (·.accrows) + accrows ≤ 3072 &&
    (have_ || used + scratch ≤ 786432) &&
    (!fresh || ((have_ || scratch ≤ left.scratch) && accrows ≤ left.rows)) &&
    ((s.ctxAt l core).all fun c => c.2.state == .run) &&
    !(s.hearth.ctxs.any fun c => c.2.state == .restoring && c.2.dest == core)

/-- The lowest context number that is free (R359). -/
def State.freeCtx (s : State) : Nat :=
  ((List.range (s.hearth.ctxs.length + 1)).find? fun n => (SMap.find s.hearth.ctxs (n + 1)).isNone).getD 0 + 1

/-- The core comes to an address space: the weight buffer is cleared where it is another than
before (R166). Bytes of mx.wloads still in flight land in the cleared buffer, the model's choice (log 25). -/
def State.bindSpace (s : State) (core asid : Nat) : State :=
  if (s.core core).asid = asid then s
  else s.withCore core fun c => { c with asid := asid, wbuf := [], wpoison := [], tags := [] }

/-- Seat a team on a core: its slot, its context and, for the first team of its launch there, an
allocation of zeros that is full (R183). The team's number is the first result. -/
def State.seat (s : State) (core : Nat) (t : Team) : Nat × State :=
  let l := t.launch
  let slot := (s.freeSlot core).getD 0
  let ctx := ((s.ctxAt l core).map (·.1)).getD s.freeCtx
  let s1 := s.withHearth fun h =>
    if (SMap.find h.ctxs ctx).isSome then h
    else { h with ctxs := SMap.put h.ctxs ctx { launch := l, core := core } }
  let s2 :=
    if (s1.core core).allocs.any fun a => decide (a.launch = l) then s1
    else s1.withCore core fun c => { c with allocs := c.allocs ++ [{ launch := l, size := (s.region l.region).desc.scratch }] }
  let id := s2.serial
  (id, { s2 with
    teams := SMap.put s2.teams id { t with core := core, slot := slot, ctx := ctx }
    serial := id + 1 })

/-! ## The state a team starts with (R9) -/

/-- ALLOW at a team's start, or in a round (R289, R294). -/
def Region.allowance (g : Region) : Word :=
  if g.allowb = 0 || g.decided then BitVec.allOnes 64
  else if g.kind = 2 then BitVec.ofNat 64 (min (2 ^ 64 - 1) (g.allowb.toNat * 2 ^ g.round))
  else g.allowb

/-- A team of a region under a descriptor, as R9 gives it. -/
def Region.newTeam (g : Region) (l : LaunchId) (d : Desc) (lanes teamix : Nat) (now : Stamp) : Team :=
  { asid := g.asid, timeline := g.timeline, launch := l, desc := d, lanes := lanes, teamix := teamix,
    exm := lanesMask lanes, pc := d.entry, now := now, allow := g.allowance, accrows := d.accrows }

/-- S registers from the argument record (R45). -/
def Team.withArgs (t : Team) (args : List Word) : Team :=
  ((List.range args.length).zip args).foldl (fun t p => t.setS p.1 p.2) t

/-- Start the next team of a launch on a core, with its hold; none where its count finds no entry
(R253, R254, R281). Its loads are served by no line that the core's cache held before (R7; log 12). The launch's
own count retires with its last team's start, and a collective that its
teams have completed starts (R200). -/
def State.startTeam (s : State) (core : Nat) (l : LaunchId) (bind : Option Nat) (teamix : Nat) : Option State :=
  let g := s.region l.region
  let p := g.startPair
  match s.addCount (some core) g.asid g.timeline p.1 p.2 with
  | none => none
  | some s1 =>
    let t := (g.newTeam l g.desc g.desc.lanes teamix g.time).withArgs g.args
    let r := (s1.bindSpace core g.asid).seat core { t with bind := bind, holds := [{ loc := p.1, stamp := p.2 }] }
    let s2 := (r.2.unsee core r.1).withLaunch l fun x => { x with started := x.started + 1 }
    some (if ((s2.region l.region).launch l.entrant).started = g.teams then
        (s2.dropLaunchCount l).startAllColls
      else s2)

/-! ## Teams formed from tasks (R90, R272 to R274) -/

/-- Two tasks may share a group (R273). -/
def Task.joins (a b : Task) : Bool :=
  a.kind == b.kind && decide (a.launch = b.launch) && a.desc == b.desc && a.stamp == b.stamp && a.asid == b.asid &&
    (a.kind == 2 || a.loc == b.loc)

/-- The group of a task: at most 32 of those that a gatherer holds, in the order accepted. -/
def State.groupWith (s : State) (cluster : Nat) (k : Task) : List Task :=
  ((s.tasks.filter fun t => t.1 == cluster && t.2.joins k).map (·.2)).take 32

/-- Every task of a ctl.callv has been accepted: none waits to be, and its team pushes no more. -/
def State.callDone (s : State) (k : Task) : Bool :=
  !(s.pushed.any fun t => t.2.kind == 2 && t.2.call == k.call) &&
    ((s.team k.pusher).parkWait || (s.team k.pusher).groupNow != some k.call)

/-- A team can push no task: it has ended, is parked, or waits behind a PARK entry. -/
def Team.still (t : Team) : Bool := decide (t.place = .ended) || t.parked || t.parkWait

/-- Every team of a launch's region that could still push has ended or is parked (R273). -/
def State.pushersDone (s : State) (l : LaunchId) : Bool :=
  (s.teams.all fun t => t.2.launch.region != l.region || t.2.still) && !s.unbound l &&
    ((s.region l.region).launch l.entrant).started == (s.region l.region).teams

/-- A core of a cluster that may take a launch's gathered teams: one that a valid record binds to the
launch, or one that no record binds (log 25). A checkpoint stops dispatch (R387). -/
def State.mayGather (s : State) (core : Nat) (l : LaunchId) : Bool :=
  s.hearth.cellar != 1 &&
    match s.hearth.binds.find? fun b => b.2.cmask.getLsbD core with
    | some b => b.2.region == l.region && b.2.entrant == l.entrant && b.2.state == 1
    | none => true

/-- Take tasks out of a gatherer. -/
def State.dropGroup (s : State) (ks : List Task) : State :=
  { s with tasks := s.tasks.filter fun t => !ks.contains t.2 }

/-- Discard a group whose descriptor is refused: counts retire, parent lanes return, and the fault
log gains a record (R272, R366). -/
def State.refuseGroup (s : State) (ks : List Task) : State :=
  (ks.foldl (fun s k =>
    let s1 := s.logFault
      { cause := .budget, detail := 2, ea := BitVec.ofNat 64 k.desc, teamix := (s.team k.pusher).teamix }
    if k.kind = 1 then s1.dropCount k.asid k.timeline k.loc k.stamp
    else s1.withTeam k.pusher (·.returnLane k.lane)) (s.dropGroup ks)).startAllColls

/-- The descriptor of a group as the gatherer reads it: its tasks wait while a page request is
outstanding (R346). -/
def groupDesc (k : Task) : Act (Option Desc) := do
  match ← translate .none k.asid k.timeline (k.stamp.headD 0) (BitVec.ofNat 64 k.desc) { r := true } with
  | .ok key _ => do
    let b ← readPhys key 128
    let d := descOf k.desc b
    let s ← get
    if d.valid b && d.usable (s.space k.asid) && d.scratch ≤ (s.region k.launch.region).desc.scratch then return some d
    else return none
  | .fault c d => do
    let rid ← postRequest k.asid k.timeline (k.stamp.headD 0) (BitVec.ofNat 64 k.desc) c d accRead
    modify fun (s : State) =>
      { s with tasks := s.tasks.map fun t => (t.1, if t.2.joins k then { t.2 with rids := rid.toList } else t.2) }
    blockAt { rids := rid.toList, held := true }
  | _ => return none

/-- V0..V7 of a lane from its task's record (R90, R274). -/
def Team.withRecord (t : Team) (lane : Nat) (record : List Word) : Team :=
  ((List.range 4).zip record).foldl (fun t p => t.setPair lane (2 * p.1) p.2) t

/-- The team that a group makes (R90, R274): its loads find what had drained when its tasks were accepted
(R276). -/
def State.gatheredTeam (s : State) (ks : List Task) (k : Task) (d : Desc) (core : Nat) : Team :=
  let g := s.region k.launch.region
  let n := ks.length
  let t := g.newTeam k.launch d n (g.teams + (g.launch k.launch.entrant).gathered) k.stamp
  let t1 := ((List.range n).zip ks).foldl (fun t p => t.withRecord p.1 p.2.record) t
  { t1 with
    timeline := k.timeline, origin := k.kind, taskLoc := if k.kind = 1 then k.loc else 0
    tasks := ks.map fun k => ⟨k.record, k.pusher, k.lane⟩
    acquired := true
    holds := if k.kind = 1 then [{ loc := k.loc, stamp := k.stamp, share := n, task := true }] else []
    bind := (s.hearth.binds.find? fun b => b.2.cmask.getLsbD core).map (·.1) }

/-- Form a team of a group on the first of the given cores that it may be formed on and fits, if
its descriptor stands (GATHERED_TEAM_FORMED, R274). -/
def State.form (s : State) (ks : List Task) (cores : List Nat) : State :=
  match ks with
  | [] => s
  | k :: _ =>
    let r := if k.rids.isEmpty then (groupDesc k).go s else (.error .gone, s)
    match r.1 with
    | .ok none => r.2.refuseGroup ks
    | .ok (some d) =>
      let s1 := r.2
      match cores.find? fun c => s1.mayGather c k.launch && s1.fits c k.launch (32 * d.vregs) d.accrows 1 true with
      | some core =>
        let t := s1.gatheredTeam ks k d core
        let s2 := (((s1.dropGroup ks).bindSpace core k.asid).seat core t).2
        (s2.withLaunch k.launch fun x => { x with gathered := x.gathered + 1 }).startAllColls
      | none => s1
    | _ => r.2

/-- A group becomes a team without waiting for more: it is whole, or every ctl.callv in it is
(R273). -/
def State.groupReady (s : State) (ks : List Task) : Bool :=
  match ks with
  | [] => false
  | k :: _ =>
    ks.length == 32 ||
      (k.kind == 2 && ks.all s.callDone && (!(s.region k.launch.region).det || s.pushersDone k.launch))

/-- The cores of a cluster. -/
def coresOf (cluster : Nat) : List Nat := (List.range 8).map (8 * cluster + ·)

end Sys2Proof.Machine
end

