-- ==== Sys2Proof/Machine/EventsTeam.lean ====
section
/-! DEFINITION. Events of the cores: clause headers and blocking points, the landing of loads and of
long-latency results, the weight buffer, the baton, and walks (spec/95). An event whose condition
does not hold leaves the state as it is. -/

namespace Sys2Proof.Machine

/-- The meaning of an event: a total function of the state. -/
def runEvent (f : State → State) (s : State) : Host.Outcome State Fault Refusal := .next (f s)


/-! ## Headers and blocking points (R16 to R20, R187) -/

/-- A team that may issue stands before a clause, or with a delivery that is not written. -/
def State.beforeClause (s : State) (i : Nat) : Bool :=
  s.mayIssue i && ((s.team i).clause.isNone || (s.team i).delivery.isSome)

/-- CLAUSE_HEADER. -/
def clauseHeaderAt (i : Nat) (s : State) : State :=
  if s.beforeClause i && (s.team i).block.isNone then (s.passed i).headerTurn i else s

/-- CLAUSE_WAIT_SATISFIED: the header is looked at again, and the clause starts if its waits hold
at once. -/
def clauseWaitAt (i : Nat) (s : State) : State :=
  if s.beforeClause i && (s.team i).block.isSome then
    ((s.passed i).withTeam i fun t => { t with block := none }).headerTurn i
  else s

/-- BLOCKING_POINT_RESUME: records that wait are delivered; else the team takes an issue slot (R20), and its
word issues again next, where it stopped. -/
def blockingPointAt (i : Nat) (s : State) : State :=
  let t := s.team i
  if s.mayIssue i && t.clause.isSome && t.delivery.isNone && t.block.isSome then
    if (t.block.any fun b => b.point && !b.held) && !t.headerRecs.isEmpty && !t.handler then s.deliverHeader i
    else if t.clause.all fun o => s.slotFree i o.eng then
      let s1 := s.withTeam i fun t => { t with block := none }
      { s1 with turns := .team i :: s1.turns }
    else s
  else s

/-- QSTALL: 2^20 cycles have passed at a blocking point that is not exempt. -/
def qstallAt (i : Nat) (s : State) : State :=
  let t := s.team i
  match t.block with
  | some b =>
    if b.detail != 0 && b.rids.isEmpty && decide (t.place = .resident) && t.clause.isSome && t.delivery.isNone then
      (s.withTeam i fun t => { t with stalled := 2 ^ 20 }).stallInstr i [{ t.record .qstall b.detail with lane := b.lane }]
    else s
  | none => s

/-! ## Landing (R188, R189, R23) -/

/-- The results of a part that has arrived (R98, R189). -/
def Part.results (p : Part) (bs : List Byte) (poison : Nat) : List Result :=
  let v := leNat bs
  match p.dst with
  | .v l n =>
    if p.size = 8 then
      [⟨.v l n, BitVec.ofNat 64 (v % 2 ^ 32), poison⟩, ⟨.v l (n + 1), BitVec.ofNat 64 (v / 2 ^ 32), poison⟩]
    else [⟨.v l n, BitVec.ofNat 64 ((extendTo p.signed (8 * p.size) v).toNat % 2 ^ 32), poison⟩]
  | d => [⟨d, extendTo p.signed (8 * p.size) v, poison⟩]

/-- A part of an operation in flight has landed; with the last one its counter gains one
(ARRIVAL_COUNTER_INCREMENT). -/
def Team.landed (t : Team) (op part : Nat) : Team :=
  match t.ops.find? (·.ident == op) with
  | none => t
  | some o =>
    let ps := o.parts.eraseIdx part
    if ps.isEmpty && o.mortar == 0 then
      let t1 := { t with ops := t.ops.filter fun o => o.ident != op }
      match o.counter with
      | some c => t1.bumpA c
      | none => t1
    else { t with ops := t.ops.map fun o => if o.ident = op then { o with parts := ps } else o }

/-- An earlier load of the team that touches the same bytes has still to land: reads of one path
land in order there (R234, R235). -/
def Team.landsAfter (t : Team) (op part : Nat) (p : Part) : Bool :=
  t.ops.any fun o =>
    ((List.range o.parts.length).zip o.parts).any fun q =>
      (o.ident < op || (o.ident == op && q.1 < part)) && meets q.2.key q.2.size p.key p.size

/-- LOAD_LANDING: an element arrives, from the load cache where `hit` and the line lets it, else
from its slice. -/
def loadLands (i op part : Nat) (hit : Bool) (s : State) : State :=
  let t := s.team i
  match t.ops.find? (·.ident == op) with
  | none => s
  | some o =>
    match o.parts[part]? with
    | none => s
    | some p =>
      if t.landsAfter op part p || !s.mayLoad i op p.key p.size then s
      else
        let r := (loadAt i op p.key p.size (hit && decide (t.place = .resident))).go s
        match r.1 with
        | .ok (bs, poison) =>
          r.2.withTeam i fun t => ((p.results bs poison).foldl Team.land t).landed op part
        | .error _ => s

/-- The lane of a result. -/
def Result.lane (r : Result) : Nat := match r.dst with | .v l _ => l | .s _ => 0

/-- LONG_LATENCY_COMPLETE: the results of the named lanes land; with the last ones the instruction
completes and its flags rise, or its faults are reported, those of an earlier instruction in flight first
(R23, R24, R136). A team behind a PARK entry takes
no delivery (R354). -/
def longLands (i op : Nat) (lanes : Mask) (s : State) : State :=
  match (s.team i).ops.find? fun o => o.ident == op && o.window.isSome with
  | none => s
  | some o =>
    let now := o.results.filter fun r => lanes.getLsbD r.lane
    let rest := o.results.filter fun r => !lanes.getLsbD r.lane
    let s1 := s.withTeam i fun t =>
      let t1 := now.foldl Team.land t
      { t1 with ops := t1.ops.map fun p => if p.ident = op then { p with results := rest } else p }
    if !rest.isEmpty then s1
    else if o.faults.isEmpty then s1.withTeam i (·.complete { o with results := [] })
    else if (s.team i).parkWait then s1
    else
      match (s1.team i).faulty with
      | some first => s1.reportOp i first
      | none => s1

/-! ## The weight buffer and the baton (R171, R172, R175) -/

/-- Bytes of the weight buffer (R166). -/
def weightBytes : Nat := 393216

/-- Two requests write a common byte of the buffer. -/
def Wload.meets (a b : Wload) : Bool :=
  a.runs.any fun p => b.runs.any fun q =>
    Machine.meets (p.2.1 % weightBytes) p.2.2 (q.2.1 % weightBytes) q.2.2 ||
      Machine.meets (p.2.1 % weightBytes) p.2.2 (q.2.1 % weightBytes + weightBytes) q.2.2 ||
      Machine.meets (p.2.1 % weightBytes + weightBytes) p.2.2 (q.2.1 % weightBytes) q.2.2

/-- Place bytes in a buffer, with the ORIGIN code of their poison (R173). -/
def placeWeights (buf : SMap Byte) (poison : SMap Nat) (off : Nat) (bs : List Byte) (p : Nat) : SMap Byte × SMap Nat :=
  ((List.range bs.length).zip bs).foldl (fun x b =>
    let k := (off + b.1) % weightBytes
    (SMap.set 0 x.1 k b.2, SMap.set 0 x.2 k p)) (buf, poison)

/-- Take `n` bytes off a run. -/
def cutRun (runs : List (Nat × Nat × Nat)) (at_ n : Nat) : List (Nat × Nat × Nat) :=
  ((List.range runs.length).zip runs).flatMap fun r =>
    if r.1 = at_ then (if r.2.2.2 ≤ n then [] else [(r.2.1 + n, r.2.2.1 + n, r.2.2.2 - n)]) else [r.2]

/-- An earlier request of the same team has still to read bytes of a range (R234, R235). -/
def Wload.reads (a : Wload) (team key n : Nat) : Bool := a.team == team && a.runs.any fun r => Machine.meets r.1 r.2.2 key n

/-- A request with `n` bytes less of its run `first`: gone with the last byte. -/
def cutWload (ws : List Wload) (id first n : Nat) : List Wload :=
  ws.filterMap fun v =>
    if v.ident = id then
      let runs := cutRun v.runs first n
      if runs.isEmpty then none else some { v with runs := runs }
    else some v

/-- Bytes of a request land in the buffer of every core that it fills, and in the one kept with its team while
that is saved with the Latchkey (R172). -/
def State.landWeights (s : State) (w : Wload) (first off : Nat) (bs : List Byte) (p : Nat) : State :=
  let mine (ws : List Wload) : Bool := ws.any (·.ident == w.ident)
  let filled (c : Core) : Core :=
    let x := placeWeights c.wbuf c.wpoison off bs p
    { c with wbuf := x.1, wpoison := x.2, wloads := cutWload c.wloads w.ident first bs.length }
  let s1 : State := { s with cores := s.cores.map fun c => (c.1, if mine c.2.wloads then filled c.2 else c.2) }
  s1.withTeam w.team fun t =>
    if mine t.keptLoads then
      let x := placeWeights t.keptBuf t.keptPoison off bs p
      { t with keptBuf := x.1, keptPoison := x.2, keptLoads := cutWload t.keptLoads w.ident first bs.length }
    else t

/-- WLOAD_RESIDENT: up to `count` bytes of the run `first` of a request are placed, within one
burst; with the last byte the counter gains one. -/
def wloadPlaces (core id first count : Nat) (s : State) : State :=
  let c := s.core core
  match c.wloads.find? (·.ident == id) with
  | none => s
  | some w =>
    match w.runs[first]? with
    | none => s
    | some (key, off, size) =>
      let n := min count (min size (64 - key % 64))
      if n = 0 || (c.wloads.any fun v => v.ident < id && (v.meets w || v.reads w.team key n)) then s
      else
        let r := (ownRead w.team id key n).go s
        match r.1 with
        | .error _ => s
        | .ok (bs, p) =>
          let s1 := r.2.landWeights w first off (if p = 0 then bs else zeros n) p
          s1.withTeam w.team fun t =>
            if (cutRun w.runs first n).isEmpty && decide (t.place ≠ .ended) then t.bumpA w.counter else t

/-- A team of a core that waits for its baton. -/
def State.wants (s : State) (core i : Nat) : Bool :=
  let t := s.team i
  t.core == core && decide (t.place = .resident) && (t.wantsKey || t.keptKey)

/-- LATCHKEY_HANDOVER: the giver's mx work is done and its weights are resident; the first waiter in
ring order from its slot receives the baton. -/
def handOver (core : Nat) (s : State) : State :=
  let c := s.core core
  match c.latch with
  | .passing t slot =>
    if (c.wloads.any fun w => w.team == t) || ((s.team t).ops.any (·.matrix)) then s
    else
      let waiting := (s.teams.filter fun x => s.wants core x.1).map fun x => (x.1, x.2.slot)
      let order := (List.range 16).map fun k => (slot + 1 + k) % 16
      match order.findSome? fun k => waiting.find? fun x => x.2 == k with
      | none => s.withCore core fun c => { c with latch := .free }
      | some (i, _) =>
        if (s.team i).keptKey then s.takeKept i
        else
          let s1 := (s.withCore core fun c => { c with latch := .held i }).withTeam i fun t => { t with wantsKey := false }
          s1.mxGo i
  | _ => s

/-! ## Walks (R336, R341, R345) -/

/-- A side-log entry has no request, as the ring was full when its fault was met, and no earlier one of its
page has one (R345, R347). -/
def State.unposted (s : State) (i : Nat) (page : Nat) (e : SideEntry) : Bool :=
  let here (e : SideEntry) : Bool := e.team == i && e.va.toNat % 2 ^ 57 / 4096 == page
  here e && !((s.core (s.team i).core).log.any fun x => here x && x.rid.isSome)

/-- PAGE_WALK: a walk for a team that ends with a leaf, which its core then caches (R339). Side-log entries of
the page that have no request are walked for again: they replay, or their request is posted (R345,
R349). -/
def walksPage (i : Nat) (va : Word) (write : Bool) (s : State) : State :=
  let t := s.team i
  if decide (t.place = .resident) && canonical va then
    let need : Need := if write then { w := true } else { r := true }
    let s1 := s.doing do
      match ← walk t.asid (va.toNat % 2 ^ 57) t.timeline t.gen need with
      | .ok l => modify fun (s : State) => s.withCore t.core fun c => { c with tlb := l :: c.tlb.filter fun x => x != l }
      | .error _ => pure ()
    s1.replayLog t.core (s1.unposted i (va.toNat % 2 ^ 57 / 4096))
  else s

/-! ## The meanings -/

/-- CLAUSE_HEADER (R16). -/
def execClauseHeader (i : Nat) (s : State) : Host.Outcome State Fault Refusal := runEvent (clauseHeaderAt i) s
/-- CLAUSE_WAIT_SATISFIED (R19). -/
def execClauseWaitSatisfied (i : Nat) (s : State) : Host.Outcome State Fault Refusal := runEvent (clauseWaitAt i) s
/-- BLOCKING_POINT_RESUME (R187). -/
def execBlockingPointResume (i : Nat) (s : State) : Host.Outcome State Fault Refusal := runEvent (blockingPointAt i) s
/-- QSTALL (R187). -/
def execQstall (i : Nat) (s : State) : Host.Outcome State Fault Refusal := runEvent (qstallAt i) s
/-- LOAD_LANDING (R188). -/
def execLoadLanding (i op part : Nat) (hit : Bool) (s : State) : Host.Outcome State Fault Refusal :=
  runEvent (loadLands i op part hit) s
/-- LONG_LATENCY_COMPLETE (R23). -/
def execLongLatencyComplete (i op : Nat) (lanes : BitVec 1024) (s : State) : Host.Outcome State Fault Refusal :=
  runEvent (longLands i op lanes) s
/-- WLOAD_RESIDENT (R175). -/
def execWloadResident (core id first count : Nat) (s : State) : Host.Outcome State Fault Refusal :=
  runEvent (wloadPlaces core id first count) s
/-- LATCHKEY_HANDOVER (R171). -/
def execLatchkeyHandover (core : Nat) (s : State) : Host.Outcome State Fault Refusal := runEvent (handOver core) s
/-- PAGE_WALK (R336). -/
def execPageWalk (i : Nat) (va : BitVec 64) (write : Bool) (s : State) : Host.Outcome State Fault Refusal :=
  runEvent (walksPage i va write) s

end Sys2Proof.Machine
end

