-- ==== Sys2Proof/Machine/EventsMemory.lean ====
section
/-! DEFINITION. Events of memory: the slices and the Mortar queues, the count hierarchy, tasks, copies,
and the answers to page requests with the replay of the side log (spec/95). -/

namespace Sys2Proof.Machine

/-! ## Mortar queues (R215, R217) -/

/-- An earlier operation of the team is still on its way to the same queue (R30). -/
def State.behindOwn (s : State) (index : Nat) (m : MortarOp) : Bool :=
  (s.mortarIn.take index).any fun e => e.team == m.team && sliceAt e.key == sliceAt m.key

/-- MORTAR_ARRIVAL. -/
def mortarArrives (index : Nat) (s : State) : State :=
  match s.mortarIn[index]? with
  | some m =>
    if s.behindOwn index m then s else State.arrive { s with mortarIn := s.mortarIn.eraseIdx index } m
  | none => s

/-- MORTAR_DRAIN: the oldest entry of a word is applied, unless an older one overlaps it. An entry that
gathers an exact sum stays while nothing stands behind it (log 26). -/
def mortarDrains (addr size : Nat) (s : State) : State :=
  let i := s.mortar.findIdx fun m => meets m.key m.size addr size
  match s.mortar[i]? with
  | some m =>
    if m.gathers && !((s.mortar.drop (i + 1)).any fun e => meets e.key e.size m.key m.size) then s
    else if m.key = addr && m.size = size then
      s.drainEntry i m
    else s
  | none => s

/-! ## Writes (R186, R234) -/

/-- Two writes that keep their order: of one team on the lane and front paths or on the copy path, of one
block, or of the hosts. -/
def PendWrite.ordered (a b : PendWrite) : Bool :=
  if b.path < 2 then a.path < 2 && a.team == b.team
  else if b.path = 7 then a.path == 7
  else a.path == b.path && (a.group == b.group || (b.path == 2 && a.team == b.team))

/-- An access that comes before a write in program order, on its path, has still to take effect on
its bytes (R22, R234). -/
def State.mustWait (s : State) (index : Nat) (w : PendWrite) : Bool :=
  ((s.writes.take index).any fun e => e.ordered w && (w.path == 7 || meets e.key e.bytes.length w.key w.bytes.length)) ||
    (w.path < 2 && (s.team w.team).ops.any fun o =>
      o.ident < w.group && o.parts.any fun p => meets p.key p.size w.key w.bytes.length)

/-- SLICE_WRITE_ACCEPT. -/
def writeAccepted (index : Nat) (s : State) : State :=
  match s.writes[index]? with
  | some w => if s.mustWait index w then s else State.acceptWrite { s with writes := s.writes.eraseIdx index } w
  | none => s

/-- HOST_TLP_WRITE: a host write to device memory waits for its slices, burst by burst; one that is
poisoned poisons them (R375, R389; log 15). -/
def hostWrites (addr : Nat) (data : List Byte) (poisoned : Bool) (s : State) : State :=
  if 2 ^ 39 < addr + data.length then s
  else
    let ws : List PendWrite := (pieces 64 (data.length / 64 + 2) addr data.length).map fun p =>
      { team := 0, unit := 0, path := 7, key := s.deviceKey p.1, bytes := (data.drop (p.1 - addr)).take p.2, asid := 0,
        group := s.serial, poisoned := poisoned }
    { s with writes := s.writes ++ ws, serial := s.serial + 1 }

/-! ## Counts and frontiers (R256, R259) -/

/-- The −1s not yet released, with their address spaces. -/
def State.owing (s : State) : List (Nat × Nat × Retire) :=
  s.spaces.flatMap fun sp => ((List.range sp.2.retires.length).zip sp.2.retires).map fun r => (sp.1, r)

/-- COUNT_RETIRE: a −1 is released once what it waits for has come about. -/
def countRetires (index : Nat) (s : State) : State :=
  match s.owing[index]? with
  | some (asid, i, r) =>
    if s.due r.till then
      (s.withSpace asid fun sp => { sp with retires := sp.retires.eraseIdx i }).dropCount asid r.timeline r.loc r.stamp r.n
    else s
  | none => s

/-- FRONTIER_ANNOUNCE: a core receives a location's frontier as the root has it. -/
def frontierHeard (core asid loc : Nat) (s : State) : State :=
  match SMap.find s.spaces asid with
  | some sp =>
    if core < 160 && loc < 4096 then
      s.withCore core fun c =>
        { c with heard := ⟨asid, loc, sp.frontier loc⟩ :: c.heard.filter fun a => !(a.asid == asid && a.loc == loc) }
    else s
  | none => s

/-! ## Tasks (R272, R273) -/

/-- A team of a region, lower than an index, has staged tasks that the ticket unit can still release, as it and no
team before it is parked (R273, R291; log 21). -/
def State.stagedBefore (s : State) (r ix : Nat) : Bool :=
  s.teams.any fun t =>
    t.2.launch.region == r && decide (t.2.teamix < ix) && (t.2.staged.any fun e => e.task?.isSome) &&
      !(s.teams.any fun u => decide (u.2.launch = t.2.launch) && u.2.parked && decide (u.2.teamix ≤ t.2.teamix))

/-- In a deterministic region tasks are accepted in the order of their teams, each team's in
program order, so that none of a lower team may still come, staged ones among them; elsewhere in any order
(R273). -/
def State.acceptable (s : State) (index : Nat) (k : Task) : Bool :=
  if (s.region k.launch.region).det then
    let ix (k : Task) : Nat := (s.team k.pusher).teamix
    let sooner (j : Nat) (e : Task) : Bool := ix e < ix k || (e.pusher == k.pusher && j < index)
    !(((List.range s.pushed.length).zip s.pushed).any fun e =>
        decide (e.2.2.launch.region = k.launch.region) && sooner e.1 e.2.2) &&
      !s.stagedBefore k.launch.region (ix k) &&
      (s.teams.all fun t => t.2.launch.region != k.launch.region || ix k ≤ t.2.teamix || t.2.still) &&
      decide (min (ix k) (s.region k.launch.region).teams ≤
        (s.teams.filter fun t => decide (t.2.launch = k.launch) && t.2.origin == 0 && decide (t.2.teamix < ix k)).length)
  else !((s.pushed.take index).any fun e => e.2.pusher == k.pusher)

/-- TASK_ACCEPT: the gatherer takes a task and its unit drains; a group that is ready with it becomes
a team where it fits. -/
def taskAccepted (index : Nat) (s : State) : State :=
  match s.pushed[index]? with
  | some (c, k) =>
    if s.acceptable index k then
      let s1 := { s with pushed := s.pushed.eraseIdx index, tasks := s.tasks ++ [(c, k)] }
      let s2 := if k.unit = 0 then s1 else s1.ackUnit k.pusher k.unit
      let ks := s2.groupWith c k
      if s2.groupReady ks then s2.form ks (coresOf c) else s2
    else s
  | none => s

/-- TASK_GROUP_TIMEOUT: the group of a pending task becomes a team on a core of its cluster. In a
deterministic region a partial group waits for every team that could still push to it (R273). -/
def groupTimesOut (group core : Nat) (s : State) : State :=
  match s.tasks[group]? with
  | some (c, k) =>
    let ks := s.groupWith c k
    if (s.groupReady ks || !(s.region k.launch.region).det || s.pushersDone k.launch) && (coresOf c).contains core then
      s.form ks [core]
    else s
  | none => s

/-! ## Copies (R193, R199 to R205, R344) -/

/-- Take the 128-byte piece of a number off runs. -/
def takeChunk : List (Word × Nat × Nat) → Nat → Option ((Word × Nat × Nat) × List (Word × Nat × Nat))
  | [], _ => none
  | (a, o, n) :: rest, k =>
    let c := (n + 127) / 128
    if k < c then
      let d := 128 * k
      let m := min 128 (n - d)
      let head := if d = 0 then [] else [(a, o, d)]
      let tail := if d + m = n then [] else [(after a (d + m), o + d + m, n - d - m)]
      some ((after a d, o + d, m), head ++ tail ++ rest)
    else (takeChunk rest (k - c)).map fun p => (p.1, (a, o, n) :: p.2)

/-- Pieces left in runs. -/
def chunksLeft (runs : List (Word × Nat × Nat)) : Nat := runs.foldl (fun n r => n + (r.2.2 + 127) / 128) 0

/-- Where a copy's access to an address goes, at the generation of its stamp (R337): it pauses for a
page request, and what posts none counts as declared. -/
def Copy.reach (c : Copy) (va : Word) (need : Need) : Act Nat := do
  let g := c.stamp.headD 0
  match ← translate (.copy c.order) c.asid c.timeline g va need with
  | .ok k _ => return k
  | .fault cause d => do
    let rid ← postRequest c.asid c.timeline g va cause d (32 + (if need.w then 2 else 0) + (if need.r then 1 else 0))
    blockAt { rids := rid.toList, held := true }
  | _ => trap { cause := .nomap, detail := 1, ea := va }

/-! ### Order among a team's copies (R232, R234, R235) -/

/-- The access path of a copy (R184). -/
def Copy.path (c : Copy) : Nat := if c.kind = 1 then 3 else 2

/-- Global ranges that a copy has still to read or to write. -/
def Copy.toMove (c : Copy) : List (Nat × Nat) :=
  if c.kind = 3 then
    c.runs.flatMap (fun r => [(r.1.toNat, r.2.2), ((after c.dst r.2.1).toNat, r.2.2)]) ++
      if c.done = 0 then [] else [(c.done.toNat, 8)]
  else c.runs.map fun r => (r.1.toNat, r.2.2)

/-- A copy must not yet touch bytes at these keys: an earlier copy of its team on its path has still to
touch them, or may have; or its slice has still to start; or its write has still to be accepted. Commands
that the ticket unit holds come in its order (R291). -/
def State.copyBehind (s : State) (c : Copy) (keys : List (Nat × Nat)) : Bool :=
  let touched (a n : Nat) : Bool := keys.any fun k => s.touches c.asid a n k.1 k.2
  let earlier (d : Copy) : Bool := d.team == c.team && d.path == c.path && decide (d.order < c.order) && !(d.held && d.kind == 3)
  (s.copies.any fun d => earlier d.2 && (!d.2.rows.isEmpty || d.2.toMove.any fun r => touched r.1 r.2)) ||
    (c.path == 2 &&
      ((s.cores.any fun k => k.2.colls.any fun j => j.slices.any fun x =>
          x.team == c.team && decide (x.order < c.order) && decide (0 < x.size) && touched x.src.toNat x.size) ||
        s.writes.any fun w => w.path == 2 && w.team == c.team && decide (w.group < c.order) &&
          keys.any fun k => meets w.key w.bytes.length k.1 k.2))

/-- A line of a put's source may be read: it is full, or empty only for slices that its own team issued behind
it, which wait for the read (R202, R234; log 22). -/
def State.lineReadable (s : State) (c : Copy) (al : Alloc) (l : Nat) : Bool :=
  let own (team order : Nat) : Bool := team == c.team && decide (c.order < order)
  let copies := s.copies.filter fun d => d.2.core == c.core && decide (d.2.launch = c.launch) && d.2.lines.contains l
  let slices := (s.core c.core).colls.flatMap fun k =>
    if k.launch = c.launch then k.slices.filter fun x => meets (128 * l) 128 x.off x.size else []
  !al.empties.contains l ||
    (!(copies.isEmpty && slices.isEmpty) && (copies.all fun d => d.2.kind == 0 && own d.2.team d.2.order) &&
      slices.all fun x => own x.team x.order)

/-- An earlier put of the team has still to read bytes of scratchpad that a slice fills (R234). -/
def State.sourceUnread (s : State) (c : Copy) (off n : Nat) : Bool :=
  s.copies.any fun d => d.2.kind == 2 && d.2.team == c.team && decide (d.2.order < c.order) && d.2.core == c.core &&
    decide (d.2.launch = c.launch) && d.2.runs.any fun r => meets r.2.1 r.2.2 off n

/-- The pieces of a range by bursts, each with its key, once the team's earlier copies are past them. -/
def Copy.keys (c : Copy) (a : Word) (n : Nat) (need : Need) : Act (List (Word × Nat × Nat)) := do
  let ks ← (pieces 64 (n / 64 + 2) a.toNat n).mapM fun p => do
    let va : Word := BitVec.ofNat 64 p.1
    return (va, ← c.reach va need, p.2)
  if (← get).copyBehind c (ks.map (·.2)) then blockAt {}
  return ks

/-- Global bytes with the ORIGIN code of their poison, burst by burst. A command reads them at the slice. -/
def Copy.fetch (c : Copy) (a : Word) (n : Nat) : Act (List (List Byte × Nat)) := do
  let ks ← c.keys a n { r := true }
  ks.mapM fun k => if c.kind = 3 then readSlice k.2.1 k.2.2 else ownRead c.team c.order k.2.1 k.2.2

/-- A staged write of a put goes ahead of the put's mark (R291). -/
def stageAhead (id : Nat) (w : PendWrite) : List Effect → List Effect
  | [] => [.write w]
  | e :: es => if e = .copy id then .write w :: e :: es else e :: stageAhead id w es

/-- Write bytes of a copy to global memory: its slices accept them later, or the ticket unit stages them
(R291). A poisoned source poisons what it is copied to. -/
def Copy.write (c : Copy) (ks : List (Word × Nat × Nat)) (bs : List Byte) (poison : Nat) : Act Unit := do
  let u := c.unit.getD 0
  modify fun (s : State) =>
    (ks.foldl (fun (x : Nat × State) k =>
      let w : PendWrite :=
        { team := c.team, unit := u, path := 2, va := k.1, key := k.2.1, bytes := (bs.drop x.1).take k.2.2,
          asid := c.asid, group := c.order, part := c.part, poisoned := poison != 0 }
      let s1 := x.2.owe c.team u
      (x.1 + k.2.2,
        if c.held then s1.withTeam c.team fun t => { t with staged := stageAhead c.order w t.staged }
        else { s1 with writes := s1.writes ++ [w] })) (0, s)).2

/-- Note bytes moved: at a 64 KiB boundary under `adv` the copy stops to re-stamp (R344). -/
def Copy.advanced (c : Copy) (n : Nat) (runs rows : List (Word × Nat × Nat)) : Copy :=
  { c with
    moved := c.moved + n, runs := runs, rows := rows, issuedAll := runs.isEmpty && rows.isEmpty
    restamp := c.adv && c.moved / 65536 < (c.moved + n) / 65536 && !(runs.isEmpty && rows.isEmpty) }

/-- Move one piece of a copy. -/
def Copy.move (c : Copy) (id : Nat) (piece : Word × Nat × Nat) (rest : List (Word × Nat × Nat)) : Act Unit := do
  let (a, off, n) := piece
  let finish : Act Unit := modify fun (s : State) => s.withCopy id fun c => c.advanced n rest c.rows
  match c.kind with
  | 2 => do
    let al := (((← get).core c.core).allocs.find? fun a => decide (a.launch = c.launch)).getD { launch := c.launch, size := 0 }
    let s ← get
    if !((linesOf off n).all fun l => s.lineReadable c al l) then blockAt {}
    let ks ← c.keys a n { w := true }
    c.write ks (al.read off n) (al.poisonIn off n)
    finish
  | 3 => do
    let src ← c.fetch a n
    let ks ← c.keys (after c.dst off) n { w := true }
    c.write ks (src.flatMap (·.1)) ((src.map (·.2)).foldl max 0)
    finish
  | _ => do
    if c.kind = 0 && (← get).sourceUnread c off n then blockAt {}
    let src ← c.fetch a n
    let line := off / 128
    modify fun (s : State) =>
      (s.withAlloc c.core c.launch fun al =>
        let x := src.foldl (fun (x : Nat × Alloc) p =>
          (x.1 + p.1.length, x.2.write x.1 (if p.2 = 0 then p.1 else zeros p.1.length) p.2)) (off, al)
        { x.2 with empties := x.2.empties.erase line }).withCopy id fun c => { c with lines := c.lines.erase line }
    finish

/-- Read the index of a gather's row, which then moves like a slice (R201). A row whose index is poisoned
names no bytes: its lines become full and poisoned (R389; log 22). -/
def Copy.resolve (c : Copy) (id row : Nat) : Act Unit := do
  match c.rows[row]? with
  | none => pure ()
  | some (a, off, n) => do
    let ps ← c.fetch a 4
    let poison := (ps.map (·.2)).foldl max 0
    if poison = 0 then
      let i := leNat (ps.flatMap (·.1))
      modify fun (s : State) => s.withCopy id fun c =>
        { c with runs := c.runs ++ [(after c.dst (i * n), off, n)], rows := c.rows.eraseIdx row }
    else
      let ls := linesOf off n
      modify fun (s : State) =>
        (s.withAlloc c.core c.launch fun al =>
          { al.write off (zeros n) poison with empties := al.empties.filter fun l => !ls.contains l }).withCopy id fun c =>
            { c.advanced n c.runs (c.rows.eraseIdx row) with lines := c.lines.filter fun l => !ls.contains l }

/-- A declared fault ends a copy (R199, R202, R205): unfilled lines become full and poisoned; a put
leaves the rest unwritten; a command reports it in its completion word, unless that is what
failed. -/
def State.declareCopy (s : State) (id : Nat) (cause : Cause) : State :=
  match SMap.find s.copies id with
  | none => s
  | some c =>
    let s1 := if c.kind < 2 then
        s.withAlloc c.core c.launch fun al =>
          let a := c.lines.foldl (fun a l => a.write (128 * l) (zeros 128) cause.code) al
          { a with empties := a.empties.filter fun e => !c.lines.contains e }
      else s
    (s1.withCopy id fun c =>
      { c with
        runs := [], rows := [], lines := [], rids := [], restamp := false, issuedAll := true
        failed := c.failed || !c.issuedAll, done := if c.issuedAll then 0 else c.done }).flushReturns c.team

/-- What comes of a copy's action. -/
def State.concludeCopy (s : State) (id : Nat) (a : Act Unit) : State :=
  let r := a.go s
  match r.1 with
  | .ok _ => ((SMap.find s.copies id).map (·.team)).elim r.2 r.2.flushReturns
  | .error (.block b) => r.2.withCopy id fun c => { c with rids := b.rids }
  | .error (.trap rs) => r.2.declareCopy id ((rs.head?.map (·.cause)).getD .nomap)
  | .error .gone => r.2

/-- A copy may move: it is released, or a put whose bytes are staged, not paused, not re-stamping, and the
first of its command stream (R205, R291). -/
def State.copyMoves (s : State) (id : Nat) (c : Copy) : Bool :=
  (!c.held || c.kind == 2) && c.rids.isEmpty && !c.restamp &&
    (c.engine.isNone || !(s.copies.any fun e => e.1 < id && e.2.engine == c.engine && !e.2.held))

/-- COPY_LINE_FILLED: one piece of at most 128 bytes moves, or the index of a row is read. -/
def copyFills (id chunk : Nat) (s : State) : State :=
  match SMap.find s.copies id with
  | none => s
  | some c =>
    if s.copyMoves id c then
      match takeChunk c.runs chunk with
      | some (p, rest) => s.concludeCopy id (c.move id p rest)
      | none => s.concludeCopy id (c.resolve id (chunk - chunksLeft c.runs))
    else s

/-- Nothing of a copy is left to move or to be accepted. -/
def State.copySettled (s : State) (id : Nat) (c : Copy) : Bool :=
  chunksLeft c.runs == 0 && c.rows.isEmpty && !(s.writes.any fun w => w.path == 2 && w.group == id)

/-- The completion word of a command takes its 1, or the mark of a declared fault (R205). -/
def Copy.finish (c : Copy) : Act Unit := do
  if c.done != 0 then
    let ks ← (pagePieces c.done.toNat 8).mapM fun p => do
      return (← c.reach (BitVec.ofNat 64 p.1) { r := true, w := true }, p.2)
    if (← get).copyBehind c ks then blockAt {}
    let old ← ks.mapM fun k => readPhys k.1 k.2
    let new := leBytes 8 (leNat old.flatten + if c.failed then 2 ^ 63 + 1 else 1)
    modify fun (s : State) =>
      (ks.foldl (fun (x : Nat × State) k => (x.1 + k.2, x.2.store k.1 ((new.drop x.1).take k.2) c.asid c.order)) (0, s)).2

/-- COPY_COMPLETE: the copy leaves, its counts retire and its unit drains; with it goes its handle,
and a team that yielded to it may go on. -/
def copyCompletes (id : Nat) (s : State) : State :=
  match SMap.find s.copies id with
  | none => s
  | some c =>
    if !c.held && s.copyMoves id c && s.copySettled id c then
      s.concludeCopy id do
        c.finish
        modify fun (s : State) =>
          let s1 := s.removeCopy id
          let s2 := c.pairs.foldl (fun s h => s.dropCount c.asid c.timeline h.loc h.stamp) s1
          match c.unit with
          | some u => s2.ackUnit c.team u
          | none => s2
    else s

/-- COPY_RESTAMP: at the boundary a copy under `adv` takes its team's NOW as its stamp; counts at the pairs the
team holds are added, and the old ones retire once what it has moved so far has been accepted (R263, R344).
One of a team that has ended keeps both. -/
def copyRestamps (id : Nat) (s : State) : State :=
  match SMap.find s.copies id with
  | none => s
  | some c =>
    let t := s.team c.team
    if !c.restamp then s
    else if t.place = .ended then s.withCopy id fun c => { c with restamp := false }
    else
      match s.countPairs (c.core % 160) c.asid c.timeline t.holds with
      | none => s
      | some s1 =>
        let s2 := c.pairs.foldl (fun s h => s.owes c.asid ⟨c.timeline, h.loc, h.stamp, 1, .moved id c.part⟩) s1
        s2.withCopy id fun c => { c with restamp := false, stamp := t.now, pairs := t.holds, part := c.part + 1 }

/-! ## Answers (R345, R346, R364) -/

/-- Take a request off a list. -/
def answered (rids : List Nat) (rid : Nat) : List Nat := rids.filter (· != rid)

/-- A team that waits on a request goes on when none is left, from a blocking point inside a clause with its
turn; a declared fault is noted for it, and for the words of its matrix command stream (R346). -/
def Team.answered (t : Team) (q : PageReq) (declare : Bool) : Team :=
  let mark (ds : List Declared) : List Declared := if declare then ds ++ [⟨q.page, q.cause, q.detail⟩] else ds
  let word (x : MxWord) : MxWord :=
    if x.rids.contains q.rid then { x with rids := Machine.answered x.rids q.rid, declared := mark x.declared } else x
  let t : Team := { t with mxq := t.mxq.map word }
  match t.block with
  | some b =>
    if b.rids.contains q.rid then
      let left := Machine.answered b.rids q.rid
      { t with
        block := if left.isEmpty && t.clause.isNone then none else some { b with rids := left }
        declared := mark t.declared }
    else t
  | none => t

/-- A page request is answered (R345): every access that waited on it walks again or meets the
declared fault, and the page's side-log entries replay or become records. Entries in a context's save area
replay when it is restored, and at once where no such context is left (R290, R364). -/
def State.answerPage (s : State) (q : PageReq) (declare : Bool) : State :=
  let mark (ds : List Declared) : List Declared := if declare then ds ++ [⟨q.page, q.cause, q.detail⟩] else ds
  let s1 := s.withHearth fun h => { h with requests := h.requests.filter fun r => r.rid != q.rid }
  let waits (t : Team) : Bool := (t.block.any fun b => b.rids.contains q.rid) || t.mxq.any fun x => x.rids.contains q.rid
  let waiters := (s1.teams.filter fun t => waits t.2).map (·.1)
  let s2 := waiters.foldl (fun (s : State) i => (s.withTeam i fun t => t.answered q declare).mxGo i) s1
  let s3 : State := { s2 with
    regions := s2.regions.map fun (g : Nat × Region) =>
      (g.1, if g.2.rids.contains q.rid then { g.2 with rids := Machine.answered g.2.rids q.rid, declared := mark g.2.declared } else g.2)
    copies := s2.copies.map fun (c : Nat × Copy) =>
      (c.1, if c.2.rids.contains q.rid && !declare then { c.2 with rids := Machine.answered c.2.rids q.rid } else c.2) }
  let s4 := s3.withHearth fun h =>
    { h with queues := h.queues.map fun (w : Nat × WorkQueue) =>
        (w.1, if w.2.rids.contains q.rid then { w.2 with rids := Machine.answered w.2.rids q.rid, declared := mark w.2.declared } else w.2) }
  let mine (e : SideEntry) : Bool := e.rid == some q.rid
  if declare then
    let hit := (s4.copies.filter fun c => c.2.rids.contains q.rid).map (·.1)
    let s5 := hit.foldl (fun s c => s.declareCopy c q.cause) s4
    let es := s5.cores.flatMap fun c => c.2.log.filter mine
    let s6 := { s5 with cores := s5.cores.map fun c => (c.1, { c.2 with log := c.2.log.filter fun e => !mine e }) }
    let s7 := es.foldl (fun s e => s.declareEntry e q.cause q.detail) s6
    let lost := (s7.tasks.filter fun k => k.2.rids.contains q.rid).map (·.2)
    if lost.isEmpty then s7 else s7.refuseGroup lost
  else
    let s5 : State := { s4 with
      tasks := s4.tasks.map fun (k : Nat × Task) => (k.1, { k.2 with rids := Machine.answered k.2.rids q.rid }) }
    (s5.cores.map (·.1)).foldl (fun s c => if c < 160 || s.abandoned c then s.replayLog c mine else s) s5

/-! ## The meanings -/

/-- MORTAR_ARRIVAL (R215). -/
def execMortarArrival (index : Nat) (s : State) : Host.Outcome State Fault Refusal := runEvent (mortarArrives index) s
/-- MORTAR_DRAIN (R215). -/
def execMortarDrain (addr size : Nat) (s : State) : Host.Outcome State Fault Refusal := runEvent (mortarDrains addr size) s
/-- SLICE_WRITE_ACCEPT (R186). -/
def execSliceWriteAccept (index : Nat) (s : State) : Host.Outcome State Fault Refusal := runEvent (writeAccepted index) s
/-- HOST_TLP_WRITE (R375). -/
def execHostTlpWrite (addr : Nat) (data : List Byte) (poisoned : Bool) (s : State) : Host.Outcome State Fault Refusal :=
  runEvent (hostWrites addr data poisoned) s
/-- COUNT_RETIRE (R259). -/
def execCountRetire (index : Nat) (s : State) : Host.Outcome State Fault Refusal := runEvent (countRetires index) s
/-- FRONTIER_ANNOUNCE (R256). -/
def execFrontierAnnounce (core asid loc : Nat) (s : State) : Host.Outcome State Fault Refusal :=
  runEvent (frontierHeard core asid loc) s
/-- TASK_ACCEPT (R272). -/
def execTaskAccept (index : Nat) (s : State) : Host.Outcome State Fault Refusal := runEvent (taskAccepted index) s
/-- TASK_GROUP_TIMEOUT (R273). -/
def execTaskGroupTimeout (group core : Nat) (s : State) : Host.Outcome State Fault Refusal := runEvent (groupTimesOut group core) s
/-- COPY_LINE_FILLED (R193). -/
def execCopyLineFilled (copy chunk : Nat) (s : State) : Host.Outcome State Fault Refusal := runEvent (copyFills copy chunk) s
/-- COPY_COMPLETE (R199). -/
def execCopyComplete (copy : Nat) (s : State) : Host.Outcome State Fault Refusal := runEvent (copyCompletes copy) s
/-- COPY_RESTAMP (R344). -/
def execCopyRestamp (copy : Nat) (s : State) : Host.Outcome State Fault Refusal := runEvent (copyRestamps copy) s

end Sys2Proof.Machine
end

