-- ==== Sys2Proof/Machine/Time.lean ====
section
/-! DEFINITION. The lt instructions (R261 to R264). -/

namespace Sys2Proof.Machine

/-- TIMEUSE with a detail (R262). -/
def timeuse {α : Type} (detail : Nat) : Act α := fail .timeuse detail

/-- A location operand, read in full; ZERO names location 0 (R263). -/
def locArg (r : Reg) : Act Nat := do
  let x ← sread r
  return x.toNat

/-- A time pair operand, or NOW for ZERO (R250). -/
def timeArg (r : Reg) (mod : BitVec 6) : Act Stamp := do
  let t ← tm
  match r with
  | .zero => return t.now
  | r => do
    usePoisons r 2
    let lo ← sreadAt r 0
    let hi ← sreadAt r 1
    return stampOf (mod.toNat % 4 + 1) lo hi

/-- A location above 4,095, or a depth above TDEPTH (R262). -/
def pairCheck (loc : Nat) (st : Stamp) : Act Unit := do
  let t ← tm
  if 4095 < loc || t.desc.tdepth < st.length then timeuse 6

/-- Write a time pair to two registers (R250). -/
def writePair (r : Reg) (i : Nat) (st : Stamp) : Act Unit := do
  swriteAt r i (pairOf st).1
  swriteAt r (i + 1) (pairOf st).2

/-- lt.now (R263). -/
def ltNow (f : TForm) : Act Unit := do
  let t ← tm
  writePair f.d 0 t.now

/-- The holds identical to NOW at the new time; a pair already held takes them in. -/
def movedHolds (hs : List Hold) (now st : Stamp) : List Hold :=
  (hs.filter fun h => h.stamp == now).foldl (fun acc h =>
    match acc.find? fun k => k.loc == h.loc && k.stamp == st with
    | some k => acc.map fun j => if j = k then { k with share := if h.task then h.share else k.share, task := k.task || h.task } else j
    | none => acc ++ [{ h with stamp := st }]) (hs.filter fun h => h.stamp != now)

/-- move(n) of R263: the counts at the new time come first, and the old ones retire under R259. -/
def moveNow (st : Stamp) : Act Unit := do
  let t ← tm
  let i ← me
  let s ← get
  let olds := t.holds.filter fun h => h.stamp == t.now
  let fresh (h : Hold) : Nat :=
    if t.holds.any fun k => k.loc == h.loc && k.stamp == st then (if h.task then h.share - 1 else 0) else h.share
  let added := olds.foldl (fun o h => o.bind fun s =>
    if fresh h = 0 then some s else s.addCount (some t.core) t.asid t.timeline h.loc st (fresh h)) (some s)
  match added with
  | none => blockAt { detail := 8 }
  | some s1 =>
    let s2 := olds.foldl (fun s h => s.releaseHold i h) s1
    set (s2.withTeam i fun t => { t with now := st, holds := movedHolds t.holds t.now st })

/-- lt.adv (R263). -/
def ltAdv (f : TForm) : Act Unit := do
  let k ← sread f.d
  let t ← tm
  if k.toNat != 0 then
    if 0xFFFFFFFF < k.toNat || 0xFFFFFFFF < t.now.getLastD 0 + k.toNat then timeuse 3
    moveNow (lastCoord (· + k.toNat) t.now)

/-- lt.enter (R263): a team whose NOW is as deep as TDEPTH, or deeper by its task's stamp, enters no deeper (R249,
R262; log 21). -/
def ltEnter : Act Unit := do
  let t ← tm
  if t.desc.tdepth ≤ t.now.length then timeuse 4
  moveNow (t.now ++ [0])

/-- lt.leave (R263). -/
def ltLeave : Act Unit := do
  let t ← tm
  if t.now.length = 1 then timeuse 5
  moveNow t.now.dropLast

/-- lt.hold (R258, R263). -/
def ltHold (f : TForm) : Act Unit := do
  let loc ← locArg f.d
  let st ← timeArg f.a f.mod
  pairCheck loc st
  let t ← tm
  let sp := (← get).space t.asid
  if !t.covers sp loc st then timeuse 1
  if !(t.holds.any fun h => h.loc == loc && h.stamp == st) && 16 ≤ t.holds.length then timeuse 7
  holdFor loc st

/-- lt.drop (R263): a gathered team's own pair leaves only with its lanes (R274). -/
def ltDrop (f : TForm) : Act Unit := do
  let loc ← locArg f.d
  let st ← timeArg f.a f.mod
  pairCheck loc st
  let t ← tm
  let i ← me
  match t.holds.find? fun h => h.loc == loc && h.stamp == st && !h.task with
  | none => timeuse 2
  | some h =>
    modify fun (s : State) =>
      (s.releaseHold i h).withTeam i fun t => { t with holds := t.holds.filter fun k => k != h }

/-- The frontier at a location that the team's core knows (R264). -/
def heard (loc : Nat) : Act (Option Stamp) := do
  let t ← tm
  return (← get).heardAt t.core t.asid loc

/-- An observation of a frontier discards the team's view of the load cache (R242). -/
def observe : Act Unit := do
  let i ← me
  modify fun (s : State) => s.acquire i

/-- lt.wait (R264). The team's own holds are tested as it issues; one that resumes does not issue again (R289). -/
def ltWait (f : TForm) : Act Unit := do
  let loc ← locArg f.d
  let st ← timeArg f.a f.mod
  pairCheck loc st
  let t ← tm
  let front ← heard loc
  if !t.reissue && t.covers ((← get).space t.asid) loc st then timeuse 9
  if !passedBy front st then blockAt {}
  observe

/-- lt.test (R264). -/
def ltTest (f : TForm) : Act Unit := do
  let loc ← locArg f.a
  let st ← timeArg f.b f.mod
  pairCheck loc st
  let front ← heard loc
  if f.mod.getLsbD 2 then
    writePair f.d 0 (front.getD [])
    swriteAt f.d 2 (BitVec.ofNat 64 (front.getD []).length)
    observe
  else
    swrite f.d (if passedBy front st then 1 else 0)
    if passedBy front st then observe

/-- lt.now (R263). -/
def execLtNow (f : TForm) (s : State) : Host.Outcome State Fault Refusal := runCore (ltNow f) s
/-- lt.adv (R263). -/
def execLtAdv (f : TForm) (s : State) : Host.Outcome State Fault Refusal := runCore (ltAdv f) s
/-- lt.enter (R263). -/
def execLtEnter (_ : TForm) (s : State) : Host.Outcome State Fault Refusal := runCore ltEnter s
/-- lt.leave (R263). -/
def execLtLeave (_ : TForm) (s : State) : Host.Outcome State Fault Refusal := runCore ltLeave s
/-- lt.hold (R263). -/
def execLtHold (f : TForm) (s : State) : Host.Outcome State Fault Refusal := runCore (ltHold f) s
/-- lt.drop (R263). -/
def execLtDrop (f : TForm) (s : State) : Host.Outcome State Fault Refusal := runCore (ltDrop f) s
/-- lt.wait (R264). -/
def execLtWait (f : TForm) (s : State) : Host.Outcome State Fault Refusal := runCore (ltWait f) s
/-- lt.test (R264). -/
def execLtTest (f : TForm) (s : State) : Host.Outcome State Fault Refusal := runCore (ltTest f) s

end Sys2Proof.Machine
end

