-- ==== Sys2Proof/Machine/Near.lean ====
section
/-! DEFINITION. The nm instructions: launching a grid of Sill blocks and setting its share
(R308, R315, R325 to R328). -/

namespace Sys2Proof.Machine

/-! ## Channel-local pages (R308, R334) -/

/-- Where an address lies in a channel-local page: the pseudo-channel and the channel offset. -/
inductive Local
  | at (chan off : Nat)
  /-- Another kind of page. -/
  | other
  /-- A walk fault, or an address that is not canonical. -/
  | fault

/-- Find the channel-local page of an address: one of 4 KiB or of 64 KiB (R308). -/
def localAt (h : Holder) (asid u g : Nat) (va : Word) (need : Need) : Act Local := do
  if !canonical va then return .fault
  let a := va.toNat % 2 ^ 57
  match ← leafFor h asid u g a need with
  | .error _ => return .fault
  | .ok t =>
    if t.kind != 1 || 65536 < t.size then return .other
    let pa := t.frame + (a - t.va)
    return .at (pa / 2 ^ 30 % 512) (pa % 2 ^ 30)

/-- The layout id of a pseudo-channel (R327). -/
def State.layoutId (s : State) (chan : Nat) : Nat := (s.channel chan).layoutMore + 1

/-! ## Programs (R55, R315) -/

/-- A word of a program passes R315: it decodes, and a loop's END lies behind it in the program. -/
def sillWordGood (count idx : Nat) (w : BitVec 32) : Bool :=
  match decodeSill w with
  | .ok (.slLoop f) => idx < f.stop.toNat && f.stop.toNat < count
  | .ok _ => true
  | .error _ => false

/-- The header and the block word are in order (R55, R326). -/
def sillHeaderGood (b : List Byte) (blocks : Word) : Bool :=
  let n := bytesAt b 0 2
  1 ≤ n && n ≤ 96 && bytesAt b 2 2 == 0 && bytesAt b 8 8 == 0 && bitsOf blocks.toNat 31 10 == 0

/-- The program writes to memory. -/
def sillWrites (ws : List (BitVec 32)) : Bool :=
  ws.any fun w => match decodeSill w with | .ok (.slWr _) => true | _ => false

/-- Each block's pseudo-channel, or SILL detail 3 with the address that has none (R326). -/
def blockChannels (addrs : List Word) : Act (List Nat) := do
  let t ← tm
  addrs.mapM fun a => do
    match ← localAt (.core t.core) t.asid t.timeline t.gen a {} with
    | .at c _ => return c
    | _ => fail .sill 3 a

/-- LAYOUT where an id is asked for that a channel does not have (R326). -/
def layoutCheck (want : List Nat) (chans : List Nat) : Act Unit := do
  let s ← get
  match chans.find? fun c => want.any fun w => w != 0xFFFFFFFF && w != s.layoutId c with
  | some c => fail .layout 0 (BitVec.ofNat 64 (c + s.layoutId c * 2 ^ 32))
  | none => pure ()

/-- The units take a grid's blocks in ascending order: the team waits while the next one's unit has 8 blocks
pending. `step` holds the grid's number meanwhile. -/
def queueBlocks (g : Nat) : List (Nat × SillBlock) → Act Unit
  | [] => pure ()
  | (c, b) :: rest => do
    if 8 ≤ ((← get).sill c).pending.length then blockAt { detail := 9 }
    modify fun (s : State) =>
      let s1 := s.withSill c fun u => { u with pending := u.pending ++ [b] }
      { s1 with grids := SMap.alter s1.grids g fun x => { x with rest := rest } }
    queueBlocks g rest

/-- The blocks of a launch with their pseudo-channels, after every check of R326, and its join location. -/
def gridBlocks (f : TForm) : Act (Nat × List (Nat × SillBlock)) := do
  let p ← sread f.a
  let loc ← sread f.b
  let blocks ← sread f.c
  if p.toNat % 8 != 0 then fail .misalign 0 p
  let head ← readVirt p 16
  let n := bytesAt head 0 2
  let body ← readVirt (p + 16) (4 * n)
  if !sillHeaderGood head blocks then fail .sill 2 p
  let ws : List (BitVec 32) := (List.range n).map fun i => BitVec.ofNat 32 (bytesAt body (4 * i) 4)
  match (List.range n).find? fun i => !sillWordGood n i (ws.getD i 0) with
  | some i => fail .sill 1 (p + BitVec.ofNat 64 (16 + 4 * i))
  | none => pure ()
  let t ← tm
  if t.desc.affarg = 0xFF then fail .sill 3
  let aff ← sread (Reg.ofByte (BitVec.ofNat 8 (0x80 + t.desc.affarg)))
  let stride := blocks.toNat / 2 ^ 32
  let addrs := (List.range (blocks.toNat % 1024 + 1)).map fun j => aff + BitVec.ofNat 64 (j * stride * 4096)
  let chans ← blockChannels addrs
  let s ← get
  if s.detOf t && sillWrites ws then fail .determ 0
  layoutCheck [t.desc.layout, bytesAt head 4 4] chans
  pairCheck loc.toNat t.now
  if !t.covers (s.space t.asid) loc.toNat t.now then timeuse 8
  let i ← me
  let block (x : Nat × Nat × Word) : Nat × SillBlock :=
    (x.2.1,
      { grid := s.serial, index := x.1, team := i, asid := t.asid, timeline := t.timeline, gen := t.gen, prog := ws,
        affinity := x.2.2, split := t.split })
  return (loc.toNat, ((List.range chans.length).zip (chans.zip addrs)).map block)

/-- nm.launch (R326). The grid keeps the blocks as the launch read them while it waits for a unit. -/
def nmLaunch (f : TForm) : Act Unit := do
  let t ← tm
  let s ← get
  let under : Option Grid := if t.step = 0 then none else SMap.find s.grids t.step
  match under with
  | some g => queueBlocks t.step g.rest
  | none => do
    let (loc, bs) ← gridBlocks f
    let s ← get
    if bs.any fun b => 8 ≤ (s.sill b.1).pending.length then blockAt { detail := 9 }
    countFor loc t.now
    let i ← me
    let grid : Grid :=
      { team := i, asid := t.asid, timeline := t.timeline, loc := loc, stamp := t.now, size := bs.length, blocks := bs.length
        rest := bs }
    modify fun (s : State) =>
      { s with grids := SMap.put s.grids s.serial grid, serial := s.serial + bs.length + 1 }
    swrite f.d (BitVec.ofNat 64 ((bs.head?.map (·.1)).getD 0))
    modTm fun u => { u with step := s.serial }
    queueBlocks s.serial bs

/-- nm.ratio (R325): it uses a poisoned register without a fault. -/
def nmRatio (f : TForm) : Act Unit := do
  let t ← tm
  let x := t.scalar ((← get).teamsOf t) f.a
  let k := f.mod.toNat
  modTm fun t => { t with split := k }
  swrite f.d (BitVec.ofNat 64 (x.toNat * k / 16))

/-- nm.launch (R326). -/
def execNmLaunch (f : TForm) (s : State) : Host.Outcome State Fault Refusal := runCore (nmLaunch f) s
/-- nm.ratio (R325). -/
def execNmRatio (f : TForm) (s : State) : Host.Outcome State Fault Refusal := runCore (nmRatio f) s

end Sys2Proof.Machine
end

