-- ==== Sys2Proof/Machine/SillOps.lean ====
section
/-! DEFINITION. The Sill units' instructions (R306 to R324). -/

namespace Sys2Proof.Machine

open Sys2Proof.Num (FVal Fmt)

/-! ## The shape of a meaning -/

/-- How an instruction of a block ends other than by going on to the next. -/
inductive SillStop
  /-- It waits where it stands. -/
  | wait
  /-- Sub-waves of it remain (R312). -/
  | again
  /-- Control continues at an index (R318). -/
  | jump (idx : Nat)
  /-- It faults with a SILL detail (R324). -/
  | fault (detail : Nat)
  /-- The block ends. -/
  | halt
  deriving DecidableEq, Repr

/-- An action of a unit. -/
abbrev SAct (α : Type) := ExceptT SillStop (StateM State) α

/-- The unit at issue. -/
def unitOfTurn : SAct Nat := do return (← get).curUnit.getD 0
/-- Its state. -/
def su : SAct Sill := do
  let s ← get
  return s.sill (s.curUnit.getD 0)
/-- Change it. -/
def modSu (f : Sill → Sill) : SAct Unit := modify fun (s : State) => s.withSill (s.curUnit.getD 0) f
/-- The block that runs on it. -/
def sillBlock : SAct SillBlock := do
  return (← su).running.getD
    { grid := 0, index := 0, team := 0, asid := 0, timeline := 0, gen := 0, prog := [], affinity := 0, split := 0 }
/-- Run an action of a core's kind that neither blocks nor traps. -/
def liftAct {α : Type} (a : Act α) : SAct α := do
  let s ← get
  let r := a.go s
  set r.2
  match r.1 with
  | .ok x => return x
  | .error _ => throw (.fault 4)

/-- A block ends (R316, R323, R324, R328): inbound words are discarded, and a fault leaves its
words poppable and makes its record. -/
def State.endBlock (s : State) (chan : Nat) (fault : Option Nat) : State :=
  let u := s.sill chan
  match u.running with
  | none => s
  | some b =>
    let s1 := s.withSill chan fun u =>
      { u with
        running := none, idx := 0, loops := [], allBank := false, inq := [], outq := [], wave := 0, words := 0, waiting := false
        left := match fault with | some _ => u.left ++ u.outq.map fun w => (b.team, w) | none => u.left }
    let s2 := match fault with
      | some d =>
        let ea := chan + u.idx % 128 * 2 ^ 16 + b.index * 2 ^ 32
        s1.headerRec b.team { cause := .sill, detail := d, ea := BitVec.ofNat 64 ea, index := 0xE }
      | none => s1
    s2.endOfBlock b.grid

/-- The index after the instruction at `i`, and the loops then active (R318). -/
def loopsAfter (i : Nat) : List SillLoop → SMap (BitVec 16) → Nat × List SillLoop × SMap (BitVec 16)
  | [], l => (i + 1, [], l)
  | x :: rest, l =>
    if x.stop = i then
      let n := SMap.val l 0 x.counter - 1
      let l' := SMap.set 0 l x.counter n
      if n = 0 then loopsAfter i rest l' else (x.start + 1, x :: rest, l')
    else (i + 1, x :: rest, l)

/-- The instruction at the unit's index completes. -/
def Sill.advance (u : Sill) : Sill :=
  let r := loopsAfter u.idx u.loops u.l
  { u with idx := r.1, loops := r.2.1, l := r.2.2, wave := 0, words := 0, waiting := false }

/-- A Sill instruction's meaning: its action, for the unit at issue, then its conclusion. -/
def runSill (act : SAct Unit) (s : State) : Host.Outcome State Fault Refusal :=
  match s.curUnit with
  | none => .fault .noBlock
  | some c =>
    match (s.sill c).running with
    | none => .fault .noBlock
    | some _ =>
      let r := (ExceptT.run act).run s
      .next (match r.1 with
        | .ok _ => r.2.withSill c Sill.advance
        | .error .wait => r.2
        | .error .again => r.2
        | .error (.jump i) => r.2.withSill c fun u => { u with idx := i }
        | .error (.fault d) => r.2.endBlock c (some d)
        | .error .halt => r.2.endBlock c none)

/-- Wait, counted for SILL detail 8 (R323). -/
def sillWait {α : Type} : SAct α := do
  modSu fun u => { u with waiting := true }
  throw .wait

/-! ## Registers (R306) -/

/-- W[n]. -/
def Sill.getW (u : Sill) (n : Nat) : BitVec 256 := SMap.val u.w 0 n
/-- Write W[n]. -/
def Sill.setW (u : Sill) (n : Nat) (x : BitVec 256) : Sill := { u with w := SMap.set 0 u.w n x }
/-- G[n]. -/
def Sill.getG (u : Sill) (n : Nat) : Word := SMap.val u.g 0 n
/-- BX[n] of a bank. -/
def Sill.getBx (u : Sill) (bank n : Nat) : BitVec 512 := SMap.val u.bx 0 (4 * bank + n)
/-- Entry `e` of BA[p] of a bank. -/
def Sill.getBa (u : Sill) (bank p e : Nat) : BitVec 32 := SMap.val u.ba 0 (32 * bank + 16 * p + e)
/-- Write it. -/
def Sill.setBa (u : Sill) (bank p e : Nat) (x : BitVec 32) : Sill := { u with ba := SMap.set 0 u.ba (32 * bank + 16 * p + e) x }

/-- The elements of a register of `n` bits at `w` bits each, element 0 first. -/
def elems (w n : Nat) (x : Nat) : List Nat := (List.range (n / w)).map fun i => x / 2 ^ (w * i) % 2 ^ w
/-- The number that elements of `w` bits make. -/
def joinElems (w : Nat) (xs : List Nat) : Nat := xs.foldr (fun e a => e % 2 ^ w + a * 2 ^ w) 0
/-- Width of an element type, 0 f16 or 1 f32. -/
def sillWidth (t : BitVec 2) : Nat := if t = 0 then 16 else 32
/-- Its format. -/
def sillFmt (t : BitVec 2) : Fmt := if t = 0 then Num.f16 else Num.f32
/-- The elements of W[n]. -/
def Sill.elemsOf (u : Sill) (t : BitVec 2) (n : Nat) : List Nat := elems (sillWidth t) 256 (u.getW n).toNat

/-! ## Memory (R308, R309, R319) -/

/-- The group under which a block's writes stand. -/
def SillBlock.group (b : SillBlock) : Nat := b.grid + 1 + b.index
/-- Every write of the block has been accepted. -/
def State.blockQuiet (s : State) (b : SillBlock) : Bool := !(s.writes.any fun w => w.path == 6 && w.group == b.group)
/-- The address of a bank command (R319). -/
def sillAddr (f : SillK) : SAct Word := do return (← su).getG f.g.toNat + BitVec.ofNat 64 (64 * f.off.toNat)

/-- The channel offset of an address, after its checks (R319, R320, R324). -/
def sillReach (a : Word) (align : Nat) (need : Need) : SAct Nat := do
  let b ← sillBlock
  let c ← unitOfTurn
  if a.toNat % align != 0 then throw (.fault 5)
  match ← liftAct (localAt (.sill c) b.asid b.timeline b.gen a need) with
  | .at chan off => if chan = c then return off else throw (.fault 3)
  | .other => throw (.fault 3)
  | .fault => throw (.fault 4)

/-- The slice accepts the block's own earlier writes to a range before the range is read. -/
def State.acceptOwn (s : State) (b : SillBlock) (key n : Nat) : State :=
  let mine (w : PendWrite) : Bool := w.path == 6 && w.group == b.group && meets w.key w.bytes.length key n
  (s.writes.filter mine).foldl State.acceptWrite { s with writes := s.writes.filter fun w => !mine w }

/-- 64 bytes at a channel offset of the unit's channel, under what a deterministic team had staged when it launched
the grid (R291, R309, R329). Those of a poisoned burst are free
values (log 24). -/
def sillRead (off : Nat) : SAct Nat := do
  let b ← sillBlock
  let c ← unitOfTurn
  let key := (← get).deviceKey (interleave c off)
  modify fun (s : State) => s.acceptOwn b key 64
  let (bs, p) ← liftAct (ownRead b.team b.grid key 64)
  if p = 0 then return leNat bs
  else do
    let n := (← get).free
    modify fun (s : State) => { s with free := s.free + 8 }
    return (List.range 8).foldl (fun x i => x + (Config.freeWord (n + i)).toNat * 2 ^ (64 * i)) 0

/-- sl.rd. -/
def slRd (f : SillK) : SAct Unit := do
  if (← su).allBank then throw (.fault 6)
  let off ← sillReach (← sillAddr f) 64 { r := true, use := 4 }
  let x ← sillRead off
  modSu fun u => (u.setW f.w.toNat (BitVec.ofNat 256 x)).setW (f.w.toNat + 1) (BitVec.ofNat 256 (x / 2 ^ 256))

/-- sl.wr. -/
def slWr (f : SillK) : SAct Unit := do
  let u ← su
  if u.allBank then throw (.fault 6)
  let a ← sillAddr f
  let off ← sillReach a 64 { w := true, use := 4 }
  let b ← sillBlock
  let c ← unitOfTurn
  let x := (u.getW f.w.toNat).toNat + (u.getW (f.w.toNat + 1)).toNat * 2 ^ 256
  modify fun (s : State) =>
    let w : PendWrite :=
      { team := b.team, unit := 0, path := 6, va := a, key := s.deviceKey (interleave c off), bytes := leBytes 64 x,
        asid := b.asid, group := b.group }
    { s with writes := s.writes ++ [w] }

/-! ## Bank commands (R310, R312, R319, R320) -/

/-- A bank command: its checks when it starts, then one sub-wave over the next banks in bank order
(R312). `need` is what it needs of the page. -/
def bankCommand (f : SillK) (need : Need) (act : Nat → Nat → SAct Unit) : SAct Unit := do
  let u ← su
  let a ← sillAddr f
  if u.wave = 0 then
    let off ← sillReach a (if u.allBank then 1024 else 64) need
    modSu fun u => { u with base := off }
  let u ← su
  if u.allBank then
    let l := min (16 - u.limitLess) (16 - u.liveLess)
    let banks := (List.range l).map (u.wave + ·) |>.filter (· < 16)
    banks.forM fun b => act b (u.base + 64 * b)
    if u.wave + l < 16 then
      modSu fun u => { u with wave := u.wave + l }
      throw .again
  else act (a.toNat / 64 % 16) u.base

/-- The FP16 elements of 512 bits. -/
def halves (x : Nat) : List FVal := (elems 16 512 x).map Num.f16.value

/-- sl.mac (R320). -/
def slMac (f : SillK) : SAct Unit :=
  bankCommand f { r := true, use := 4 } fun bank off => do
    let x ← sillRead off
    modSu fun u =>
      let bx := halves (u.getBx bank f.x.toNat).toNat
      let sum := Num.blockSum ((halves x).zip bx |>.map fun p => Num.prod p.1 p.2)
      let old := (u.getBa bank f.p.toNat f.e.toNat).toNat
      let new := if f.set = 1 then sum else (Num.f32.add .rne false (Num.f32.value old) (Num.f32.value sum)).1
      u.setBa bank f.p.toNat f.e.toNat (BitVec.ofNat 32 new)

/-- sl.act: timing only (R319). -/
def slAct (f : SillK) : SAct Unit := bankCommand f { use := 4 } fun _ _ => pure ()

/-! ## Between the unit and its banks (R321) -/

/-- sl.bx. -/
def slBx (f : SillV) : SAct Unit :=
  modSu fun u =>
    let x : BitVec 512 := u.getW f.b.toNat ++ u.getW f.a.toNat
    { u with bx := (List.range 16).foldl (fun m b => SMap.set 0 m (4 * b + f.d.toNat) x) u.bx }

/-- sl.bred. -/
def slBred (f : SillK) : SAct Unit :=
  modSu fun u =>
    let entry (b : Nat) : Nat := (u.getBa b f.p.toNat f.e.toNat).toNat
    let acc := (List.range 15).foldl (fun a b =>
      (Num.f32.add .rne false (Num.f32.value a) (Num.f32.value (entry (b + 1)))).1) (entry 0)
    let es := (elems 32 256 (u.getW f.w.toNat).toNat).set (f.off.toNat % 8) acc
    u.setW f.w.toNat (BitVec.ofNat 256 (joinElems 32 es))

/-! ## Arithmetic in the W registers (R322) -/

/-- An instruction that acts on each element of A, B and C. -/
def slEach (f : SillV) (op : Fmt → Nat → Nat → Nat → Nat) : SAct Unit :=
  modSu fun u =>
    let a := u.elemsOf f.t f.a.toNat
    let b := u.elemsOf f.t f.b.toNat
    let c := u.elemsOf f.t f.c.toNat
    let r := (a.zip (b.zip c)).map fun x => op (sillFmt f.t) x.1 x.2.1 x.2.2
    u.setW f.d.toNat (BitVec.ofNat 256 (joinElems (sillWidth f.t) r))
/-- a + b. -/
def sillAdd (m : Fmt) (a b _ : Nat) : Nat := (m.add .rne false (m.value a) (m.value b)).1
/-- a - b. -/
def sillSub (m : Fmt) (a b _ : Nat) : Nat := (m.add .rne false (m.value a) (m.value b).negate).1
/-- a * b. -/
def sillMul (m : Fmt) (a b _ : Nat) : Nat := (m.mul .rne false (m.value a) (m.value b)).1
/-- a * b + c. -/
def sillFma (m : Fmt) (a b c : Nat) : Nat := (m.fma .rne false (m.value a) (m.value b) (m.value c)).1
/-- sl.min and sl.max. -/
def sillMinMax (max prop : Bool) (m : Fmt) (a b _ : Nat) : Nat :=
  (m.finish .rne false (Num.minMax max prop (m.value a) (m.value b))).1
/-- sl.cmp. -/
def sillCmp (cond : Nat) (m : Fmt) (a b _ : Nat) : Nat :=
  if (Num.condition cond (m.value a) (m.value b)).1 then 2 ^ m.width - 1 else 0
/-- sl.sel: C's element is not zero as bits. -/
def sillSel (_ : Fmt) (a b c : Nat) : Nat := if c = 0 then b else a

/-- sl.cvt. -/
def slCvt (f : SillV) : SAct Unit :=
  modSu fun u =>
    let h := 8 * (f.mod.toNat % 2)
    if f.t = 1 then
      let half := ((elems 16 256 (u.getW f.a.toNat).toNat).drop h).take 8
      u.setW f.d.toNat (BitVec.ofNat 256 (joinElems 32 (half.map fun x => Num.rne32 (Num.f16.value x))))
    else
      let new := (elems 32 256 (u.getW f.a.toNat).toNat).map fun x => (Num.f16.deliver .rne false false (Num.f32.value x)).1
      let old := elems 16 256 (u.getW f.d.toNat).toNat
      u.setW f.d.toNat (BitVec.ofNat 256 (joinElems 16 (old.take h ++ new ++ old.drop (h + 8))))

/-- sl.movi. -/
def slMovi (f : SillI) : SAct Unit :=
  modSu fun u =>
    let e := if f.t = 0 then f.imm.toNat else f.imm.toNat * 2 ^ 16
    u.setW f.d.toNat (BitVec.ofNat 256 (joinElems (sillWidth f.t) (List.replicate (256 / sillWidth f.t) e)))

/-! ## Sequencing and addresses (R316 to R318) -/

/-- sl.halt. -/
def slHalt : SAct Unit := do
  let b ← sillBlock
  if (← su).outq.isEmpty && (← get).blockQuiet b then throw .halt else sillWait

/-- sl.fence. -/
def slFence : SAct Unit := do
  let b ← sillBlock
  if !(← get).blockQuiet b then throw .wait

/-- sl.ag (R317). -/
def slAg (f : SillA) : SAct Unit := do
  let b ← sillBlock
  modSu fun u =>
    let base := if f.base = 1 then b.affinity else u.getG f.a.toNat
    { u with g := SMap.set 0 u.g f.d.toNat (base + f.imm.signExtend 64) }

/-- sl.loop (R318). -/
def slLoop (f : SillL) : SAct Unit := do
  let u ← su
  let n := f.l.toNat
  let e := f.stop.toNat
  if u.loops.any (·.counter == n) then throw (.fault 7)
  if (u.loops.head?.map fun x => decide (x.stop < e)).getD false then throw (.fault 7)
  if f.count = 0 then throw (.jump (e + 1))
  modSu fun u => { u with l := SMap.set 0 u.l n f.count, loops := ⟨n, u.idx, e⟩ :: u.loops }

/-! ## Words to and from the team (R323) -/

/-- Push words one by one, each once the outbound queue has room. -/
def sillSend (ws : List Word) : SAct Unit := do
  (ws.drop (← su).words).forM fun w => do
    if 16 ≤ (← su).outq.length then sillWait
    modSu fun u => { u with outq := u.outq ++ [w], words := u.words + 1, waiting := false }

/-- sl.send of a BA entry. -/
def slSendBa (f : SillQ) : SAct Unit := do
  let u ← su
  let banks := if u.allBank then List.range 16 else [f.bank.toNat]
  sillSend (banks.map fun b => (u.getBa b f.p.toNat f.e.toNat).setWidth 64)

/-- sl.send of a W register. -/
def slSendW (f : SillQ) : SAct Unit := do
  let u ← su
  sillSend ((List.range (f.n.toNat + 1)).map fun i => (u.getW f.w.toNat).extractLsb' (64 * i) 64)

/-- sl.recv. -/
def slRecv (f : SillQ) : SAct Unit := do
  let done := (← su).words
  ((List.range (f.n.toNat + 1)).drop done).forM fun i => do
    match (← su).inq with
    | [] => sillWait
    | x :: rest =>
      modSu fun u =>
        let es := (elems 64 256 (u.getW f.w.toNat).toNat).set i x.toNat
        let u' := u.setW f.w.toNat (BitVec.ofNat 256 (joinElems 64 es))
        { u' with inq := rest, words := i + 1, waiting := false }

/-! ## The meanings -/

/-- sl.nop (R316). -/
def execSlNop (s : State) : Host.Outcome State Fault Refusal := runSill (pure ()) s
/-- sl.halt (R316). -/
def execSlHalt (s : State) : Host.Outcome State Fault Refusal := runSill (slHalt) s
/-- sl.abm (R316). -/
def execSlAbm (s : State) : Host.Outcome State Fault Refusal := runSill (modSu fun u => { u with allBank := true }) s
/-- sl.sbm (R316). -/
def execSlSbm (s : State) : Host.Outcome State Fault Refusal := runSill (modSu fun u => { u with allBank := false }) s
/-- sl.act (R319). -/
def execSlAct (f : SillK) (s : State) : Host.Outcome State Fault Refusal := runSill (slAct f) s
/-- sl.rd (R319). -/
def execSlRd (f : SillK) (s : State) : Host.Outcome State Fault Refusal := runSill (slRd f) s
/-- sl.wr (R319). -/
def execSlWr (f : SillK) (s : State) : Host.Outcome State Fault Refusal := runSill (slWr f) s
/-- sl.bx (R321). -/
def execSlBx (f : SillV) (s : State) : Host.Outcome State Fault Refusal := runSill (slBx f) s
/-- sl.mac (R320). -/
def execSlMac (f : SillK) (s : State) : Host.Outcome State Fault Refusal := runSill (slMac f) s
/-- sl.bred (R321). -/
def execSlBred (f : SillK) (s : State) : Host.Outcome State Fault Refusal := runSill (slBred f) s
/-- sl.add (R322). -/
def execSlAdd (f : SillV) (s : State) : Host.Outcome State Fault Refusal := runSill (slEach f sillAdd) s
/-- sl.sub (R322). -/
def execSlSub (f : SillV) (s : State) : Host.Outcome State Fault Refusal := runSill (slEach f sillSub) s
/-- sl.mul (R322). -/
def execSlMul (f : SillV) (s : State) : Host.Outcome State Fault Refusal := runSill (slEach f sillMul) s
/-- sl.fma (R322). -/
def execSlFma (f : SillV) (s : State) : Host.Outcome State Fault Refusal := runSill (slEach f sillFma) s
/-- sl.min (R322). -/
def execSlMin (f : SillV) (s : State) : Host.Outcome State Fault Refusal := runSill (slEach f (sillMinMax false (f.mod.getLsbD 0))) s
/-- sl.max (R322). -/
def execSlMax (f : SillV) (s : State) : Host.Outcome State Fault Refusal := runSill (slEach f (sillMinMax true (f.mod.getLsbD 0))) s
/-- sl.cmp (R322). -/
def execSlCmp (f : SillV) (s : State) : Host.Outcome State Fault Refusal := runSill (slEach f (sillCmp (f.mod.toNat % 8))) s
/-- sl.sel (R322). -/
def execSlSel (f : SillV) (s : State) : Host.Outcome State Fault Refusal := runSill (slEach f sillSel) s
/-- sl.cvt (R322). -/
def execSlCvt (f : SillV) (s : State) : Host.Outcome State Fault Refusal := runSill (slCvt f) s
/-- sl.movi (R322). -/
def execSlMovi (f : SillI) (s : State) : Host.Outcome State Fault Refusal := runSill (slMovi f) s
/-- sl.mov (R322). -/
def execSlMov (f : SillV) (s : State) : Host.Outcome State Fault Refusal := runSill (modSu fun u => u.setW f.d.toNat (u.getW f.a.toNat)) s
/-- sl.ag (R317). -/
def execSlAg (f : SillA) (s : State) : Host.Outcome State Fault Refusal := runSill (slAg f) s
/-- sl.loop (R318). -/
def execSlLoop (f : SillL) (s : State) : Host.Outcome State Fault Refusal := runSill (slLoop f) s
/-- sl.send of a BA entry (R323). -/
def execSlSendBa (f : SillQ) (s : State) : Host.Outcome State Fault Refusal := runSill (slSendBa f) s
/-- sl.send of a W register (R323). -/
def execSlSendW (f : SillQ) (s : State) : Host.Outcome State Fault Refusal := runSill (slSendW f) s
/-- sl.recv (R323). -/
def execSlRecv (f : SillQ) (s : State) : Host.Outcome State Fault Refusal := runSill (slRecv f) s
/-- sl.fence (R316). -/
def execSlFence (s : State) : Host.Outcome State Fault Refusal := runSill (slFence) s

end Sys2Proof.Machine
end

