-- ==== Sys2Proof/Machine/EventsSill.lean ====
section
/-! DEFINITION. Events of the Sill units: the start of a block, sub-waves, stalls, the bank limit, and
changes of a channel's layout (R307, R311, R312, R323, R327). -/

namespace Sys2Proof.Machine

/-- A unit as a block finds it when it starts (R307): what belongs to the channel stays. -/
def Sill.start (u : Sill) (b : SillBlock) (rest : List SillBlock) : Sill :=
  let g : SMap Word := SMap.set 0 (SMap.set 0 (SMap.set 0 [] 0 b.affinity) 1 (BitVec.ofNat 64 b.index)) 2 (BitVec.ofNat 64 b.split)
  { running := some b, pending := rest, g := g, limitLess := u.limitLess, liveLess := u.liveLess, left := u.left, tlb := u.tlb }

/-- SILL_BLOCK_START: the unit's oldest pending block starts when none runs. -/
def sillStarts (chan : Nat) (s : State) : State :=
  let u := s.sill chan
  match u.running, u.pending with
  | none, b :: rest => s.withSill chan fun u => u.start b rest
  | _, _ => s

/-- The command whose sub-waves a unit has still to run, decoded at its index. -/
def Sill.command (u : Sill) : Option Instr :=
  match u.running with
  | some b => (decodeSill (b.prog.getD u.idx 0)).toOption
  | none => none

/-- Run an action for a unit whatever comes of it. -/
def State.onUnit (s : State) (chan : Nat) (act : SAct Unit) : State :=
  match runSill act { s with cur := none, curUnit := some chan } with
  | .next t => t
  | _ => s

/-- SILL_SUBWAVE: a command that is under way acts on its next banks. -/
def sillWaves (chan : Nat) (s : State) : State :=
  let u := s.sill chan
  if u.wave = 0 then s
  else
    match u.command with
    | some (.slMac f) => s.onUnit chan (slMac f)
    | some (.slAct f) => s.onUnit chan (slAct f)
    | _ => s

/-- SILL_STALL: a block that waits in sl.send, sl.recv or sl.halt while its team is resident has
waited 2^22 cycles. -/
def sillStalls (chan : Nat) (s : State) : State :=
  let u := s.sill chan
  match u.running with
  | some b => if u.waiting && decide ((s.team b.team).place = .resident) && !b.stop && (SMap.find s.teams b.team).isSome then s.endBlock chan (some 8) else s
  | none => s

/-- BANKLIM: a write of LIMIT outside 1..16 leaves it as it is. -/
def limits (chan limit : Nat) (s : State) : State :=
  if 1 ≤ limit && limit ≤ 16 && chan < 512 then s.withSill chan fun u => { u with limitLess := 16 - limit } else s

/-- Two ranges of a channel that retirements have filled meet. -/
def Moved.meets (m n : Moved) : Bool := m.chan == n.chan && Machine.meets m.base m.size n.base n.size

/-- LAYOUT_CHANGE: while no block is on the unit, nor on its way there from a launch that has begun, a bank leaves service, where the target is the
channel itself, or the channel's contents move to frames of another; its layout id gains one
(R327, R334). -/
def layoutChanges (chan : Nat) (m : Moved) (s : State) : State :=
  let u := s.sill chan
  let c := s.channel chan
  let coming := s.grids.any fun g => g.2.rest.any fun x => x.1 == chan
  if u.running.isSome || !u.pending.isEmpty || coming || 512 ≤ chan || 512 ≤ m.chan || 0xFFFFFFFE ≤ s.layoutId chan then s
  else
    let more (c : Channel) : Channel := { c with layoutMore := c.layoutMore + 1 }
    if m.chan = chan then
      if 15 ≤ u.liveLess then s
      else
        ({ s with channels := SMap.upd {} s.channels chan more } : State).withSill chan fun u => { u with liveLess := u.liveLess + 1 }
    else
      let fits := decide (m.start + m.size ≤ 2 ^ 30) && decide (m.base + m.size ≤ 2 ^ 30) && m.start % 4096 == 0 &&
        m.base % 4096 == 0 && m.size % 4096 == 0
      if !fits || c.moved.isSome || (s.channel m.chan).moved.isSome || (s.channels.any fun x => x.2.moved.any m.meets) then s
      else { s with channels := SMap.upd {} s.channels chan fun c => { more c with moved := some m } }

/-- SILL_BLOCK_START (R307). -/
def execSillBlockStart (chan : Nat) (s : State) : Host.Outcome State Fault Refusal := runEvent (sillStarts chan) s
/-- SILL_SUBWAVE (R312). -/
def execSillSubwave (chan : Nat) (s : State) : Host.Outcome State Fault Refusal := runEvent (sillWaves chan) s
/-- SILL_STALL (R323). -/
def execSillStall (chan : Nat) (s : State) : Host.Outcome State Fault Refusal := runEvent (sillStalls chan) s
/-- BANKLIM (R311). -/
def execBanklim (chan limit : Nat) (s : State) : Host.Outcome State Fault Refusal := runEvent (limits chan limit) s
/-- LAYOUT_CHANGE (R327). -/
def execLayoutChange (chan target start base size : Nat) (s : State) : Host.Outcome State Fault Refusal :=
  runEvent (layoutChanges chan ⟨target, start, base, size⟩) s

end Sys2Proof.Machine
end

