-- ==== Sys2Proof/Machine/Dispatching.lean ====
section
/-! DEFINITION. Hearth's decisions: ranges of team indices and the distributors, the power budget, the
binding policy, and pre-emption (R283 to R288). -/

namespace Sys2Proof.Machine

/-! ## Ranges -/

/-- How many indices a range list has. -/
def rangeSize (r : Ranges) : Nat := r.foldl (fun n p => n + p.2) 0
/-- Its first `n` indices. -/
def rangeTake : Ranges → Nat → Ranges
  | [], _ => []
  | (f, c) :: rest, n => if n = 0 then [] else if c ≤ n then (f, c) :: rangeTake rest (n - c) else [(f, n)]
/-- The indices behind them. -/
def rangeDrop : Ranges → Nat → Ranges
  | [], _ => []
  | (f, c) :: rest, n => if c ≤ n then rangeDrop rest (n - c) else (f + n, c - n) :: rest
/-- Put a range back in its place. -/
def rangeBack : Ranges → Nat × Nat → Ranges
  | [], p => [p]
  | q :: rest, p => if p.1 < q.1 then p :: q :: rest else q :: rangeBack rest p

/-- Insert by a key, behind equal ones. -/
def insertKey {α : Type} (k : α → Nat) (x : α) : List α → List α
  | [] => [x]
  | y :: ys => if k x < k y then x :: y :: ys else y :: insertKey k x ys
/-- Sort by a key, keeping the order of equal ones. -/
def sortKey {α : Type} (k : α → Nat) (xs : List α) : List α := xs.foldl (fun ys x => insertKey k x ys) []

/-! ## Distributors (R284) -/

/-- Give one each to the lowest children that have cores. -/
def giveRest : Nat → List (Nat × Nat) → List Nat
  | _, [] => []
  | n, (b, w) :: rest => if n = 0 || w = 0 then b :: giveRest n rest else (b + 1) :: giveRest (n - 1) rest
/-- Split a number among children in proportion to their cores. -/
def sharesBy (n : Nat) (ws : List Nat) : List Nat :=
  let total := ws.foldl (· + ·) 0
  let base := ws.map fun w => n * w / total
  giveRest (n - base.foldl (· + ·) 0) (base.zip ws)
/-- Hand ranges down to children, lower indices to lower-numbered ones. -/
def dealRanges : Ranges → List (Nat × Nat) → List (Nat × Ranges)
  | _, [] => []
  | r, (child, n) :: rest => (child, rangeTake r n) :: dealRanges (rangeDrop r n) rest

/-- Cores of a mask in a cluster. -/
def coresIn (m : BitVec 160) (cluster : Nat) : Nat := ((coresOf cluster).filter fun c => m.getLsbD c).length
/-- Clusters of a die. -/
def clustersOf (die : Nat) : List Nat := (List.range 10).map (10 * die + ·)
/-- Cores of a mask in a die. -/
def coresInDie (m : BitVec 160) (die : Nat) : Nat := (clustersOf die).foldl (fun n c => n + coresIn m c) 0
/-- A die's ranges by cluster. -/
def dealDie (m : BitVec 160) (die : Nat) (r : Ranges) : List (Nat × Ranges) :=
  dealRanges r ((clustersOf die).zip (sharesBy (rangeSize r) ((clustersOf die).map (coresIn m))))
/-- Set clusters' ranges. -/
def setRanges (m : SMap Ranges) (rs : List (Nat × Ranges)) : SMap Ranges :=
  rs.foldl (fun m r => SMap.set [] m r.1 r.2) m
/-- A record's range passed down the three levels. -/
def passDown (m : BitVec 160) (r : Ranges) : SMap Ranges :=
  let dies := dealRanges r ([0, 1].zip (sharesBy (rangeSize r) [coresInDie m 0, coresInDie m 1]))
  dies.foldl (fun rs d => setRanges rs (dealDie m d.1 d.2)) []

/-- The first of a list with the greatest value. -/
def firstMost (f : Nat → Nat) (xs : List Nat) : Option Nat :=
  xs.foldl (fun b x => match b with
    | none => some x
    | some y => if f y < f x then some x else b) none

/-- Take the last `n` indices off clusters, the highest first: what stays, and what was taken. -/
def takeUpper (rs : SMap Ranges) (clusters : List Nat) (n : Nat) : List (Nat × Ranges) × Ranges :=
  let all := clusters.map fun c => (c, SMap.val rs [] c)
  let keep := (all.foldl (fun k c => k + rangeSize c.2) 0) - n
  let cut := all.foldl (fun (x : Nat × List (Nat × Ranges) × Ranges) c =>
    let k := min x.1 (rangeSize c.2)
    (x.1 - k, x.2.1 ++ [(c.1, rangeTake c.2 k)], x.2.2 ++ rangeDrop c.2 k)) (keep, [], [])
  (cut.2.1, cut.2.2)

/-- A cluster's distributor that is empty takes the upper half of the sibling with the most teams
left; a die's does so when the whole die is empty (R284). -/
def Bind.refill (b : Bind) (cluster : Nat) : SMap Ranges :=
  let left (c : Nat) : Nat := rangeSize (SMap.val b.ranges [] c)
  let die := cluster / 10
  if left cluster != 0 then b.ranges
  else if (clustersOf die).any fun c => left c != 0 then
    match firstMost left ((clustersOf die).filter (· != cluster)) with
    | some v =>
      let x := takeUpper b.ranges [v] (left v / 2)
      setRanges (setRanges b.ranges x.1) [(cluster, x.2)]
    | none => b.ranges
  else
    let other := clustersOf (1 - die)
    let x := takeUpper b.ranges other ((other.foldl (fun n c => n + left c) 0) / 2)
    setRanges (setRanges b.ranges x.1) (dealDie b.cmask die x.2)

/-- Hearth runs and dispatches: the device is in Run, its firmware is good, and no checkpoint or
restore is under way (R384, R387, R390). -/
def State.dispatching (s : State) : Bool :=
  decide (s.hearth.power = .run) && !s.hearth.bootFailed && s.hearth.cellar != 1 && s.hearth.cellar != 2

/-- DISTRIBUTOR_TEAM_START: a cluster's distributor starts its next team on a core of the record. -/
def teamStarts (record core : Nat) (s : State) : State :=
  match SMap.find s.hearth.binds record with
  | none => s
  | some b =>
    let rs := b.refill (clusterOf core)
    match SMap.val rs [] (clusterOf core) with
    | [] => s
    | (ix, n) :: rest =>
      let l : LaunchId := ⟨b.region, b.entrant⟩
      let g := s.region b.region
      let ok := s.dispatching && b.state == 1 && b.cmask.getLsbD core && g.live &&
        s.fits core l (max 32 g.desc.lanes * g.desc.vregs) g.desc.accrows 1 true
      if ok then
        let rs1 := SMap.set [] rs (clusterOf core) (rangeDrop ((ix, n) :: rest) 1)
        let s1 := s.withHearth fun h => { h with binds := SMap.alter h.binds record fun b => { b with ranges := rs1 } }
        (s1.startTeam core l (some record) ix).getD s
      else s

/-! ## Power (R286, R386) -/

/-- E, watts a core, of an energy class. -/
def coreWatts (energy : Nat) : Nat := [4, 5, 6, 8, 10, 12, 14, 16].getD energy 16
/-- P of a bind, in quarters of a watt. -/
def bindPower (g : Region) (n dp : Nat) : Nat := n * coreWatts g.energy * dp
/-- ΣP of the valid records, in quarters of a watt. -/
def State.validPower (s : State) : Nat :=
  s.hearth.binds.foldl (fun n b =>
    if b.2.state = 1 then n + bindPower (s.region b.2.region) (maskCores b.2.cmask).length b.2.dp else n) 0
/-- CAP in watts, as it is in force. -/
def Hearth.cap (h : Hearth) : Nat := 2600 - h.capLess
/-- A bind fits the remaining budget. -/
def State.affords (s : State) (p : Nat) : Bool := s.validPower + s.hearth.k + p ≤ 4 * s.hearth.cap

/-- Halve LIMIT in every unit, down to 4. -/
def State.halveLimits (s : State) : State :=
  (List.range 512).foldl (fun s c =>
    let l := 16 - (s.sill c).limitLess
    if 4 < l then s.withSill c fun u => { u with limitLess := 16 - max 4 (l / 2) } else s) s
/-- Some unit's LIMIT is above 4. -/
def State.limitsHigh (s : State) : Bool := (List.range 512).any fun c => decide (4 < 16 - (s.sill c).limitLess)

/-- One step of giving way: Sill limits, then the copy rate, then matrix passes (R386). -/
def State.giveStep (s : State) : State :=
  if s.limitsHigh then
    let before : SMap Nat := s.sills.foldl (fun m u => SMap.set 0 m u.1 u.2.limitLess) []
    s.halveLimits.withHearth fun h => { h with limits := before :: h.limits, steps := h.steps + 1 }
  else if s.hearth.copyShift < 3 then s.withHearth fun h => { h with copyShift := h.copyShift + 1, steps := h.steps + 1 }
  else if !s.hearth.matrixStall then s.withHearth fun h => { h with matrixStall := true, steps := h.steps + 1 }
  else s

/-- The last step is undone. -/
def State.undoStep (s : State) : State :=
  if s.hearth.matrixStall then s.withHearth fun h => { h with matrixStall := false, steps := h.steps - 1 }
  else if 0 < s.hearth.copyShift then s.withHearth fun h => { h with copyShift := h.copyShift - 1, steps := h.steps - 1 }
  else
    match s.hearth.limits with
    | [] => s
    | m :: rest =>
      let s1 := (List.range 512).foldl (fun s c => s.withSill c fun u => { u with limitLess := SMap.val m 0 c }) s
      s1.withHearth fun h => { h with limits := rest, steps := h.steps - 1 }

/-- HEARTH_TIMER: the telemetry is read, CAP comes into force, K is set anew, and a step of giving way
is taken or undone. -/
def timerFires (watts east west : Nat) (s : State) : State :=
  if s.hearth.bootFailed then s
  else
    let s1 := s.withHearth fun h =>
      { h with
        firings := h.firings + 1, measured := watts, east := east, west := west, capLess := h.capNext
        k := 4 * watts - s.validPower }
    if s1.hearth.cap < watts then
      let s2 := s1.withHearth fun h => { h with aboveCap := h.aboveCap + 1 }
      if 2 ≤ s2.hearth.aboveCap then s2.giveStep else s2
    else
      let s2 := s1.withHearth fun h => { h with aboveCap := 0 }
      if watts < s2.hearth.cap - 100 then s2.undoStep else s2

/-! ## Candidates (R285, R288, R289) -/

/-- Cores free for a bind, ascending. -/
def State.freeCores (s : State) : List Nat :=
  (List.range 160).filter fun c =>
    !(s.hearth.binds.any fun b => b.2.cmask.getLsbD c) && (s.seated c).isEmpty &&
      !(s.hearth.ctxs.any fun x => x.2.state == .restoring && x.2.dest == c)

/-- Teams of a launch that fit together on an empty core: the greatest number up to 16. -/
def teamsPerCore (d : Desc) : Nat :=
  ((List.range 16).map (· + 1)).foldl (fun b k =>
    if k * (d.lanes * d.vregs) ≤ 524288 && k * d.accrows ≤ 3072 && d.scratch ≤ 786432 then k else b) 0

/-- What a record would bind of a launch: the contexts with their cores, the cores for its unstarted
teams, and how many indices. -/
structure BindPlan where
  entrant : Nat
  ctxs : List (Nat × Nat)
  cores : List Nat
  take : Nat
  deriving DecidableEq, Repr

/-- Cores a plan takes. -/
def BindPlan.all (p : BindPlan) : List Nat := p.ctxs.map (·.2) ++ p.cores

/-- A saved context with the core that it takes. -/
structure Seat where
  ctx : Nat
  launch : LaunchId
  core : Nat
  deriving DecidableEq, Repr

/-- Each saved context, oldest first, takes the lowest free core of its cluster, while its launch may hold one
more core (R288): the seats, and the free cores left over. -/
def seatContexts (room : LaunchId → Nat) (cs : List (Nat × Ctx)) (free : List Nat) : List Seat × List Nat :=
  cs.foldl (fun (x : List Seat × List Nat) c =>
    if room c.2.launch ≤ (x.1.filter fun y => decide (y.launch = c.2.launch)).length then x
    else
      match x.2.find? fun k => clusterOf k == clusterOf c.2.core with
      | some k => (x.1 ++ [⟨c.1, c.2.launch, k⟩], x.2.erase k)
      | none => x) ([], free)

/-- The seats of a region's saved contexts, and the free cores that they leave (R288). -/
def State.seatsOf (s : State) (r : Nat) (free : List Nat) : List Seat × List Nat :=
  seatContexts s.bindable
    (sortKey (fun c => c.2.order) (s.hearth.ctxs.filter fun c => c.2.launch.region == r && decide (c.2.state = .saved))) free

/-- Indices of a launch that are bound and not started. -/
def State.waiting (s : State) (l : LaunchId) : Nat :=
  s.hearth.binds.foldl (fun n b =>
    if b.2.region = l.region && b.2.entrant = l.entrant then b.2.ranges.foldl (fun n r => n + rangeSize r.2) n else n) 0

/-- Cores bound to a launch where it has no allocation yet. -/
def State.bareCores (s : State) (l : LaunchId) : Nat :=
  s.hearth.binds.foldl (fun n b =>
    if b.2.region = l.region && b.2.entrant = l.entrant then
      n + ((maskCores b.2.cmask).filter fun c => !((s.core c).allocs.any fun a => decide (a.launch = l))).length
    else n) 0

/-- The plan for a launch over the seats of its region's contexts and the cores left over; none where it can
fill none (R285, R288, R289). -/
def State.planLaunch (s : State) (l : LaunchId) (seated : List Seat × List Nat) : Option BindPlan :=
  let g := s.region l.region
  let x := g.launch l.entrant
  let d := g.desc
  let amounts := s.unclaimed l
  let cores := s.bindable l
  let seats := (seated.1.filter fun y => decide (y.launch = l)).map fun y => (y.ctx, y.core)
  let k := teamsPerCore d
  let rows := amounts.rows - s.waiting l * d.accrows
  let scratch := amounts.scratch - s.bareCores l * d.scratch
  let first := ((x.left.head?).map (·.2)).getD 0
  let teams := if d.accrows = 0 then first else min first (rows / d.accrows)
  let bySpace := if d.scratch = 0 then 160 else scratch / d.scratch
  let n := min (min seated.2.length (cores - seats.length)) (min ((teams + k - 1) / max 1 k) bySpace)
  if x.state = .killed || (seats.isEmpty && n = 0) then none
  else some ⟨l.entrant, seats, seated.2.take n, min teams (n * k)⟩

/-- The plan for a region: that of the launch whose saved context is the oldest that takes a core; with none,
that of its lowest launch that has one (R288). -/
def State.plan (s : State) (r : Nat) (free : List Nat) : Option BindPlan :=
  let seated := s.seatsOf r free
  match seated.1.head? with
  | some y => s.planLaunch y.launch seated
  | none => (List.range (s.region r).launches.length).findSome? fun e => s.planLaunch ⟨r, e⟩ seated

/-- A saved context of the region waits for a core of its cluster, and one is free (R288). -/
def State.returns_ (s : State) (r : Nat) (free : List Nat) : Bool :=
  s.hearth.ctxs.any fun c => c.2.launch.region == r && decide (c.2.state = .saved) &&
    free.any fun k => clusterOf k == clusterOf c.2.core

/-- The regions that are READY with teams unbound and cores unclaimed. -/
def State.candidates (s : State) : List Nat :=
  (s.regions.filter fun g => decide (g.2.state = .ready) &&
    (List.range g.2.launches.length).any fun e => s.unbound ⟨g.1, e⟩ && 0 < s.bindable ⟨g.1, e⟩).map (·.1)

/-! ## The choice (R285) -/

/-- The first of a list that none behind it beats. -/
def bestOf (beats : Nat → Nat → Bool) (xs : List Nat) : Option Nat :=
  xs.foldl (fun b x => match b with
    | none => some x
    | some y => if beats x y then some x else b) none

/-- Through the aging set: greatest passed count, least class, earliest READY. -/
def State.agedBefore (s : State) (a b : Nat) : Bool :=
  let x := s.region a
  let y := s.region b
  decide (y.passed < x.passed) || (x.passed == y.passed &&
    (decide (x.effClass < y.effClass) || (x.effClass == y.effClass && decide (x.order < y.order))))
/-- Within a class: greatest credit + w, earliest READY, lowest RCB address. -/
def State.creditBefore (s : State) (a b : Nat) : Bool :=
  let x := s.region a
  let y := s.region b
  let cx := x.credit + x.cores
  let cy := y.credit + y.cores
  decide (cy < cx) || (cx == cy &&
    (decide (x.order < y.order) || (x.order == y.order && decide (x.rcb.toNat < y.rcb.toNat))))

/-- A region stands in the aging set. -/
def State.isAged (s : State) (r : Nat) : Bool := 64 ≤ (s.region r).passed

/-- The region that R285 takes of some candidates: through the aging set, else of the least class. -/
def State.usualChoice (s : State) (c : List Nat) : Option Nat :=
  match bestOf s.agedBefore (c.filter s.isAged) with
  | some r => some r
  | none =>
    let least := c.foldl (fun n r => min n (s.region r).effClass) 8
    bestOf s.creditBefore (c.filter fun r => (s.region r).effClass == least)

/-- The region to try next, and whether R288 puts it ahead: one with a waiting context goes ahead of every
candidate of an equal or a greater class number, and behind those of a lesser. -/
def State.choose (s : State) (c free : List Nat) : Option (Nat × Bool) :=
  let cls (r : Nat) : Nat := (s.region r).effClass
  match bestOf (fun a b => decide (cls a < cls b)) (c.filter fun r => s.returns_ r free) with
  | none => (s.usualChoice c).map (·, false)
  | some b =>
    match s.usualChoice (c.filter fun r => decide (cls r < cls b)) with
    | some r => some (r, false)
    | none => some (b, true)

/-- The datapath counts that a bind of a region may take, greatest first: only 4 in classes 0 to 3 outside the
aging set (R285). -/
def State.dpTries (s : State) (r : Nat) : List Nat :=
  if (s.region r).effClass < 4 && !s.isAged r then [4] else [4, 3, 2, 1]

/-- The greatest datapath count whose power fits. -/
def State.datapaths (s : State) (r n : Nat) : Option Nat :=
  (s.dpTries r).find? fun dp => s.affords (bindPower (s.region r) n dp)

/-- A plan, and behind it what is left where its power does not fit: its contexts alone, fewer and fewer
(R288). -/
def BindPlan.parts (p : BindPlan) : List BindPlan :=
  p :: (List.range p.ctxs.length).reverse.map fun n => { p with ctxs := p.ctxs.take (n + 1), cores := [], take := 0 }

/-- What can be bound of a region now, with its datapath count. -/
def State.affordable (s : State) (r : Nat) (free : List Nat) : Option (BindPlan × Nat) :=
  (s.plan r free).bind fun p => p.parts.findSome? fun q => (s.datapaths r q.all.length).map (q, ·)

/-- The credits and passed counts after a bind, over the candidates left (R285). -/
def State.settleCredits (s : State) (c : List Nat) (r : Nat) (aged : Bool) : State :=
  let cls := (s.region r).effClass
  let same := c.filter fun q => (s.region q).effClass == cls
  let total := same.foldl (fun n q => n + (s.region q).cores) 0
  let s1 := if aged then s
    else
      let s0 := same.foldl (fun s q => s.withRegion q fun g => { g with credit := g.credit + g.cores }) s
      s0.withRegion r fun g => { g with credit := g.credit - total }
  let s2 := s1.withRegion r fun g => { g with passed := 0 }
  (c.filter (· != r)).foldl (fun s q => s.withRegion q fun g => { g with passed := g.passed + 1 }) s2

/-- The mask of a list of cores. -/
def coreMask (cs : List Nat) : BitVec 160 := cs.foldl (fun m c => m ||| BitVec.twoPow 160 c) 0

/-- Write a bind record in a free slot of the table (R283): its contexts are restored, its indices
passed down (R284, R288). -/
def State.writeBind (s : State) (slot r : Nat) (p : BindPlan) (dp : Nat) : State :=
  let l : LaunchId := ⟨r, p.entrant⟩
  let g := s.region r
  let x := g.launch p.entrant
  let mine := rangeTake x.left p.take
  let b : Bind :=
    { region := r, entrant := p.entrant, rcb := g.rcb, first := ((mine.head?).map (·.1)).getD 0, count := rangeSize mine
      cmask := coreMask p.all, dp := dp, seq := s.hearth.seq + 1, ranges := passDown (coreMask p.all) mine }
  let s1 := s.withLaunch l fun x => { x with left := rangeDrop x.left p.take }
  let s2 := s1.withHearth fun h =>
    { h with
      binds := SMap.put h.binds slot b, seq := h.seq + 1
      ctxs := p.ctxs.foldl (fun m c => SMap.alter m c.1 fun x => { x with state := .restoring, dest := c.2 }) h.ctxs }
  let s3 : State := { s2 with teams := s2.teams.map fun (t : Nat × Team) =>
    (t.1, if decide (t.2.place = Place.saved) && p.ctxs.any (fun c => c.1 == t.2.ctx) then { t.2 with bind := some slot } else t.2) }
  (p.all.foldl (fun (s : State) c => s.bindSpace c g.asid) s3).settleReady r

/-- The lowest free slot of the table. -/
def State.bindSlot (s : State) : Option Nat :=
  (List.range 512).find? fun k => (SMap.find s.hearth.binds k).isNone

/-- decide() of R285, over the candidates left. -/
def State.decideOver (s : State) : Nat → List Nat → State
  | 0, _ => s
  | fuel + 1, c =>
    let free := s.freeCores
    match s.choose c free with
    | none => s
    | some (r, ahead) =>
      let bound : Option State := do
        let (p, dp) ← s.affordable r free
        let slot ← s.bindSlot
        return (s.settleCredits c r (ahead || s.isAged r)).writeBind slot r p dp
      match bound with
      | some t => t
      | none => s.decideOver fuel (c.filter (· != r))

/-! ## Pre-emption (R287, R359) -/

/-- Dispatch of a record stops: what it has not started is unbound again, and its contexts drain; one that is
being restored drains once it is (RESTORE_COMPLETE). -/
def State.preempt (s : State) (k : Nat) : State :=
  match SMap.find s.hearth.binds k with
  | none => s
  | some b =>
    let l : LaunchId := ⟨b.region, b.entrant⟩
    let back := b.ranges.flatMap (·.2)
    let s1 := s.withLaunch l fun x => { x with left := back.foldl rangeBack x.left }
    let s2 := s1.withHearth fun h =>
      { h with
        binds := SMap.put h.binds k { b with ranges := [], state := 2 }
        ctxs := h.ctxs.map fun (c : Nat × Ctx) =>
          (c.1, if decide (c.2.launch = l) && b.cmask.getLsbD c.2.core && decide (c.2.state = .run) then { c.2 with state := .drain } else c.2) }
    (s2.retireBind k).settleReady b.region

/-- Records that a class-0 bind may pre-empt, in their order (R287): not one with a parked team
(R293). -/
def State.victims (s : State) : List Nat :=
  let ok := s.hearth.binds.filter fun b => b.2.state == 1 && 4 ≤ (s.region b.2.region).effClass &&
    !(s.teams.any fun t => t.2.bind == some b.1 && t.2.parked)
  (sortKey (fun b => (7 - (s.region b.2.region).effClass) * 2 ^ 64 + (2 ^ 64 - b.2.seq)) ok).map (·.1)

/-- Were these records gone, and those already retiring, the region could be bound. -/
def State.fitsWithout (s : State) (r : Nat) (gone : List Nat) : Bool :=
  let out := s.hearth.binds.filter fun b => b.2.state == 2 || gone.contains b.1
  let freed := out.flatMap fun b => maskCores b.2.cmask
  let free := (List.range 160).filter fun c => s.freeCores.contains c || freed.contains c
  let spent := (s.hearth.binds.filter fun b => b.2.state == 1 && gone.contains b.1).foldl (fun n b =>
    n + bindPower (s.region b.2.region) (maskCores b.2.cmask).length b.2.dp) 0
  match s.plan r free with
  | some p => p.parts.any fun q => (s.dpTries r).any fun dp =>
      s.validPower - spent + s.hearth.k + bindPower (s.region r) q.all.length dp ≤ 4 * s.hearth.cap
  | none => false

/-- The fewest victims, in order, without which the region could be bound; none where all would not
do. -/
def State.pickVictims (s : State) (r : Nat) : List Nat :=
  let v := s.victims
  match (List.range (v.length + 1)).find? fun n => s.fitsWithout r (v.take n) with
  | some n => v.take n
  | none => []

/-- A class-0 candidate that cannot be bound now. -/
def State.stuckUrgent (s : State) : Option Nat :=
  let free := s.freeCores
  s.candidates.find? fun r => (s.region r).effClass == 0 && (s.affordable r free).isNone

/-- HEARTH_DECISION: one record is written, or records give way to class 0 (R285, R287). -/
def hearthDecides (s : State) : State :=
  if !s.dispatching then s
  else
    match s.stuckUrgent with
    | some r =>
      match s.pickVictims r with
      | [] => s.decideOver s.candidates.length s.candidates
      | vs => vs.foldl State.preempt s
    | none => s.decideOver s.candidates.length s.candidates

/-- HEARTH_DECISION (R285). -/
def execHearthDecision (s : State) : Host.Outcome State Fault Refusal := runEvent hearthDecides s
/-- DISTRIBUTOR_TEAM_START (R284). -/
def execDistributorTeamStart (record core : Nat) (s : State) : Host.Outcome State Fault Refusal := runEvent (teamStarts record core) s
/-- HEARTH_TIMER (R286). -/
def execHearthTimer (watts east west : Nat) (s : State) : Host.Outcome State Fault Refusal := runEvent (timerFires watts east west) s

end Sys2Proof.Machine
end

