-- ==== Sys2Proof/Machine/Contexts.lean ====
section
/-! DEFINITION. Saving and restoring contexts (R359 to R364, R373). -/

namespace Sys2Proof.Machine

/-! ## Reaching safe points (R359, R360) -/

/-- The resident teams of a context. -/
def State.residents (s : State) (c : Nat) : List Nat :=
  (s.teams.filter fun t => t.2.ctx == c && decide (t.2.place = .resident)).map (·.1)

/-- A team that waits at a header looks at it again: one that is SAFE saves it now. -/
def Team.relook (t : Team) : Team :=
  if t.clause.isNone && t.delivery.isNone && t.block.any (·.rids.isEmpty) then { t with block := none } else t

/-- DRAIN_WINDOW: the drain window passes, and teams that stand at a safe point are saved. -/
def drainPasses (c : Nat) (s : State) : State :=
  match SMap.find s.hearth.ctxs c with
  | some x =>
    if x.state = .drain then
      let s1 := s.withHearth fun h => { h with ctxs := SMap.alter h.ctxs c fun x => { x with state := .seek, late := false } }
      let s2 := (s1.residents c).foldl (fun (s : State) i => (s.seekSave i).withTeam i Team.relook) s1
      s2.settleCtx c
    else s
  | none => s

/-- SEEK_DEADLINE: 2,700 cycles have passed in SEEK; a team not yet saved is saved at its next clause
boundary, or where it stands (R359). -/
def seekEnds (c : Nat) (s : State) : State :=
  match SMap.find s.hearth.ctxs c with
  | some x =>
    if x.state = .seek then
      let s1 := s.withHearth fun h => { h with ctxs := SMap.alter h.ctxs c fun x => { x with late := true } }
      (s1.residents c).foldl (fun (s : State) i => (s.seekSave i).withTeam i Team.relook) s1
    else s
  | none => s

/-! ## The save record (R27, R361)

Save areas lie outside every address space, so no access reads one: what they hold stands in the saved teams
(log 25). These are its parts as the spec lays them out. -/

/-- KIND of an entry of the reconvergence stack (R25). -/
def EntryKind.code : EntryKind → Nat
  | .pending => 0 | .merge => 1 | .park => 2

/-- A mask in 132 bytes: the summary word, then its 32 words (R361). -/
def maskBytes (m : Mask) : List Byte :=
  leBytes 4 (summary m).toNat ++ (List.range 32).flatMap fun w => leBytes 4 (maskWord m w).toNat

/-- An entry of the stack in 144 bytes (R27). -/
def StackEntry.bytes (e : StackEntry) : List Byte :=
  leBytes 8 (e.kind.code * 2 ^ 62 + e.pc.toNat % 2 ^ 57) ++ maskBytes e.mask ++ zeros 4

/-- The stack as a save or a handler's reading of it lays it out, from the bottom upward (R27). -/
def Team.stackBytes (t : Team) : List Byte := t.stack.reverse.flatMap StackEntry.bytes
/-- The masks: EXM, then K0..K15 (R361). -/
def Team.maskBytes (t : Team) : List Byte :=
  Machine.maskBytes t.exm ++ (List.range 16).flatMap fun n => Machine.maskBytes (t.getK n)
/-- The deliveries not yet written, in order (R358, R361). -/
def Team.pendingBytes (t : Team) : List Byte :=
  (((t.delivery.map (·.recs)).getD []) ++ t.headerRecs).flatMap Rec.bytes

/-- How many registers of a part of the live mask a save keeps. -/
def Team.liveIn (t : Team) (first n : Nat) : Nat := ((List.range n).filter fun i => t.saveLive.getLsbD (first + i)).length

/-- The sizes in bytes of the parts of a saved team's record, in order: header, CSRs, stack, masks, scalars,
queues, vectors, pending records, side log (R361). -/
def State.recordSizes (s : State) (i : Nat) : List Nat :=
  let t := s.team i
  [512, 96, t.stackBytes.length, t.maskBytes.length, 8 * min t.desc.sregs (t.liveIn 128 64), 16 * 16,
    4 * t.lanes * min t.desc.vregs (t.liveIn 0 128), t.pendingBytes.length,
    32 * ((s.core (saveArea t.core t.ctx)).log.filter fun e => e.ctx == t.ctx).length]

/-! ## Saving (R361) -/

/-- Records of a launch that no team is left to keep are retired (R283). -/
def State.retireBinds (s : State) (l : LaunchId) : State :=
  s.hearth.binds.foldl (fun s b => if b.2.region = l.region && b.2.entrant = l.entrant then s.retireBind b.1 else s) s

/-- Move what a core holds of a context to another place: teams, rings, copies, allocation and
collectives that form, with the teams of the launch that have ended there, which those count (R200). -/
def State.carry (s : State) (c : Nat) (l : LaunchId) (a b : Nat) : State :=
  let al := (s.core a).allocs.filter fun x => decide (x.launch = l)
  let co := (s.core a).colls.filter fun x => decide (x.launch = l)
  let s1 := s.withCore a fun k =>
    { k with allocs := k.allocs.filter fun x => decide (x.launch ≠ l), colls := k.colls.filter fun x => decide (x.launch ≠ l) }
  let s2 := s1.withCore b fun k => { k with allocs := k.allocs ++ al, colls := k.colls ++ co }
  { s2 with
    teams := s2.teams.map fun t =>
      (t.1, if t.2.core == a && decide (t.2.launch = l) && (t.2.ctx == c || decide (t.2.place = .ended)) then { t.2 with core := b }
        else t.2)
    rings := s2.rings.map fun r => (r.1, if r.2.core == a && decide (r.2.launch = l) then { r.2 with core := b } else r.2)
    copies := s2.copies.map fun r => (r.1, if r.2.core == a && decide (r.2.launch = l) then { r.2 with core := b } else r.2) }

/-- Side-log entries of a context leave a core's log for its save area (R364). -/
def State.storeLog (s : State) (core area c : Nat) : State :=
  let es := (s.core core).log.filter fun e => e.ctx == c
  if es.isEmpty then s
  else
    (s.withCore core fun k => { k with log := k.log.filter fun e => e.ctx != c }).withCore area fun k => { k with log := k.log ++ es }

/-- SAVE_COMPLETE: the context's state is written, and its core is free of it. -/
def saveDone (c : Nat) (s : State) : State :=
  match SMap.find s.hearth.ctxs c with
  | some x =>
    if x.state = .saving then
      let area := saveArea x.core c
      let s1 := (s.carry c x.launch x.core area).storeLog x.core area c
      let s2 : State := { s1 with teams := s1.teams.map fun (t : Nat × Team) =>
        (t.1, if t.2.ctx == c && decide (t.2.place ≠ .ended) then { t.2 with bind := none } else t.2) }
      let s3 := s2.withHearth fun h =>
        { h with ctxs := SMap.alter h.ctxs c fun x => { x with state := .saved, core := area, order := s.serial } }
      (({ s3 with serial := s.serial + 1 } : State).retireBinds x.launch).settleReady x.launch.region
    else s
  | none => s

/-! ## Resuming (R52, R363, R364) -/

/-- A mask of free values. -/
def freeMask (n : Nat) : Mask :=
  (List.range 16).foldl (fun m i => m ||| ((Config.freeWord (n + i)).setWidth 1024 <<< (64 * i))) 0

/-- Registers outside the live mask hold free values, unpoisoned, after the resume (R52, R357;
log 9): V0..V127, S0..S63, K0..K15, A0..A15 and Q0..Q15 by the bits of the mask. `n` is the first
free value. -/
def Team.forgetDead (t : Team) (n : Nat) : Team :=
  let dead (i : Nat) : Bool := !t.saveLive.getLsbD i
  let t1 := ((List.range 128).filter fun r => dead r && r < t.desc.vregs).foldl (fun t r =>
    (List.range t.lanes).foldl (fun t l => t.setV l r ((Config.freeWord (n + vKey l r)).setWidth 32)) t) t
  let t2 := ((List.range 64).filter fun r => dead (128 + r)).foldl (fun t r => t.setS r (Config.freeWord (n + 131072 + r))) t1
  let t3 := ((List.range 16).filter fun r => dead (192 + r)).foldl (fun t r => t.setK r (freeMask (n + 131136 + 16 * r))) t2
  let t4 := ((List.range 16).filter fun r => dead (208 + r)).foldl (fun t r => t.setA r ((Config.freeWord (n + 131392 + r)).setWidth 8)) t3
  ((List.range 16).filter fun r => dead (224 + r)).foldl (fun t r =>
    if Config.freeWord (n + 131408 + r) = 0 then t else { t with q := SMap.del t.q r }) t4
/-- Free values that one resume may take. -/
def freeOfResume : Nat := 131424

/-- A team that comes back inside a clause waits for an issue slot before its next word, where it stood at no
blocking point: sys.dbg saved it between two words (R20, R373). -/
def Team.slotWait (t : Team) : Option Block := t.clause.map fun _ => { point := false, held := true }

/-- A team comes back to a core (R363): one that waits at a header or under a translation hold walks
and looks again, one at a blocking point waits on there. It reads no line that the core held before it
came (R374). -/
def State.resume (s : State) (i core : Nat) : State :=
  let slot := (s.freeSlot core).getD 0
  let s1 := s.withTeam i fun t =>
    let again (b : Block) : Option Block := if t.clause.isNone then none else some { b with rids := [] }
    let t1 := if t.fullSave then t else t.forgetDead s.free
    { t1 with
      place := .resident, core := core, slot := slot, debugStop := false, saveLive := BitVec.allOnes 240, fullSave := true
      block := (t.block.bind again).or t.slotWait }
  (({ s1 with free := s.free + freeOfResume } : State).unsee core i).mxGo i

/-- Side-log entries of teams return from a save area to a core's log, ahead of new ones; those whose
request has been answered replay at once (R364). -/
def State.returnLog (s : State) (area core : Nat) (mine : Nat → Bool) : State :=
  let back := (s.core area).log.filter fun e => mine e.team
  if back.isEmpty then s
  else
    let s1 := s.withCore area fun k => { k with log := k.log.filter fun e => !mine e.team }
    let s2 := s1.withCore core fun k => { k with log := back ++ k.log }
    let open_ (r : Nat) : Bool := s2.hearth.requests.any fun q => q.rid == r
    s2.replayLog core fun e => mine e.team && e.rid.any fun r => !open_ r

/-- A record of a launch that gives way holds a core (R287). -/
def State.retiringAt (s : State) (l : LaunchId) (core : Nat) : Bool :=
  s.hearth.binds.any fun b => b.2.state == 2 && b.2.region == l.region && b.2.entrant == l.entrant && b.2.cmask.getLsbD core

/-- Side-log entries that come back with a context: those of its teams that sys.dbg has not stopped, and of teams
that have ended. -/
def State.comesBack (s : State) (c : Nat) (e : SideEntry) : Bool := e.ctx == c && !(s.team e.team).debugStop

/-- RESTORE_COMPLETE: the context's state is read back to its new core, and its teams resume. The restore waits
while that core's side log has no room for the context's entries (R3, R364). It drains at once under a
checkpoint, and where its record has given way meanwhile (R287). -/
def restoreDone (c : Nat) (s : State) : State :=
  match SMap.find s.hearth.ctxs c with
  | some x =>
    let area := x.core
    let back := (s.core area).log.filter (s.comesBack c)
    if x.state = .restoring && decide ((s.core x.dest).log.length + back.length ≤ 256) then
      let mine := (s.teams.map (·.1)).filter fun i =>
        (s.team i).ctx == c && (s.team i).core == area && decide ((s.team i).place = .saved)
      let live := mine.filter fun i => !(s.team i).debugStop
      let s1 := s.carry c x.launch area x.dest
      let s2 := s1.withHearth fun h =>
        { h with ctxs := SMap.alter h.ctxs c fun y => { y with state := if h.cellar = 1 || s.retiringAt x.launch x.dest then .drain else .run, core := x.dest, late := false } }
      let s3 := live.foldl (fun (s : State) i => s.resume i x.dest) s2
      let s4 := s3.returnLog area x.dest fun i => !mine.contains i || live.contains i
      let stays := (s4.core area).log
      let s5 : State := { s4 with cores := SMap.del s4.cores area }
      if stays.isEmpty then s5 else s5.withCore (saveArea x.dest c) fun k => { k with log := k.log ++ stays }
    else s
  | none => s

/-- Teams of a context that sys.dbg saved (R373). -/
def State.stopped (s : State) (c : Nat) : List Nat :=
  (s.teams.filter fun t => t.2.ctx == c && t.2.debugStop && decide (t.2.place = .saved)).map (·.1)

/-- The teams of a context that hold a place in it fit a core together with one that sys.dbg has stopped, and so
do their side-log entries (R3, R8, R163, R347). -/
def State.joinsCtx (s : State) (i : Nat) : Bool :=
  let t := s.team i
  let on := s.teams.filter fun x => x.2.ctx == t.ctx && decide (x.2.place ≠ .ended) && (!x.2.debugStop || x.1 == i)
  let sum (f : Team → Nat) : Nat := on.foldl (fun n x => n + f x.2) 0
  let back (e : SideEntry) : Bool := s.comesBack t.ctx e || (e.ctx == t.ctx && e.team == i)
  let log (core : Nat) : Nat := ((s.core core).log.filter back).length
  let area := saveArea t.core t.ctx
  on.length ≤ 16 && sum Team.regWords ≤ 524288 && sum (·.accrows) ≤ 3072 &&
    log area + (if t.core = area then 0 else log t.core) ≤ 256

/-- Resume a team that sys.dbg saved: where its context is resident it takes a slot again; else it
comes back with its context. None where it does not fit now, or will not then. -/
def State.undebug (s : State) (i : Nat) : Option State :=
  let t := s.team i
  let area := saveArea t.core t.ctx
  if (s.ctxOf i).state = .run && t.core < 160 then
    if s.fits t.core t.launch t.regWords t.accrows 1 false &&
        decide ((s.core t.core).log.length + ((s.core area).log.filter fun e => e.team == i).length ≤ 256) then
      some ((s.resume i t.core).returnLog area t.core (· == i))
    else none
  else if !s.joinsCtx i then none
  else some (s.withTeam i fun t => { t with debugStop := false })

/-- DRAIN_WINDOW (R359). -/
def execDrainWindow (ctx : Nat) (s : State) : Host.Outcome State Fault Refusal := runEvent (drainPasses ctx) s
/-- SEEK_DEADLINE (R359). -/
def execSeekDeadline (ctx : Nat) (s : State) : Host.Outcome State Fault Refusal := runEvent (seekEnds ctx) s
/-- SAVE_COMPLETE (R359). -/
def execSaveComplete (ctx : Nat) (s : State) : Host.Outcome State Fault Refusal := runEvent (saveDone ctx) s
/-- RESTORE_COMPLETE (R363). -/
def execRestoreComplete (ctx : Nat) (s : State) : Host.Outcome State Fault Refusal := runEvent (restoreDone ctx) s

end Sys2Proof.Machine
end

