-- ==== Sys2Proof/Machine/Integer.lean ====
section
/-! DEFINITION. Integer arithmetic at a type's width, shared by the front unit, the lanes and the
cross-lane folds (R79 to R82, R100 to R113). Values are numbers below 2^w. -/

namespace Sys2Proof.Machine

/-- A number of `w` bits as a signed one. -/
def toSigned (w x : Nat) : Int := (BitVec.ofNat w x).toInt
/-- An integer cut to `w` bits. -/
def ofSigned (w : Nat) (x : Int) : Nat := (BitVec.ofInt w x).toNat
/-- A number of a type's width as the type reads it. -/
def readAs (ty : Ty) (x : Nat) : Int := if tySigned ty then toSigned (tyWidth ty) x else (x : Int)

/-- Sum modulo 2^w. -/
def iAdd (ty : Ty) (a b : Nat) : Nat := (a + b) % 2 ^ tyWidth ty
/-- Difference modulo 2^w. -/
def iSub (ty : Ty) (a b : Nat) : Nat := ofSigned (tyWidth ty) ((a : Int) - (b : Int))
/-- Product modulo 2^w. -/
def iMul (ty : Ty) (a b : Nat) : Nat := (a * b) % 2 ^ tyWidth ty
/-- Upper half of the exact product. -/
def iMulh (ty : Ty) (a b : Nat) : Nat :=
  ofSigned (tyWidth ty) ((readAs ty a * readAs ty b) / (2 ^ tyWidth ty : Int))
/-- Bitwise and. -/
def iAnd (_ : Ty) (a b : Nat) : Nat := Nat.land a b
/-- Bitwise or. -/
def iOr (_ : Ty) (a b : Nat) : Nat := Nat.lor a b
/-- Bitwise exclusive or. -/
def iXor (_ : Ty) (a b : Nat) : Nat := Nat.xor a b
/-- The lesser of two. -/
def iMin (ty : Ty) (a b : Nat) : Nat := if readAs ty b < readAs ty a then b else a
/-- The greater of two. -/
def iMax (ty : Ty) (a b : Nat) : Nat := if readAs ty a < readAs ty b then b else a
/-- Shift left: 0 for a count at or above the width. -/
def iShl (ty : Ty) (a c : Nat) : Nat := if tyWidth ty ≤ c then 0 else a * 2 ^ c % 2 ^ tyWidth ty
/-- Logical shift right: 0 for a count at or above the width. -/
def iShr (ty : Ty) (a c : Nat) : Nat := if tyWidth ty ≤ c then 0 else a / 2 ^ c
/-- Arithmetic shift right: the sign bit throughout for a count at or above the width. -/
def iSra (ty : Ty) (a c : Nat) : Nat :=
  let w := tyWidth ty
  ofSigned w (toSigned w a / (2 ^ min c (w - 1) : Int))
/-- Leading zero bits. -/
def iClz (ty : Ty) (a : Nat) : Nat := tyWidth ty - Num.bitlen a
/-- Set bits. -/
def iPopc (ty : Ty) (a : Nat) : Nat := ((List.range (tyWidth ty)).filter fun i => a.testBit i).length
/-- The conditions 0 eq, 1 ne, 2 lt, 3 le, 4 gt, 5 ge (R80, R104). -/
def iCond (ty : Ty) (c a b : Nat) : Bool :=
  let x := readAs ty a
  let y := readAs ty b
  match c with
  | 0 => x == y
  | 1 => x != y
  | 2 => decide (x < y)
  | 3 => decide (x ≤ y)
  | 4 => decide (y < x)
  | _ => decide (y ≤ x)
/-- Quotient truncated toward zero; the one overflow wraps (R82). -/
def iQuot (ty : Ty) (a b : Nat) : Nat := ofSigned (tyWidth ty) ((readAs ty a).tdiv (readAs ty b))
/-- Remainder with the sign of the dividend (R82). -/
def iRem (ty : Ty) (a b : Nat) : Nat := ofSigned (tyWidth ty) ((readAs ty a).tmod (readAs ty b))

end Sys2Proof.Machine
end

