-- ==== Sys2Proof/Machine/Tasks.lean ====
section
/-! DEFINITION. Early-push rings and tasks: the tk instructions (R265 to R275), and what a queue
register of KIND 4 or 5 shares with them. -/

namespace Sys2Proof.Machine

/-! ## Rings (R265 to R267) -/

/-- The attached ring that a team's descriptor address names. -/
def State.ringAt (s : State) (asid : Nat) (desc : Word) : Option (Nat × Ring) :=
  s.rings.find? fun r => r.2.asid == asid && r.2.desc == desc

/-- Rings attached in a cluster (R266). -/
def State.ringsIn (s : State) (cluster : Nat) : Nat :=
  (s.rings.filter fun r => clusterOf r.2.core == cluster).length

/-- Offset in the allocation of slot `i` of a ring (R265). -/
def Ring.slotAt (r : Ring) (i : Nat) : Nat := 128 * r.line + r.slotSize * (i % r.slots)

/-- Why an attach is refused: a cause and a detail. -/
abbrev AttachFault := Cause × Nat

/-- A descriptor's fields as a ring on the team's core, checked (R266). -/
def ringOf (t : Team) (scratch : Nat) (desc : Word) (key : Nat) (bs : List Byte) : Option Ring :=
  let line := bytesAt bs 0 4
  let slot := bytesAt bs 4 2
  let slots := bytesAt bs 6 2
  let head := BitVec.ofNat 32 (bytesAt bs 8 4)
  let tail := BitVec.ofNat 32 (bytesAt bs 12 4)
  let loc := bytesAt bs 16 2
  let sizes := slot == 16 || slot == 32 || slot == 64 || slot == 128
  let zero := (bs.drop 18).all fun b => b == 0
  if !sizes || slots < 2 || 256 < slots || 4095 < loc || !zero || scratch < 128 * line + slot * slots ||
      slots < (tail - head).toNat then none
  else some
    { asid := t.asid, desc := desc, key := key, core := t.core, launch := t.launch, line := line, slotSize := slot,
      slots := slots, head := head, tail := tail, loc := loc, timeline := t.timeline }

/-- Attach a ring on the team's core, or say why not (RING_ATTACH, R266). Slots already between
HEAD and TAIL hold zero bytes and are counted at (LOC, NOW). -/
def attachRing (desc : Word) : Act (Except AttachFault Nat) := do
  let t ← tm
  let i ← me
  let (bs, key, _) ← readPiece { r := true } accRead desc 32
  let s ← get
  if 64 ≤ s.ringsIn (clusterOf t.core) then return .error (.scratch, 4)
  match ringOf t (s.scratchOf t) desc key bs with
  | none => return .error (.scratch, 6)
  | some r =>
    let n := (r.tail - r.head).toNat
    if n != 0 && !t.covers (s.space t.asid) r.loc t.now then return .error (.timeuse, 10)
    if n != 0 then
      match s.addCount (some t.core) t.asid t.timeline r.loc t.now n with
      | none => blockAt { detail := 8 }
      | some s1 => set s1
    let slot : RingSlot := { bytes := zeros r.slotSize, stamp := t.now, timeline := t.timeline, eos := false, producer := i, drain := 0 }
    let id ← fresh
    modify fun (s : State) =>
      let s1 := { s with rings := SMap.put s.rings id { r with queue := List.replicate n slot } }
      s1.withAlloc t.core t.launch fun a =>
        (List.range n).foldl (fun a k => a.write (r.slotAt (r.head + BitVec.ofNat 32 k).toNat) (zeros r.slotSize)) a
    return .ok id

/-- The ring a tk instruction names, attached if need be; `pop` asks for the owner core, a push
for the owner's cluster (R266). -/
def useRing (desc : Word) (pop push : Bool) : Act Nat := do
  let t ← tm
  let s ← get
  match s.ringAt t.asid desc with
  | some (id, r) =>
    if pop && r.core != t.core then fail .scratch 5 desc
    if push && clusterOf r.core != clusterOf t.core then fail .scratch 5 desc
    return id
  | none => do
    match ← attachRing desc with
    | .ok id => return id
    | .error (c, d) => fail c d desc

/-- A ring by number. -/
def State.ring (s : State) (id : Nat) : Ring :=
  (SMap.find s.rings id).getD
    { asid := 0, desc := 0, key := 0, core := 0, launch := {}, line := 0, slotSize := 16, slots := 1, head := 0,
      tail := 0, loc := 0, timeline := 0 }

/-- A ring has room for a push. -/
def Ring.room (r : Ring) : Bool := r.queue.length < r.slots

/-- Put a slot into a ring: its bytes are visible in the scratchpad at once (R269). -/
def State.ringPush (s : State) (id : Nat) (x : RingSlot) : State :=
  let r := s.ring id
  let s1 := { s with rings := SMap.alter s.rings id fun r => { r with tail := r.tail + 1, queue := r.queue ++ [x] } }
  s1.withAlloc r.core r.launch fun a => a.write (r.slotAt r.tail.toNat) x.bytes

/-- Push a slot of the given bytes: the cover test, the wait for room and the count; in a
deterministic launch it is staged (R269, R291). -/
def pushSlot (id : Nat) (bytes : List Byte) (eos : Bool) : Act Unit := do
  let t ← tm
  let i ← me
  let s ← get
  let r := s.ring id
  if !t.covers (s.space t.asid) r.loc t.now then timeuse 8
  let det := s.detOf t
  if !det && !r.room then blockAt { detail := 1 }
  countFor r.loc t.now
  let pad := (bytes ++ zeros r.slotSize).take r.slotSize
  let x : RingSlot := { bytes := pad, stamp := t.now, timeline := t.timeline, eos := eos, producer := i, drain := t.issued }
  if det then do
    let g ← groupOf
    modTm fun t => { t with staged := t.staged ++ [.push id r.loc g x] }
  else modify fun (s : State) => s.ringPush id x

/-- The head slot of a ring once it may be popped: a slot exists, then its producer's writes have
drained (R270). -/
def headSlot (id : Nat) : Act RingSlot := do
  let s ← get
  match (s.ring id).queue with
  | [] => blockAt { detail := 2 }
  | x :: _ => if (s.team x.producer).covered x.drain then return x else blockAt {}

/-- Bytes of a ring's head slot. -/
def State.headBytes (s : State) (id : Nat) : List Byte :=
  let r := s.ring id
  let a := ((s.core r.core).allocs.find? fun a => decide (a.launch = r.launch)).getD { launch := r.launch, size := 0 }
  a.read (r.slotAt r.head.toNat) r.slotSize

/-- Take the head slot: its count, which its pusher added, retires at once (R253, R270), with the acquire
of R243. -/
def popSlot (id : Nat) (x : RingSlot) : Act Unit := do
  let i ← me
  modify fun (s : State) =>
    let r := s.ring id
    let s1 := { s with rings := SMap.alter s.rings id fun r => { r with head := r.head + 1, queue := r.queue.drop 1 } }
    (s1.dropCount r.asid x.timeline r.loc x.stamp).acquire i

/-- A descriptor address, 32-aligned (R265). -/
def ringArg (r : Reg) : Act Word := do
  let a ← sread r
  if a.toNat % 32 != 0 then fail .misalign 0 a
  return a

/-- A scratchpad offset of tk.eq `line` or tk.dq, 16-aligned. -/
def slotOffset (x : Word) : Act Nat := do
  if x.toNat % 16 != 0 then fail .misalign 0 x
  return x.toNat
/-- Its range in the allocation. -/
def slotRange (off n : Nat) : Act Unit := do
  let t ← tm
  if (← get).scratchOf t < off + n then fail .scratch 0 (BitVec.ofNat 64 off)

/-- An action that a fault leaves without effect: the state is as before it, a ring it had attached among the
rest (R261). -/
def undone {α : Type} (act : Act α) : Act α := do
  let s ← get
  tryCatch act fun e =>
    match e with
    | .trap rs => do
      set s
      throw (.trap rs)
    | e => throw e

/-- tk.eq (R269). -/
def tkEq (f : TForm) : Act Unit := undone do
  let desc ← ringArg f.d
  let x ← sread f.a
  let line := f.mod.getLsbD 1
  if line then let _ ← slotOffset x
  let id ← useRing desc false true
  let t ← tm
  let s ← get
  let r := s.ring id
  if line then
    if !t.covers (s.space t.asid) r.loc t.now then timeuse 8
    slotRange x.toNat r.slotSize
    let a := s.allocOf t
    let p := a.poisonIn x.toNat r.slotSize
    if p != 0 then trap { t.record .poison 0 with ea := x, origin := p, load := true }
    pushSlot id (a.read x.toNat r.slotSize) (f.mod.getLsbD 0)
  else pushSlot id (leBytes 8 x.toNat) (f.mod.getLsbD 0)

/-- tk.dq (R270). -/
def tkDq (f : TForm) : Act Unit := undone do
  let desc ← ringArg f.a
  let off ← sread f.b
  let copy := decide (f.b ≠ .zero)
  if copy then let _ ← slotOffset off
  let id ← useRing desc true false
  let t ← tm
  let r := (← get).ring id
  if copy then slotRange off.toNat r.slotSize
  let x ← headSlot id
  let bytes := (← get).headBytes id
  if copy then modify fun (s : State) => s.withAlloc t.core t.launch fun a => a.write off.toNat bytes
  popSlot id x
  swrite f.d (BitVec.ofNat 64 (bytesAt bytes 0 8))
  swriteAt f.d 1 (if x.eos then 1 else 0)
  if f.mod.getLsbD 0 then writePair f.d 2 x.stamp

/-- tk.ring (R271). -/
def tkRing (f : TForm) : Act Unit := do
  let desc ← ringArg f.a
  let id ← useRing desc false false
  let r := (← get).ring id
  swrite f.d (BitVec.ofNat 64 ((r.tail - r.head).toNat + r.slots * 2 ^ 32 + r.core * 2 ^ 48))

/-! ## Tasks (R272 to R275) -/

/-- The gatherer of a cluster has room (R272). -/
def State.gatherRoom (s : State) (cluster : Nat) : Bool :=
  ((s.tasks ++ s.pushed).filter fun t => t.1 == cluster).length < 1024

/-- Send a task to the gatherer of the team's cluster, or stage it (R272, R291). -/
def sendTask (k : Task) : Act Unit := do
  let t ← tm
  let i ← me
  modify fun (s : State) =>
    let s1 := s.owe i k.unit
    if k.kind = 1 && s1.detOf t then s1.withTeam i fun t => { t with staged := t.staged ++ [.task k] }
    else { s1 with pushed := s1.pushed ++ [(clusterOf t.core, k)] }

/-- Push a task of KIND tk.push: the checks, room, its count, and its unit once the team covers (R272). -/
def pushTask (unit : Act Nat) (desc : Word) (loc : Nat) (st : Stamp) (record : List Word) : Act Unit := do
  let t ← tm
  let i ← me
  let s ← get
  if desc.toNat % 128 != 0 then fail .misalign 0 desc
  pairCheck loc st
  if !t.covers (s.space t.asid) loc st then timeuse 8
  if !s.detOf t && !s.gatherRoom (clusterOf t.core) then blockAt { detail := 1 }
  unitRoom
  countFor loc st
  let u ← unit
  sendTask
    { kind := 1, desc := desc.toNat, loc := loc, stamp := st, record := record, launch := t.launch, asid := t.asid,
      timeline := t.timeline, pusher := i, unit := u }

/-- tk.push (R272). -/
def tkPush (f : TForm) : Act Unit := do
  let desc ← sread f.d
  let loc ← locArg f.a
  let rec_ ← match f.b with
    | .zero => pure [0, 0, 0, 0]
    | r => do
      usePoisons r 4
      (List.range 4).mapM (sreadAt r)
  let st ← timeArg f.c f.mod
  pushTask unitOf desc loc st rec_

/-- tk.args (R275). -/
def tkArgs (f : TForm) : Act Unit := do
  let t ← tm
  if f.mod.getLsbD 0 then
    let l ← sread f.a
    let words := if l.toNat < t.lanes && t.origin != 0 then ((t.tasks[l.toNat]?).map (·.record)).getD [] else []
    (List.range 4).forM fun i => swriteAt f.d i (words.getD i 0)
  else
    let loc := if t.origin = 1 then t.taskLoc else 0
    let n := if t.origin = 0 then 0 else t.lanes
    swrite f.d (BitVec.ofNat 64 (n * 2 ^ 32 + t.origin * 2 ^ 12 + loc))

/-- tk.push (R272). -/
def execTkPush (f : TForm) (s : State) : Host.Outcome State Fault Refusal := runCore (tkPush f) s
/-- tk.args (R275). -/
def execTkArgs (f : TForm) (s : State) : Host.Outcome State Fault Refusal := runCore (tkArgs f) s
/-- tk.eq (R269). -/
def execTkEq (f : TForm) (s : State) : Host.Outcome State Fault Refusal := runCore (tkEq f) s
/-- tk.dq (R270). -/
def execTkDq (f : TForm) (s : State) : Host.Outcome State Fault Refusal := runCore (tkDq f) s
/-- tk.ring (R271). -/
def execTkRing (f : TForm) (s : State) : Host.Outcome State Fault Refusal := runCore (tkRing f) s

end Sys2Proof.Machine
end

