-- ==== Sys2Proof/Machine/Queue.lean ====
section
/-! DEFINITION. Queue registers (R205 to R208): bindings, pushes and pops of every KIND, and the q
instructions. -/

namespace Sys2Proof.Machine

/-- The number of a queue register. -/
def queueOf (r : Reg) : Nat := match r with | .q n => n.val | _ => 0

/-- The binding of a queue register. -/
def Team.bound (t : Team) (n : Nat) : Option QBind := SMap.find t.q n
/-- Change the words of an incomplete command (R206). -/
def setWords (n : Nat) (ws : List Word) : Act Unit :=
  modTm fun t => { t with q := SMap.alter t.q n fun b => { b with words := ws } }

/-- A lane of the instruction at issue names its own faults and blocking points (R187); an mx word that it
pushes names the lanes of its own faults (R173). -/
def atLane {α : Type} (lane : Nat) (mx : Bool) (act : Act α) : Act α :=
  tryCatch act fun e =>
    match e with
    | .trap rs => throw (.trap (if mx then rs else rs.map fun r => { r with lane := lane }))
    | .block b => throw (.block { b with lane := lane })
    | .gone => throw .gone

/-! ## KIND 1: copy command streams -/

/-- A DRAIN unit of its own, for a command or a task that a push completes (R186). -/
def newUnit : Act Nat := do
  let t ← tm
  unitRoom
  modTm fun t => { t with issued := t.issued + 1, undrained := t.undrained ++ [(t.issued + 1, 0)] }
  return t.issued + 1

/-- A complete copy command (R205). -/
def copyCommand (engine : Nat) (ws : List Word) : Act Unit := do
  let t ← tm
  let i ← me
  unitRoom
  let pairs ← countCopy
  let u ← newUnit
  let det := (← get).detOf t
  let c ← fresh
  addCopy
    { team := i, handles := [], kind := 3, core := t.core, launch := t.launch, asid := t.asid,
      timeline := t.timeline, runs := [(ws.getD 0 0, 0, (ws.getD 2 0).toNat % 2 ^ 40)], dst := ws.getD 1 0,
      done := ws.getD 3 0, engine := some engine, unit := some u, stamp := t.now, pairs := pairs, held := det, order := c }
  modify fun (s : State) => s.owe i u
  if det then modTm fun t => { t with staged := t.staged ++ [.copy c] }

/-! ## KIND 3: Sill units (R323) -/

/-- A unit runs a block that the team launched. -/
def State.sillMine (s : State) (chan team : Nat) : Bool := ((s.sill chan).running.map (·.team)) == some team

/-- Words that a unit holds for the team, oldest first. -/
def State.sillWords (s : State) (chan team : Nat) : List Word :=
  ((s.sill chan).left.filter fun w => w.1 == team).map (·.2) ++ if s.sillMine chan team then (s.sill chan).outq else []

/-- Take the oldest word that a unit holds for a team. -/
def State.sillTake (s : State) (chan team : Nat) : State :=
  s.withSill chan fun u =>
    match u.left.find? fun w => w.1 == team with
    | some w => { u with left := u.left.erase w }
    | none => { u with outq := u.outq.drop 1 }

/-! ## Pushes and pops (R206) -/

/-- Places of an endpoint that the team fills. -/
def freePlaces (b : QBind) : Act Nat := do
  let t ← tm
  let i ← me
  let s ← get
  match b.kind with
  | 1 => return 64 - (4 * s.waitingOn b.ident + b.words.length)
  | 2 => return mxPlaces - t.mxq.length
  | 3 => return if s.sillMine b.ident i then 16 - (s.sill b.ident).inq.length else 0
  | 4 =>
    match s.ringAt t.asid (BitVec.ofNat 64 b.ident) with
    | some (_, r) => return r.slots - r.queue.length
    | none => return 0
  | _ =>
    let mine := s.pushed.filter fun k => k.2.asid == t.asid && k.2.loc == b.ident && k.2.kind == 1
    let room := if s.gatherRoom (clusterOf t.core) then 160 else 4
    return min room (160 - 5 * mine.length) - b.words.length

/-- Push a word (R206). -/
def pushQ (n : Nat) (x : Word) : Act Unit := do
  let t ← tm
  match t.bound n with
  | none => fail .qstall 3
  | some b =>
    let det := (← get).detOf t
    let full := (← freePlaces b) == 0
    match b.kind with
    | 1 =>
      if full && !det then blockAt { detail := 1 }
      let ws := b.words ++ [x]
      if ws.length < 4 then setWords n ws
      else do
        copyCommand b.ident ws
        setWords n []
    | 2 => mxPush x
    | 3 =>
      if full then blockAt { detail := 1 }
      modify fun (s : State) => s.withSill b.ident fun u => { u with inq := u.inq ++ [x] }
    | 4 => do
      let id ← useRing (BitVec.ofNat 64 b.ident) false true
      pushSlot id (leBytes 8 x.toNat) false
    | _ => do
      if full && !det then blockAt { detail := 1 }
      let ws := b.words ++ [x]
      if ws.length < 5 then setWords n ws
      else do
        pushTask newUnit (ws.getD 0 0) b.ident t.now (ws.drop 1)
        setWords n []

/-- Pop a word (R206). -/
def popQ (n : Nat) : Act Word := do
  let t ← tm
  let i ← me
  match t.bound n with
  | none => fail .qstall 3
  | some b =>
    match b.kind with
    | 3 =>
      match (← get).sillWords b.ident i with
      | [] => blockAt { detail := 2 }
      | x :: _ =>
        modify fun (s : State) => s.sillTake b.ident i
        return x
    | 4 => do
      let id ← useRing (BitVec.ofNat 64 b.ident) true false
      let x ← headSlot id
      let bytes := (← get).headBytes id
      popSlot id x
      return BitVec.ofNat 64 (bytesAt bytes 0 8)
    | _ => fail .qstall 4

/-- How many words a pop could take without waiting; 0 where the binding is push-only. -/
def wordsReady (b : QBind) : Act Nat := do
  let t ← tm
  let i ← me
  let s ← get
  match b.kind with
  | 3 => return (s.sillWords b.ident i).length
  | 4 =>
    match s.ringAt t.asid (BitVec.ofNat 64 b.ident) with
    | some (_, r) => return (r.queue.takeWhile fun x => (s.team x.producer).covered x.drain).length
    | none => return 0
  | _ => return 0

/-- Read an operand of an fr or km instruction, which may pop; a word once popped is kept while a
later operand waits (R63, R187). -/
def qread (slot : Nat) (r : Reg) : Act Word :=
  match r with
  | .q n => do
    let t ← tm
    match t.popped.find? fun p => p.1 == slot with
    | some p => return p.2
    | none => do
      let x ← popQ n.val
      modTm fun t => { t with popped := t.popped ++ [(slot, x)] }
      return x
  | r => sread r

/-- Write a result of an fr or km instruction, which may push (R74). -/
def qwrite (r : Reg) (x : Word) : Act Unit :=
  match r with
  | .q n => pushQ n.val x
  | r => swrite r x

/-! ## The q instructions -/

/-- Everything pushed under a binding has been accepted (R205); what is staged counts (R291). -/
def bindQuiet (b : QBind) : Act Bool := do
  let i ← me
  let s ← get
  match b.kind with
  | 1 => return !(s.copies.any fun c => c.2.team == i && c.2.engine == some b.ident && c.2.moved == 0 && !c.2.issuedAll && !c.2.held)
  | 2 => return (← tm).mxq.isEmpty
  | 5 => return !(s.pushed.any fun k => k.2.pusher == i && k.2.loc == b.ident && k.2.kind == 1)
  | _ => return true

/-- q.bind (R205). -/
def qBind (f : TForm) : Act Unit := do
  let x ← sread f.a
  let t ← tm
  let n := queueOf f.d
  match t.bound n with
  | some b => if !(← bindQuiet b) then blockAt { point := false }
  | none => pure ()
  let kind := x.toNat / 2 ^ 60
  let ident := x.toNat % 2 ^ 57
  let bad := bitsOf x.toNat 59 57 != 0 ||
    (match kind with
    | 0 => false | 1 => 23 < ident | 2 => ident != 0 | 3 => 511 < ident | 4 => false | 5 => 4095 < ident
    | _ => true)
  if bad then fail .qstall 5
  let desc : Word := BitVec.ofNat 64 (if bitOf ident 56 then ident + 127 * 2 ^ 57 else ident)
  if kind = 4 then do
    if ident % 32 != 0 then fail .misalign 0 desc
    match (← get).ringAt t.asid desc with
    | some (_, r) => if clusterOf r.core != clusterOf t.core then fail .qstall 5
    | none =>
      match ← attachRing desc with
      | .ok _ => pure ()
      | .error (.scratch, d) => fail .scratch d desc
      | .error _ => fail .qstall 5
  modTm fun t =>
    if kind = 0 then { t with q := SMap.del t.q n }
    else { t with q := SMap.put t.q n { kind := kind, ident := if kind = 4 then desc.toNat else ident } }

/-- q.put (R207). -/
def qPut (f : TForm) : Act Unit := do
  let t ← tm
  let n := queueOf f.d
  let lanes := t.lanesOf f.km.val
  let pair := f.mod.getLsbD 0
  match f.a with
  | .v _ => do
    let bad := lanes.filterMap fun l =>
      (t.lpoison l (srcRegs pair f.a) f.a).map fun p => t.poisonRec l p.1 p.2
    let good := (← lanesLeft f.km.val).filter fun l => (t.lpoison l (srcRegs pair f.a) f.a).isNone
    good.forM fun l => atLane l ((t.bound n).any (·.kind == 2)) do
      pushQ n (t.lsrc 0 l pair f.a)
      serve l
    finishLanes bad
  | r => do
    if !lanes.isEmpty then
      let x ← sread r
      pushQ n x

/-- q.take (R207). -/
def qTake (f : TForm) : Act Unit := do
  let t ← tm
  let n := (queueOf f.a)
  let lanes := t.lanesOf f.km.val
  let pair := f.mod.getLsbD 0
  match f.d with
  | .v _ => do
    let left ← lanesLeft f.km.val
    left.forM fun l => atLane l false do
      let x ← popQ n
      modTm fun t => t.ldst l pair f.d x
      serve l
  | r => do
    if !lanes.isEmpty then
      let x ← popQ n
      swrite r x

/-- An action that is made only where it need not wait: else the state is as before it, and it gives none
(R208). A page or the side log may hold it still (R346). -/
def unblocked {α : Type} (act : Act α) : Act (Option α) := do
  let s ← get
  tryCatch (some <$> act) fun e =>
    match e with
    | .block b => if b.held then throw e else do
        set s
        return none
    | e => throw e

/-- q.try (R208): it never blocks. -/
def qTry (f : TForm) : Act Unit := do
  let n := (queueOf f.a)
  if f.mod.getLsbD 0 then do
    let x ← sread f.b
    let done ← unblocked (pushQ n x)
    swrite f.d (if done.isSome then 1 else 0)
  else do
    let w ← unblocked (popQ n)
    swrite f.d (w.getD 0)
    swriteAt f.d 1 (if w.isSome then 1 else 0)

/-- q.len (R208). -/
def qLen (f : TForm) : Act Unit := do
  let t ← tm
  match t.bound (queueOf f.a) with
  | none => swrite f.d 0
  | some b => do
    let have_ ← wordsReady b
    let free ← freePlaces b
    swrite f.d (BitVec.ofNat 64 (have_ + free * 2 ^ 32))

/-- q.bind (R205). -/
def execQBind (f : TForm) (s : State) : Host.Outcome State Fault Refusal := runCore (qBind f) s
/-- q.put (R207). -/
def execQPut (f : TForm) (s : State) : Host.Outcome State Fault Refusal := runCore (qPut f) s
/-- q.take (R207). -/
def execQTake (f : TForm) (s : State) : Host.Outcome State Fault Refusal := runCore (qTake f) s
/-- q.try (R208). -/
def execQTry (f : TForm) (s : State) : Host.Outcome State Fault Refusal := runCore (qTry f) s
/-- q.len (R208). -/
def execQLen (f : TForm) (s : State) : Host.Outcome State Fault Refusal := runCore (qLen f) s

end Sys2Proof.Machine
end

