-- ==== Sys2Proof/Machine/Front.lean ====
section
/-! DEFINITION. The fr instructions (R73 to R85). -/

namespace Sys2Proof.Machine

/-! ## Operands (R74) -/

/-- The S sources of an instruction are used before any queue is popped (R357). -/
def useAll (rs : List Reg) : Act Unit := rs.forM usePoison

/-- A source at the instruction's width. -/
def frSrc (ty : Ty) (slot : Nat) (r : Reg) : Act Nat := do
  let x ← qread slot r
  return lowBits (tyWidth ty) x

/-- Write a `w`-bit result (R74). -/
def frDst (ty : Ty) (r : Reg) (x : Nat) : Act Unit := qwrite r (extendTo (tySigned ty) (tyWidth ty) x)

/-- A T-form instruction of two sources. -/
def frBin (op : Ty → Nat → Nat → Nat) (f : TForm) : Act Unit := do
  useAll [f.a, f.b]
  let a ← frSrc f.ty 0 f.a
  let b ← frSrc f.ty 1 f.b
  frDst f.ty f.d (op f.ty a b)

/-- An I-form instruction. -/
def frImm (op : Ty → Nat → Nat → Nat) (f : IForm) : Act Unit := do
  let a ← frSrc f.ty 0 f.a
  frDst f.ty f.d (op f.ty a (lowBits (tyWidth f.ty) (immOf f)))

/-- A shift whose count is a register, taken in full. -/
def frShift (op : Ty → Nat → Nat → Nat) (f : TForm) : Act Unit := do
  useAll [f.a, f.b]
  let a ← frSrc f.ty 0 f.a
  let c ← qread 1 f.b
  frDst f.ty f.d (op f.ty a c.toNat)

/-- A shift whose count is the immediate, taken in full. -/
def frShiftImm (op : Ty → Nat → Nat → Nat) (f : IForm) : Act Unit := do
  let a ← frSrc f.ty 0 f.a
  frDst f.ty f.d (op f.ty a (immOf f).toNat)

/-- A T-form instruction of one source. -/
def frUn (op : Ty → Nat → Nat) (f : TForm) : Act Unit := do
  let a ← frSrc f.ty 0 f.a
  frDst f.ty f.d (op f.ty a)

/-- fr.div and fr.rem (R82). -/
def frDivide (op : Ty → Nat → Nat → Nat) (f : TForm) : Act Unit := do
  useAll [f.a, f.b]
  let a ← frSrc f.ty 0 f.a
  let b ← frSrc f.ty 1 f.b
  if b = 0 then fail .fpdivz 1
  frDst f.ty f.d (op f.ty a b)

/-- fr.cmp (R80). -/
def frCmp (f : TForm) : Act Unit := do
  useAll [f.a, f.b]
  let a ← frSrc f.ty 0 f.a
  let b ← frSrc f.ty 1 f.b
  qwrite f.d (if iCond f.ty f.mod.toNat a b then 1 else 0)

/-- fr.sel (R80). -/
def frSel (f : TForm) : Act Unit := do
  useAll [f.a, f.b, f.c]
  let a ← frSrc f.ty 0 f.a
  let b ← frSrc f.ty 1 f.b
  let c ← qread 2 f.c
  frDst f.ty f.d (if c = 0 then b else a)

/-- fr.movi (R81). -/
def frMovi (f : IForm) : Act Unit := frDst f.ty f.d (lowBits (tyWidth f.ty) (immOf f))

/-- fr.movhi (R81). -/
def frMovhi (f : IForm) : Act Unit := do
  let x ← sread f.d
  swrite f.d ((x <<< 22) ||| f.imm.setWidth 64)

/-! ## fr.ld and fr.st (R83, R84) -/

/-- The address of a front load or store, MISALIGN first. -/
def frAddr (f : IForm) (store : Bool) : Act Word := do
  let base ← sread f.a
  let a := base + immOf f
  let t ← tm
  if a.toNat % tyBytes f.ty != 0 then
    trap { t.record .misalign 0 with ea := a, size := tyBytes f.ty, store := store, load := !store }
  return a

/-- fr.ld: bytes and the ORIGIN code of their poison, kept while a push waits. -/
def frLoad (f : IForm) : Act (Word × Nat) := do
  let t ← tm
  let i ← me
  match t.popped.find? (·.1 == 8), t.popped.find? (·.1 == 9) with
  | some x, some p => return (x.2, p.2.toNat)
  | _, _ => do
    let a ← frAddr f false
    match ← reach (.front i) a { r := true } accRead true false with
    | .trap c d => trap { t.record c d with ea := a, size := tyBytes f.ty, load := true }
    | .wait rids => blockAt { rids := rids, held := true }
    | .log _ _ _ => return (0, 0)
    | .key k _ => do
      let g ← groupOf
      let s ← get
      if !s.rangeLanded i k (tyBytes f.ty) || !s.mayLoad i g k (tyBytes f.ty) then blockAt { point := false }
      let n ← nextFree
      let (bs, p) ← loadAt i g k (tyBytes f.ty) (Config.cacheHit n)
      let x := extendTo (tySigned f.ty) (tyWidth f.ty) (leNat bs)
      modTm fun t => { t with popped := t.popped ++ [(8, x), (9, BitVec.ofNat 64 p)] }
      return (x, p)

/-- fr.ld (R83). A poisoned reply is written to an S register only (R357). -/
def frLd (f : IForm) : Act Unit := do
  let (x, p) ← frLoad f
  let t ← tm
  if p = 0 then qwrite f.d x
  else match f.d with
    | .s n => modTm fun t => t.land ⟨.s n.val, 0, p⟩
    | .zero => pure ()
    | r =>
      trap { t.record .poison r.code with ea := (← sread f.a) + immOf f, size := tyBytes f.ty, load := true, origin := p }

/-- fr.st (R83): a walk fault goes to the side log (R347). -/
def frSt (f : IForm) : Act Unit := do
  useAll [f.a, f.d]
  let a ← frAddr f true
  let x ← qread 3 f.d
  let _ ← unitOf
  let t ← tm
  let i ← me
  let bs := leBytes (tyBytes f.ty) x.toNat
  match ← reach (.front i) a { w := true } accWrite true true with
  | .trap c d => trap { t.record c d with ea := a, size := tyBytes f.ty, store := true }
  | .wait rids => blockAt { rids := rids, held := true }
  | .key k _ => issueWrite 1 0 a k bs
  | .log c d rid =>
    sideLog { kind := 1, team := 0, unit := 0, asid := 0, timeline := 0, va := a, size := Nat.log2 (tyBytes f.ty),
              data := BitVec.ofNat 64 (leNat bs), gen := 0, cause := c, detail := d, lane := 0, rid := rid }

/-! ## Control registers (R64, R85) -/

/-- Every earlier instruction that can raise flags has completed (R136). -/
def Team.flagsQuiet (t : Team) : Bool :=
  t.ops.all fun o => o.results.isEmpty && o.fpf == 0 && o.dcf == 0 && o.faults.isEmpty

/-- DRAIN (R186). -/
def Team.drain (t : Team) : Word :=
  let done := t.undrained.foldl (fun m u => min m (u.1 - 1)) t.issued
  BitVec.ofNat 64 (t.issued % 2 ^ 32 + done % 2 ^ 32 * 2 ^ 32)

/-- CAUSE (R352). -/
def Team.causeWord (t : Team) : Word :=
  BitVec.ofNat 64 ((if t.handler then 2 ^ 63 else 0) + t.causeCount % 2 ^ 16 * 2 ^ 32 + t.causeOrigin % 256 * 256 + t.causeCode % 256)

/-- Read CYC: the counter has moved on by then (R29; log 5). -/
def readCyc : Act Word := do
  let t ← tm
  let n ← nextFree
  modify fun (s : State) => s.withCore t.core fun c => { c with cyc := c.cyc + Config.cycleGap n }
  return ((← get).core t.core).cyc

/-- The value of a control register. -/
def readCsr (n : Nat) : Act Word := do
  let t ← tm
  let s ← get
  match n with
  | 0x000 => return (summary t.exm).setWidth 64
  | 0x001 => return BitVec.ofNat 64 t.stack.length
  | 0x002 => return t.accb.setWidth 64
  | 0x010 | 0x011 | 0x012 | 0x013 => return BitVec.ofNat 64 (t.now.getD (n - 0x010) 0 % 2 ^ 32)
  | 0x014 => return BitVec.ofNat 64 t.now.length
  | 0x020 => return t.fpc
  | 0x021 => if !t.flagsQuiet then blockAt { point := false } else return t.fpf.setWidth 64
  | 0x022 => return t.dcc
  | 0x023 => if !t.flagsQuiet then blockAt { point := false } else return t.dcf.setWidth 64
  | 0x024 => return BitVec.ofNat 64 t.desc.ten
  | 0x030 => return t.causeWord
  | 0x031 => return t.frecb.setWidth 64 <<< 5
  | 0x040 => readCyc
  | 0x041 => return t.drain
  | 0x050 => return t.score
  | 0x051 => return t.allow
  | 0x060 => return BitVec.ofNat 64 (s.hearth.ltol % 2 ^ 32)
  | _ => return 0

/-- Mask words that keep their contents under the SUMW view (R12). -/
def keepWords (m : Mask) (x : Word) : Mask :=
  (List.range 32).foldl (fun m w => if x.getLsbD w then m else setMaskWord m w 0) m

/-- Write a control register; a write to a read-only one is ignored (R64). -/
def writeCsr (n : Nat) (x : Word) : Act Unit := do
  let t ← tm
  match n with
  | 0x000 => modTm fun t => t.setExm (keepWords t.exm x)
  | 0x002 =>
    if !(← tm).mxq.isEmpty then blockAt { held := true }
    modTm fun t => { t with accb := x.extractLsb' 0 12 }
  | 0x020 => modTm fun t => { t with fpc := x &&& 0xF }
  | 0x021 =>
    if !t.flagsQuiet then blockAt { point := false }
    modTm fun t => { t with fpf := x.extractLsb' 0 5 }
  | 0x022 => modTm fun t => { t with dcc := if x.toNat % 8 < 5 then x &&& 7 else t.dcc }
  | 0x023 =>
    if !t.flagsQuiet then blockAt { point := false }
    modTm fun t => { t with dcf := x.extractLsb' 0 5 }
  | 0x031 => modTm fun t => { t with frecb := x.extractLsb' 5 52 }
  | 0x050 => modTm fun t => { t with score := x }
  | _ => pure ()

/-- fr.csrr (R85). -/
def frCsrr (f : IForm) : Act Unit := do
  let x ← readCsr (f.imm.toNat % 2 ^ 12)
  swrite f.d x

/-- fr.csrw (R85). -/
def frCsrw (f : IForm) : Act Unit := do
  let x ← sread f.d
  writeCsr (f.imm.toNat % 2 ^ 12) x

/-! ## The meanings -/

/-- fr.nop (R81). -/
def execFrNop (_ : TForm) (s : State) : Host.Outcome State Fault Refusal := runCore (pure ()) s
/-- fr.mov (R81). -/
def execFrMov (f : TForm) (s : State) : Host.Outcome State Fault Refusal := runCore (frUn (fun _ a => a) f) s
/-- fr.movi (R81). -/
def execFrMovi (f : IForm) (s : State) : Host.Outcome State Fault Refusal := runCore (frMovi f) s
/-- fr.movhi (R81). -/
def execFrMovhi (f : IForm) (s : State) : Host.Outcome State Fault Refusal := runCore (frMovhi f) s
/-- fr.add (R79). -/
def execFrAddT (f : TForm) (s : State) : Host.Outcome State Fault Refusal := runCore (frBin iAdd f) s
/-- fr.add with an immediate (R79). -/
def execFrAddI (f : IForm) (s : State) : Host.Outcome State Fault Refusal := runCore (frImm iAdd f) s
/-- fr.sub (R79). -/
def execFrSubT (f : TForm) (s : State) : Host.Outcome State Fault Refusal := runCore (frBin iSub f) s
/-- fr.sub with an immediate (R79). -/
def execFrSubI (f : IForm) (s : State) : Host.Outcome State Fault Refusal := runCore (frImm iSub f) s
/-- fr.mul (R79). -/
def execFrMulT (f : TForm) (s : State) : Host.Outcome State Fault Refusal := runCore (frBin iMul f) s
/-- fr.mul with an immediate (R79). -/
def execFrMulI (f : IForm) (s : State) : Host.Outcome State Fault Refusal := runCore (frImm iMul f) s
/-- fr.and (R79). -/
def execFrAndT (f : TForm) (s : State) : Host.Outcome State Fault Refusal := runCore (frBin iAnd f) s
/-- fr.and with an immediate (R79). -/
def execFrAndI (f : IForm) (s : State) : Host.Outcome State Fault Refusal := runCore (frImm iAnd f) s
/-- fr.or (R79). -/
def execFrOrT (f : TForm) (s : State) : Host.Outcome State Fault Refusal := runCore (frBin iOr f) s
/-- fr.or with an immediate (R79). -/
def execFrOrI (f : IForm) (s : State) : Host.Outcome State Fault Refusal := runCore (frImm iOr f) s
/-- fr.xor (R79). -/
def execFrXorT (f : TForm) (s : State) : Host.Outcome State Fault Refusal := runCore (frBin iXor f) s
/-- fr.xor with an immediate (R79). -/
def execFrXorI (f : IForm) (s : State) : Host.Outcome State Fault Refusal := runCore (frImm iXor f) s
/-- fr.min (R79). -/
def execFrMinT (f : TForm) (s : State) : Host.Outcome State Fault Refusal := runCore (frBin iMin f) s
/-- fr.min with an immediate (R79). -/
def execFrMinI (f : IForm) (s : State) : Host.Outcome State Fault Refusal := runCore (frImm iMin f) s
/-- fr.max (R79). -/
def execFrMaxT (f : TForm) (s : State) : Host.Outcome State Fault Refusal := runCore (frBin iMax f) s
/-- fr.max with an immediate (R79). -/
def execFrMaxI (f : IForm) (s : State) : Host.Outcome State Fault Refusal := runCore (frImm iMax f) s
/-- fr.shl (R79). -/
def execFrShlT (f : TForm) (s : State) : Host.Outcome State Fault Refusal := runCore (frShift iShl f) s
/-- fr.shl with an immediate (R79). -/
def execFrShlI (f : IForm) (s : State) : Host.Outcome State Fault Refusal := runCore (frShiftImm iShl f) s
/-- fr.shr (R79). -/
def execFrShrT (f : TForm) (s : State) : Host.Outcome State Fault Refusal := runCore (frShift iShr f) s
/-- fr.shr with an immediate (R79). -/
def execFrShrI (f : IForm) (s : State) : Host.Outcome State Fault Refusal := runCore (frShiftImm iShr f) s
/-- fr.sra (R79). -/
def execFrSraT (f : TForm) (s : State) : Host.Outcome State Fault Refusal := runCore (frShift iSra f) s
/-- fr.sra with an immediate (R79). -/
def execFrSraI (f : IForm) (s : State) : Host.Outcome State Fault Refusal := runCore (frShiftImm iSra f) s
/-- fr.mulh (R79). -/
def execFrMulh (f : TForm) (s : State) : Host.Outcome State Fault Refusal := runCore (frBin iMulh f) s
/-- fr.div (R82). -/
def execFrDiv (f : TForm) (s : State) : Host.Outcome State Fault Refusal := runCore (frDivide iQuot f) s
/-- fr.rem (R82). -/
def execFrRem (f : TForm) (s : State) : Host.Outcome State Fault Refusal := runCore (frDivide iRem f) s
/-- fr.cmp (R80). -/
def execFrCmp (f : TForm) (s : State) : Host.Outcome State Fault Refusal := runCore (frCmp f) s
/-- fr.sel (R80). -/
def execFrSel (f : TForm) (s : State) : Host.Outcome State Fault Refusal := runCore (frSel f) s
/-- fr.clz (R79). -/
def execFrClz (f : TForm) (s : State) : Host.Outcome State Fault Refusal := runCore (frUn iClz f) s
/-- fr.popc (R79). -/
def execFrPopc (f : TForm) (s : State) : Host.Outcome State Fault Refusal := runCore (frUn iPopc f) s
/-- fr.ld (R83). -/
def execFrLd (f : IForm) (s : State) : Host.Outcome State Fault Refusal := runCore (frLd f) s
/-- fr.st (R83). -/
def execFrSt (f : IForm) (s : State) : Host.Outcome State Fault Refusal := runCore (frSt f) s
/-- fr.csrr (R85). -/
def execFrCsrr (f : IForm) (s : State) : Host.Outcome State Fault Refusal := runCore (frCsrr f) s
/-- fr.csrw (R85). -/
def execFrCsrw (f : IForm) (s : State) : Host.Outcome State Fault Refusal := runCore (frCsrw f) s

end Sys2Proof.Machine
end

