-- ==== Sys2Proof/Machine/Control.lean ====
section
/-! DEFINITION. The ctl and km instructions (R26, R86 to R96). -/

namespace Sys2Proof.Machine

/-! ## Uniform transfers (R86) -/

/-- A transfer that takes effect at the clause's end, unless a sys.eret of the clause does (R86, R369; log
25). -/
def jumpTo (a : Word) : Act Unit := modTm fun t => { t with after := some (.jump a) }

/-- ctl.br. -/
def ctlBr (f : BForm) : Act Unit := do
  let t ← tm
  let taken ← match f.d with
    | .k n => pure (t.exm &&& t.getK n.val != 0)
    | .s _ => do
      let x ← sread f.d
      pure (x != 0)
    | _ => pure false
  if taken then jumpTo (targetOf t.wordAt f)

/-- ctl.jmp. -/
def ctlJmp (f : BForm) : Act Unit := do
  let t ← tm
  jumpTo (targetOf t.wordAt f)

/-- ctl.call. -/
def ctlCall (f : BForm) : Act Unit := do
  let t ← tm
  swrite f.d t.nextHeader
  jumpTo (targetOf t.wordAt f)

/-- ctl.ret, and ctl.retq outside a callee team (R91). -/
def jumpBack (r : Reg) : Act Unit := do
  let a ← sread r
  if a.toNat % 8 != 0 then fail .misalign 0 a
  jumpTo a

/-! ## Divergence (R26, R87, R88) -/

/-- Depth of the reconvergence stack (R25). -/
def stackDepth : Nat := 32

/-- ctl.brv (R87). The LANE of its CSTACK record is 0, the model's choice (log 20). -/
def ctlBrv (f : BForm) : Act Unit := do
  let t ← tm
  let taken := t.exm &&& t.getK f.km.val
  let rest := t.exm &&& ~~~ t.getK f.km.val
  if taken = 0 then pure ()
  else if rest = 0 then jumpTo (targetOf t.wordAt f)
  else if stackDepth ≤ t.stack.length then fail .cstack 0
  else do
    modTm fun t => { t with stack := ⟨.pending, t.nextHeader, rest⟩ :: t.stack, exm := taken }
    jumpTo (targetOf t.wordAt f)

/-- ctl.join (R88). The LANE of its CSTACK record is 0, the model's choice (log 20). -/
def ctlJoin : Act Unit := do
  let t ← tm
  match t.stack with
  | ⟨.pending, p, m⟩ :: rest => do
    modTm fun t => { t with stack := ⟨.merge, t.nextHeader, t.exm⟩ :: rest, exm := m }
    jumpTo p
  | ⟨.merge, p, m⟩ :: rest => do
    modTm fun t => { t with stack := rest, exm := t.exm ||| m }
    jumpTo p
  | _ => fail .cstack 0

/-! ## Calls with lane-varying targets (R89) -/

/-- What a lane of ctl.callv finds at its target. -/
inductive CallLane
  | ok (d : Desc)
  | trap (r : Rec)
  | wait (rids : List Nat)
  deriving DecidableEq, Repr

/-- Read and check the descriptor a lane's target names; the record of a read that faults has SIZE 0, and poison
of the bytes read counts for nothing (R89; log 20). -/
def callLane (f : TForm) (lane : Nat) : Act CallLane := do
  let t ← tm
  match t.firstPoison lane [(f.a, 2)] with
  | some (r, o) => return .trap (t.poisonRec lane r o)
  | none =>
    let a := t.laneAddr lane f.a
    if a.toNat % 128 != 0 then return .trap { t.laneRec lane .misalign 0 with ea := a }
    match ← reach (.lane (← me) lane) a { r := true } accRead true false with
    | .trap c d => return .trap { t.laneRec lane c d with ea := a, load := true }
    | .wait rids => return .wait rids
    | .log _ _ _ => return .wait []
    | .key k _ => do
      let (bs, _) ← ownRead (← me) (← get).serial k 128
      let d := descOf a.toNat bs
      let s ← get
      if d.valid bs && d.usable (s.space t.asid) then return .ok d
      else return .trap { t.laneRec lane .budget 2 with ea := a }

/-- The PARK entry of the call at issue: a handler that a delivery entered between two of its pushes may have
left entries above it (R26, R89). -/
def Team.parkEntry (t : Team) : Option StackEntry := t.stack.find? fun e => decide (e.kind = .park)

/-- Push the tasks of the lanes parked and not yet pushed, each once the gatherer has room. The team then
waits until the PARK entry pops, which it does at once where every lane has returned by then. -/
def callPush (f : TForm) : Act Unit := do
  let t ← tm
  let i ← me
  let parked := (t.parkEntry.map (·.mask)).getD 0
  let lanes := (lanesIn t.lanes parked).filter fun l => !t.served.getLsbD l
  let call ← groupOf
  lanes.forM fun l => do
    let s ← get
    if !s.gatherRoom (clusterOf t.core) then blockAt { detail := 1, lane := l }
    let word (j : Nat) : Word := t.getPair l (2 * j)
    sendTask
      { kind := 2, desc := (t.laneAddr l f.a).toNat, loc := 0, stamp := t.now, record := (List.range 4).map word,
        launch := t.launch, asid := t.asid, timeline := t.timeline, pusher := i, unit := 0, lane := l, call := call }
    modTm fun t => { t with served := t.served ||| laneBit l }
  modTm fun t =>
    match t.parkEntry with
    | some e => if e.mask = 0 then { t with stack := t.stack.erase e, after := some (.jump e.pc) } else { t with parkWait := true }
    | none => t

/-- The record of a lane whose task would take a poisoned V0..V7: reading them into it is a use (R89, R357;
log 22). -/
def Team.recordPoison (t : Team) (lane : Nat) : Option Rec :=
  (t.firstPoison lane ((List.range 8).map fun r => (Reg.ofByte (BitVec.ofNat 8 r), 1))).map fun p => t.poisonRec lane p.1 p.2

/-- ctl.callv (R89). Its second half begins once the PARK entry stands. The LANE of its CSTACK record is 0, the
model's choice (log 20). -/
def ctlCallv (f : TForm) : Act Unit := do
  let t ← tm
  if t.step = 1 then callPush f
  else
    let lanes := lanesIn t.lanes t.exm
    if lanes.isEmpty then pure ()
    else
      let rs ← lanes.mapM (callLane f)
      let waits := rs.filter fun r => match r with | .wait _ => true | _ => false
      if !waits.isEmpty then
        blockAt { rids := waits.flatMap fun r => match r with | .wait ids => ids | _ => [], held := true }
      finishLanes (rs.filterMap fun r => match r with | .trap r => some r | _ => none)
      let ds := rs.filterMap fun r => match r with | .ok d => some d | _ => none
      match ds with
      | [] => pure ()
      | d :: rest =>
        if rest.all fun e => e.addr == d.addr then do
          swrite f.d t.nextHeader
          jumpTo d.entry
        else do
          finishLanes (lanes.filterMap t.recordPoison)
          if stackDepth ≤ t.stack.length then fail .cstack 0
          modTm fun t => { t with stack := ⟨.park, t.nextHeader, t.exm⟩ :: t.stack, exm := 0, step := 1, served := 0 }
          callPush f

/-- Lanes exit: they leave EXM and every stack entry (R26). -/
def Team.exitLanes (t : Team) (m : Mask) : Team :=
  { t with
    exited := t.exited ||| m
    exm := t.exm &&& ~~~ m
    stack := t.stack.map fun e => { e with mask := e.mask &&& ~~~ m } }

/-- A callee lane's V0..V3 go to its parent lane (R91). Poison goes with them and traps nowhere, the model's choice
(log 22). -/
def State.passBack (s : State) (team lane parent plane : Nat) : State :=
  let t := s.team team
  (List.range 4).foldl (fun s r =>
    s.withTeam parent fun p => p.land ⟨.v plane r, (t.getV lane r).setWidth 64, t.poisonV lane r⟩) s

/-- ctl.retq (R91): in a callee team each active lane returns once the team's units have drained. -/
def ctlRetq (f : TForm) : Act Unit := do
  let t ← tm
  let i ← me
  let lanes := lanesIn t.lanes t.exm
  if lanes.isEmpty then pure ()
  else if t.origin != 2 then jumpBack f.a
  else do
    let s ← get
    if !s.drainedTo i t.issued s.serial then blockAt { point := false }
    lanes.forM fun l =>
      match t.tasks[l]? with
      | some k => modify fun (s : State) => (s.passBack i l k.parent k.lane).laneBack ⟨i, t.issued, s.serial, k.parent, k.lane⟩
      | none => pure ()
    modTm fun t => t.exitLanes (maskOf lanes)

/-- ctl.exit (R93): callee lanes return their parents once the team's units have drained (R92),
and the shares of task lanes retire (R274). -/
def ctlExit (f : TForm) : Act Unit := do
  let t ← tm
  let i ← me
  let lanes := t.lanesOf f.km.val
  modTm fun t => t.exitLanes (maskOf lanes)
  if t.origin = 2 then
    lanes.forM fun l =>
      match t.tasks[l]? with
      | some k => modify fun (s : State) => s.returnsTo i k.parent k.lane
      | none => pure ()
  modify fun (s : State) => s.exitShares i lanes

/-! ## Masks (R94 to R96) -/

/-- A K source; ZERO reads as the empty mask. -/
def Team.kSrc (t : Team) (r : Reg) : Mask := match r with | .k n => t.getK n.val | _ => 0
/-- Write a K destination; ZERO discards it. -/
def kDst (r : Reg) (m : Mask) : Act Unit := match r with | .k n => modTm fun t => t.setK n.val m | _ => pure ()

/-- Lanes f..f+n−1. -/
def laneRange (f n : Nat) : Mask :=
  if 1024 ≤ f then 0 else lanesMask (min 1024 (f + n)) &&& ~~~ lanesMask f

/-- km.set with registers. -/
def kmSetT (f : TForm) : Act Unit := do
  let a ← sread f.a
  let b ← sread f.b
  kDst f.d (laneRange a.toNat b.toNat)
/-- km.set with an immediate. -/
def kmSetI (f : IForm) : Act Unit := kDst f.d (laneRange (f.imm.toNat % 2 ^ 11) (f.imm.toNat / 2 ^ 11))

/-- km.and, km.or, km.andn, km.xor. -/
def kmBin (op : Mask → Mask → Mask) (f : TForm) : Act Unit := do
  let t ← tm
  kDst f.d (op (t.kSrc f.a) (t.kSrc f.b))

/-- km.not. -/
def kmNot (f : TForm) : Act Unit := do
  let t ← tm
  kDst f.d (lanesMask t.lanes &&& ~~~ t.kSrc f.a)

/-- The mask km.pop and km.first look at. -/
def Team.kSeen (t : Team) (f : TForm) : Mask :=
  if f.mod = 1 then t.kSrc f.a &&& t.exm else t.kSrc f.a

/-- km.pop. -/
def kmPop (f : TForm) : Act Unit := do
  let t ← tm
  swrite f.d (BitVec.ofNat 64 (laneCount 1024 (t.kSeen f)))

/-- km.first. -/
def kmFirst (f : TForm) : Act Unit := do
  let t ← tm
  swrite f.d (match lanesIn 1024 (t.kSeen f) with
    | l :: _ => BitVec.ofNat 64 l
    | [] => BitVec.allOnes 64)

/-- km.ins of a mask word. -/
def kmInsert (d a : Reg) (word : Nat) : Act Unit := do
  let x ← sread a
  let t ← tm
  if word < 32 then kDst d (setMaskWord (t.kSrc d) word (x.extractLsb' 0 32))
/-- km.ins with a register. -/
def kmInsT (f : TForm) : Act Unit := do
  usePoison f.a
  let w ← sread f.b
  kmInsert f.d f.a w.toNat

/-- km.ext of a mask word, or of the summary. -/
def kmExtract (d a : Reg) (word : Nat) : Act Unit := do
  let t ← tm
  let m := t.kSrc a
  swrite d (if word < 32 then (maskWord m word).setWidth 64 else if word = 32 then (summary m).setWidth 64 else 0)
/-- km.ext with a register, which may be poisoned (R96). -/
def kmExtT (f : TForm) : Act Unit := do
  let t ← tm
  kmExtract f.d f.a (t.scalar ((← get).teamsOf t) f.b).toNat

/-- km.exm (R95). -/
def kmExm (f : TForm) : Act Unit := do
  let t ← tm
  let src := t.kSrc f.a
  kDst f.d t.exm
  if f.mod = 1 then modTm fun t => t.setExm (t.exm &&& src)
  else modTm fun t => t.setExm (src &&& ~~~ (t.exited ||| t.stacked))

/-! ## The meanings -/

/-- ctl.br (R86). -/
def execCtlBr (f : BForm) (s : State) : Host.Outcome State Fault Refusal := runCore (ctlBr f) s
/-- ctl.jmp (R86). -/
def execCtlJmp (f : BForm) (s : State) : Host.Outcome State Fault Refusal := runCore (ctlJmp f) s
/-- ctl.call (R86). -/
def execCtlCall (f : BForm) (s : State) : Host.Outcome State Fault Refusal := runCore (ctlCall f) s
/-- ctl.ret (R86). -/
def execCtlRet (f : TForm) (s : State) : Host.Outcome State Fault Refusal := runCore (jumpBack f.a) s
/-- ctl.brv (R87). The LANE of its CSTACK record is 0, the model's choice (log 20). -/
def execCtlBrv (f : BForm) (s : State) : Host.Outcome State Fault Refusal := runCore (ctlBrv f) s
/-- ctl.join (R88). The LANE of its CSTACK record is 0, the model's choice (log 20). -/
def execCtlJoin (_ : TForm) (s : State) : Host.Outcome State Fault Refusal := runCore (ctlJoin) s
/-- ctl.callv (R89). -/
def execCtlCallv (f : TForm) (s : State) : Host.Outcome State Fault Refusal := runCore (ctlCallv f) s
/-- ctl.retq (R91). -/
def execCtlRetq (f : TForm) (s : State) : Host.Outcome State Fault Refusal := runCore (ctlRetq f) s
/-- ctl.exit (R93). -/
def execCtlExit (f : TForm) (s : State) : Host.Outcome State Fault Refusal := runCore (ctlExit f) s
/-- km.set (R94). -/
def execKmSetT (f : TForm) (s : State) : Host.Outcome State Fault Refusal := runCore (kmSetT f) s
/-- km.set with an immediate (R94). -/
def execKmSetI (f : IForm) (s : State) : Host.Outcome State Fault Refusal := runCore (kmSetI f) s
/-- km.and (R94). -/
def execKmAnd (f : TForm) (s : State) : Host.Outcome State Fault Refusal := runCore (kmBin (fun a b => a &&& b) f) s
/-- km.or (R94). -/
def execKmOr (f : TForm) (s : State) : Host.Outcome State Fault Refusal := runCore (kmBin (fun a b => a ||| b) f) s
/-- km.andn (R94). -/
def execKmAndn (f : TForm) (s : State) : Host.Outcome State Fault Refusal := runCore (kmBin (fun a b => a &&& ~~~ b) f) s
/-- km.xor (R94). -/
def execKmXor (f : TForm) (s : State) : Host.Outcome State Fault Refusal := runCore (kmBin (fun a b => a ^^^ b) f) s
/-- km.not (R94). -/
def execKmNot (f : TForm) (s : State) : Host.Outcome State Fault Refusal := runCore (kmNot f) s
/-- km.pop (R94). -/
def execKmPop (f : TForm) (s : State) : Host.Outcome State Fault Refusal := runCore (kmPop f) s
/-- km.first (R94). -/
def execKmFirst (f : TForm) (s : State) : Host.Outcome State Fault Refusal := runCore (kmFirst f) s
/-- km.ins (R94). -/
def execKmInsT (f : TForm) (s : State) : Host.Outcome State Fault Refusal := runCore (kmInsT f) s
/-- km.ins with an immediate (R94). -/
def execKmInsI (f : IForm) (s : State) : Host.Outcome State Fault Refusal := runCore (kmInsert f.d f.a f.imm.toNat) s
/-- km.ext (R94). -/
def execKmExtT (f : TForm) (s : State) : Host.Outcome State Fault Refusal := runCore (kmExtT f) s
/-- km.ext with an immediate (R94). -/
def execKmExtI (f : IForm) (s : State) : Host.Outcome State Fault Refusal := runCore (kmExtract f.d f.a f.imm.toNat) s
/-- km.exm (R95). -/
def execKmExm (f : TForm) (s : State) : Host.Outcome State Fault Refusal := runCore (kmExm f) s

end Sys2Proof.Machine
end

