-- ==== Sys2Proof/Machine/Decimal.lean ====
section
/-! DEFINITION. Decimal64 in BID (R126, R127) and its arithmetic (R149, R153 to R155): exact
integers times powers of ten, rounded once to 16 digits. -/

namespace Sys2Proof.Dec

open Sys2Proof.Num (Rm Flags FVal inv divz ovf unf inx roundUp)

/-- A decimal64 value: a NaN, an infinity, or (-1)^neg * c * 10^q (R126). -/
inductive DVal
  | nan (signalling : Bool)
  | inf (neg : Bool)
  | fin (neg : Bool) (c : Nat) (q : Int)
  deriving DecidableEq, Repr

/-- Reads a decimal64 encoding (R126). A non-canonical coefficient reads as zero. -/
def read (w : Nat) : DVal :=
  let neg := w / 2 ^ 63 % 2 == 1
  let top := w / 2 ^ 61 % 4
  let canon (c : Nat) : Nat := if 10 ^ 16 ≤ c then 0 else c
  if top ≠ 3 then .fin neg (canon (w % 2 ^ 53)) ((w / 2 ^ 53 % 1024 : Nat) - 398)
  else if w / 2 ^ 59 % 4 ≠ 3 then
    .fin neg (canon (2 ^ 53 + w % 2 ^ 51)) ((w / 2 ^ 51 % 1024 : Nat) - 398)
  else if w / 2 ^ 58 % 32 = 0b11110 then .inf neg
  else .nan (w / 2 ^ 57 % 2 == 1)

/-- The canonical NaN (R119, R126). -/
def nanBits : Nat := 0x7C00000000000000
/-- The bits of an infinity (R126). -/
def infBits (neg : Bool) : Nat := if neg then 0xF800000000000000 else 0x7800000000000000
/-- The canonical bits of a finite value whose exponent and coefficient are in range. -/
def pack (neg : Bool) (c : Nat) (q : Int) : Nat :=
  let s := if neg then 2 ^ 63 else 0
  let b := (q + 398).toNat
  if c < 2 ^ 53 then s + b * 2 ^ 53 + c
  else s + 3 * 2 ^ 61 + b * 2 ^ 51 + (c - 2 ^ 53)

/-- The number of decimal digits of `n`; 0 for 0. -/
def digits (n : Nat) : Nat :=
  if n = 0 then 0
  else
    let d := Nat.log2 n * 1233 / 4096
    if 10 ^ (d + 1) ≤ n then d + 2 else if 10 ^ d ≤ n then d + 1 else d

/-- Divides a coefficient by `10^k` in a rounding mode: the result and whether anything was
lost. -/
def dropDigits (rm : Rm) (neg : Bool) (c k : Nat) (sticky : Bool) : Nat × Bool :=
  let q := c / 10 ^ k
  let r := c % 10 ^ k
  let o := compare (2 * r) (10 ^ k)
  let half := if o == .eq && sticky then .gt else o
  let rest := r != 0 || sticky
  (if roundUp rm neg (q % 2 == 1) half rest then q + 1 else q, rest)

/-- Strips up to `k` trailing zeros: the coefficient and how many were stripped. -/
def strip : Nat → Nat → Nat → Nat × Nat
  | 0, c, n => (c, n)
  | k + 1, c, n => if c % 10 = 0 then strip k (c / 10) (n + 1) else (c, n)

/-- The default result of an overflow (R129). -/
def overflow (rm : Rm) (neg : Bool) : Nat :=
  let toInf := match rm with
    | .rne | .rna => true
    | .rtz => false
    | .rup => !neg
    | .rdn => neg
  if toInf then infBits neg else pack neg (10 ^ 16 - 1) 369

/-- An exponent clamped to the format's range. -/
def clampQ (q : Int) : Int := max (-398) (min 369 q)

/-- Delivers `c * 10^q` (and a little more when `sticky`) with a preferred exponent (R126, R127,
R129, R153): exact results at the representable exponent nearest the preferred one, inexact ones
with 16 digits, tiny inexact ones at exponent -398. -/
def deliver (rm : Rm) (neg : Bool) (c : Nat) (q : Int) (sticky : Bool) (pref : Int) : Nat × Flags :=
  if c = 0 && !sticky then (pack neg 0 (clampQ pref), 0)
  else
    let n := digits c
    let s0 := strip n c 0
    let core := s0.1
    let coreQ := q + s0.2
    if !sticky && digits core ≤ 16 && -398 ≤ coreQ && coreQ + digits core ≤ 369 + 16 then
      -- exact: core * 10^coreQ; take the exponent nearest pref in the range it can have
      let lo := max (-398) (coreQ - (16 - digits core : Nat))
      let hi := min 369 coreQ
      let at_ := max lo (min hi pref)
      (pack neg (core * 10 ^ (coreQ - at_).toNat) at_, 0)
    else
      let k := n - 16
      let r := dropDigits rm neg c k sticky
      let c1 := if r.1 = 10 ^ 16 then 10 ^ 15 else r.1
      let q1 := q + k + (if r.1 = 10 ^ 16 then 1 else 0)
      let adj : Int := (digits c1 : Int) - 1 + q1
      if adj < -383 then
        let k2 := (-398 - q).toNat
        let r2 := dropDigits rm neg c k2 sticky
        (pack neg r2.1 (-398), if r2.2 then unf ||| inx else 0)
      else if 384 < adj then (overflow rm neg, ovf ||| inx)
      else
        -- inexact: 16 digits already (n ≥ 16 whenever anything is lost), or a long exact value
        (pack neg c1 q1, if r.2 then inx else 0)

/-- Whether a value is a signalling NaN. -/
def DVal.isSnan : DVal → Bool
  | .nan s => s
  | _ => false
/-- Whether a value is a NaN. -/
def DVal.isNan : DVal → Bool
  | .nan _ => true
  | _ => false
/-- The negated value. -/
def DVal.negate : DVal → DVal
  | .nan s => .nan s
  | .inf n => .inf (!n)
  | .fin n c q => .fin (!n) c q

/-- The flags two operands raise by being signalling NaNs. -/
def nanFlags (x y : DVal) : Flags := if x.isSnan || y.isSnan then inv else 0

/-- The signed coefficient at exponent `g`, `g` at most the value's. -/
def units (neg : Bool) (c : Nat) (q g : Int) : Int :=
  let m : Int := (c * 10 ^ (q - g).toNat : Nat)
  if neg then -m else m

/-- The exact sum, as sign, coefficient, exponent, or a special (R129, R153). -/
def addExact (rm : Rm) (x y : DVal) : DVal × Flags :=
  match x, y with
  | .nan _, _ => (.nan false, nanFlags x y)
  | _, .nan _ => (.nan false, nanFlags x y)
  | .inf a, .inf b => if a = b then (.inf a, 0) else (.nan false, inv)
  | .inf a, .fin _ _ _ => (.inf a, 0)
  | .fin _ _ _, .inf b => (.inf b, 0)
  | .fin a c p, .fin b d r =>
    let g := min p r
    let s := units a c p g + units b d r g
    if s = 0 then (.fin (if a = b && c = 0 && d = 0 then a else rm == .rdn) 0 g, 0)
    else (.fin (s < 0) s.natAbs g, 0)

/-- The exact product (R129). -/
def mulExact (x y : DVal) : DVal × Flags :=
  match x, y with
  | .nan _, _ => (.nan false, nanFlags x y)
  | _, .nan _ => (.nan false, nanFlags x y)
  | .inf a, .inf b => (.inf (a != b), 0)
  | .inf a, .fin b c _ => if c = 0 then (.nan false, inv) else (.inf (a != b), 0)
  | .fin a c _, .inf b => if c = 0 then (.nan false, inv) else (.inf (a != b), 0)
  | .fin a c p, .fin b d r => (.fin (a != b) (c * d) (p + r), 0)

/-- The quantum exponent of a value; 0 for a special. -/
def DVal.quantum : DVal → Int
  | .fin _ _ q => q
  | _ => 0

/-- An exact value delivered in decimal64. -/
def finish (rm : Rm) (v : DVal × Flags) (pref : Int) : Nat × Flags :=
  match v.1 with
  | .nan s => (nanBits, v.2 ||| (if s then inv else 0))
  | .inf n => (infBits n, v.2)
  | .fin n c q =>
    let r := deliver rm n c q false pref
    (r.1, v.2 ||| r.2)

/-- dc.add (R153). -/
def add (rm : Rm) (x y : DVal) : Nat × Flags :=
  finish rm (addExact rm x y) (min x.quantum y.quantum)
/-- dc.mul (R153). -/
def mul (rm : Rm) (x y : DVal) : Nat × Flags :=
  finish rm (mulExact x y) (x.quantum + y.quantum)
/-- dc.fma (R153). -/
def fma (rm : Rm) (x y z : DVal) : Nat × Flags :=
  let p := mulExact x y
  let s := addExact rm p.1 z
  finish rm (s.1, p.2 ||| s.2) (min (x.quantum + y.quantum) z.quantum)

/-- dc.div (R153). A finite value over an infinity is a zero at the least exponent. DEDUCED
(log 8): an infinity has no quantum exponent for the preferred one. -/
def div (rm : Rm) (x y : DVal) : Nat × Flags :=
  match x, y with
  | .nan _, _ => (nanBits, nanFlags x y)
  | _, .nan _ => (nanBits, nanFlags x y)
  | .inf _, .inf _ => (nanBits, inv)
  | .inf a, .fin b _ _ => (infBits (a != b), 0)
  | .fin a _ _, .inf b => (pack (a != b) 0 (-398), 0)
  | .fin a c p, .fin b d r =>
    if d = 0 then if c = 0 then (nanBits, inv) else (infBits (a != b), divz)
    else
      let k : Nat := 40
      let n := c * 10 ^ k
      deliver rm (a != b) (n / d) (p - r - k) (n % d != 0) (p - r)

/-- dc.quant (R154). -/
def quantize (rm : Rm) (x y : DVal) : Nat × Flags :=
  match x, y with
  | .nan _, _ => (nanBits, nanFlags x y)
  | _, .nan _ => (nanBits, nanFlags x y)
  | .inf a, .inf _ => (infBits a, 0)
  | .inf _, _ => (nanBits, inv)
  | _, .inf _ => (nanBits, inv)
  | .fin a c p, .fin _ _ r =>
    if r ≤ p then
      let c' := c * 10 ^ (p - r).toNat
      if 10 ^ 16 ≤ c' then (nanBits, inv) else (pack a c' r, 0)
    else
      let d := dropDigits rm a c (r - p).toNat false
      if 10 ^ 16 ≤ d.1 then (nanBits, inv) else (pack a d.1 r, if d.2 then inx else 0)

/-- dc.rnd (R149): the quantum exponent of the result is max(q, 0). -/
def integral (rm : Rm) (exact : Bool) (x : DVal) : Nat × Flags :=
  match x with
  | .nan s => (nanBits, if s then inv else 0)
  | .inf n => (infBits n, 0)
  | .fin n c q =>
    if 0 ≤ q then (pack n c q, 0)
    else
      let d := dropDigits rm n c (-q).toNat false
      (pack n d.1 0, if exact && d.2 then inx else 0)

/-- Compares two numbers by value (R147). -/
def cmpVal (x y : DVal) : Ordering :=
  match x, y with
  | .inf a, .inf b => if a = b then .eq else if a then .lt else .gt
  | .inf a, _ => if a then .lt else .gt
  | _, .inf b => if b then .gt else .lt
  | .fin a c p, .fin b d r => compare (units a c p (min p r)) (units b d r (min p r))
  | _, _ => .eq

/-- Condition `c` of R147 on two decimals: the result and the flags. -/
def condition (c : Nat) (x y : DVal) : Bool × Flags :=
  let un := x.isNan || y.isNan
  let o := cmpVal x y
  let quiet := nanFlags x y
  let loud : Flags := if un then inv else 0
  match c with
  | 0 => (!un && o == .eq, quiet)
  | 1 => (un || o != .eq, quiet)
  | 2 => (!un && o == .lt, loud)
  | 3 => (!un && o != .gt, loud)
  | 4 => (!un && o == .gt, loud)
  | 5 => (!un && o != .lt, loud)
  | 6 => (un, quiet)
  | _ => (!un, quiet)

/-- An integer to decimal64 (R155). -/
def ofInteger (rm : Rm) (x : Int) : Nat × Flags :=
  deliver rm (x < 0) x.natAbs 0 false 0

/-- FP64 to decimal64 (R155): the exact binary value. -/
def ofBinary (rm : Rm) (v : FVal) : Nat × Flags :=
  match v with
  | .nan s => (nanBits, if s then inv else 0)
  | .inf n => (infBits n, 0)
  | .fin n m e =>
    if 0 ≤ e then deliver rm n (m * 2 ^ e.toNat) 0 false 0
    else deliver rm n (m * 5 ^ (-e).toNat) e false 0

/-- Decimal64 to FP64, correctly rounded (R155). -/
def toBinary (rm : Rm) (x : DVal) : Nat × Flags :=
  match x with
  | .nan s => (Num.f64.nanBits, if s then inv else 0)
  | .inf n => (Num.f64.infBits n, 0)
  | .fin n c q =>
    if 0 ≤ q then Num.f64.round rm false false n (c * 10 ^ q.toNat) 0 false
    else
      let d := 10 ^ (-q).toNat
      let k := 60 + Num.bitlen d
      Num.f64.round rm false false n (c * 2 ^ k / d) (-(k : Int)) (c * 2 ^ k % d != 0)

/-- Decimal64 to an integer (R155, R137). -/
def toInteger (rm : Rm) (lo hi : Int) (x : DVal) : Int × Flags :=
  match x with
  | .nan _ => (0, inv)
  | .inf n => (if n then lo else hi, inv)
  | .fin n c q =>
    let m := if 0 ≤ q then c * 10 ^ q.toNat else (dropDigits rm n c (-q).toNat false).1
    let v : Int := if n then -(m : Int) else m
    if v < lo then (lo, inv) else if hi < v then (hi, inv) else (v, 0)

end Sys2Proof.Dec
end

