-- ==== Sys2Proof/Machine/Flags.lean ====
section
/-! DEFINITION. Flags, rounding modes and traps of the fp and dc instructions and of the floating
folds (R131 to R136, R142), and the writing of a comparison's lanes (R104, R147). -/

namespace Sys2Proof.Machine

open Sys2Proof.Num (Rm)

/-- FPC.RM (R131). -/
def Team.rm (t : Team) : Rm :=
  match t.fpc.toNat % 4 with
  | 0 => .rne | 1 => .rtz | 2 => .rup | _ => .rdn
/-- FPC.FTZ. -/
def Team.ftz (t : Team) : Bool := t.fpc.getLsbD 3
/-- FPC.DAZ. -/
def Team.daz (t : Team) : Bool := t.fpc.getLsbD 2
/-- DCC.DRM (R133). -/
def Team.drm (t : Team) : Rm :=
  match t.dcc.toNat % 8 with
  | 0 => .rne | 1 => .rna | 2 => .rtz | 3 => .rup | _ => .rdn
/-- TEN.BEN, or TEN.DEN for dc (R134). -/
def Team.enables (t : Team) (dec : Bool) : BitVec 5 :=
  BitVec.ofNat 5 (if dec then t.desc.ten / 256 else t.desc.ten)

/-- The lowest of a set of exceptions, as a cause (R135). -/
def lowestCause (e : BitVec 5) : Cause :=
  if e.getLsbD 0 then .fpinv else if e.getLsbD 1 then .fpdivz else if e.getLsbD 2 then .fpovf
  else if e.getLsbD 3 then .fpunf else .fpinx

/-- What a lane of an instruction comes to. -/
inductive LaneOut
  | trap (r : Rec)
  | done (rs : List Result) (flags : BitVec 5)
  deriving DecidableEq, Repr

/-- A lane's results, or its trap when an exception it raised is enabled (R142). -/
def laneOut (t : Team) (lane : Nat) (dec : Bool) (rs : List Result) (flags : BitVec 5) : LaneOut :=
  let en := flags &&& t.enables dec
  if en = 0 then .done rs flags
  else .trap { t.laneRec lane (lowestCause en) flags.toNat with decimal := dec }

/-- End an instruction whose lanes trap singly (R135): results and flags of the others, then the
records of those that trap. -/
def settleLanes (la : BitVec 4) (dec : Bool) (outs : List LaneOut) : Act Unit := do
  let rs := outs.flatMap fun o => match o with | .done rs _ => rs | .trap _ => []
  let fl := outs.foldl (fun a o => match o with | .done _ f => a ||| f | .trap _ => a) (0 : BitVec 5)
  deliverResults la rs (if dec then 0 else fl) (if dec then fl else 0)
    (outs.filterMap fun o => match o with | .trap r => some r | _ => none)

/-- Run an instruction lane by lane from the registers as they stand, POISON first (R99, R357). -/
def runLanes (f : TForm) (dec : Bool) (uses : List (Reg × Nat)) (g : Team → Nat → Nat → List Result × BitVec 5) :
    Act Unit := do
  let t ← tm
  let teams := (← get).teamsOf t
  settleLanes f.la dec ((t.lanesOf f.km.val).map fun l =>
    match t.firstPoison l uses with
    | some (r, o) => .trap (t.poisonRec l r o)
    | none => let x := g t teams l; laneOut t l dec x.1 x.2)

/-- What a lane of a comparison comes to. -/
inductive CondOut
  | trap (r : Rec)
  | bit (b : Bool) (flags : BitVec 5)
  deriving DecidableEq, Repr

/-- Write a comparison's lanes (R104, R147): into K under `keep`, a lane that traps leaving its
bit, or 1 and 0 into V. -/
def writeCond (f : TForm) (dec : Bool) (outs : List (Nat × CondOut)) : Act Unit := do
  let good := outs.filterMap fun o => match o.2 with | .bit b _ => some (o.1, b) | _ => none
  let bad := outs.filterMap fun o => match o.2 with | .trap _ => some o.1 | _ => none
  let yes := maskOf ((good.filter (·.2)).map (·.1))
  match f.d with
  | .k n =>
    let kept (old : Mask) : Mask := if f.mod.getLsbD 3 then old &&& ~~~ maskOf (good.map (·.1)) else old &&& maskOf bad
    modTm fun t => t.setK n.val (kept (t.getK n.val) ||| yes)
  | .v n => modTm fun t => good.foldl (fun t p => t.setV p.1 n.val (if p.2 then 1 else 0)) t
  | _ => pure ()
  let fl := outs.foldl (fun a o => match o.2 with | .bit _ f => a ||| f | _ => a) (0 : BitVec 5)
  modTm fun t => if dec then { t with dcf := t.dcf ||| fl } else { t with fpf := t.fpf ||| fl }
  finishLanes (outs.filterMap fun o => match o.2 with | .trap r => some r | _ => none)

/-- Run a comparison lane by lane. -/
def runCond (f : TForm) (dec : Bool) (uses : List (Reg × Nat)) (g : Team → Nat → Nat → Bool × BitVec 5) : Act Unit := do
  let t ← tm
  let teams := (← get).teamsOf t
  writeCond f dec ((t.lanesOf f.km.val).map fun l =>
    (l, match t.firstPoison l uses with
      | some (r, o) => .trap (t.poisonRec l r o)
      | none =>
        let x := g t teams l
        let en := x.2 &&& t.enables dec
        if en = 0 then .bit x.1 x.2
        else .trap { t.laneRec l (lowestCause en) x.2.toNat with decimal := dec }))

end Sys2Proof.Machine
end

