-- ==== Sys2Proof/Machine/Lane.lean ====
section
/-! DEFINITION. The ln instructions (R97 to R107). -/

namespace Sys2Proof.Machine

/-! ## Operands (R98) -/

/-- A source of a lane at a type's width. -/
def lnSrc (ty : Ty) (t : Team) (teams lane : Nat) (r : Reg) : Nat :=
  lowBits (tyWidth ty) (t.lsrc teams lane (tyWide ty) r)
/-- A source declared 32-bit. -/
def lnSrc32 (t : Team) (teams lane : Nat) (r : Reg) : Nat := lowBits 32 (t.lsrc teams lane false r)
/-- The registers a source of a type takes. -/
def useOf (ty : Ty) (r : Reg) : Reg × Nat := (r, srcRegs (tyWide ty) r)
/-- A result as its register takes it. -/
def lnExt (ty : Ty) (x : Nat) : Word := extendTo (tySigned ty) (tyWidth ty) x

/-- Run an ln instruction: every source of every lane is read first (R99). -/
def lnWords (km : Fin 16) (ty : Ty) (d : Reg) (uses : List (Reg × Nat)) (g : Team → Nat → Nat → Word) : Act Unit := do
  let t ← tm
  let teams := (← get).teamsOf t
  let lanes := t.lanesOf km.val
  let good := lanes.filter fun l => (t.firstPoison l uses).isNone
  modTm fun _ => good.foldl (fun u l => u.ldst l (tyWide ty) d (g t teams l)) t
  finishLanes (lanes.filterMap fun l => (t.firstPoison l uses).map fun p => t.poisonRec l p.1 p.2)

/-- The same, each lane's result extended as its register takes it (R98). -/
def lnRun (km : Fin 16) (ty : Ty) (d : Reg) (uses : List (Reg × Nat)) (g : Team → Nat → Nat → Nat) : Act Unit :=
  lnWords km ty d uses fun t n l => lnExt ty (g t n l)

/-- An instruction of one source. -/
def lnUn (f : TForm) (op : Nat → Nat) : Act Unit :=
  lnRun f.km f.ty f.d [useOf f.ty f.a] fun t n l => op (lnSrc f.ty t n l f.a)
/-- An instruction of two sources. -/
def lnBin (f : TForm) (op : Nat → Nat → Nat) : Act Unit :=
  lnRun f.km f.ty f.d [useOf f.ty f.a, useOf f.ty f.b] fun t n l => op (lnSrc f.ty t n l f.a) (lnSrc f.ty t n l f.b)
/-- The same with an immediate. -/
def lnImm (f : IForm) (op : Nat → Nat → Nat) : Act Unit :=
  lnRun f.km f.ty f.d [useOf f.ty f.a] fun t n l => op (lnSrc f.ty t n l f.a) (lowBits (tyWidth f.ty) (immOf f))
/-- An instruction with a count declared 32-bit. -/
def lnShift (f : TForm) (op : Nat → Nat → Nat) : Act Unit :=
  lnRun f.km f.ty f.d [useOf f.ty f.a, (f.b, 1)] fun t n l => op (lnSrc f.ty t n l f.a) (lnSrc32 t n l f.b)
/-- The same with an immediate count. -/
def lnShiftImm (f : IForm) (op : Nat → Nat → Nat) : Act Unit :=
  lnRun f.km f.ty f.d [useOf f.ty f.a] fun t n l => op (lnSrc f.ty t n l f.a) (lowBits 32 (immOf f))

/-! ## Arithmetic (R100, R101) -/

/-- Least and greatest value of a type. -/
def tyLo (ty : Ty) : Int := if tySigned ty then -(2 ^ (tyWidth ty - 1) : Int) else 0
/-- Greatest value of a type. -/
def tyHi (ty : Ty) : Int := if tySigned ty then (2 ^ (tyWidth ty - 1) : Int) - 1 else (2 ^ tyWidth ty : Int) - 1
/-- An exact integer clamped to a type. -/
def satTo (ty : Ty) (x : Int) : Nat := ofSigned (tyWidth ty) (max (tyLo ty) (min (tyHi ty) x))
/-- An exact integer wrapped to a type, or clamped. -/
def wrapOrSat (ty : Ty) (sat : Bool) (x : Int) : Nat := if sat then satTo ty x else ofSigned (tyWidth ty) x

/-- ln.add. -/
def lnAdd (ty : Ty) (sat : Bool) (a b : Nat) : Nat := wrapOrSat ty sat (readAs ty a + readAs ty b)
/-- ln.sub. -/
def lnSub (ty : Ty) (sat : Bool) (a b : Nat) : Nat := wrapOrSat ty sat (readAs ty a - readAs ty b)
/-- ln.mul by MOD: product, clamped product, quotient, remainder; 0 for a zero divisor. -/
def lnMul (ty : Ty) (mod a b : Nat) : Nat :=
  match mod with
  | 0 => iMul ty a b
  | 1 => satTo ty (readAs ty a * readAs ty b)
  | 2 => if b = 0 then 0 else iQuot ty a b
  | _ => if b = 0 then 0 else iRem ty a b
/-- ln.rot. -/
def lnRot (ty : Ty) (a s : Nat) : Nat :=
  let w := tyWidth ty
  let k := s % w
  Nat.lor (a * 2 ^ k % 2 ^ w) (a / 2 ^ (w - k))
/-- ln.abs. -/
def lnAbs (ty : Ty) (sat : Bool) (a : Nat) : Nat := wrapOrSat ty sat (readAs ty a).natAbs
/-- ln.neg. -/
def lnNeg (ty : Ty) (sat : Bool) (a : Nat) : Nat := wrapOrSat ty sat (-(readAs ty a))
/-- ln.not. -/
def lnNot (ty : Ty) (a : Nat) : Nat := 2 ^ tyWidth ty - 1 - a

/-- ln.mad. -/
def lnMad (f : TForm) : Act Unit :=
  lnRun f.km f.ty f.d [useOf f.ty f.a, useOf f.ty f.b, useOf f.ty f.c] fun t n l =>
    let v (r : Reg) : Int := readAs f.ty (lnSrc f.ty t n l r)
    wrapOrSat f.ty (f.mod.getLsbD 0) (v f.a * v f.b + v f.c)

/-! ## Carry chains (R102) -/

/-- ln.addc and ln.subb. -/
def lnCarry (f : TForm) (sub : Bool) : Act Unit := do
  let t ← tm
  let teams := (← get).teamsOf t
  let w := tyWidth f.ty
  let uses := [useOf f.ty f.a, useOf f.ty f.b]
  let lanes := t.lanesOf f.km.val
  let good := lanes.filter fun l => (t.firstPoison l uses).isNone
  let ci (l : Nat) : Nat := match f.c with | .k n => if (t.getK n.val).getLsbD l then 1 else 0 | _ => 0
  let exact (l : Nat) : Int :=
    let a : Int := lnSrc f.ty t teams l f.a
    let b : Int := lnSrc f.ty t teams l f.b
    if sub then a - b - ci l else a + b + ci l
  let co := good.filter fun l => decide (exact l < 0) || decide ((2 ^ w : Int) ≤ exact l)
  let kn := f.mod.toNat % 16
  modTm fun _ =>
    let u := good.foldl (fun u l => u.ldst l (tyWide f.ty) f.d (lnExt f.ty (ofSigned w (exact l)))) t
    u.setK kn ((t.getK kn &&& ~~~ maskOf good) ||| maskOf co)
  finishLanes (lanes.filterMap fun l => (t.firstPoison l uses).map fun p => t.poisonRec l p.1 p.2)

/-! ## Moves, compare, select (R103 to R105) -/

/-- ln.movi. -/
def lnMovi (f : IForm) : Act Unit := lnRun f.km f.ty f.d [] fun _ _ _ => lowBits (tyWidth f.ty) (immOf f)

/-- ln.movs: the index first, then the register it names. -/
def lnMovs (f : TForm) : Act Unit := do
  let t ← tm
  let teams := (← get).teamsOf t
  let base := match f.a with | .v n => n.val | _ => 0
  let step := if tyWide f.ty then 2 else 1
  let at_ (l : Nat) : Nat := base + lnSrc32 t teams l f.b * step
  let there (l : Nat) : Bool := at_ l + step ≤ t.desc.vregs
  let bad (l : Nat) : Option Rec :=
    match t.lpoison l 1 f.b with
    | some (r, o) => some (t.poisonRec l r o)
    | none =>
      if there l then
        (t.lpoison l step (Reg.ofByte (BitVec.ofNat 8 (at_ l)))).map fun p => t.poisonRec l p.1 p.2
      else none
  let lanes := t.lanesOf f.km.val
  let value (l : Nat) : Word :=
    if !there l then 0 else if tyWide f.ty then t.getPair l (at_ l) else (t.getV l (at_ l)).setWidth 64
  modTm fun _ => (lanes.filter fun l => (bad l).isNone).foldl (fun u l =>
    u.ldst l (tyWide f.ty) f.d (lnExt f.ty (lowBits (tyWidth f.ty) (value l)))) t
  finishLanes (lanes.filterMap bad)

/-- ln.cmp (R104). -/
def lnCmp (f : TForm) : Act Unit :=
  runCond f false [useOf f.ty f.a, useOf f.ty f.b] fun t n l =>
    (iCond f.ty (f.mod.toNat % 8) (lnSrc f.ty t n l f.a) (lnSrc f.ty t n l f.b), 0)

/-- ln.sel (R105). -/
def lnSel (f : TForm) : Act Unit :=
  let cuse := match f.c with | .v _ => [(f.c, 1)] | .s _ => [(f.c, 1)] | _ => []
  lnRun f.km f.ty f.d ([useOf f.ty f.a, useOf f.ty f.b] ++ cuse) fun t n l =>
    let yes := match f.c with
      | .k k => (t.getK k.val).getLsbD l
      | .v v => t.getV l v.val != 0
      | .s s => t.getS s.val != 0
      | _ => false
    lnSrc f.ty t n l (if yes then f.a else f.b)

/-! ## Bit fields, bytes, widths (R106, R107) -/

/-- ln.bfx. -/
def bitExtract (ty : Ty) (sign : Bool) (a p n : Nat) : Nat :=
  let w := tyWidth ty
  if n = 0 || w ≤ p then 0
  else
    let m := min n (w - p)
    let f := a / 2 ^ p % 2 ^ m
    if sign then ofSigned w (toSigned m f) else f
/-- ln.bfi where it replaces bits. -/
def bitInsert (ty : Ty) (d a p n : Nat) : Nat :=
  let m := min n (tyWidth ty - p)
  d - (d / 2 ^ p % 2 ^ m) * 2 ^ p + a % 2 ^ m * 2 ^ p
/-- ln.perm. -/
def bytePermute (ty : Ty) (a b c : Nat) : Nat :=
  let n := tyWidth ty / 8
  let byte (x i : Nat) : Nat := x / 256 ^ i % 256
  let pick (i : Nat) : Nat :=
    let s := byte c i
    if 128 ≤ s then 0
    else
      let j := s % 16 % (2 * n)
      if j < n then byte a j else byte b (j - n)
  (List.range n).foldl (fun x i => x + pick i * 256 ^ i) 0

/-- ln.bfx. -/
def lnBfx (f : TForm) : Act Unit :=
  lnRun f.km f.ty f.d [useOf f.ty f.a, (f.b, 1), (f.c, 1)] fun t n l =>
    bitExtract f.ty (f.mod.getLsbD 0) (lnSrc f.ty t n l f.a) (lnSrc32 t n l f.b) (lnSrc32 t n l f.c)
/-- ln.bfi: D as it stands where no bit is replaced. -/
def lnBfi (f : TForm) : Act Unit :=
  lnWords f.km f.ty f.d [useOf f.ty f.d, useOf f.ty f.a, (f.b, 1), (f.c, 1)] fun t n l =>
    let p := lnSrc32 t n l f.b
    let m := lnSrc32 t n l f.c
    if m = 0 || tyWidth f.ty ≤ p then t.lsrc n l (tyWide f.ty) f.d
    else lnExt f.ty (bitInsert f.ty (lnSrc f.ty t n l f.d) (lnSrc f.ty t n l f.a) p m)
/-- ln.perm. -/
def lnPerm (f : TForm) : Act Unit :=
  lnRun f.km f.ty f.d [useOf f.ty f.a, useOf f.ty f.b, useOf f.ty f.c] fun t n l =>
    bytePermute f.ty (lnSrc f.ty t n l f.a) (lnSrc f.ty t n l f.b) (lnSrc f.ty t n l f.c)

/-- ln.cvt and ln.sat: from the type that MOD names (R107). -/
def lnConvert (f : TForm) (sat : Bool) : Act Unit :=
  let from_ := Ty.ofCode (f.mod.toNat % 8)
  lnRun f.km f.ty f.d [useOf from_ f.a] fun t n l => wrapOrSat f.ty sat (readAs from_ (lnSrc from_ t n l f.a))

/-! ## The meanings -/

/-- ln.mov (R103). -/
def execLnMov (f : TForm) (s : State) : Host.Outcome State Fault Refusal := runCore (lnUn f id) s
/-- ln.movi (R103). -/
def execLnMovi (f : IForm) (s : State) : Host.Outcome State Fault Refusal := runCore (lnMovi f) s
/-- ln.movs (R103). -/
def execLnMovs (f : TForm) (s : State) : Host.Outcome State Fault Refusal := runCore (lnMovs f) s
/-- ln.add (R100). -/
def execLnAddT (f : TForm) (s : State) : Host.Outcome State Fault Refusal := runCore (lnBin f (lnAdd f.ty (f.mod.getLsbD 0))) s
/-- ln.add with an immediate (R100). -/
def execLnAddI (f : IForm) (s : State) : Host.Outcome State Fault Refusal := runCore (lnImm f (lnAdd f.ty false)) s
/-- ln.sub (R100). -/
def execLnSubT (f : TForm) (s : State) : Host.Outcome State Fault Refusal := runCore (lnBin f (lnSub f.ty (f.mod.getLsbD 0))) s
/-- ln.sub with an immediate (R100). -/
def execLnSubI (f : IForm) (s : State) : Host.Outcome State Fault Refusal := runCore (lnImm f (lnSub f.ty false)) s
/-- ln.addc (R102). -/
def execLnAddc (f : TForm) (s : State) : Host.Outcome State Fault Refusal := runCore (lnCarry f false) s
/-- ln.subb (R102). -/
def execLnSubb (f : TForm) (s : State) : Host.Outcome State Fault Refusal := runCore (lnCarry f true) s
/-- ln.mul (R100, R101). -/
def execLnMulT (f : TForm) (s : State) : Host.Outcome State Fault Refusal := runCore (lnBin f (lnMul f.ty f.mod.toNat)) s
/-- ln.mul with an immediate (R100). -/
def execLnMulI (f : IForm) (s : State) : Host.Outcome State Fault Refusal := runCore (lnImm f (iMul f.ty)) s
/-- ln.mulh (R100). -/
def execLnMulh (f : TForm) (s : State) : Host.Outcome State Fault Refusal := runCore (lnBin f (iMulh f.ty)) s
/-- ln.mad (R100). -/
def execLnMad (f : TForm) (s : State) : Host.Outcome State Fault Refusal := runCore (lnMad f) s
/-- ln.and (R100). -/
def execLnAndT (f : TForm) (s : State) : Host.Outcome State Fault Refusal := runCore (lnBin f (iAnd f.ty)) s
/-- ln.and with an immediate (R100). -/
def execLnAndI (f : IForm) (s : State) : Host.Outcome State Fault Refusal := runCore (lnImm f (iAnd f.ty)) s
/-- ln.or (R100). -/
def execLnOrT (f : TForm) (s : State) : Host.Outcome State Fault Refusal := runCore (lnBin f (iOr f.ty)) s
/-- ln.or with an immediate (R100). -/
def execLnOrI (f : IForm) (s : State) : Host.Outcome State Fault Refusal := runCore (lnImm f (iOr f.ty)) s
/-- ln.xor (R100). -/
def execLnXorT (f : TForm) (s : State) : Host.Outcome State Fault Refusal := runCore (lnBin f (iXor f.ty)) s
/-- ln.xor with an immediate (R100). -/
def execLnXorI (f : IForm) (s : State) : Host.Outcome State Fault Refusal := runCore (lnImm f (iXor f.ty)) s
/-- ln.min (R100). -/
def execLnMinT (f : TForm) (s : State) : Host.Outcome State Fault Refusal := runCore (lnBin f (iMin f.ty)) s
/-- ln.min with an immediate (R100). -/
def execLnMinI (f : IForm) (s : State) : Host.Outcome State Fault Refusal := runCore (lnImm f (iMin f.ty)) s
/-- ln.max (R100). -/
def execLnMaxT (f : TForm) (s : State) : Host.Outcome State Fault Refusal := runCore (lnBin f (iMax f.ty)) s
/-- ln.max with an immediate (R100). -/
def execLnMaxI (f : IForm) (s : State) : Host.Outcome State Fault Refusal := runCore (lnImm f (iMax f.ty)) s
/-- ln.not (R100). -/
def execLnNot (f : TForm) (s : State) : Host.Outcome State Fault Refusal := runCore (lnUn f (lnNot f.ty)) s
/-- ln.shl (R100). -/
def execLnShlT (f : TForm) (s : State) : Host.Outcome State Fault Refusal := runCore (lnShift f (iShl f.ty)) s
/-- ln.shl with an immediate (R100). -/
def execLnShlI (f : IForm) (s : State) : Host.Outcome State Fault Refusal := runCore (lnShiftImm f (iShl f.ty)) s
/-- ln.shr (R100). -/
def execLnShrT (f : TForm) (s : State) : Host.Outcome State Fault Refusal := runCore (lnShift f (iShr f.ty)) s
/-- ln.shr with an immediate (R100). -/
def execLnShrI (f : IForm) (s : State) : Host.Outcome State Fault Refusal := runCore (lnShiftImm f (iShr f.ty)) s
/-- ln.sra (R100). -/
def execLnSraT (f : TForm) (s : State) : Host.Outcome State Fault Refusal := runCore (lnShift f (iSra f.ty)) s
/-- ln.sra with an immediate (R100). -/
def execLnSraI (f : IForm) (s : State) : Host.Outcome State Fault Refusal := runCore (lnShiftImm f (iSra f.ty)) s
/-- ln.rot (R100). -/
def execLnRotT (f : TForm) (s : State) : Host.Outcome State Fault Refusal := runCore (lnShift f (lnRot f.ty)) s
/-- ln.rot with an immediate (R100). -/
def execLnRotI (f : IForm) (s : State) : Host.Outcome State Fault Refusal := runCore (lnShiftImm f (lnRot f.ty)) s
/-- ln.abs (R100). -/
def execLnAbs (f : TForm) (s : State) : Host.Outcome State Fault Refusal := runCore (lnUn f (lnAbs f.ty (f.mod.getLsbD 0))) s
/-- ln.neg (R100). -/
def execLnNeg (f : TForm) (s : State) : Host.Outcome State Fault Refusal := runCore (lnUn f (lnNeg f.ty (f.mod.getLsbD 0))) s
/-- ln.cmp (R104). -/
def execLnCmp (f : TForm) (s : State) : Host.Outcome State Fault Refusal := runCore (lnCmp f) s
/-- ln.sel (R105). -/
def execLnSel (f : TForm) (s : State) : Host.Outcome State Fault Refusal := runCore (lnSel f) s
/-- ln.clz (R100). -/
def execLnClz (f : TForm) (s : State) : Host.Outcome State Fault Refusal := runCore (lnUn f (iClz f.ty)) s
/-- ln.popc (R100). -/
def execLnPopc (f : TForm) (s : State) : Host.Outcome State Fault Refusal := runCore (lnUn f (iPopc f.ty)) s
/-- ln.bfx (R106). -/
def execLnBfx (f : TForm) (s : State) : Host.Outcome State Fault Refusal := runCore (lnBfx f) s
/-- ln.bfi (R106). -/
def execLnBfi (f : TForm) (s : State) : Host.Outcome State Fault Refusal := runCore (lnBfi f) s
/-- ln.perm (R106). -/
def execLnPerm (f : TForm) (s : State) : Host.Outcome State Fault Refusal := runCore (lnPerm f) s
/-- ln.cvt (R107). -/
def execLnCvt (f : TForm) (s : State) : Host.Outcome State Fault Refusal := runCore (lnConvert f false) s
/-- ln.sat (R107). -/
def execLnSat (f : TForm) (s : State) : Host.Outcome State Fault Refusal := runCore (lnConvert f true) s

end Sys2Proof.Machine
end

