-- ==== Sys2Proof/Machine/Cross.lean ====
section
/-! DEFINITION. The xl instructions (R108 to R115). -/

namespace Sys2Proof.Machine

open Sys2Proof.Num (Fmt)

/-! ## Shuffles and broadcasts (R109, R110) -/

/-- One lane of a shuffle: the lane it reads, none where it is outside the team. -/
def xlMove (km : Fin 16) (ty : Ty) (d a : Reg) (uses : List (Reg × Nat)) (src : Team → Nat → Nat → Option Nat) : Act Unit := do
  let t ← tm
  let teams := (← get).teamsOf t
  let lanes := t.lanesOf km.val
  let from_ (l : Nat) : Nat := (src t teams l).getD l
  let bad (l : Nat) : Option Rec :=
    match t.firstPoison l uses with
    | some (r, o) => some (t.poisonRec l r o)
    | none => (t.lpoison (from_ l) (srcRegs (tyWide ty) a) a).map fun p => t.poisonRec l p.1 p.2
  modTm fun _ => (lanes.filter fun l => (bad l).isNone).foldl (fun u l =>
    u.ldst l (tyWide ty) d (lnExt ty (lnSrc ty t teams (from_ l) a))) t
  finishLanes (lanes.filterMap bad)

/-- The source lane of xl.shfl and xl.shfx, when it exists. -/
def shufLane (t : Team) (x : Bool) (mod lane b : Nat) : Option Nat :=
  let j : Int := if x then (Nat.xor lane b : Int)
    else match mod with
      | 0 => b
      | 1 => (lane : Int) - b
      | _ => lane + b
  if 0 ≤ j && j < t.lanes then some j.toNat else none

/-- xl.shfl and xl.shfx. -/
def xlShuffle (f : TForm) (x : Bool) : Act Unit :=
  xlMove f.km f.ty f.d f.a [(f.b, 1)] fun t n l => shufLane t x f.mod.toNat l (lnSrc32 t n l f.b)
/-- The same with an immediate. -/
def xlShuffleImm (f : IForm) (x : Bool) : Act Unit :=
  xlMove f.km f.ty f.d f.a [] fun t _ l => shufLane t x 0 l f.imm.toNat

/-- The lane a record of a folding instruction is charged to (R99). -/
def Team.chargeLane (t : Team) (km : Fin 16) : Nat := (t.lanesOf km.val).headD 0

/-- xl.bcast of lane `j` (R110). `uses` is the index operand. DEDUCED (log 22): with D = ZERO it is
lane-wise, as with a V destination, so each active lane's read of a poisoned register is recorded (R99);
a poisoned index of a broadcast into S is charged as the lane it names would be. -/
def xlBroadcast (km : Fin 16) (ty : Ty) (d a : Reg) (uses : List (Reg × Nat)) (j : Team → Nat → Nat) : Act Unit := do
  let t ← tm
  let teams := (← get).teamsOf t
  let lanes := t.lanesOf km.val
  let k := j t teams
  let reads : Option (Reg × Nat) :=
    match t.firstPoison 0 uses with
    | some p => some p
    | none => if k < t.lanes then t.lpoison k (srcRegs (tyWide ty) a) a else none
  let value := if k < t.lanes then lnExt ty (lnSrc ty t teams k a) else 0
  match d with
  | .s _ =>
    match reads with
    | some (r, o) => trap (t.poisonRec (t.chargeLane km) r o)
    | none => swrite d value
  | _ =>
    match reads with
    | some (r, o) => finishLanes (lanes.map fun l => t.poisonRec l r o)
    | none => modTm fun _ => lanes.foldl (fun u l => u.ldst l (tyWide ty) d value) t

/-- xl.bcast. -/
def xlBcastT (f : TForm) : Act Unit := xlBroadcast f.km f.ty f.d f.a [(f.b, 1)] fun t n => lnSrc32 t n 0 f.b
/-- xl.bcast with an immediate. -/
def xlBcastI (f : IForm) : Act Unit := xlBroadcast f.km f.ty f.d f.a [] fun _ _ => f.imm.toNat

/-! ## Folds (R111 to R113, R115) -/

/-- The POISON records of a folding instruction (R99). -/
def foldPoison (t : Team) (f : TForm) : List Rec :=
  let lanes := t.lanesOf f.km.val
  let own (l : Nat) : Option (Reg × Nat) := t.lpoison l (srcRegs (tyWide f.ty) f.a) f.a
  let ident := t.lpoison 0 1 f.b
  let charged := t.chargeLane f.km
  let at_ (l : Nat) : Option Rec :=
    match own l with
    | some p => some (t.poisonRec l p.1 p.2)
    | none => if l = charged then ident.map fun p => t.poisonRec l p.1 p.2 else none
  if lanes.isEmpty then (ident.map fun p => t.poisonRec charged p.1 p.2).toList else lanes.filterMap at_

/-- The floating format of TY 10 or 11. -/
def floatOf (ty : Ty) : Option Fmt := if ty = .f32 || ty = .f64 then some (Num.fmtOf ty.code) else none

/-- A fold's value that no step computed: as read under DAZ, a NaN in its canonical form (R119, R131).
DEDUCED (log 22): this covers lane 0's contribution and the identity that `excl` gives lane 0. -/
def foldValue (t : Team) (ty : Ty) (v : Nat) : Nat :=
  match floatOf ty with
  | some fm => ((fm.deliver t.rm false false (fm.read t.daz v)).1)
  | none => v

/-- One step of xl.red and xl.scan: the value and the exceptions (R111, R115). -/
def foldStep (t : Team) (ty : Ty) (op a b : Nat) : Nat × BitVec 5 :=
  match floatOf ty with
  | some fm =>
    let x := fm.read t.daz a
    let y := fm.read t.daz b
    if op = 0 then fm.add t.rm t.ftz x y
    else
      let r := Num.minMax (op == 2) false x y
      ((fm.deliver t.rm false false r.1).1, r.2)
  | none =>
    let g := match op with | 0 => iAdd | 1 => iMin | 2 => iMax | 3 => iAnd | 4 => iOr | _ => iXor
    (g ty a b, 0)

/-- The running values of a fold from lane 0 on, with each step's exceptions. -/
def foldFrom {α : Type} (step : α → α → α × BitVec 5) : α → List α → List (α × BitVec 5)
  | _, [] => []
  | acc, x :: xs =>
    let r := step acc x
    r :: foldFrom step r.1 xs

/-- Contributions of lanes 0..LANES−1 (R108). -/
def contributions (t : Team) (teams : Nat) (f : TForm) : List Nat :=
  let m := t.active f.km.val
  let ident := lnSrc f.ty t teams 0 f.b
  (List.range t.lanes).map fun l => if m.getLsbD l then lnSrc f.ty t teams l f.a else ident

/-- What a fold reports: its POISON records (R99), else the trap of the steps that raised an enabled
exception (R115), `steps` being those of lanes 1 on. -/
def foldFaults (t : Team) (f : TForm) (steps : List (BitVec 5)) : List Rec :=
  let poison := foldPoison t f
  let all := steps.foldl (fun a e => a ||| e) (0 : BitVec 5)
  let en := all &&& t.enables false
  if !poison.isEmpty then poison
  else if en = 0 then []
  else
    let lane := 1 + steps.findIdx fun e => e &&& t.enables false != 0
    [{ t.laneRec lane (lowestCause en) all.toNat with lane := lane }]

/-- The end of a fold. With a fault it writes no destination and no flag, and the records come when it
completes (R24, R99, R115); else an S destination `now` is written and the lanes' results and the flags follow LA. -/
def endFold (t : Team) (f : TForm) (steps : List (BitVec 5)) (now : Act Unit) (rs : List Result) : Act Unit := do
  let faults := foldFaults t f steps
  if faults.isEmpty then do
    now
    deliverResults f.la rs (steps.foldl (fun a e => a ||| e) (0 : BitVec 5)) 0
  else deliverResults f.la [] 0 0 faults

/-- A fold does nothing where its active set is empty and D is no S register (R31). DEDUCED (log 22): D = ZERO
counts as a V destination. -/
def Team.foldsNothing (t : Team) (f : TForm) : Bool :=
  (t.lanesOf f.km.val).isEmpty && (match f.d with | .s _ => false | _ => true)

/-- xl.red (R111). -/
def xlRed (f : TForm) : Act Unit := do
  let t ← tm
  if t.foldsNothing f then return
  let teams := (← get).teamsOf t
  match contributions t teams f with
  | [] => pure ()
  | c :: cs =>
    let steps := foldFrom (foldStep t f.ty f.mod.toNat) c cs
    let acc := lnExt f.ty ((steps.getLast?.map (·.1)).getD (foldValue t f.ty c))
    endFold t f (steps.map (·.2))
      (match f.d with | .s _ => swrite f.d acc | _ => pure ())
      ((t.lanesOf f.km.val).flatMap fun l => resultsAt l (tyWide f.ty) f.d acc)

/-- Whether a contribution replaces the one kept, and the exceptions (R112, R115). -/
def better (t : Team) (ty : Ty) (max : Bool) (x v : Nat) : Bool × BitVec 5 :=
  match floatOf ty with
  | some fm =>
    let a := fm.read t.daz x
    let b := fm.read t.daz v
    let fl : BitVec 5 := if a.isSnan || b.isSnan then Num.inv else 0
    let win := if b.isNan then !a.isNan else !a.isNan && (if max then Num.below b a else Num.below a b)
    (win, fl)
  | none => (if max then decide (readAs ty v < readAs ty x) else decide (readAs ty x < readAs ty v), 0)

/-- xl.redi (R112). -/
def xlRedi (f : TForm) : Act Unit := do
  let t ← tm
  if t.foldsNothing f then return
  let teams := (← get).teamsOf t
  let m := t.active f.km.val
  let full := t.lsrc teams 0 true f.b
  let pair (l : Nat) : Nat × Nat :=
    if m.getLsbD l then (lnSrc f.ty t teams l f.a, l) else (lowBits (tyWidth f.ty) full, lowBits 32 full)
  match (List.range t.lanes).map pair with
  | [] => pure ()
  | c :: cs =>
    let step (v x : Nat × Nat) : (Nat × Nat) × BitVec 5 :=
      let b := better t f.ty (f.mod == 2) x.1 v.1
      (if b.1 then x else v, b.2)
    let steps := foldFrom step c cs
    let (v, i) := (steps.getLast?.map (·.1)).getD c
    let ext := lnExt f.ty (foldValue t f.ty v)
    endFold t f (steps.map (·.2))
      (match f.d with
        | .s _ =>
          if tyWide f.ty then do
            swrite f.d ext
            swriteAt f.d 1 (BitVec.ofNat 64 i)
          else swrite f.d (BitVec.ofNat 64 (i * 2 ^ 32 + lowBits 32 ext))
        | _ => pure ())
      (match f.d with
        | .v n => (t.lanesOf f.km.val).flatMap fun l =>
          resultsAt l (tyWide f.ty) f.d ext ++
            [(⟨.v l (n.val + if tyWide f.ty then 2 else 1), BitVec.ofNat 64 i, 0⟩ : Result)]
        | _ => [])

/-- xl.scan (R113). -/
def xlScan (f : TForm) : Act Unit := do
  let t ← tm
  if t.foldsNothing f then return
  let teams := (← get).teamsOf t
  match contributions t teams f with
  | [] => pure ()
  | c :: cs =>
    let steps := foldFrom (foldStep t f.ty (f.mod.toNat % 8)) c cs
    let run := foldValue t f.ty c :: steps.map (·.1)
    let ident := foldValue t f.ty (lnSrc f.ty t teams 0 f.b)
    let value (l : Nat) : Nat :=
      if f.mod.getLsbD 3 then (if l = 0 then ident else run.getD (l - 1) 0) else run.getD l 0
    endFold t f (steps.map (·.2)) (pure ())
      ((t.lanesOf f.km.val).flatMap fun l => resultsAt l (tyWide f.ty) f.d (lnExt f.ty (value l)))

/-- xl.ballot (R114). -/
def xlBallot (f : TForm) : Act Unit := do
  let t ← tm
  let lanes := t.lanesOf f.km.val
  finishLanes (lanes.filterMap fun l => (t.lpoison l 1 f.a).map fun p => t.poisonRec l p.1 p.2)
  let votes := maskOf (lanes.filter fun l => lnSrc32 t 0 l f.a != 0)
  match f.d with
  | .k n => modTm fun t => t.setK n.val votes
  | d => swrite d (votes.extractLsb' (64 * (f.mod.toNat % 16)) 64)

/-! ## The meanings -/

/-- xl.shfl (R109). -/
def execXlShflT (f : TForm) (s : State) : Host.Outcome State Fault Refusal := runCore (xlShuffle f false) s
/-- xl.shfl with an immediate (R109). -/
def execXlShflI (f : IForm) (s : State) : Host.Outcome State Fault Refusal := runCore (xlShuffleImm f false) s
/-- xl.shfx (R109). -/
def execXlShfxT (f : TForm) (s : State) : Host.Outcome State Fault Refusal := runCore (xlShuffle f true) s
/-- xl.shfx with an immediate (R109). -/
def execXlShfxI (f : IForm) (s : State) : Host.Outcome State Fault Refusal := runCore (xlShuffleImm f true) s
/-- xl.bcast (R110). -/
def execXlBcastT (f : TForm) (s : State) : Host.Outcome State Fault Refusal := runCore (xlBcastT f) s
/-- xl.bcast with an immediate (R110). -/
def execXlBcastI (f : IForm) (s : State) : Host.Outcome State Fault Refusal := runCore (xlBcastI f) s
/-- xl.red (R111). -/
def execXlRed (f : TForm) (s : State) : Host.Outcome State Fault Refusal := runCore (xlRed f) s
/-- xl.redi (R112). -/
def execXlRedi (f : TForm) (s : State) : Host.Outcome State Fault Refusal := runCore (xlRedi f) s
/-- xl.scan (R113). -/
def execXlScan (f : TForm) (s : State) : Host.Outcome State Fault Refusal := runCore (xlScan f) s
/-- xl.ballot (R114). -/
def execXlBallot (f : TForm) (s : State) : Host.Outcome State Fault Refusal := runCore (xlBallot f) s

end Sys2Proof.Machine
end

