-- ==== Sys2Proof/Machine/Float.lean ====
section
/-! DEFINITION. The fp instructions (R141 to R152). -/

namespace Sys2Proof.Machine

open Sys2Proof.Num (FVal Fmt Rm)

/-! ## Operands (R141, R142) -/

/-- The binary format of a type. -/
def fmtTy (ty : Ty) : Fmt := Num.fmtOf ty.code
/-- A source read under DAZ (R131). -/
def fpSrc (ty : Ty) (t : Team) (teams lane : Nat) (r : Reg) : FVal := (fmtTy ty).read t.daz (lnSrc ty t teams lane r)
/-- The result of a lane in the format of its type (R98). -/
def fpDst (ty : Ty) (d : Reg) (lane : Nat) (x : Nat × BitVec 5) : List Result × BitVec 5 :=
  (resultsAt lane (tyWide ty) d (BitVec.ofNat 64 x.1), x.2)

/-- An instruction of one source. -/
def fpUn (f : TForm) (op : Fmt → Rm → Bool → FVal → Nat × BitVec 5) : Act Unit :=
  runLanes f false [useOf f.ty f.a] fun t n l =>
    fpDst f.ty f.d l (op (fmtTy f.ty) t.rm t.ftz (fpSrc f.ty t n l f.a))
/-- An instruction of two sources. -/
def fpBin (f : TForm) (op : Fmt → Rm → Bool → FVal → FVal → Nat × BitVec 5) : Act Unit :=
  runLanes f false [useOf f.ty f.a, useOf f.ty f.b] fun t n l =>
    fpDst f.ty f.d l (op (fmtTy f.ty) t.rm t.ftz (fpSrc f.ty t n l f.a) (fpSrc f.ty t n l f.b))
/-- fp.fma (R143). -/
def fpFma (f : TForm) : Act Unit :=
  runLanes f false [useOf f.ty f.a, useOf f.ty f.b, useOf f.ty f.c] fun t n l =>
    let v (r : Reg) : FVal := fpSrc f.ty t n l r
    fpDst f.ty f.d l ((fmtTy f.ty).fma t.rm t.ftz (v f.a) (v f.b) (v f.c))
/-- a - b. -/
def fpSubOf (f : Fmt) (rm : Rm) (ftz : Bool) (x y : FVal) : Nat × BitVec 5 := f.add rm ftz x y.negate
/-- a * 2^n, rounded once (R143). Beyond 2^13 the rounding no longer depends on n. -/
def ldexpOf (f : Fmt) (rm : Rm) (ftz : Bool) (x : FVal) (n : Int) : Nat × BitVec 5 :=
  match x with
  | .fin s m e => f.deliver rm ftz false (.fin s m (e + max (-8192) (min 8192 n)))
  | v => f.deliver rm ftz false v
/-- fp.ldexp. -/
def fpLdexp (f : TForm) : Act Unit :=
  runLanes f false [useOf f.ty f.a, (f.b, 1)] fun t n l =>
    fpDst f.ty f.d l (ldexpOf (fmtTy f.ty) t.rm t.ftz (fpSrc f.ty t n l f.a) (toSigned 32 (lnSrc32 t n l f.b)))
/-- fp.min and fp.max: the operand delivered as read (R145). -/
def fpMinMax (f : TForm) (max : Bool) : Act Unit :=
  fpBin f fun fm rm _ x y => fm.finish rm false (Num.minMax max (f.mod.getLsbD 0) x y)
/-- fp.abs and fp.neg: the sign bit alone (R146). -/
def fpSign (f : TForm) (op : Nat → Nat → Nat) : Act Unit :=
  runLanes f false [useOf f.ty f.a] fun t n l =>
    fpDst f.ty f.d l (op (2 ^ (tyWidth f.ty - 1)) (lnSrc f.ty t n l f.a), 0)
/-- fp.cmp (R147). -/
def fpCmp (f : TForm) : Act Unit :=
  runCond f false [useOf f.ty f.a, useOf f.ty f.b] fun t n l =>
    Num.condition (f.mod.toNat % 8) (fpSrc f.ty t n l f.a) (fpSrc f.ty t n l f.b)

/-- The class bit of a value as it is stored (R148). -/
def classBit (f : Fmt) (x : Nat) : Nat :=
  match f.value x with
  | .nan s => if s then 8 else 9
  | .inf n => if n then 0 else 7
  | .fin n m _ =>
    let pos : Nat := if m = 0 then 4 else if m < 2 ^ f.fbits then 5 else 6
    if !n then pos else if m = 0 then 3 else if m < 2 ^ f.fbits then 2 else 1
/-- fp.cls. -/
def fpCls (f : TForm) : Act Unit :=
  runLanes f false [useOf f.ty f.a] fun t n l =>
    (resultsAt l false f.d (BitVec.ofNat 64 (2 ^ classBit (fmtTy f.ty) (lnSrc f.ty t n l f.a))), 0)

/-- The mode that MOD[2:0] names, beside the dynamic one (R149). -/
def roundMode (dyn : Rm) (m : Nat) : Rm :=
  match m with
  | 0 => dyn | 1 => .rne | 2 => .rna | 3 => .rtz | 4 => .rup | _ => .rdn
/-- fp.rnd. -/
def fpRnd (f : TForm) : Act Unit :=
  fpUn f fun fm rm ftz x => fm.integral (roundMode rm (f.mod.toNat % 8)) ftz (f.mod.getLsbD 3) rm x

/-! ## Conversions (R150 to R152) -/

/-- fp.cvt, with MOD[4] the saturating form. -/
def fpCvt (f : TForm) : Act Unit :=
  let src := Ty.ofCode (f.mod.toNat % 16)
  runLanes f false [useOf src f.a] fun t n l =>
    fpDst f.ty f.d l ((fmtTy f.ty).deliver t.rm t.ftz (f.mod.getLsbD 4) (fpSrc src t n l f.a))
/-- fp.fti. -/
def fpFti (f : TForm) : Act Unit :=
  let src := Ty.ofCode (8 + f.mod.toNat % 4)
  runLanes f false [useOf src f.a] fun t n l =>
    let rm := if f.mod.getLsbD 2 then .rtz else t.rm
    let r := Num.clampInt (tyLo f.ty) (tyHi f.ty) (fpSrc src t n l f.a) rm
    (resultsAt l (tyWide f.ty) f.d (lnExt f.ty (ofSigned (tyWidth f.ty) r.1)), r.2)
/-- fp.itf. -/
def fpItf (f : TForm) : Act Unit :=
  let src := Ty.ofCode (f.mod.toNat % 8)
  runLanes f false [useOf src f.a] fun t n l =>
    fpDst f.ty f.d l ((fmtTy f.ty).deliver t.rm t.ftz false (Num.ofInt (readAs src (lnSrc src t n l f.a)) 0 false))

/-- The fraction of a value, 0.5 ≤ |m| < 1. -/
def fracOf (v : FVal) : FVal :=
  match v with
  | .fin s m e => if m = 0 then .fin s 0 e else .fin s m (-(Num.bitlen m : Int))
  | v => v
/-- Its exponent, 0 for a zero, an infinity and a NaN. -/
def expOf (v : FVal) : Int :=
  match v with
  | .fin _ m e => if m = 0 then 0 else (Num.bitlen m : Int) + e
  | _ => 0
/-- fp.frexp. -/
def fpFrexp (f : TForm) : Act Unit :=
  runLanes f false [useOf f.ty f.a] fun t n l =>
    let v := fpSrc f.ty t n l f.a
    let fl : BitVec 5 := if v.isSnan then Num.inv else 0
    if f.mod.getLsbD 0 then (resultsAt l false f.d (BitVec.ofNat 64 (ofSigned 32 (expOf v))), fl)
    else fpDst f.ty f.d l (((fmtTy f.ty).deliver t.rm t.ftz false (fracOf v)).1, fl)

/-! ## The meanings -/

/-- fp.add (R143). -/
def execFpAdd (f : TForm) (s : State) : Host.Outcome State Fault Refusal := runCore (fpBin f Fmt.add) s
/-- fp.sub (R143). -/
def execFpSub (f : TForm) (s : State) : Host.Outcome State Fault Refusal := runCore (fpBin f fpSubOf) s
/-- fp.mul (R143). -/
def execFpMul (f : TForm) (s : State) : Host.Outcome State Fault Refusal := runCore (fpBin f Fmt.mul) s
/-- fp.fma (R143). -/
def execFpFma (f : TForm) (s : State) : Host.Outcome State Fault Refusal := runCore (fpFma f) s
/-- fp.min (R145). -/
def execFpMin (f : TForm) (s : State) : Host.Outcome State Fault Refusal := runCore (fpMinMax f false) s
/-- fp.max (R145). -/
def execFpMax (f : TForm) (s : State) : Host.Outcome State Fault Refusal := runCore (fpMinMax f true) s
/-- fp.abs (R146). -/
def execFpAbs (f : TForm) (s : State) : Host.Outcome State Fault Refusal := runCore (fpSign f fun sb x => x % sb) s
/-- fp.neg (R146). -/
def execFpNeg (f : TForm) (s : State) : Host.Outcome State Fault Refusal := runCore (fpSign f Nat.xor) s
/-- fp.cmp (R147). -/
def execFpCmp (f : TForm) (s : State) : Host.Outcome State Fault Refusal := runCore (fpCmp f) s
/-- fp.cls (R148). -/
def execFpCls (f : TForm) (s : State) : Host.Outcome State Fault Refusal := runCore (fpCls f) s
/-- fp.div (R143). -/
def execFpDiv (f : TForm) (s : State) : Host.Outcome State Fault Refusal := runCore (fpBin f Fmt.div) s
/-- fp.sqrt (R143). -/
def execFpSqrt (f : TForm) (s : State) : Host.Outcome State Fault Refusal := runCore (fpUn f Fmt.sqrt) s
/-- fp.rcp (R143). -/
def execFpRcp (f : TForm) (s : State) : Host.Outcome State Fault Refusal := runCore (fpUn f Fmt.rcp) s
/-- fp.rsq (R143). -/
def execFpRsq (f : TForm) (s : State) : Host.Outcome State Fault Refusal := runCore (fpUn f Fmt.rsq) s
/-- fp.exp2 (R143). -/
def execFpExp2 (f : TForm) (s : State) : Host.Outcome State Fault Refusal := runCore (fpUn f Fmt.exp2) s
/-- fp.log2 (R143). -/
def execFpLog2 (f : TForm) (s : State) : Host.Outcome State Fault Refusal := runCore (fpUn f Fmt.log2) s
/-- fp.rnd (R149). -/
def execFpRnd (f : TForm) (s : State) : Host.Outcome State Fault Refusal := runCore (fpRnd f) s
/-- fp.cvt (R150). -/
def execFpCvt (f : TForm) (s : State) : Host.Outcome State Fault Refusal := runCore (fpCvt f) s
/-- fp.fti (R151). -/
def execFpFti (f : TForm) (s : State) : Host.Outcome State Fault Refusal := runCore (fpFti f) s
/-- fp.itf (R151). -/
def execFpItf (f : TForm) (s : State) : Host.Outcome State Fault Refusal := runCore (fpItf f) s
/-- fp.ldexp (R143). -/
def execFpLdexp (f : TForm) (s : State) : Host.Outcome State Fault Refusal := runCore (fpLdexp f) s
/-- fp.frexp (R152). -/
def execFpFrexp (f : TForm) (s : State) : Host.Outcome State Fault Refusal := runCore (fpFrexp f) s

end Sys2Proof.Machine
end

