-- ==== Sys2Proof/Machine/DecimalOps.lean ====
section
/-! DEFINITION. The dc instructions (R147, R149, R153 to R155). -/

namespace Sys2Proof.Machine

open Sys2Proof.Num (FVal Fmt Rm)

/-- A decimal source of a lane. -/
def dcSrc (t : Team) (teams lane : Nat) (r : Reg) : Dec.DVal := Dec.read (t.lsrc teams lane true r).toNat
/-- A 64-bit result of a lane. -/
def dcDst (d : Reg) (lane : Nat) (x : Nat × BitVec 5) : List Result × BitVec 5 :=
  (resultsAt lane true d (BitVec.ofNat 64 x.1), x.2)
/-- A source that takes a pair in V. -/
def useWide (r : Reg) : Reg × Nat := (r, srcRegs true r)
/-- An instruction of two decimals. -/
def dcBin (f : TForm) (op : Rm → Dec.DVal → Dec.DVal → Nat × BitVec 5) : Act Unit :=
  runLanes f true [useWide f.a, useWide f.b] fun t n l =>
    dcDst f.d l (op t.drm (dcSrc t n l f.a) (dcSrc t n l f.b))
/-- a - b. -/
def dcSubOf (rm : Rm) (x y : Dec.DVal) : Nat × BitVec 5 := Dec.add rm x y.negate
/-- dc.fma. -/
def dcFma (f : TForm) : Act Unit :=
  runLanes f true [useWide f.a, useWide f.b, useWide f.c] fun t n l =>
    dcDst f.d l (Dec.fma t.drm (dcSrc t n l f.a) (dcSrc t n l f.b) (dcSrc t n l f.c))
/-- dc.cmp (R147). -/
def dcCmp (f : TForm) : Act Unit :=
  runCond f true [useWide f.a, useWide f.b] fun t n l =>
    Dec.condition (f.mod.toNat % 8) (dcSrc t n l f.a) (dcSrc t n l f.b)
/-- dc.rnd (R149). -/
def dcRnd (f : TForm) : Act Unit :=
  runLanes f true [useWide f.a] fun t n l =>
    dcDst f.d l (Dec.integral (roundMode t.drm (f.mod.toNat % 8)) (f.mod.getLsbD 3) (dcSrc t n l f.a))
/-- What dc.cvt makes of 64 source bits (R155): exactly one side is decimal. -/
def dcConvert (rm : Rm) (dst src : Ty) (x : Word) : Nat × BitVec 5 :=
  if dst.code = 15 then
    if src.code = 11 then Dec.ofBinary rm (Num.f64.value x.toNat) else Dec.ofInteger rm (readAs src x.toNat)
  else if dst.code = 11 then Dec.toBinary rm (Dec.read x.toNat)
  else
    let r := Dec.toInteger rm (tyLo dst) (tyHi dst) (Dec.read x.toNat)
    (ofSigned 64 r.1, r.2)
/-- dc.cvt. -/
def dcCvt (f : TForm) : Act Unit :=
  runLanes f true [useWide f.a] fun t n l =>
    let rm := if f.mod.getLsbD 4 then .rtz else t.drm
    dcDst f.d l (dcConvert rm f.ty (Ty.ofCode (f.mod.toNat % 16)) (t.lsrc n l true f.a))

/-! ## The meanings -/

/-- dc.add (R153). -/
def execDcAdd (f : TForm) (s : State) : Host.Outcome State Fault Refusal := runCore (dcBin f Dec.add) s
/-- dc.sub (R153). -/
def execDcSub (f : TForm) (s : State) : Host.Outcome State Fault Refusal := runCore (dcBin f dcSubOf) s
/-- dc.mul (R153). -/
def execDcMul (f : TForm) (s : State) : Host.Outcome State Fault Refusal := runCore (dcBin f Dec.mul) s
/-- dc.fma (R153). -/
def execDcFma (f : TForm) (s : State) : Host.Outcome State Fault Refusal := runCore (dcFma f) s
/-- dc.div (R153). -/
def execDcDiv (f : TForm) (s : State) : Host.Outcome State Fault Refusal := runCore (dcBin f Dec.div) s
/-- dc.cmp (R147). -/
def execDcCmp (f : TForm) (s : State) : Host.Outcome State Fault Refusal := runCore (dcCmp f) s
/-- dc.quant (R154). -/
def execDcQuant (f : TForm) (s : State) : Host.Outcome State Fault Refusal := runCore (dcBin f Dec.quantize) s
/-- dc.cvt (R155). -/
def execDcCvt (f : TForm) (s : State) : Host.Outcome State Fault Refusal := runCore (dcCvt f) s
/-- dc.rnd (R149). -/
def execDcRnd (f : TForm) (s : State) : Host.Outcome State Fault Refusal := runCore (dcRnd f) s

end Sys2Proof.Machine
end

