-- ==== Sys2Proof/Machine/EventsRegion.lean ====
section
/-! DEFINITION. Events of regions: the end of a region with the completion of a root, the ranking of a
tournament, and the ticket unit (R280, R291 to R296, R380). -/

namespace Sys2Proof.Machine

/-! ## Completions of work queues (R380, R381) -/

/-- Send a vector (R375). -/
def State.sendVector (s : State) (v : Nat) : State := s.withHearth fun h => { h with msix := v :: h.msix }

/-- Write a completion into a queue's ring and send its vector (WORK_QUEUE_COMPLETION). -/
def State.queueDone (s : State) (q : Nat) (tag : Word) (status state cause : Nat) : State :=
  match SMap.find s.hearth.queues q with
  | none => s
  | some w =>
    let bs := leBytes 8 tag.toNat ++ [BitVec.ofNat 8 status, BitVec.ofNat 8 state, BitVec.ofNat 8 cause] ++ zeros 5
    let s1 := s.store (hostKey (w.compl + 16 * (w.written.toNat % w.slots))) bs 0 0
    let s2 := s1.withHearth fun h => { h with queues := SMap.alter h.queues q fun w => { w with written := w.written + 1 } }
    s2.sendVector w.vector

/-! ## The end of a region (R280) -/

/-- Every team of the region has ended, none is to come, every child region is COMPLETE or FAILED, and
a tournament is decided. -/
def State.regionOver (s : State) (r : Nat) : Bool :=
  let g := s.region r
  (s.teams.all fun t => t.2.launch.region != r || decide (t.2.place = .ended)) &&
    (g.launches.all fun l => decide (l.state = .killed) || l.started == g.teams) &&
    !((s.tasks ++ s.pushed).any fun k => k.2.launch.region == r) &&
    (s.regions.all fun c => c.2.parent != some r || !c.2.live) && (g.kind != 2 || g.decided)

/-- Every write unit of the region's teams has drained, and what they issued without a unit has been
performed (R280, R304). -/
def State.regionDrained (s : State) (r : Nat) : Bool :=
  s.teams.all fun t => t.2.launch.region != r || (t.2.undrained.isEmpty && !s.looseWrites t.1 s.serial)

/-- Add 1 to the completion word of a region: it waits while a page request is outstanding, and is
dropped where the word cannot be written (log 23). -/
def bumpDone (g : Region) : Act Unit := do
  if g.donew != 0 then
    let ks ← (pagePieces g.donew.toNat 8).mapM fun p => do
      let va : Word := BitVec.ofNat 64 p.1
      if (g.declared.any fun d => d.page == p.1 % 2 ^ 57 / 4096 * 4096) then throw .gone
      match ← translate .none g.asid g.timeline (g.time.headD 0) va { r := true, w := true } with
      | .ok k _ => return (k, p.2)
      | .fault c d => do
        let rid ← postRequest g.asid g.timeline (g.time.headD 0) va c d (accRead + accWrite)
        blockAt { rids := rid.toList, held := true }
      | _ => throw .gone
    let old ← ks.mapM fun k => readPhys k.1 k.2
    let new := leBytes 8 (leNat old.flatten + 1)
    modify fun (s : State) =>
      (ks.foldl (fun (x : Nat × State) k => (x.1 + k.2, x.2.store k.1 ((new.drop x.1).take k.2) g.asid 0)) (0, s)).2

/-- The region enters its last state: STATE and CAUSE are in its control block, its path summaries
leave the table, and a root is reported and CLOSED. One whose ancestors have left the tree leaves it too. -/
def State.reportRegion (s : State) (r : Nat) : State :=
  let g := s.region r
  let s1 := s.withRegion r fun g => { g with reported := true, rids := [], declared := [] }
  let s2 := s1.dropPsums r
  match g.parent with
  | some p => if (SMap.find s2.regions p).isNone then s2.forget r else s2
  | none => ((s2.queueDone g.queue g.tag 0 g.state.code g.cause).setRState r .closed).forget r

/-- REGION_DONE: a region whose work is over, or that has failed, enters COMPLETE or FAILED once its
teams' units have drained, and its completion word gains one. One that is COMPLETE or FAILED and not yet reported
had to wait for the page of that word. -/
def regionEnds (r : Nat) (s : State) : State :=
  match SMap.find s.regions r with
  | none => s
  | some g =>
    let finished := decide (g.state = .failed) || decide (g.state = .complete) || (g.live && s.regionOver r)
    if finished && !g.reported && g.rids.isEmpty && s.regionDrained r then
      let s1 := if g.live then s.withRegion r fun g => { g with state := .complete } else s
      let s2 := s1.writeRcb r 80 [BitVec.ofNat 8 (s1.region r).state.code, BitVec.ofNat 8 g.cause]
      let x := (bumpDone g).go s2
      match x.1 with
      | .error (.block b) => x.2.withRegion r fun g => { g with rids := b.rids }
      | _ => x.2.reportRegion r
    else s

/-! ## Rankings (R293 to R296) -/

/-- The scores of an entrant's teams: those that have ended, and those that have not (R295). -/
def State.scoresOf (s : State) (l : LaunchId) : List Word :=
  ((s.region l.region).launch l.entrant).scores ++
    (s.teams.filter fun t => decide (t.2.launch = l) && decide (t.2.place ≠ .ended)).map (·.2.score)

/-- The best score of an entrant as a key, none where no team has started. -/
def State.entrantKey (s : State) (l : LaunchId) : Option Int :=
  (s.scoresOf l).foldl (fun b x =>
    let k := scoreKey (s.region l.region).cmp x
    match b with
    | none => some k
    | some y => some (max y k)) none

/-- A key ranks before another; one without a score is last. -/
def keyBefore : Option Int → Option Int → Bool
  | some a, some b => decide (b < a)
  | some _, none => true
  | none, _ => false

/-- Put an entrant in its rank: ties go to the lower index, which stands first already. -/
def rankIn (e : Nat × Option Int) : List (Nat × Option Int) → List (Nat × Option Int)
  | [] => [e]
  | x :: xs => if keyBefore e.2 x.2 then e :: x :: xs else x :: rankIn e xs

/-- Every entrant not killed, best first. -/
def State.ranking (s : State) (r : Nat) : List Nat :=
  let g := s.region r
  let alive := (List.range g.launches.length).filter fun e => decide ((g.launch e).state ≠ .killed)
  (alive.foldl (fun xs e => rankIn (e, s.entrantKey ⟨r, e⟩) xs) []).map (·.1)

/-- The budgets of the entrants killed since the last ranking, which the ranking frees: cores, KiB of
scratchpad, rows (R296). -/
def Region.freed (g : Region) : Nat × Nat × Nat :=
  let dead := g.launches.filter fun l => decide (l.state = .killed)
  (dead.foldl (fun n l => n + l.cores + l.shareCores) 0,
    (dead.foldl (fun n l => n + l.scratchk * 1024 + l.grown + l.shareScratch) 0) / 1024,
    dead.foldl (fun n l => n + l.accrows + l.shareRows) 0)

/-- Share what was freed among the survivors, remainders in rank order (R296). -/
def Region.share (g : Region) (survivors : List Nat) : Region :=
  let f := g.freed
  let n := survivors.length
  let gone : List Launch := g.launches.map fun l =>
    if l.state = .killed then
      { l with cores := 0, scratchk := 0, accrows := 0, grown := 0, shareCores := 0, shareScratch := 0, shareRows := 0 }
    else l
  ((List.range n).zip survivors).foldl (fun g x =>
    g.withLaunch x.2 fun l =>
      { l with
        shareCores := l.shareCores + shareOf f.1 n x.1, shareScratch := l.shareScratch + 1024 * shareOf f.2.1 n x.1
        shareRows := l.shareRows + shareOf f.2.2 n x.1 }) { g with launches := gone }

/-- NOW with the round coordinate advanced by one. -/
def advanceRound (depth : Nat) (now : Stamp) : Stamp := now.modify (depth - 1) fun c => min 0xFFFFFFFF (c + 1)

/-- A team of a survivor goes on: its NOW advances, it holds the next round's time, which the region's
count covers, and it unparks with an allowance (R293). A pair it holds already stays one hold, and one that
holds 16 others takes none (R258; log 21). -/
def State.goOn (s : State) (i : Nat) (allow : Word) : State :=
  let t := s.team i
  let g := s.region t.launch.region
  let next := g.roundTime (g.round + 1)
  let takes := !(t.holds.any fun h => h.loc == g.tloc && h.stamp == next) && decide (t.holds.length < 16)
  let s1 := if takes then (s.addCount none t.asid t.timeline g.tloc next).getD s else s
  s1.withTeam i fun t =>
    { t with
      now := advanceRound g.time.length t.now, holds := if takes then t.holds ++ [{ loc := g.tloc, stamp := next }] else t.holds
      parked := false, allow := allow, budgetDue := false }

/-- The teams of a survivor receive their allowance (R294); one that is PARKED goes on to RUN with its parked
teams. -/
def State.entrantOn (s : State) (r e : Nat) (allow : Word) : State :=
  let l : LaunchId := ⟨r, e⟩
  let parked := decide (((s.region r).launch e).state = .parked)
  let mine := s.teams.filter fun t => decide (t.2.launch = l) && decide (t.2.place ≠ .ended)
  let s1 := mine.foldl (fun s t =>
    if parked && t.2.parked then s.goOn t.1 allow
    else s.withTeam t.1 fun t => { t with allow := allow, budgetDue := false }) s
  if parked then s1.withLaunch l fun x => { x with state := .run } else s1

/-- The tournament is decided: the winner's teams go on without an allowance, the others are killed,
and the region's count retires (R294). -/
def State.decideTournament (s : State) (r w : Nat) (losers : List Nat) : State :=
  let s1 := losers.foldl (fun s e => s.killEntrant r e) s
  let s2 := s1.entrantOn r w (BitVec.allOnes 64)
  let g := s2.region r
  let s3 := s2.withRegion r fun g => { g with decided := true, winner := w, roundCount := none }
  match g.roundCount with
  | some t => s3.dropCount g.asid g.timeline g.tloc t
  | none => s3

/-- The tournament goes on to its next round: the survivors' holds first, then the region's count moves
on (R294). -/
def State.nextRound (s : State) (r : Nat) (survivors : List Nat) : Option State :=
  let g := s.region r
  let allow := { g with round := g.round + 1 }.allowance
  let s1 := survivors.foldl (fun s e => s.entrantOn r e allow) s
  match s1.addCount none g.asid g.timeline g.tloc (g.roundTime (g.round + 2)) with
  | none => none
  | some s2 =>
    let s3 := s2.dropCount g.asid g.timeline g.tloc (g.roundTime (g.round + 1))
    some (s3.withRegion r fun x => { x with round := g.round + 1, roundCount := some (g.roundTime (g.round + 2)) })

/-- RANK: the round's frontier has passed, so the entrants are ranked, the worse half is killed, and
the tournament ends or goes on. -/
def ranks (r : Nat) (s : State) : State :=
  match SMap.find s.regions r with
  | none => s
  | some g0 =>
    let due := g0.kind == 2 && g0.live && !g0.decided && passedBy ((s.space g0.asid).frontier g0.tloc) (g0.roundTime g0.round)
    if !due then s
    else
      let s0 := (List.range g0.launches.length).foldl (fun s e => s.settleEntrant ⟨r, e⟩) s
      let order := s0.ranking r
      let kept := order.length - (order.length + 1) / 2
      let survivors := order.take kept
      let s1 := (order.drop kept).foldl (fun s e => s.killEntrant r e) s0
      let s2 := s1.withRegion r fun g => g.share survivors
      let g := s2.region r
      let last := survivors.length ≤ 1 || g.round + 1 == g.roundcap ||
        !(survivors.any fun e => decide ((g.launch e).state = .parked))
      let done : Option State :=
        if last then some (s2.decideTournament r (order.headD 0xFF) (survivors.drop 1)) else s2.nextRound r survivors
      match done with
      | some t => t.writeRound r
      | none => s

/-! ## The ticket unit (R291) -/

/-- A command that the ticket unit has released for a team is still under way. -/
def State.commandRuns (s : State) (i : Nat) : Bool := s.copies.any fun c => c.2.team == i && c.2.kind == 3 && !c.2.held

/-- What was released before an effect has still to reach bytes of its: it is released behind that, so that it
is co-after it (R246). Writes of one kind of path keep their order among themselves. -/
def State.releaseWaits (s : State) (i : Nat) (e : Effect) : Bool :=
  let mine (w : PendWrite) : Bool := w.team == i && w.path != 6
  match e with
  | .write w =>
    s.commandRuns i ||
      (s.mortarIn.any fun m => m.team == i && meets m.key m.size w.key w.bytes.length) ||
      s.writes.any fun x => mine x && decide (x.path < 2) != decide (w.path < 2) && meets x.key x.bytes.length w.key w.bytes.length
  | .mortar m =>
    s.commandRuns i || s.writes.any fun x => mine x && meets x.key x.bytes.length m.key m.size
  | .copy c =>
    match SMap.find s.copies c with
    | none => false
    | some x =>
      if x.kind = 3 then
        s.commandRuns i || (s.mortarIn.any fun m => m.team == i) || s.writes.any mine || x.engine.any fun e => 16 ≤ s.waitingOn e
      else !x.issuedAll
  | _ => false

/-- Release one staged effect; none while it must wait for room, or for what was released before it. -/
def State.releaseOne (s : State) (i : Nat) (e : Effect) : Option State :=
  if s.releaseWaits i e then none
  else
    match e with
    | .write w => some { s with writes := s.writes ++ [w] }
    | .fence _ _ _ _ => some s
    | .mortar m => some { s with mortarIn := s.mortarIn ++ [m] }
    | .copy c => some (s.withCopy c fun c => { c with held := false })
    | .push k loc _ x =>
      match SMap.find s.rings k with
      | none => some (s.dropCount (s.team i).asid x.timeline loc x.stamp)
      | some r => if r.room then some (s.ringPush k x) else none
    | .task k =>
      let c := clusterOf (s.team i).core
      if s.gatherRoom c then some { s with pushed := s.pushed ++ [(c, k)] } else none

/-- The access paths that an effect is on, as a mask (R184). -/
def Effect.paths (e : Effect) : Nat :=
  match e with
  | .write w => 2 ^ w.path
  | .mortar _ => 32
  | .copy _ => 4
  | _ => 0

/-- What a team issued before a fence on its paths `from_` has been released and is not yet performed. -/
def State.beforeFence (s : State) (i from_ unit before : Nat) : Bool :=
  (s.writes.any fun w => w.team == i && bitOf from_ w.path && (if w.unit = 0 then decide (w.group < before) else decide (w.unit ≤ unit))) ||
    (bitOf from_ 5 && s.mortarIn.any fun m => m.team == i && decide (m.unit ≤ unit)) ||
    (bitOf from_ 2 && s.copies.any fun c => c.2.team == i && c.2.kind == 3 && !c.2.held && c.2.unit.any fun u => decide (u ≤ unit))

/-- Release a team's staged effects in order, up to one that must wait. A fence whose accesses are not all
performed stays, and holds back what follows it on its paths (R234); `fences` are those passed over. -/
def State.releaseAll (s : State) (i : Nat) (fences : List Effect) : List Effect → State
  | [] => s.withTeam i fun t => { t with staged := fences }
  | e :: rest =>
    match e with
    | .fence f _ u n => s.releaseAll i (if s.beforeFence i f u n then fences ++ [e] else fences) rest
    | _ =>
      let shut := fences.any fun x => match x with | .fence _ g _ _ => Nat.land g e.paths != 0 | _ => false
      match if shut then none else s.releaseOne i e with
      | some s1 => s1.releaseAll i fences rest
      | none => s.withTeam i fun t => { t with staged := fences ++ e :: rest }

/-- The team of an index in a launch. -/
def State.teamAt (s : State) (l : LaunchId) (ix : Nat) : Option (Nat × Team) :=
  s.teams.find? fun t => decide (t.2.launch = l) && t.2.teamix == ix

/-- A launch that starts no more teams, with teams behind the one whose turn the ticket unit has: a team
that never started has nothing to release. -/
def State.ticketSkips (s : State) (l : LaunchId) : Bool :=
  let g := s.region l.region
  (!g.live || decide ((g.launch l.entrant).state = .killed)) &&
    s.teams.any fun t => decide (t.2.launch = l) && decide ((g.launch l.entrant).ticket < t.2.teamix)

/-- One launch's turn of the ticket unit: the team whose turn it is has ended, or waits at the limit of
what may be staged, or its release has begun; its release has completed once it has ended and its writes have
been accepted, with a unit or without. -/
def State.ticketTurn (s : State) (l : LaunchId) : State :=
  match s.teamAt l ((s.region l.region).launch l.entrant).ticket with
  | none => if s.ticketSkips l then s.withLaunch l fun x => { x with ticket := x.ticket + 1 } else s
  | some (i, t) =>
    let ended := decide (t.place = .ended)
    if ended || t.released || (4096 ≤ t.undrained.length && t.block.isSome) then
      let s1 := (s.withTeam i fun t => { t with released := true }).releaseAll i [] t.staged
      let u := s1.team i
      if ended && u.staged.isEmpty && u.undrained.isEmpty && !s1.looseWrites i s1.serial then s1.withLaunch l fun x => { x with ticket := x.ticket + 1 } else s1
    else s

/-- TICKET_RELEASE: for each launch of a deterministic region. -/
def ticketReleases (r : Nat) (s : State) : State :=
  let g := s.region r
  if g.det then (List.range g.launches.length).foldl (fun s e => s.ticketTurn ⟨r, e⟩) s else s

/-- REGION_DONE (R280). -/
def execRegionDone (region : Nat) (s : State) : Host.Outcome State Fault Refusal := runEvent (regionEnds region) s
/-- RANK (R295). -/
def execRank (region : Nat) (s : State) : Host.Outcome State Fault Refusal := runEvent (ranks region) s
/-- TICKET_RELEASE (R291). -/
def execTicketRelease (region : Nat) (s : State) : Host.Outcome State Fault Refusal := runEvent (ticketReleases region) s

end Sys2Proof.Machine
end

