-- ==== Sys2Proof/Machine/EventsHost.lean ====
section
/-! DEFINITION. Events at the device's edge: links, expanders and ports, reset, power states, the
patrol scrub, registers written over BAR0, and root submissions (R375 to R377, R380, R381, R383, R384,
R389, R390). -/

namespace Sys2Proof.Machine

/-! ## Links (R375, R377, R383) -/

/-- Elements a team still waits for at some keys land as 0 with poison (R189, R357). -/
def Team.losing (t : Team) (hit : Nat → Bool) (code : Nat) : Team :=
  t.ops.foldl (fun t o =>
    let lost := o.parts.filter fun p => hit p.key
    if lost.isEmpty then t
    else
      let t1 := lost.foldl (fun t p => (p.results (zeros p.size) code).foldl Team.land t) t
      let rest := o.parts.filter fun p => !hit p.key
      if rest.isEmpty && o.mortar == 0 then
        let t2 := { t1 with ops := t1.ops.filter fun q => q.ident != o.ident }
        match o.counter with
        | some c => t2.bumpA c
        | none => t2
      else { t1 with ops := t1.ops.map fun q => if q.ident = o.ident then { q with parts := rest } else q }) t

/-- Every team's outstanding reads at some keys return poisoned with ORIGIN REMOTE. -/
def State.losing (s : State) (hit : Nat → Bool) : State :=
  { s with teams := s.teams.map fun t => (t.1, t.2.losing hit (Cause.code .remote)) }

/-- An expander is lost: its outstanding replies are poisoned, and it is marked; one that was marked has lost
its link again (R377). -/
def State.loseExpander (s : State) (e : Nat) : State :=
  if e < 8 && (SMap.val s.hearth.expanders {} e).state != 0 then
    let s1 := s.losing fun key => expanderOf key == some e
    s1.withHearth fun h => { h with expanders := SMap.alter h.expanders e fun x => { x with state := 2, retrained := false } }
  else s

/-- A host link goes down or trains anew: the expanders behind it are lost (R377). -/
def State.loseBehind (s : State) (link : Nat) : State := (List.range 4).foldl (fun s k => s.loseExpander (4 * link + k)) s

/-- HOST_LINK_TRAIN: a host link trains at x16, x8 or x4. -/
def hostTrains (link lanes : Nat) (cxl : Bool) (s : State) : State :=
  if link < 2 && [16, 8, 4].contains lanes then
    (s.loseBehind link).withHearth fun h => { h with links := SMap.put h.links link { state := 1, lanes := lanes, cxl := cxl } }
  else s

/-- CXL_LINK_LOST. -/
def cxlLost (e : Nat) (s : State) : State := s.loseExpander e
/-- COMPLETION_TIMEOUT. -/
def timesOut (e : Nat) (s : State) : State := s.loseExpander e

/-- CXL_LINK_RETRAIN: an expander behind a link that has trained as CXL trains; one that was lost keeps
its mark until RESET_LINK. -/
def cxlTrains (e : Nat) (s : State) : State :=
  let l := SMap.val s.hearth.links {} (e / 4)
  if e < 8 && l.state == 1 && l.cxl then
    s.withHearth fun h =>
      let x := SMap.val h.expanders {} e
      let y : Link := if x.state = 2 then { x with retrained := true } else { x with state := 1, lanes := l.lanes }
      { h with expanders := SMap.put h.expanders e y }
  else s

/-- A Laelle Link port that has not failed: eight lanes (R383). -/
def portUp : Link := { state := 1, lanes := 8 }

/-- PORT_FAILURE: the outstanding reads of a Laelle Link port return poisoned. -/
def portFails (p : Nat) (s : State) : State :=
  if p < 12 then
    let s1 := s.losing fun key => (hostOf key).any fun a => Config.peerPort a == some p
    s1.withHearth fun h => { h with ports := SMap.put h.ports p { SMap.val h.ports portUp p with state := 2 } }
  else s

/-! ## Reset and power (R384, R390) -/

/-- DEVICE_RESET: the boot ROM verifies the image in flash; Hearth runs only when it is good. What the
reset does not reach stays: memory, channels' repair, links, expanders, ports, flash and what the
Cellar holds (log 4). The image in flash is the one that runs from then on (R391). -/
def resets (s : State) : State :=
  let good := Config.firmwareGood s.hearth.flash
  { State.reset with
    turns := s.turns, free := s.free, serial := s.serial, mem := s.mem, metadata := s.metadata
    channels := s.channels, cellars := s.cellars
    hearth :=
      { flash := s.hearth.flash, running := s.hearth.flash, bootFailed := !good, power := if good then .run else .vault, links := s.hearth.links
        expanders := s.hearth.expanders, ports := s.hearth.ports } }

/-- The device is idle (R384). -/
def State.idle (s : State) : Bool :=
  (s.hearth.binds.all fun b => b.2.state != 1) && (s.regions.all fun g => decide (g.2.state ≠ .ready)) &&
    s.copies.isEmpty && (s.writes.all fun w => w.path != 7) && (s.sills.all fun u => u.2.running.isNone) &&
    s.hearth.admpi == s.hearth.admci && s.hearth.queues.all fun q => q.2.pi == q.2.taken

/-- The deepest state whose exit latency the host tolerates. -/
def State.deepest (s : State) : Power :=
  if 40000 ≤ s.hearth.ltol && s.spaces.isEmpty then .vault
  else if 1500 ≤ s.hearth.ltol then .slumber
  else if 60 ≤ s.hearth.ltol then .drowse
  else if 2 ≤ s.hearth.ltol then .quiet
  else .run

/-- What Vault leaves: Hearth, the links, the repair of the channels, the cycle counts of the cores and what the
Cellar holds. The contents of the HBM are lost, as those never written, and the cores and Sill units are
otherwise as after reset (R29, R384; log 3). -/
def State.vault (s : State) : State :=
  { s with
    mem := s.mem.filter fun c => !isDram c.1, metadata := [], covers := [], teams := [], returns := []
    cores := s.cores.map fun (c : Nat × Core) => (c.1, { cyc := c.2.cyc })
    tasks := [], pushed := [], rings := [], writes := [], mortarIn := [], mortar := [], copies := [], grids := []
    sills := s.sills.map fun (u : Nat × Sill) => (u.1, { limitLess := u.2.limitLess, liveLess := u.2.liveLess }) }

/-- IDLE_ENTRY. -/
def goesIdle (s : State) : State :=
  if s.idle && !s.hearth.bootFailed then
    let p := s.deepest
    let s1 := s.withHearth fun h => { h with power := p }
    if p = .vault then s1.vault else s1
  else s

/-- POWER_EXIT. -/
def wakes (s : State) : State := if s.hearth.bootFailed then s else s.withHearth fun h => { h with power := .run }

/-! ## Errors and the patrol scrub (R389) -/

/-- Set SEV of a burst. -/
def State.setSev (s : State) (b sev : Nat) : State :=
  let md := s.burst b
  let new : BitVec 32 := md.extractLsb' 15 17 ++ BitVec.ofNat 2 sev ++ (0 : BitVec 13)
  { s with metadata := SMap.set 0 s.metadata b new }

/-- The base die of a channel: eight stacks of 64 channels (log 15). -/
def stackOf (chan : Nat) : Nat := chan / 64
/-- Entries used of a base die's remap table. -/
def State.remapsUsed (s : State) (stack : Nat) : Nat :=
  s.channels.foldl (fun n c => if stackOf c.1 = stack then n + c.2.remapped.length else n) 0

/-- Change a channel's repair state. -/
def State.withChannel (s : State) (c : Nat) (f : Channel → Channel) : State :=
  { s with channels := SMap.upd {} s.channels c f }

/-- An uncorrectable error, or one that cannot be remapped. -/
def State.spoil (s : State) (atom chan : Nat) : State :=
  ((s.uncover (32 * atom) 32).poisonBurst (atom / 2) 3).withChannel chan fun c => { c with uncorrected := c.uncorrected + 1 }

/-- A read finds a correctable error in an atom: it is corrected and counted, and an atom corrected twice is
remapped. -/
def State.corrects (s : State) (atom chan : Nat) : State :=
  let c := s.channel chan
  let sev := (s.burst (atom / 2)).extractLsb' 13 2
  let s1 := s.withChannel chan fun c => { c with corrected := c.corrected + 1 }
  if c.remapped.contains atom then s1
  else if !c.once.contains atom then
    let s2 := s1.withChannel chan fun c => { c with once := atom :: c.once }
    if sev = 0 then s2.setSev (atom / 2) 1 else s2
  else if s.remapsUsed (stackOf chan) < 4096 then
    let s2 := s1.withChannel chan fun c => { c with once := c.once.erase atom, remapped := atom :: c.remapped }
    if sev = 3 then s2 else s2.setSev (atom / 2) 2
  else s1.spoil atom chan

/-- PATROL_SCRUB: a patrol read of the atom of 32 bytes finds nothing (0), a correctable error (1), or an
uncorrectable one (2). An error that another read of the atom finds comes about ahead of that read, as 3 or 4,
and the patrol stays where it is (log 15). -/
def scrubs (atom found : Nat) (s : State) : State :=
  if 2 ^ 34 ≤ atom then s
  else
    let chan := (channelOf (32 * atom)).1
    let s1 := if found < 3 then s.withHearth fun h => { h with patrol := 32 * atom } else s
    match found with
    | 0 => s1
    | 1 | 3 => s1.corrects atom chan
    | _ => s1.spoil atom chan

/-! ## Registers over BAR0 (R376, R378, R380, R381) -/

/-- A write of ADMPI. -/
def writeAdmpi (v : BitVec 32) (s : State) : State := s.withHearth fun h => { h with admpi := v }
/-- A write of ADMCC: one that reports more than has been written is discarded. -/
def writeAdmcc (v : BitVec 32) (s : State) : State :=
  if (v - s.hearth.admcc).toNat ≤ (s.hearth.admdone - s.hearth.admcc).toNat then s.withHearth fun h => { h with admcc := v } else s
/-- A write of WQPI of a queue: one that does not advance it has no effect, nor has one of a queue that
is not there or that DELETE_WQ has taken. -/
def writeWqpi (q : Nat) (v : BitVec 32) (s : State) : State :=
  s.withHearth fun h =>
    { h with queues := SMap.alter h.queues q fun w => if !w.closing && (v - w.pi).toNat < 2 ^ 31 then { w with pi := v } else w }
/-- A write of WQCC of a queue. -/
def writeWqcc (q : Nat) (v : BitVec 32) (s : State) : State :=
  s.withHearth fun h =>
    { h with queues := SMap.alter h.queues q fun w => if (v - w.cc).toNat ≤ (w.written - w.cc).toNat then { w with cc := v } else w }

/-- A half of a 64-bit register. -/
def setHalf (old : Nat) (high : Bool) (v : Nat) : Nat :=
  if high then old % 2 ^ 32 + v % 2 ^ 32 * 2 ^ 32 else old / 2 ^ 32 * 2 ^ 32 + v % 2 ^ 32

/-- A write of four bytes of BAR0. -/
def State.barWord (s : State) (off : Nat) (v : Nat) : State :=
  let open_ := s.hearth.admpi != s.hearth.admci
  let w : BitVec 32 := BitVec.ofNat 32 v
  if off = 0x20 then writeAdmpi w s
  else if off = 0x28 then writeAdmcc w s
  else if off / 4 = 2 || off / 4 = 3 then
    if open_ then s else s.withHearth fun h => { h with admqb := setHalf h.admqb (off == 12) v, admcc := 0 }
  else if off = 0x10 then if open_ then s else s.withHearth fun h => { h with admqn := v }
  else if off / 4 = 6 || off / 4 = 7 then
    if open_ then s else s.withHearth fun h => { h with admcb := setHalf h.admcb (off == 28) v }
  else if 0x100000 ≤ off && off < 0x108000 && off % 8 = 0 then writeWqpi ((off - 0x100000) / 8) w s
  else if 0x200000 ≤ off && off < 0x208000 && off % 8 = 0 then writeWqcc ((off - 0x200000) / 8) w s
  else s

/-- What an aligned 4-byte read of BAR0 gives where the spec names a register (R376). -/
def State.barReg (s : State) (off : Nat) : Option Nat :=
  let h := s.hearth
  if off = 0 then some 0x00090001
  else if off = 8 then some (h.admqb % 2 ^ 32)
  else if off = 12 then some (h.admqb / 2 ^ 32 % 2 ^ 32)
  else if off = 0x10 then some h.admqn
  else if off = 0x18 then some (h.admcb % 2 ^ 32)
  else if off = 0x1C then some (h.admcb / 2 ^ 32 % 2 ^ 32)
  else if off = 0x20 then some h.admpi.toNat
  else if off = 0x24 then some h.admci.toNat
  else if off = 0x28 then some h.admcc.toNat
  else if 0x100000 ≤ off && off < 0x108000 && off % 8 = 0 then some (((SMap.find h.queues ((off - 0x100000) / 8)).map (·.pi.toNat)).getD 0)
  else if 0x200000 ≤ off && off < 0x208000 && off % 8 = 0 then some (((SMap.find h.queues ((off - 0x200000) / 8)).map (·.cc.toNat)).getD 0)
  else none

/-- What a read of BAR0 gives: all ones where it is not an aligned access of 4 or 8 bytes, none where the spec
names no register (R376). -/
def State.barReads (s : State) (off size : Nat) : Option Nat :=
  if (size = 4 || size = 8) && off % size = 0 then
    if size = 4 then s.barReg off
    else (s.barReg off).bind fun lo => (s.barReg (off + 4)).map fun hi => lo + hi * 2 ^ 32
  else some (2 ^ (8 * size) - 1)

/-- BAR0_WRITE: an aligned access of 4 or 8 bytes; any other is discarded. -/
def barWrites (off size : Nat) (v : BitVec 64) (s : State) : State :=
  if (size = 4 || size = 8) && off % size = 0 then
    let s1 := s.barWord off (v.toNat % 2 ^ 32)
    if size = 8 then s1.barWord (off + 4) (v.toNat / 2 ^ 32) else s1
  else s

/-! ## Root submission (R380, R381) -/

/-- An entry of a work queue: RCB address and TAG, and whether it is well formed. -/
def entryOf (b : List Byte) : Word × Word × Bool :=
  (BitVec.ofNat 64 (bytesAt b 0 8), BitVec.ofNat 64 (bytesAt b 8 8), bytesAt b 16 48 == 0 && bytesAt b 0 8 % 256 == 0)

/-- Open the root region of an entry: STATUS of its completion, or 0 with the region open. The control
block is read to learn TIME, then at TIME's generation (R281; log 23). -/
def openRoot (q : Nat) (w : WorkQueue) (rcb tag : Word) (good : Bool) : Act Nat := do
  if !good then return 1
  let s ← get
  match SMap.find s.spaces w.asid with
  | none => return 9
  | some sp => do
    let who : Opener := { holder := .none, asid := w.asid, timeline := q, gen := 0, declared := w.declared }
    match ← who.read rcb 256 { r := true, w := true } with
    | none => return 11
    | some (b0, _) => do
      let c0 := (rcbTime b0).headD 0
      match ← { who with gen := c0 }.read rcb 256 { r := true, w := true } with
      | none => return 11
      | some (b, ks) => do
        if rcbBad b then return 1
        if c0 < sp.floor q then return 9
        let key := ((ks.head?).map (·.1)).getD 0
        let x ← openRegion who rcb key b none [0] (fun _ _ => true) q tag
        return x.1

/-- ROOT_SUBMISSION: the device takes the next entry of a queue while a completion slot is left for it. -/
def submits (q : Nat) (s : State) : State :=
  match SMap.find s.hearth.queues q with
  | none => s
  | some w =>
    if s.dispatching && w.pi != w.taken && w.rids.isEmpty && decide ((w.taken - w.cc).toNat < w.slots) then
      let e := entryOf (readBytes s.mem (hostKey (w.ring + 64 * (w.taken.toNat % w.slots))) 64)
      let x := (openRoot q w e.1 e.2.1 e.2.2).go s
      let took (s : State) : State := s.withHearth fun h =>
        { h with queues := SMap.alter h.queues q fun w => { w with taken := w.taken + 1, rids := [], declared := [] } }
      match x.1 with
      | .ok 0 => took x.2
      | .ok c => (took x.2).queueDone q e.2.1 c 0 0
      | .error (.block b) => x.2.withHearth fun h => { h with queues := SMap.alter h.queues q fun w => { w with rids := b.rids } }
      | .error _ => x.2
    else s
  
/-! ## The meanings -/

/-- HOST_LINK_TRAIN (R375). -/
def execHostLinkTrain (link lanes : Nat) (cxl : Bool) (s : State) : Host.Outcome State Fault Refusal :=
  runEvent (hostTrains link lanes cxl) s
/-- CXL_LINK_LOST (R377). -/
def execCxlLinkLost (expander : Nat) (s : State) : Host.Outcome State Fault Refusal := runEvent (cxlLost expander) s
/-- COMPLETION_TIMEOUT (R357). -/
def execCompletionTimeout (expander : Nat) (s : State) : Host.Outcome State Fault Refusal := runEvent (timesOut expander) s
/-- CXL_LINK_RETRAIN (R377). -/
def execCxlLinkRetrain (expander : Nat) (s : State) : Host.Outcome State Fault Refusal := runEvent (cxlTrains expander) s
/-- PORT_FAILURE (R383). -/
def execPortFailure (port : Nat) (s : State) : Host.Outcome State Fault Refusal := runEvent (portFails port) s
/-- DEVICE_RESET (R390). -/
def execDeviceReset (s : State) : Host.Outcome State Fault Refusal := runEvent resets s
/-- IDLE_ENTRY (R384). -/
def execIdleEntry (s : State) : Host.Outcome State Fault Refusal := runEvent goesIdle s
/-- POWER_EXIT (R384). -/
def execPowerExit (s : State) : Host.Outcome State Fault Refusal := runEvent wakes s
/-- PATROL_SCRUB (R389). -/
def execPatrolScrub (atom found : Nat) (s : State) : Host.Outcome State Fault Refusal := runEvent (scrubs atom found) s
/-- ADMPI (R378). -/
def execAdmpi (value : BitVec 32) (s : State) : Host.Outcome State Fault Refusal := runEvent (writeAdmpi value) s
/-- WQPI (R380). -/
def execWqpi (queue : Nat) (value : BitVec 32) (s : State) : Host.Outcome State Fault Refusal := runEvent (writeWqpi queue value) s
/-- ADMCC (R381). -/
def execAdmcc (value : BitVec 32) (s : State) : Host.Outcome State Fault Refusal := runEvent (writeAdmcc value) s
/-- WQCC (R381). -/
def execWqcc (queue : Nat) (value : BitVec 32) (s : State) : Host.Outcome State Fault Refusal := runEvent (writeWqcc queue value) s
/-- BAR0_WRITE (R376). -/
def execBar0Write (offset size : Nat) (value : BitVec 64) (s : State) : Host.Outcome State Fault Refusal :=
  runEvent (barWrites offset size value) s
/-- ROOT_SUBMISSION (R380). -/
def execRootSubmission (queue : Nat) (s : State) : Host.Outcome State Fault Refusal := runEvent (submits queue) s

end Sys2Proof.Machine
end

