-- ==== Sys2Proof/Machine/Hash.lean ====
section
/-! DEFINITION. The hash functions that signatures and measurements use: SHA-384 and SHA-512 (FIPS 180-4), SHAKE128 and
SHAKE256 (FIPS 202). The spec names the standards and gives no text of them (R56, R382; log 16). -/

namespace Sys2Proof.Hash

open Sys2Proof.Machine (zeros leNat leBytes)

/-- Bytes cut into blocks of a size; the first argument is the number of blocks. -/
def blocks (size : Nat) : Nat → List Byte → List (List Byte)
  | 0, _ => []
  | n + 1, bs => bs.take size :: blocks size n (bs.drop size)

/-! ## SHA-2 -/

/-- The first primes below a bound. -/
def primes (below : Nat) : List Nat :=
  (List.range below).filter fun n => 2 ≤ n && (List.range n).all fun k => k < 2 || n % k != 0

/-- The greatest `x` with `power x` at most `n`, found bit by bit from bit `bits - 1` down. -/
def rootOf (power : Nat → Nat) (n : Nat) : Nat → Nat → Nat
  | 0, x => x
  | b + 1, x => rootOf power n b (if power (x + 2 ^ b) ≤ n then x + 2 ^ b else x)

/-- The first 64 bits behind the point of a square root. -/
def sqrtBits (p : Nat) : BitVec 64 := BitVec.ofNat 64 (rootOf (fun x => x * x) (p * 2 ^ 128) 72 0)
/-- The first 64 bits behind the point of a cube root. -/
def cbrtBits (p : Nat) : BitVec 64 := BitVec.ofNat 64 (rootOf (fun x => x * x * x) (p * 2 ^ 192) 72 0)

/-- The 80 round constants. -/
def shaK : List (BitVec 64) := (primes 410).map cbrtBits
/-- The initial value of SHA-512. -/
def sha512Start : List (BitVec 64) := ((primes 20).take 8).map sqrtBits
/-- The initial value of SHA-384. -/
def sha384Start : List (BitVec 64) := ((primes 54).drop 8).map sqrtBits

/-- A big-endian number. -/
def beNat (bs : List Byte) : Nat := bs.foldl (fun n b => 256 * n + b.toNat) 0
/-- The big-endian bytes of a number. -/
def beBytes (n x : Nat) : List Byte := (List.range n).map fun i => BitVec.ofNat 8 (x / 256 ^ (n - 1 - i))

/-- The message schedule, latest word first. -/
def schedule : Nat → List (BitVec 64) → List (BitVec 64)
  | 0, ws => ws
  | n + 1, ws =>
    let w (i : Nat) : BitVec 64 := ws.getD i 0
    let s0 := (w 14).rotateRight 1 ^^^ (w 14).rotateRight 8 ^^^ (w 14) >>> 7
    let s1 := (w 1).rotateRight 19 ^^^ (w 1).rotateRight 61 ^^^ (w 1) >>> 6
    schedule n ((w 15 + s0 + w 6 + s1) :: ws)

/-- One round over the working variables a to h. -/
def shaRound (v : List (BitVec 64)) (kw : BitVec 64) : List (BitVec 64) :=
  match v with
  | [a, b, c, d, e, f, g, h] =>
    let s1 := e.rotateRight 14 ^^^ e.rotateRight 18 ^^^ e.rotateRight 41
    let t1 := h + s1 + ((e &&& f) ^^^ (~~~e &&& g)) + kw
    let s0 := a.rotateRight 28 ^^^ a.rotateRight 34 ^^^ a.rotateRight 39
    [t1 + s0 + ((a &&& b) ^^^ (a &&& c) ^^^ (b &&& c)), a, b, c, d + t1, e, f, g]
  | v => v

/-- One block of 128 bytes. -/
def shaBlock (hs : List (BitVec 64)) (block : List Byte) : List (BitVec 64) :=
  let first := (blocks 8 16 block).map fun b => BitVec.ofNat 64 (beNat b)
  let ws := (schedule 64 first.reverse).reverse
  let v := ((shaK.zip ws).map fun p => p.1 + p.2).foldl shaRound hs
  (hs.zip v).map fun p => p.1 + p.2

/-- The digest of a message from an initial value: 64 bytes. -/
def sha2 (start : List (BitVec 64)) (m : List Byte) : List Byte :=
  let n := (m.length + 17 + 127) / 128
  let padded := m ++ [0x80] ++ zeros (128 * n - m.length - 17) ++ beBytes 16 (8 * m.length)
  ((blocks 128 n padded).foldl shaBlock start).flatMap fun h => beBytes 8 h.toNat

/-- SHA-512. -/
def sha512 (m : List Byte) : List Byte := sha2 sha512Start m
/-- SHA-384. -/
def sha384 (m : List Byte) : List Byte := (sha2 sha384Start m).take 48

/-! ## Keccak -/

/-- The lane at (x, y) of a state of 25 lanes. -/
def lane (a : List (BitVec 64)) (x y : Nat) : BitVec 64 := a.getD (x % 5 + 5 * (y % 5)) 0
/-- A state by its lanes. -/
def byLanes (f : Nat → Nat → BitVec 64) : List (BitVec 64) := (List.range 25).map fun i => f (i % 5) (i / 5)

/-- Rotations by lane: (x, y) and the offset, along the path of FIPS 202. -/
def rhoWalk : Nat → Nat → Nat → Nat → List (Nat × Nat)
  | 0, _, _, _ => []
  | n + 1, t, x, y => (x + 5 * y, (t + 1) * (t + 2) / 2 % 64) :: rhoWalk n (t + 1) y ((2 * x + 3 * y) % 5)
/-- The rotation of each lane. -/
def rho : List Nat :=
  let w := rhoWalk 24 0 1 0
  (List.range 25).map fun i => ((w.find? fun p => p.1 == i).map (·.2)).getD 0

/-- The shift register behind the round constants. -/
def lfsr (x : Nat) : Nat := Nat.xor (2 * x % 256) (if 128 ≤ x then 0x71 else 0)
/-- The round constants of the rounds that are left, from a register. -/
def roundConstants : Nat → Nat → List (BitVec 64)
  | 0, _ => []
  | n + 1, x =>
    let r := (List.range 7).foldl (fun (r : Nat × BitVec 64) j =>
      (lfsr r.1, if r.1 % 2 = 1 then r.2 ||| BitVec.twoPow 64 (2 ^ j - 1) else r.2)) (x, 0)
    r.2 :: roundConstants n r.1
/-- The 24 round constants. -/
def iota : List (BitVec 64) := roundConstants 24 1

/-- One round of the permutation. -/
def keccakRound (a : List (BitVec 64)) (rc : BitVec 64) : List (BitVec 64) :=
  let c := (List.range 5).map fun x => (List.range 5).foldl (fun v y => v ^^^ lane a x y) 0
  let d := (List.range 5).map fun x => c.getD ((x + 4) % 5) 0 ^^^ (c.getD ((x + 1) % 5) 0).rotateLeft 1
  let t := ((List.range 25).zip (a.zip rho)).map fun p => (p.2.1 ^^^ d.getD (p.1 % 5) 0).rotateLeft p.2.2
  let b := byLanes fun x y => lane t (x + 3 * y) x
  let e := byLanes fun x y => lane b x y ^^^ (~~~ lane b (x + 1) y &&& lane b (x + 2) y)
  match e with
  | x :: rest => (x ^^^ rc) :: rest
  | [] => []

/-- Keccak-f[1600]. -/
def keccak (a : List (BitVec 64)) : List (BitVec 64) := iota.foldl keccakRound a

/-- Absorb a block. -/
def absorb (a : List (BitVec 64)) (block : List Byte) : List (BitVec 64) :=
  let ws := (blocks 8 25 (block ++ zeros (200 - block.length))).map fun b => BitVec.ofNat 64 (leNat b)
  keccak ((a.zip ws).map fun p => p.1 ^^^ p.2)

/-- The bytes of a state. -/
def stateBytes (a : List (BitVec 64)) : List Byte := a.flatMap fun w => leBytes 8 w.toNat

/-- Squeeze a number of blocks. -/
def squeeze (rate : Nat) : Nat → List (BitVec 64) → List Byte
  | 0, _ => []
  | n + 1, a => (stateBytes a).take rate ++ squeeze rate n (keccak a)

/-- SHAKE at a rate in bytes: a number of blocks of output. -/
def shake (rate : Nat) (m : List Byte) (out : Nat) : List Byte :=
  let n := m.length / rate + 1
  let k := rate * n - m.length
  let pad : List Byte := if k = 1 then [0x9F] else [0x1F] ++ zeros (k - 2) ++ [0x80]
  squeeze rate out ((blocks rate n (m ++ pad)).foldl absorb (List.replicate 25 0))

/-- SHAKE128. -/
def shake128 (m : List Byte) (out : Nat) : List Byte := shake 168 m out
/-- SHAKE256. -/
def shake256 (m : List Byte) (out : Nat) : List Byte := shake 136 m out

end Sys2Proof.Hash
end

