-- ==== Sys2Proof/Machine/Signature.lean ====
section
/-! DEFINITION. Verification of signatures: pure Ed25519 (RFC 8032) and ML-DSA-65 with an empty context string
(FIPS 204). The spec names the standards and gives no text of them (R56; log 16). -/

namespace Sys2Proof.Ed25519

open Sys2Proof.Hash
open Sys2Proof.Machine (leNat leBytes)

/-- The prime of the field. -/
def p : Nat := 2 ^ 255 - 19
/-- The order of the base point. -/
def order : Nat := 2 ^ 252 + 27742317777372353535851937790883648493

/-- A product in the field. -/
def mul (a b : Nat) : Nat := a * b % p
/-- A sum. -/
def add (a b : Nat) : Nat := (a + b) % p
/-- A difference of reduced elements. -/
def sub (a b : Nat) : Nat := (a + p - b) % p
/-- A power; the exponent has 255 bits. -/
def pow (a e : Nat) : Nat :=
  (List.range 255).reverse.foldl (fun r i => let q := mul r r; if e / 2 ^ i % 2 = 1 then mul q a else q) 1
/-- An inverse. -/
def inv (a : Nat) : Nat := pow a (p - 2)
/-- The curve's constant d. -/
def d : Nat := mul (p - 121665) (inv 121666)

/-- A point in extended coordinates. -/
structure Point where
  x : Nat
  y : Nat
  z : Nat
  t : Nat
  deriving DecidableEq, Repr

/-- The neutral point. -/
def zero : Point := ⟨0, 1, 1, 0⟩

/-- The sum of two points. -/
def Point.plus (u v : Point) : Point :=
  let a := mul (sub u.y u.x) (sub v.y v.x)
  let b := mul (add u.y u.x) (add v.y v.x)
  let c := mul (mul u.t (add d d)) v.t
  let e := mul (add u.z u.z) v.z
  let f := sub b a
  let g := sub e c
  let h := add e c
  let i := add b a
  ⟨mul f g, mul h i, mul g h, mul f i⟩

/-- A multiple; the factor has 256 bits. -/
def Point.times (u : Point) (n : Nat) : Point :=
  (List.range 256).reverse.foldl (fun r i => let q := r.plus r; if n / 2 ^ i % 2 = 1 then q.plus u else q) zero

/-- The same point. -/
def Point.same (u v : Point) : Bool := mul u.x v.z == mul v.x u.z && mul u.y v.z == mul v.y u.z

/-- A point from its y and the low bit of its x. -/
def fromY (y sign : Nat) : Option Point :=
  if p ≤ y then none
  else
    let u := sub (mul y y) 1
    let v := add (mul d (mul y y)) 1
    let v3 := mul v (mul v v)
    let x0 := mul (mul u v3) (pow (mul u (mul v3 (mul v3 v))) ((p - 5) / 8))
    let w := mul v (mul x0 x0)
    let x1 : Option Nat :=
      if w = u then some x0 else if w = sub 0 u then some (mul x0 (pow 2 ((p - 1) / 4))) else none
    x1.bind fun x =>
      if x = 0 && sign = 1 then none
      else
        let x := if x % 2 = sign then x else p - x
        some ⟨x, y, 1, mul x y⟩

/-- A point from its 32 bytes. -/
def decode (b : List Byte) : Option Point := fromY (leNat b % 2 ^ 255) (leNat b / 2 ^ 255 % 2)

/-- The base point. -/
def base : Point := (fromY (mul 4 (inv 5)) 0).getD zero

/-- Verify a signature of 64 bytes over a message under a key of 32 bytes, by the equation with the cofactor
(log 16). -/
def verify (message key sig : List Byte) : Bool :=
  let s := leNat (sig.drop 32)
  match decode key, decode (sig.take 32) with
  | some a, some r =>
    let k := leNat (sha512 (sig.take 32 ++ key ++ message)) % order
    decide (sig.length = 64) && decide (key.length = 32) && decide (s < order) &&
      ((base.times s).times 8).same ((r.plus (a.times k)).times 8)
  | _, _ => false

end Sys2Proof.Ed25519

namespace Sys2Proof.MlDsa65

open Sys2Proof.Hash
open Sys2Proof.Machine (leNat leBytes)

/-- The modulus. -/
def q : Nat := 8380417
/-- γ₁. -/
def gamma1 : Nat := 2 ^ 19
/-- γ₂. -/
def gamma2 : Nat := (q - 1) / 32
/-- Rows and columns of the matrix. -/
def rows : Nat := 6
/-- Columns. -/
def cols : Nat := 5
/-- Non-zero coefficients of the challenge. -/
def tau : Nat := 49
/-- β. -/
def beta : Nat := 196
/-- Hints that a signature may carry. -/
def omega : Nat := 55

/-- A polynomial of 256 coefficients below q. -/
abbrev Poly := List Nat

/-- The powers of ζ = 1753, of order 512. -/
def powers : Nat → Nat → List Nat
  | 0, _ => []
  | n + 1, x => x :: powers n (x * 1753 % q)
/-- ζ to the power of an index. -/
def zetas : List Nat := powers 512 1
/-- Eight bits in the other order. -/
def bitRev (i : Nat) : Nat := (List.range 8).foldl (fun n k => n + (i / 2 ^ k % 2) * 2 ^ (7 - k)) 0
/-- The root at which a place of the transform evaluates, as a power of ζ. -/
def rootAt (i : Nat) : Nat := 2 * bitRev i + 1

/-- The transform: the values of a polynomial at the 256 roots. -/
def ntt (f : Poly) : Poly :=
  (List.range 256).map fun i =>
    (((List.range 256).zip f).foldl (fun n c => n + c.2 * zetas.getD (rootAt i * c.1 % 512) 0) 0) % q
/-- The polynomial with values at the roots; 8347681 is the inverse of 256. -/
def intt (f : Poly) : Poly :=
  let vs := (List.range 256).zip f
  (List.range 256).map fun j =>
    (vs.foldl (fun n v => n + v.2 * zetas.getD ((512 - rootAt v.1 * j % 512) % 512) 0) 0) % q * 8347681 % q

/-- Products of values. -/
def times (f g : Poly) : Poly := (f.zip g).map fun x => x.1 * x.2 % q
/-- Sums. -/
def plus (f g : Poly) : Poly := (f.zip g).map fun x => (x.1 + x.2) % q
/-- Differences. -/
def minus (f g : Poly) : Poly := (f.zip g).map fun x => (x.1 + q - x.2) % q

/-- Numbers of `w` bits packed in bytes, lowest first: `n` of them. -/
def unpack (w n : Nat) (b : List Byte) : List Nat :=
  let x := leNat b
  (List.range n).map fun i => x / 2 ^ (w * i) % 2 ^ w

/-- The first 256 values below q of triples of bytes. -/
def rejected : Nat → List Byte → Poly
  | 0, _ => []
  | n + 1, b0 :: b1 :: b2 :: rest =>
    let x := b0.toNat + 256 * b1.toNat + 65536 * (b2.toNat % 128)
    if x < q then x :: rejected n rest else rejected n rest
  | _, _ => []
/-- An element of the matrix, in the transform's domain: it takes what it needs of 16 blocks. -/
def element (seed : List Byte) (r s : Nat) : Poly :=
  (rejected 896 (shake128 (seed ++ [BitVec.ofNat 8 s, BitVec.ofNat 8 r]) 16)).take 256

/-- Place the challenge's coefficients from index `i` on, with the signs and bytes that are left. -/
def inBall : Nat → Nat → Nat → List Byte → Poly → Poly
  | 0, _, _, _, c => c
  | _, _, _, [], c => c
  | fuel + 1, i, signs, j :: rest, c =>
    if 256 ≤ i then c
    else if j.toNat ≤ i then
      let c1 := (c.set i (c.getD j.toNat 0)).set j.toNat (if signs % 2 = 1 then q - 1 else 1)
      inBall fuel (i + 1) (signs / 2) rest c1
    else inBall fuel i signs rest c
/-- The challenge of a hash: it takes what it needs of 4 blocks. -/
def challenge (c : List Byte) : Poly :=
  let s := shake256 c 4
  inBall 536 (256 - tau) (leNat (s.take 8)) (s.drop 8) (List.replicate 256 0)

/-- A value decomposed: its high part, and whether its low part is above 0. -/
def decompose (r : Nat) : Nat × Bool :=
  let low := r % (2 * gamma2)
  let high := if low ≤ gamma2 then r - low else r - low + 2 * gamma2
  if high = q - 1 then (0, false) else (high / (2 * gamma2), decide (0 < low) && decide (low ≤ gamma2))
/-- The high part of a value under a hint. -/
def useHint (h : Bool) (r : Nat) : Nat :=
  let x := decompose r
  if !h then x.1 else if x.2 then (x.1 + 1) % 16 else (x.1 + 15) % 16

/-- Places strictly rising. -/
def rising : List Nat → Bool
  | a :: b :: rest => decide (a < b) && rising (b :: rest)
  | _ => true
/-- The hints of each row: places below ω from the end of the row before on; none where they are malformed. -/
def hints (y : List Nat) : Nat → List Nat → Option (List (List Nat))
  | at_, [] => if (y.drop at_).all (· == 0) then some [] else none
  | at_, e :: ends =>
    let mine := (y.take e).drop at_
    if e < at_ || omega < e || !rising mine then none else (hints y e ends).map (mine :: ·)

/-- Verify a signature of 3,309 bytes over a message under a key of 1,952 bytes. -/
def verify (message key sig : List Byte) : Bool :=
  let seed := key.take 32
  let t1 := (List.range rows).map fun i => (unpack 10 256 ((key.drop (32 + 320 * i)).take 320)).map fun x => x * 2 ^ 13 % q
  let c := sig.take 48
  let raw := (List.range cols).map fun i => unpack 20 256 ((sig.drop (48 + 640 * i)).take 640)
  let small := raw.all fun f => f.all fun x => beta < x && x < 2 * gamma1 - beta
  let z := raw.map fun f => ntt (f.map fun x => (q + gamma1 - x) % q)
  let y := (sig.drop (48 + 640 * cols)).map (·.toNat)
  match hints (y.take omega) 0 (y.drop omega) with
  | none => false
  | some hs =>
    let mu := (shake256 ((shake256 key 1).take 64 ++ [0, 0] ++ message) 1).take 64
    let ch := ntt (challenge c)
    let w1 := ((List.range rows).zip (t1.zip hs)).map fun r =>
      let az := ((List.range cols).zip z).foldl (fun f s => plus f (times (element seed r.1 s.1) s.2)) (List.replicate 256 0)
      let w := intt (minus az (times ch (ntt r.2.1)))
      ((List.range 256).zip w).map fun x => useHint (r.2.2.contains x.1) x.2
    let packed := w1.flatMap fun f => leBytes 128 (((List.range 256).zip f).foldl (fun n x => n + x.2 * 16 ^ x.1) 0)
    decide (sig.length = 3309) && decide (key.length = 1952) && small && decide (c = (shake256 (mu ++ packed) 1).take 48)

end Sys2Proof.MlDsa65
end

