-- ==== Sys2Proof/Machine/Image.lean ====
section
/-! DEFINITION. Signed Plely images as CHECK_IMAGE reads them (R47, R48, R56, R394). -/

namespace Sys2Proof.Machine

/-- A section header of an image (R48). -/
structure SectHead where
  ident : Nat
  align : Nat
  flags : Nat
  zero : Nat
  offset : Nat
  size : Nat
  addr : Nat
  deriving DecidableEq, Repr

/-- The section header at an offset of a file. -/
def sectAt (b : List Byte) (o : Nat) : SectHead :=
  ⟨bytesAt b o 1, bytesAt b (o + 1) 1, bytesAt b (o + 2) 2, bytesAt b (o + 4) 4, bytesAt b (o + 8) 8, bytesAt b (o + 16) 8,
    bytesAt b (o + 24) 8⟩

/-- The section headers of a file. -/
def sectsOf (b : List Byte) : List SectHead :=
  (List.range (bytesAt b 12 2)).map fun i => sectAt b (bytesAt b 16 8 + 32 * i)

/-- The file header is that of a signed image of a length (R47). -/
def fileHeadGood (b : List Byte) (length : Nat) : Bool :=
  64 ≤ length && b.take 4 == [0x50, 0x4C, 0x59, 0x00] && bytesAt b 4 2 == 1 && bytesAt b 6 2 == 2 && bytesAt b 8 4 == 1 &&
    1 ≤ bytesAt b 12 2 && bytesAt b 12 2 ≤ 11 && bytesAt b 14 2 == 32 && bytesAt b 16 8 % 8 == 0 &&
    bytesAt b 16 8 + 32 * bytesAt b 12 2 ≤ length && bytesAt b 32 8 == length && bytesAt b 40 4 == 9 && bytesAt b 44 20 == 0

/-- FLAGS of a section by its ID: loaded 1, writable 2, executable 4 (R48). -/
def sectFlags (ident : Nat) : Nat :=
  match ident with
  | 1 => 5
  | 6 | 8 => 3
  | 2 | 3 | 4 | 5 | 7 => 1
  | _ => 0

/-- One section header of an image is in order (R48). -/
def sectGood (length : Nat) (h : SectHead) : Bool :=
  1 ≤ h.ident && h.ident ≤ 11 && h.ident != 10 && 3 ≤ h.align && h.align ≤ 16 && h.flags == sectFlags h.ident && h.zero == 0 &&
    (if h.ident = 8 then h.offset == 0 else h.offset + h.size ≤ length) &&
    (sectFlags h.ident == 0 || (h.addr % 2 ^ h.align == 0 && h.addr + h.size ≤ 2 ^ 64))

/-- The contents stand one behind another in ascending ID order, from an offset on (R48). -/
def contentsGood : Nat → List SectHead → Bool
  | _, [] => true
  | at_, h :: rest => at_ ≤ h.offset && contentsGood (h.offset + h.size) rest

/-- The sections of an image whose header and section table are in order, .sign last (R47, R48). -/
def imageSects (b : List Byte) (length : Nat) : Option (List SectHead) :=
  let hs := sectsOf b
  let loaded := hs.filter fun h => sectFlags h.ident != 0
  let inFile := sortKey (·.ident) (hs.filter fun h => h.ident != 8)
  let good := fileHeadGood b length && hs.all (sectGood length) && (hs.map (·.ident)).eraseDups.length == hs.length &&
    contentsGood (bytesAt b 16 8 + 32 * hs.length) inFile && (loaded.all fun h => bytesAt b 24 8 ≤ h.addr) &&
    (loaded.isEmpty || loaded.any fun h => h.addr == bytesAt b 24 8) &&
    (inFile.getLast?).any fun h => h.ident == 11 && h.size == 3408 && h.offset + h.size == length
  if good then some hs else none

/-- Both signatures of .sign verify under enrolled keys that it names (R56, R392). -/
def signed (keys : SMap KeyPair) (b : List Byte) (sign : SectHead) : Bool :=
  let x := (b.drop sign.offset).take sign.size
  let message := b.take sign.offset
  let shape := bytesAt x 0 4 == 1 && bytesAt x 4 4 == 0 && bytesAt x 88 4 == 3309 && bytesAt x 92 4 == 0 && bytesAt x 3405 3 == 0
  shape &&
    (keys.any fun k => k.2.edIdent == bytesAt x 8 8 && Ed25519.verify message k.2.edKey ((x.drop 16).take 64)) &&
    keys.any fun k => k.2.mlIdent == bytesAt x 80 8 && MlDsa65.verify message k.2.mlKey ((x.drop 96).take 3309)

/-- Bytes at an address of an address space as Hearth reads them; none where they cannot be
translated, and a walk fault then posts its request (R345; log 16). -/
def hearthRead (asid : Nat) (a n : Nat) : Act (Option (List Byte)) := do
  let ps ← (pagePieces a n).mapM fun p => do
    match ← translate .none asid 0 0 (BitVec.ofNat 64 p.1) { r := true } with
    | .ok k _ => do
      let bs ← readPhys k p.2
      return some bs
    | .fault c d => do
      let _ ← postRequest asid 0 0 (BitVec.ofNat 64 p.1) c d accRead
      return none
    | _ => return none
  return if ps.all (·.isSome) then some (ps.filterMap id).flatten else none

/-- The loaded sections stand in memory as in the file, .bss as zeros (R394). -/
def loadedAsFiled (asid : Nat) (b : List Byte) (hs : List SectHead) : Act Bool := do
  let oks ← (hs.filter fun h => sectFlags h.ident != 0).mapM fun h => do
    match ← hearthRead asid h.addr h.size with
    | none => return false
    | some bs => return bs == (if h.ident = 8 then zeros h.size else (b.drop h.offset).take h.size)
  return oks.all id

/-- CHECK_IMAGE's steps: STATUS and RESULT (R394). -/
def checkImage (asid : Nat) (a : Word) (length : Nat) : Act (Nat × Option Word) := do
  match ← hearthRead asid a.toNat length with
  | none => return (2, none)
  | some b =>
    match imageSects b length with
    | none => return (2, none)
    | some hs =>
      let s ← get
      if !(hs.find? (·.ident == 11)).any (signed s.hearth.keys b) then return (4, none)
      if !(← loadedAsFiled asid b hs) then return (2, none)
      let n := ((← get).space asid).images.length
      if 256 ≤ n then return (3, none)
      let img : List Section := (hs.filter fun h => sectFlags h.ident != 0).map fun h => ⟨h.ident, h.addr, h.size⟩
      modify fun (s : State) => s.withSpace asid fun sp => { sp with images := sp.images ++ [img] }
      return (0, some (BitVec.ofNat 64 n))

end Sys2Proof.Machine
end

