-- ==== Sys2Proof/Machine/Summary.lean ====
section
/-! DEFINITION. SUMMARY: the record of the device's state (R382, R395). -/

namespace Sys2Proof.Machine

/-- One section: ID, entry size, its entries. -/
abbrev SumSection := Nat × Nat × List (List Byte)

/-- Code of a power state. -/
def Power.code : Power → Nat
  | .run => 0 | .quiet => 1 | .drowse => 2 | .slumber => 3 | .vault => 4

/-- Section 1: of the image that runs (R382, R391). -/
def State.sumFirmware (s : State) : SumSection :=
  let h := s.hearth
  let v := Config.versions h.running
  (1, 64, [leBytes 4 v.1 ++ leBytes 4 v.2.1 ++ leBytes 4 v.2.2 ++ leBytes 4 (if h.bootFailed then 1 else 0) ++
    Hash.sha384 h.running])

/-- Section 2. -/
def State.sumQueues (s : State) : SumSection :=
  let h := s.hearth
  let row (n pi ci done cc asid vec slots : Nat) : List Byte :=
    leBytes 4 n ++ leBytes 4 pi ++ leBytes 4 ci ++ leBytes 4 done ++ leBytes 4 cc ++ leBytes 2 asid ++ leBytes 2 vec ++
      leBytes 4 slots ++ zeros 4
  (2, 32, row 0xFFFFFFFF h.admpi.toNat h.admci.toNat h.admdone.toNat h.admcc.toNat 0 0 h.admqn ::
    h.queues.map fun q =>
      row q.1 q.2.pi.toNat q.2.taken.toNat q.2.written.toNat q.2.cc.toNat q.2.asid q.2.vector q.2.slots)

/-- Section 3. -/
def State.sumRegions (s : State) : SumSection :=
  (3, 32, s.regions.map fun g =>
    let held := (List.range g.2.launches.length).foldl (fun n e => n + s.boundCores ⟨g.1, e⟩) 0
    let saved := (s.teams.filter fun t => t.2.launch.region == g.1 && decide (t.2.place = .saved)).length
    leBytes 8 g.2.rcb.toNat ++ leBytes 2 g.2.asid ++ leBytes 2 g.2.timeline ++ leBytes 1 g.2.state.code ++ leBytes 1 g.2.cause ++
      leBytes 1 g.2.effClass ++ zeros 1 ++ leBytes 2 held ++ zeros 2 ++ leBytes 4 saved ++ zeros 8)

/-- Section 4. -/
def State.sumTimelines (s : State) : SumSection :=
  (4, 16904, s.spaces.map fun sp =>
    let bit (t : Nat) : Nat := if sp.2.counts.any fun c => c.timeline == t then 1 else 0
    leBytes 2 sp.1 ++ zeros 6 ++ ((List.range 4096).flatMap fun t => leBytes 4 (sp.2.floor t)) ++
      (List.range 512).flatMap fun i => leBytes 1 ((List.range 8).foldl (fun n k => n + bit (8 * i + k) * 2 ^ k) 0))

/-- Section 5. -/
def State.sumFaults (s : State) : SumSection :=
  let count (kind num n : Nat) : List Byte := leBytes 1 kind ++ zeros 7 ++ leBytes 8 num ++ leBytes 4 n ++ zeros 28
  let logs := s.cores.filter fun c => !c.2.log.isEmpty
  (5, 48, (s.hearth.requests.map fun r => leBytes 1 1 ++ zeros 15 ++ r.bytes) ++
    (logs.map fun c => if c.1 < 160 then count 2 c.1 c.2.log.length else count 3 (c.1 / 160) c.2.log.length) ++
    [count 4 0 s.hearth.flog.length])

/-- BANKLIM as it is read (R311). -/
def Sill.banklim (u : Sill) : Nat := 16 - u.limitLess + (16 - u.liveLess) * 2 ^ 16

/-- Section 6. -/
def State.sumPower (s : State) : SumSection :=
  let h := s.hearth
  (6, 2112, [leBytes 1 h.power.code ++ zeros 3 ++ leBytes 4 h.ltol ++ leBytes 4 h.cap ++ leBytes 4 h.measured ++ leBytes 4 (h.k / 4) ++
    leBytes 2 h.east ++ leBytes 2 h.west ++ zeros 40 ++ (List.range 512).flatMap fun c => leBytes 4 (s.sill c).banklim])

/-- The channel and offset names of a byte: its own, and those retirements have given it. -/
def State.namesOf (s : State) : Nat → Nat → Nat → List (Nat × Nat)
  | 0, c, o => [(c, o)]
  | fuel + 1, c, o =>
    (c, o) ::
      (match (s.channel c).moved with
       | some m => if m.start ≤ o && o < m.start + m.size then s.namesOf fuel m.chan (m.base + o - m.start) else []
       | none => [])

/-- The channel that now serves what a channel's contents were moved to: the chain of retirements is followed
(R334, R395). -/
def State.serving (s : State) (m : Moved) : Nat :=
  ((s.namesOf s.channels.length m.chan m.base).getLast?.map (·.1)).getD m.chan

/-- Section 7. -/
def State.sumMemory (s : State) : SumSection :=
  (7, 32, (List.range 512).map fun c =>
    let x := s.channel c
    let f := Config.channelFrames c
    leBytes 4 (x.layoutMore + 1) ++ leBytes 1 (16 - (s.sill c).liveLess) ++ zeros 3 ++ leBytes 4 f.1 ++ leBytes 4 f.2 ++
      leBytes 2 x.remapped.length ++ leBytes 2 ((x.moved.map s.serving).getD c) ++ leBytes 4 x.corrected ++ leBytes 4 x.uncorrected ++ zeros 4)

/-- Rate per lane in Mb/s of a host link: 128 GT/s as PCIe (R375); the spec gives none for CXL (log 15). -/
def hostRate (link : Nat) (l : Link) : Nat := if l.cxl then Config.expanderRate (8 + link) else 128000

/-- Section 8. The lanes of a port run at 224 Gb/s (R383). -/
def State.sumLinks (s : State) : SumSection :=
  let h := s.hearth
  let row (kind i state lanes rate cxl : Nat) : List Byte :=
    leBytes 1 kind ++ leBytes 1 i ++ leBytes 1 state ++ leBytes 1 lanes ++ leBytes 4 rate ++ leBytes 1 cxl ++ zeros 7
  (8, 16, ((List.range 2).map fun i =>
      let l := SMap.val h.links {} i
      row 1 i l.state l.lanes (hostRate i l) (if l.cxl then 1 else 0)) ++
    ((List.range 8).map fun i =>
      let l := SMap.val h.expanders {} i
      row 2 i l.state l.lanes (Config.expanderRate i) 0) ++
    (List.range 12).map fun i =>
      let l := SMap.val h.ports portUp i
      row 3 i l.state l.lanes 224000 0)

/-- Section 9. -/
def State.sumCellar (s : State) : SumSection :=
  let h := s.hearth
  (9, 48, [leBytes 1 h.cellar ++ zeros 7 ++ leBytes 8 h.cellarBytes ++ leBytes 8 h.cellarSeq ++ leBytes 8 h.cellarAt ++
    leBytes 8 h.patrol ++ zeros 8])

/-- Section 10. -/
def State.sumWindows (s : State) : SumSection :=
  (10, 48, s.hearth.windows.map fun w =>
    leBytes 1 w.1 ++ zeros 1 ++ leBytes 2 w.2.asid ++ zeros 4 ++ leBytes 8 w.2.base.toNat ++ leBytes 8 w.2.length.toNat ++
      leBytes 8 w.2.bar2.toNat ++ leBytes 8 w.2.versionAt ++ leBytes 8 w.2.version.toNat)

/-- Every section, in order. -/
def State.sumSections (s : State) : List SumSection :=
  [s.sumFirmware, s.sumQueues, s.sumRegions, s.sumTimelines, s.sumFaults, s.sumPower, s.sumMemory, s.sumLinks, s.sumCellar,
    s.sumWindows]

/-- The rows of the section table and the bytes behind it; `at_` is the offset of the first section. -/
def sumRows : Nat → List SumSection → List Byte × List Byte
  | _, [] => ([], [])
  | at_, (id, size, es) :: rest =>
    let r := sumRows (at_ + size * es.length) rest
    (leBytes 4 id ++ leBytes 4 size ++ leBytes 4 es.length ++ leBytes 4 at_ ++ r.1, es.flatten ++ r.2)

/-- The record. -/
def State.summary (s : State) : List Byte :=
  let ss := s.sumSections
  let total := 224 + ss.foldl (fun n x => n + x.2.1 * x.2.2.length) 0
  let r := sumRows 224 ss
  leBytes 4 0x4A395355 ++ leBytes 4 1 ++ leBytes 8 total ++ leBytes 8 s.hearth.seq ++ leBytes 8 s.hearth.flogNext ++ zeros 32 ++
    r.1 ++ r.2

end Sys2Proof.Machine
end

