-- ==== Sys2Proof/Machine/EventsAdmin.lean ====
section
/-! DEFINITION. The admin commands and the checkpoint (R378, R379, R387, R388). A command's operands are
the event's arguments: the spec gives no layout of them within the slot (log 15). -/

namespace Sys2Proof.Machine

/-! ## The queue (R378, R381) -/

/-- What a command comes to: the state, STATUS, and RESULT where the spec gives one. -/
abbrev Admin := State × Nat × Option Word

/-- The opcodes of R379. -/
def adminOpcodes : List Nat :=
  [0x01, 0x02, 0x10, 0x11, 0x12, 0x13, 0x20, 0x21, 0x30, 0x31, 0x32, 0x33, 0x34, 0x38, 0x39, 0x3A, 0x3B, 0x3C, 0x3D, 0x3E, 0x3F]

/-- The slot that Hearth takes next. Hearth takes one while the device is in Run and a completion can
be written; where the firmware has failed, SUMMARY alone is served (R384, R390). -/
def State.adminSlot (s : State) : Option (List Byte) :=
  let h := s.hearth
  let ready := h.admpi != h.admci && decide ((h.admdone - h.admcc).toNat < h.admqn)
  let b := readBytes s.mem (hostKey (h.admqb + 64 * (h.admci.toNat % h.admqn))) 64
  if !ready then none
  else if h.bootFailed then (if bytesAt b 0 1 = 0x3F then some b else none)
  else if h.power = .run then some b
  else none

/-- Write the completion of the command taken, and send vector 0. A RESULT that the spec does not give
is a free value (log 15). -/
def State.adminDone (s : State) (slot : List Byte) (status : Nat) (result : Option Word) : State :=
  let h := s.hearth
  let r := result.getD (Config.freeWord s.free)
  let bs := leBytes 4 (bytesAt slot 4 4) ++ leBytes 2 status ++ zeros 2 ++ leBytes 8 r.toNat
  let s1 := s.store (hostKey (h.admcb + 16 * (h.admdone.toNat % h.admqn))) bs 0 0
  let s2 := s1.withHearth fun h => { h with admdone := h.admdone + 1, admci := h.admci + 1 }
  ({ s2 with free := s2.free + 1 } : State).sendVector 0

/-- An admin command of an opcode: when the next slot holds it, Hearth carries it out and completes it;
`f` gives none while it must wait. A slot of an unknown opcode, or with a reserved byte that is not
zero, completes with its STATUS. -/
def State.admin (s : State) (op : Nat) (f : State → Option Admin) : State :=
  match s.adminSlot with
  | none => s
  | some b =>
    if s.hearth.cellar = 1 then s
    else if !adminOpcodes.contains (bytesAt b 0 1) then s.adminDone b 1 none
    else if bytesAt b 0 1 != op then s
    else if bytesAt b 1 3 != 0 then s.adminDone b 2 none
    else
      match f s with
      | none => s
      | some x => x.1.adminDone b x.2.1 x.2.2

/-- An ASID outside 1..4,095 (R332). -/
def asidBad (asid : Nat) : Bool := asid == 0 || 4096 ≤ asid

/-- A power of two from 16 to 4,096. -/
def ringSlots (n : Nat) : Bool := [16, 32, 64, 128, 256, 512, 1024, 2048, 4096].contains n

/-! ## Work queues -/

/-- CREATE_WQ. -/
def createWq (q : Nat) (ring : Word) (slots : Nat) (compl : Word) (asid vector : Nat) (s : State) : Option Admin :=
  if 4096 ≤ q || !ringSlots slots || asidBad asid || 2048 ≤ vector then some (s, 2, none)
  else if (SMap.find s.hearth.queues q).isSome then some (s, 3, none)
  else
    let w : WorkQueue :=
      { ring := ring.toNat, slots := slots, compl := compl.toNat, asid := asid
        vector := if vector = 0 then 1 + q % 2047 else vector }
    some (s.withHearth fun h => { h with queues := SMap.put h.queues q w }, 0, none)

/-- DELETE_WQ: once it is taken no further entry is made available; it waits for those there are, and
for their regions. -/
def deleteWq (q : Nat) (s : State) : State :=
  let close (s : State) : State := s.withHearth fun h => { h with queues := SMap.alter h.queues q fun w => { w with closing := true } }
  let s1 := match s.adminSlot with
    | some b => if bytesAt b 0 1 = 0x02 && bytesAt b 1 3 = 0 && s.hearth.cellar != 1 then close s else s
    | none => s
  s1.admin 0x02 fun s =>
    if 4096 ≤ q then some (s, 2, none)
    else
      match SMap.find s.hearth.queues q with
      | none => some (s, 5, none)
      | some w =>
        if w.pi = w.taken && !(s.regions.any fun g => g.2.parent.isNone && g.2.queue == q) then
          some (s.withHearth fun h => { h with queues := SMap.del h.queues q }, 0, none)
        else none

/-! ## Address spaces (R332, R338, R345) -/

/-- REGISTER_AS. -/
def registerAs (record : Word) (s : State) : Option Admin :=
  let b := readBytes s.mem (s.deviceKey (record.toNat % 2 ^ 39)) 64
  let asid := bytesAt b 40 2
  let good := bytesAt b 0 8 % 8192 == 0 && bytesAt b 0 8 < 2 ^ 39 && bytesAt b 8 8 % 32 == 0 && ringSlots (bytesAt b 16 4) &&
    bytesAt b 20 4 == 0 && 1 ≤ asid && asid ≤ 4095 && bytesAt b 42 22 == 0 && record.toNat < 2 ^ 39
  if !good then some (s, 2, none)
  else if (SMap.find s.spaces asid).isSome then some (s, 3, none)
  else
    let sp : Space :=
      { record := record.toNat, root := bytesAt b 0 8, prqb := bytesAt b 8 8, prqn := bytesAt b 16 4, prqt := bytesAt b 24 8
        floorb := bytesAt b 32 8 }
    some ({ s with spaces := SMap.put s.spaces asid sp }, 0, none)

/-- RELEASE_AS: the space goes with its admitted images, and the cores forget its frontiers. -/
def releaseAs (asid : Nat) (s : State) : Option Admin :=
  if asidBad asid then some (s, 2, none)
  else if (SMap.find s.spaces asid).isNone then some (s, 5, none)
  else if s.regions.any fun g => g.2.asid == asid then some (s, 3, none)
  else
    let cores := s.cores.map fun (c : Nat × Core) => (c.1, { c.2 with heard := c.2.heard.filter fun a => a.asid != asid })
    some ({ s with spaces := SMap.del s.spaces asid, cores := cores }, 0, none)

/-- PAGE_ANSWER. -/
def pageAnswers (rid answer : Nat) (s : State) : Option Admin :=
  if 1 < answer then some (s, 2, none)
  else
    match s.hearth.requests.find? fun r => r.rid == rid with
    | none => some (s, 5, none)
    | some q => some (s.answerPage q (answer == 1), 0, none)

/-- RAISE_FLOOR. -/
def raiseFloor (asid timeline value : Nat) (s : State) : Option Admin :=
  match SMap.find s.spaces asid with
  | none => some (s, if asidBad asid || 4096 ≤ timeline || 2 ^ 32 ≤ value then 2 else 5, none)
  | some sp =>
    if asidBad asid || 4096 ≤ timeline || 2 ^ 32 ≤ value then some (s, 2, none)
    else if (sp.counts.any fun c => c.timeline == timeline) || value < sp.floor timeline then some (s, 3, none)
    else
      let s1 := s.withSpace asid fun sp => { sp with floors := SMap.set 0 sp.floors timeline value }
      let s2 := if sp.floorb = 0 then s1 else s1.store (hostKey (sp.floorb + 4 * timeline)) (leBytes 4 value) 0 0
      some (s2, 0, none)

/-! ## Windows (R198) -/

/-- SET_WINDOW: its version is read from the host word. -/
def setWindow (n asid : Nat) (base length bar2 version : Word) (s : State) : Option Admin :=
  if 64 ≤ n || asidBad asid || base.toNat % 4096 != 0 || length.toNat % 4096 != 0 then some (s, 2, none)
  else if (SMap.find s.spaces asid).isNone then some (s, 5, none)
  else
    let v := BitVec.ofNat 64 (leNat (readBytes s.mem (hostKey version.toNat) 8))
    let w : Window := { asid := asid, base := base, length := length, bar2 := bar2, versionAt := version.toNat, version := v }
    some (s.withHearth fun h => { h with windows := SMap.put h.windows n w }, 0, none)

/-- The team stands in a mem.publish of a window. -/
def Team.publishing (t : Team) (n : Nat) : Bool :=
  match t.block, t.clause with
  | some _, some o =>
    match decodeWord (o.words.getD o.idx 0) with
    | .ok (.memPublish f) => (match f.a with | .s r => (t.getS r.val).toNat == n | _ => false)
    | _ => false
  | _, _ => false

/-- CLEAR_WINDOW: it waits for publishes of the window in progress. -/
def clearWindow (n : Nat) (s : State) : Option Admin :=
  if 64 ≤ n then some (s, 2, none)
  else if (SMap.find s.hearth.windows n).isNone then some (s, 5, none)
  else if s.teams.any fun t => t.2.publishing n then none
  else some (s.withHearth fun h => { h with windows := SMap.del h.windows n }, 0, none)

/-! ## Power and debug (R359, R373, R377, R384, R386) -/

/-- SET_CAP: it comes into force at the next firing of the timer. -/
def setCap (watts : Nat) (s : State) : Option Admin :=
  if watts < 1200 || 2600 < watts then some (s, 2, none)
  else some (s.withHearth fun h => { h with capNext := 2600 - watts }, 0, none)
/-- SET_LTOL. -/
def setLtol (micros : BitVec 32) (s : State) : Option Admin :=
  some (s.withHearth fun h => { h with ltol := micros.toNat }, 0, none)
/-- SET_DRAIN. -/
def setDrain (cycles : Nat) (s : State) : Option Admin :=
  if 14000 < cycles then some (s, 2, none) else some (s.withHearth fun h => { h with drainLess := 14000 - cycles }, 0, none)

/-- DEBUG: the enable, and the teams of a context that sys.dbg saved. -/
def debugs (asid : Nat) (on : Bool) (ctx : Nat) (s : State) : Option Admin :=
  if asidBad asid then some (s, 2, none)
  else if (SMap.find s.spaces asid).isNone then some (s, 5, none)
  else
    let s1 := s.withSpace asid fun sp => { sp with debug := on }
    if ctx = 0 then some (s1, 0, none)
    else
      let mine := (s1.stopped ctx).filter fun i => (s1.team i).asid == asid
      if mine.isEmpty then some (s1, 5, none)
      else
        match mine.foldl (fun (o : Option State) i => o.bind fun s => s.undebug i) (some s1) with
        | some s2 => some (s2, 0, none)
        | none => some (s1, 3, none)

/-- RESET_LINK: the lost mark of an expander whose link has trained again is cleared. -/
def resetLink (link e : Nat) (s : State) : Option Admin :=
  if 2 ≤ link || e / 4 != link then some (s, 2, none)
  else
    let x := SMap.val s.hearth.expanders {} e
    if x.state = 2 && x.retrained then
      some (s.withHearth fun h => { h with expanders := SMap.put h.expanders e { x with state := 1, retrained := false } }, 0, none)
    else if x.state = 2 then some (s, 3, none)
    else some (s, 0, none)

/-- READ_FAULTLOG: the entries held from a sequence number on, in order. -/
def readFaultlog (buffer first : Word) (count : Nat) (s : State) : Option Admin :=
  let h := s.hearth
  let oldest := ((h.flog.head?).map (·.seq)).getD h.flogNext
  let es := (h.flog.filter fun e => first.toNat ≤ e.seq && e.seq < first.toNat + count)
  some (s.store (hostKey buffer.toNat) (es.flatMap fun e => e.record.bytes) 0 0, 0, some (BitVec.ofNat 64 oldest))

/-! ## Checkpoint (R387, R388) -/

/-- The pages that a table maps, and the tables themselves: KIND, physical address, size. -/
def State.mapped (s : State) : List Nat → Nat → List (Nat × Nat × Nat)
  | [], _ => []
  | level :: rest, table =>
    (0, table, 8192) :: (List.range 512).flatMap fun i =>
      let b := readBytes s.mem (s.deviceKey ((table + 16 * i) % 2 ^ 39)) 16
      let lo := bytesAt b 0 8
      if !bitOf lo 0 then []
      else if bitOf lo 1 then [(bitsOf lo 7 6, bitsOf lo 51 12 * 4096, 2 ^ (57 - 9 * level))]
      else s.mapped rest (bitsOf lo 51 12 * 4096)

/-- The pages of device memory that belong to address spaces. -/
def State.spansOf (s : State) (asids : List Nat) : List (Nat × Nat × Nat) :=
  asids.flatMap fun a =>
    match SMap.find s.spaces a with
    | some sp => (0, sp.record, 64) :: (s.mapped [1, 2, 3, 4, 5] sp.root).filter fun p => p.1 < 2
    | none => []

/-- A byte of device memory lies in one of the pages. -/
def State.inSpans (s : State) (spans : List (Nat × Nat × Nat)) (key : Nat) : Bool :=
  isDram key &&
    let co := channelOf key
    (s.namesOf s.channels.length co.1 co.2).any fun n =>
      spans.any fun p =>
        if p.1 = 0 then p.2.1 ≤ interleave n.1 n.2 && interleave n.1 n.2 < p.2.1 + p.2.2
        else p.2.1 / 2 ^ 30 == n.1 && p.2.1 % 2 ^ 30 ≤ n.2 && n.2 < p.2.1 % 2 ^ 30 + p.2.2

/-- The count of bytes that an operation of the Cellar has moved is a free value, as it goes on and as it ends
(R388; log 15). -/
def State.cellarMoves (s : State) : State :=
  ({ s with free := s.free + 1 } : State).withHearth fun h => { h with cellarBytes := (Config.freeWord s.free).toNat }

/-- CHECKPOINT: dispatch stops and every context gives way (R287). -/
def checkpoints (target asids : Word) (s : State) : State :=
  match s.adminSlot with
  | none => s
  | some b =>
    if bytesAt b 0 1 = 0x39 && bytesAt b 1 3 = 0 && s.hearth.cellar != 1 then
      let mask := readBytes s.mem (hostKey asids.toNat) 512
      let set_ := (List.range 4096).filter fun a => bitOf (bytesAt mask (a / 8) 1) (a % 8)
      let s0 := s.cellarMoves
      let s1 := s0.withHearth fun h => { h with cellar := 1, cellarTarget := target.toNat, cellarSet := set_ }
      let s2 := s1.hearth.binds.foldl (fun s r => if r.2.state = 1 then s.preempt r.1 else s) s1
      s2.withHearth fun h =>
        { h with ctxs := h.ctxs.map fun c => (c.1, if c.2.state = .run then { c.2 with state := .drain } else c.2) }
    else s.admin 0x39 fun s => some (s, 2, none)

/-- Nothing is on its way to memory or to a weight buffer, and every context is SAVED. -/
def State.quietForCellar (s : State) : Bool :=
  s.writes.isEmpty && s.mortarIn.isEmpty && (s.cores.all fun c => c.2.wloads.isEmpty) && s.hearth.ctxs.all fun c => decide (c.2.state = .saved)

/-- Every pending Mortar entry is applied. -/
def State.applyAll (s : State) : State :=
  s.mortar.foldl (fun (s : State) m => State.applyEntry { s with mortar := s.mortar.drop 1 } m) s

/-- What a checkpoint writes of a machine that is quiet. -/
def State.snapshot (s : State) (set_ : List Nat) : Checkpoint :=
  let spans := s.spansOf set_
  let mine (a : Nat) : Bool := set_.contains a
  let ctxs := s.hearth.ctxs.filter fun c => mine (s.region c.2.launch.region).asid
  { seq := s.hearth.cellarSeq + 1, spans := spans
    mem := s.mem.filter fun c => s.inSpans spans c.1
    metadata := s.metadata.filter fun c => s.inSpans spans (64 * c.1)
    teams := s.teams.filter fun t => mine t.2.asid
    returns := s.returns.filter fun r => mine (s.team r.parent).asid
    cores := s.cores.filter fun c => 160 ≤ c.1 && ctxs.any fun x => x.2.core == c.1
    rings := s.rings.filter fun r => mine r.2.asid
    copies := s.copies.filter fun c => mine c.2.asid
    spaces := s.spaces.filter fun x => mine x.1
    regions := s.regions.filter fun g => mine g.2.asid
    ctxs := ctxs
    tasks := s.tasks.filter fun k => mine k.2.asid
    pushed := s.pushed.filter fun k => mine k.2.asid
    requests := s.hearth.requests.filter fun r => mine r.asid }

/-- CHECKPOINT_COMPLETE: the checkpoint is whole, and the device goes on (R387, R388). -/
def checkpointEnds (s : State) : State :=
  if s.hearth.cellar = 1 && s.quietForCellar then
    let s1 := s.applyAll
    let h := s1.hearth
    let s2 : State := { s1 with cellars := SMap.put s1.cellars h.cellarTarget (s1.snapshot h.cellarSet) }
    let s3 := s2.withHearth fun h =>
      { h with
        cellar := 0, cellarSeq := h.cellarSeq + 1, cellarAt := h.firings, cellarSet := [] }
    let s4 := s3.cellarMoves
    match s4.adminSlot with
    | some b => s4.adminDone b 0 none
    | none => s4
  else s

/-- The operation of the Cellar that was running has failed: what a checkpoint has written over at its target
is incomplete, and the command completes (R388). -/
def State.cellarFails (s : State) : State :=
  let s1 : State := if s.hearth.cellar = 1 then { s with cellars := SMap.del s.cellars s.hearth.cellarTarget } else s
  let s2 := (s1.withHearth fun h => { h with cellar := 3, cellarSet := [] }).cellarMoves
  let status := (Config.freeWord s2.free).toNat % 65536
  let s3 : State := { s2 with free := s2.free + 1 }
  match s3.adminSlot with
  | some b => s3.adminDone b status none
  | none => s3

/-- LINK_FAILURE: the link goes down, with the expanders behind it (R377); a checkpoint or a restore in progress
fails, and the device goes on (R388). -/
def linkFails (link : Nat) (s : State) : State :=
  if 2 ≤ link then s
  else
    let s1 := (s.loseBehind link).withHearth fun h => { h with links := SMap.put h.links link {} }
    if s1.hearth.cellar = 1 || s1.hearth.cellar = 2 then s1.cellarFails else s1

/-- Put back what a map held. -/
def putAll {α : Type} (m back : SMap α) : SMap α := back.foldl (fun m x => SMap.put m x.1 x.2) m

/-- What a restore writes back: its contexts are SAVED and its regions READY. -/
def restores (target : Word) (s : State) : Option Admin :=
  if !s.spaces.isEmpty then some (s, 3, none)
  else
    match SMap.find s.cellars target.toNat with
    | none => some (s, 5, none)
    | some c =>
      let kept := s.mem.filter fun x => !s.inSpans c.spans x.1
      let meta_ := s.metadata.filter fun x => !s.inSpans c.spans (64 * x.1)
      let s1 : State := { s with
        mem := c.mem.foldl (fun m x => writeByte m x.1 x.2) kept
        metadata := c.metadata.foldl (fun m x => SMap.set 0 m x.1 x.2) meta_
        teams := putAll s.teams c.teams, returns := s.returns ++ c.returns, cores := putAll s.cores c.cores
        rings := putAll s.rings c.rings, copies := putAll s.copies c.copies, spaces := putAll s.spaces c.spaces
        regions := putAll s.regions c.regions, tasks := s.tasks ++ c.tasks, pushed := s.pushed ++ c.pushed }
      let s2 := s1.withHearth fun h =>
        { h with ctxs := putAll h.ctxs c.ctxs, requests := h.requests ++ c.requests, cellar := 0 }
      some (s2.cellarMoves, 0, none)

/-- RESTORE: one that is accepted is running until its next turn (R388), which writes everything back. -/
def restoreTurn (target : Word) (s : State) : State :=
  match s.adminSlot with
  | some b =>
    if bytesAt b 0 1 = 0x3A && bytesAt b 1 3 = 0 && s.hearth.cellar != 1 && s.hearth.cellar != 2 && s.spaces.isEmpty &&
        (SMap.find s.cellars target.toNat).isSome then
      s.cellarMoves.withHearth fun h => { h with cellar := 2, cellarTarget := target.toNat }
    else s.admin 0x3A (restores target)
  | none => s

/-! ## Images, keys, firmware, attestation (R390 to R394) -/

/-- CHECK_IMAGE. -/
def checksImage (asid : Nat) (a : Word) (length : Nat) (s : State) : Option Admin :=
  if asidBad asid then some (s, 2, none)
  else if (SMap.find s.spaces asid).isNone then some (s, 5, none)
  else
    let x := (checkImage asid a length).go s
    match x.1 with
    | .ok (status, result) => some (x.2, status, result)
    | .error _ => some (x.2, 2, none)

/-- The sizes of the parts of a key pair: Ed25519 identifier and key, ML-DSA-65 identifier and key. -/
def keySizes : List Nat := [8, 32, 8, 1952]
/-- The `n`th of the orders of `k` things. -/
def nthOrder : Nat → Nat → List Nat → List Nat
  | 0, _, _ => []
  | k + 1, n, xs => xs.getD (n % (k + 1)) 0 :: nthOrder k (n / (k + 1)) (xs.eraseIdx (n % (k + 1)))
/-- The key pair in 2,000 bytes (R392). -/
def keyPair (b : List Byte) : KeyPair :=
  let order := nthOrder 4 (Config.keyOrder % 24) [0, 1, 2, 3]
  let part (i : Nat) : List Byte :=
    (b.drop ((order.takeWhile (· != i)).map fun j => keySizes.getD j 0).sum).take (keySizes.getD i 0)
  { edIdent := leNat (part 0), edKey := part 1, mlIdent := leNat (part 2), mlKey := part 3 }

/-- ENROL_KEY. -/
def enrolKey (pair : Word) (slot : Nat) (s : State) : Option Admin :=
  if 8 ≤ slot then some (s, 2, none)
  else if !s.spaces.isEmpty then some (s, 3, none)
  else
    let k := keyPair (readBytes s.mem (hostKey pair.toNat) 2000)
    some (s.withHearth fun h => { h with keys := SMap.put h.keys slot k }, 0, none)

/-- LOAD_FW. -/
def loadFw (image : Word) (s : State) : Option Admin :=
  let b := readBytes s.mem (hostKey image.toNat) Config.firmwareLength
  if Config.firmwareGood b then some (s.withHearth fun h => { h with flash := b }, 0, none) else some (s, 4, none)

/-- The report of ATTEST over the firmware measurements, the enrolled identifiers and the nonce (R393; log 16). -/
def State.report (s : State) (nonce : List Byte) : List Byte :=
  let ids := s.hearth.keys.flatMap fun k => leBytes 8 k.2.edIdent ++ leBytes 8 k.2.mlIdent
  Config.attestation (s.sumFirmware.2.2.flatten ++ ids ++ nonce)

/-- ATTEST. -/
def attests (nonce : List Byte) (buffer : Word) (s : State) : Option Admin :=
  if nonce.length ≠ 32 then some (s, 2, none)
  else
    some (s.store (hostKey buffer.toNat) (s.report nonce) 0 0, 0, none)

/-- SUMMARY. -/
def summarises (buffer : Word) (length : Nat) (s : State) : Option Admin :=
  let b := s.summary
  let n : Option Word := some (BitVec.ofNat 64 b.length)
  if length < b.length then some (s, 3, n) else some (s.store (hostKey buffer.toNat) b 0 0, 0, n)

/-! ## The meanings -/

/-- CREATE_WQ (R379). -/
def execCreateWq (queue : Nat) (ring : BitVec 64) (slots : Nat) (compl : BitVec 64) (asid vector : Nat) (s : State) :
    Host.Outcome State Fault Refusal :=
  runEvent (·.admin 0x01 (createWq queue ring slots compl asid vector)) s
/-- DELETE_WQ (R379). -/
def execDeleteWq (queue : Nat) (s : State) : Host.Outcome State Fault Refusal := runEvent (deleteWq queue) s
/-- REGISTER_AS (R379). -/
def execRegisterAs (record : BitVec 64) (s : State) : Host.Outcome State Fault Refusal := runEvent (·.admin 0x10 (registerAs record)) s
/-- RELEASE_AS (R379). -/
def execReleaseAs (asid : Nat) (s : State) : Host.Outcome State Fault Refusal := runEvent (·.admin 0x11 (releaseAs asid)) s
/-- PAGE_ANSWER (R345). -/
def execPageAnswer (rid answer : Nat) (s : State) : Host.Outcome State Fault Refusal := runEvent (·.admin 0x12 (pageAnswers rid answer)) s
/-- RAISE_FLOOR (R379). -/
def execRaiseFloor (asid timeline value : Nat) (s : State) : Host.Outcome State Fault Refusal :=
  runEvent (·.admin 0x13 (raiseFloor asid timeline value)) s
/-- SET_WINDOW (R379). -/
def execSetWindow (window asid : Nat) (base length bar2 version : BitVec 64) (s : State) : Host.Outcome State Fault Refusal :=
  runEvent (·.admin 0x20 (setWindow window asid base length bar2 version)) s
/-- CLEAR_WINDOW (R379). -/
def execClearWindow (window : Nat) (s : State) : Host.Outcome State Fault Refusal := runEvent (·.admin 0x21 (clearWindow window)) s
/-- SET_CAP (R386). -/
def execSetCap (watts : Nat) (s : State) : Host.Outcome State Fault Refusal := runEvent (·.admin 0x30 (setCap watts)) s
/-- SET_LTOL (R384). -/
def execSetLtol (micros : BitVec 32) (s : State) : Host.Outcome State Fault Refusal := runEvent (·.admin 0x31 (setLtol micros)) s
/-- SET_DRAIN (R379). -/
def execSetDrain (cycles : Nat) (s : State) : Host.Outcome State Fault Refusal := runEvent (·.admin 0x32 (setDrain cycles)) s
/-- DEBUG (R373). -/
def execDebug (asid : Nat) (enable : Bool) (ctx : Nat) (s : State) : Host.Outcome State Fault Refusal :=
  runEvent (·.admin 0x33 (debugs asid enable ctx)) s
/-- RESET_LINK (R377). -/
def execResetLink (link expander : Nat) (s : State) : Host.Outcome State Fault Refusal := runEvent (·.admin 0x34 (resetLink link expander)) s
/-- READ_FAULTLOG (R366). -/
def execReadFaultlog (buffer first : BitVec 64) (count : Nat) (s : State) : Host.Outcome State Fault Refusal :=
  runEvent (·.admin 0x38 (readFaultlog buffer first count)) s
/-- CHECKPOINT (R387). -/
def execCheckpoint (target asids : BitVec 64) (s : State) : Host.Outcome State Fault Refusal := runEvent (checkpoints target asids) s
/-- CHECKPOINT_COMPLETE (R388). -/
def execCheckpointComplete (s : State) : Host.Outcome State Fault Refusal := runEvent checkpointEnds s
/-- RESTORE (R387). -/
def execRestore (target : BitVec 64) (s : State) : Host.Outcome State Fault Refusal := runEvent (restoreTurn target) s
/-- CHECK_IMAGE (R394). -/
def execCheckImage (asid : Nat) (addr : BitVec 64) (length : Nat) (s : State) : Host.Outcome State Fault Refusal :=
  runEvent (·.admin 0x3B (checksImage asid addr length)) s
/-- ENROL_KEY (R392). -/
def execEnrolKey (pair : BitVec 64) (slot : Nat) (s : State) : Host.Outcome State Fault Refusal := runEvent (·.admin 0x3C (enrolKey pair slot)) s
/-- LOAD_FW (R391). -/
def execLoadFw (image : BitVec 64) (s : State) : Host.Outcome State Fault Refusal := runEvent (·.admin 0x3D (loadFw image)) s
/-- ATTEST (R393). -/
def execAttest (nonce : List Byte) (buffer : BitVec 64) (s : State) : Host.Outcome State Fault Refusal :=
  runEvent (·.admin 0x3E (attests nonce buffer)) s
/-- SUMMARY (R382). -/
def execSummary (buffer : BitVec 64) (length : Nat) (s : State) : Host.Outcome State Fault Refusal :=
  runEvent (·.admin 0x3F (summarises buffer length)) s
/-- LINK_FAILURE (R388). -/
def execLinkFailure (link : Nat) (s : State) : Host.Outcome State Fault Refusal := runEvent (linkFails link) s

end Sys2Proof.Machine
end

