-- ==== Sys2Proof/Machine/Issue.lean ====
section
/-! DEFINITION. Whose turn it is, and the instruction it runs: the next word of a team's clause with the
check of R69 and the counts of an issue, the next word of a Sill block, or an event (R16, R20, R23,
R289, R360; log 1). -/

namespace Sys2Proof.Machine

/-- What a turn comes to: an instruction to execute, or a state that is already the next one. -/
inductive Pick
  | run (s : State) (i : Instr)
  | done (s : State)
  deriving DecidableEq, Repr

/-- The turn that is next: one already decided, or the scheduler's (log 1). -/
def State.nextTurn (s : State) : Turn × State :=
  match s.turns with
  | t :: rest => (t, { s with turns := rest })
  | [] => (Config.schedule s.free, { s with free := s.free + 1 })

/-! ## Teams -/

/-- Passes of a word of a clause as the gap count counts them: those of a LANE instruction, at least
one, and one for any other (R360). -/
def Team.passesOf (t : Team) (eng : Nat) (w : Word) : Nat :=
  if eng = 1 then max 1 ((laneCount t.lanes (t.active (wordKm w)) + 31) / 32) else 1

/-- ALLOW after an issue: it saturates at 0, and all ones impose nothing (R289). -/
def allowAfter (a : Word) : Word := if a = 0 || a = BitVec.allOnes 64 then a else a - 1

/-- One more instruction has issued behind one in flight (R23). -/
def Op.issuedBehind (o : Op) : Op := { o with window := o.window.map (· - 1) }

/-- The counts of an issue (R23, R289, R360). An ALLOW that reaches 0 is reported at the next SAFE header
(R289). -/
def Team.counted (t : Team) (eng : Nat) (w : Word) : Team :=
  { t with
    allow := allowAfter t.allow, budgetDue := t.budgetDue || t.allow == 1, gap := t.gap + t.passesOf eng w
    ops := t.ops.map Op.issuedBehind }

/-- A word fails the check of R69: a no-operation where it is not checked, ENCODING where it is. -/
def State.illegal (s : State) (i n : Nat) (o : OpenClause) (w : Word) : State :=
  let t := s.team i
  let lanes := t.lanesOf (wordKm w)
  if o.eng = 1 && lanes.isEmpty then s.retire i
  else s.trapInstr i [{ t.record .encoding n with lane := if o.eng = 1 then lanes.headD 0 else 0 }]

/-- The team's next word issues: one that resumes at a blocking point or after a hold does not count
again (R289). -/
def State.issue (s : State) (i : Nat) (o : OpenClause) : Pick :=
  let w := o.words.getD o.idx 0
  let t := s.team i
  let s0 := if t.keptKey then s.takeKept i else s
  let s1 := if t.reissue then s0 else (s0.passed i).withTeam i fun t => t.counted o.eng w
  match checkWord o.eng (o.idx + 1 == o.words.length) t.desc.vregs t.desc.sregs w with
  | some n => .done (s1.illegal i n o w)
  | none =>
    match decodeWord w with
    | .ok ins => .run { s1 with cur := some i, curUnit := none } ins
    | .error _ => .done s1

/-- An event, as an agent other than the team at issue acts. -/
def State.act (s : State) (e : Instr) : Pick := .run { s with cur := none, curUnit := none } e

/-- A team's turn. -/
def State.teamTurn (s : State) (i : Nat) : Pick :=
  let t := s.team i
  if !s.awake i then .done s
  else if t.delivery.isSome then s.act (if t.block.isSome then .clauseWaitSatisfied i else .clauseHeader i)
  else
    match t.clause, t.block with
    | none, none => s.act (.clauseHeader i)
    | none, some _ => s.act (.clauseWaitSatisfied i)
    | some _, some _ => s.act (.blockingPointResume i)
    | some o, none =>
      if s.mayIssue i && (t.reissue || !t.windowShut) then s.issue i o else .done s

/-! ## Sill units -/

/-- A Sill unit's turn: a block that must stop ends before its next instruction (R328); a command under
way runs its next sub-wave (R312); a program that runs past its end halts. -/
def State.sillTurn (s : State) (c : Nat) : Pick :=
  let u := s.sill c
  match u.running with
  | none => .done s
  | some b =>
    if b.stop && u.wave == 0 then .done (s.endBlock c none)
    else
      match (if b.prog.length ≤ u.idx then .ok .slHalt else decodeSill (b.prog.getD u.idx 0)) with
      | .ok ins => .run { s with cur := none, curUnit := some c } ins
      | .error _ => .done s

/-- What a turn comes to. -/
def State.pick (s : State) (t : Turn) : Pick :=
  match t with
  | .team i => s.teamTurn i
  | .sill c => s.sillTurn c
  | .event e => s.act e

/-! ## Placing an instruction (log 1) -/

/-- A team that stands at the first and last word of an open clause. -/
def placedTeam (w : Word) : Team :=
  let eng := match Mn.ofOpFn (wordOp w) (wordFn w) with | some m => m.eng | none => 0
  let o : OpenClause := { header := 0, eng := eng, words := [w] }
  { exm := lanesMask 32, clause := some o }

/-- A core word is placed as the open clause of a team whose turn it is. -/
def State.placeCore (s : State) (w : Word) : State :=
  { s with teams := SMap.put s.teams 0 (placedTeam w), turns := .team 0 :: s.turns }

/-- A Sill word is placed as the program of a block that runs on unit 0, whose turn it is. -/
def State.placeSill (s : State) (w : BitVec 32) : State :=
  let b : SillBlock :=
    { grid := 0, index := 0, team := 0, asid := 0, timeline := 0, gen := 0, prog := [w], affinity := 0, split := 16 }
  { s with sills := SMap.put s.sills 0 { running := some b }, turns := .sill 0 :: s.turns }

end Sys2Proof.Machine
end

