-- ==== Sys2Proof/Machine/Region.lean ====
section
/-! DEFINITION. The rg instructions (R297 to R303). -/

namespace Sys2Proof.Machine

/-- The address of a control block, 256-aligned, and its physical key on the front path; the team
is held as for a load (R297). -/
def rcbArg (r : Reg) (write : Bool) : Act (Word × Nat) := do
  let a ← sread r
  if a.toNat % 256 != 0 then fail .misalign 0 a
  let t ← tm
  match ← reach (.front (← me)) a { r := true, w := write } (if write then accRead + accWrite else accRead) true false with
  | .key k _ => return (a, k)
  | .trap c d => trap { t.record c d with ea := a, load := true }
  | .wait rids => blockAt { rids := rids, held := true }
  | .log _ _ _ => blockAt { held := true }

/-- An access to bytes of a control block comes behind the team's own earlier loads and stores there, and ahead of
its later ones, which no older line of the load cache serves (R234, R235, R297; log 23). -/
def rcbTurn (key n : Nat) : Act Unit := do
  let s ← get
  let i ← me
  if s.ownPending i s.serial key n || !s.rangeLanded i key n then blockAt { point := false }
  modify fun (s : State) => s.unseeAt (s.team i).core i key n

/-- Bytes of a control block, read on the front path; what a deterministic team has staged lies over them
(R291, R297). -/
def rcbRead (key n : Nat) : Act (List Byte) := do
  rcbTurn key n
  return (← ownRead (← me) (← get).serial key n).1

/-- What the device writes to a control block at a team's instruction comes behind what the team has staged there
before it, which nobody else has seen (R234, R291). -/
def State.overStaged (s : State) (i key n : Nat) : State :=
  let t := s.team i
  let hit (w : PendWrite) : Bool := w.path < 2 && meets w.key w.bytes.length key n
  let left (w : PendWrite) : List PendWrite :=
    let front : List PendWrite := if w.key < key then [{ w with bytes := w.bytes.take (key - w.key) }] else []
    let cut := key + n - w.key
    let back : List PendWrite :=
      if key + n < w.key + w.bytes.length then
        [{ w with va := w.va + BitVec.ofNat 64 cut, key := key + n, bytes := w.bytes.drop cut }]
      else []
    front ++ back
  t.staged.foldl (fun s e =>
    match e with
    | .write w =>
      if hit w then
        let ps := left w
        let s1 := s.withTeam i fun t => { t with staged := t.staged ++ ps.map Effect.write }
        match ps.length with
        | 0 => s1.ackUnit i w.unit
        | 1 => s1
        | _ => s1.owe i w.unit
      else s.withTeam i fun t => { t with staged := t.staged ++ [e] }
    | _ => s.withTeam i fun t => { t with staged := t.staged ++ [e] }) (s.withTeam i fun t => { t with staged := [] })

/-- The control block of an open, read again at the generation of TIME's c0 where that is not the team's
(R281; log 23): it faults as the read at the team's does. -/
def rcbOfTime (rcb : Word) (b : List Byte) : Act (List Byte) := do
  let t ← tm
  let g := (regionOf b none t.now).time.headD 0
  let now := if bitOf (bytesAt b 12 4) 7 then g else t.gen
  if rcbBad b || now == t.gen then return b
  match ← translate (.core t.core) t.asid t.timeline now rcb { r := true, w := true } with
  | .ok k _ => rcbRead k 256
  | .bad => trap { t.record .nomap 1 with ea := rcb, load := true }
  | .refuse d => trap { t.record .protect d with ea := rcb, load := true }
  | .fault c d =>
    match t.declared.find? (·.page == rcb.toNat % 2 ^ 57 / 4096 * 4096) with
    | some e => trap { t.record e.cause e.detail with ea := rcb, load := true }
    | none =>
      let rid ← postRequest t.asid t.timeline now rcb c d (accRead + accWrite)
      blockAt { rids := rid.toList, held := true }

/-- rg.open (R298). -/
def rgOpen (f : TForm) : Act Unit := do
  let (rcb, key) ← rcbArg f.a true
  let t ← tm
  let b ← rcbOfTime rcb (← rcbRead key 256)
  let sp := (← get).space t.asid
  let i ← me
  let who : Opener :=
    { holder := .core t.core, asid := t.asid, timeline := t.timeline, gen := t.gen, declared := t.declared, team := some i }
  let (code, _) ← openRegion who rcb key b (some (t.launch.region, t.launch)) t.now (t.covers sp) 0 0
  if code = 0 then
    let fields := [(0, 8), (80, 2)] ++ if bytesAt b 8 1 = 2 then [(99, 3), (104, 8)] else []
    modify fun (s : State) => fields.foldl (fun s p => s.overStaged i (key + p.1) p.2) s
  swrite f.d (BitVec.ofNat 64 code)

/-- The child of the team's region that a control block names (R299). -/
def childAt (rcb : Word) : Act (Option Nat) := do
  let t ← tm
  return ((← get).regions.find? fun g => g.2.parent == some t.launch.region && g.2.rcb == rcb).map (·.1)

/-- rg.close (R299): with `kill` it waits too until the failure has been entered (R280). It acquires what the
child's teams wrote (R304). -/
def rgClose (f : TForm) : Act Unit := do
  let (rcb, key) ← rcbArg f.a true
  match ← childAt rcb with
  | none => swrite f.d 0xFF
  | some r => do
    let kill := f.mod.getLsbD 0
    if kill then do
      modify fun (s : State) => s.failRegion r (Cause.code .user)
      let t ← tm
      if t.place = .ended then throw .gone
    let g := (← get).region r
    if !g.reported then blockAt {}
    let i ← me
    rcbTurn (key + 80) 1
    modify fun (s : State) => (((s.setRState r .closed).forget r).overStaged i (key + 80) 1).acquire i
    swrite f.d (BitVec.ofNat 64 g.state.code)

/-- rg.score (R300). -/
def rgScore (f : TForm) : Act Unit := do
  let x ← sread f.a
  let t ← tm
  let best := match (← get).nearestCmp t.launch.region with
    | none => x
    | some c => if scoreKey c t.score < scoreKey c x then x else t.score
  modTm fun t => { t with score := best }
  swrite f.d best

/-- Free bytes behind the launch's allocation on a core (R301; log 23). -/
def freeBehind (core : Nat) (l : LaunchId) : Act Nat := do
  let s ← get
  let c := s.core core
  let free := 786432 - c.allocs.foldl (fun n a => n + a.size) 0
  if c.allocs.all fun a => a.launch = l then return free
  else do
    let n ← nextFree
    return min free (Config.contiguous n * 128)

/-- rg.grow (R301). -/
def rgGrow (f : TForm) : Act Unit := do
  let x ← sread f.a
  let t ← tm
  let s ← get
  let have_ := s.growable t.launch
  let tour := decide ((s.region t.launch.region).kind = 2)
  match f.mod.toNat % 4 with
  | 0 => do
    let free ← freeBehind t.core t.launch
    let n := min (min x.toNat have_.scratch / 128 * 128) (free / 128 * 128)
    modify fun (s : State) =>
      let s1 := s.withAlloc t.core t.launch fun a => { a with size := a.size + n }
      if tour then s1.withLaunch t.launch fun l => { l with shareScratch := l.shareScratch - n, grown := l.grown + n }
      else s1
    swrite f.d (BitVec.ofNat 64 n)
  | 1 => do
    let used := (s.seated t.core).foldl (fun n u => n + u.2.accrows) 0
    let n := min (min x.toNat have_.rows) (3072 - used)
    modTm fun t => { t with accrows := t.accrows + n }
    if tour then
      modify fun (s : State) => s.withLaunch t.launch fun l =>
        { l with shareRows := l.shareRows - n, accrows := l.accrows + n }
    swrite f.d (BitVec.ofNat 64 n)
  | _ => do
    let n := min x.toNat have_.cores
    modify fun (s : State) => s.withLaunch t.launch fun l =>
      if tour then { l with reserve := l.reserve + n, shareCores := l.shareCores - n, cores := l.cores + n }
      else { l with reserve := l.reserve + n }
    swrite f.d (BitVec.ofNat 64 n)

/-- A field of rg.info: an amount that it cannot hold reads as a free value (log 23). -/
def infoField (w x : Nat) : Act Nat := do
  if x < 2 ^ w then return x
  else do
    let n ← nextFree
    return (Config.freeWord n).toNat % 2 ^ w

/-- rg.info (R302). -/
def rgInfo (f : TForm) : Act Unit := do
  let t ← tm
  let s ← get
  let g := s.region t.launch.region
  match f.mod.toNat % 4 with
  | 0 => swrite f.d g.rcb
  | 1 =>
    swrite f.d
      (if g.kind = 2 then BitVec.ofNat 64 (t.launch.entrant + g.round * 256 + g.alive * 2 ^ 16) else BitVec.allOnes 64)
  | 2 => do
    let a := s.growable t.launch
    let b ← infoField 32 a.scratch
    let r ← infoField 16 a.rows
    let c ← infoField 16 a.cores
    swrite f.d (BitVec.ofNat 64 (b + r * 2 ^ 32 + c * 2 ^ 48))
  | _ => do
    let (_, key) ← rcbArg f.a false
    let b ← rcbRead (key + 80) 2
    swrite f.d (BitVec.ofNat 64 (bytesAt b 0 2))

/-- rg.allow (R303): the team parks once the instruction has retired. -/
def rgAllow (f : TForm) : Act Unit := do
  let t ← tm
  swrite f.d t.allow
  if f.mod.getLsbD 0 then
    let i ← me
    modify fun (s : State) => s.parkTeam i

/-- rg.open (R298). -/
def execRgOpen (f : TForm) (s : State) : Host.Outcome State Fault Refusal := runCore (rgOpen f) s
/-- rg.close (R299). -/
def execRgClose (f : TForm) (s : State) : Host.Outcome State Fault Refusal := runCore (rgClose f) s
/-- rg.score (R300). -/
def execRgScore (f : TForm) (s : State) : Host.Outcome State Fault Refusal := runCore (rgScore f) s
/-- rg.grow (R301). -/
def execRgGrow (f : TForm) (s : State) : Host.Outcome State Fault Refusal := runCore (rgGrow f) s
/-- rg.info (R302). -/
def execRgInfo (f : TForm) (s : State) : Host.Outcome State Fault Refusal := runCore (rgInfo f) s
/-- rg.allow (R303). -/
def execRgAllow (f : TForm) (s : State) : Host.Outcome State Fault Refusal := runCore (rgAllow f) s

end Sys2Proof.Machine
end

