-- ==== Sys2Proof/Machine/Scaled.lean ====
section
/-! DEFINITION. The sc instructions (R156 to R161): blocks of 48 elements in lane registers. -/

namespace Sys2Proof.Machine

open Sys2Proof.Num (FVal)

/-- The number of a V register. -/
def vNum (r : Reg) : Nat := match r with | .v n => n.val | _ => 0
/-- Registers that the packed codes of an element type fill, and codes a register (R156). -/
def codeRegs (ty : Ty) : Nat := if ty.code = 14 then 6 else 12
/-- Bits of a code. -/
def codeBits (ty : Ty) : Nat := if ty.code = 14 then 4 else 8
/-- Write lane registers in a row. -/
def rowAt (lane base : Nat) (xs : List Nat) : List Result :=
  (List.range xs.length).zip xs |>.map fun p => ⟨.v lane (base + p.1), BitVec.ofNat 64 p.2, 0⟩
/-- Codes packed into registers (R156). -/
def packCodes (ty : Ty) (codes : List Nat) : List Nat :=
  let w := codeBits ty
  let n := 32 / w
  (List.range (codeRegs ty)).map fun r =>
    (List.range n).foldl (fun x i => x + codes.getD (n * r + i) 0 % 2 ^ w * 2 ^ (w * i)) 0
/-- The codes of packed registers (R156). -/
def unpackCodes (ty : Ty) (regs : List Nat) : List Nat :=
  let w := codeBits ty
  let n := 32 / w
  (List.range 48).map fun k => regs.getD (k / n) 0 / 2 ^ (w * (k % n)) % 2 ^ w
/-- Lane registers in a row. -/
def Team.row (t : Team) (lane base n : Nat) : List Nat := (List.range n).map fun i => (t.getV lane (base + i)).toNat
/-- The source values of a block (R156). -/
def scValues (t : Team) (lane : Nat) (r : Reg) : List FVal := (t.row lane (vNum r) 48).map Num.f32.value
/-- A coded block as its registers (R156). -/
def blockAtReg (ty : Ty) (lane base : Nat) (c : Blocks.Coded) : List Result :=
  rowAt lane base (packCodes ty c.codes ++ [c.scale + c.special * 256])

/-- Run an sc instruction, lane by lane. -/
def scRun (f : TForm) (uses : List (Reg × Nat)) (g : Team → Nat → List Result) : Act Unit :=
  runLanes f false uses fun t _ l => (g t l, 0)
/-- sc.quant (R157). -/
def scQuant (f : TForm) : Act Unit :=
  scRun f [(f.a, 48)] fun t l =>
    blockAtReg f.ty l (vNum f.d) (Blocks.quantize f.ty.code (f.mod.getLsbD 0) (scValues t l f.a))
/-- sc.scale (R158). -/
def scScale (f : TForm) : Act Unit :=
  scRun f [(f.a, 48)] fun t l => resultsAt l false f.d (BitVec.ofNat 64 (Blocks.scaleCode f.ty.code (scValues t l f.a)))
/-- sc.deq (R159). -/
def scDeq (f : TForm) : Act Unit :=
  scRun f [(f.a, codeRegs f.ty), (f.b, 1)] fun t l =>
    let w := (t.getV l (vNum f.b)).toNat
    let n := f.mod.toNat % 4
    let c := w / 256 ^ n % 256
    let p := if f.ty.code = 14 then w / 256 ^ (n + 1) % 256 else 0
    rowAt l (vNum f.d) ((unpackCodes f.ty (t.row l (vNum f.a) (codeRegs f.ty))).map fun x =>
      Num.rne32 (Blocks.value f.ty.code x c p))
/-- sc.pack (R160). -/
def scPack (f : TForm) : Act Unit :=
  scRun f [(f.a, 48)] fun t l => rowAt l (vNum f.d) (packCodes f.ty (t.row l (vNum f.a) 48))
/-- sc.unpack (R160). -/
def scUnpack (f : TForm) : Act Unit :=
  scRun f [(f.a, codeRegs f.ty)] fun t l => rowAt l (vNum f.d) (unpackCodes f.ty (t.row l (vNum f.a) (codeRegs f.ty)))
/-- sc.spec (R161): of the block in D it reads the scale alone. -/
def scSpec (f : TForm) : Act Unit :=
  scRun f [(f.d, 7), (f.a, 48)] fun t l =>
    let c := (t.getV l (vNum f.d + 6)).toNat % 256
    blockAtReg f.ty l (vNum f.d) (Blocks.respecial c (scValues t l f.a))

/-! ## The meanings -/

/-- sc.scale (R158). -/
def execScScale (f : TForm) (s : State) : Host.Outcome State Fault Refusal := runCore (scScale f) s
/-- sc.quant (R157). -/
def execScQuant (f : TForm) (s : State) : Host.Outcome State Fault Refusal := runCore (scQuant f) s
/-- sc.deq (R159). -/
def execScDeq (f : TForm) (s : State) : Host.Outcome State Fault Refusal := runCore (scDeq f) s
/-- sc.pack (R160). -/
def execScPack (f : TForm) (s : State) : Host.Outcome State Fault Refusal := runCore (scPack f) s
/-- sc.unpack (R160). -/
def execScUnpack (f : TForm) (s : State) : Host.Outcome State Fault Refusal := runCore (scUnpack f) s
/-- sc.spec (R161). -/
def execScSpec (f : TForm) (s : State) : Host.Outcome State Fault Refusal := runCore (scSpec f) s

end Sys2Proof.Machine
end

