-- ==== Sys2Proof/Machine/Sys.lean ====
section
/-! DEFINITION. The sys instructions (R367 to R373). -/

namespace Sys2Proof.Machine

/-- The code that MOD gives (R367). -/
def codeOf (f : TForm) : Nat := f.mod.toNat

/-- sys.trap (R368): it retires, and the delivery resumes at the next instruction. -/
def sysTrap (f : TForm) : Act Unit := do
  let ea ← sread f.a
  let t ← tm
  let i ← me
  let r : Rec := { t.record .user (codeOf f) with ea := ea }
  modify fun (s : State) => (s.closeInstr i).deliver i [r] (t.here true false)
  throw .gone

/-- sys.eret (R369): inside the handler it takes effect at the end of its clause, ahead of a transfer of that
clause (log 25). -/
def sysEret (f : TForm) : Act Unit := do
  let t ← tm
  if t.handler then modTm fun t => { t with returning := some (codeOf f) }

/-- sys.frec (R370): the records are performed at team scope as they are written. -/
def sysFrec (f : TForm) : Act Unit := do
  let t ← tm
  swrite f.d (BitVec.ofNat 64 t.causeCount)

/-- sys.flog (R371): it uses a poisoned register without a fault. -/
def sysFlog (f : TForm) : Act Unit := do
  let t ← tm
  let ea := t.scalar ((← get).teamsOf t) f.a
  let n := (← get).hearth.flogNext
  modify fun (s : State) => s.logFault { t.record .user (codeOf f) with ea := ea }
  swrite f.d (BitVec.ofNat 64 n)

/-- sys.yield (R372). -/
def sysYield : Act Unit := modTm fun t => { t with gaveUp := true }

/-- sys.dbg (R373): the team is saved at the next instruction. -/
def sysDbg (f : TForm) : Act Unit := do
  let t ← tm
  let i ← me
  if ((← get).space t.asid).debug then
    modify fun (s : State) =>
      let s1 := (s.logFault (t.record .user (64 + codeOf f))).retire i
      if (s1.team i).place = .ended then s1
      else
        let s2 := if (s1.team i).place = .resident then s1.saveTeam i (BitVec.allOnes 240) true else s1
        s2.withTeam i fun t => { t with debugStop := true }
    throw .gone

/-- sys.trap (R368). -/
def execSysTrap (f : TForm) (s : State) : Host.Outcome State Fault Refusal := runCore (sysTrap f) s
/-- sys.eret (R369). -/
def execSysEret (f : TForm) (s : State) : Host.Outcome State Fault Refusal := runCore (sysEret f) s
/-- sys.frec (R370). -/
def execSysFrec (f : TForm) (s : State) : Host.Outcome State Fault Refusal := runCore (sysFrec f) s
/-- sys.flog (R371). -/
def execSysFlog (f : TForm) (s : State) : Host.Outcome State Fault Refusal := runCore (sysFlog f) s
/-- sys.yield (R372). -/
def execSysYield (_ : TForm) (s : State) : Host.Outcome State Fault Refusal := runCore sysYield s
/-- sys.dbg (R373). -/
def execSysDbg (f : TForm) (s : State) : Host.Outcome State Fault Refusal := runCore (sysDbg f) s

end Sys2Proof.Machine
end

