-- ==== Sys2Proof/Machine/Dispatch.lean ====
section
/-! DEFINITION. exec: one arm per constructor of Instr, each a call of its meaning. -/

namespace Sys2Proof.Machine

/-- The meaning of an instruction. -/
def exec (i : Instr) (s : State) : Host.Outcome State Fault Refusal :=
  match i with
  | .frNop f => Sys2Proof.Machine.execFrNop f s
  | .frMov f => Sys2Proof.Machine.execFrMov f s
  | .frMovi f => Sys2Proof.Machine.execFrMovi f s
  | .frMovhi f => Sys2Proof.Machine.execFrMovhi f s
  | .frAddT f => Sys2Proof.Machine.execFrAddT f s
  | .frAddI f => Sys2Proof.Machine.execFrAddI f s
  | .frSubT f => Sys2Proof.Machine.execFrSubT f s
  | .frSubI f => Sys2Proof.Machine.execFrSubI f s
  | .frMulT f => Sys2Proof.Machine.execFrMulT f s
  | .frMulI f => Sys2Proof.Machine.execFrMulI f s
  | .frMulh f => Sys2Proof.Machine.execFrMulh f s
  | .frDiv f => Sys2Proof.Machine.execFrDiv f s
  | .frRem f => Sys2Proof.Machine.execFrRem f s
  | .frAndT f => Sys2Proof.Machine.execFrAndT f s
  | .frAndI f => Sys2Proof.Machine.execFrAndI f s
  | .frOrT f => Sys2Proof.Machine.execFrOrT f s
  | .frOrI f => Sys2Proof.Machine.execFrOrI f s
  | .frXorT f => Sys2Proof.Machine.execFrXorT f s
  | .frXorI f => Sys2Proof.Machine.execFrXorI f s
  | .frShlT f => Sys2Proof.Machine.execFrShlT f s
  | .frShlI f => Sys2Proof.Machine.execFrShlI f s
  | .frShrT f => Sys2Proof.Machine.execFrShrT f s
  | .frShrI f => Sys2Proof.Machine.execFrShrI f s
  | .frSraT f => Sys2Proof.Machine.execFrSraT f s
  | .frSraI f => Sys2Proof.Machine.execFrSraI f s
  | .frMinT f => Sys2Proof.Machine.execFrMinT f s
  | .frMinI f => Sys2Proof.Machine.execFrMinI f s
  | .frMaxT f => Sys2Proof.Machine.execFrMaxT f s
  | .frMaxI f => Sys2Proof.Machine.execFrMaxI f s
  | .frCmp f => Sys2Proof.Machine.execFrCmp f s
  | .frSel f => Sys2Proof.Machine.execFrSel f s
  | .frClz f => Sys2Proof.Machine.execFrClz f s
  | .frPopc f => Sys2Proof.Machine.execFrPopc f s
  | .frLd f => Sys2Proof.Machine.execFrLd f s
  | .frSt f => Sys2Proof.Machine.execFrSt f s
  | .frCsrr f => Sys2Proof.Machine.execFrCsrr f s
  | .frCsrw f => Sys2Proof.Machine.execFrCsrw f s
  | .ctlBr f => Sys2Proof.Machine.execCtlBr f s
  | .ctlJmp f => Sys2Proof.Machine.execCtlJmp f s
  | .ctlCall f => Sys2Proof.Machine.execCtlCall f s
  | .ctlRet f => Sys2Proof.Machine.execCtlRet f s
  | .ctlBrv f => Sys2Proof.Machine.execCtlBrv f s
  | .ctlJoin f => Sys2Proof.Machine.execCtlJoin f s
  | .ctlCallv f => Sys2Proof.Machine.execCtlCallv f s
  | .ctlRetq f => Sys2Proof.Machine.execCtlRetq f s
  | .ctlExit f => Sys2Proof.Machine.execCtlExit f s
  | .kmSetT f => Sys2Proof.Machine.execKmSetT f s
  | .kmSetI f => Sys2Proof.Machine.execKmSetI f s
  | .kmAnd f => Sys2Proof.Machine.execKmAnd f s
  | .kmOr f => Sys2Proof.Machine.execKmOr f s
  | .kmAndn f => Sys2Proof.Machine.execKmAndn f s
  | .kmXor f => Sys2Proof.Machine.execKmXor f s
  | .kmNot f => Sys2Proof.Machine.execKmNot f s
  | .kmPop f => Sys2Proof.Machine.execKmPop f s
  | .kmFirst f => Sys2Proof.Machine.execKmFirst f s
  | .kmInsT f => Sys2Proof.Machine.execKmInsT f s
  | .kmInsI f => Sys2Proof.Machine.execKmInsI f s
  | .kmExtT f => Sys2Proof.Machine.execKmExtT f s
  | .kmExtI f => Sys2Proof.Machine.execKmExtI f s
  | .kmExm f => Sys2Proof.Machine.execKmExm f s
  | .lnMov f => Sys2Proof.Machine.execLnMov f s
  | .lnMovi f => Sys2Proof.Machine.execLnMovi f s
  | .lnMovs f => Sys2Proof.Machine.execLnMovs f s
  | .lnAddT f => Sys2Proof.Machine.execLnAddT f s
  | .lnAddI f => Sys2Proof.Machine.execLnAddI f s
  | .lnSubT f => Sys2Proof.Machine.execLnSubT f s
  | .lnSubI f => Sys2Proof.Machine.execLnSubI f s
  | .lnAddc f => Sys2Proof.Machine.execLnAddc f s
  | .lnSubb f => Sys2Proof.Machine.execLnSubb f s
  | .lnMulT f => Sys2Proof.Machine.execLnMulT f s
  | .lnMulI f => Sys2Proof.Machine.execLnMulI f s
  | .lnMulh f => Sys2Proof.Machine.execLnMulh f s
  | .lnMad f => Sys2Proof.Machine.execLnMad f s
  | .lnAndT f => Sys2Proof.Machine.execLnAndT f s
  | .lnAndI f => Sys2Proof.Machine.execLnAndI f s
  | .lnOrT f => Sys2Proof.Machine.execLnOrT f s
  | .lnOrI f => Sys2Proof.Machine.execLnOrI f s
  | .lnXorT f => Sys2Proof.Machine.execLnXorT f s
  | .lnXorI f => Sys2Proof.Machine.execLnXorI f s
  | .lnNot f => Sys2Proof.Machine.execLnNot f s
  | .lnShlT f => Sys2Proof.Machine.execLnShlT f s
  | .lnShlI f => Sys2Proof.Machine.execLnShlI f s
  | .lnShrT f => Sys2Proof.Machine.execLnShrT f s
  | .lnShrI f => Sys2Proof.Machine.execLnShrI f s
  | .lnSraT f => Sys2Proof.Machine.execLnSraT f s
  | .lnSraI f => Sys2Proof.Machine.execLnSraI f s
  | .lnRotT f => Sys2Proof.Machine.execLnRotT f s
  | .lnRotI f => Sys2Proof.Machine.execLnRotI f s
  | .lnMinT f => Sys2Proof.Machine.execLnMinT f s
  | .lnMinI f => Sys2Proof.Machine.execLnMinI f s
  | .lnMaxT f => Sys2Proof.Machine.execLnMaxT f s
  | .lnMaxI f => Sys2Proof.Machine.execLnMaxI f s
  | .lnAbs f => Sys2Proof.Machine.execLnAbs f s
  | .lnNeg f => Sys2Proof.Machine.execLnNeg f s
  | .lnCmp f => Sys2Proof.Machine.execLnCmp f s
  | .lnSel f => Sys2Proof.Machine.execLnSel f s
  | .lnClz f => Sys2Proof.Machine.execLnClz f s
  | .lnPopc f => Sys2Proof.Machine.execLnPopc f s
  | .lnBfx f => Sys2Proof.Machine.execLnBfx f s
  | .lnBfi f => Sys2Proof.Machine.execLnBfi f s
  | .lnPerm f => Sys2Proof.Machine.execLnPerm f s
  | .lnCvt f => Sys2Proof.Machine.execLnCvt f s
  | .lnSat f => Sys2Proof.Machine.execLnSat f s
  | .xlShflT f => Sys2Proof.Machine.execXlShflT f s
  | .xlShflI f => Sys2Proof.Machine.execXlShflI f s
  | .xlShfxT f => Sys2Proof.Machine.execXlShfxT f s
  | .xlShfxI f => Sys2Proof.Machine.execXlShfxI f s
  | .xlBcastT f => Sys2Proof.Machine.execXlBcastT f s
  | .xlBcastI f => Sys2Proof.Machine.execXlBcastI f s
  | .xlRed f => Sys2Proof.Machine.execXlRed f s
  | .xlRedi f => Sys2Proof.Machine.execXlRedi f s
  | .xlScan f => Sys2Proof.Machine.execXlScan f s
  | .xlBallot f => Sys2Proof.Machine.execXlBallot f s
  | .fpAdd f => Sys2Proof.Machine.execFpAdd f s
  | .fpSub f => Sys2Proof.Machine.execFpSub f s
  | .fpMul f => Sys2Proof.Machine.execFpMul f s
  | .fpFma f => Sys2Proof.Machine.execFpFma f s
  | .fpMin f => Sys2Proof.Machine.execFpMin f s
  | .fpMax f => Sys2Proof.Machine.execFpMax f s
  | .fpAbs f => Sys2Proof.Machine.execFpAbs f s
  | .fpNeg f => Sys2Proof.Machine.execFpNeg f s
  | .fpCmp f => Sys2Proof.Machine.execFpCmp f s
  | .fpCls f => Sys2Proof.Machine.execFpCls f s
  | .fpDiv f => Sys2Proof.Machine.execFpDiv f s
  | .fpSqrt f => Sys2Proof.Machine.execFpSqrt f s
  | .fpRcp f => Sys2Proof.Machine.execFpRcp f s
  | .fpRsq f => Sys2Proof.Machine.execFpRsq f s
  | .fpExp2 f => Sys2Proof.Machine.execFpExp2 f s
  | .fpLog2 f => Sys2Proof.Machine.execFpLog2 f s
  | .fpRnd f => Sys2Proof.Machine.execFpRnd f s
  | .fpCvt f => Sys2Proof.Machine.execFpCvt f s
  | .fpFti f => Sys2Proof.Machine.execFpFti f s
  | .fpItf f => Sys2Proof.Machine.execFpItf f s
  | .fpLdexp f => Sys2Proof.Machine.execFpLdexp f s
  | .fpFrexp f => Sys2Proof.Machine.execFpFrexp f s
  | .dcAdd f => Sys2Proof.Machine.execDcAdd f s
  | .dcSub f => Sys2Proof.Machine.execDcSub f s
  | .dcMul f => Sys2Proof.Machine.execDcMul f s
  | .dcFma f => Sys2Proof.Machine.execDcFma f s
  | .dcDiv f => Sys2Proof.Machine.execDcDiv f s
  | .dcCmp f => Sys2Proof.Machine.execDcCmp f s
  | .dcQuant f => Sys2Proof.Machine.execDcQuant f s
  | .dcCvt f => Sys2Proof.Machine.execDcCvt f s
  | .dcRnd f => Sys2Proof.Machine.execDcRnd f s
  | .scScale f => Sys2Proof.Machine.execScScale f s
  | .scQuant f => Sys2Proof.Machine.execScQuant f s
  | .scDeq f => Sys2Proof.Machine.execScDeq f s
  | .scPack f => Sys2Proof.Machine.execScPack f s
  | .scUnpack f => Sys2Proof.Machine.execScUnpack f s
  | .scSpec f => Sys2Proof.Machine.execScSpec f s
  | .mxTake f => Sys2Proof.Machine.execMxTake f s
  | .mxGive f => Sys2Proof.Machine.execMxGive f s
  | .mxMma f => Sys2Proof.Machine.execMxMma f s
  | .mxMmas f => Sys2Proof.Machine.execMxMmas f s
  | .mxDist f => Sys2Proof.Machine.execMxDist f s
  | .mxTopk f => Sys2Proof.Machine.execMxTopk f s
  | .mxWload f => Sys2Proof.Machine.execMxWload f s
  | .mxAload f => Sys2Proof.Machine.execMxAload f s
  | .mxAstore f => Sys2Proof.Machine.execMxAstore f s
  | .mxAzero f => Sys2Proof.Machine.execMxAzero f s
  | .mxCfg f => Sys2Proof.Machine.execMxCfg f s
  | .memLdi f => Sys2Proof.Machine.execMemLdi f s
  | .memAwait f => Sys2Proof.Machine.execMemAwait f s
  | .memSt f => Sys2Proof.Machine.execMemSt f s
  | .memLds f => Sys2Proof.Machine.execMemLds f s
  | .memSts f => Sys2Proof.Machine.execMemSts f s
  | .memFe f => Sys2Proof.Machine.execMemFe f s
  | .memAtom f => Sys2Proof.Machine.execMemAtom f s
  | .memFence f => Sys2Proof.Machine.execMemFence f s
  | .memXfence f => Sys2Proof.Machine.execMemXfence f s
  | .memPublish f => Sys2Proof.Machine.execMemPublish f s
  | .memOpx f => Sys2Proof.Machine.execMemOpx f s
  | .memOptab f => Sys2Proof.Machine.execMemOptab f s
  | .cpColl f => Sys2Proof.Machine.execCpColl f s
  | .cpGath f => Sys2Proof.Machine.execCpGath f s
  | .cpPut f => Sys2Proof.Machine.execCpPut f s
  | .cpYield f => Sys2Proof.Machine.execCpYield f s
  | .cpWait f => Sys2Proof.Machine.execCpWait f s
  | .qBind f => Sys2Proof.Machine.execQBind f s
  | .qPut f => Sys2Proof.Machine.execQPut f s
  | .qTake f => Sys2Proof.Machine.execQTake f s
  | .qTry f => Sys2Proof.Machine.execQTry f s
  | .qLen f => Sys2Proof.Machine.execQLen f s
  | .ltNow f => Sys2Proof.Machine.execLtNow f s
  | .ltAdv f => Sys2Proof.Machine.execLtAdv f s
  | .ltEnter f => Sys2Proof.Machine.execLtEnter f s
  | .ltLeave f => Sys2Proof.Machine.execLtLeave f s
  | .ltHold f => Sys2Proof.Machine.execLtHold f s
  | .ltDrop f => Sys2Proof.Machine.execLtDrop f s
  | .ltWait f => Sys2Proof.Machine.execLtWait f s
  | .ltTest f => Sys2Proof.Machine.execLtTest f s
  | .tkPush f => Sys2Proof.Machine.execTkPush f s
  | .tkArgs f => Sys2Proof.Machine.execTkArgs f s
  | .tkEq f => Sys2Proof.Machine.execTkEq f s
  | .tkDq f => Sys2Proof.Machine.execTkDq f s
  | .tkRing f => Sys2Proof.Machine.execTkRing f s
  | .rgOpen f => Sys2Proof.Machine.execRgOpen f s
  | .rgClose f => Sys2Proof.Machine.execRgClose f s
  | .rgScore f => Sys2Proof.Machine.execRgScore f s
  | .rgGrow f => Sys2Proof.Machine.execRgGrow f s
  | .rgInfo f => Sys2Proof.Machine.execRgInfo f s
  | .rgAllow f => Sys2Proof.Machine.execRgAllow f s
  | .nmLaunch f => Sys2Proof.Machine.execNmLaunch f s
  | .nmRatio f => Sys2Proof.Machine.execNmRatio f s
  | .sysTrap f => Sys2Proof.Machine.execSysTrap f s
  | .sysEret f => Sys2Proof.Machine.execSysEret f s
  | .sysFrec f => Sys2Proof.Machine.execSysFrec f s
  | .sysFlog f => Sys2Proof.Machine.execSysFlog f s
  | .sysYield f => Sys2Proof.Machine.execSysYield f s
  | .sysDbg f => Sys2Proof.Machine.execSysDbg f s
  | .slNop => Sys2Proof.Machine.execSlNop s
  | .slHalt => Sys2Proof.Machine.execSlHalt s
  | .slAbm => Sys2Proof.Machine.execSlAbm s
  | .slSbm => Sys2Proof.Machine.execSlSbm s
  | .slAct f => Sys2Proof.Machine.execSlAct f s
  | .slRd f => Sys2Proof.Machine.execSlRd f s
  | .slWr f => Sys2Proof.Machine.execSlWr f s
  | .slBx f => Sys2Proof.Machine.execSlBx f s
  | .slMac f => Sys2Proof.Machine.execSlMac f s
  | .slBred f => Sys2Proof.Machine.execSlBred f s
  | .slAdd f => Sys2Proof.Machine.execSlAdd f s
  | .slSub f => Sys2Proof.Machine.execSlSub f s
  | .slMul f => Sys2Proof.Machine.execSlMul f s
  | .slFma f => Sys2Proof.Machine.execSlFma f s
  | .slMin f => Sys2Proof.Machine.execSlMin f s
  | .slMax f => Sys2Proof.Machine.execSlMax f s
  | .slCmp f => Sys2Proof.Machine.execSlCmp f s
  | .slSel f => Sys2Proof.Machine.execSlSel f s
  | .slCvt f => Sys2Proof.Machine.execSlCvt f s
  | .slMovi f => Sys2Proof.Machine.execSlMovi f s
  | .slMov f => Sys2Proof.Machine.execSlMov f s
  | .slAg f => Sys2Proof.Machine.execSlAg f s
  | .slLoop f => Sys2Proof.Machine.execSlLoop f s
  | .slSendBa f => Sys2Proof.Machine.execSlSendBa f s
  | .slSendW f => Sys2Proof.Machine.execSlSendW f s
  | .slRecv f => Sys2Proof.Machine.execSlRecv f s
  | .slFence => Sys2Proof.Machine.execSlFence s
  | .clauseHeader team => Sys2Proof.Machine.execClauseHeader team s
  | .clauseWaitSatisfied team => Sys2Proof.Machine.execClauseWaitSatisfied team s
  | .blockingPointResume team => Sys2Proof.Machine.execBlockingPointResume team s
  | .qstall team => Sys2Proof.Machine.execQstall team s
  | .loadLanding team op part hit => Sys2Proof.Machine.execLoadLanding team op part hit s
  | .longLatencyComplete team op lanes => Sys2Proof.Machine.execLongLatencyComplete team op lanes s
  | .wloadResident core id first count => Sys2Proof.Machine.execWloadResident core id first count s
  | .latchkeyHandover core => Sys2Proof.Machine.execLatchkeyHandover core s
  | .mortarArrival index => Sys2Proof.Machine.execMortarArrival index s
  | .mortarDrain addr size => Sys2Proof.Machine.execMortarDrain addr size s
  | .sliceWriteAccept index => Sys2Proof.Machine.execSliceWriteAccept index s
  | .countRetire index => Sys2Proof.Machine.execCountRetire index s
  | .frontierAnnounce core asid loc => Sys2Proof.Machine.execFrontierAnnounce core asid loc s
  | .taskAccept index => Sys2Proof.Machine.execTaskAccept index s
  | .taskGroupTimeout group core => Sys2Proof.Machine.execTaskGroupTimeout group core s
  | .copyLineFilled copy chunk => Sys2Proof.Machine.execCopyLineFilled copy chunk s
  | .copyComplete copy => Sys2Proof.Machine.execCopyComplete copy s
  | .copyRestamp copy => Sys2Proof.Machine.execCopyRestamp copy s
  | .sillBlockStart chan => Sys2Proof.Machine.execSillBlockStart chan s
  | .sillSubwave chan => Sys2Proof.Machine.execSillSubwave chan s
  | .sillStall chan => Sys2Proof.Machine.execSillStall chan s
  | .banklim chan limit => Sys2Proof.Machine.execBanklim chan limit s
  | .hearthDecision => Sys2Proof.Machine.execHearthDecision s
  | .distributorTeamStart record core => Sys2Proof.Machine.execDistributorTeamStart record core s
  | .hearthTimer watts east west => Sys2Proof.Machine.execHearthTimer watts east west s
  | .drainWindow ctx => Sys2Proof.Machine.execDrainWindow ctx s
  | .seekDeadline ctx => Sys2Proof.Machine.execSeekDeadline ctx s
  | .saveComplete ctx => Sys2Proof.Machine.execSaveComplete ctx s
  | .restoreComplete ctx => Sys2Proof.Machine.execRestoreComplete ctx s
  | .pageWalk team va write => Sys2Proof.Machine.execPageWalk team va write s
  | .regionDone region => Sys2Proof.Machine.execRegionDone region s
  | .rank region => Sys2Proof.Machine.execRank region s
  | .ticketRelease region => Sys2Proof.Machine.execTicketRelease region s
  | .idleEntry => Sys2Proof.Machine.execIdleEntry s
  | .powerExit => Sys2Proof.Machine.execPowerExit s
  | .hostLinkTrain link lanes cxl => Sys2Proof.Machine.execHostLinkTrain link lanes cxl s
  | .cxlLinkLost expander => Sys2Proof.Machine.execCxlLinkLost expander s
  | .completionTimeout expander => Sys2Proof.Machine.execCompletionTimeout expander s
  | .portFailure port => Sys2Proof.Machine.execPortFailure port s
  | .hostTlpWrite addr data poisoned => Sys2Proof.Machine.execHostTlpWrite addr data poisoned s
  | .deviceReset => Sys2Proof.Machine.execDeviceReset s
  | .patrolScrub atom found => Sys2Proof.Machine.execPatrolScrub atom found s
  | .layoutChange chan target start base size => Sys2Proof.Machine.execLayoutChange chan target start base size s
  | .admpi value => Sys2Proof.Machine.execAdmpi value s
  | .wqpi queue value => Sys2Proof.Machine.execWqpi queue value s
  | .admcc value => Sys2Proof.Machine.execAdmcc value s
  | .wqcc queue value => Sys2Proof.Machine.execWqcc queue value s
  | .bar0Write offset size value => Sys2Proof.Machine.execBar0Write offset size value s
  | .rootSubmission queue => Sys2Proof.Machine.execRootSubmission queue s
  | .createWq queue ring slots compl asid vector => Sys2Proof.Machine.execCreateWq queue ring slots compl asid vector s
  | .deleteWq queue => Sys2Proof.Machine.execDeleteWq queue s
  | .registerAs record => Sys2Proof.Machine.execRegisterAs record s
  | .releaseAs asid => Sys2Proof.Machine.execReleaseAs asid s
  | .pageAnswer rid answer => Sys2Proof.Machine.execPageAnswer rid answer s
  | .raiseFloor asid timeline value => Sys2Proof.Machine.execRaiseFloor asid timeline value s
  | .setWindow window asid base length bar2 version => Sys2Proof.Machine.execSetWindow window asid base length bar2 version s
  | .clearWindow window => Sys2Proof.Machine.execClearWindow window s
  | .setCap watts => Sys2Proof.Machine.execSetCap watts s
  | .setLtol micros => Sys2Proof.Machine.execSetLtol micros s
  | .setDrain cycles => Sys2Proof.Machine.execSetDrain cycles s
  | .debug asid enable ctx => Sys2Proof.Machine.execDebug asid enable ctx s
  | .resetLink link expander => Sys2Proof.Machine.execResetLink link expander s
  | .readFaultlog buffer first count => Sys2Proof.Machine.execReadFaultlog buffer first count s
  | .checkpoint target asids => Sys2Proof.Machine.execCheckpoint target asids s
  | .checkpointComplete => Sys2Proof.Machine.execCheckpointComplete s
  | .restore target => Sys2Proof.Machine.execRestore target s
  | .checkImage asid addr length => Sys2Proof.Machine.execCheckImage asid addr length s
  | .enrolKey pair slot => Sys2Proof.Machine.execEnrolKey pair slot s
  | .loadFw image => Sys2Proof.Machine.execLoadFw image s
  | .attest nonce buffer => Sys2Proof.Machine.execAttest nonce buffer s
  | .summary buffer length => Sys2Proof.Machine.execSummary buffer length s
  | .linkFailure link => Sys2Proof.Machine.execLinkFailure link s
  | .cxlLinkRetrain expander => Sys2Proof.Machine.execCxlLinkRetrain expander s

end Sys2Proof.Machine
end

