-- ==== Sys2Proof/Machine/Step.lean ====
section
/-! DEFINITION. One step of the machine, and the placing of an instruction where the next step runs
it. -/

namespace Sys2Proof.Machine

/-- One step: the turn that is next, and what it runs. -/
def step (s : State) : Host.Outcome State Fault Refusal :=
  let x := s.nextTurn
  match x.2.pick x.1 with
  | .run t i => exec i t
  | .done t => .next t

/-- The state with an instruction placed where the next step runs it (log 1): a core word of 64 bits in
the open clause of a team, a Sill word of 32 bits in the program of a block. -/
def State.withFetchWord (s : State) (nbits w : Nat) : State :=
  if nbits = 64 then s.placeCore (BitVec.ofNat 64 w)
  else if nbits = 32 then s.placeSill (BitVec.ofNat 32 w)
  else s

end Sys2Proof.Machine
end

