-- ==== Sys2Proof/Safety.lean ====
section
/-! DEFINITION. The terms the statements use: which team or unit is at issue, what it means that an
instruction completes with its own effect, operands that are read without a pop, typed values as
integers, and results written to lanes. -/

namespace Sys2Proof.Machine

/-! ## At issue -/

/-- Team `i` is at issue and stands as `t`. -/
def AtIssue (s : State) (i : Nat) (t : Team) : Prop := s.cur = some i ∧ SMap.find s.teams i = some t

/-- The instruction completes with its own effect: the next state is that of the issuing team changed
into `u`, everything else as it was, and the instruction retired. -/
def Completes (ins : Instr) (s : State) (i : Nat) (u : Team) : Prop :=
  exec ins s = .next ((s.withTeam i fun _ => u).retire i)

/-- The same for an effect beyond the team: the next state is `s'` with the instruction retired. -/
def CompletesAs (ins : Instr) (s : State) (i : Nat) (s' : State) : Prop := exec ins s = .next (s'.retire i)

/-- The same where lanes or the front unit have reached memory: their page registers hold the translations
that served them (R340), and the statement leaves open which. -/
def CompletesPaged (ins : Instr) (s : State) (i : Nat) (s' : State) : Prop :=
  ∃ (lanes : SMap Tlb) (front : Option Tlb),
    CompletesAs ins s i (s'.withTeam i fun u => { u with lanePages := lanes, frontPage := front })

/-- The instruction traps with records: they are delivered, and it does not retire. -/
def Traps (ins : Instr) (s : State) (i : Nat) (rs : List Rec) : Prop := exec ins s = .next (s.trapInstr i rs)

/-- A block runs on unit `c` and its word is at issue. -/
def UnitAtIssue (s : State) (c : Nat) (u : Sill) (b : SillBlock) : Prop :=
  s.curUnit = some c ∧ s.sill c = u ∧ u.running = some b

/-- The instruction at issue has not issued before: nothing of it is done (R187). -/
def Team.FirstIssue (t : Team) : Prop :=
  t.served = 0 ∧ t.popped = [] ∧ t.step = 0 ∧ t.unitNow = none ∧ t.groupNow = none

/-- Units that have not drained are units the team has issued (R186). -/
def Team.UnitsIssued (t : Team) : Prop := ∀ u ∈ t.undrained, 0 < u.1 ∧ u.1 ≤ t.issued

/-- Effects of the team go to the ticket unit (R291). -/
def Holds (s : State) (t : Team) : Bool := s.detOf t

/-- The ticket unit has room for one more unit of the team (R291). -/
def UnitRoom (s : State) (t : Team) : Prop := Holds s t = true → t.undrained.length < 4096

/-- A unit opens for the instruction at issue and owes its own operation and `n` more (R186). -/
def Team.openUnit (t : Team) (n : Nat) : Team :=
  { t with issued := t.issued + 1, undrained := t.undrained ++ [(t.issued + 1, 1 + n)], unitNow := some (t.issued + 1) }

/-- A state after the team at issue has issued stores on a path: they wait for their slices, or for the
ticket unit (R186, R291). Each is a lane, an address, a key and bytes. -/
def State.issueStores (s : State) (i : Nat) (t : Team) (path : Nat) (xs : List (Nat × Word × Nat × List Byte)) : State :=
  let w (x : Nat × Word × Nat × List Byte) : PendWrite :=
    { team := i, unit := t.issued + 1, path := path, lane := x.1, va := x.2.1, key := x.2.2.1, bytes := x.2.2.2
      asid := t.asid, group := s.serial }
  let u := t.openUnit xs.length
  if Holds s t then s.withTeam i fun _ => { u with staged := t.staged ++ xs.map fun x => .write (w x) }
  else { s.withTeam i fun _ => u with writes := s.writes ++ xs.map w }

/-! ## Scalar operands (R62) -/

/-- A source that is read without a pop and without POISON. -/
def Readable (t : Team) (r : Reg) : Prop :=
  match r with
  | .q _ => False
  | .s n => t.poisonS n = 0
  | _ => True

/-- A specifier that is no queue register. -/
def NoQueue (r : Reg) : Prop := match r with | .q _ => False | _ => True

/-- A team after a scalar result: S takes it in full, A its low 8 bits, ZERO discards it (R74). -/
def Team.putScalar (t : Team) (r : Reg) (x : Word) : Team :=
  match r with
  | .s n => t.setS n x
  | .a n => t.setA n (x.setWidth 8)
  | _ => t

/-- A team after a mask result: K takes it, ZERO discards it (R94). -/
def Team.putMask (t : Team) (r : Reg) (m : Mask) : Team := match r with | .k n => t.setK n.val m | _ => t

/-! ## Typed values (R60, R74) -/

/-- The low bits of a word as its type reads them. -/
def valueOf (ty : Ty) (x : Word) : Int :=
  if tySigned ty then (BitVec.ofNat (tyWidth ty) x.toNat).toInt else (x.toNat % 2 ^ tyWidth ty : Nat)

/-- An exact integer narrowed to a type's width and extended to 64 bits as the type says. -/
def narrow (ty : Ty) (x : Int) : Word :=
  if tySigned ty then BitVec.ofInt 64 (BitVec.ofInt (tyWidth ty) x).toInt
  else BitVec.ofNat 64 (BitVec.ofInt (tyWidth ty) x).toNat

/-! ## Lanes (R62, R98) -/

/-- No active lane uses a poisoned register (R357). -/
def Unpoisoned (t : Team) (km : Fin 16) (uses : List (Reg × Nat)) : Prop :=
  ∀ l ∈ t.lanesOf km.val, t.firstPoison l uses = none

/-- A team after a result in each of some lanes, one register or a pair. -/
def Team.putLanes (t : Team) (lanes : List Nat) (wide : Bool) (d : Reg) (x : Nat → Word) : Team :=
  lanes.foldl (fun u l => u.ldst l wide d (x l)) t

/-- Every lane of an instruction proceeds: no POISON, and no enabled exception. -/
def Proceeds (t : Team) (teams : Nat) (km : Fin 16) (dec : Bool) (uses : List (Reg × Nat))
    (g : Team → Nat → Nat → List Result × BitVec 5) : Prop :=
  Unpoisoned t km uses ∧ ∀ l ∈ t.lanesOf km.val, (g t teams l).2 &&& t.enables dec = 0

/-- The results of such an instruction's lanes, and the flags they raise. -/
def laneResults (t : Team) (teams : Nat) (km : Fin 16) (g : Team → Nat → Nat → List Result × BitVec 5) : List Result :=
  (t.lanesOf km.val).flatMap fun l => (g t teams l).1
/-- The flags they raise. -/
def laneFlags (t : Team) (teams : Nat) (km : Fin 16) (g : Team → Nat → Nat → List Result × BitVec 5) : BitVec 5 :=
  (t.lanesOf km.val).foldl (fun a l => a ||| (g t teams l).2) 0

/-- A result for a lane's register. -/
def Result.inLane (r : Result) : Bool := match r.dst with | .v _ _ => true | .s _ => false

/-- A state after the results and flags of a long-latency instruction: at once under LA 0, else in flight
with LA further instructions ahead of them, the faults of its lanes among them (R23, R24, R136). A result
for an S register is written at once. -/
def State.delivered (s : State) (i : Nat) (t : Team) (la : BitVec 4) (rs : List Result) (fpf dcf : BitVec 5)
    (faults : List Rec := []) : State :=
  if la = 0 then s.withTeam i fun _ => t.putResults rs fpf dcf
  else
    let op : Op :=
      { ident := s.serial, window := some la.toNat, results := rs.filter Result.inLane, fpf := fpf.toNat, dcf := dcf.toNat
        matrix := t.clause.any (·.eng == 2), faults := faults, resume := t.here false true }
    let u := (rs.filter fun r => !r.inLane).foldl Team.land t
    { s.withTeam i fun _ => { u with ops := u.ops ++ [op] } with serial := s.serial + 1 }

/-! ## Translation (R336, R339) -/

/-- The translations a team's accesses may find: its core's, and those of its page registers (R340). -/
def Team.translations (t : Team) (s : State) : List Tlb :=
  (s.core t.core).tlb ++ t.lanePages.map (·.2) ++ t.frontPage.toList

/-- An access of the team at issue finds its translation in the core's store and nothing in its way: no
side-log entry of the page, no declared fault. All that it may find agree on the key. -/
def Mapped (s : State) (i : Nat) (t : Team) (va : Word) (need : Need) (key : Nat) : Prop :=
  canonical va = true ∧ s.inLog i va = false ∧
    t.declared.find? (·.page == va.toNat % 2 ^ 57 / 4096 * 4096) = none ∧
    let serves (e : Tlb) : Bool := e.usable t.asid (va.toNat % 2 ^ 57) t.timeline t.gen need
    ∃ k, (s.core t.core).tlb.any serves = true ∧ ∀ e ∈ t.translations s, serves e → s.through e (va.toNat % 2 ^ 57) need = .ok key k

/-- What a team's read, issued as the object of a number, finds at a key where no Mortar entry is pending: memory,
and in a deterministic launch the team's own earlier effects over it (R291; log 22). -/
def State.ownBytes (s : State) (i before key n : Nat) : List Byte :=
  let lo := key / 8 * 8
  let bs := readBytes s.mem lo ((key + n + 7) / 8 * 8 - lo)
  let own := if s.detOf (s.team i) then s.ownOver i before lo bs else bs
  (own.drop (key - lo)).take n

/-! ## The invariant -/

/-- Memory stands in its canonical form. -/
def State.Sound (s : State) : Prop := Memory.wf s.mem = true

end Sys2Proof.Machine
end

