-- ==== Sys2Proof/Certificates/Slice0/Obligations.lean ====
section
/-! DEFINITION. The statements for the provers. -/

open Sys2Proof Sys2Proof.Machine

namespace Sys2Proof.Claims

/-! ## The front unit -/

/-- The relation a condition code names (R80, R104). -/
def relation (c : Nat) (x y : Int) : Bool :=
  match c with
  | 0 => decide (x = y)
  | 1 => decide (x ≠ y)
  | 2 => decide (x < y)
  | 3 => decide (x ≤ y)
  | 4 => decide (x > y)
  | _ => decide (x ≥ y)

/-- The integer operations that have a register form and an immediate form, each with its result in
full as a function of its type and of its two sources in full (R79, R81). -/
def frontBin : List ((TForm → Instr) × (IForm → Instr) × (Ty → Word → Word → Word)) :=
  [(.frAddT, .frAddI, fun ty a b => narrow ty (valueOf ty a + valueOf ty b)),
   (.frSubT, .frSubI, fun ty a b => narrow ty (valueOf ty a - valueOf ty b)),
   (.frMulT, .frMulI, fun ty a b => narrow ty (valueOf ty a * valueOf ty b)),
   (.frAndT, .frAndI, fun ty a b => narrow ty (a &&& b).toNat),
   (.frOrT, .frOrI, fun ty a b => narrow ty (a ||| b).toNat),
   (.frXorT, .frXorI, fun ty a b => narrow ty (a ^^^ b).toNat),
   (.frMinT, .frMinI, fun ty a b => narrow ty (min (valueOf ty a) (valueOf ty b))),
   (.frMaxT, .frMaxI, fun ty a b => narrow ty (max (valueOf ty a) (valueOf ty b))),
   (.frShlT, .frShlI, fun ty a b => narrow ty (a.toNat * 2 ^ b.toNat)),
   (.frShrT, .frShrI, fun ty a b => narrow ty (a.toNat % 2 ^ tyWidth ty / 2 ^ b.toNat : Nat)),
   (.frSraT, .frSraI, fun ty a b => narrow ty ((BitVec.ofNat (tyWidth ty) a.toNat).toInt / 2 ^ b.toNat))]

/-- The other fr instructions on registers, with the result as a function of A, B and C in full
(R79, R80). -/
def frontT : List ((TForm → Instr) × (TForm → Word → Word → Word → Word)) :=
  [(.frMov, fun f a _ _ => narrow f.ty (valueOf f.ty a)),
   (.frMulh, fun f a b _ => narrow f.ty (valueOf f.ty a * valueOf f.ty b / 2 ^ tyWidth f.ty)),
   (.frCmp, fun f a b _ =>
     if relation f.mod.toNat (valueOf f.ty a) (valueOf f.ty b) then 1 else 0),
   (.frSel, fun f a b c => narrow f.ty (valueOf f.ty (if c = 0 then b else a))),
   (.frClz, fun f a _ _ => BitVec.ofNat 64 (tyWidth f.ty - Num.bitlen (a.toNat % 2 ^ tyWidth f.ty))),
   (.frPopc, fun f a _ _ => BitVec.ofNat 64 ((List.range (tyWidth f.ty)).filter fun i => a.getLsbD i).length)]

/-- Quotient and remainder, truncated (R82). -/
def frontDivide : List ((TForm → Instr) × (Int → Int → Int)) := [(.frDiv, Int.tdiv), (.frRem, Int.tmod)]

end Sys2Proof.Claims

open Sys2Proof.Claims

/-- fr instructions with register operands, for every state and all operands read without a pop: the
result goes to D narrowed and extended as the type says, and nothing else changes. -/
def Obligations.FrontRegisterForms : Prop :=
  ∀ (f : TForm) (s : State) (i : Nat) (t : Team), AtIssue s i t →
    Readable t f.a → Readable t f.b → Readable t f.c → NoQueue f.d →
      let v := t.scalar (s.teamsOf t)
      Completes (.frNop f) s i t ∧
      (∀ p ∈ frontBin, Completes (p.1 f) s i (t.putScalar f.d (p.2.2 f.ty (v f.a) (v f.b)))) ∧
      (∀ p ∈ frontT, Completes (p.1 f) s i (t.putScalar f.d (p.2 f (v f.a) (v f.b) (v f.c))))

/-- fr instructions with an immediate: the operand is the 22-bit field sign-extended; fr.movi writes it
narrowed, fr.movhi shifts D left by 22 and puts it in. -/
def Obligations.FrontImmediateForms : Prop :=
  ∀ (f : IForm) (s : State) (i : Nat) (t : Team), AtIssue s i t → NoQueue f.d →
    let v := t.scalar (s.teamsOf t)
    (Readable t f.a → ∀ p ∈ frontBin,
      Completes (p.2.1 f) s i (t.putScalar f.d (p.2.2 f.ty (v f.a) (f.imm.signExtend 64)))) ∧
    Completes (.frMovi f) s i (t.putScalar f.d (narrow f.ty f.imm.toInt)) ∧
    (Readable t f.d → Completes (.frMovhi f) s i
      (t.putScalar f.d (BitVec.ofNat 64 ((v f.d).toNat * 2 ^ 22 + f.imm.toNat))))

/-- fr.div and fr.rem (R82): their encoding; truncated quotient and remainder; a zero divisor is FPDIVZ
with detail 1 and writes nothing. -/
def Obligations.FrontDivide : Prop :=
  (∀ f : TForm, wordOp (encodeCore (.frDiv f)) = 0x00 ∧ wordFn (encodeCore (.frDiv f)) = 8 ∧
    wordOp (encodeCore (.frRem f)) = 0x00 ∧ wordFn (encodeCore (.frRem f)) = 9) ∧
  (∀ p ∈ frontDivide, ∀ f : TForm, WellFormed (p.1 f) = true →
    f.c = .v 0 ∧ f.mod = 0 ∧ f.ty.code < 8 ∧ ∀ la, WellFormed (p.1 { f with la := la }) = true) ∧
  ∀ p ∈ frontDivide, ∀ (f : TForm) (s : State) (i : Nat) (t : Team), AtIssue s i t →
    Readable t f.a → Readable t f.b → NoQueue f.d →
      let v := t.scalar (s.teamsOf t)
      (valueOf f.ty (v f.b) ≠ 0 →
        Completes (p.1 f) s i (t.putScalar f.d (narrow f.ty (p.2 (valueOf f.ty (v f.a)) (valueOf f.ty (v f.b)))))) ∧
      (valueOf f.ty (v f.b) = 0 → Traps (p.1 f) s i [t.record .fpdivz 1])

/-- Queue operands of the front unit: a source in Q pops one word, which the operation then takes; a
destination in Q pushes the result. -/
def Obligations.FrontQueueForms : Prop :=
  ∀ p ∈ frontBin, ∀ (f : TForm) (s s' : State) (i : Nat) (t t' : Team) (n : Fin 16) (x : Word),
    AtIssue s i t →
    (f.a = .q n → Readable t f.b → NoQueue f.d → t.popped.find? (fun p => p.1 == 0) = none →
      Act.go (popQ n.val) s = (.ok x, s') → AtIssue s' i t' →
        let u := { t' with popped := t'.popped ++ [(0, x)] }
        Readable u f.b →
        CompletesAs (p.1 f) s i
          (s'.withTeam i fun _ => u.putScalar f.d (p.2.2 f.ty x (u.scalar (s'.teamsOf u) f.b)))) ∧
    (f.d = .q n → Readable t f.a → Readable t f.b →
      let v := t.scalar (s.teamsOf t)
      Act.go (pushQ n.val (p.2.2 f.ty (v f.a) (v f.b))) s = (.ok (), s') → CompletesAs (p.1 f) s i s')

namespace Sys2Proof.Claims

/-! ## Control registers (R64) -/

/-- The value that a control register reads as, CYC apart. -/
def csrValue (s : State) (t : Team) (n : Nat) : Word :=
  match n with
  | 0x000 => (summary t.exm).setWidth 64
  | 0x001 => BitVec.ofNat 64 t.stack.length
  | 0x002 => t.accb.setWidth 64
  | 0x010 | 0x011 | 0x012 | 0x013 => BitVec.ofNat 64 (t.now.getD (n - 0x010) 0 % 2 ^ 32)
  | 0x014 => BitVec.ofNat 64 t.now.length
  | 0x020 => t.fpc
  | 0x021 => t.fpf.setWidth 64
  | 0x022 => t.dcc
  | 0x023 => t.dcf.setWidth 64
  | 0x024 => BitVec.ofNat 64 t.desc.ten
  | 0x030 => t.causeWord
  | 0x031 => t.frecb.setWidth 64 <<< 5
  | 0x041 => t.drain
  | 0x050 => t.score
  | 0x051 => t.allow
  | 0x060 => BitVec.ofNat 64 (s.hearth.ltol % 2 ^ 32)
  | _ => 0

/-- A team after a write to a control register: the fields it has are written, the reserved bits and a
register that is only read stay (R64, R131, R133). -/
def csrWrite (t : Team) (n : Nat) (x : Word) : Team :=
  match n with
  | 0x000 => t.setExm (maskOf ((lanesIn 1024 t.exm).filter fun l => x.getLsbD (l / 32)))
  | 0x002 => { t with accb := x.setWidth 12 }
  | 0x020 => { t with fpc := x &&& 0xF }
  | 0x021 => { t with fpf := x.setWidth 5 }
  | 0x022 => if x.toNat % 8 < 5 then { t with dcc := BitVec.ofNat 64 (x.toNat % 8) } else t
  | 0x023 => { t with dcf := x.setWidth 5 }
  | 0x031 => { t with frecb := (x >>> 5).setWidth 52 }
  | 0x050 => { t with score := x }
  | _ => t

/-- The registers whose reads and writes wait for earlier instructions that can raise flags (R136). -/
def isFlags (n : Nat) : Bool := n == 0x021 || n == 0x023

/-! ## Transfers and divergence -/

/-- The address `imm` words from the word at issue (R61). -/
def branchTarget (t : Team) (f : BForm) : Word := t.wordAt + BitVec.ofInt 64 (8 * f.imm.toInt)

/-- A transfer is set for the end of the clause. -/
def jumping (t : Team) (a : Word) : Team := { t with after := some (.jump a) }

/-- The tasks that the lanes of a divergent ctl.callv push (R89). -/
def callTasks (s : State) (i : Nat) (t : Team) (f : TForm) : List (Nat × Task) :=
  (lanesIn t.lanes t.exm).map fun l =>
    (clusterOf t.core,
      { kind := 2, desc := (t.laneAddr l f.a).toNat, loc := 0, stamp := t.now,
        record := [t.getPair l 0, t.getPair l 2, t.getPair l 4, t.getPair l 6], launch := t.launch, asid := t.asid,
        timeline := t.timeline, pusher := i, unit := 0, lane := l, call := s.serial })

/-! ## Masks -/

/-- The km instructions of two masks (R94). -/
def maskBin : List ((TForm → Instr) × (Mask → Mask → Mask)) :=
  [(.kmAnd, fun a b => a &&& b), (.kmOr, fun a b => a ||| b), (.kmAndn, fun a b => a &&& ~~~b), (.kmXor, fun a b => a ^^^ b)]

/-- Lanes `a` up to `a + n`, without those at and above 1,024 (R94). -/
def lanesFrom (a n : Nat) : Mask := maskOf ((List.range 1024).filter fun l => a ≤ l && l < a + n)

/-- The mask km.pop and km.first look at: under MOD 1 cut to EXM (R94). -/
def maskSeen (t : Team) (f : TForm) : Mask := if f.mod = 1 then t.kSrc f.a &&& t.exm else t.kSrc f.a

/-- A word of a mask, of its summary at 32, or 0 above (R94). -/
def maskRead (m : Mask) (w : Nat) : Word :=
  if w < 32 then (m.extractLsb' (32 * w) 32).setWidth 64 else if w = 32 then (summary m).setWidth 64 else 0

end Sys2Proof.Claims

/-- fr.csrr puts a control register's value into D; CYC has moved on by an unstated number of cycles.
fr.csrw writes a control register from D and nothing else; a register that is only read keeps its
value. A write to ACCB waits for the mx words still in the team's stream (R164). Clauses of the
model's choosing: log 5, 19. -/
def Obligations.ControlRegisters : Prop :=
  ∀ (f : IForm) (s : State) (i : Nat) (t : Team), AtIssue s i t →
    let n := f.imm.toNat % 2 ^ 12
    (n ≠ 0x040 → (isFlags n → t.flagsQuiet = true) →
      Completes (.frCsrr f) s i (t.putScalar f.d (csrValue s t n))) ∧
    (n = 0x040 →
      let s' := { s with free := s.free + 1 }.withCore t.core fun c => { c with cyc := c.cyc + Config.cycleGap s.free }
      CompletesAs (.frCsrr f) s i (s'.withTeam i fun _ => t.putScalar f.d (s'.core t.core).cyc)) ∧
    (Readable t f.d → (isFlags n → t.flagsQuiet = true) → (n = 0x002 → t.mxq = []) →
      Completes (.frCsrw f) s i (csrWrite t n (t.scalar (s.teamsOf t) f.d))) ∧
    (Readable t f.d → n = 0x002 → t.mxq ≠ [] → exec (.frCsrw f) s = .next (s.stand i { held := true }))

/-- fr.ld and fr.st at an aligned, mapped address: the load gives bytes of a line of the load cache that
serves it, else of memory, whose line then enters the cache, extended as the type says; the store
issues its bytes as one write unit at the address that base and immediate give. Clauses of the
model's choosing: log 12. -/
def Obligations.FrontMemory : Prop :=
  ∀ (f : IForm) (s : State) (i : Nat) (t : Team) (key : Nat), AtIssue s i t → t.FirstIssue → Readable t f.a →
    let a := t.scalar (s.teamsOf t) f.a + f.imm.signExtend 64
    let n := tyBytes f.ty
    a.toNat % n = 0 →
    (Mapped s i t a { r := true } key → NoQueue f.d → s.rangeLanded i key n = true → s.mortar = [] →
      s.writes.any (·.team == i) = false → (s.detOf t = true → s.ownEffects i = []) → key % n = 0 →
        let base := key / 64 * 64
        let cache := (s.core t.core).cache
        let serves (l : CacheLine) : Bool := l.key == base && Config.cacheHit s.free && !t.acquired && !l.gone.contains i
        let full := cacheLines ≤ cache.length
        let loads (s' : State) (bs : List Byte) : Prop := CompletesPaged (.frLd f) s i
          (s'.withTeam i fun _ => t.putScalar f.d (narrow f.ty (leNat ((bs.drop (key - base)).take n))))
        (∀ l, cache.find? serves = some l → l.poison = 0 →
          loads { s with serial := s.serial + 1, free := s.free + 1 } l.bytes) ∧
        (cache.find? serves = none → s.poisonAt base = 0 →
          let bs := readBytes s.mem base 64
          loads ({ s with serial := s.serial + 1, free := s.free + if full then 2 else 1 }.withCore t.core
            (·.fill ⟨base, bs, 0, []⟩ (if full then Config.cacheVictim (s.free + 1) else 0))) bs)) ∧
    (Mapped s i t a { w := true } key → Readable t f.d → t.UnitsIssued → UnitRoom s t →
      CompletesPaged (.frSt f) s i
        { s.issueStores i t 1 [(0, a, key, leBytes n (t.scalar (s.teamsOf t) f.d).toNat)] with serial := s.serial + 1 })

/-- The uniform transfers: ctl.br is taken when its condition holds and never with ZERO, ctl.call links,
ctl.ret and, outside a callee team, ctl.retq go to an 8-aligned address and trap at another. The
transfer waits for the clause's end. Detail 0 of MISALIGN is the model's (log 20). Clauses of the
model's choosing: log 20, 22. -/
def Obligations.UniformTransfers : Prop :=
  ∀ (f : BForm) (g : TForm) (s : State) (i : Nat) (t : Team), AtIssue s i t →
    let v := t.scalar (s.teamsOf t)
    (∀ n, f.d = .k n → Completes (.ctlBr f) s i
      (if t.exm &&& t.getK n.val ≠ 0 then jumping t (branchTarget t f) else t)) ∧
    (∀ n, f.d = .s n → Readable t f.d → Completes (.ctlBr f) s i
      (if v f.d ≠ 0 then jumping t (branchTarget t f) else t)) ∧
    (f.d = .zero → Completes (.ctlBr f) s i t) ∧
    Completes (.ctlJmp f) s i (jumping t (branchTarget t f)) ∧
    Completes (.ctlCall f) s i (jumping (t.putScalar f.d t.nextHeader) (branchTarget t f)) ∧
    (Readable t g.a → (v g.a).toNat % 8 = 0 →
      Completes (.ctlRet g) s i (jumping t (v g.a)) ∧
      (t.origin ≠ 2 → lanesIn t.lanes t.exm ≠ [] → Completes (.ctlRetq g) s i (jumping t (v g.a)))) ∧
    (Readable t g.a → (v g.a).toNat % 8 ≠ 0 →
      Traps (.ctlRet g) s i [{ t.record .misalign 0 with ea := v g.a }] ∧
      (t.origin ≠ 2 → lanesIn t.lanes t.exm ≠ [] →
        Traps (.ctlRetq g) s i [{ t.record .misalign 0 with ea := v g.a }]))

/-- ctl.brv and ctl.join: lanes part at the branch, the others stand PENDING on the stack, and the two
sides come together again in order; a join on a PARK entry or an empty stack, and a branch on a full
one, are CSTACK. Its detail 0 and its LANE 0 are the model's (log 20). Clauses of the model's
choosing: log 20. -/
def Obligations.Divergence : Prop :=
  ∀ (f : BForm) (g : TForm) (s : State) (i : Nat) (t : Team), AtIssue s i t →
    let yes := t.exm &&& t.getK f.km.val
    let no := t.exm &&& ~~~ t.getK f.km.val
    (yes = 0 → Completes (.ctlBrv f) s i t) ∧
    (yes ≠ 0 → no = 0 → Completes (.ctlBrv f) s i (jumping t (branchTarget t f))) ∧
    (yes ≠ 0 → no ≠ 0 → t.stack.length < 32 → Completes (.ctlBrv f) s i
      { t with stack := ⟨.pending, t.nextHeader, no⟩ :: t.stack, exm := yes, after := some (.jump (branchTarget t f)) }) ∧
    (yes ≠ 0 → no ≠ 0 → 32 ≤ t.stack.length → Traps (.ctlBrv f) s i [t.record .cstack 0]) ∧
    (∀ p m rest, t.stack = ⟨.pending, p, m⟩ :: rest → Completes (.ctlJoin g) s i
      { t with stack := ⟨.merge, t.nextHeader, t.exm⟩ :: rest, exm := m, after := some (.jump p) }) ∧
    (∀ p m rest, t.stack = ⟨.merge, p, m⟩ :: rest → Completes (.ctlJoin g) s i
      { t with stack := rest, exm := t.exm ||| m, after := some (.jump p) }) ∧
    (∀ p m rest, t.stack = ⟨.park, p, m⟩ :: rest → Traps (.ctlJoin g) s i [t.record .cstack 0]) ∧
    (t.stack = [] → Traps (.ctlJoin g) s i [t.record .cstack 0])

/-- ctl.callv: one target for all lanes links and jumps; targets that differ park the lanes and push a
task for each, in ascending lane order. Poison of a descriptor's bytes counts for nothing. Clauses
of the model's choosing: log 20, 22. -/
def Obligations.LaneCalls : Prop :=
  ∀ (f : TForm) (s : State) (i : Nat) (t : Team) (key : Nat → Nat), AtIssue s i t → t.FirstIssue → t.UnitsIssued →
    let lanes := lanesIn t.lanes t.exm
    let a := fun l => t.laneAddr l f.a
    let bytes := fun l => s.ownBytes i s.serial (key l) 128
    let d := fun l => descOf (a l).toNat (bytes l)
    (lanes = [] → Completes (.ctlCallv f) s i t) ∧
    (s.mortar = [] → (∀ l ∈ lanes, t.firstPoison l [(f.a, 2)] = none ∧ (a l).toNat % 128 = 0 ∧
        Mapped s i t (a l) { r := true } (key l) ∧ (d l).valid (bytes l) = true ∧ (d l).usable (s.space t.asid) = true) →
      ∀ l0 ∈ lanes.head?,
        ((∀ l ∈ lanes, a l = a l0) →
          CompletesPaged (.ctlCallv f) s i (s.withTeam i fun _ => jumping (t.putScalar f.d t.nextHeader) (d l0).entry)) ∧
        ((∃ l ∈ lanes, a l ≠ a l0) → (∀ l ∈ lanes, ∀ r < 8, t.poisonV l r = 0) → t.stack.length < 32 →
          ((s.tasks ++ s.pushed).filter fun k => k.1 == clusterOf t.core).length + lanes.length ≤ 1024 →
            CompletesPaged (.ctlCallv f) s i
              { s.withTeam i fun _ =>
                  { t with stack := ⟨.park, t.nextHeader, t.exm⟩ :: t.stack, exm := 0, parkWait := true } with
                pushed := s.pushed ++ callTasks s i t f, serial := s.serial + 1 }))

/-- ctl.exit and the return of a callee team: the lanes leave EXM and every entry of the stack; a callee
lane hands V0..V3 to the parent lane it stands for, once all that the team has issued has drained,
or in a deterministic launch is staged, and waits until then. That poison of V0..V3 goes to the
parent lane and traps nowhere is the model's choice (log 22). Clauses of the model's choosing: log
19, 22. -/
def Obligations.LaneExits : Prop :=
  ∀ (f : TForm) (s : State) (i : Nat) (t : Team), AtIssue s i t →
    let lanes := t.lanesOf f.km.val
    let s1 := s.withTeam i fun _ => t.exitLanes (maskOf lanes)
    let later (s : State) (l : Nat) : State :=
      match t.tasks[l]? with
      | some k =>
        ({ s with returns := s.returns ++ [(⟨i, t.issued, s.serial, k.parent, k.lane⟩ : Return)] } : State).flushReturns i
      | none => s
    (t.origin = 0 → Completes (.ctlExit f) s i (t.exitLanes (maskOf lanes))) ∧
    (t.origin = 1 → CompletesAs (.ctlExit f) s i (s1.exitShares i lanes)) ∧
    (t.origin = 2 → CompletesAs (.ctlExit f) s i (lanes.foldl later s1)) ∧
    (lanesIn t.lanes t.exm = [] → Completes (.ctlRetq f) s i t) ∧
    (t.origin = 2 → lanesIn t.lanes t.exm ≠ [] → s.drainedTo i t.issued s.serial = false →
      exec (.ctlRetq f) s = .next (s.stand i { point := false })) ∧
    (t.origin = 2 → lanesIn t.lanes t.exm ≠ [] → s.drainedTo i t.issued s.serial = true → let s0 := s
        let back (s : State) (l : Nat) : State :=
          match t.tasks[l]? with
          | some k => (s.passBack i l k.parent k.lane).laneBack ⟨i, t.issued, s0.serial, k.parent, k.lane⟩
          | none => s
        CompletesAs (.ctlRetq f) s i (((lanesIn t.lanes t.exm).foldl back s).withTeam i fun u =>
          u.exitLanes (maskOf (lanesIn t.lanes t.exm))))

/-- The mask instructions, with every operand. Clauses of the model's choosing: log 22. -/
def Obligations.MaskForms : Prop :=
  ∀ (f : TForm) (g : IForm) (s : State) (i : Nat) (t : Team), AtIssue s i t →
    let v := t.scalar (s.teamsOf t)
    (∀ p ∈ maskBin, Completes (p.1 f) s i (t.putMask f.d (p.2 (t.kSrc f.a) (t.kSrc f.b)))) ∧
    Completes (.kmNot f) s i (t.putMask f.d (lanesMask t.lanes &&& ~~~ t.kSrc f.a)) ∧
    (Readable t f.a → Readable t f.b →
      Completes (.kmSetT f) s i (t.putMask f.d (lanesFrom (v f.a).toNat (v f.b).toNat)) ∧
      Completes (.kmInsT f) s i
        (if (v f.b).toNat < 32 then t.putMask f.d (setMaskWord (t.kSrc f.d) (v f.b).toNat ((v f.a).setWidth 32)) else t)) ∧
    Completes (.kmSetI g) s i (t.putMask g.d (lanesFrom (g.imm.toNat % 2 ^ 11) (g.imm.toNat / 2 ^ 11))) ∧
    (Readable t g.a → Completes (.kmInsI g) s i
      (if g.imm.toNat < 32 then t.putMask g.d (setMaskWord (t.kSrc g.d) g.imm.toNat ((v g.a).setWidth 32)) else t)) ∧
    Completes (.kmPop f) s i (t.putScalar f.d (BitVec.ofNat 64 (lanesIn 1024 (maskSeen t f)).length)) ∧
    Completes (.kmFirst f) s i
      (t.putScalar f.d (((lanesIn 1024 (maskSeen t f)).head?.map (BitVec.ofNat 64)).getD (BitVec.allOnes 64))) ∧
    Completes (.kmExtT f) s i (t.putScalar f.d (maskRead (t.kSrc f.a) (v f.b).toNat)) ∧
    Completes (.kmExtI g) s i (t.putScalar g.d (maskRead (t.kSrc g.a) g.imm.toNat)) ∧
    (f.mod = 1 → Completes (.kmExm f) s i ((t.putMask f.d t.exm).setExm (t.exm &&& t.kSrc f.a))) ∧
    (f.mod ≠ 1 → Completes (.kmExm f) s i
      ((t.putMask f.d t.exm).setExm (t.kSrc f.a &&& ~~~ (t.exited ||| t.stacked))))

namespace Sys2Proof.Claims

/-! ## The lanes -/

/-- Least value of a type (R101). -/
def least (ty : Ty) : Int := if tySigned ty then -(2 ^ (tyWidth ty - 1) : Int) else 0
/-- Greatest value of a type (R101). -/
def greatest (ty : Ty) : Int := if tySigned ty then (2 ^ (tyWidth ty - 1) : Int) - 1 else (2 ^ tyWidth ty : Int) - 1
/-- An exact result clamped to its type (R101). -/
def clamped (ty : Ty) (x : Int) : Word := narrow ty (max (least ty) (min (greatest ty) x))
/-- An exact result clamped under `sat`, else narrowed (R101). -/
def satOr (ty : Ty) (sat : Bool) (x : Int) : Word := if sat then clamped ty x else narrow ty x
/-- Product, clamped product, quotient and remainder of ln.mul by MOD; a zero divisor gives 0 (R100). -/
def laneMul (ty : Ty) (mod : Nat) (a b : Word) : Word :=
  match mod with
  | 0 => narrow ty (valueOf ty a * valueOf ty b)
  | 1 => clamped ty (valueOf ty a * valueOf ty b)
  | 2 => if valueOf ty b = 0 then 0 else narrow ty ((valueOf ty a).tdiv (valueOf ty b))
  | _ => if valueOf ty b = 0 then 0 else narrow ty ((valueOf ty a).tmod (valueOf ty b))
/-- Rotation left by a count read modulo the width (R100). -/
def rotated (ty : Ty) (a : Word) (n : Nat) : Word :=
  narrow ty ((BitVec.ofNat (tyWidth ty) a.toNat).rotateLeft (n % tyWidth ty)).toNat
/-- The `n` bits of A from bit `p` on, those past the width absent, zero- or sign-extended (R106). -/
def bitField (ty : Ty) (sign : Bool) (a : Word) (p n : Nat) : Word :=
  let m := min n (tyWidth ty - p)
  let bits := a.toNat % 2 ^ tyWidth ty / 2 ^ p % 2 ^ m
  narrow ty (if sign then (BitVec.ofNat m bits).toInt else bits)
/-- Bytes picked by the selectors of C from those of A and then B; a selector with bit 7 set gives 0
(R106). -/
def picked (ty : Ty) (a b c : Word) : Word :=
  let n := tyWidth ty / 8
  let pool := leBytes n a.toNat ++ leBytes n b.toNat
  narrow ty (leNat ((leBytes n c.toNat).map fun s => if s.toNat < 128 then pool.getD (s.toNat % 16 % (2 * n)) 0 else 0))

/-- A lane instruction: its constructor, the registers each active lane uses, and the lane's result. -/
structure LaneRow where
  ins : TForm → Instr
  uses : TForm → List (Reg × Nat)
  val : TForm → Team → Nat → Nat → Word

/-- A row of one source at the type's width. -/
def lane1 (ins : TForm → Instr) (op : TForm → Word → Word) : LaneRow :=
  ⟨ins, fun f => [useOf f.ty f.a], fun f t n l => op f (t.lsrc n l (tyWide f.ty) f.a)⟩
/-- A row of two. -/
def lane2 (ins : TForm → Instr) (op : TForm → Word → Word → Word) : LaneRow :=
  ⟨ins, fun f => [useOf f.ty f.a, useOf f.ty f.b], fun f t n l =>
    op f (t.lsrc n l (tyWide f.ty) f.a) (t.lsrc n l (tyWide f.ty) f.b)⟩
/-- A row of three. -/
def lane3 (ins : TForm → Instr) (op : TForm → Word → Word → Word → Word) : LaneRow :=
  ⟨ins, fun f => [useOf f.ty f.a, useOf f.ty f.b, useOf f.ty f.c], fun f t n l =>
    op f (t.lsrc n l (tyWide f.ty) f.a) (t.lsrc n l (tyWide f.ty) f.b) (t.lsrc n l (tyWide f.ty) f.c)⟩
/-- A row of one source and a count declared 32-bit. -/
def laneShift (ins : TForm → Instr) (op : TForm → Word → Nat → Word) : LaneRow :=
  ⟨ins, fun f => [useOf f.ty f.a, (f.b, 1)], fun f t n l =>
    op f (t.lsrc n l (tyWide f.ty) f.a) ((t.lsrc n l false f.b).toNat % 2 ^ 32)⟩

/-- The shifts by a count (R100). -/
def shiftLeft (ty : Ty) (a : Word) (n : Nat) : Word := narrow ty (a.toNat * 2 ^ n)
/-- Logical. -/
def shiftRight (ty : Ty) (a : Word) (n : Nat) : Word := narrow ty (a.toNat % 2 ^ tyWidth ty / 2 ^ n : Nat)
/-- Arithmetic. -/
def shiftSigned (ty : Ty) (a : Word) (n : Nat) : Word := narrow ty ((BitVec.ofNat (tyWidth ty) a.toNat).toInt / 2 ^ n)

/-- Whether C chooses A in a lane of ln.sel (R105). -/
def chooses (t : Team) (l : Nat) (r : Reg) : Bool :=
  match r with
  | .k k => (t.getK k.val).getLsbD l
  | .v v => t.getV l v.val != 0
  | .s s => t.getS s.val != 0
  | _ => false

/-- The ln instructions on registers (R100, R101, R103, R105 to R107). -/
def laneRows : List LaneRow :=
  [lane1 .lnMov fun f a => narrow f.ty (valueOf f.ty a),
   lane2 .lnAddT fun f a b => satOr f.ty (f.mod.getLsbD 0) (valueOf f.ty a + valueOf f.ty b),
   lane2 .lnSubT fun f a b => satOr f.ty (f.mod.getLsbD 0) (valueOf f.ty a - valueOf f.ty b),
   lane2 .lnMulT fun f a b => laneMul f.ty f.mod.toNat a b,
   lane2 .lnMulh fun f a b => narrow f.ty (valueOf f.ty a * valueOf f.ty b / 2 ^ tyWidth f.ty),
   lane3 .lnMad fun f a b c => satOr f.ty (f.mod.getLsbD 0) (valueOf f.ty a * valueOf f.ty b + valueOf f.ty c),
   lane2 .lnAndT fun f a b => narrow f.ty (a &&& b).toNat,
   lane2 .lnOrT fun f a b => narrow f.ty (a ||| b).toNat,
   lane2 .lnXorT fun f a b => narrow f.ty (a ^^^ b).toNat,
   lane2 .lnMinT fun f a b => narrow f.ty (min (valueOf f.ty a) (valueOf f.ty b)),
   lane2 .lnMaxT fun f a b => narrow f.ty (max (valueOf f.ty a) (valueOf f.ty b)),
   lane1 .lnNot fun f a => narrow f.ty (~~~a).toNat,
   lane1 .lnAbs fun f a => satOr f.ty (f.mod.getLsbD 0) (valueOf f.ty a).natAbs,
   lane1 .lnNeg fun f a => satOr f.ty (f.mod.getLsbD 0) (-valueOf f.ty a),
   laneShift .lnShlT fun f a n => shiftLeft f.ty a n,
   laneShift .lnShrT fun f a n => shiftRight f.ty a n,
   laneShift .lnSraT fun f a n => shiftSigned f.ty a n,
   laneShift .lnRotT fun f a n => rotated f.ty a n,
   lane1 .lnClz fun f a => BitVec.ofNat 64 (tyWidth f.ty - Num.bitlen (a.toNat % 2 ^ tyWidth f.ty)),
   lane1 .lnPopc fun f a => BitVec.ofNat 64 ((List.range (tyWidth f.ty)).filter fun i => a.getLsbD i).length,
   ⟨.lnSel, fun f => [useOf f.ty f.a, useOf f.ty f.b] ++ (match f.c with | .v _ => [(f.c, 1)] | .s _ => [(f.c, 1)] | _ => []),
    fun f t n l => narrow f.ty (valueOf f.ty (t.lsrc n l (tyWide f.ty) (if chooses t l f.c then f.a else f.b)))⟩,
   ⟨.lnBfx, fun f => [useOf f.ty f.a, (f.b, 1), (f.c, 1)], fun f t n l =>
    bitField f.ty (f.mod.getLsbD 0) (t.lsrc n l (tyWide f.ty) f.a) ((t.lsrc n l false f.b).toNat % 2 ^ 32)
      ((t.lsrc n l false f.c).toNat % 2 ^ 32)⟩,
   lane3 .lnPerm fun f a b c => picked f.ty a b c,
   ⟨.lnCvt, fun f => [useOf (Ty.ofCode (f.mod.toNat % 8)) f.a], fun f t n l =>
    let src := Ty.ofCode (f.mod.toNat % 8)
    narrow f.ty (valueOf src (t.lsrc n l (tyWide src) f.a))⟩,
   ⟨.lnSat, fun f => [useOf (Ty.ofCode (f.mod.toNat % 8)) f.a], fun f t n l =>
    let src := Ty.ofCode (f.mod.toNat % 8)
    clamped f.ty (valueOf src (t.lsrc n l (tyWide src) f.a))⟩]

/-- The ln instructions with an immediate, each with the result of A and the immediate (R100). -/
def laneImm : List ((IForm → Instr) × (Ty → Word → Word → Word)) :=
  [(.lnAddI, fun ty a b => narrow ty (valueOf ty a + valueOf ty b)),
   (.lnSubI, fun ty a b => narrow ty (valueOf ty a - valueOf ty b)),
   (.lnMulI, fun ty a b => narrow ty (valueOf ty a * valueOf ty b)),
   (.lnAndI, fun ty a b => narrow ty (a &&& b).toNat),
   (.lnOrI, fun ty a b => narrow ty (a ||| b).toNat),
   (.lnXorI, fun ty a b => narrow ty (a ^^^ b).toNat),
   (.lnMinI, fun ty a b => narrow ty (min (valueOf ty a) (valueOf ty b))),
   (.lnMaxI, fun ty a b => narrow ty (max (valueOf ty a) (valueOf ty b))),
   (.lnShlI, fun ty a b => shiftLeft ty a (b.toNat % 2 ^ 32)),
   (.lnShrI, fun ty a b => shiftRight ty a (b.toNat % 2 ^ 32)),
   (.lnSraI, fun ty a b => shiftSigned ty a (b.toNat % 2 ^ 32)),
   (.lnRotI, fun ty a b => rotated ty a (b.toNat % 2 ^ 32))]

/-- The bits of A put over those of D from `p` on; D as it stands where none is replaced (R106). -/
def inserted (ty : Ty) (d a : Word) (p n : Nat) : Word :=
  if n = 0 ∨ tyWidth ty ≤ p then d
  else
    let ones := (2 ^ min n (tyWidth ty - p) - 1) * 2 ^ p
    narrow ty ((d &&& ~~~(BitVec.ofNat 64 ones)) ||| ((a <<< p) &&& BitVec.ofNat 64 ones)).toNat

/-- The register that ln.movs names in a lane (R103). -/
def namedReg (f : TForm) (t : Team) (n l : Nat) : Nat :=
  vNum f.a + (t.lsrc n l false f.b).toNat % 2 ^ 32 * (if tyWide f.ty then 2 else 1)
/-- It lies inside the team's registers. -/
def isNamed (f : TForm) (t : Team) (n l : Nat) : Bool := namedReg f t n l + (if tyWide f.ty then 2 else 1) ≤ t.desc.vregs

/-- The exact result of a carry chain in a lane (R102). -/
def carrySum (f : TForm) (sub : Bool) (t : Team) (n l : Nat) : Int :=
  let low (r : Reg) : Int := ((t.lsrc n l (tyWide f.ty) r).toNat % 2 ^ tyWidth f.ty : Nat)
  let c : Int := match f.c with | .k k => if (t.getK k.val).getLsbD l then 1 else 0 | _ => 0
  if sub then low f.a - low f.b - c else low f.a + low f.b + c

/-- A team after a comparison whose lanes all compare: K takes the lanes that meet the condition, keeping
under MOD[3] the lanes not active; V takes 1 or 0 a lane (R104, R147). -/
def compared (t : Team) (f : TForm) (yes : Nat → Bool) : Team :=
  let lanes := t.lanesOf f.km.val
  match f.d with
  | .k k => t.setK k.val ((if f.mod.getLsbD 3 then t.getK k.val &&& ~~~maskOf lanes else 0) ||| maskOf (lanes.filter yes))
  | .v v => lanes.foldl (fun u l => u.setV l v.val (if yes l then 1 else 0)) t
  | _ => t

/-- The lane a shuffle reads, when the team has it (R109). -/
def shuffleFrom (lanes : Nat) (x : Bool) (mod l b : Nat) : Option Nat :=
  let j : Int := if x then ((l ^^^ b : Nat) : Int) else match mod with | 0 => b | 1 => (l : Int) - b | _ => l + b
  if 0 ≤ j ∧ j < lanes then some j.toNat else none

end Sys2Proof.Claims

/-- ln instructions on registers: every source is read before any lane is written, every active lane
takes its result, and nothing else changes. -/
def Obligations.LaneRegisterForms : Prop :=
  ∀ p ∈ laneRows, ∀ (f : TForm) (s : State) (i : Nat) (t : Team), AtIssue s i t → Unpoisoned t f.km (p.uses f) →
    Completes (p.ins f) s i (t.putLanes (t.lanesOf f.km.val) (tyWide f.ty) f.d (p.val f t (s.teamsOf t)))

/-- ln instructions with an immediate. -/
def Obligations.LaneImmediateForms : Prop :=
  ∀ (f : IForm) (s : State) (i : Nat) (t : Team), AtIssue s i t →
    (Unpoisoned t f.km [useOf f.ty f.a] → ∀ p ∈ laneImm,
      Completes (p.1 f) s i (t.putLanes (t.lanesOf f.km.val) (tyWide f.ty) f.d fun l =>
        p.2 f.ty (t.lsrc (s.teamsOf t) l (tyWide f.ty) f.a) (f.imm.signExtend 64))) ∧
    Completes (.lnMovi f) s i (t.putLanes (t.lanesOf f.km.val) (tyWide f.ty) f.d fun _ => narrow f.ty f.imm.toInt)

/-- ln.addc, ln.subb, ln.movs, ln.bfi and ln.cmp. Clauses of the model's choosing: log 22. -/
def Obligations.LaneChainsAndMoves : Prop :=
  ∀ (f : TForm) (s : State) (i : Nat) (t : Team), AtIssue s i t →
    let lanes := t.lanesOf f.km.val
    let n := s.teamsOf t
    let w := tyWidth f.ty
    (Unpoisoned t f.km [useOf f.ty f.a, useOf f.ty f.b] →
      (∀ p ∈ [((.lnAddc : TForm → Instr), false), (.lnSubb, true)],
        let out := lanes.filter fun l => carrySum f p.2 t n l < 0 ∨ (2 ^ w : Int) ≤ carrySum f p.2 t n l
        let u := t.putLanes lanes (tyWide f.ty) f.d fun l => narrow f.ty (carrySum f p.2 t n l)
        let k := f.mod.toNat % 16
        Completes (p.1 f) s i (u.setK k ((t.getK k &&& ~~~maskOf lanes) ||| maskOf out))) ∧
      Completes (.lnCmp f) s i (compared t f fun l =>
        let v (r : Reg) : Int := valueOf f.ty (t.lsrc n l (tyWide f.ty) r)
        relation (f.mod.toNat % 8) (v f.a) (v f.b))) ∧
    (Unpoisoned t f.km [(f.b, 1)] →
      (∀ l ∈ lanes, isNamed f t n l → t.lpoison l (if tyWide f.ty then 2 else 1)
        (Reg.ofByte (BitVec.ofNat 8 (namedReg f t n l))) = none) →
      Completes (.lnMovs f) s i (t.putLanes lanes (tyWide f.ty) f.d fun l =>
        if isNamed f t n l then narrow f.ty (valueOf f.ty
          (if tyWide f.ty then t.getPair l (namedReg f t n l) else (t.getV l (namedReg f t n l)).setWidth 64))
        else 0)) ∧
    (Unpoisoned t f.km [useOf f.ty f.d, useOf f.ty f.a, (f.b, 1), (f.c, 1)] →
      Completes (.lnBfi f) s i (t.putLanes lanes (tyWide f.ty) f.d fun l =>
        inserted f.ty (t.lsrc n l (tyWide f.ty) f.d) (t.lsrc n l (tyWide f.ty) f.a)
          ((t.lsrc n l false f.b).toNat % 2 ^ 32) ((t.lsrc n l false f.c).toNat % 2 ^ 32)))

/-- Operands that stop an instruction: a poisoned S register of a front instruction, whose destination
keeps its contents; a misaligned front load or store, with a detail 0 that is the model's (log 20);
a poisoned register of a lane, where the other lanes take their results. Clauses of the model's
choosing: log 20. -/
def Obligations.OperandTraps : Prop :=
  (∀ p ∈ frontBin, ∀ (f : TForm) (s : State) (i : Nat) (t : Team) (n : Fin 64), AtIssue s i t →
    f.a = .s n → t.poisonS n ≠ 0 → Traps (p.1 f) s i [t.poisonRec 0 f.a (t.poisonS n)]) ∧
  (∀ (f : IForm) (s : State) (i : Nat) (t : Team), AtIssue s i t → t.FirstIssue → Readable t f.a →
    let a := t.scalar (s.teamsOf t) f.a + f.imm.signExtend 64
    let n := tyBytes f.ty
    a.toNat % n ≠ 0 →
      Traps (.frLd f) s i [{ t.record .misalign 0 with ea := a, size := n, load := true }] ∧
      (Readable t f.d → Traps (.frSt f) s i [{ t.record .misalign 0 with ea := a, size := n, store := true }])) ∧
  (∀ p ∈ laneRows, ∀ (f : TForm) (s : State) (i : Nat) (t : Team), AtIssue s i t → ¬ Unpoisoned t f.km (p.uses f) →
    let good := (t.lanesOf f.km.val).filter fun l => (t.firstPoison l (p.uses f)).isNone
    let bad := (t.lanesOf f.km.val).filterMap fun l => (t.firstPoison l (p.uses f)).map fun q => t.poisonRec l q.1 q.2
    exec (p.ins f) s = .next
      ((s.withTeam i fun _ => t.putLanes good (tyWide f.ty) f.d (p.val f t (s.teamsOf t))).trapInstr i bad))

/-- xl.shfl, xl.shfx and xl.bcast: a lane takes the value that another lane holds; a lane outside the
team leaves a shuffle its own value and gives a broadcast 0. xl.ballot: a bit a lane, set for the
active lanes whose A is not zero; K takes all, a scalar 64 of them. -/
def Obligations.CrossLaneMoves : Prop :=
  ∀ (f : TForm) (g : IForm) (s : State) (i : Nat) (t : Team), AtIssue s i t → t.vPoison = [] →
    t.sPoison = [] →
    let n := s.teamsOf t
    let from_ (ty : Ty) (r : Reg) (l : Nat) : Word := narrow ty (valueOf ty (t.lsrc n l (tyWide ty) r))
    let at_ (ty : Ty) (r : Reg) (l : Nat) : Word := if l < t.lanes then from_ ty r l else 0
    (∀ p ∈ [((.xlShflT : TForm → Instr), false), (.xlShfxT, true)],
      Completes (p.1 f) s i (t.putLanes (t.lanesOf f.km.val) (tyWide f.ty) f.d fun l =>
        from_ f.ty f.a ((shuffleFrom t.lanes p.2 f.mod.toNat l ((t.lsrc n l false f.b).toNat % 2 ^ 32)).getD l))) ∧
    (∀ p ∈ [((.xlShflI : IForm → Instr), false), (.xlShfxI, true)],
      Completes (p.1 g) s i (t.putLanes (t.lanesOf g.km.val) (tyWide g.ty) g.d fun l =>
        from_ g.ty g.a ((shuffleFrom t.lanes p.2 0 l g.imm.toNat).getD l))) ∧
    (let j := (t.lsrc n 0 false f.b).toNat % 2 ^ 32
     Completes (.xlBcastT f) s i (match f.d with
       | .s _ => t.putScalar f.d (at_ f.ty f.a j)
       | d => t.putLanes (t.lanesOf f.km.val) (tyWide f.ty) d fun _ => at_ f.ty f.a j)) ∧
    Completes (.xlBcastI g) s i (match g.d with
      | .s _ => t.putScalar g.d (at_ g.ty g.a g.imm.toNat)
      | d => t.putLanes (t.lanesOf g.km.val) (tyWide g.ty) d fun _ => at_ g.ty g.a g.imm.toNat) ∧
    (let votes := maskOf ((t.lanesOf f.km.val).filter fun l => (t.lsrc 0 l false f.a).toNat % 2 ^ 32 != 0)
     Completes (.xlBallot f) s i (match f.d with
       | .k _ => t.putMask f.d votes
       | d => t.putScalar d (votes.extractLsb' (64 * (f.mod.toNat % 16)) 64)))

namespace Sys2Proof.Claims

open Sys2Proof.Num (FVal Fmt Rm)

/-! ## Folds -/

/-- The union of the exceptions of a fold's steps. -/
def raised (steps : List (BitVec 5)) : BitVec 5 := steps.foldl (fun a e => a ||| e) 0

/-- A state after a fold's result has gone to D: an S register takes it at once, a V register in every
active lane as a long-latency result (R24, R111). -/
def folded (s : State) (i : Nat) (t : Team) (f : TForm) (x : Nat → Word) (fl : BitVec 5) : State :=
  match f.d with
  | .s _ => s.delivered i (t.putScalar f.d (x 0)) f.la [] fl 0
  | d => s.delivered i t f.la ((t.lanesOf f.km.val).flatMap fun l => resultsAt l (tyWide f.ty) d (x l)) fl 0

/-- An instruction reports records: it traps, or under a non-zero LA they wait until it completes (R24). -/
def Reports (ins : Instr) (s : State) (i : Nat) (t : Team) (la : BitVec 4) (rs : List Rec) : Prop :=
  let s' := s.delivered i t la [] 0 0 rs
  exec ins s = .next (if la = 0 then s'.trapInstr i rs else s'.retire i)

/-- A fold ends with the state `s'` where no step raised an enabled exception, else with one record for the
lane whose step raised the first, and no destination and no flag (R115). -/
def FoldEnds (ins : Instr) (s : State) (i : Nat) (t : Team) (f : TForm) (steps : List (BitVec 5)) (s' : State) : Prop :=
  let on := raised steps &&& t.enables false
  let lane := 1 + steps.findIdx fun e => e &&& t.enables false != 0
  if on = 0 then CompletesAs ins s i s'
  else Reports ins s i t f.la [{ t.laneRec lane (lowestCause on) (raised steps).toNat with lane := lane }]

/-- The contributions to a fold, lane 0 first: A in an active lane, the identity B elsewhere (R108). -/
def contributed (t : Team) (n : Nat) (f : TForm) : List Word :=
  (List.range t.lanes).map fun l =>
    if (t.active f.km.val).getLsbD l then t.lsrc n l (tyWide f.ty) f.a else t.lsrc n 0 (tyWide f.ty) f.b

/-- The fold of a list that is not empty. -/
def foldAll {α : Type} (op : α → α → α) (d : α) (xs : List α) : α :=
  match xs with
  | [] => d
  | x :: rest => rest.foldl op x

/-- The result of an integer fold by its operation: sum, least, greatest, and, or, exclusive or (R111). -/
def foldInts (ty : Ty) (op : Nat) (xs : List Word) : Word :=
  let vs := xs.map (valueOf ty)
  match op with
  | 0 => narrow ty vs.sum
  | 1 => narrow ty (foldAll min 0 vs)
  | 2 => narrow ty (foldAll max 0 vs)
  | 3 => narrow ty (foldAll (· &&& ·) 0 xs).toNat
  | 4 => narrow ty (foldAll (· ||| ·) 0 xs).toNat
  | _ => narrow ty (foldAll (· ^^^ ·) 0 xs).toNat

/-! ## Binary floating point -/

/-- An operand of a lane: the number its bits stand for, a subnormal as a zero under DAZ (R131, R141). -/
def number (f : TForm) (t : Team) (n l : Nat) (r : Reg) : FVal :=
  (fmtTy f.ty).read t.daz ((t.lsrc n l (tyWide f.ty) r).toNat % 2 ^ tyWidth f.ty)

/-- A lane's result in the format of TY, with the exceptions it raises. -/
def floatOut (f : TForm) (l : Nat) (x : Nat × BitVec 5) : List Result × BitVec 5 :=
  (resultsAt l (tyWide f.ty) f.d (BitVec.ofNat 64 x.1), x.2)

/-- An instruction of the lanes that may raise exceptions: whether it is decimal, what it uses, and what
each lane comes to. -/
structure FloatRow where
  ins : TForm → Instr
  dec : Bool
  uses : TForm → List (Reg × Nat)
  out : TForm → Team → Nat → Nat → List Result × BitVec 5

/-- A row of one number. -/
def float1 (ins : TForm → Instr) (op : TForm → Team → Fmt → FVal → Nat × BitVec 5) : FloatRow :=
  ⟨ins, false, fun f => [useOf f.ty f.a], fun f t n l => floatOut f l (op f t (fmtTy f.ty) (number f t n l f.a))⟩
/-- A row of two. -/
def float2 (ins : TForm → Instr) (op : TForm → Team → Fmt → FVal → FVal → Nat × BitVec 5) : FloatRow :=
  ⟨ins, false, fun f => [useOf f.ty f.a, useOf f.ty f.b], fun f t n l =>
    floatOut f l (op f t (fmtTy f.ty) (number f t n l f.a) (number f t n l f.b))⟩

/-- The fp instructions but fp.cmp (R143, R145, R146, R148 to R152). -/
def floatRows : List FloatRow :=
  [float2 .fpAdd fun _ t fm x y => fm.finish t.rm t.ftz (Num.addExact t.rm x y),
   float2 .fpSub fun _ t fm x y => fm.finish t.rm t.ftz (Num.addExact t.rm x y.negate),
   float2 .fpMul fun _ t fm x y => fm.finish t.rm t.ftz (Num.mulExact x y),
   ⟨.fpFma, false, fun f => [useOf f.ty f.a, useOf f.ty f.b, useOf f.ty f.c], fun f t n l =>
    let p := Num.mulExact (number f t n l f.a) (number f t n l f.b)
    let q := Num.addExact t.rm p.1 (number f t n l f.c)
    floatOut f l ((fmtTy f.ty).finish t.rm t.ftz (q.1, p.2 ||| q.2))⟩,
   float2 .fpMin fun f t fm x y => fm.finish t.rm false (Num.minMax false (f.mod.getLsbD 0) x y),
   float2 .fpMax fun f t fm x y => fm.finish t.rm false (Num.minMax true (f.mod.getLsbD 0) x y),
   ⟨.fpAbs, false, fun f => [useOf f.ty f.a], fun f t n l =>
    floatOut f l ((t.lsrc n l (tyWide f.ty) f.a).toNat % 2 ^ (tyWidth f.ty - 1), 0)⟩,
   ⟨.fpNeg, false, fun f => [useOf f.ty f.a], fun f t n l =>
    floatOut f l (((t.lsrc n l (tyWide f.ty) f.a).toNat % 2 ^ tyWidth f.ty) ^^^ 2 ^ (tyWidth f.ty - 1), 0)⟩,
   ⟨.fpCls, false, fun f => [useOf f.ty f.a], fun f t n l =>
    (resultsAt l false f.d (BitVec.ofNat 64 (2 ^ classBit (fmtTy f.ty)
      ((t.lsrc n l (tyWide f.ty) f.a).toNat % 2 ^ tyWidth f.ty))), 0)⟩,
   float2 .fpDiv fun _ t fm x y => fm.div t.rm t.ftz x y,
   float1 .fpSqrt fun _ t fm x => fm.sqrt t.rm t.ftz x,
   float1 .fpRcp fun _ t fm x => fm.div t.rm t.ftz (.fin false 1 0) x,
   float1 .fpRsq fun _ t fm x => fm.rsq t.rm t.ftz x,
   float1 .fpExp2 fun _ t fm x => fm.exp2 t.rm t.ftz x,
   float1 .fpLog2 fun _ t fm x => fm.log2 t.rm t.ftz x,
   float1 .fpRnd fun f t fm x =>
    fm.integral (roundMode t.rm (f.mod.toNat % 8)) t.ftz (f.mod.getLsbD 3) t.rm x,
   ⟨.fpCvt, false, fun f => [useOf (Ty.ofCode (f.mod.toNat % 16)) f.a], fun f t n l =>
    let src := Ty.ofCode (f.mod.toNat % 16)
    floatOut f l ((fmtTy f.ty).deliver t.rm t.ftz (f.mod.getLsbD 4) (number { f with ty := src } t n l f.a))⟩,
   ⟨.fpFti, false, fun f => [useOf (Ty.ofCode (8 + f.mod.toNat % 4)) f.a], fun f t n l =>
    let src := Ty.ofCode (8 + f.mod.toNat % 4)
    let r := Num.clampInt (least f.ty) (greatest f.ty) (number { f with ty := src } t n l f.a)
      (if f.mod.getLsbD 2 then .rtz else t.rm)
    (resultsAt l (tyWide f.ty) f.d (narrow f.ty r.1), r.2)⟩,
   ⟨.fpItf, false, fun f => [useOf (Ty.ofCode (f.mod.toNat % 8)) f.a], fun f t n l =>
    let src := Ty.ofCode (f.mod.toNat % 8)
    floatOut f l ((fmtTy f.ty).deliver t.rm t.ftz false
      (Num.ofInt (valueOf src (t.lsrc n l (tyWide src) f.a)) 0 false))⟩,
   ⟨.fpLdexp, false, fun f => [useOf f.ty f.a, (f.b, 1)], fun f t n l =>
    floatOut f l (ldexpOf (fmtTy f.ty) t.rm t.ftz (number f t n l f.a)
      (BitVec.ofNat 32 (t.lsrc n l false f.b).toNat).toInt)⟩,
   ⟨.fpFrexp, false, fun f => [useOf f.ty f.a], fun f t n l =>
    let v := number f t n l f.a
    let fl : BitVec 5 := if v.isSnan then Num.inv else 0
    if f.mod.getLsbD 0 then (resultsAt l false f.d (BitVec.ofNat 64 (BitVec.ofInt 32 (expOf v)).toNat), fl)
    else floatOut f l (((fmtTy f.ty).deliver t.rm t.ftz false (fracOf v)).1, fl)⟩]

/-! ## Decimal -/

/-- A decimal operand of a lane (R126). -/
def decimal (t : Team) (n l : Nat) (r : Reg) : Dec.DVal := Dec.read (t.lsrc n l true r).toNat

/-- A row of two decimals. -/
def decimal2 (ins : TForm → Instr) (op : Rm → Dec.DVal → Dec.DVal → Nat × BitVec 5) : FloatRow :=
  ⟨ins, true, fun f => [useWide f.a, useWide f.b], fun f t n l =>
    let r := op t.drm (decimal t n l f.a) (decimal t n l f.b)
    (resultsAt l true f.d (BitVec.ofNat 64 r.1), r.2)⟩

/-- The dc instructions but dc.cmp (R149, R153 to R155). -/
def decimalRows : List FloatRow :=
  [decimal2 .dcAdd fun rm x y => Dec.finish rm (Dec.addExact rm x y) (min x.quantum y.quantum),
   decimal2 .dcSub fun rm x y => Dec.finish rm (Dec.addExact rm x y.negate) (min x.quantum y.negate.quantum),
   decimal2 .dcMul fun rm x y => Dec.finish rm (Dec.mulExact x y) (x.quantum + y.quantum),
   ⟨.dcFma, true, fun f => [useWide f.a, useWide f.b, useWide f.c], fun f t n l =>
    let r := Dec.fma t.drm (decimal t n l f.a) (decimal t n l f.b) (decimal t n l f.c)
    (resultsAt l true f.d (BitVec.ofNat 64 r.1), r.2)⟩,
   decimal2 .dcDiv Dec.div,
   decimal2 .dcQuant Dec.quantize,
   ⟨.dcCvt, true, fun f => [useWide f.a], fun f t n l =>
    let r := dcConvert (if f.mod.getLsbD 4 then .rtz else t.drm) f.ty (Ty.ofCode (f.mod.toNat % 16)) (t.lsrc n l true f.a)
    (resultsAt l true f.d (BitVec.ofNat 64 r.1), r.2)⟩,
   ⟨.dcRnd, true, fun f => [useWide f.a], fun f t n l =>
    let r := Dec.integral (roundMode t.drm (f.mod.toNat % 8)) (f.mod.getLsbD 3) (decimal t n l f.a)
    (resultsAt l true f.d (BitVec.ofNat 64 r.1), r.2)⟩]

/-! ## Blocks of scaled values -/

/-- A row of the sc instructions, which raise nothing. -/
def scaled1 (ins : TForm → Instr) (uses : TForm → List (Reg × Nat)) (out : TForm → Team → Nat → List Result) : FloatRow :=
  ⟨ins, false, uses, fun f t _ l => (out f t l, 0)⟩

/-- The 48 FP32 values of a lane from A on (R156). -/
def block (t : Team) (l : Nat) (r : Reg) : List FVal := (t.row l (vNum r) 48).map Num.f32.value

/-- The sc instructions (R157 to R161). -/
def scaledRows : List FloatRow :=
  [scaled1 .scQuant (fun f => [(f.a, 48)]) fun f t l =>
    blockAtReg f.ty l (vNum f.d) (Blocks.quantize f.ty.code (f.mod.getLsbD 0) (block t l f.a)),
   scaled1 .scScale (fun f => [(f.a, 48)]) fun f t l =>
    resultsAt l false f.d (BitVec.ofNat 64 (Blocks.scaleCode f.ty.code (block t l f.a))),
   scaled1 .scDeq (fun f => [(f.a, codeRegs f.ty), (f.b, 1)]) fun f t l =>
    let w := (t.getV l (vNum f.b)).toNat
    let n := f.mod.toNat % 4
    let special := if f.ty.code = 14 then w / 256 ^ (n + 1) % 256 else 0
    rowAt l (vNum f.d) ((unpackCodes f.ty (t.row l (vNum f.a) (codeRegs f.ty))).map fun x =>
      Num.rne32 (Blocks.value f.ty.code x (w / 256 ^ n % 256) special)),
   scaled1 .scPack (fun f => [(f.a, 48)]) fun f t l => rowAt l (vNum f.d) (packCodes f.ty (t.row l (vNum f.a) 48)),
   scaled1 .scUnpack (fun f => [(f.a, codeRegs f.ty)]) fun f t l =>
    rowAt l (vNum f.d) (unpackCodes f.ty (t.row l (vNum f.a) (codeRegs f.ty))),
   scaled1 .scSpec (fun f => [(f.d, 7), (f.a, 48)]) fun f t l =>
    blockAtReg f.ty l (vNum f.d) (Blocks.respecial ((t.getV l (vNum f.d + 6)).toNat % 256) (block t l f.a))]

/-- A row's instructions proceed in every active lane and deliver. -/
def RowCompletes (p : FloatRow) : Prop :=
  ∀ (f : TForm) (s : State) (i : Nat) (t : Team), AtIssue s i t →
    let n := s.teamsOf t
    Proceeds t n f.km p.dec (p.uses f) (p.out f) →
      let fl := laneFlags t n f.km (p.out f)
      CompletesAs (p.ins f) s i (s.delivered i t f.la (laneResults t n f.km (p.out f)) (if p.dec then 0 else fl)
        (if p.dec then fl else 0))

/-- A comparison's lanes: the condition and the exceptions it raises. -/
def comparisons : List ((TForm → Instr) × Bool × (TForm → List (Reg × Nat)) × (TForm → Team → Nat → Nat → Bool × BitVec 5)) :=
  [(.fpCmp, false, fun f => [useOf f.ty f.a, useOf f.ty f.b], fun f t n l =>
     Num.condition (f.mod.toNat % 8) (number f t n l f.a) (number f t n l f.b)),
   (.dcCmp, true, fun f => [useWide f.a, useWide f.b], fun f t n l =>
     Dec.condition (f.mod.toNat % 8) (decimal t n l f.a) (decimal t n l f.b))]

/-- What rcp, rsq, exp2 and log2 give at their special operands (R144): the operand, the result's bits and
the exceptions. -/
def specials (f : Fmt) : List ((Rm → Bool → FVal → Nat × BitVec 5) × FVal × Nat × BitVec 5) :=
  [(f.rcp, .fin false 0 0, f.infBits false, Num.divz), (f.rcp, .fin true 0 0, f.infBits true, Num.divz),
   (f.rcp, .inf false, f.signBit false, 0), (f.rcp, .inf true, f.signBit true, 0),
   (f.rsq, .fin false 0 0, f.infBits false, Num.divz), (f.rsq, .fin true 0 0, f.infBits true, Num.divz),
   (f.rsq, .inf true, f.nanBits, Num.inv), (f.rsq, .inf false, f.signBit false, 0),
   (f.exp2, .inf true, f.signBit false, 0), (f.exp2, .inf false, f.infBits false, 0),
   (f.log2, .fin false 0 0, f.infBits true, Num.divz), (f.log2, .fin true 0 0, f.infBits true, Num.divz),
   (f.log2, .inf true, f.nanBits, Num.inv), (f.log2, .inf false, f.infBits false, 0),
   (f.log2, .fin false 1 0, f.signBit false, 0)]

end Sys2Proof.Claims

/-- xl.red, xl.redi and xl.scan: the contributions are folded from lane 0 up; the result goes to D and
the exceptions become flags, unless one of them is enabled: then one record, no destination and no
flag. A value that no step computed is delivered as one that a step did. A poisoned operand gives
its records alone. With an empty active set and D no S register they do nothing. Clauses of the
model's choosing: log 22, 25. -/
def Obligations.CrossLaneFolds : Prop :=
  (∀ (f : TForm) (s : State) (i : Nat) (t : Team), AtIssue s i t → t.foldsNothing f = true →
    ∀ ins ∈ [(.xlRed : TForm → Instr), .xlRedi, .xlScan], Completes (ins f) s i t) ∧
  (∀ (f : TForm) (s : State) (i : Nat) (t : Team), AtIssue s i t → t.foldsNothing f = false → 0 < t.lanes →
    foldPoison t f ≠ [] →
      ∀ ins ∈ [(.xlRed : TForm → Instr), .xlRedi, .xlScan], Reports (ins f) s i t f.la (foldPoison t f)) ∧
  ∀ (f : TForm) (s : State) (i : Nat) (t : Team) (c : Nat) (cs : List Nat), AtIssue s i t → foldPoison t f = [] →
    let n := s.teamsOf t
    t.foldsNothing f = false → contributions t n f = c :: cs →
    (let steps := foldFrom (foldStep t f.ty f.mod.toNat) c cs
     let fl := raised (steps.map (·.2))
     FoldEnds (.xlRed f) s i t f (steps.map (·.2))
       (folded s i t f (fun _ => lnExt f.ty ((steps.getLast?.map (·.1)).getD (foldValue t f.ty c))) fl)) ∧
    (let steps := foldFrom (foldStep t f.ty (f.mod.toNat % 8)) c cs
     let fl := raised (steps.map (·.2))
     let run := foldValue t f.ty c :: steps.map (·.1)
     let value (l : Nat) : Nat :=
       if f.mod.getLsbD 3 then (if l = 0 then foldValue t f.ty (lnSrc f.ty t n 0 f.b) else run.getD (l - 1) 0)
       else run.getD l 0
     (∀ k, f.d ≠ .s k) →
       FoldEnds (.xlScan f) s i t f (steps.map (·.2)) (folded s i t f (fun l => lnExt f.ty (value l)) fl)) ∧
    (let full := t.lsrc n 0 true f.b
     let pair (l : Nat) : Nat × Nat :=
       if (t.active f.km.val).getLsbD l then (lnSrc f.ty t n l f.a, l) else (lowBits (tyWidth f.ty) full, lowBits 32 full)
     let step (v x : Nat × Nat) : (Nat × Nat) × BitVec 5 :=
       let b := better t f.ty (f.mod == 2) x.1 v.1
       (if b.1 then x else v, b.2)
     let steps := foldFrom step (pair 0) (((List.range t.lanes).drop 1).map pair)
     let fl := raised (steps.map (·.2))
     let best := (steps.getLast?.map (·.1)).getD (pair 0)
     let value := lnExt f.ty (foldValue t f.ty best.1)
     let index := BitVec.ofNat 64 best.2
     FoldEnds (.xlRedi f) s i t f (steps.map (·.2)) (match f.d with
         | .s k =>
           let u := if tyWide f.ty then (t.putScalar f.d value).setS (k.val + 1) index
             else t.putScalar f.d (BitVec.ofNat 64 (best.2 * 2 ^ 32 + value.toNat % 2 ^ 32))
           s.delivered i u f.la [] fl 0
         | .v k =>
           let wide := tyWide f.ty
           s.delivered i t f.la ((t.lanesOf f.km.val).flatMap fun l =>
             resultsAt l wide f.d value ++ [⟨.v l (k.val + if wide then 2 else 1), index, 0⟩]) fl 0
         | _ => s.delivered i t f.la [] fl 0))

/-- An integer fold is the operation over all contributions, whatever their order of folding. -/
def Obligations.IntegerFolds : Prop :=
  ∀ (f : TForm) (s : State) (i : Nat) (t : Team), AtIssue s i t → foldPoison t f = [] → f.ty.code < 8 → t.lanes ≠ 0 →
    f.mod.toNat < 6 →
      CompletesAs (.xlRed f) s i (if t.foldsNothing f then s.withTeam i fun _ => t else
        folded s i t f (fun _ => foldInts f.ty f.mod.toNat (contributed t (s.teamsOf t) f)) 0)

/-- The fp instructions: every active lane takes the exact result rounded once, and its exceptions
become flags; under a non-zero LA both stay in flight. Clauses of the model's choosing: log 7, 22.
-/
def Obligations.FloatForms : Prop := ∀ p ∈ floatRows, RowCompletes p

/-- The dc instructions, on decimals rounded once to 16 digits, and the sc instructions, on blocks of 48
elements. Clauses of the model's choosing: log 8. -/
def Obligations.DecimalAndScaledForms : Prop := ∀ p ∈ decimalRows ++ scaledRows, RowCompletes p

/-- fp.cmp and dc.cmp. -/
def Obligations.FloatComparisons : Prop :=
  ∀ p ∈ comparisons, ∀ (f : TForm) (s : State) (i : Nat) (t : Team), AtIssue s i t → Unpoisoned t f.km (p.2.2.1 f) →
    let c := p.2.2.2 f t (s.teamsOf t)
    (∀ l ∈ t.lanesOf f.km.val, (c l).2 &&& t.enables p.2.1 = 0) →
      let u := compared t f fun l => (c l).1
      let fl := raised ((t.lanesOf f.km.val).map fun l => (c l).2)
      Completes (p.1 f) s i (if p.2.1 then { u with dcf := t.dcf ||| fl } else { u with fpf := t.fpf ||| fl })

/-- A lane that raises an enabled exception traps with the lowest of them and all its exceptions in the
detail; its destination keeps its value, and the lanes that do not trap complete. Under a non-zero
LA the faults are found at issue and reported when the instruction completes, with the results (log
25). Clauses of the model's choosing: log 25. -/
def Obligations.FloatTraps : Prop :=
  ∀ p ∈ floatRows ++ decimalRows, ∀ (f : TForm) (s : State) (i : Nat) (t : Team), AtIssue s i t →
    Unpoisoned t f.km (p.uses f) →
    let n := s.teamsOf t
    let on (l : Nat) : BitVec 5 := (p.out f t n l).2 &&& t.enables p.dec
    let lanes := t.lanesOf f.km.val
    let good := lanes.filter fun l => on l = 0
    let bad := lanes.filter fun l => on l ≠ 0
    bad ≠ [] →
      let fl := raised (good.map fun l => (p.out f t n l).2)
      let rs := bad.map fun l => { t.laneRec l (lowestCause (on l)) (p.out f t n l).2.toNat with decimal := p.dec }
      let s' := s.delivered i t f.la (good.flatMap fun l => (p.out f t n l).1) (if p.dec then 0 else fl)
        (if p.dec then fl else 0) rs
      exec (p.ins f) s = .next (if f.la = 0 then s'.trapInstr i rs else s'.retire i)

/-- The elementary functions at their special operands, and the canonical NaN for every NaN. Clauses of
the model's choosing: log 7. -/
def Obligations.FloatSpecials : Prop :=
  ∀ f ∈ [Num.f32, Num.f64], ∀ (rm : Num.Rm) (ftz : Bool),
    (∀ p ∈ specials f, p.1 rm ftz p.2.1 = (p.2.2.1, p.2.2.2)) ∧
    (∀ op ∈ [f.rcp, f.rsq, f.exp2, f.log2], ∀ sig : Bool, op rm ftz (.nan sig) = (f.nanBits, if sig then Num.inv else 0)) ∧
    (∀ (m : Nat) (e : Int), m ≠ 0 → f.rsq rm ftz (.fin true m e) = (f.nanBits, Num.inv) ∧
      f.log2 rm ftz (.fin true m e) = (f.nanBits, Num.inv)) ∧
    (∀ n : Int, f.emin ≤ n → n ≤ f.bias → f.exp2 rm ftz (Num.ofInt n 0 false) = ((n + f.bias).toNat * 2 ^ f.fbits, 0))

/-- Every number of a format is delivered in that format as itself, with no exception and in every
rounding mode. -/
def Obligations.FormatsExact : Prop :=
  ∀ ty, 8 ≤ ty → ty ≤ 14 → ∀ (rm : Num.Rm) (bits : Nat), bits < 2 ^ (Num.fmtOf ty).width →
    ((Num.fmtOf ty).value bits).isNan = false →
      (Num.fmtOf ty).deliver rm false false ((Num.fmtOf ty).value bits) = (bits, 0)

namespace Sys2Proof.Claims

/-! ## The matrix engine -/

/-- The team at issue holds its core's Latchkey (R171). -/
def HasKey (s : State) (i : Nat) (t : Team) : Prop := (s.core t.core).latch = .held i

/-- The active lanes that have their accumulator row (R165). -/
def rowLanes (t : Team) (km : Fin 16) : List Nat := (t.lanesOf km.val).filter fun l => t.rowOf l < t.accrows

/-- The records of the active lanes that do not: ACCUM, detail 1 (R165). -/
def rowFaults (t : Team) (km : Fin 16) : List Rec :=
  ((t.lanesOf km.val).filter fun l => t.accrows ≤ t.rowOf l).map fun l =>
    { t.laneRec l .accum 1 with ea := BitVec.ofNat 64 (t.rowOf l) }

/-- An instruction some of whose lanes may trap: it retires where none does, else the records are delivered;
those of a long-latency instruction wait with its results (R24, R353). -/
def settled (s : State) (i : Nat) (waits : Bool) (rs : List Rec) : State :=
  if rs.isEmpty || waits then s.retire i else s.trapInstr i rs

/-- A team after something is done to the row of each of some lanes, in ascending order. -/
def Team.eachRow (t : Team) (lanes : List Nat) (g : Team → Nat → Team) : Team := lanes.foldl g t

/-- Column `j` of a lane's row, 0 under `zero`. -/
def oldColumn (t : Team) (l j : Nat) (zero : Bool) : Nat := if zero then 0 else (t.getAcc (t.rowOf l) j).toNat

/-- An accumulator row after the 128 columns each take the exact sum of the old value and 48 terms, rounded
once to FP32 (R140, R176, R177). -/
def summed (t : Team) (l : Nat) (zero : Bool) (term : Nat → Nat → Num.FVal) : Team :=
  t.setCols (t.rowOf l) 0 ((List.range 128).map fun j =>
    BitVec.ofNat 32 (Num.rne32 (Num.sumExact
      (Num.f32.value (oldColumn t l j zero) :: (List.range 48).map fun k => term j k))))

/-- An accumulator row after 64 columns of FP64 each take 12 products in turn, each by a fused multiply-add
(R176). -/
def fused (t : Team) (l : Nat) (zero : Bool) (a : Nat → Num.FVal) (b : Nat → Nat → Num.FVal) : Team :=
  (List.range 64).foldl (fun u j =>
    let old : Word := if zero then 0 else u.getAcc (u.rowOf l) (2 * j + 1) ++ u.getAcc (u.rowOf l) (2 * j)
    let sum := (List.range 12).foldl (fun x k => (Num.f64.fma .rne false (a k) (b j k) (Num.f64.value x)).1) old.toNat
    (u.setAcc (u.rowOf l) (2 * j) (BitVec.ofNat 32 sum)).setAcc (u.rowOf l) (2 * j + 1) (BitVec.ofNat 32 (sum / 2 ^ 32))) t

/-- What mx.mma does in a lane. -/
def multiplied (c : Core) (f : TForm) (t : Team) (l : Nat) : Team :=
  let slot := t.mxc.toNat % 128
  let sparse := c.sparseAt f.ty slot
  let zero := t.mxc.getLsbD 7
  let a (k : Nat) : Num.FVal := (Num.fmtOf f.ty.code).value (t.rowBits f.ty l (vNum f.d) k)
  if f.ty = .f64 then fused t l zero a fun j k => c.elem f.ty sparse false slot j k
  else summed t l zero fun j k => Num.prod (a k) (c.elem f.ty sparse false slot j k)

/-- What mx.mmas does in a lane: the element values of both sides under their scale codes (R122, R176). -/
def multipliedScaled (c : Core) (f : TForm) (t : Team) (l : Nat) : Team :=
  let slot := t.mxc.toNat % 128
  let sparse := c.sparseAt f.ty slot
  let w := match f.a with | .v n => (t.getV l n.val).toNat | _ => 0
  let n := f.mod.toNat % 4
  summed t l (t.mxc.getLsbD 7) fun j k =>
    Num.prod (Blocks.value f.ty.code (t.rowBits f.ty l (vNum f.d) k) (w / 256 ^ n % 256) (w / 256 ^ (n + 1) % 256))
      (c.elem f.ty sparse true slot j k)

/-- What mx.dist does in a lane: squares of differences (R177). -/
def distanced (c : Core) (f : TForm) (t : Team) (l : Nat) : Team :=
  let slot := t.mxc.toNat % 128
  summed t l (!f.mod.getLsbD 0) fun j k =>
    let d := (Num.addExact .rne ((Num.fmtOf f.ty.code).value (t.rowBits f.ty l (vNum f.d) k))
      (c.elem f.ty false false slot j k).negate).1
    Num.prod d d

/-- The mx instructions that need the Latchkey, and whether KM selects their lanes. -/
def keyed : List ((TForm → Instr) × Bool) :=
  [(.mxGive, false), (.mxMma, true), (.mxMmas, true), (.mxDist, true), (.mxTopk, true), (.mxWload, false),
   (.mxAload, true), (.mxAstore, true), (.mxAzero, true), (.mxCfg, false)]

/-- The mx instructions on a tile: the constructor, whether it reads scales, whether the tile may be sparse,
the registers a lane uses, and a lane's effect. -/
def products : List ((TForm → Instr) × Bool × Bool × (TForm → List (Reg × Nat)) × (Core → TForm → Team → Nat → Team)) :=
  [(.mxMma, false, true, fun f => [(f.d, (arowSpan f.ty.code).1)], multiplied),
   (.mxMmas, true, true, fun f => [(f.d, (arowSpan f.ty.code).1), (f.a, 1)], multipliedScaled),
   (.mxDist, false, false, fun f => [(f.d, (arowSpan f.ty.code).1)], distanced)]

/-- Columns `c` to `c + n - 1` of a lane's row as results from register `d` on. -/
def columnResults (t : Team) (l c d n : Nat) : List Result :=
  (List.range n).map fun i => ⟨.v l (d + i), (t.getAcc (t.rowOf l) (c + i)).setWidth 64, 0⟩

/-- The first team in ring order behind a slot that waits for a core's Latchkey (R171). -/
def nextForKey (s : State) (core slot : Nat) : Option Nat :=
  ((List.range 16).map fun k => (slot + 1 + k) % 16).findSome? fun k =>
    ((s.teams.filter fun x => s.wants core x.1).find? fun x => x.2.slot == k).map (·.1)

end Sys2Proof.Claims

/-- The Latchkey: mx.take when it is free or already held, and its wait otherwise; mx.give; mx.cfg;
every other mx instruction without it traps, with a detail 0 that is the model's (log 20); and its
handover to the next waiter in ring order, once the giver's mx work is done and its weights are
resident. Clauses of the model's choosing: log 4, 20. -/
def Obligations.Latchkey : Prop :=
  (∀ (f : TForm) (s : State) (i : Nat) (t : Team), AtIssue s i t → t.mxq = [] →
    let latch := (s.core t.core).latch
    (latch = .free → CompletesAs (.mxTake f) s i
      ((s.withCore t.core fun c => { c with latch := .held i }).withTeam i fun _ => { t with wantsKey := false })) ∧
    (latch = .held i → Completes (.mxTake f) s i { t with wantsKey := false }) ∧
    (latch ≠ .free → latch ≠ .held i →
      exec (.mxTake f) s = .next ((s.withTeam i fun _ => { t with wantsKey := true }).stand i { held := true })) ∧
    (HasKey s i t → CompletesAs (.mxGive f) s i (s.withCore t.core fun c => { c with latch := .passing i t.slot })) ∧
    (HasKey s i t → Readable t f.a →
      let x := t.scalar (s.teamsOf t) f.a
      Completes (.mxCfg f) s i { t.putScalar f.d (t.mxc.setWidth 64) with
        mxc := BitVec.ofNat 8 (x.toNat % 128 % 96 + if x.getLsbD 7 then 128 else 0) }) ∧
    (¬ HasKey s i t → ∀ p ∈ keyed, Traps (p.1 f) s i
      [{ t.record .latchkey 0 with lane := (t.lanesOf (if p.2 then f.km.val else 0)).headD 0 }])) ∧
  (∀ (core : Nat) (s : State) (i slot : Nat), (s.core core).latch = .passing i slot →
    let busy := (s.core core).wloads.any (·.team == i) || (s.team i).ops.any (·.matrix)
    (busy = true → exec (.latchkeyHandover core) s = .next s) ∧
    (busy = false →
      match nextForKey s core slot with
      | none => exec (.latchkeyHandover core) s = .next (s.withCore core fun c => { c with latch := .free })
      | some j => (s.team j).keptKey = false → (s.team j).mxq = [] → exec (.latchkeyHandover core) s =
          .next ((s.withCore core fun c => { c with latch := .held j }).withTeam j fun u => { u with wantsKey := false })))

/-- mx.mma, mx.mmas and mx.dist: the accumulator row of every active lane that has one takes the sums of
its A row with the columns of the tile at WSLOT; the others trap. That the rows are written and
those faults rise at issue, under every LA, is the model's choice (log 25). Clauses of the model's
choosing: log 25. -/
def Obligations.MatrixProducts : Prop :=
  ∀ p ∈ products, ∀ (f : TForm) (s : State) (i : Nat) (t : Team), AtIssue s i t → t.mxq = [] → HasKey s i t →
    Unpoisoned t f.km (p.2.2.2.1 f) →
      let c := s.core t.core
      let slot := t.mxc.toNat % 128
      let sparse := p.2.2.1 && c.sparseAt f.ty slot
      c.tilePoison f.ty sparse p.2.1 slot (if f.ty = .f64 then 64 else 128) = none →
        exec (p.1 f) s = .next (settled (s.withTeam i fun _ => Team.eachRow t (rowLanes t f.km) (p.2.2.2.2 c f)) i false
          (rowFaults t f.km))

/-- mx.aload, mx.astore, mx.azero and mx.topk move accumulator columns in every active lane that has its
row; a lane whose row the team does not have traps with ACCUM, alone, and a range of columns past
128 traps uniformly. A poisoned column stops every active lane, with ACCUM where it has no row.
Under a non-zero LA the faults of mx.astore's and mx.topk's lanes are reported when the instruction
completes (log 25). Clauses of the model's choosing: log 20, 22, 25. -/
def Obligations.AccumulatorForms : Prop :=
  ∀ (f : TForm) (s : State) (i : Nat) (t : Team), AtIssue s i t → t.mxq = [] → HasKey s i t →
    let c := (t.scalar (s.teamsOf t) f.a).toNat
    let n := f.mod.toNat + 1
    let lanes := rowLanes t f.km
    let faults := rowFaults t f.km
    let writes (ins : TForm → Instr) (g : Team → Nat → Team) : Prop :=
      exec (ins f) s = .next (settled (s.withTeam i fun _ => Team.eachRow t lanes g) i false faults)
    let reads (ins : TForm → Instr) (out : Nat → List Result) : Prop :=
      exec (ins f) s = .next (settled (s.delivered i t f.la (lanes.flatMap out) 0 0 faults) i (f.la != 0) faults)
    (t.lanesOf f.km.val = [] ∨ (Readable t f.a ∧ c + n ≤ 128) →
      (Unpoisoned t f.km [(f.d, n)] → writes .mxAload fun u l =>
        u.setCols (u.rowOf l) c ((List.range n).map fun k => u.getV l (vNum f.d + k))) ∧
      reads .mxAstore fun l => columnResults t l c (vNum f.d) n) ∧
    (t.lanesOf f.km.val ≠ [] → Readable t f.a → 128 < c + n →
      ∀ ins ∈ [(.mxAload : TForm → Instr), .mxAstore], Traps (ins f) s i
        [{ t.record .accum 2 with ea := t.scalar (s.teamsOf t) f.a, lane := (t.lanesOf f.km.val).headD 0 }]) ∧
    (∀ k, f.a = .s k → t.poisonS k ≠ 0 → t.lanesOf f.km.val ≠ [] →
      ∀ ins ∈ [(.mxAload : TForm → Instr), .mxAstore], Traps (ins f) s i ((t.lanesOf f.km.val).map fun l =>
        if t.accrows ≤ t.rowOf l then { t.laneRec l .accum 1 with ea := BitVec.ofNat 64 (t.rowOf l) }
        else t.poisonRec l f.a (t.poisonS k))) ∧
    (writes .mxAzero fun u l => u.setCols (u.rowOf l) 0 (List.replicate 128 0)) ∧
    (let m := f.mod.toNat % 16 + 1
     let best (l : Nat) : List Nat :=
       (sortBy (ranksBefore (f.mod.getLsbD 4) fun j => t.getAcc (t.rowOf l) j) (List.range 128)).take m
     let at_ (l k : Nat) (x : Word) : Result := ⟨.v l (vNum f.d + k), x, 0⟩
     reads .mxTopk fun l =>
       let ranked := (List.range m).zip (best l)
       (ranked.map fun p => at_ l p.1 (BitVec.ofNat 64 p.2)) ++
         if f.mod.getLsbD 5 then ranked.map fun p => at_ l (m + p.1) ((t.getAcc (t.rowOf l) p.2).setWidth 64) else [])

/-- The ranking of mx.topk: the chosen columns are distinct, no column left out ranks before one taken,
and they stand in rank order. -/
def Obligations.TopRanks : Prop :=
  ∀ (max : Bool) (row : Nat → LaneWord) (m : Nat), m ≤ 128 →
    let best := (sortBy (ranksBefore max row) (List.range 128)).take m
    best.length = m ∧ best.Nodup ∧ (∀ j ∈ best, j < 128) ∧
      best.Pairwise (fun a b => ranksBefore max row a b = true) ∧
      ∀ a ∈ best, ∀ b < 128, b ∉ best → ranksBefore max row a b = true

/-- mx.wload is accepted with the keys of its bytes in order, and the tags of its slots then change; a
burst of it becomes resident in every weight buffer that it fills, the one kept with a saved team
among them, and with the last byte its arrival counter gains one. That the sparse tags change ahead
of the bytes (log 22) and that the bytes land in the buffer kept with a saved team as well (log 25)
are the model's choices. Clauses of the model's choosing: log 22, 25. -/
def Obligations.WeightLoads : Prop :=
  (∀ (f : TForm) (s : State) (i : Nat) (t : Team) (ks : List (Nat × Nat)) (s2 : State), AtIssue s i t → t.mxq = [] →
    HasKey s i t → Readable t f.a → Readable t f.d →
    let v := t.scalar (s.teamsOf t)
    let kind := f.mod.toNat % 4
    let n := if kind = 2 then 4096 * (f.mod.toNat / 4 + 1) else 128 * tileStride f.ty (kind == 1)
    let start := 4096 * ((v f.d).toNat % 96)
    (v f.a).toNat % 128 = 0 → Act.go (reachRange { r := true } accRead (v f.a) n ((t.lanesOf 0).headD 0)) s = (.ok ks, s2) →
      let runs := (List.range ks.length).map fun k =>
        ((ks.getD k (0, 0)).1, start + ((ks.take k).map (·.2)).sum, (ks.getD k (0, 0)).2)
      let slots := (List.range ((n + 4095) / 4096)).map fun k => (start / 4096 + k) % 96
      CompletesAs (.mxWload f) s i ({ s2 with serial := s2.serial + 1 }.withCore t.core fun c =>
        { c with
          tags := slots.foldl (fun m k => SMap.set false m k (kind == 1)) c.tags
          wloads := c.wloads ++ [Wload.mk s2.serial i runs (match f.b with | .a n => n.val | _ => 0)] })) ∧
  (∀ (s : State) (core count : Nat) (w : Wload) (key off size : Nat) (rest : List (Nat × Nat × Nat)) (u : Team),
    let c := s.core core
    c.wloads.find? (·.ident == w.ident) = some w → w.runs = (key, off, size) :: rest →
    let n := min count (min size (64 - key % 64))
    (c.wloads.any fun v => v.ident < w.ident && (v.meets w || v.reads w.team key n)) = false → 0 < count → 0 < size →
    s.mortar = [] → s.poisonAt key = 0 → SMap.find s.teams w.team = some u → u.place ≠ .ended →
    (s.detOf u = true → s.ownEffects w.team = []) →
      let left := if n = size then rest else (key + n, off + n, size - n) :: rest
      let bs := readBytes s.mem key n
      let fills (ws : List Wload) : Bool := ws.any (·.ident == w.ident)
      let cores := s.cores.map fun x => (x.1,
        if fills x.2.wloads then
          let placed := placeWeights x.2.wbuf x.2.wpoison off bs 0
          { x.2 with wbuf := placed.1, wpoison := placed.2, wloads := cutWload x.2.wloads w.ident 0 n }
        else x.2)
      let kept := placeWeights u.keptBuf u.keptPoison off bs 0
      let u1 := if fills u.keptLoads then
        { u with keptBuf := kept.1, keptPoison := kept.2, keptLoads := cutWload u.keptLoads w.ident 0 n } else u
      cutRun w.runs 0 n = left ∧ exec (.wloadResident core w.ident 0 count) s =
        .next (({ s with cores := cores } : State).withTeam w.team fun _ => if left = [] then u1.bumpA w.counter else u1))

namespace Sys2Proof.Claims

/-! ## Memory -/

/-- Addresses of a lane's elements (R185, R188). -/
def elemAddr (f : TForm) (t : Team) (l k : Nat) : Word := t.laneAddr l f.a + BitVec.ofNat 64 (k * tyBytes f.ty)

/-- Every element of every active lane is aligned and mapped, at the keys given. -/
def AllMapped (f : TForm) (s : State) (i : Nat) (t : Team) (n : Nat) (need : Need) (key : Nat → Nat → Nat) : Prop :=
  ∀ l ∈ t.lanesOf f.km.val, (t.laneAddr l f.a).toNat % tyBytes f.ty = 0 ∧
    ∀ k < n, Mapped s i t (elemAddr f t l k) need (key l k)

/-- The elements that the active lanes of mem.ldi request, lane by lane (R188). -/
def loadParts (f : TForm) (t : Team) (key : Nat → Nat → Nat) : List Part :=
  (t.lanesOf f.km.val).flatMap fun l => (List.range (f.mod.toNat + 1)).map fun k =>
    ⟨l, .v l (vNum f.d + (if tyWide f.ty then 2 else 1) * k), key l k, tyBytes f.ty, tySigned f.ty⟩

/-- The number of the arrival counter in a position. -/
def counterOf (r : Reg) : Nat := match r with | .a n => n.val | _ => 0

/-- The stores of the active lanes of mem.st, lane by lane (R191). -/
def laneStores (f : TForm) (t : Team) (key : Nat → Nat → Nat) : List (Nat × Word × Nat × List Byte) :=
  (t.lanesOf f.km.val).flatMap fun l => (List.range (f.mod.toNat + 1)).map fun k =>
    (l, elemAddr f t l k, key l k, t.storeData l f.ty f.d k)

/-- A lane's scratchpad range of mem.lds and mem.sts is aligned and inside the launch's allocation (R192). -/
def inScratch (f : TForm) (s : State) (t : Team) (l : Nat) : Bool :=
  t.laneWord l f.a % tyBytes f.ty == 0 && t.laneWord l f.a + (f.mod.toNat + 1) * tyBytes f.ty ≤ s.scratchOf t

/-- The records of the active lanes whose range is not: MISALIGN before SCRATCH, with a detail of 0 (R192; log
20). -/
def scratchFaults (f : TForm) (s : State) (t : Team) (st : Bool) : List Rec :=
  ((t.lanesOf f.km.val).filter fun l => !inScratch f s t l).map fun l =>
    { t.laneRec l (if t.laneWord l f.a % tyBytes f.ty = 0 then .scratch else .misalign) 0 with
      ea := BitVec.ofNat 64 (t.laneWord l f.a), size := tyBytes f.ty, store := st, load := !st }

/-- One lane of a device-scope atomic: the word at its key is replaced at once, and the old value is the
lane's result (R195). -/
def atomStep (f : TForm) (t : Team) (key : Nat → Nat) (x : State × List Result) (l : Nat) : State × List Result :=
  let size := tyBytes f.ty
  let old := leNat (readBytes x.1.mem (key l) size)
  let operand (r : Reg) : Nat := (t.lsrc 0 l (tyWide f.ty) r).toNat % 2 ^ tyWidth f.ty
  let new := atomFn f.ty (f.mod.toNat % 8) old (operand f.b) (operand f.c)
  (x.1.storeKept (key l) (leBytes size new) t.asid,
    x.2 ++ resultsAt l (tyWide f.ty) f.d (extendTo (tySigned f.ty) (tyWidth f.ty) old) 0)

/-- What mem.atom lanes use (R195). -/
def atomUses (f : TForm) : List (Reg × Nat) :=
  [addrUse f.a, (f.b, srcRegs (tyWide f.ty) f.b)] ++
    if f.mod.toNat % 8 = 7 then [(f.c, srcRegs (tyWide f.ty) f.c)] else []

/-- The Mortar operation that a lane of mem.opx sends (R225). -/
def laneOp (f : TForm) (s : State) (i : Nat) (t : Team) (key : Nat → Nat) (l : Nat) : MortarOp :=
  let sel := t.laneWord l f.c
  let v := SMap.val (s.space t.asid).bound 0 (sel / 16)
  let d := slotOf (SMap.val (s.space t.asid).tables [] v) (sel % 16)
  let size := slotSize d.2.1
  { team := i, unit := t.issued + 1, asid := t.asid, key := key l, size := size, kind := d.1, ty := d.2.1, fn := d.2.2.1,
    inexact := d.2.2.2, version := v, table := sel / 16, slot := sel % 16,
    value := if d.1 = 0 then 0 else BitVec.ofNat 64 ((t.lsrc 0 l (size == 8) f.b).toNat % 2 ^ (8 * size)), det := s.detOf t,
    op := s.serial, dst := match f.d with | .v n => some (.v l n.val) | _ => none }

/-- In a deterministic launch a fence goes to the ticket unit behind what the team has staged, with the paths
and the point of the team's program order that it orders (R234, R291; log 22). -/
def fenced (s : State) (i : Nat) (t : Team) (from_ to_ : Nat) : State :=
  if Holds s t then s.withTeam i fun u => { u with staged := u.staged ++ [.fence from_ to_ t.issued s.serial] } else s

/-- A lane's selector names a slot of a bound table, and its operands and its word suit the slot (R224). -/
def SlotGood (f : TForm) (s : State) (i : Nat) (t : Team) (key : Nat → Nat) (l : Nat) : Prop :=
  let m := laneOp f s i t key l
  let odd (r : Reg) : Bool := match r with | .v n => n.val % 2 == 1 || t.desc.vregs < n.val + 2 | _ => false
  t.laneWord l f.c < 128 ∧ m.version ≠ 0 ∧
    m.slot < bytesAt (SMap.val (s.space t.asid).tables [] m.version) 0 1 ∧ (m.size = 8 → odd f.b = false ∧ odd f.d = false) ∧
    (m.kind ≠ 0 → t.lpoison l (srcRegs (m.size == 8) f.b) f.b = none) ∧ (t.laneAddr l f.a).toNat % m.size = 0 ∧
    Mapped s i t (t.laneAddr l f.a) (if m.kind = 0 then { r := true, use := 6 } else { w := true, use := 6 }) (key l)

/-- Every LOAD of a queue stands behind an entry that meets its bytes (R215). -/
def LoadsWait (q : List MortarOp) : Prop :=
  ∀ (j : Nat) (e : MortarOp), q[j]? = some e → e.kind = 0 → (q.take j).any (fun d => meets d.key d.size e.key e.size) = true

end Sys2Proof.Claims

/-- mem.ldi requests every element of its active lanes and goes on; its arrival counter gains one when
the last has landed, at once when there is none. -/
def Obligations.LoadRequests : Prop :=
  ∀ (f : TForm) (s : State) (i : Nat) (t : Team) (key : Nat → Nat → Nat), AtIssue s i t → t.FirstIssue →
    Unpoisoned t f.km [addrUse f.a] → (∀ o ∈ t.ops, o.ident ≠ s.serial) →
    AllMapped f s i t (f.mod.toNat + 1) { r := true } key →
      let op : Op := { ident := s.serial, counter := some (counterOf f.b), parts := loadParts f t key }
      CompletesPaged (.memLdi f) s i
        ({ s with serial := s.serial + 1 }.withTeam i fun _ =>
          if t.lanesOf f.km.val = [] then t.bumpA (counterOf f.b) else { t with ops := t.ops ++ [op] })

/-- An element that its slice answers lands in its register, extended as its type says, and the line
enters the load cache; with the last element the arrival counter gains one. Clauses of the model's
choosing: log 12. -/
def Obligations.LoadLandings : Prop :=
  ∀ (s : State) (i part : Nat) (t : Team) (o : Op) (p : Part), SMap.find s.teams i = some t →
    t.ops.find? (·.ident == o.ident) = some o → o.parts[part]? = some p → t.landsAfter o.ident part p = false →
    s.mortar = [] → s.writes.any (·.team == i) = false → (s.detOf t = true → s.ownEffects i = []) →
    let base := p.key / 64 * 64
    s.poisonAt base = 0 → p.key % p.size = 0 → 0 < p.size → p.size ∣ 64 →
      let full := cacheLines ≤ (s.core t.core).cache.length
      let s1 := { s with free := s.free + if full then 1 else 0 }.withCore t.core
        (·.fill ⟨base, readBytes s.mem base 64, 0, []⟩ (if full then Config.cacheVictim s.free else 0))
      exec (.loadLanding i o.ident part false) s =
        .next (s1.withTeam i fun _ => ((p.results (readBytes s.mem p.key p.size) 0).foldl Team.land t).landed o.ident part)

/-- mem.await goes on once its arrival counter has reached the target, in the wrapping order of 8 bits,
and blocks until then, a blocking point whose detail 7 is R187's. -/
def Obligations.ArrivalWaits : Prop :=
  ∀ (f : TForm) (s : State) (i : Nat) (t : Team), AtIssue s i t →
    let gap := (t.getA (counterOf f.a)) - BitVec.ofNat 8 f.c.code
    (gap.toNat < 128 → Completes (.memAwait f) s i t) ∧
    (128 ≤ gap.toNat → exec (.memAwait f) s = .next (s.stand i { detail := 7 }))

/-- mem.st issues the elements of its active lanes as one write unit, each at the address its lane and
its number give. -/
def Obligations.LaneStores : Prop :=
  ∀ (f : TForm) (s : State) (i : Nat) (t : Team) (key : Nat → Nat → Nat), AtIssue s i t → t.FirstIssue → t.UnitsIssued →
    UnitRoom s t → Unpoisoned t f.km (dataUses f.ty (f.mod.toNat + 1) f.d ++ [addrUse f.a]) →
    AllMapped f s i t (f.mod.toNat + 1) { w := true } key → (s.core t.core).log.length ≤ 256 →
      CompletesPaged (.memSt f) s i
        { s.issueStores i t 0 (laneStores f t key) with
          serial := s.serial + if t.lanesOf f.km.val = [] then 0 else 1 }

/-- The scratchpad: mem.lds waits for its lines to be full and reads, mem.sts writes in ascending lane
order, mem.fe tests, fills and empties lines. A lane whose range is misaligned or past the launch's
allocation traps with MISALIGN or SCRATCH, whose detail 0 is the model's (log 20), and does nothing
else; the other lanes act. That such a trap of mem.lds rises at issue, under every LA, while the
results of the other lanes are in flight, is the model's choice (log 25). Clauses of the model's
choosing: log 20, 25. -/
def Obligations.Scratchpad : Prop :=
  ∀ (f : TForm) (s : State) (i : Nat) (t : Team), AtIssue s i t →
    let n := f.mod.toNat + 1
    let size := tyBytes f.ty
    let lanes := t.lanesOf f.km.val
    let off := fun l => t.laneWord l f.a
    let a := s.allocOf t
    let good := lanes.filter (inScratch f s t)
    (Unpoisoned t f.km [(f.a, 1)] → (∀ l ∈ good, a.full (off l) (n * size) = true ∧ a.poisonIn (off l) (n * size) = 0) →
      exec (.memLds f) s = .next (settled (s.delivered i t f.la (good.flatMap fun l => (List.range n).flatMap fun k =>
        loadedAt f.ty l (vNum f.d) k (a.read (off l + k * size) size) 0) 0 0) i false (scratchFaults f s t false))) ∧
    (Unpoisoned t f.km [(f.a, 1)] → (∃ l ∈ good, a.full (off l) (n * size) = false) →
      exec (.memLds f) s = .next (s.stand i {})) ∧
    (Unpoisoned t f.km (dataUses f.ty n f.d ++ [(f.a, 1)]) →
      exec (.memSts f) s = .next (settled (s.withAlloc t.core t.launch fun a => good.foldl (fun a l =>
        (List.range n).foldl (fun a k => a.write (off l + k * size) (t.storeData l f.ty f.d k)) a) a) i false
        (scratchFaults f s t true))) ∧
    (Unpoisoned t f.km [(f.a, 1)] →
      let inside := lanes.filter fun l => off l < s.scratchOf t
      let out := lanes.filter fun l => s.scratchOf t ≤ off l
      let rs := out.map fun l => { t.laneRec l .scratch 0 with ea := BitVec.ofNat 64 (off l) }
      let full := inside.filter fun l => !a.empties.contains (off l / 128)
      let lines := inside.map fun l => off l / 128
      (f.mod.toNat % 4 = 0 → exec (.memFe f) s = .next (settled (s.withTeam i fun _ => match f.d with
        | .k k => t.setK k.val ((t.getK k.val &&& maskOf out) ||| maskOf full)
        | .v v => inside.foldl (fun u l => u.setV l v.val (if full.contains l then 1 else 0)) t
        | _ => t) i false rs)) ∧
      (f.mod.toNat % 4 = 1 → exec (.memFe f) s = .next (settled (s.withAlloc t.core t.launch fun a =>
        { a with empties := a.empties.filter fun e => !lines.contains e }) i false rs)) ∧
      (2 ≤ f.mod.toNat % 4 → exec (.memFe f) s = .next (settled (s.withAlloc t.core t.launch fun a =>
        { a with empties := lines.foldl (fun es e => if es.contains e then es else es ++ [e]) a.empties }) i false rs)))

/-- mem.atom: at device scope the active lanes act on their words one after another, in lane order, and
trap in a deterministic launch; at team scope a lane reads as a load does and its word goes out as a
store. Clauses of the model's choosing: log 12, 20. -/
def Obligations.Atomics : Prop :=
  ∀ (f : TForm) (s : State) (i : Nat) (t : Team) (key : Nat → Nat), AtIssue s i t → t.FirstIssue →
    let lanes := t.lanesOf f.km.val
    let dev := !f.mod.getLsbD 3
    let size := tyBytes f.ty
    Unpoisoned t f.km (atomUses f) →
    (dev = true → s.detOf t = true → UnitRoom s t → lanes ≠ [] → (∀ l ∈ lanes, (t.laneAddr l f.a).toNat % size = 0) →
      exec (.memAtom f) s = .next ((s.withTeam i fun _ => t.openUnit 0).trapInstr i (lanes.map fun l =>
        { t.laneRec l .determ 0 with ea := t.laneAddr l f.a, size := size, store := true, load := true }))) ∧
    (s.mortar = [] → s.mortarIn = [] → AllMapped f s i t 1 { w := true, use := if dev then 5 else 0 } (fun l _ => key l) →
    (∀ l ∈ lanes, s.poisonAt (key l) = 0) →
    (dev = true → s.detOf t = false →
      let out := lanes.foldl (atomStep f t key) (s.withTeam i fun _ => t.openUnit 0, [])
      let s' := { out.1 with serial := s.serial + if lanes = [] then 0 else 1 }
      CompletesPaged (.memAtom f) s i (s'.delivered i (t.openUnit 0) f.la out.2 0 0)) ∧
    (∀ l, dev = false → lanes = [l] → s.rangeLanded i (key l) size = true →
      s.writes.any (·.team == i) = false → (s.detOf t = true → s.ownEffects i = []) → s.poisonAt (key l / 64 * 64) = 0 →
      key l % size = 0 →
      (s.core t.core).cache.any (·.key == key l / 64 * 64) = false →
        let base := key l / 64 * 64
        let full := cacheLines ≤ (s.core t.core).cache.length
        let old := leNat (readBytes s.mem (key l) size)
        let operand (r : Reg) : Nat := (t.lsrc 0 l (tyWide f.ty) r).toNat % 2 ^ tyWidth f.ty
        let new := leBytes size (atomFn f.ty (f.mod.toNat % 8) old (operand f.b) (operand f.c))
        let w : PendWrite :=
          { team := i, unit := 0, path := 0, lane := l, va := t.laneAddr l f.a, key := key l, bytes := new, asid := t.asid
            group := s.serial }
        let s1 := { s with serial := s.serial + 1, free := s.free + if full then 2 else 1 }.withCore t.core
          (·.fill ⟨base, readBytes s.mem base 64, 0, []⟩ (if full then Config.cacheVictim (s.free + 1) else 0))
        let u := if Holds s t then { t with staged := t.staged ++ [.write w] } else t
        let s2 := { s1 with writes := if Holds s t then s.writes else s.writes ++ [w] }
        CompletesPaged (.memAtom f) s i (s2.delivered i u f.la
          (resultsAt l (tyWide f.ty) f.d (extendTo (tySigned f.ty) (tyWidth f.ty) old) 0) 0 0)))

/-- mem.fence and mem.xfence go on when nothing they order is outstanding and wait until then; one that
orders loads at device scope or beyond has the team's later loads served at the slices, and at team
scope, by the model's choice (log 20), a mem.xfence has them find no line of the cache that was
filled before. In a deterministic launch the order they give stands among what is staged.
mem.publish raises its window's version once no write of the team to the window is outstanding; an
undefined window is PROTECT, and so, by the model's choice (log 20), is one of another address
space; its detail 0 is the model's. Clauses of the model's choosing: log 19, 20, 22. -/
def Obligations.FencesAndPublication : Prop :=
  ∀ (f : TForm) (s : State) (i : Nat) (t : Team), AtIssue s i t →
    let scope := f.mod.toNat % 4
    let kind := f.mod.toNat / 4 % 4
    (let waits := (kind ≠ 2 ∧ scope ≠ 0 ∧ s.lanesQuiet i = false) ∨ (kind ≠ 1 ∧ s.loadsQuiet i = false)
     (¬ waits → CompletesAs (.memFence f) s i
       (let s1 := if kind ≠ 1 ∧ scope ≠ 0 then s.acquire i else s
        if kind ≠ 2 ∧ scope ≠ 0 then fenced s1 i t 3 3 else s1)) ∧
     (waits → exec (.memFence f) s = .next (s.stand i { point := false }))) ∧
    (let acq := bitOf f.b.code 0 ∨ bitOf f.b.code 1
     let waits := s.pathsQuiet i f.a.code = false ∨ (acq ∧ s.loadsQuiet i = false)
     (¬ waits → CompletesAs (.memXfence f) s i
       (let s1 := if acq then (if scope = 0 then s.unsee t.core i else s.acquire i) else s
        fenced s1 i t f.a.code f.b.code)) ∧
     (waits → exec (.memXfence f) s = .next (s.stand i { point := false }))) ∧
    (Readable t f.a →
      let x := t.scalar (s.teamsOf t) f.a
      let n := x.toNat
      let refuses : Prop := Traps (.memPublish f) s i [{ t.record .protect 0 with ea := x }]
      (64 ≤ n ∨ SMap.find s.hearth.windows n = none → refuses) ∧
      (∀ win, n < 64 → SMap.find s.hearth.windows n = some win →
        (win.asid ≠ t.asid → refuses) ∧
        (win.asid = t.asid → s.writesInto i win = true → exec (.memPublish f) s = .next (s.stand i { point := false })) ∧
        (win.asid = t.asid → s.writesInto i win = false →
          let v := win.version + 1
          let s1 := s.store (hostKey win.versionAt) (leBytes 8 v.toNat) 0 0
          exec (.memPublish f) s = .next (((s1.withHearth fun h => { h with
            windows := SMap.put h.windows n { win with version := v } }).withTeam i fun u => u.putScalar f.d v).retire i))))

/-- mem.optab binds a checked copy of its table under a version that no other bind takes, refuses a
table with the check that fails and its byte, and unbinds for ZERO. That poison of the table's bytes
counts for nothing is the model's choice (log 20). Clauses of the model's choosing: log 20, 22. -/
def Obligations.OperatorTables : Prop :=
  ∀ (f : TForm) (s : State) (i : Nat) (t : Team) (key : Nat → Nat), AtIssue s i t →
    let n := f.mod.toNat % 8
    (f.a = .zero → CompletesAs (.memOptab f) s i (s.withSpace t.asid fun sp => { sp with bound := SMap.del sp.bound n })) ∧
    (∀ k, f.a = .s k → Readable t f.a →
      let a := t.scalar (s.teamsOf t) f.a
      let ps := pagePieces a.toNat 400
      let bytes := ps.flatMap fun p => s.ownBytes i s.serial (key p.1) p.2
      a.toNat % 16 = 0 → s.mortar = [] → s.mortarIn.any (·.team == i) = false → (∀ p ∈ ps, Mapped s i t (BitVec.ofNat 64 p.1) { r := true } (key p.1)) →
        (optabFail bytes = none → CompletesAs (.memOptab f) s i
          (({ s with serial := s.serial + 1 } : State).withSpace t.asid fun sp =>
            { sp with tables := SMap.put sp.tables s.serial bytes, bound := SMap.put sp.bound n s.serial })) ∧
        (∀ c o, optabFail bytes = some (c, o) →
          Traps (.memOptab f) s i [{ t.record .optab c with ea := a + BitVec.ofNat 64 o }]))

/-- mem.opx sends one Mortar operation a lane, in one write unit, and its arrival counter gains one when
all are accepted or answered. In a deterministic launch the operations of STORE and COMBINE slots
are staged, and the counter gains one at once. That the table bound now serves every team, one
without an acquire since the bind among them, is the model's choice (log 21). Clauses of the model's
choosing: log 21. -/
def Obligations.MortarRequests : Prop :=
  ∀ (f : TForm) (s : State) (i : Nat) (t : Team) (key : Nat → Nat), AtIssue s i t → t.FirstIssue → t.UnitsIssued →
    (∀ o ∈ t.ops, o.ident ≠ s.serial) → Unpoisoned t f.km [addrUse f.a, (f.c, 1)] →
    (∀ l ∈ t.lanesOf f.km.val, SlotGood f s i t key l) →
      let ms := (t.lanesOf f.km.val).map (laneOp f s i t key)
      let op : Op := { ident := s.serial, counter := some (f.mod.toNat % 16), mortar := ms.length }
      let u := t.openUnit ms.length
      (Holds s t = false → CompletesPaged (.memOpx f) s i
        { s.withTeam i fun _ => if ms = [] then u.bumpA (f.mod.toNat % 16) else { u with ops := t.ops ++ [op] } with
          mortarIn := s.mortarIn ++ ms, serial := s.serial + 1 }) ∧
      (Holds s t = true → UnitRoom s t → (∀ m ∈ ms, m.kind ≠ 0) → CompletesPaged (.memOpx f) s i
        { s.withTeam i fun _ => { u with
            staged := t.staged ++ ms.map fun (m : MortarOp) => Effect.mortar { m with op := 0 } }.bumpA (f.mod.toNat % 16) with
          serial := s.serial + 1 })

/-- Composing two entries of the Mortar, and cancelling one, change no value that memory comes to hold:
integer types, one function, a STORE or a COMBINE followed by a COMBINE. -/
def Obligations.MortarComposition : Prop :=
  ∀ (s : State) (e b : MortarOp) (slot w : Nat), e.ty < 4 → b.ty = e.ty → e.size = slotSize e.ty → b.size = e.size →
    e.kind = 1 ∨ e.kind = 2 → b.kind = 2 → (e.kind = 2 → b.fn = e.fn) → e.fn ≤ 5 → b.fn ≤ 5 → w < 2 ^ (8 * e.size) →
    let d := slotOf (SMap.val (s.space b.asid).tables [] b.version) slot
    d.1 = e.kind → (e.kind = 2 → d.2.2.1 = e.fn) →
      (s.compose e b slot).apply w = b.apply (e.apply w) ∧ (b.isIdentity = true → b.apply w = w)

/-- A Mortar queue: an operation that finds nothing pending on its word is placed, or, a LOAD, answered
from memory; a drained entry is applied to its word and to nothing else. -/
def Obligations.MortarQueues : Prop :=
  ∀ (s : State) (m : MortarOp),
    (∀ (index : Nat) (rest : List MortarOp), s.mortarIn[index]? = some m → s.behindOwn index m = false →
      s.mortarIn.eraseIdx index = rest → entriesOf s.mortar m = [] →
      let s1 := { s with mortarIn := rest }
      (m.kind ≠ 0 → s.queueFull m.key = false → exec (.mortarArrival index) s =
        .next (({ s1 with mortar := s.mortar ++ [m] }.ackOp m.team m.op).ackUnit m.team m.unit)) ∧
      (m.kind = 0 → exec (.mortarArrival index) s =
        .next ((s1.answer m (leNat (readBytes s.mem m.key m.size)) (s.poisonAt m.key)).ackUnit m.team m.unit))) ∧
    (∀ rest, s.mortar = m :: rest → m.kind ≠ 0 → m.gathers = false → 0 < m.size → (∀ e ∈ rest, meets e.key e.size m.key m.size = false) →
      LoadsWait rest →
      ∃ s' : State, exec (.mortarDrain m.key m.size) s = .next s' ∧ s'.mortar = rest ∧ s'.teams = s.teams ∧ s'.writes = s.writes ∧
        (let new := leBytes m.size (m.apply (leNat (readBytes s.mem m.key m.size)))
         ∀ x, readByte s'.mem x =
          if m.key ≤ x ∧ x < m.key + m.size then new.getD (x - m.key) 0 else readByte s.mem x))

/-- A slice accepts a write: its bytes, and no other, change in memory, and its unit owes one operation
less. A host write waits in pieces that each lie in one burst of 64 bytes, at the keys of its
addresses and with its bytes; one past the end of memory, by the model's choice (log 15), has no
effect. Clauses of the model's choosing: log 12, 15. -/
def Obligations.SliceWrites : Prop :=
  (∀ (s : State) (index : Nat) (w : PendWrite), s.writes[index]? = some w → s.mustWait index w = false → s.mortar = [] →
    (∀ e, expanderOf w.key = some e → (SMap.val s.hearth.expanders {} e).state ≠ 2) →
      ∃ s' : State, exec (.sliceWriteAccept index) s = .next (s'.ackUnit w.team w.unit) ∧
        s'.writes = s.writes.eraseIdx index ∧ s'.teams = s.teams ∧
        ∀ x, readByte s'.mem x =
          if w.key ≤ x ∧ x < w.key + w.bytes.length then w.bytes.getD (x - w.key) 0 else readByte s.mem x) ∧
  (∀ (s : State) (addr : Nat) (data : List Byte) (poisoned : Bool),
    let bursts := pieces 64 (data.length / 64 + 2) addr data.length
    let part (p : Nat × Nat) : List Byte := (data.drop (p.1 - addr)).take p.2
    let write (p : Nat × Nat) : PendWrite :=
      { team := 0, unit := 0, path := 7, key := s.deviceKey p.1, bytes := part p, asid := 0, group := s.serial
        poisoned := poisoned }
    (∀ p ∈ bursts, addr ≤ p.1 ∧ 0 < p.2 ∧ p.1 % 64 + p.2 ≤ 64 ∧ (part p).length = p.2) ∧ bursts.flatMap part = data ∧
    (addr + data.length ≤ 2 ^ 39 → exec (.hostTlpWrite addr data poisoned) s =
      .next { s with writes := s.writes ++ bursts.map write, serial := s.serial + 1 }) ∧
    (2 ^ 39 < addr + data.length → exec (.hostTlpWrite addr data poisoned) s = .next s))

namespace Sys2Proof.Claims

/-! ## Copies and queue registers -/

/-- A team after it has taken its next handle: sequence numbers skip 0 (R199). -/
def handleTaken (t : Team) : Team := { t with copySeq := if t.copySeq + 1 = 0 then 1 else t.copySeq + 1 }

/-- Offset, and size in the unit given, of a copy's B operand (R199). -/
def copyOff (x : Word) : Nat := x.toNat % 2 ^ 32
/-- Its size. -/
def copySize (x : Word) (unit : Nat) : Nat := x.toNat / 2 ^ 32 * unit

/-- A range of scratchpad a copy may name: in lines, and inside the allocation (R199). -/
def CopyRange (s : State) (t : Team) (off n : Nat) : Prop := off % 128 = 0 ∧ n % 128 = 0 ∧ off + n ≤ s.scratchOf t

/-- A state whose allocation has the lines of a range empty as well (R193). -/
def emptied (s : State) (t : Team) (off n : Nat) : State :=
  s.withAlloc t.core t.launch fun a =>
    { a with empties := (linesOf off n).foldl (fun es l => if es.contains l then es else es ++ [l]) a.empties }

/-- The collective that a contribution is for (R200). -/
def joins (t : Team) (key mem : Nat) (k : Coll) : Bool := decide (k.launch = t.launch) && k.key == key && k.mem == mem

/-- The forming collectives of a core with one more slice. -/
def withSlice (t : Team) (key mem : Nat) (x : Slice) (ks : List Coll) : List Coll :=
  if ks.any (joins t key mem) then ks.map fun k => if joins t key mem k then { k with slices := k.slices ++ [x] } else k
  else ks ++ [{ launch := t.launch, key := key, mem := mem, slices := [x] }]

/-- A copy that a team starts, with what all of them share. -/
def copyOf (i : Nat) (t : Team) (kind : Nat) (f : TForm) : Copy :=
  { team := i, handles := [(i, t.copySeq.toNat)], kind := kind, core := t.core, launch := t.launch, asid := t.asid,
    timeline := t.timeline, adv := f.mod.getLsbD 0, stamp := t.now, pairs := t.holds, order := 0 }

/-- A copy added under the next number, its place in the team's program order. -/
def started (s : State) (c : Copy) : State :=
  { s with copies := SMap.put s.copies s.serial { c with order := s.serial }, serial := s.serial + 1 }

/-- The counts of a copy taken off again. -/
def uncounted (s : State) (c : Copy) : State :=
  c.pairs.foldl (fun s h => s.dropCount c.asid c.timeline h.loc h.stamp) s

/-- What a team's copy reads of a burst: memory, with the team's own staged bytes over it where the launch is
deterministic (R291). -/
def copyBytes (s : State) (c : Copy) (k : Word × Nat × Nat) : List Byte :=
  s.ownBytes c.team c.order k.2.1 k.2.2

/-- The writes of a copy: its bursts take their bytes in order. -/
def copyWrites (c : Copy) : List (Word × Nat × Nat) → List Byte → List PendWrite
  | [], _ => []
  | k :: ks, bs =>
    { team := c.team, unit := c.unit.getD 0, path := 2, va := k.1, key := k.2.1, bytes := bs.take k.2.2, asid := c.asid,
      group := c.order, part := c.part } :: copyWrites c ks (bs.drop k.2.2)

/-- A state in which these writes wait for their slices, or stand before the copy's own mark at the ticket unit
(R291); each is one more operation of the copy's unit. -/
def copyIssues (s : State) (c : Copy) (ws : List PendWrite) : State :=
  let s1 := ws.foldl (fun s w => s.owe c.team w.unit) s
  if c.held then s1.withTeam c.team fun t => { t with staged := ws.foldl (fun es w => stageAhead c.order w es) t.staged }
  else { s1 with writes := s.writes ++ ws }

/-- A copy gone with its counts, its unit one operation nearer to its end. -/
def copyLeaves (s : State) (id : Nat) (c : Copy) : State :=
  let s1 := uncounted (s.removeCopy id) c
  match c.unit with | some u => s1.ackUnit c.team u | none => s1

/-- Places of an endpoint that a team may fill: 64 words of a copy engine, 32 of the matrix command stream, 16
of a Sill unit, the slots of a ring, and what its tasks leave of 160 words at a location (R205). -/
def placesOf (s : State) (i : Nat) (t : Team) (b : QBind) : Nat :=
  match b.kind with
  | 1 => 64 - (4 * s.waitingOn b.ident + b.words.length)
  | 2 => 32 - t.mxq.length
  | 3 => if s.sillMine b.ident i then 16 - (s.sill b.ident).inq.length else 0
  | 4 => match s.ringAt t.asid (BitVec.ofNat 64 b.ident) with | some r => r.2.slots - r.2.queue.length | none => 0
  | _ =>
    let mine := s.pushed.filter fun k => k.2.asid == t.asid && k.2.loc == b.ident && k.2.kind == 1
    min (if s.gatherRoom (clusterOf t.core) then 160 else 4) (160 - 5 * mine.length) - b.words.length

/-- A team that keeps these words of an incomplete command. -/
def keeping (n : Nat) (ws : List Word) (u : Team) : Team :=
  { u with q := SMap.alter u.q n fun b => { b with words := ws } }

/-- A team with a further unit that has its operation outstanding. -/
def furtherUnit (t : Team) : Team := { t with issued := t.issued + 1, undrained := t.undrained ++ [(t.issued + 1, 1)] }

/-- A copy command's copy: source, destination, length and completion word (R205). -/
def commandOf (s : State) (i : Nat) (t : Team) (engine : Nat) (a d len done : Word) : Copy :=
  { team := i, handles := [], kind := 3, core := t.core, launch := t.launch, asid := t.asid, timeline := t.timeline,
    runs := [(a, 0, len.toNat % 2 ^ 40)], dst := d, done := done, engine := some engine, unit := some (t.issued + 1),
    stamp := t.now, pairs := t.holds, held := Holds s t, order := 0 }

/-- A copy engine takes a word: the fourth completes a command, which starts (R205). -/
def PushesCopy (s : State) (i : Nat) (t : Team) (n : Nat) (b : QBind) (x : Word) (s' : State) : Prop :=
  (b.words.length < 3 ∧ s' = s.withTeam i fun _ => keeping n (b.words ++ [x]) t) ∨
  ∃ (w0 w1 w2 : Word) (s1 : State), b.words = [w0, w1, w2] ∧ t.UnitsIssued ∧ UnitRoom s t ∧
    s.countPairs t.core t.asid t.timeline t.holds = some s1 ∧
    let u := keeping n [] (furtherUnit t)
    s' = (started s1 (commandOf s i t b.ident w0 w1 w2 x)).withTeam i fun _ =>
      if Holds s t then { u with staged := t.staged ++ [.copy s1.serial] } else u

/-- A matrix command stream takes a word that is one: it is executed at once where nothing stands before it
and it need not wait, else it takes a place (R205). -/
def PushesMatrix (s : State) (i : Nat) (t : Team) (x : Word) (s' : State) : Prop :=
  ∃ a, Act.go (mxWord x) s = (.ok a, s) ∧ s.mxGo i = s ∧
    let r := t.record .encoding 0
    let w : MxWord := { word := x, clause := r.clause, index := r.index }
    (t.mxq ≠ [] ∧ s' = s.withTeam i fun _ => { t with mxq := t.mxq ++ [w] }) ∨
    (t.mxq = [] ∧ (s.mxRun i w = (.ok (), s') ∨ ∃ (k : Block) (s1 : State), s.mxRun i w = (.error (.block k), s1) ∧
      s' = s1.withTeam i fun u => { u with mxq := u.mxq ++ [{ w with rids := k.rids }] }))

/-- A push to a ring is staged with the place of its instruction in the team's program order (R291). -/
def stagesPush (s : State) (i : Nat) (t : Team) (id loc : Nat) (y : RingSlot) : State :=
  let g := t.groupNow.getD s.serial
  { s with serial := s.serial + if t.groupNow = none then 1 else 0 }.withTeam i fun _ =>
    { t with staged := t.staged ++ [Effect.push id loc g y], groupNow := some g }

/-- A ring takes a word as a slot, counted where the pusher is (R205, R269). -/
def PushesRing (s : State) (i : Nat) (t : Team) (b : QBind) (x : Word) (s' : State) : Prop :=
  ∃ (id : Nat) (r : Ring) (s1 : State), s.ringAt t.asid (BitVec.ofNat 64 b.ident) = some (id, r) ∧
    SMap.find s.rings id = some r ∧ clusterOf r.core = clusterOf t.core ∧
    t.covers (s.space t.asid) r.loc t.now = true ∧ s.addCount (some t.core) t.asid t.timeline r.loc t.now = some s1 ∧
    let y : RingSlot :=
      { bytes := (leBytes 8 x.toNat ++ zeros r.slotSize).take r.slotSize, stamp := t.now, timeline := t.timeline,
        eos := false, producer := i, drain := t.issued }
    s' = if Holds s t then stagesPush s1 i t id r.loc y else s1.ringPush id y

/-- A location takes a word: the fifth completes a task at NOW (R205). -/
def PushesTask (s : State) (i : Nat) (t : Team) (n : Nat) (b : QBind) (x : Word) (s' : State) : Prop :=
  (b.words.length < 4 ∧ s' = s.withTeam i fun _ => keeping n (b.words ++ [x]) t) ∨
  ∃ (w0 w1 w2 w3 : Word) (s1 : State), b.words = [w0, w1, w2, w3] ∧ t.UnitsIssued ∧ UnitRoom s t ∧ w0.toNat % 128 = 0 ∧
    b.ident ≤ 4095 ∧ t.now.length ≤ t.desc.tdepth ∧ t.covers (s.space t.asid) b.ident t.now = true ∧
    (Holds s t = false → s.gatherRoom (clusterOf t.core) = true) ∧
    s.addCount (some t.core) t.asid t.timeline b.ident t.now = some s1 ∧
    let k : Task :=
      { kind := 1, desc := w0.toNat, loc := b.ident, stamp := t.now, record := [w1, w2, w3, x], launch := t.launch,
        asid := t.asid, timeline := t.timeline, pusher := i, unit := t.issued + 1 }
    let u := keeping n [] (furtherUnit t)
    s' = if Holds s t then s1.withTeam i fun _ => { u with staged := t.staged ++ [.task k] }
      else { s1.withTeam i fun _ => u with pushed := s.pushed ++ [(clusterOf t.core, k)] }

/-- A push of a word to a queue register that has room gives `s'`. In a deterministic launch what a push stages
needs none (R291). -/
def Pushes (s : State) (i : Nat) (n : Nat) (x : Word) (s' : State) : Prop :=
  ∃ (t : Team) (b : QBind), SMap.find s.teams i = some t ∧ t.bound n = some b ∧
    (0 < placesOf s i t b ∨ Holds s t = true ∧ b.kind ≠ 2 ∧ b.kind ≠ 3) ∧
    (b.kind = 1 ∧ PushesCopy s i t n b x s' ∨ b.kind = 2 ∧ PushesMatrix s i t x s' ∨
      b.kind = 3 ∧ s' = (s.withSill b.ident fun u => { u with inq := u.inq ++ [x] }) ∨
      b.kind = 4 ∧ PushesRing s i t b x s' ∨ b.kind = 5 ∧ PushesTask s i t n b x s')

/-- Words pushed one after the other give `s'`. -/
def PushesAll (i n : Nat) : List Word → State → State → Prop
  | [], s, s' => s' = s
  | x :: xs, s, s' => ∃ s1, Pushes s i n x s1 ∧ PushesAll i n xs s1 s'

/-- A pop of a ring's head slot gives its first 8 bytes, and its count retires (R206, R270). -/
def PopsRing (s : State) (i : Nat) (t : Team) (b : QBind) (w : Word) (s' : State) : Prop :=
  ∃ (id : Nat) (r : Ring) (x : RingSlot) (rest : List RingSlot),
    s.ringAt t.asid (BitVec.ofNat 64 b.ident) = some (id, r) ∧ SMap.find s.rings id = some r ∧ r.core = t.core ∧
    r.queue = x :: rest ∧ (s.team x.producer).covered x.drain = true ∧
    w = BitVec.ofNat 64 (leNat ((s.headBytes id).take 8)) ∧
    let s1 := { s with rings := SMap.alter s.rings id fun r => { r with head := r.head + 1, queue := rest } }
    s' = (s1.dropCount r.asid x.timeline r.loc x.stamp).acquire i

end Sys2Proof.Claims

/-- The copy instructions. cp.gath and cp.put start a copy of their own, cp.coll contributes a slice
that starts with the last of its collective; each empties the lines it fills, counts at the team's
pairs and gives the team's next handle. cp.wait goes on when the copy it names is complete; cp.yield
leaves the clause for its target then. Clauses of the model's choosing: log 17, 22. -/
def Obligations.CopyInstructions : Prop :=
  ∀ (f : TForm) (b : BForm) (s s1 : State) (i : Nat) (t : Team), AtIssue s i t → t.FirstIssue →
    Readable t f.a → Readable t f.b → Readable t f.c →
    s.countPairs t.core t.asid t.timeline t.holds = some s1 →
    let v := t.scalar (s.teamsOf t)
    let idle := (t.lanesOf f.km.val).isEmpty
    let h := BitVec.ofNat 64 t.copySeq.toNat
    let gives (s : State) (u : Team) : State := s.withTeam i fun _ => (handleTaken u).putScalar f.d h
    (let m := f.mod.toNat / 2 % 16 + 1
     let off := copyOff (v f.b)
     let n := copySize (v f.b) (128 * m)
     let rows := (List.range ((v f.b).toNat / 2 ^ 32)).map fun j =>
       (v f.c + BitVec.ofNat 64 (4 * j), off + 128 * m * j, 128 * m)
     (idle = true → CompletesAs (.cpGath f) s i (gives s t)) ∧
     (idle = false → (v f.a).toNat % 128 = 0 → CopyRange s t off n → n ≠ 0 → (s.copiesOf i).length < 16 →
       s.filling t off n = false →
         CompletesAs (.cpGath f) s i (gives (started (emptied s1 t off n)
           { copyOf i t 1 f with rows := rows, dst := v f.a, lines := linesOf off n }) t)) ∧
     (idle = false → (v f.a).toNat % 128 = 0 → CopyRange s t off n → n = 0 → (s.copiesOf i).length < 16 →
         CompletesAs (.cpGath f) s i (gives (uncounted s1 (copyOf i t 1 f)) t))) ∧
    (let off := copyOff (v f.b)
     let n := copySize (v f.b) 1
     t.UnitsIssued → UnitRoom s t →
       (idle = true → CompletesAs (.cpPut f) s i (gives s (t.openUnit 0))) ∧
       (idle = false → CopyRange s t off n → (s.copiesOf i).length < 16 →
         let u := t.openUnit 1
         (n ≠ 0 → CompletesAs (.cpPut f) s i (gives (started s1
           { copyOf i t 2 f with runs := [(v f.a, off, n)], unit := some u.issued, held := Holds s t })
           (if Holds s t then { u with staged := t.staged ++ [.copy s1.serial] } else u))) ∧
         (n = 0 → CompletesAs (.cpPut f) s i (gives (uncounted s1 (copyOf i t 2 f)) (t.openUnit 0))))) ∧
    (let g := (v f.c).toNat
     let idx := g / 2 ^ 8 % 8
     let key := g / 2 ^ 16 % 2 ^ 16
     let mem := Nat.lor (g % 2 ^ 8) (2 ^ idx)
     let off := if idle then 0 else copyOff (v f.b)
     let n := if idle then 0 else copySize (v f.b) 1
     let x : Slice :=
       { idx := idx, team := i, handle := t.copySeq.toNat, src := if idle then 0 else v f.a, off := off, size := n,
         adv := f.mod.getLsbD 0, stamp := t.now, pairs := t.holds, order := s1.serial }
     g / 2 ^ 11 % 2 ^ 5 = 0 → CopyRange s t off n → (s.copiesOf i).length < 16 → s.filling t off n = false →
     (s.core t.core).colls.length < 16 →
     (∀ k ∈ (s.core t.core).colls, joins t key mem k = true → k.slices.any (·.idx == idx) = false) →
       let s2 := { (emptied s1 t off n).withTeam i fun _ => handleTaken t with serial := s1.serial + 1 }
       let s3 := (s2.withCore t.core fun c => { c with colls := withSlice t key mem x c.colls }).startColls t.core
       CompletesAs (.cpColl f) s i (s3.withTeam i fun u => u.putScalar f.d h)) ∧
    (s.copyDone i (f.mod.getLsbD 0) (v f.a).toNat = true → Completes (.cpWait f) s i t) ∧
    (s.copyDone i (f.mod.getLsbD 0) (v f.a).toNat = false → exec (.cpWait f) s = .next (s.stand i {})) ∧
    (Readable t b.d →
      let all := decide (b.d = .zero)
      Completes (.cpYield b) s i { t with
        after := some (if s.copyDone i all (v b.d).toNat then .jump (branchTarget t b)
          else .yield (if all then 0 else (v b.d).toNat) (branchTarget t b)) })

/-- What a copy does. A piece of a fill lands in its line, which becomes full; a piece of a put or of a
copy command goes to memory as writes of its unit; a gather reads the index of a row. When all of it
has moved and been accepted the copy leaves, its counts retire and its unit owes one less, and a
command's completion word gains 1. Under adv it stops at 64 KiB boundaries, takes its team's stamp
and counts there, and owes its old counts for what it has moved. A deterministic team's copies find
its own staged bytes (log 22). Clauses of the model's choosing: log 17, 22. -/
def Obligations.CopyMovement : Prop :=
  ∀ (s : State) (id : Nat) (c : Copy), SMap.find s.copies id = some c → s.mortar = [] →
    (∀ (chunk n off : Nat) (a : Word) (rest ks : List (Word × Nat × Nat)) (s2 : State), s.copyMoves id c = true →
      takeChunk c.runs chunk = some ((a, off, n), rest) →
      (c.kind < 2 → (c.kind = 0 → s.sourceUnread c off n = false) →
        Act.go (c.keys a n { r := true }) s = (.ok ks, s2) → (∀ k ∈ ks, s2.poisonAt (k.2.1 / 8 * 8) = 0) →
          exec (.copyLineFilled id chunk) s = .next
            (((s2.withAlloc c.core c.launch fun al =>
                let w := al.write off (ks.flatMap (copyBytes s2 c))
                { w with empties := w.empties.erase (off / 128) }).withCopy id fun c =>
              { c.advanced n rest c.rows with lines := c.lines.erase (off / 128) }).flushReturns c.team)) ∧
      (c.kind = 2 → Act.go (c.keys a n { w := true }) s = (.ok ks, s2) →
        ∀ al, (s.core c.core).allocs.find? (fun al => decide (al.launch = c.launch)) = some al →
          ((linesOf off n).all fun l => s.lineReadable c al l) = true → al.poisonIn off n = 0 →
            exec (.copyLineFilled id chunk) s = .next
              (((copyIssues s2 c (copyWrites c ks (al.read off n))).withCopy id fun c =>
                c.advanced n rest c.rows).flushReturns c.team)) ∧
      (c.kind = 3 → Act.go (c.keys a n { r := true }) s = (.ok ks, s2) → (∀ k ∈ ks, s2.poisonAt k.2.1 = 0) →
        ∀ (kd : List (Word × Nat × Nat)) (s3 : State),
          Act.go (c.keys (after c.dst off) n { w := true }) s2 = (.ok kd, s3) →
            exec (.copyLineFilled id chunk) s = .next
              (((copyIssues s3 c (copyWrites c kd (ks.flatMap fun k => readBytes s2.mem k.2.1 k.2.2))).withCopy id fun c =>
                c.advanced n rest c.rows).flushReturns c.team))) ∧
    (∀ (j off n : Nat) (a : Word) (ks : List (Word × Nat × Nat)) (s2 : State), c.kind = 1 → s.copyMoves id c = true →
      c.rows[j]? = some (a, off, n) → Act.go (c.keys a 4 { r := true }) s = (.ok ks, s2) →
      (∀ k ∈ ks, s2.poisonAt (k.2.1 / 8 * 8) = 0) →
        exec (.copyLineFilled id (chunksLeft c.runs + j)) s = .next ((s2.withCopy id fun c =>
          { c with
            runs := c.runs ++ [(after c.dst (leNat (ks.flatMap (copyBytes s2 c)) * n), off, n)]
            rows := c.rows.eraseIdx j }).flushReturns c.team)) ∧
    (c.held = false → s.copyMoves id c = true → s.copySettled id c = true →
      (c.done = 0 → exec (.copyComplete id) s = .next ((copyLeaves s id c).flushReturns c.team)) ∧
      (∀ (k : Nat) (s2 : State), c.done ≠ 0 → c.done.toNat % 4096 ≤ 4088 →
        Act.go (c.reach c.done { r := true, w := true }) s = (.ok k, s2) → s2.copyBehind c [(k, 8)] = false →
          let old := leNat (readBytes s2.mem k 8)
          let new := leBytes 8 (old + if c.failed then 2 ^ 63 + 1 else 1)
          exec (.copyComplete id) s = .next ((copyLeaves (s2.store k new c.asid c.order) id c).flushReturns c.team))) ∧
    (∀ s1, c.restamp = true →
      let t := s.team c.team
      t.place ≠ .ended → s.countPairs (c.core % 160) c.asid c.timeline t.holds = some s1 →
        exec (.copyRestamp id) s = .next
          ((c.pairs.foldl (fun s h => s.owes c.asid ⟨c.timeline, h.loc, h.stamp, 1, .moved id c.part⟩) s1).withCopy id fun c =>
            { c with restamp := false, stamp := t.now, pairs := t.holds, part := c.part + 1 })) ∧
    (c.restamp = true → (s.team c.team).place = .ended →
      exec (.copyRestamp id) s = .next (s.withCopy id fun c => { c with restamp := false }))

/-- Queue registers. q.bind binds an endpoint that exists. A scalar q.put pushes one word and a scalar
q.take pops one, the lane forms push and pop in lane order, to endpoints of every KIND: copy
engines, the matrix stream, Sill units, rings and locations. A full queue or an empty one is a
blocking point, a KIND that cannot be popped is QSTALL detail 4 and an unbound register detail 3.
q.try does it only where it need not wait, and q.len says how many words stand on either side.
Clauses of the model's choosing: log 18, 22. -/
def Obligations.QueueInstructions : Prop :=
  ∀ (f : TForm) (s : State) (i : Nat) (t : Team) (n : Nat), AtIssue s i t → t.FirstIssue →
    Unpoisoned t f.km [(f.a, 2)] → Readable t f.a ∨ (∃ q, f.a = .q q) → Readable t f.b →
    let v := t.scalar (s.teamsOf t)
    let lanes := t.lanesOf f.km.val
    let b0 := f.mod.getLsbD 0
    (queueOf f.d = n → Readable t f.a → t.bound n = none →
      let x := (v f.a).toNat
      (x < 2 ^ 57 → Completes (.qBind f) s i { t with q := SMap.del t.q n }) ∧
      (∀ kind ident, x = kind * 2 ^ 60 + ident →
        (kind = 1 ∧ ident ≤ 23) ∨ (kind = 2 ∧ ident = 0) ∨ (kind = 3 ∧ ident ≤ 511) ∨ (kind = 5 ∧ ident ≤ 4095) →
          Completes (.qBind f) s i { t with q := SMap.put t.q n { kind := kind, ident := ident } }) ∧
      (∀ id r, x = 4 * 2 ^ 60 + id → id < 2 ^ 56 → id % 32 = 0 → s.ringAt t.asid (BitVec.ofNat 64 id) = some r →
        clusterOf r.2.core = clusterOf t.core →
          Completes (.qBind f) s i { t with q := SMap.put t.q n { kind := 4, ident := id } }) ∧
      (6 * 2 ^ 60 ≤ x → Traps (.qBind f) s i [t.record .qstall 5])) ∧
    (queueOf f.d = n → lanes ≠ [] →
      (∀ s', Readable t f.a → (∀ r, f.a ≠ .v r) → Pushes s i n (v f.a) s' → CompletesAs (.qPut f) s i s') ∧
      (∀ s', (∃ r, f.a = .v r) → PushesAll i n (lanes.map fun l => t.lsrc 0 l b0 f.a) s s' → CompletesAs (.qPut f) s i s') ∧
      (∀ b, Readable t f.a → (∀ r, f.a ≠ .v r) → t.bound n = some b → placesOf s i t b = 0 →
        (b.kind = 1 ∧ Holds s t = false) ∨ b.kind = 3 ∨ (b.kind = 5 ∧ Holds s t = false) →
          exec (.qPut f) s = .next (s.stand i { detail := 1 })) ∧
      (∀ b a, Readable t f.a → (∀ r, f.a ≠ .v r) → t.bound n = some b → b.kind = 2 → placesOf s i t b = 0 →
        Act.go (mxWord (v f.a)) s = (.ok a, s) → s.mxGo i = s →
          exec (.qPut f) s = .next (s.stand i { detail := 1 })) ∧
      (Readable t f.a → (∀ r, f.a ≠ .v r) → t.bound n = none → Traps (.qPut f) s i [t.record .qstall 3])) ∧
    (∀ chan, queueOf f.d = n → t.bound n = some { kind := 3, ident := chan } → s.sillMine chan i = true → lanes ≠ [] →
      let room (m : Nat) : Prop := (s.sill chan).inq.length + m ≤ 16
      let pushed (xs : List Word) : State := s.withSill chan fun u => { u with inq := u.inq ++ xs }
      (Readable t f.a → (∀ r, f.a ≠ .v r) → room 1 → CompletesAs (.qPut f) s i (pushed [v f.a])) ∧
      ((∃ r, f.a = .v r) → room lanes.length → CompletesAs (.qPut f) s i (pushed (lanes.map fun l => t.lsrc 0 l b0 f.a))) ∧
      (16 ≤ (s.sill chan).inq.length → Readable t f.a → (∀ r, f.a ≠ .v r) →
        exec (.qPut f) s = .next (s.stand i { detail := 1 }))) ∧
    (∀ chan, queueOf f.a = n → t.bound n = some { kind := 3, ident := chan } → lanes ≠ [] →
      let ws := s.sillWords chan i
      let took (m : Nat) : State := (List.range m).foldl (fun s _ => s.sillTake chan i) s
      (∀ x rest, ws = x :: rest → (∀ r, f.d ≠ .v r) →
        CompletesAs (.qTake f) s i ((took 1).withTeam i fun _ => t.putScalar f.d x)) ∧
      ((∃ r, f.d = .v r) → lanes.length ≤ ws.length →
        CompletesAs (.qTake f) s i ((took lanes.length).withTeam i fun _ =>
          (lanes.zip ws).foldl (fun u p => u.ldst p.1 b0 f.d p.2) t)) ∧
      (ws = [] → (∀ r, f.d ≠ .v r) → exec (.qTake f) s = .next (s.stand i { detail := 2 })) ∧
      (∀ k, b0 = false → f.d = .s k →
        (∀ x rest, ws = x :: rest → CompletesAs (.qTry f) s i ((took 1).withTeam i fun _ => (t.setS k x).setS (k + 1) 1)) ∧
        (ws = [] → Completes (.qTry f) s i ((t.setS k 0).setS (k + 1) 0)))) ∧
    (∀ b, queueOf f.a = n → t.bound n = some b → lanes ≠ [] →
      (∀ w s', b.kind = 4 → PopsRing s i t b w s' →
        ((∀ r, f.d ≠ .v r) → CompletesAs (.qTake f) s i (s'.withTeam i fun u => u.putScalar f.d w)) ∧
        (∀ r l, f.d = .v r → lanes = [l] → CompletesAs (.qTake f) s i (s'.withTeam i fun u => u.ldst l b0 f.d w)) ∧
        (∀ k, b0 = false → f.d = .s k →
          CompletesAs (.qTry f) s i (s'.withTeam i fun u => (u.setS k w).setS (k + 1) 1))) ∧
      (∀ id r, b.kind = 4 → s.ringAt t.asid (BitVec.ofNat 64 b.ident) = some (id, r) → SMap.find s.rings id = some r →
        r.core = t.core → r.queue = [] →
          ((∀ v, f.d ≠ .v v) → exec (.qTake f) s = .next (s.stand i { detail := 2 })) ∧
          (∀ k, b0 = false → f.d = .s k → Completes (.qTry f) s i ((t.setS k 0).setS (k + 1) 0))) ∧
      (b.kind = 1 ∨ b.kind = 2 ∨ b.kind = 5 →
        ((∀ r, f.d ≠ .v r) → Traps (.qTake f) s i [t.record .qstall 4]) ∧
        (b0 = false → Traps (.qTry f) s i [t.record .qstall 4]))) ∧
    (∀ b, queueOf f.a = n → t.bound n = some b →
      let ready := match b.kind with
        | 3 => (s.sillWords b.ident i).length
        | 4 => match s.ringAt t.asid (BitVec.ofNat 64 b.ident) with
          | some r => (r.2.queue.takeWhile fun x => (s.team x.producer).covered x.drain).length
          | none => 0
        | _ => 0
      Completes (.qLen f) s i (t.putScalar f.d (BitVec.ofNat 64 (ready + placesOf s i t b * 2 ^ 32))) ∧
      (∀ s', b0 = true → Pushes s i n (v f.b) s' → CompletesAs (.qTry f) s i (s'.withTeam i fun u => u.putScalar f.d 1)) ∧
      (b0 = true → placesOf s i t b = 0 →
        (b.kind = 1 ∧ Holds s t = false) ∨ (b.kind = 2 ∧ (∃ a, Act.go (mxWord (v f.b)) s = (.ok a, s)) ∧ s.mxGo i = s) ∨
          b.kind = 3 ∨ (b.kind = 5 ∧ Holds s t = false) →
          Completes (.qTry f) s i (t.putScalar f.d 0))) ∧
    (lanes = [] → Completes (.qPut f) s i t ∧ Completes (.qTake f) s i t) ∧
    (queueOf f.a = n → t.bound n = none → Completes (.qLen f) s i (t.putScalar f.d 0) ∧ Traps (.qTry f) s i [t.record .qstall 3])

namespace Sys2Proof.Claims

/-! ## Logical time, rings and tasks -/

/-- A team after a write of the register behind a scalar destination. -/
def putAt (t : Team) (r : Reg) (i : Nat) (x : Word) : Team := match r with | .s n => t.setS (n + i) x | _ => t

/-- A team after a stamp has gone to two registers from one on (R250). -/
def putStamp (t : Team) (r : Reg) (i : Nat) (st : Stamp) : Team :=
  putAt (putAt t r i (pairOf st).1) r (i + 1) (pairOf st).2

/-- The stamp a time operand names: NOW for ZERO, else the pair of two registers at the depth of MOD (R250). -/
def timeOf (t : Team) (r : Reg) (mod : BitVec 6) : Stamp :=
  match r with
  | .zero => t.now
  | .s n => stampOf (mod.toNat % 4 + 1) (t.getS n) (t.getS (n + 1))
  | _ => stampOf (mod.toNat % 4 + 1) 0 0

/-- `n` scalar registers from one on hold no POISON. -/
def ReadableFrom (t : Team) (r : Reg) (n : Nat) : Prop :=
  match r with
  | .s k => ∀ i < n, t.poisonS (k + i) = 0
  | .q _ => False
  | _ => True

/-- A pair that an instruction may name: a location below 4,096 and a depth up to TDEPTH (R262). -/
def PairGood (t : Team) (loc : Nat) (st : Stamp) : Prop := loc ≤ 4095 ∧ st.length ≤ t.desc.tdepth

/-- Counts of the holds at NOW taken at a new time, where the team holds none yet (R263). -/
def countedAt (s : State) (t : Team) (st : Stamp) : Option State :=
  (t.holds.filter fun h => h.stamp == t.now).foldl (fun o h => o.bind fun s =>
    s.addCount (some t.core) t.asid t.timeline h.loc st h.share) (some s)

/-- A team moved to a new time: the old counts are owed, the holds go along (R263). -/
def movedTo (s1 : State) (i : Nat) (t : Team) (st : Stamp) : State :=
  ((t.holds.filter fun h => h.stamp == t.now).foldl (fun s h => s.releaseHold i h) s1).withTeam i fun u =>
    { u with
      now := st
      holds := (t.holds.filter fun h => h.stamp != t.now) ++
        (t.holds.filter fun h => h.stamp == t.now).map fun h => { h with stamp := st } }

/-- No location is held twice, and nothing at a new time: the holds of a team that moves freely. -/
def MovesFreely (t : Team) (st : Stamp) : Prop :=
  0 < t.now.length ∧ (t.holds.map fun h => (h.loc, h.stamp)).Nodup ∧ ∀ h ∈ t.holds, h.stamp ≠ st ∧ h.share ≠ 0

/-- lt.adv by `k`, lt.enter and lt.leave: whether they may move, the new time, and the detail of TIMEUSE
where they may not (R263). -/
def moves (s : State) (t : Team) (f : TForm) : List (Instr × Bool × Stamp × Nat) :=
  let k := (t.scalar (s.teamsOf t) f.d).toNat
  (if k = 0 then [] else
    [(.ltAdv f, decide (t.now.getLastD 0 + k ≤ 0xFFFFFFFF), lastCoord (· + k) t.now, 3)]) ++
  [(.ltEnter f, decide (t.now.length < t.desc.tdepth), t.now ++ [0], 4),
   (.ltLeave f, decide (t.now.length ≠ 1), t.now.dropLast, 5)]

/-- The task that a tk.push sends (R272). -/
def taskOf (s : State) (i : Nat) (t : Team) (f : TForm) : Task :=
  let v := t.scalar (s.teamsOf t)
  { kind := 1, desc := (v f.d).toNat, loc := (v f.a).toNat, stamp := timeOf t f.c f.mod,
    record := match f.b with | .s n => (List.range 4).map fun k => t.getS (n + k) | _ => [0, 0, 0, 0],
    launch := t.launch, asid := t.asid, timeline := t.timeline, pusher := i, unit := t.issued + 1 }

/-- The slot that a tk.eq writes (R265, R269). -/
def slotOfPush (s : State) (i : Nat) (t : Team) (f : TForm) (r : Ring) : RingSlot :=
  let x := t.scalar (s.teamsOf t) f.a
  let bytes := if f.mod.getLsbD 1 then (s.allocOf t).read x.toNat r.slotSize else leBytes 8 x.toNat
  { bytes := (bytes ++ zeros r.slotSize).take r.slotSize, stamp := t.now, timeline := t.timeline, eos := f.mod.getLsbD 0,
    producer := i, drain := t.issued }

/-- What a tk.eq that copies a line needs of its offset (R269). -/
def SlotRange (s : State) (t : Team) (off n : Nat) : Prop :=
  off % 16 = 0 ∧ off + n ≤ s.scratchOf t ∧ (s.allocOf t).poisonIn off n = 0

end Sys2Proof.Claims

/-- The lt instructions: NOW as a pair; advance, enter and leave move the team and its holds; hold and
drop; wait and test against the frontier that the core knows; TIMEUSE with its detail where R262
says so. The −1 of a hold is released when its units have drained, and a core hears a frontier from
the root. Clauses of the model's choosing: log 21. -/
def Obligations.LogicalTime : Prop :=
  (∀ (f : TForm) (s : State) (i : Nat) (t : Team), AtIssue s i t →
    let v := t.scalar (s.teamsOf t)
    let sp := s.space t.asid
    Completes (.ltNow f) s i (putStamp t f.d 0 t.now) ∧
    (Readable t f.d → v f.d = 0 → Completes (.ltAdv f) s i t) ∧
    (Readable t f.d → ∀ m ∈ moves s t f,
      (∀ s1, m.2.1 = true → MovesFreely t m.2.2.1 → countedAt s t m.2.2.1 = some s1 →
        CompletesAs m.1 s i (movedTo s1 i t m.2.2.1)) ∧
      (m.2.1 = false → Traps m.1 s i [t.record .timeuse m.2.2.2])) ∧
    (let loc := (v f.d).toNat
     let st := timeOf t f.a f.mod
     let held := t.holds.any fun h => h.loc == loc && h.stamp == st
     Readable t f.d → ReadableFrom t f.a 2 → PairGood t loc st →
       (t.covers sp loc st = true → held = true → Completes (.ltHold f) s i t) ∧
       (∀ s1, t.covers sp loc st = true → held = false → t.holds.length < 16 →
         s.addCount (some t.core) t.asid t.timeline loc st = some s1 →
           CompletesAs (.ltHold f) s i (s1.withTeam i fun u => { u with holds := t.holds ++ [{ loc := loc, stamp := st }] })) ∧
       (t.covers sp loc st = false → Traps (.ltHold f) s i [t.record .timeuse 1]) ∧
       (t.covers sp loc st = true → held = false → 16 ≤ t.holds.length → Traps (.ltHold f) s i [t.record .timeuse 7]) ∧
       (∀ h, t.holds.find? (fun h => h.loc == loc && h.stamp == st && !h.task) = some h →
         CompletesAs (.ltDrop f) s i ((s.releaseHold i h).withTeam i fun u => { u with holds := t.holds.filter (· != h) })) ∧
       (held = false → Traps (.ltDrop f) s i [t.record .timeuse 2]) ∧
       (t.covers sp loc st = false ∨ t.reissue = true →
         (passedBy (s.heardAt t.core t.asid loc) st = true → CompletesAs (.ltWait f) s i (s.acquire i)) ∧
         (passedBy (s.heardAt t.core t.asid loc) st = false → exec (.ltWait f) s = .next (s.stand i {}))) ∧
       (t.covers sp loc st = true → t.reissue = false → Traps (.ltWait f) s i [t.record .timeuse 9])) ∧
    (let loc := (v f.a).toNat
     let st := timeOf t f.b f.mod
     let front := s.heardAt t.core t.asid loc
     Readable t f.a → ReadableFrom t f.b 2 → PairGood t loc st →
       (f.mod.getLsbD 2 = false → CompletesAs (.ltTest f) s i
         ((if passedBy front st then s.acquire i else s).withTeam i fun u => u.putScalar f.d (if passedBy front st then 1 else 0))) ∧
       (f.mod.getLsbD 2 = true → CompletesAs (.ltTest f) s i ((s.acquire i).withTeam i fun u =>
         putAt (putStamp u f.d 0 (front.getD [])) f.d 2 (BitVec.ofNat 64 (front.getD []).length))))) ∧
  (∀ (s : State) (index asid k : Nat) (r : Retire), s.owing[index]? = some (asid, k, r) → s.due r.till = true →
    exec (.countRetire index) s = .next ((s.withSpace asid fun sp => { sp with retires := sp.retires.eraseIdx k }).dropCount
      asid r.timeline r.loc r.stamp r.n)) ∧
  (∀ (s : State) (core asid loc : Nat) (sp : Space), SMap.find s.spaces asid = some sp → core < 160 → loc < 4096 →
    ∃ s' : State, exec (.frontierAnnounce core asid loc) s = .next s' ∧
      s'.heardAt core asid loc = sp.frontier loc ∧ s'.teams = s.teams ∧ s'.mem = s.mem)

/-- The tk instructions: a task goes to the gatherer of the cluster with its count and its unit; a ring
takes a slot where it has room and gives its oldest where its producer has drained; tk.args and
tk.ring report. A gatherer accepts tasks, and a group becomes a team. Clauses of the model's
choosing: log 21, 25. -/
def Obligations.TasksAndRings : Prop :=
  (∀ (f : TForm) (s s1 : State) (i : Nat) (t : Team), AtIssue s i t → t.FirstIssue → t.UnitsIssued → UnitRoom s t →
    let k := taskOf s i t f
    Readable t f.d → Readable t f.a → ReadableFrom t f.b 4 → ReadableFrom t f.c 2 → k.desc % 128 = 0 →
      PairGood t k.loc k.stamp → t.covers (s.space t.asid) k.loc k.stamp = true →
      (Holds s t = false → s.gatherRoom (clusterOf t.core) = true) →
      s.addCount (some t.core) t.asid t.timeline k.loc k.stamp = some s1 →
        let u := t.openUnit 1
        CompletesAs (.tkPush f) s i
          (if Holds s t then s1.withTeam i fun _ => { u with staged := t.staged ++ [.task k] }
           else { s1.withTeam i fun _ => u with pushed := s.pushed ++ [(clusterOf t.core, k)] })) ∧
  (∀ (f : TForm) (s : State) (i : Nat) (t : Team), AtIssue s i t →
    let v := t.scalar (s.teamsOf t)
    (f.mod.getLsbD 0 = false → Completes (.tkArgs f) s i (t.putScalar f.d (BitVec.ofNat 64
      ((if t.origin = 0 then 0 else t.lanes) * 2 ^ 32 + t.origin * 2 ^ 12 + if t.origin = 1 then t.taskLoc else 0)))) ∧
    (f.mod.getLsbD 0 = true → Readable t f.a →
      let l := (v f.a).toNat
      let w := if l < t.lanes ∧ t.origin ≠ 0 then ((t.tasks[l]?).map (·.record)).getD [] else []
      Completes (.tkArgs f) s i ((List.range 4).foldl (fun u k => putAt u f.d k (w.getD k 0)) t))) ∧
  (∀ (f : TForm) (s : State) (i id : Nat) (t : Team) (r : Ring), AtIssue s i t →
    let v := t.scalar (s.teamsOf t)
    SMap.find s.rings id = some r →
    (∀ s1, Readable t f.d → Readable t f.a → (v f.d).toNat % 32 = 0 → s.ringAt t.asid (v f.d) = some (id, r) →
      clusterOf r.core = clusterOf t.core → t.covers (s.space t.asid) r.loc t.now = true →
      (f.mod.getLsbD 1 = true → SlotRange s t (v f.a).toNat r.slotSize) →
      s.addCount (some t.core) t.asid t.timeline r.loc t.now = some s1 →
        (Holds s t = false → r.queue.length < r.slots → CompletesAs (.tkEq f) s i (s1.ringPush id (slotOfPush s i t f r))) ∧
        (Holds s t = true → CompletesAs (.tkEq f) s i (stagesPush s1 i t id r.loc (slotOfPush s i t f r))) ∧
        (Holds s t = false → r.slots ≤ r.queue.length → exec (.tkEq f) s = .next (s.stand i { detail := 1 }))) ∧
    (Readable t f.a → Readable t f.b → (v f.a).toNat % 32 = 0 → s.ringAt t.asid (v f.a) = some (id, r) → r.core = t.core →
      (f.b ≠ .zero → (v f.b).toNat % 16 = 0 ∧ (v f.b).toNat + r.slotSize ≤ s.scratchOf t) →
        (∀ x rest, r.queue = x :: rest → (s.team x.producer).covered x.drain = true →
          let bytes := s.headBytes id
          let s1 := if f.b = .zero then s else s.withAlloc t.core t.launch fun a => a.write (v f.b).toNat bytes
          let s2 := { s1 with rings := SMap.alter s.rings id fun r => { r with head := r.head + 1, queue := rest } }
          let s3 := (s2.dropCount r.asid x.timeline r.loc x.stamp).acquire i
          let out (u : Team) : Team := putAt (u.putScalar f.d (BitVec.ofNat 64 (leNat (bytes.take 8)))) f.d 1 (if x.eos then 1 else 0)
          CompletesAs (.tkDq f) s i (s3.withTeam i fun u => if f.mod.getLsbD 0 then putStamp (out u) f.d 2 x.stamp else out u)) ∧
        (r.queue = [] → exec (.tkDq f) s = .next (s.stand i { detail := 2 }))) ∧
    (Readable t f.a → (v f.a).toNat % 32 = 0 → s.ringAt t.asid (v f.a) = some (id, r) →
      Completes (.tkRing f) s i (t.putScalar f.d
        (BitVec.ofNat 64 ((r.tail - r.head).toNat + r.slots * 2 ^ 32 + r.core * 2 ^ 48))))) ∧
  (∀ (s : State) (index c : Nat) (k : Task), s.pushed[index]? = some (c, k) → s.acceptable index k = true →
    let s1 := { s with pushed := s.pushed.eraseIdx index, tasks := s.tasks ++ [(c, k)] }
    let s2 := if k.unit = 0 then s1 else s1.ackUnit k.pusher k.unit
    exec (.taskAccept index) s = .next
      (if s2.groupReady (s2.groupWith c k) then s2.form (s2.groupWith c k) (coresOf c) else s2)) ∧
  (∀ (s : State) (group core c : Nat) (k : Task), s.tasks[group]? = some (c, k) → core ∈ coresOf c →
    (s.region k.launch.region).det = false ∨ s.pushersDone k.launch = true →
      exec (.taskGroupTimeout group core) s = .next (s.form (s.groupWith c k) [core]))

namespace Sys2Proof.Claims

/-! ## Regions, system instructions, traps and returns -/

/-- The opener that a team is (R281). -/
def openerOf (i : Nat) (t : Team) : Opener :=
  { holder := .core t.core, asid := t.asid, timeline := t.timeline, gen := t.gen, declared := t.declared, team := some i }

/-- What an open writes to a control block comes behind what its team has staged there: PARENT, STATE and CAUSE,
and in a tournament ROUND, ALIVE, WINNER and ALIVEM (R278, R291). -/
def opened (s : State) (i key kind : Nat) : State :=
  let s1 := (s.overStaged i key 8).overStaged i (key + 80) 2
  if kind = 2 then (s1.overStaged i (key + 99) 3).overStaged i (key + 104) 8 else s1

/-- Where record `j` of a delivery goes: FRECB.BASE times 32, plus 32 a record (R351, R355). -/
def recordPlace (t : Team) (j : Nat) : Word := BitVec.ofNat 64 (t.frecb.toNat * 32 + 32 * j)

/-- The writes of one record, word by word, on the front path (R355, R374). -/
def recordWrites (s : State) (i : Nat) (t : Team) (r : Rec) (j key : Nat) : List PendWrite :=
  (List.range 4).map fun q =>
    { team := i, unit := 0, path := 1, va := recordPlace t j + BitVec.ofNat 64 (8 * q), key := key + 8 * q,
      bytes := (r.bytes.drop (8 * q)).take 8, asid := t.asid, group := s.serial + 4 * j + q }

/-- A team in its handler: records and CAUSE say why, RPC where it was, and the header TRAPH comes next
(R352, R355). -/
def inHandler (t : Team) (rs : List Rec) (r : Resume) : Team :=
  { t.closed with
    gap := 0, delivery := none, clause := none, after := none, returning := none, skip := 0, gaveUp := false, rpc := r,
    handler := true,
    handled := rs, causeCount := rs.length % 2 ^ 16, causeOrigin := (rs.head?.map (·.origin)).getD 0,
    causeCode := (rs.head?.map fun r => r.cause.code).getD 0, pc := t.desc.traph }

/-- The lanes that a return with `drop` ends (R369). -/
def droppedLanes (t : Team) (mod : Nat) : Mask :=
  if mod % 2 = 1 then maskOf ((t.handled.filter fun r => !r.hdr || r.logged).map (·.lane)) else 0

/-- A launch team back from its handler (R369). -/
def returned (t : Team) (mod : Nat) : Team :=
  let skips := decide (2 ≤ mod) && t.rpc.faulted
  let drop := droppedLanes t mod
  { t.closed.withProgress (if skips then {} else t.rpc.progress) with
    exited := t.exited ||| (drop &&& lanesMask t.lanes), exm := t.exm &&& ~~~ drop,
    stack := t.stack.map fun e => { e with mask := e.mask &&& ~~~ drop }, handler := false, causeCount := 0, causeOrigin := 0,
    causeCode := 0, handled := [], gaveUp := t.rpc.gaveUp, clause := none, after := t.rpc.after,
    returning := none, pc := t.rpc.clause, skip := t.rpc.index + if skips then 1 else 0 }

/-- A team once an earlier instruction in flight reports its faults: it has completed, and those behind it are to be
issued again (R24). -/
def reported (t : Team) (o : Op) : Team :=
  let u := t.closed.complete o
  { u with ops := u.ops.filter fun p => p.window.isNone || decide (p.ident < o.ident) }

/-- Accumulator rows of the teams that take up a core. -/
def rowsUsed (s : State) (core : Nat) : Nat := (s.seated core).foldl (fun n u => n + u.2.accrows) 0

/-- The generation at which the control block of an open is read again: TIME's c0 where the block gives TIME
(R281). -/
def timeGen (t : Team) (b : List Byte) : Nat :=
  if bitOf (bytesAt b 12 4) 7 then (regionOf b none t.now).time.headD 0 else t.gen

/-- A Sill program as nm.launch reads it: its header, its words, its blocks' addresses (R55, R326). -/
structure Program where
  head : List Byte
  body : List Byte
  chans : List Nat

/-- Its words. -/
def Program.words (p : Program) : List (BitVec 32) :=
  (List.range (bytesAt p.head 0 2)).map fun i => BitVec.ofNat 32 (bytesAt p.body (4 * i) 4)

/-- The addresses of a grid's blocks: from S[AFFARG] on, a stride of pages apart (R326). -/
def blockAddrs (aff blocks : Word) : List Word :=
  (List.range (blocks.toNat % 1024 + 1)).map fun j => aff + BitVec.ofNat 64 (j * (blocks.toNat / 2 ^ 32) * 4096)

/-- nm.launch finds the program at `p` in order, and every block its pseudo-channel (R315, R326, R327); the
reads leave `s2`. -/
def LaunchGood (s s2 : State) (t : Team) (p blocks aff : Word) (g : Program) : Prop :=
  p.toNat % 8 = 0 ∧ sillHeaderGood g.head blocks = true ∧
    (∃ s0 s1 : State, Act.go (readVirt p 16) s = (.ok g.head, s0) ∧
      Act.go (readVirt (p + 16) (4 * bytesAt g.head 0 2)) s0 = (.ok g.body, s1) ∧
      Act.go (blockChannels (blockAddrs aff blocks)) s1 = (.ok g.chans, s2)) ∧
    (∀ k < g.words.length, sillWordGood g.words.length k (g.words.getD k 0) = true) ∧ t.desc.affarg ≠ 0xFF ∧
    (s2.detOf t = true → sillWrites g.words = false) ∧
    ∀ c ∈ g.chans, ∀ w ∈ [t.desc.layout, bytesAt g.head 4 4], w = 0xFFFFFFFF ∨ w = s2.layoutId c

/-- Every unit has room for the blocks that it takes (R326). -/
def UnitsRoom (s : State) (chans : List Nat) : Prop := ∀ c ∈ chans, (s.sill c).pending.length + chans.count c ≤ 8

/-- The blocks of a grid in the queues of their units (R307, R326). -/
def gridQueued (s : State) (i : Nat) (t : Team) (loc : Nat) (blocks aff : Word) (g : Program) : State :=
  let n := g.chans.length
  let id := s.serial
  let grid : Grid :=
    { team := i, asid := t.asid, timeline := t.timeline, loc := loc, stamp := t.now, size := n, blocks := n }
  ((List.range n).zip (g.chans.zip (blockAddrs aff blocks))).foldl (fun (s : State) x =>
    let b : SillBlock :=
      { grid := id, index := x.1, team := i, asid := t.asid, timeline := t.timeline, gen := t.gen,
        prog := g.words, affinity := x.2.2, split := t.split }
    s.withSill x.2.1 fun u => { u with pending := u.pending ++ [b] })
    { s with grids := SMap.put s.grids id grid, serial := id + n + 1 }

end Sys2Proof.Claims

/-- The rg instructions: a region opens with its code; one that has ended closes, one that has not is
waited for and with kill fails first; the reads and writes of a control block come behind the team's
own loads and stores there (log 23), and no older line of the load cache serves its later ones (log
12); SCORE keeps the best; a launch grows by what its budget has unclaimed; rg.info reports;
rg.allow gives ALLOW and, in a tournament, parks (R303). Clauses of the model's choosing: log 12,
19, 23. -/
def Obligations.RegionInstructions : Prop :=
  ∀ (f : TForm) (s : State) (i key : Nat) (t : Team), AtIssue s i t → Readable t f.a →
    let a := t.scalar (s.teamsOf t) f.a
    let l := t.launch
    let g := s.region l.region
    let have_ := s.growable l
    let kids := s.regions.find? fun c => c.2.parent == some l.region && c.2.rcb == a
    (a.toNat % 256 = 0 → Mapped s i t a { r := true, w := true } key →
      ∃ front : Option Tlb,
      let s0 := s.withTeam i fun u => { u with frontPage := front }
      let behind := fun (s : State) (k n : Nat) => s.ownPending i s.serial k n || !s.rangeLanded i k n
      let s00 := s0.unseeAt t.core i key 256
      (s.mortar = [] → behind s key 256 = false → ∀ (b : List Byte) (s1 : State) (code : Nat) (r : Option Nat) (s' : State),
        Act.go (rcbOfTime a (s.ownBytes i s.serial key 256)) s00 = (.ok b, s1) →
        Act.go (openRegion (openerOf i t) a key b (some (l.region, l)) t.now (t.covers (s1.space t.asid)) 0 0) s1 =
          (.ok (code, r), s') →
          CompletesAs (.rgOpen f) s i
            ((if code = 0 then opened s' i key (bytesAt b 8 1) else s').withTeam i fun u => u.putScalar f.d (BitVec.ofNat 64 code)) ∧
          (rcbBad b = true → code = 1 ∧ s' = s1) ∧ (code ≠ 0 → s'.regions = s1.regions)) ∧
      (behind s key 256 = true → exec (.rgOpen f) s = .next (s0.stand i { point := false })) ∧
      (∀ b, rcbBad b = true ∨ timeGen t b = t.gen → Act.go (rcbOfTime a b) s00 = (.ok b, s00)) ∧
      (kids = none → CompletesAs (.rgClose f) s i (s0.withTeam i fun u => u.putScalar f.d 0xFF)) ∧
      (∀ n c, kids = some (n, c) → SMap.find s.regions n = some c →
        let s1 := if f.mod.getLsbD 0 then s0.failRegion n (Cause.code .user) else s0
        (s1.team i).place ≠ .ended →
        let s2 := s1.unseeAt (s1.team i).core i (key + 80) 1
        ((s1.region n).reported = true → behind s1 (key + 80) 1 = false → CompletesAs (.rgClose f) s i
          (((((s2.setRState n .closed).forget n).overStaged i (key + 80) 1).acquire i).withTeam i fun u =>
            u.putScalar f.d (BitVec.ofNat 64 (s1.region n).state.code))) ∧
        ((s1.region n).reported = true → behind s1 (key + 80) 1 = true →
          exec (.rgClose f) s = .next (s1.stand i { point := false })) ∧
        ((s1.region n).reported = false → exec (.rgClose f) s = .next (s1.stand i {})))) ∧
    (let best := match s.nearestCmp l.region with
       | none => a
       | some c => if scoreKey c t.score < scoreKey c a then a else t.score
     Completes (.rgScore f) s i ({ t with score := best }.putScalar f.d best)) ∧
    (let tour := decide (g.kind = 2)
     let gives (s : State) (u : Team) (n : Nat) : State := s.withTeam i fun _ => u.putScalar f.d (BitVec.ofNat 64 n)
     (f.mod.toNat % 4 = 0 → ((s.core t.core).allocs.all fun x => decide (x.launch = l)) = true →
       let room := 786432 - (s.core t.core).allocs.foldl (fun n x => n + x.size) 0
       let n := min (min a.toNat have_.scratch / 128 * 128) (room / 128 * 128)
       let s1 := s.withAlloc t.core l fun x => { x with size := x.size + n }
       CompletesAs (.rgGrow f) s i (gives (if tour then
         s1.withLaunch l fun x => { x with shareScratch := x.shareScratch - n, grown := x.grown + n } else s1) t n)) ∧
     (f.mod.toNat % 4 = 1 →
       let n := min (min a.toNat have_.rows) (3072 - rowsUsed s t.core)
       CompletesAs (.rgGrow f) s i (gives (if tour then
         s.withLaunch l fun x => { x with shareRows := x.shareRows - n, accrows := x.accrows + n } else s)
         { t with accrows := t.accrows + n } n)) ∧
     (2 ≤ f.mod.toNat % 4 →
       let n := min a.toNat have_.cores
       CompletesAs (.rgGrow f) s i (gives (s.withLaunch l fun x =>
         if tour then { x with reserve := x.reserve + n, shareCores := x.shareCores - n, cores := x.cores + n }
         else { x with reserve := x.reserve + n }) t n))) ∧
    (f.mod.toNat % 4 = 0 → Completes (.rgInfo f) s i (t.putScalar f.d g.rcb)) ∧
    (f.mod.toNat % 4 = 1 → Completes (.rgInfo f) s i (t.putScalar f.d
      (if g.kind = 2 then BitVec.ofNat 64 (l.entrant + g.round * 256 + g.alive * 2 ^ 16) else BitVec.allOnes 64))) ∧
    (f.mod.toNat % 4 = 2 → have_.scratch < 2 ^ 32 → have_.rows < 2 ^ 16 → have_.cores < 2 ^ 16 →
      Completes (.rgInfo f) s i
        (t.putScalar f.d (BitVec.ofNat 64 (have_.scratch + have_.rows * 2 ^ 32 + have_.cores * 2 ^ 48)))) ∧
    (f.mod.toNat % 4 = 3 → a.toNat % 256 = 0 → Mapped s i t a { r := true } key → s.mortar = [] →
      s.ownPending i s.serial (key + 80) 2 = false → s.rangeLanded i (key + 80) 2 = true → CompletesPaged (.rgInfo f) s i
        ((s.unseeAt t.core i (key + 80) 2).withTeam i fun _ => t.putScalar f.d (BitVec.ofNat 64 (leNat (s.ownBytes i s.serial (key + 80) 2))))) ∧
    CompletesAs (.rgAllow f) s i
      (let s1 := s.withTeam i fun _ => t.putScalar f.d t.allow
       if f.mod.getLsbD 0 then s1.parkTeam i else s1) ∧
    (g.kind ≠ 2 → Completes (.rgAllow f) s i (t.putScalar f.d t.allow)) ∧
    decodeWord 0xD0140021C0000001 = .ok (.rgAllow ⟨.i8, 0, 0, .s 7, .v 0, .v 0, .v 0, 1⟩)

/-- The nm and sys instructions: nm.launch queues a grid's blocks and counts it, nm.ratio splits;
sys.trap takes the exception USER and resumes behind itself, sys.eret asks for the return at the
clause's end, and the others report, log, give way and stop for a debugger. Clauses of the model's
choosing: log 24. -/
def Obligations.SystemInstructions : Prop :=
  ∀ (f : TForm) (s : State) (i : Nat) (t : Team), AtIssue s i t →
    let v := t.scalar (s.teamsOf t)
    Completes (.sysEret f) s i (if t.handler then { t with returning := some f.mod.toNat } else t) ∧
    Completes (.sysFrec f) s i (t.putScalar f.d (BitVec.ofNat 64 t.causeCount)) ∧
    CompletesAs (.sysFlog f) s i ((s.logFault { t.record .user f.mod.toNat with ea := v f.a }).withTeam i fun _ =>
      t.putScalar f.d (BitVec.ofNat 64 s.hearth.flogNext)) ∧
    Completes (.sysYield f) s i { t with gaveUp := true } ∧
    ((s.space t.asid).debug = false → Completes (.sysDbg f) s i t) ∧
    ((s.space t.asid).debug = true →
      let s1 := (s.logFault (t.record .user (64 + f.mod.toNat))).retire i
      ((s1.team i).place = .resident → exec (.sysDbg f) s =
        .next ((s1.saveTeam i (BitVec.allOnes 240) true).withTeam i fun u => { u with debugStop := true })) ∧
      ((s1.team i).place = .saved → exec (.sysDbg f) s = .next (s1.withTeam i fun u => { u with debugStop := true })) ∧
      ((s1.team i).place = .ended → exec (.sysDbg f) s = .next s1)) ∧
    Completes (.nmRatio f) s i
      ({ t with split := f.mod.toNat }.putScalar f.d (BitVec.ofNat 64 ((v f.a).toNat * f.mod.toNat / 16))) ∧
    (Readable t f.a → Readable t f.b → Readable t f.c →
    let aff := t.getS t.desc.affarg
    (∀ (g : Program) (s1 s2 : State), t.step = 0 → t.desc.affarg < 64 → t.poisonS t.desc.affarg = 0 →
      LaunchGood s s2 t (v f.a) (v f.c) aff g → PairGood t (v f.b).toNat t.now →
      t.covers (s2.space t.asid) (v f.b).toNat t.now = true →
        (UnitsRoom s2 g.chans → s2.addCount (some t.core) t.asid t.timeline (v f.b).toNat t.now = some s1 →
          CompletesAs (.nmLaunch f) s i ((gridQueued s1 i t (v f.b).toNat (v f.c) aff g).withTeam i fun u =>
            u.putScalar f.d (BitVec.ofNat 64 (g.chans.headD 0)))) ∧
        ((∃ c ∈ g.chans, 8 ≤ (s2.sill c).pending.length) →
          exec (.nmLaunch f) s = .next (s2.stand i { detail := 9 }))) ∧
    exec (.sysTrap f) s =
      .next ((s.closeInstr i).deliver i [{ t.record .user f.mod.toNat with ea := v f.a }] (t.here true false)))

/-- How an instruction ends. It retires: the next word, the clause behind, or the transfer's target
comes next, and a team with no lane left ends, unless an earlier instruction in flight has faults to
report. Or it traps: its records go to FRECB, CAUSE and RPC are set and the header TRAPH comes next;
with no handler, or inside it, the records are fatal. Faults of an earlier instruction in flight are
reported before them, and the younger instruction is issued again; a return at the clause's end goes
ahead of a transfer that the clause had set; both are the model's choice (log 25). A return takes
the team back to RPC; a sys.yield of the same clause then takes effect. Clauses of the model's
choosing: log 25. -/
def Obligations.InstructionEnds : Prop :=
  ∀ (s : State) (i : Nat) (t : Team) (o : OpenClause), SMap.find s.teams i = some t → t.unitNow = none →
    t.clause = some o →
    let go (u : Team) : State := (s.withTeam i fun _ => u).endIfSpent i
    (o.idx + 1 < o.words.length → s.retire i = go { t.closed with clause := some { o with idx := o.idx + 1 } }) ∧
    (o.words.length ≤ o.idx + 1 → t.after = none → t.returning = none → s.retire i =
      go { t.closed with clause := none, pc := o.header + BitVec.ofNat 64 (8 * (1 + o.words.length)) }) ∧
    (∀ a, o.words.length ≤ o.idx + 1 → t.after = some (.jump a) → t.returning = none →
      s.retire i = go { t.closed with clause := none, after := none, pc := a }) ∧
    (∀ h a, o.words.length ≤ o.idx + 1 → t.after = some (.yield h a) → t.returning = none →
      s.retire i = go { t.closed with clause := none, pc := a }) ∧
    (∀ m, o.words.length ≤ o.idx + 1 → t.returning = some m → t.origin = 0 →
      (t.gaveUp = false ∨ (returned t m).spent = true → s.retire i = go (returned t m)) ∧
      (t.gaveUp = true → (returned t m).spent = false →
        s.retire i = ((s.withTeam i fun _ => returned t m).goBehind i).endIfSpent i)) ∧
    (t.spent = false → s.endIfSpent i = s) ∧
    (t.spent = true → t.faulty = none → t.place = .resident → ((s.endIfSpent i).team i).place = .ended) ∧
    (t.faulty ≠ none → s.endIfSpent i = s) ∧
    (∀ rs o, t.faulty = some o → s.trapInstr i rs = (s.withTeam i fun _ => reported t o).handOn i o.faults o.resume) ∧
    (∀ (rs : List Rec) (key : Nat → Nat), t.faulty = none → t.place = .resident → t.desc.traph ≠ 0 → t.handler = false →
      (s.ctxOf i).state ≠ .seek → Holds s t = false →
      (∀ j < rs.length, Mapped s i { t with declared := [] } (recordPlace t j) { w := true } (key j)) →
        ∃ front : Option Tlb, s.trapInstr i rs =
          ({ s.withTeam i fun _ => { inHandler t rs (t.here false true) with frontPage := front } with
             serial := s.serial + 4 * rs.length
             writes := s.writes ++ ((List.range rs.length).zip rs).flatMap fun p => recordWrites s i t p.2 p.1 (key p.1) }
            : State).endIfSpent i) ∧
    (∀ rs, t.faulty = none → t.place = .resident → t.desc.traph = 0 ∨ t.handler = true → (s.ctxOf i).state ≠ .seek →
      s.trapInstr i rs =
        (s.withTeam i fun _ => { t.closed with delivery := some ⟨rs, t.here false true⟩, gap := 0 }).fatal i rs)

namespace Sys2Proof.Claims

open Sys2Proof.Num (FVal Fmt)

/-! ## The Sill units -/

/-- The instruction at issue on a unit completes: the unit stands as `u`, one step on, everything else as
in `s`. -/
def UnitGoes (ins : Instr) (s : State) (c : Nat) (s1 : State) (u : Sill) : Prop :=
  exec ins s = .next (s1.withSill c fun _ => u.advance)

/-- The elements of a result over those of A, B and C (R322). -/
def sillLanes (u : Sill) (f : SillV) (op : Fmt → Nat → Nat → Nat → Nat) : Sill :=
  let x (n : BitVec 5) : List Nat := elems (sillWidth f.t) 256 (u.getW n.toNat).toNat
  u.setW f.d.toNat (BitVec.ofNat 256 (joinElems (sillWidth f.t)
    (((x f.a).zip ((x f.b).zip (x f.c))).map fun e => op (sillFmt f.t) e.1 e.2.1 e.2.2)))

/-- An exact value rounded once to nearest even (R130, R322). -/
def nearest (m : Fmt) (v : FVal) : Nat := (m.deliver .rne false false v).1

/-- The instructions of the W registers, by element (R322). -/
def sillRows : List ((SillV → Instr) × (SillV → Fmt → Nat → Nat → Nat → Nat)) :=
  [(.slAdd, fun _ m a b _ => nearest m (Num.addExact .rne (m.value a) (m.value b)).1),
   (.slSub, fun _ m a b _ => nearest m (Num.addExact .rne (m.value a) (m.value b).negate).1),
   (.slMul, fun _ m a b _ => nearest m (Num.mulExact (m.value a) (m.value b)).1),
   (.slFma, fun _ m a b c => nearest m (Num.addExact .rne (Num.mulExact (m.value a) (m.value b)).1 (m.value c)).1),
   (.slMin, fun f m a b _ => nearest m (Num.minMax false (f.mod.getLsbD 0) (m.value a) (m.value b)).1),
   (.slMax, fun f m a b _ => nearest m (Num.minMax true (f.mod.getLsbD 0) (m.value a) (m.value b)).1),
   (.slCmp, fun f m a b _ => if (Num.condition (f.mod.toNat % 8) (m.value a) (m.value b)).1 then 2 ^ m.width - 1 else 0),
   (.slSel, fun _ _ a b c => if c = 0 then b else a)]

/-- The address of a bank command (R319). -/
def bankAddr (u : Sill) (f : SillK) : Word := u.getG f.g.toNat + BitVec.ofNat 64 (64 * f.off.toNat)

/-- An address lies at an offset of the unit's own channel, for an access (R308, R319); the unit has its
translation from then on, and stands as `u2` in `s2`. -/
def LocalAt (s : State) (c : Nat) (b : SillBlock) (a : Word) (need : Need) (off : Nat) (s2 : State) (u2 : Sill) : Prop :=
  Act.go (localAt (.sill c) b.asid b.timeline b.gen a need) s = (.ok (.at c off), s2) ∧ s2.sill c = u2

/-- Where 64 bytes at a channel offset stand in memory (R309). -/
def bankKey (s : State) (c off : Nat) : Nat := s.deviceKey (interleave c off)

/-- Nothing is on its way to 64 bytes of a channel, and they are not poisoned. -/
def Settled (s : State) (c : Nat) (b : SillBlock) (off : Nat) : Prop :=
  s.mortar = [] ∧ s.blockQuiet b = true ∧ s.poisonAt (bankKey s c off) = 0

/-- What a block reads at a channel offset: memory, under what a deterministic team had staged when it launched
the grid (R291, R329; log 22). -/
def blockBytes (s : State) (c : Nat) (b : SillBlock) (off : Nat) : List Byte := s.ownBytes b.team b.grid (bankKey s c off) 64

/-- A bank's accumulator after sl.mac: the sum of 32 products of the 64 bytes with BX, alone or added to the
entry, each rounded once (R320). -/
def macInto (s : State) (c : Nat) (b : SillBlock) (f : SillK) (u : Sill) (bank off : Nat) : Sill :=
  let x := leNat (blockBytes s c b off)
  let ps := ((elems 16 512 x).zip (elems 16 512 (u.getBx bank f.x.toNat).toNat)).map fun p =>
    Num.prod (Num.f16.value p.1) (Num.f16.value p.2)
  let sum := Num.blockSum ps
  let old := (u.getBa bank f.p.toNat f.e.toNat).toNat
  u.setBa bank f.p.toNat f.e.toNat (BitVec.ofNat 32
    (if f.set = 1 then sum else nearest Num.f32 (Num.addExact .rne (Num.f32.value old) (Num.f32.value sum)).1))

/-- Banks that one sub-wave acts on: as many as LIMIT and LIVE let (R311, R312). -/
def waveWidth (u : Sill) : Nat := min (16 - u.limitLess) (16 - u.liveLess)

/-- The words a send moves (R323). -/
def sentWords (u : Sill) (ba : Bool) (f : SillQ) : List Word :=
  if ba then (if u.allBank then List.range 16 else [f.bank.toNat]).map fun b => (u.getBa b f.p.toNat f.e.toNat).setWidth 64
  else (List.range (f.n.toNat + 1)).map fun k => (u.getW f.w.toNat).extractLsb' (64 * k) 64

/-- W[w] with its low quarters taken from words, the first lowest (R323). -/
def receivedIn (u : Sill) (w : Nat) (xs : List Word) : Sill :=
  u.setW w (BitVec.ofNat 256 (joinElems 64 (xs.map BitVec.toNat ++ (elems 64 256 (u.getW w).toNat).drop xs.length)))

end Sys2Proof.Claims

/-- The Sill instructions that stay in the unit: arithmetic by element, conversions, moves, addresses,
modes, and what goes between W, BX and BA; sl.ag with its word and its check (R317). Clauses of the
model's choosing: log 24. -/
def Obligations.SillArithmetic : Prop :=
  ∀ (s : State) (c : Nat) (u : Sill) (b : SillBlock), UnitAtIssue s c u b →
    (∀ p ∈ sillRows, ∀ f, UnitGoes (p.1 f) s c s (sillLanes u f (p.2 f))) ∧
    (∀ f : SillV, UnitGoes (.slMov f) s c s (u.setW f.d.toNat (u.getW f.a.toNat))) ∧
    (∀ f : SillV, f.t = 1 → UnitGoes (.slCvt f) s c s (u.setW f.d.toNat (BitVec.ofNat 256 (joinElems 32
      ((((elems 16 256 (u.getW f.a.toNat).toNat).drop (8 * (f.mod.toNat % 2))).take 8).map fun x =>
        nearest Num.f32 (Num.f16.value x)))))) ∧
    (∀ f : SillV, f.t = 0 →
      let h := 8 * (f.mod.toNat % 2)
      let old := elems 16 256 (u.getW f.d.toNat).toNat
      UnitGoes (.slCvt f) s c s (u.setW f.d.toNat (BitVec.ofNat 256 (joinElems 16
        (old.take h ++ (elems 32 256 (u.getW f.a.toNat).toNat).map (fun x => nearest Num.f16 (Num.f32.value x)) ++
          old.drop (h + 8)))))) ∧
    (∀ f : SillI, UnitGoes (.slMovi f) s c s (u.setW f.d.toNat (BitVec.ofNat 256 (joinElems (sillWidth f.t)
      (List.replicate (256 / sillWidth f.t) (if f.t = 0 then f.imm.toNat else f.imm.toNat * 2 ^ 16)))))) ∧
    (∀ f : SillA, UnitGoes (.slAg f) s c s { u with
      g := SMap.set 0 u.g f.d.toNat ((if f.base = 1 then b.affinity else u.getG f.a.toNat) + f.imm.signExtend 64) }) ∧
    (∀ f : SillV, f.d.toNat < 4 → ∃ v : Sill, UnitGoes (.slBx f) s c s v ∧
      (∀ bank < 16, ∀ n < 4, v.getBx bank n =
        if n = f.d.toNat then u.getW f.b.toNat ++ u.getW f.a.toNat else u.getBx bank n) ∧ { v with bx := u.bx } = u) ∧
    (∀ f : SillK,
      let entry (k : Nat) : Nat := (u.getBa k f.p.toNat f.e.toNat).toNat
      let sum := (List.range 15).foldl (fun a k => nearest Num.f32 (Num.addExact .rne (Num.f32.value a)
        (Num.f32.value (entry (k + 1)))).1) (entry 0)
      UnitGoes (.slBred f) s c s (u.setW f.w.toNat (BitVec.ofNat 256 (joinElems 32
        ((elems 32 256 (u.getW f.w.toNat).toNat).set (f.off.toNat % 8) sum))))) ∧
    (∀ f : SillA, f.base = 1 → WellFormed (.slAg f) = true → f.a = 0) ∧
    decodeSill 0xAA000400 = .ok (.slAg ⟨1, 0, 0, 1024⟩) ∧
    UnitGoes .slNop s c s u ∧
    UnitGoes .slAbm s c s { u with allBank := true } ∧
    UnitGoes .slSbm s c s { u with allBank := false }

/-- The Sill instructions that reach the channel and the team: reads and writes of 64 bytes, bank
commands by sub-waves, loops, fences, the end of a block, and words sent and received. Clauses of
the model's choosing: log 24. -/
def Obligations.SillAccesses : Prop :=
  ∀ (s : State) (c : Nat) (u : Sill) (b : SillBlock), UnitAtIssue s c u b →
    (∀ (f : SillK) (off : Nat) (s2 : State) (u2 : Sill),
      let a := bankAddr u f
      let x := leNat (blockBytes s2 c b off)
      (u.allBank = false → a.toNat % 64 = 0 → LocalAt s c b a { r := true, use := 4 } off s2 u2 → Settled s2 c b off →
        UnitGoes (.slRd f) s c s2
          ((u2.setW f.w.toNat (BitVec.ofNat 256 x)).setW (f.w.toNat + 1) (BitVec.ofNat 256 (x / 2 ^ 256)))) ∧
      (u.allBank = false → a.toNat % 64 = 0 → LocalAt s c b a { w := true, use := 4 } off s2 u2 →
        let w : PendWrite :=
          { team := b.team, unit := 0, path := 6, va := a, key := bankKey s2 c off, asid := b.asid, group := b.group,
            bytes := leBytes 64 ((u.getW f.w.toNat).toNat + (u.getW (f.w.toNat + 1)).toNat * 2 ^ 256) }
        UnitGoes (.slWr f) s c { s2 with writes := s2.writes ++ [w] } u2) ∧
      (u.wave = 0 → u.allBank = false → a.toNat % 64 = 0 → LocalAt s c b a { r := true, use := 4 } off s2 u2 →
        Settled s2 c b off →
          UnitGoes (.slMac f) s c s2 (macInto s2 c b f { u2 with base := off } (a.toNat / 64 % 16) off)) ∧
      (u.wave = 0 → u.allBank = true → a.toNat % 1024 = 0 → LocalAt s c b a { r := true, use := 4 } off s2 u2 →
        (∀ k < 16, Settled s2 c b (off + 64 * k)) → 0 < waveWidth u →
          let v := (List.range (waveWidth u)).foldl (fun v k => macInto s2 c b f v k (off + 64 * k)) { u2 with base := off }
          (waveWidth u = 16 → UnitGoes (.slMac f) s c s2 v) ∧
          (waveWidth u < 16 → exec (.slMac f) s = .next (s2.withSill c fun _ => { v with wave := waveWidth u }))) ∧
      (u.wave = 0 → a.toNat % (if u.allBank then 1024 else 64) = 0 → LocalAt s c b a { use := 4 } off s2 u2 →
        waveWidth u = 16 → UnitGoes (.slAct f) s c s2 { u2 with base := off }) ∧
      (u.allBank = false → a.toNat % 64 ≠ 0 →
        exec (.slRd f) s = .next (s.endBlock c (some 5)) ∧ exec (.slWr f) s = .next (s.endBlock c (some 5))) ∧
      (u.allBank = true →
        exec (.slRd f) s = .next (s.endBlock c (some 6)) ∧ exec (.slWr f) s = .next (s.endBlock c (some 6)))) ∧
    (∀ f : SillL,
      let n := f.l.toNat
      let nested := u.loops.any (·.counter == n) || (u.loops.head?.map fun x => decide (x.stop < f.stop.toNat)).getD false
      (nested = true → exec (.slLoop f) s = .next (s.endBlock c (some 7))) ∧
      (nested = false → f.count = 0 → exec (.slLoop f) s = .next (s.withSill c fun _ => { u with idx := f.stop.toNat + 1 })) ∧
      (nested = false → f.count ≠ 0 → UnitGoes (.slLoop f) s c s
        { u with l := SMap.set 0 u.l n f.count, loops := ⟨n, u.idx, f.stop.toNat⟩ :: u.loops })) ∧
    (s.blockQuiet b = true → UnitGoes .slFence s c s u) ∧
    (s.blockQuiet b = false → exec .slFence s = .next s) ∧
    (u.outq = [] → s.blockQuiet b = true → exec .slHalt s = .next (s.endBlock c none)) ∧
    (u.outq ≠ [] ∨ s.blockQuiet b = false → exec .slHalt s = .next (s.withSill c fun _ => { u with waiting := true })) ∧
    (∀ p ∈ [((.slSendBa : SillQ → Instr), true), (.slSendW, false)], ∀ f, u.words = 0 →
      let ws := sentWords u p.2 f
      (u.outq.length + ws.length ≤ 16 → UnitGoes (p.1 f) s c s { u with outq := u.outq ++ ws }) ∧
      (16 ≤ u.outq.length → exec (p.1 f) s = .next (s.withSill c fun _ => { u with waiting := true }))) ∧
    (∀ f : SillQ, u.words = 0 →
      let n := f.n.toNat + 1
      (n ≤ u.inq.length → UnitGoes (.slRecv f) s c s
        { receivedIn u f.w.toNat (u.inq.take n) with inq := u.inq.drop n }) ∧
      (u.inq = [] → exec (.slRecv f) s = .next (s.withSill c fun _ => { u with waiting := true })))

namespace Sys2Proof.Claims

/-! ## Events -/

/-- A team that stands before a clause, free to take its header: nothing is owed to it first (R16, R19). -/
def StandsAtHeader (s : State) (i : Nat) (t : Team) : Prop :=
  SMap.find s.teams i = some t ∧ s.beforeClause i = true ∧ t.clause = none ∧ t.delivery = none ∧
    t.gaveUp = false ∧ t.keptKey = false ∧ t.after = none ∧ t.skip = 0 ∧ t.headerRecs = [] ∧ (s.ctxOf i).state ≠ .seek

/-- The two events that have a team look at its header, each with the team at that point: one that has not
waited there, and one that has. -/
def headerLooks (s : State) (i : Nat) (t : Team) : List (Instr × Bool × State) :=
  let here : State := { s.passed i with cur := some i, curUnit := none }
  [(.clauseHeader i, t.block.isNone, here),
   (.clauseWaitSatisfied i, t.block.isSome, here.withTeam i fun u => { u with block := none })]

/-- The header and the words of a clause lie on one mapped page at a key (R58). -/
def ClauseAt (s : State) (i : Nat) (t : Team) (key : Nat) (h : Word) : Prop :=
  s.mortar = [] ∧ t.pc.toNat % 8 = 0 ∧ t.pc.toNat % 4096 + 8 * (1 + hdrWords h) ≤ 4096 ∧
    Mapped s i t t.pc { x := true } key ∧ Mapped s i t (t.pc + 8) { x := true } (key + 8) ∧
    h = BitVec.ofNat 64 (leNat (readBytes s.mem key 8))

/-- The clause that a header starts. -/
def clauseOf (s : State) (t : Team) (key : Nat) (h : Word) : OpenClause :=
  { header := t.pc, eng := hdrEng h, safe := hdrSafe h
    words := (List.range (hdrWords h)).map fun k => BitVec.ofNat 64 (leNat (readBytes s.mem (key + 8 + 8 * k) 8)) }

/-- A header in order whose team may run on: no safe point that parks or stops it (R289, R360). -/
def HeaderGood (s : State) (t : Team) (h : Word) : Prop :=
  headerFail t.desc.livecnt h = none ∧
    (hdrSafe h = true → t.budgetDue = false ∧ ((s.region t.launch.region).kind = 2 → t.allow ≠ 0)) ∧ (hdrSafe h = false → t.gap ≤ 8192) ∧
    (hdrWfe h = true → t.lineWaited h < s.scratchOf t)

end Sys2Proof.Claims

/-- Events of cores and Sill units: a clause starts when its header is in order, its waits hold and its
core has an issue slot left, and waits or is refused otherwise, when the team first looks at the
header and when it looks again; a blocking point is left or ends in QSTALL; results land; a walk
fills the core's store; blocks start, go on by sub-waves and stall; limits and layouts change.
Clauses of the model's choosing: log 5, 14, 19, 25, 27. -/
def Obligations.CoreAndSillEvents : Prop :=
  (∀ (s : State) (i key : Nat) (t : Team) (h : Word), StandsAtHeader s i t → ClauseAt s i t key h →
    ∀ p ∈ headerLooks s i t, p.2.1 = true →
      (∀ d, headerFail t.desc.livecnt h = some d →
        exec p.1 s = .next ((p.2.2.withTeam i fun u => { u with declared := [] }).deliver i [t.record .header d]
          (t.here false false))) ∧
      (HeaderGood s t h → t.counterReady h = true → s.lineReady t h = true → p.2.2.slotFree i (hdrEng h) = true →
        exec p.1 s = .next (p.2.2.withTeam i fun u =>
          { u with
            clause := some (clauseOf s t key h), declared := [], behind := [], gap := if hdrSafe h then 0 else t.gap })) ∧
      (HeaderGood s t h → (t.counterReady h && s.lineReady t h && p.2.2.slotFree i (hdrEng h)) = false →
        exec p.1 s = .next (p.2.2.withTeam i fun u => { u with block := some { point := false } }))) ∧
  (∀ (s : State) (i : Nat) (t : Team) (b : Block), SMap.find s.teams i = some t → t.block = some b →
    let s1 := s.withTeam i fun u => { u with block := none }
    (∀ o, s.mayIssue i = true → t.clause = some o → t.delivery = none → t.headerRecs = [] → s.slotFree i o.eng = true →
      exec (.blockingPointResume i) s = .next { s1 with turns := .team i :: s.turns }) ∧
    (t.place = .resident → t.clause.isSome = true → t.delivery = none → b.rids = [] →
      (b.detail ≠ 0 → exec (.qstall i) s = .next ((s.withTeam i fun u => { u with stalled := 2 ^ 20 }).stallInstr i
        [{ t.record .qstall b.detail with lane := b.lane }])) ∧
      (b.detail = 0 → exec (.qstall i) s = .next s))) ∧
  (∀ (s : State) (i : Nat) (t : Team) (o : Op) (lanes : Mask), SMap.find s.teams i = some t →
    t.ops.find? (fun p => p.ident == o.ident && p.window.isSome) = some o → (∀ r ∈ o.results, lanes.getLsbD r.lane = true) →
      (o.faults = [] → exec (.longLatencyComplete i o.ident lanes) s = .next (s.withTeam i fun _ =>
        { o.results.foldl Team.land t with
          ops := t.ops.filter fun p => p.ident != o.ident
          fpf := t.fpf ||| BitVec.ofNat 5 o.fpf, dcf := t.dcf ||| BitVec.ofNat 5 o.dcf })) ∧
      (o.faults ≠ [] →
        let s1 := s.withTeam i fun _ =>
          { o.results.foldl Team.land t with ops := t.ops.map fun p => if p.ident = o.ident then { p with results := [] } else p }
        exec (.longLatencyComplete i o.ident lanes) s =
          .next (if t.parkWait then s1 else match (s1.team i).faulty with
            | some first => s1.reportOp i first
            | none => s1))) ∧
  (∀ (s : State) (i : Nat) (va : Word) (write : Bool) (l : Tlb), (s.team i).place = .resident → canonical va = true →
    s.inLog i va = false → Act.go (walk (s.team i).asid (va.toNat % 2 ^ 57) (s.team i).timeline (s.team i).gen
      (if write then { w := true } else { r := true })) s = (.ok (.ok l), s) →
      exec (.pageWalk i va write) s = .next (s.withCore (s.team i).core fun c => { c with tlb := l :: c.tlb.filter (· != l) })) ∧
  (∀ (s : State) (c limit : Nat) (u : Sill), s.sill c = u →
    (∀ b rest, u.running = none → u.pending = b :: rest → ∃ v : Sill,
      exec (.sillBlockStart c) s = .next (s.withSill c fun _ => v) ∧ v.running = some b ∧ v.pending = rest ∧ v.idx = 0 ∧
        (∀ n < 32, v.getW n = 0) ∧ v.getG 0 = b.affinity ∧ v.getG 1 = BitVec.ofNat 64 b.index ∧
        v.getG 2 = BitVec.ofNat 64 b.split ∧ v.getG 3 = 0 ∧ v.allBank = false ∧ v.loops = [] ∧ v.inq = [] ∧ v.outq = [] ∧
        v.limitLess = u.limitLess ∧ v.liveLess = u.liveLess) ∧
    (∀ b f, u.running = some b → u.wave ≠ 0 → u.allBank = true → u.command = some (.slAct f) →
      let here : State := { s with cur := none, curUnit := some c }
      exec (.sillSubwave c) s = .next (here.withSill c fun _ =>
        if u.wave + waveWidth u < 16 then { u with wave := u.wave + waveWidth u } else u.advance)) ∧
    (∀ b f, u.running = some b → u.wave ≠ 0 → u.command = some (.slMac f) →
      exec (.sillSubwave c) s = exec (.slMac f) { s with cur := none, curUnit := some c }) ∧
    (∀ b t, u.running = some b → u.waiting = true → b.stop = false → SMap.find s.teams b.team = some t →
      t.place = .resident → exec (.sillStall c) s = .next (s.endBlock c (some 8))) ∧
    (c < 512 → 1 ≤ limit → limit ≤ 16 →
      exec (.banklim c limit) s = .next (s.withSill c fun v => { v with limitLess := 16 - limit })) ∧
    (u.running = none → u.pending = [] → c < 512 → u.liveLess < 15 → s.layoutId c < 0xFFFFFFFE →
      (∀ g ∈ s.grids, ∀ x ∈ g.2.rest, x.1 ≠ c) →
      ∃ s' : State, exec (.layoutChange c c 0 0 0) s = .next s' ∧ s'.layoutId c = s.layoutId c + 1 ∧
        (s'.sill c).liveLess = u.liveLess + 1 ∧ s'.mem = s.mem ∧ s'.teams = s.teams))

/-- Events of dispatch and of regions: a decision writes the record it plans, a distributor starts a
team, the timer sets the budget anew; contexts drain, are saved and come back; a region ends, is
ranked, and its ticket unit releases what was staged, what lies behind a fence once what lies before
it has been performed. Clauses of the model's choosing: log 5, 12, 23, 25. -/
def Obligations.DispatchAndRegionEvents : Prop :=
  (∀ (s : State),
    (s.dispatching = false → exec .hearthDecision s = .next s) ∧
    (∀ r ahead p dp slot, s.dispatching = true → s.stuckUrgent = none → s.candidates ≠ [] →
      s.choose s.candidates s.freeCores = some (r, ahead) → s.affordable r s.freeCores = some (p, dp) →
      s.bindSlot = some slot →
        exec .hearthDecision s = .next ((s.settleCredits s.candidates r (ahead || s.isAged r)).writeBind slot r p dp)) ∧
    (∀ r v vs, s.dispatching = true → s.stuckUrgent = some r → s.pickVictims r = v :: vs →
      exec .hearthDecision s = .next ((v :: vs).foldl State.preempt s))) ∧
  (∀ (s s2 : State) (k core ix n : Nat) (b : Bind) (rest : Ranges), SMap.find s.hearth.binds k = some b → b.state = 1 →
    b.cmask.getLsbD core = true → s.dispatching = true →
    let g := s.region b.region
    let l : LaunchId := ⟨b.region, b.entrant⟩
    g.live = true → SMap.val b.ranges [] (clusterOf core) = (ix, n) :: rest → 0 < n →
    (∀ p ∈ rest, 0 < p.2) →
    s.fits core l (max 32 g.desc.lanes * g.desc.vregs) g.desc.accrows 1 true = true →
    let left := SMap.set [] b.ranges (clusterOf core) (if n = 1 then rest else (ix + 1, n - 1) :: rest)
    (s.withHearth fun h => { h with binds := SMap.alter h.binds k fun b => { b with ranges := left } }).startTeam core l (some k) ix =
      some s2 → exec (.distributorTeamStart k core) s = .next s2) ∧
  (∀ (s : State) (watts east west : Nat), s.hearth.bootFailed = false →
    let s1 := s.withHearth fun h =>
      { h with
        firings := h.firings + 1, measured := watts, east := east, west := west, capLess := h.capNext
        k := 4 * watts - s.validPower }
    let cap := 2600 - s.hearth.capNext
    (cap < watts → s.hearth.aboveCap = 0 →
      exec (.hearthTimer watts east west) s = .next (s1.withHearth fun h => { h with aboveCap := 1 })) ∧
    (cap < watts → 0 < s.hearth.aboveCap →
      exec (.hearthTimer watts east west) s = .next (s1.withHearth fun h => { h with aboveCap := h.aboveCap + 1 }).giveStep) ∧
    (watts ≤ cap → cap - 100 ≤ watts →
      exec (.hearthTimer watts east west) s = .next (s1.withHearth fun h => { h with aboveCap := 0 })) ∧
    (watts < cap - 100 →
      exec (.hearthTimer watts east west) s = .next (s1.withHearth fun h => { h with aboveCap := 0 }).undoStep)) ∧
  (∀ (s : State) (c : Nat) (x : Ctx), SMap.find s.hearth.ctxs c = some x →
    (x.state = .drain → s.residents c = [] → exec (.drainWindow c) s =
      .next (s.withHearth fun h => { h with ctxs := SMap.alter h.ctxs c fun x => { x with state := .saving, late := false } })) ∧
    (x.state = .seek → s.residents c = [] → exec (.seekDeadline c) s =
      .next (s.withHearth fun h => { h with ctxs := SMap.alter h.ctxs c fun x => { x with late := true } })) ∧
    (∀ i t, x.state = .seek → s.residents c = [i] → SMap.find s.teams i = some t → t.clause.isSome = true → t.block = none →
      t.parked = false → t.parkWait = false → t.keptKey = false → exec (.seekDeadline c) s =
        .next ((s.withHearth fun h => { h with ctxs := SMap.alter h.ctxs c fun x => { x with late := true } }).withTeam i
          fun _ => t)) ∧
    (let area := saveArea x.core c
     let key := (s.region x.launch.region).key + 80
     x.state = .saving → area ≠ x.core → s.mortar = [] → ∃ s' : State, exec (.saveComplete c) s = .next s' ∧
      SMap.find s'.hearth.ctxs c = some { x with state := .saved, core := area, order := s.serial } ∧
      (∀ j t, SMap.find s.teams j = some t → SMap.find s'.teams j = some
        { t with
          core := if t.core = x.core ∧ t.launch = x.launch ∧ (t.ctx = c ∨ t.place = .ended) then area else t.core
          bind := if t.ctx = c ∧ t.place ≠ .ended then none else t.bind }) ∧
      (s'.core x.core).allocs = (s.core x.core).allocs.filter (fun a => decide (a.launch ≠ x.launch)) ∧
      (s'.core area).allocs = (s.core area).allocs ++ (s.core x.core).allocs.filter (fun a => decide (a.launch = x.launch)) ∧
      (s'.core area).log = (s.core area).log ++ (s.core x.core).log.filter (fun e => e.ctx == c) ∧
      ∀ k, k ≠ key → readByte s'.mem k = readByte s.mem k) ∧
    (let back (t : Team) : Prop := t.ctx = c ∧ t.core = x.core ∧ t.place = .saved ∧ t.debugStop = false
     x.state = .restoring → s.hearth.cellar ≠ 1 → (s.core x.core).log = [] → (s.core x.dest).log.length ≤ 256 →
     x.core ≠ x.dest → (∀ e ∈ s.teams, e.2.mxq = []) → ∃ s' : State,
      exec (.restoreComplete c) s = .next s' ∧ s'.mem = s.mem ∧
        SMap.find s'.hearth.ctxs c = some
          { x with state := if s.retiringAt x.launch x.dest then .drain else .run, core := x.dest, late := false } ∧
        (∀ j t, SMap.find s.teams j = some t → back t → ∃ slot free : Nat, SMap.find s'.teams j = some
          { (if t.fullSave then t else t.forgetDead free) with
            place := .resident, core := x.dest, slot := slot, saveLive := BitVec.allOnes 240, fullSave := true
            block := match t.clause, t.block with
              | none, _ => none
              | some _, some b => some { b with rids := [] }
              | some _, none => some { point := false, held := true } }) ∧
        (∀ j t, SMap.find s.teams j = some t → t.ctx ≠ c → SMap.find s'.teams j = some
          { t with core := if t.core = x.core ∧ t.launch = x.launch ∧ t.place = .ended then x.dest else t.core }) ∧
        (s'.core x.dest).allocs =
          (s.core x.dest).allocs ++ (s.core x.core).allocs.filter (fun a => decide (a.launch = x.launch)))) ∧
  (∀ (s : State) (r : Nat) (g : Region), SMap.find s.regions r = some g → g.reported = false → g.rids = [] →
    s.regionDrained r = true → g.donew = 0 →
      (g.live = true → s.regionOver r = true → exec (.regionDone r) s =
        .next (((s.withRegion r fun g => { g with state := .complete }).writeRcb r 80 [3, BitVec.ofNat 8 g.cause]).reportRegion r)) ∧
      (g.state = .failed → exec (.regionDone r) s =
        .next ((s.writeRcb r 80 [4, BitVec.ofNat 8 g.cause]).reportRegion r)) ∧
      (g.state = .complete → exec (.regionDone r) s =
        .next ((s.writeRcb r 80 [3, BitVec.ofNat 8 g.cause]).reportRegion r))) ∧
  (∀ (s : State) (r : Nat) (g : Region), SMap.find s.regions r = some g →
    let due := g.kind == 2 && g.live && !g.decided && passedBy ((s.space g.asid).frontier g.tloc) (g.roundTime g.round)
    let s0 := (List.range g.launches.length).foldl (fun s e => s.settleEntrant ⟨r, e⟩) s
    let order := s0.ranking r
    let kept := order.take (order.length / 2)
    let s2 := ((order.drop (order.length / 2)).foldl (fun s e => s.killEntrant r e) s0).withRegion r fun g => g.share kept
    (due = false → exec (.rank r) s = .next s) ∧
    (due = true → kept.length ≤ 1 → exec (.rank r) s =
      .next ((s2.decideTournament r (order.headD 0xFF) (kept.drop 1)).writeRound r))) ∧
  (∀ (s : State) (r i : Nat) (t : Team) (ws : List PendWrite), (s.region r).det = true → (s.region r).launches.length = 1 →
    s.teamAt ⟨r, 0⟩ ((s.region r).launch 0).ticket = some (i, t) → SMap.find s.teams i = some t → t.place = .ended →
    t.staged = ws.map .write → t.undrained ≠ [] → (∀ w ∈ ws, w.path < 2 ∧ s.releaseWaits i (.write w) = false) →
      exec (.ticketRelease r) s =
        .next { s.withTeam i fun u => { u with staged := [], released := true } with writes := s.writes ++ ws }) ∧
  (∀ (s : State) (r i : Nat) (t : Team) (from_ to_ unit before : Nat) (w : PendWrite), (s.region r).det = true →
    (s.region r).launches.length = 1 → s.teamAt ⟨r, 0⟩ ((s.region r).launch 0).ticket = some (i, t) →
    SMap.find s.teams i = some t → t.place = .ended → t.staged = [.fence from_ to_ unit before, .write w] →
    w.path < 2 → bitOf to_ w.path = true → s.beforeFence i from_ unit before = true →
      exec (.ticketRelease r) s = .next (s.withTeam i fun u => { u with released := true }))

namespace Sys2Proof.Claims

/-! ## The device's edge and its admin queue -/

/-- Whether a team still waits for an element at one of some keys. -/
def Awaits (s : State) (hit : Nat → Bool) : Prop := ∃ t ∈ s.teams, ∃ o ∈ t.2.ops, ∃ p ∈ o.parts, hit p.key = true

/-- Hearth takes the slot `b` of the admin queue, which holds a command of an opcode (R378, R384). -/
def Commanded (s : State) (op : Nat) (b : List Byte) : Prop :=
  let h := s.hearth
  h.power = .run ∧ h.bootFailed = false ∧ h.cellar ≠ 1 ∧ h.admpi ≠ h.admci ∧ (h.admdone - h.admcc).toNat < h.admqn ∧
    b = readBytes s.mem (hostKey (h.admqb + 64 * (h.admci.toNat % h.admqn))) 64 ∧ bytesAt b 0 1 = op ∧ bytesAt b 1 3 = 0

/-- A completion is written with the slot's TAG, the ring indices move on, and vector 0 is sent (R381). -/
def completed (s : State) (b : List Byte) (status : Nat) (result : Option Word) : State :=
  let h := s.hearth
  let r := result.getD (Config.freeWord s.free)
  let s1 := s.store (hostKey (h.admcb + 16 * (h.admdone.toNat % h.admqn)))
    (leBytes 4 (bytesAt b 4 4) ++ leBytes 2 status ++ zeros 2 ++ leBytes 8 r.toNat) 0 0
  { s1 with
    free := s1.free + 1
    hearth := { s1.hearth with admdone := s1.hearth.admdone + 1, admci := s1.hearth.admci + 1, msix := 0 :: s1.hearth.msix } }

/-- The commands and their opcodes (R379). -/
inductive CommandOf : Instr → Nat → Prop
  | createWq (q slots asid vector : Nat) (ring compl : Word) : CommandOf (.createWq q ring slots compl asid vector) 0x01
  | deleteWq (q : Nat) : CommandOf (.deleteWq q) 0x02
  | registerAs (a : Word) : CommandOf (.registerAs a) 0x10
  | releaseAs (asid : Nat) : CommandOf (.releaseAs asid) 0x11
  | pageAnswer (rid answer : Nat) : CommandOf (.pageAnswer rid answer) 0x12
  | raiseFloor (asid timeline v : Nat) : CommandOf (.raiseFloor asid timeline v) 0x13
  | setWindow (n asid : Nat) (base len bar2 version : Word) : CommandOf (.setWindow n asid base len bar2 version) 0x20
  | clearWindow (n : Nat) : CommandOf (.clearWindow n) 0x21
  | setCap (w : Nat) : CommandOf (.setCap w) 0x30
  | setLtol (v : BitVec 32) : CommandOf (.setLtol v) 0x31
  | setDrain (n : Nat) : CommandOf (.setDrain n) 0x32
  | debug (asid : Nat) (on : Bool) (ctx : Nat) : CommandOf (.debug asid on ctx) 0x33
  | resetLink (l e : Nat) : CommandOf (.resetLink l e) 0x34
  | readFaultlog (a first : Word) (n : Nat) : CommandOf (.readFaultlog a first n) 0x38
  | checkpoint (a set : Word) : CommandOf (.checkpoint a set) 0x39
  | restore (a : Word) : CommandOf (.restore a) 0x3A
  | checkImage (asid : Nat) (a : Word) (n : Nat) : CommandOf (.checkImage asid a n) 0x3B
  | enrolKey (a : Word) (slot : Nat) : CommandOf (.enrolKey a slot) 0x3C
  | loadFw (a : Word) : CommandOf (.loadFw a) 0x3D
  | attest (nonce : List Byte) (a : Word) : CommandOf (.attest nonce a) 0x3E
  | summary (a : Word) (n : Nat) : CommandOf (.summary a n) 0x3F

end Sys2Proof.Claims

/-- Events at the device's edge: links train and fail, expanders and ports are lost, power states,
reset, the patrol scrub, doorbells and BAR0, and the submission of a root. Clauses of the model's
choosing: log 3, 4, 15. -/
def Obligations.DeviceEdgeEvents : Prop :=
  (∀ (s : State) (link lanes : Nat) (cxl : Bool),
    link < 2 →
    let behind := s.loseBehind link
    (lanes ∈ [16, 8, 4] → exec (.hostLinkTrain link lanes cxl) s = .next (behind.withHearth fun h =>
      { h with links := SMap.put h.links link { state := 1, lanes := lanes, cxl := cxl } })) ∧
    (s.hearth.cellar ≠ 1 → s.hearth.cellar ≠ 2 → exec (.linkFailure link) s =
      .next (behind.withHearth fun h => { h with links := SMap.put h.links link {} })) ∧
    (s.hearth.cellar = 1 ∨ s.hearth.cellar = 2 → ∃ s' : State, exec (.linkFailure link) s = .next s' ∧ s'.hearth.cellar = 3 ∧
      SMap.find s'.hearth.links link = some {} ∧
      s'.cellars = if s.hearth.cellar = 1 then SMap.del s.cellars s.hearth.cellarTarget else s.cellars) ∧
    (∀ e, behind.mem = s.mem ∧ (SMap.val behind.hearth.expanders {} e).state =
      if e / 4 = link ∧ (SMap.val s.hearth.expanders {} e).state ≠ 0 then 2 else (SMap.val s.hearth.expanders {} e).state)) ∧
  (∀ (s : State) (e p : Nat), e < 8 → p < 12 →
    let l := SMap.val s.hearth.links {} (e / 4)
    let x := SMap.val s.hearth.expanders {} e
    let lose := s.withHearth fun h =>
      { h with expanders := SMap.alter h.expanders e fun x => { x with state := 2, retrained := false } }
    (l.state = 1 → l.cxl = true → exec (.cxlLinkRetrain e) s = .next (s.withHearth fun h =>
      { h with expanders := SMap.put h.expanders e (if x.state = 2 then { x with retrained := true } else { x with state := 1, lanes := l.lanes }) })) ∧
    (x.state ≠ 0 → ¬ Awaits s (fun k => expanderOf k == some e) →
      ∀ i ∈ [Instr.cxlLinkLost e, .completionTimeout e], ∃ s' : State, exec i s = .next s' ∧ s'.hearth = lose.hearth ∧
        s'.mem = s.mem ∧ s'.teams = s.teams) ∧
    (x.state ≠ 0 → ∀ i ∈ [Instr.cxlLinkLost e, .completionTimeout e],
      exec i s = .next ((s.losing fun k => expanderOf k == some e).withHearth fun _ => lose.hearth)) ∧
    (∃ s' : State, exec (.portFailure p) s = .next s' ∧
      SMap.find s'.hearth.ports p = some { SMap.val s.hearth.ports { state := 1, lanes := 8 } p with state := 2 } ∧ s'.mem = s.mem ∧
      s'.teams = (s.losing fun k => (hostOf k).any fun a => Config.peerPort a == some p).teams)) ∧
  (∀ (s : State), ∃ s' : State, exec .deviceReset s = .next s' ∧ s'.mem = s.mem ∧ s'.teams = [] ∧ s'.regions = [] ∧
    s'.spaces = [] ∧ s'.cores = [] ∧ s'.hearth.admpi = s'.hearth.admci ∧ s'.hearth.queues = [] ∧
      s'.hearth.bootFailed = !Config.firmwareGood s.hearth.flash ∧
      (Config.firmwareGood s.hearth.flash = true → s'.hearth.power = .run) ∧ s'.hearth.flash = s.hearth.flash ∧
      s'.hearth.running = s.hearth.flash) ∧
  (∀ (s : State), s.hearth.bootFailed = false →
    let ltol := s.hearth.ltol
    exec .powerExit s = .next (s.withHearth fun h => { h with power := .run }) ∧
    (s.idle = false → exec .idleEntry s = .next s) ∧
    (s.idle = true → ltol < 40000 ∨ s.spaces ≠ [] → exec .idleEntry s = .next (s.withHearth fun h =>
      { h with
        power := if 1500 ≤ ltol then .slumber else if 60 ≤ ltol then .drowse else if 2 ≤ ltol then .quiet else .run })) ∧
    (s.idle = true → 40000 ≤ ltol → s.spaces = [] → ∃ s' : State, exec .idleEntry s = .next s' ∧ s'.hearth.power = .vault ∧
      (∀ k, readByte s'.mem k = if isDram k = true then 0 else readByte s.mem k) ∧
      (∀ k, s'.core k = { cyc := (s.core k).cyc }) ∧ s'.teams = [] ∧ s'.mortar = [] ∧ s'.regions = s.regions ∧ s'.hearth = { s.hearth with power := .vault })) ∧
  (∀ (s : State) (atom : Nat), atom < 2 ^ 34 →
    let at_ := s.withHearth fun h => { h with patrol := 32 * atom }
    let chan := (channelOf (32 * atom)).1
    exec (.patrolScrub atom 0) s = .next at_ ∧
    (∀ found ∈ [1, 2], exec (.patrolScrub atom found) s = exec (.patrolScrub atom (found + 2)) at_) ∧
    (atom ∉ (s.channel chan).once → atom ∉ (s.channel chan).remapped → (s.burst (atom / 2)).extractLsb' 13 2 = 0 → ∃ s' : State,
      exec (.patrolScrub atom 1) s = .next s' ∧ s'.mem = s.mem ∧ (s'.burst (atom / 2)).extractLsb' 13 2 = 1 ∧
        (s'.channel chan).corrected = (s.channel chan).corrected + 1 ∧ atom ∈ (s'.channel chan).once) ∧
    (atom ∈ (s.channel chan).once → atom ∉ (s.channel chan).remapped → s.remapsUsed (chan / 64) < 4096 → ∃ s' : State,
      exec (.patrolScrub atom 1) s = .next s' ∧ s'.mem = s.mem ∧ atom ∈ (s'.channel chan).remapped ∧
        (s'.channel chan).corrected = (s.channel chan).corrected + 1) ∧
    (∃ s' : State, exec (.patrolScrub atom 2) s = .next s' ∧ s'.mem = s.mem ∧ s'.poisonAt (32 * atom) ≠ 0 ∧
      (s'.burst (atom / 2)).extractLsb' 13 2 = 3 ∧
      (s'.channel chan).uncorrected = (s.channel chan).uncorrected + 1)) ∧
  (∀ (s : State) (q : Nat) (v : BitVec 32) (w : WorkQueue) (wide : Word), SMap.find s.hearth.queues q = some w →
    let put (w' : WorkQueue) : State := s.withHearth fun h => { h with queues := SMap.alter h.queues q fun _ => w' }
    exec (.admpi v) s = .next (s.withHearth fun h => { h with admpi := v }) ∧
    exec (.admcc v) s = .next (if (v - s.hearth.admcc).toNat ≤ (s.hearth.admdone - s.hearth.admcc).toNat then
      s.withHearth fun h => { h with admcc := v } else s) ∧
    exec (.wqpi q v) s = .next (put (if w.closing = false ∧ (v - w.pi).toNat < 2 ^ 31 then { w with pi := v } else w)) ∧
    exec (.wqcc q v) s = .next (put (if (v - w.cc).toNat ≤ (w.written - w.cc).toNat then { w with cc := v } else w)) ∧
    exec (.bar0Write 0x20 4 wide) s = exec (.admpi (wide.setWidth 32)) s ∧
    exec (.bar0Write 0x28 4 wide) s = exec (.admcc (wide.setWidth 32)) s ∧
    (q < 4096 → exec (.bar0Write (0x100000 + 8 * q) 4 wide) s = exec (.wqpi q (wide.setWidth 32)) s ∧
      exec (.bar0Write (0x200000 + 8 * q) 4 wide) s = exec (.wqcc q (wide.setWidth 32)) s) ∧
    (s.hearth.admpi = s.hearth.admci → exec (.bar0Write 0x08 8 wide) s =
      .next (s.withHearth fun h => { h with admqb := wide.toNat, admcc := 0 })) ∧
    (s.hearth.admpi ≠ s.hearth.admci → ∀ off ∈ [0x08, 0x10, 0x18], exec (.bar0Write off 8 wide) s = .next s) ∧
    (∀ off size, (size ≠ 4 ∧ size ≠ 8) ∨ off % size ≠ 0 → exec (.bar0Write off size wide) s = .next s)) ∧
  (∀ (s : State) (q : Nat) (w : WorkQueue), SMap.find s.hearth.queues q = some w →
    let e := readBytes s.mem (hostKey (w.ring + 64 * (w.taken.toNat % w.slots))) 64
    let rcb : Word := BitVec.ofNat 64 (bytesAt e 0 8)
    let tag : Word := BitVec.ofNat 64 (bytesAt e 8 8)
    let good := bytesAt e 16 48 == 0 && bytesAt e 0 8 % 256 == 0
    let took (s : State) : State := s.withHearth fun h =>
      { h with queues := SMap.alter h.queues q fun w => { w with taken := w.taken + 1, rids := [], declared := [] } }
    let free := s.dispatching = true ∧ w.pi ≠ w.taken ∧ w.rids = [] ∧ (w.taken - w.cc).toNat < w.slots
    (¬ free → exec (.rootSubmission q) s = .next s) ∧
    (free → good = false → exec (.rootSubmission q) s = .next ((took s).queueDone q tag 1 0 0)) ∧
    (∀ c s1, free → good = true → Act.go (openRoot q w rcb tag true) s = (.ok c, s1) →
      exec (.rootSubmission q) s = .next (if c = 0 then took s1 else (took s1).queueDone q tag c 0 0)))

/-- The admin commands: each command's effect and its completion with STATUS 0, the errors R379 names,
and STATUS 1 and 2 for an unknown opcode and for a reserved byte that is not zero. Where the spec
gives no RESULT it is a free value, and the operands are the event's arguments (log 15). Clauses of
the model's choosing: log 15, 16, 25. -/
def Obligations.AdminCommands : Prop :=
  (∀ (i : Instr) (op o : Nat) (s : State) (b : List Byte), CommandOf i op →
    (o ∉ [0x01, 0x02, 0x10, 0x11, 0x12, 0x13, 0x20, 0x21, 0x30, 0x31, 0x32, 0x33, 0x34, 0x38, 0x39, 0x3A, 0x3B, 0x3C, 0x3D, 0x3E, 0x3F] →
      Commanded s o b → exec i s = .next (completed s b 1 none)) ∧
    (s.hearth.power = .run → s.hearth.bootFailed = false → s.hearth.cellar ≠ 1 → s.hearth.admpi ≠ s.hearth.admci →
      (s.hearth.admdone - s.hearth.admcc).toNat < s.hearth.admqn →
      b = readBytes s.mem (hostKey (s.hearth.admqb + 64 * (s.hearth.admci.toNat % s.hearth.admqn))) 64 →
      bytesAt b 0 1 = op → bytesAt b 1 3 ≠ 0 → exec i s = .next (completed s b 2 none))) ∧
  (∀ (s : State) (b : List Byte) (n m a v slots : Nat) (x y z u : Word),
    let H (f : Hearth → Hearth) : State := s.withHearth f
    let queues := s.hearth.queues
    let record := readBytes s.mem (s.deviceKey x.toNat) 64
    (Commanded s 0x01 b → n < 4096 → ringSlots slots = true → 1 ≤ a → a ≤ 4095 → v < 2048 → exec (.createWq n x slots y a v) s = .next (
      if (SMap.find queues n).isSome then completed s b 3 none else
        let w : WorkQueue := { ring := x.toNat, slots := slots, compl := y.toNat, asid := a, vector := if v = 0 then 1 + n % 2047 else v }
        completed (H fun h => { h with queues := SMap.put h.queues n w }) b 0 none)) ∧
    (Commanded s 0x02 b → n < 4096 →
      (SMap.find queues n = none → exec (.deleteWq n) s = .next (completed s b 5 none)) ∧
      (∀ w, SMap.find queues n = some w → w.pi = w.taken → (∀ g ∈ s.regions, g.2.parent = none → g.2.queue ≠ n) →
        exec (.deleteWq n) s = .next (completed (H fun h => { h with queues := SMap.del h.queues n }) b 0 none))) ∧
    (Commanded s 0x10 b → x.toNat < 2 ^ 39 → bytesAt record 0 8 % 8192 = 0 → bytesAt record 0 8 < 2 ^ 39 → bytesAt record 8 8 % 32 = 0 →
      ringSlots (bytesAt record 16 4) = true → bytesAt record 20 4 = 0 → 1 ≤ bytesAt record 40 2 → bytesAt record 40 2 ≤ 4095 →
        bytesAt record 42 22 = 0 → exec (.registerAs x) s = .next (
          if (SMap.find s.spaces (bytesAt record 40 2)).isSome then completed s b 3 none else
            let sp : Space :=
              { record := x.toNat, root := bytesAt record 0 8, prqb := bytesAt record 8 8, prqn := bytesAt record 16 4
                prqt := bytesAt record 24 8, floorb := bytesAt record 32 8 }
            completed { s with spaces := SMap.put s.spaces (bytesAt record 40 2) sp } b 0 none)) ∧
    (Commanded s 0x11 b → exec (.releaseAs a) s = .next (
      if a = 0 ∨ 4096 ≤ a then completed s b 2 none
      else if (SMap.find s.spaces a).isNone then completed s b 5 none
      else if s.regions.any fun g => g.2.asid == a then completed s b 3 none
      else completed
        { s with
          spaces := SMap.del s.spaces a
          cores := s.cores.map fun c => (c.1, { c.2 with heard := c.2.heard.filter fun x => x.asid != a }) } b 0 none)) ∧
    (Commanded s 0x12 b → m ≤ 1 → exec (.pageAnswer n m) s = .next (
      match s.hearth.requests.find? fun r => r.rid == n with
      | none => completed s b 5 none
      | some r => completed (s.answerPage r (m == 1)) b 0 none)) ∧
    (∀ sp, Commanded s 0x13 b → SMap.find s.spaces a = some sp → 1 ≤ a → a ≤ 4095 → n < 4096 → v < 2 ^ 32 → exec (.raiseFloor a n v) s = .next (
      if (sp.counts.any fun c => c.timeline == n) || v < sp.floor n then completed s b 3 none
      else
        let s1 := s.withSpace a fun sp => { sp with floors := SMap.set 0 sp.floors n v }
        completed (if sp.floorb = 0 then s1 else s1.store (hostKey (sp.floorb + 4 * n)) (leBytes 4 v) 0 0) b 0 none)) ∧
    (Commanded s 0x20 b → n < 64 → 1 ≤ a → a ≤ 4095 → x.toNat % 4096 = 0 → y.toNat % 4096 = 0 → (SMap.find s.spaces a).isSome = true →
      let w : Window :=
        { asid := a, base := x, length := y, bar2 := z, versionAt := u.toNat
          version := BitVec.ofNat 64 (leNat (readBytes s.mem (hostKey u.toNat) 8)) }
      exec (.setWindow n a x y z u) s = .next (completed (H fun h => { h with windows := SMap.put h.windows n w }) b 0 none)) ∧
    (Commanded s 0x21 b → n < 64 →
      ((SMap.find s.hearth.windows n).isNone = true → exec (.clearWindow n) s = .next (completed s b 5 none)) ∧
      ((SMap.find s.hearth.windows n).isSome = true → (∀ t ∈ s.teams, t.2.block = none) →
        exec (.clearWindow n) s = .next (completed (H fun h => { h with windows := SMap.del h.windows n }) b 0 none))) ∧
    (Commanded s 0x30 b → exec (.setCap n) s = .next (if n < 1200 ∨ 2600 < n then completed s b 2 none else
      completed (H fun h => { h with capNext := 2600 - n }) b 0 none)) ∧
    (Commanded s 0x31 b → exec (.setLtol (x.setWidth 32)) s = .next (completed (H fun h => { h with ltol := x.toNat % 2 ^ 32 }) b 0 none)) ∧
    (Commanded s 0x32 b → exec (.setDrain n) s = .next (if 14000 < n then completed s b 2 none else
      completed (H fun h => { h with drainLess := 14000 - n }) b 0 none)) ∧
    (∀ on, Commanded s 0x33 b → 1 ≤ a → a ≤ 4095 →
      ((SMap.find s.spaces a).isNone = true → exec (.debug a on n) s = .next (completed s b 5 none)) ∧
      ((SMap.find s.spaces a).isSome = true → exec (.debug a on 0) s =
        .next (completed (s.withSpace a fun sp => { sp with debug := on }) b 0 none))) ∧
    (Commanded s 0x34 b → n < 2 → m / 4 = n →
      let e := SMap.val s.hearth.expanders {} m
      exec (.resetLink n m) s = .next (
        if e.state ≠ 2 then completed s b 0 none
        else if e.retrained = false then completed s b 3 none
        else completed (H fun h => { h with expanders := SMap.put h.expanders m { e with state := 1, retrained := false } }) b 0 none)) ∧
    (Commanded s 0x38 b → ∀ e rest, s.hearth.flog = e :: rest → exec (.readFaultlog x y n) s = .next (
      completed (s.store (hostKey x.toNat)
        ((s.hearth.flog.filter fun e => y.toNat ≤ e.seq && e.seq < y.toNat + n).flatMap fun e => e.record.bytes) 0 0)
        b 0 (some (BitVec.ofNat 64 e.seq)))) ∧
    (Commanded s 0x39 b → ∃ s' : State, exec (.checkpoint x y) s = .next s' ∧ s'.hearth.cellar = 1 ∧
      s'.hearth.cellarTarget = x.toNat ∧ (s.hearth.binds = [] → s'.mem = s.mem) ∧ s'.hearth.admci = s.hearth.admci ∧
      (∀ c ∈ s'.hearth.ctxs, c.2.state ≠ .run) ∧ s'.dispatching = false) ∧
    (s.hearth.cellar = 1 → s.writes = [] → s.mortarIn = [] → s.mortar = [] → (∀ c ∈ s.cores, c.2.wloads = []) →
      (∀ c ∈ s.hearth.ctxs, c.2.state = .saved) → ∃ s' : State, exec .checkpointComplete s = .next s' ∧ s'.hearth.cellar = 0 ∧ s'.hearth.cellarSeq = s.hearth.cellarSeq + 1 ∧
        SMap.find s'.cellars s.hearth.cellarTarget = some (s.snapshot s.hearth.cellarSet)) ∧
    (Commanded s 0x3A b →
      (s.spaces ≠ [] → exec (.restore x) s = .next (completed s b 3 none)) ∧
      (s.spaces = [] → SMap.find s.cellars x.toNat = none → exec (.restore x) s = .next (completed s b 5 none)) ∧
      (∀ c, s.spaces = [] → SMap.find s.cellars x.toNat = some c → s.hearth.cellar ≠ 2 → exec (.restore x) s =
        .next { H fun h => { h with cellar := 2, cellarTarget := x.toNat, cellarBytes := (Config.freeWord s.free).toNat } with
          free := s.free + 1 }) ∧
      (∀ c, s.spaces = [] → SMap.find s.cellars x.toNat = some c → s.hearth.cellar = 2 → ∃ s1 s' : State,
        exec (.restore x) s = .next s' ∧ s' = completed s1 b 0 none ∧ s1.hearth.cellar = 0 ∧ s1.mem = c.mem.foldl (fun m e => writeByte m e.1 e.2) (s.mem.filter fun e => !s.inSpans c.spans e.1) ∧
        s1.spaces = c.spaces.foldl (fun m e => SMap.put m e.1 e.2) [] ∧
        s1.regions = c.regions.foldl (fun m e => SMap.put m e.1 e.2) s.regions)) ∧
    (Commanded s 0x3B b → 1 ≤ a → a ≤ 4095 → (SMap.find s.spaces a).isSome = true →
      (∀ s1, Act.go (hearthRead a x.toNat n) s = (.ok none, s1) → exec (.checkImage a x n) s = .next (completed s1 b 2 none)) ∧
      (∀ file s1, Act.go (hearthRead a x.toNat n) s = (.ok (some file), s1) →
        (imageSects file n = none → exec (.checkImage a x n) s = .next (completed s1 b 2 none)) ∧
        (∀ hs ok s2, imageSects file n = some hs → Act.go (loadedAsFiled a file hs) s1 = (.ok ok, s2) →
          exec (.checkImage a x n) s = .next (
            if (hs.find? (·.ident == 11)).any (signed s1.hearth.keys file) = false then completed s1 b 4 none
            else if ok = false then completed s2 b 2 none
            else if 256 ≤ (s2.space a).images.length then completed s2 b 3 none
            else
              let image : List Section := (hs.filter fun h => sectFlags h.ident != 0).map fun h => ⟨h.ident, h.addr, h.size⟩
              completed (s2.withSpace a fun sp => { sp with images := sp.images ++ [image] }) b 0 (some (BitVec.ofNat 64 (s2.space a).images.length)))))) ∧
    (Commanded s 0x3C b → n < 8 → exec (.enrolKey x n) s = .next (if s.spaces = [] then
        completed (H fun h => { h with keys := SMap.put h.keys n (keyPair (readBytes s.mem (hostKey x.toNat) 2000)) }) b 0 none
      else completed s b 3 none)) ∧
    (Commanded s 0x3D b →
      let image := readBytes s.mem (hostKey x.toNat) Config.firmwareLength
      exec (.loadFw x) s = .next (if Config.firmwareGood image = true then
        completed (H fun h => { h with flash := image }) b 0 none else completed s b 4 none)) ∧
    (∀ nonce : List Byte, Commanded s 0x3E b → nonce.length = 32 →
      let ids := s.hearth.keys.flatMap fun k => leBytes 8 k.2.edIdent ++ leBytes 8 k.2.mlIdent
      exec (.attest nonce x) s = .next (completed
        (s.store (hostKey x.toNat) (Config.attestation (s.sumFirmware.2.2.flatten ++ ids ++ nonce)) 0 0) b 0 none)) ∧
    (Commanded s 0x3F b →
      let r := s.summary
      exec (.summary x n) s = .next (if n < r.length then completed s b 3 (some (BitVec.ofNat 64 r.length)) else
        completed (s.store (hostKey x.toNat) r 0 0) b 0 (some (BitVec.ofNat 64 r.length)))))

namespace Sys2Proof.Claims

/-- Team `i` has its turn and stands before the next word of its open clause, free to issue it. -/
def ReadyToIssue (s : State) (i : Nat) (t : Team) (o : OpenClause) (rest : List Turn) : Prop :=
  s.turns = .team i :: rest ∧ SMap.find s.teams i = some t ∧ s.mayIssue i = true ∧ t.clause = some o ∧ t.delivery = none ∧
    t.block = none ∧ t.keptKey = false ∧ t.windowShut = false

/-- The state in which that word executes: its turn is taken, a first issue has been counted (R23, R289,
R360), and the team is at issue. -/
def issuing (s : State) (i : Nat) (t : Team) (o : OpenClause) (rest : List Turn) : State :=
  let s0 : State := { s with turns := rest }
  let s1 := if t.reissue then s0 else (s0.passed i).withTeam i fun t => t.counted o.eng (o.words.getD o.idx 0)
  { s1 with cur := some i, curUnit := none }

end Sys2Proof.Claims

/-- Words written out in the spec decode to the instructions it writes beside them, one of each family.
-/
def Obligations.DecodedWords : Prop :=
  decodeWord 0x0109C021403FFFFF = .ok (.frMovi ⟨.n64, 0, 0, .s 5, .v 0, 0x3FFFFF⟩) ∧
  decodeWord 0x200C00C000000004 = .ok (.ctlBrv ⟨.i8, 0, 3, .v 0, 4⟩) ∧
  decodeWord 0x310000308000F014 = .ok (.kmSetI ⟨.i8, 0, 0, .k 2, .v 0, 0xF014⟩) ∧
  decodeWord 0x4031C04202228000 = .ok (.lnXorT ⟨.n64, 0, 1, .v 8, .v 8, .s 10, .v 0, 0⟩) ∧
  decodeWord 0x6011806506214001 = .ok (.xlRedi ⟨.n32, 0, 1, .s 20, .v 24, .s 5, .v 0, 1⟩) ∧
  decodeWord 0x8013C8C280810000 = .ok (.dcDiv ⟨.d64, 2, 3, .v 10, .v 2, .v 4, .v 0, 0⟩) ∧
  decodeWord 0x9007804C00000001 = .ok (.scQuant ⟨.e2m1, 0, 1, .v 48, .v 0, .v 0, .v 0, 1⟩) ∧
  decodeWord 0x981B803C20788000 = .ok (.mxWload ⟨.e2m1, 0, 0, .zero, .s 1, .a 2, .v 0, 0⟩) ∧
  decodeWord 0xA00280400E38402F = .ok (.memLdi ⟨.f32, 0, 1, .v 0, .v 56, .a 1, .v 0, 47⟩) ∧
  decodeWord 0xB00000212161A1C0 = .ok (.cpColl ⟨.i8, 0, 0, .s 4, .s 5, .s 6, .s 7, 0⟩) ∧
  decodeWord 0xB8040034E2400000 = .ok (.qPut ⟨.i8, 0, 0, .q 3, .s 9, .v 0, .v 0, 0⟩) ∧
  decodeWord 0xC01C002121618001 = .ok (.ltTest ⟨.i8, 0, 0, .s 4, .s 5, .s 6, .v 0, 1⟩) ∧
  decodeWord 0xC800002222633C00 = .ok (.tkPush ⟨.i8, 0, 0, .s 8, .s 9, .s 12, .zero, 0⟩) ∧
  decodeWord 0xD0140021C0000001 = .ok (.rgAllow ⟨.i8, 0, 0, .s 7, .v 0, .v 0, .v 0, 1⟩) ∧
  decodeWord 0xD804003C3C000010 = .ok (.nmRatio ⟨.i8, 0, 0, .zero, .zero, .v 0, .v 0, 16⟩) ∧
  decodeWord 0xDC0C002161800002 = .ok (.sysFlog ⟨.i8, 0, 0, .s 5, .s 6, .v 0, .v 0, 2⟩) ∧
  decodeSill 0x480C4005 = .ok (.slBred ⟨0, 0, 0, 3, 2, 0, 5⟩) ∧
  decodeSill 0x98D03F80 = .ok (.slMovi ⟨3, 1, 0x3F80⟩)

/-- Decoder and encoder agree: every well-formed word of a core or of a Sill unit comes back from its
bytes, and a word that decodes is the word its instruction encodes to, which is well-formed. Clauses
of the model's choosing: log 6. -/
def Obligations.RoundTrip : Prop :=
  (∀ i : Instr, WellFormed i = true → encode i ≠ [] → decodeBytes (encode i) = .ok i) ∧
  (∀ (w : Word) (i : Instr), decodeWord w = .ok i → WellFormed i = true ∧ encodeCore i = w) ∧
  (∀ (w : BitVec 32) (i : Instr), decodeSill w = .ok i → WellFormed i = true ∧ encodeSill i = w)

/-- A step runs the decoded instruction: the next word of a team's clause, counted and at issue, the
next word of a Sill block, or the event whose turn it is; a team between clauses takes its header. A
word that fails a test of R69 does not execute. Clauses of the model's choosing: log 1. -/
def Obligations.StepRunsWord : Prop :=
  (∀ (s : State) (i : Nat) (t : Team) (o : OpenClause) (rest : List Turn), ReadyToIssue s i t o rest →
    let w := o.words.getD o.idx 0
    let check := checkWord o.eng (o.idx + 1 == o.words.length) t.desc.vregs t.desc.sregs w
    (∀ ins, check = none → decodeWord w = .ok ins → step s = exec ins (issuing s i t o rest)) ∧
    (∀ n, check = some n → t.reissue = false →
      let s1 := ({ s with turns := rest }.passed i).withTeam i fun t => t.counted o.eng w
      let lanes := t.lanesOf (wordKm w)
      (o.eng ≠ 1 → step s = .next (s1.trapInstr i [(s1.team i).record .encoding n])) ∧
      (o.eng = 1 → lanes = [] → step s = .next (s1.retire i)) ∧
      (o.eng = 1 → lanes ≠ [] → step s = .next (s1.trapInstr i [{ (s1.team i).record .encoding n with lane := lanes.headD 0 }])))) ∧
  (∀ (s : State) (i : Nat) (t : Team) (rest : List Turn), s.turns = .team i :: rest → SMap.find s.teams i = some t →
    s.awake i = true → t.clause = none → t.block = none → t.delivery = none →
      step s = exec (.clauseHeader i) { s with turns := rest, cur := none, curUnit := none }) ∧
  (∀ (s : State) (c : Nat) (b : SillBlock) (ins : Instr) (rest : List Turn), s.turns = .sill c :: rest →
    (s.sill c).running = some b → b.stop = false → (s.sill c).idx < b.prog.length →
      decodeSill (b.prog.getD (s.sill c).idx 0) = .ok ins →
        step s = exec ins { s with turns := rest, cur := none, curUnit := some c }) ∧
  (∀ (s : State) (e : Instr) (rest : List Turn), s.turns = .event e :: rest →
    step s = exec e { s with turns := rest, cur := none, curUnit := none })

/-- Every step keeps memory in its canonical form: keys rise strictly, and no listed byte is the 0 that
an unlisted one reads as. Clauses of the model's choosing: log 3. -/
def Obligations.StepKeepsSound : Prop :=
  ∀ s s' : State, s.Sound → step s = .next s' → s'.Sound

/-- After reset: no team, region, address space or allocation; no request, queue or bind record; memory
in its canonical form with nothing listed; BANKLIM's LIMIT and LIVE 16 in every unit, every layout
id 1, CAP 2,600, LTOL 0 and DRAIN 14,000. Clauses of the model's choosing: log 3, 4. -/
def Obligations.ResetValues : Prop :=
  let s := State.reset
  s.Sound ∧ s.mem = [] ∧ s.teams = [] ∧ s.regions = [] ∧ s.spaces = [] ∧ s.cores = [] ∧ s.hearth.binds = [] ∧
    s.hearth.queues = [] ∧ s.hearth.requests = [] ∧
    (∀ c, 16 - (s.sill c).limitLess = 16 ∧ 16 - (s.sill c).liveLess = 16 ∧ s.layoutId c = 1) ∧
    s.hearth.cap = 2600 ∧ s.hearth.ltol = 0 ∧ 14000 - s.hearth.drainLess = 14000 ∧ s.hearth.admpi = s.hearth.admci
end

