-- ==== Sys2Proof/Laws/Maps.lean ====
section
/-! SUPPORT. Sparse maps: what a key reads as after each operation, and that each keeps the canonical
form. -/

namespace Sys2Proof.Machine

variable {α : Type}

/-! ## Reading after an operation -/

theorem SMap.find_put_same (m : SMap α) (k : Nat) (v : α) : SMap.find (SMap.put m k v) k = some v := by
  induction m with
  | nil => simp [SMap.put, SMap.find]
  | cons e m ih =>
    obtain ⟨a, w⟩ := e
    by_cases h1 : k < a
    · simp [SMap.put, SMap.find, h1]
    · by_cases h2 : a = k
      · simp [SMap.put, SMap.find, h2]
      · simp [SMap.put, SMap.find, h1, h2, ih]

/-- What is found is an entry. -/
theorem SMap.mem_of_find (m : SMap α) {k : Nat} {v : α} (h : SMap.find m k = some v) : (k, v) ∈ m := by
  induction m with
  | nil => cases h
  | cons p m ih =>
    simp only [SMap.find] at h
    split at h
    · next e => cases h; simp [← e]
    · simp [ih h]

theorem SMap.find_put_other (m : SMap α) {j k : Nat} (v : α) (h : j ≠ k) :
    SMap.find (SMap.put m k v) j = SMap.find m j := by
  induction m with
  | nil => simp [SMap.put, SMap.find, Ne.symm h]
  | cons e m ih =>
    obtain ⟨a, w⟩ := e
    by_cases h1 : k < a
    · simp [SMap.put, SMap.find, h1, Ne.symm h]
    · by_cases h2 : a = k
      · subst h2
        simp [SMap.put, SMap.find, Ne.symm h]
      · simp [SMap.put, SMap.find, h1, h2, ih]

theorem SMap.find_del_same (m : SMap α) (k : Nat) : SMap.find (SMap.del m k) k = none := by
  induction m with
  | nil => rfl
  | cons e m ih =>
    obtain ⟨a, w⟩ := e
    by_cases h : a = k <;> simp [SMap.del, SMap.find, h, ih]

theorem SMap.find_del_other (m : SMap α) {j k : Nat} (h : j ≠ k) : SMap.find (SMap.del m k) j = SMap.find m j := by
  induction m with
  | nil => rfl
  | cons e m ih =>
    obtain ⟨a, w⟩ := e
    by_cases h1 : a = k
    · subst h1
      simp [SMap.del, SMap.find, Ne.symm h, ih]
    · simp [SMap.del, SMap.find, h1, ih]

/-- Reading a key that was written. -/
@[simp] theorem SMap.val_set_same [DecidableEq α] (d : α) (m : SMap α) (k : Nat) (v : α) :
    SMap.val (SMap.set d m k v) d k = v := by
  by_cases h : v = d
  · simp [SMap.val, SMap.set, h, SMap.find_del_same]
  · simp [SMap.val, SMap.set, h, SMap.find_put_same]

/-- Reading another key. -/
theorem SMap.val_set_other [DecidableEq α] (d : α) (m : SMap α) {j k : Nat} (v : α) (h : j ≠ k) :
    SMap.val (SMap.set d m k v) d j = SMap.val m d j := by
  by_cases hv : v = d
  · simp [SMap.val, SMap.set, hv, SMap.find_del_other m h]
  · simp [SMap.val, SMap.set, hv, SMap.find_put_other m v h]

theorem SMap.find_set_other [DecidableEq α] (d : α) (m : SMap α) {j k : Nat} (v : α) (h : j ≠ k) :
    SMap.find (SMap.set d m k v) j = SMap.find m j := by
  by_cases hv : v = d
  · simp [SMap.set, hv, SMap.find_del_other m h]
  · simp [SMap.set, hv, SMap.find_put_other m v h]

theorem SMap.find_alter_same (m : SMap α) {k : Nat} {v : α} (f : α → α) (h : SMap.find m k = some v) :
    SMap.find (SMap.alter m k f) k = some (f v) := by
  simp [SMap.alter, h, SMap.find_put_same]

theorem SMap.find_alter_other (m : SMap α) {j k : Nat} (f : α → α) (h : j ≠ k) :
    SMap.find (SMap.alter m k f) j = SMap.find m j := by
  unfold SMap.alter
  split
  · exact SMap.find_put_other m _ h
  · rfl

theorem SMap.put_put (m : SMap α) (k : Nat) (v w : α) : SMap.put (SMap.put m k v) k w = SMap.put m k w := by
  induction m with
  | nil => simp [SMap.put]
  | cons e m ih =>
    obtain ⟨a, u⟩ := e
    by_cases h1 : k < a
    · simp [SMap.put, h1]
    · by_cases h2 : a = k
      · simp [SMap.put, h2]
      · simp [SMap.put, h1, h2, ih]

/-- Two changes of one key are one change. -/
theorem SMap.alter_alter (m : SMap α) (k : Nat) (f g : α → α) :
    SMap.alter (SMap.alter m k f) k g = SMap.alter m k fun v => g (f v) := by
  cases h : SMap.find m k with
  | none => simp [SMap.alter, h]
  | some v => simp [SMap.alter, h, SMap.find_put_same, SMap.put_put]

/-! ## The canonical form -/

/-- Every key of a map is above `k`. -/
def SMap.above (k : Nat) (m : SMap α) : Prop := ∀ e ∈ m, k < e.1

theorem SMap.sorted_cons (a : Nat) (w : α) (m : SMap α) :
    SMap.sorted ((a, w) :: m) = true ↔ SMap.above a m ∧ SMap.sorted m = true := by
  induction m generalizing a w with
  | nil => simp [SMap.sorted, SMap.above]
  | cons e m ih =>
    obtain ⟨b, x⟩ := e
    simp only [SMap.sorted, Bool.and_eq_true, decide_eq_true_eq]
    constructor
    · rintro ⟨h1, h2⟩
      refine ⟨?_, h2⟩
      intro p hp
      rcases List.mem_cons.mp hp with rfl | hp
      · exact h1
      · exact Nat.lt_trans h1 (((ih b x).mp h2).1 p hp)
    · rintro ⟨h1, h2⟩
      exact ⟨h1 (b, x) (by simp), h2⟩

theorem SMap.above_put {k a : Nat} {m : SMap α} (v : α) (h : SMap.above a m) (ha : a < k) :
    SMap.above a (SMap.put m k v) := by
  induction m with
  | nil => intro p hp; simp [SMap.put] at hp; subst hp; exact ha
  | cons e m ih =>
    obtain ⟨b, w⟩ := e
    intro p hp
    have hm : SMap.above a m := fun q hq => h q (by simp [hq])
    have hb : a < b := h (b, w) (by simp)
    by_cases h1 : k < b
    · simp [SMap.put, h1] at hp
      rcases hp with rfl | rfl | hp
      · exact ha
      · exact hb
      · exact hm p hp
    · by_cases h2 : b = k
      · simp [SMap.put, h2] at hp
        rcases hp with rfl | hp
        · exact ha
        · exact hm p hp
      · simp [SMap.put, h1, h2] at hp
        rcases hp with rfl | hp
        · exact hb
        · exact ih hm p hp

theorem SMap.put_sorted {m : SMap α} (k : Nat) (v : α) (h : SMap.sorted m = true) :
    SMap.sorted (SMap.put m k v) = true := by
  induction m with
  | nil => rfl
  | cons e m ih =>
    obtain ⟨a, w⟩ := e
    obtain ⟨ha, hm⟩ := (SMap.sorted_cons a w m).mp h
    by_cases h1 : k < a
    · simp only [SMap.put, h1, if_true]
      refine (SMap.sorted_cons k v _).mpr ⟨?_, h⟩
      intro p hp
      rcases List.mem_cons.mp hp with rfl | hp
      · exact h1
      · exact Nat.lt_trans h1 (ha p hp)
    · by_cases h2 : a = k
      · subst h2
        simpa [SMap.put] using (SMap.sorted_cons a v m).mpr ⟨ha, hm⟩
      · simp only [SMap.put, h1, h2, if_false]
        exact (SMap.sorted_cons a w _).mpr ⟨SMap.above_put v ha (by omega), ih hm⟩

theorem SMap.mem_del {m : SMap α} {k : Nat} {p : Nat × α} (h : p ∈ SMap.del m k) : p ∈ m := by
  induction m with
  | nil => simp [SMap.del] at h
  | cons e m ih =>
    obtain ⟨a, w⟩ := e
    by_cases h1 : a = k
    · simp [SMap.del, h1] at h
      exact List.mem_cons_of_mem _ (ih h)
    · simp [SMap.del, h1] at h
      rcases h with rfl | h
      · simp
      · exact List.mem_cons_of_mem _ (ih h)

theorem SMap.mem_put {m : SMap α} {k : Nat} {v : α} {p : Nat × α} (h : p ∈ SMap.put m k v) : p = (k, v) ∨ p ∈ m := by
  induction m with
  | nil => simp [SMap.put] at h; exact .inl h
  | cons e m ih =>
    obtain ⟨a, w⟩ := e
    by_cases h1 : k < a
    · simpa [SMap.put, h1] using h
    · by_cases h2 : a = k
      · simp [SMap.put, h2] at h
        rcases h with h | h
        · exact .inl h
        · exact .inr (List.mem_cons_of_mem _ h)
      · simp [SMap.put, h1, h2] at h
        rcases h with h | h
        · exact .inr (by simp [h])
        · rcases ih h with h | h
          · exact .inl h
          · exact .inr (List.mem_cons_of_mem _ h)

theorem SMap.del_sorted {m : SMap α} (k : Nat) (h : SMap.sorted m = true) : SMap.sorted (SMap.del m k) = true := by
  induction m with
  | nil => rfl
  | cons e m ih =>
    obtain ⟨a, w⟩ := e
    obtain ⟨ha, hm⟩ := (SMap.sorted_cons a w m).mp h
    by_cases h1 : a = k
    · simpa [SMap.del, h1] using ih hm
    · simp only [SMap.del, h1, if_false]
      exact (SMap.sorted_cons a w _).mpr ⟨fun p hp => ha p (SMap.mem_del hp), ih hm⟩

theorem SMap.filter_sorted {m : SMap α} (q : Nat × α → Bool) (h : SMap.sorted m = true) :
    SMap.sorted (m.filter q) = true := by
  induction m with
  | nil => rfl
  | cons e m ih =>
    obtain ⟨a, w⟩ := e
    obtain ⟨ha, hm⟩ := (SMap.sorted_cons a w m).mp h
    cases hq : q (a, w) with
    | false => simpa [List.filter, hq] using ih hm
    | true =>
      simp only [List.filter, hq]
      exact (SMap.sorted_cons a w _).mpr ⟨fun p hp => ha p ((List.mem_filter.mp hp).1), ih hm⟩

/-- The canonical form, taken apart. -/
theorem SMap.wf_iff [DecidableEq α] (d : α) (m : SMap α) :
    SMap.wf d m = true ↔ SMap.sorted m = true ∧ ∀ e ∈ m, e.2 ≠ d := by
  simp [SMap.wf]

/-- A write keeps the canonical form. -/
theorem SMap.set_wf [DecidableEq α] {d : α} {m : SMap α} (k : Nat) (v : α) (h : SMap.wf d m = true) :
    SMap.wf d (SMap.set d m k v) = true := by
  obtain ⟨h1, h2⟩ := (SMap.wf_iff d m).mp h
  refine (SMap.wf_iff d _).mpr ?_
  by_cases hv : v = d
  · simp only [SMap.set, hv, if_true]
    exact ⟨SMap.del_sorted k h1, fun e he => h2 e (SMap.mem_del he)⟩
  · simp only [SMap.set, hv, if_false]
    refine ⟨SMap.put_sorted k v h1, fun e he => ?_⟩
    rcases SMap.mem_put he with rfl | he
    · exact hv
    · exact h2 e he

/-- So does leaving entries out. -/
theorem SMap.filter_wf [DecidableEq α] {d : α} {m : SMap α} (q : Nat × α → Bool) (h : SMap.wf d m = true) :
    SMap.wf d (m.filter q) = true := by
  obtain ⟨h1, h2⟩ := (SMap.wf_iff d m).mp h
  exact (SMap.wf_iff d _).mpr ⟨SMap.filter_sorted q h1, fun e he => h2 e ((List.mem_filter.mp he).1)⟩

end Sys2Proof.Machine
end

