-- ==== Sys2Proof/Laws/State.lean ====
section
/-! SUPPORT. The fields of a state and of a team after each of their updates: one lemma per field per
update, each true by rfl. -/

namespace Sys2Proof.Machine

/-! ## State.withTeam -/

@[simp] theorem State.withTeam_turns (s : State) (i : Nat) (f : Team → Team) : (s.withTeam i f).turns = s.turns := rfl
@[simp] theorem State.withTeam_cur (s : State) (i : Nat) (f : Team → Team) : (s.withTeam i f).cur = s.cur := rfl
@[simp] theorem State.withTeam_curUnit (s : State) (i : Nat) (f : Team → Team) : (s.withTeam i f).curUnit = s.curUnit := rfl
@[simp] theorem State.withTeam_free (s : State) (i : Nat) (f : Team → Team) : (s.withTeam i f).free = s.free := rfl
@[simp] theorem State.withTeam_serial (s : State) (i : Nat) (f : Team → Team) : (s.withTeam i f).serial = s.serial := rfl
@[simp] theorem State.withTeam_teams (s : State) (i : Nat) (f : Team → Team) : (s.withTeam i f).teams = SMap.alter s.teams i f := rfl
@[simp] theorem State.withTeam_returns (s : State) (i : Nat) (f : Team → Team) : (s.withTeam i f).returns = s.returns := rfl
@[simp] theorem State.withTeam_cores (s : State) (i : Nat) (f : Team → Team) : (s.withTeam i f).cores = s.cores := rfl
@[simp] theorem State.withTeam_tasks (s : State) (i : Nat) (f : Team → Team) : (s.withTeam i f).tasks = s.tasks := rfl
@[simp] theorem State.withTeam_pushed (s : State) (i : Nat) (f : Team → Team) : (s.withTeam i f).pushed = s.pushed := rfl
@[simp] theorem State.withTeam_rings (s : State) (i : Nat) (f : Team → Team) : (s.withTeam i f).rings = s.rings := rfl
@[simp] theorem State.withTeam_mem (s : State) (i : Nat) (f : Team → Team) : (s.withTeam i f).mem = s.mem := rfl
@[simp] theorem State.withTeam_metadata (s : State) (i : Nat) (f : Team → Team) : (s.withTeam i f).metadata = s.metadata := rfl
@[simp] theorem State.withTeam_covers (s : State) (i : Nat) (f : Team → Team) : (s.withTeam i f).covers = s.covers := rfl
@[simp] theorem State.withTeam_writes (s : State) (i : Nat) (f : Team → Team) : (s.withTeam i f).writes = s.writes := rfl
@[simp] theorem State.withTeam_mortarIn (s : State) (i : Nat) (f : Team → Team) : (s.withTeam i f).mortarIn = s.mortarIn := rfl
@[simp] theorem State.withTeam_mortar (s : State) (i : Nat) (f : Team → Team) : (s.withTeam i f).mortar = s.mortar := rfl
@[simp] theorem State.withTeam_copies (s : State) (i : Nat) (f : Team → Team) : (s.withTeam i f).copies = s.copies := rfl
@[simp] theorem State.withTeam_sills (s : State) (i : Nat) (f : Team → Team) : (s.withTeam i f).sills = s.sills := rfl
@[simp] theorem State.withTeam_grids (s : State) (i : Nat) (f : Team → Team) : (s.withTeam i f).grids = s.grids := rfl
@[simp] theorem State.withTeam_channels (s : State) (i : Nat) (f : Team → Team) : (s.withTeam i f).channels = s.channels := rfl
@[simp] theorem State.withTeam_spaces (s : State) (i : Nat) (f : Team → Team) : (s.withTeam i f).spaces = s.spaces := rfl
@[simp] theorem State.withTeam_regions (s : State) (i : Nat) (f : Team → Team) : (s.withTeam i f).regions = s.regions := rfl
@[simp] theorem State.withTeam_hearth (s : State) (i : Nat) (f : Team → Team) : (s.withTeam i f).hearth = s.hearth := rfl
@[simp] theorem State.withTeam_cellars (s : State) (i : Nat) (f : Team → Team) : (s.withTeam i f).cellars = s.cellars := rfl

/-! ## State.withCore -/

@[simp] theorem State.withCore_turns (s : State) (i : Nat) (f : Core → Core) : (s.withCore i f).turns = s.turns := rfl
@[simp] theorem State.withCore_cur (s : State) (i : Nat) (f : Core → Core) : (s.withCore i f).cur = s.cur := rfl
@[simp] theorem State.withCore_curUnit (s : State) (i : Nat) (f : Core → Core) : (s.withCore i f).curUnit = s.curUnit := rfl
@[simp] theorem State.withCore_free (s : State) (i : Nat) (f : Core → Core) : (s.withCore i f).free = s.free := rfl
@[simp] theorem State.withCore_serial (s : State) (i : Nat) (f : Core → Core) : (s.withCore i f).serial = s.serial := rfl
@[simp] theorem State.withCore_teams (s : State) (i : Nat) (f : Core → Core) : (s.withCore i f).teams = s.teams := rfl
@[simp] theorem State.withCore_returns (s : State) (i : Nat) (f : Core → Core) : (s.withCore i f).returns = s.returns := rfl
@[simp] theorem State.withCore_cores (s : State) (i : Nat) (f : Core → Core) : (s.withCore i f).cores = SMap.upd {} s.cores i f := rfl
@[simp] theorem State.withCore_tasks (s : State) (i : Nat) (f : Core → Core) : (s.withCore i f).tasks = s.tasks := rfl
@[simp] theorem State.withCore_pushed (s : State) (i : Nat) (f : Core → Core) : (s.withCore i f).pushed = s.pushed := rfl
@[simp] theorem State.withCore_rings (s : State) (i : Nat) (f : Core → Core) : (s.withCore i f).rings = s.rings := rfl
@[simp] theorem State.withCore_mem (s : State) (i : Nat) (f : Core → Core) : (s.withCore i f).mem = s.mem := rfl
@[simp] theorem State.withCore_metadata (s : State) (i : Nat) (f : Core → Core) : (s.withCore i f).metadata = s.metadata := rfl
@[simp] theorem State.withCore_covers (s : State) (i : Nat) (f : Core → Core) : (s.withCore i f).covers = s.covers := rfl
@[simp] theorem State.withCore_writes (s : State) (i : Nat) (f : Core → Core) : (s.withCore i f).writes = s.writes := rfl
@[simp] theorem State.withCore_mortarIn (s : State) (i : Nat) (f : Core → Core) : (s.withCore i f).mortarIn = s.mortarIn := rfl
@[simp] theorem State.withCore_mortar (s : State) (i : Nat) (f : Core → Core) : (s.withCore i f).mortar = s.mortar := rfl
@[simp] theorem State.withCore_copies (s : State) (i : Nat) (f : Core → Core) : (s.withCore i f).copies = s.copies := rfl
@[simp] theorem State.withCore_sills (s : State) (i : Nat) (f : Core → Core) : (s.withCore i f).sills = s.sills := rfl
@[simp] theorem State.withCore_grids (s : State) (i : Nat) (f : Core → Core) : (s.withCore i f).grids = s.grids := rfl
@[simp] theorem State.withCore_channels (s : State) (i : Nat) (f : Core → Core) : (s.withCore i f).channels = s.channels := rfl
@[simp] theorem State.withCore_spaces (s : State) (i : Nat) (f : Core → Core) : (s.withCore i f).spaces = s.spaces := rfl
@[simp] theorem State.withCore_regions (s : State) (i : Nat) (f : Core → Core) : (s.withCore i f).regions = s.regions := rfl
@[simp] theorem State.withCore_hearth (s : State) (i : Nat) (f : Core → Core) : (s.withCore i f).hearth = s.hearth := rfl
@[simp] theorem State.withCore_cellars (s : State) (i : Nat) (f : Core → Core) : (s.withCore i f).cellars = s.cellars := rfl

/-! ## State.withSpace -/

@[simp] theorem State.withSpace_turns (s : State) (i : Nat) (f : Space → Space) : (s.withSpace i f).turns = s.turns := rfl
@[simp] theorem State.withSpace_cur (s : State) (i : Nat) (f : Space → Space) : (s.withSpace i f).cur = s.cur := rfl
@[simp] theorem State.withSpace_curUnit (s : State) (i : Nat) (f : Space → Space) : (s.withSpace i f).curUnit = s.curUnit := rfl
@[simp] theorem State.withSpace_free (s : State) (i : Nat) (f : Space → Space) : (s.withSpace i f).free = s.free := rfl
@[simp] theorem State.withSpace_serial (s : State) (i : Nat) (f : Space → Space) : (s.withSpace i f).serial = s.serial := rfl
@[simp] theorem State.withSpace_teams (s : State) (i : Nat) (f : Space → Space) : (s.withSpace i f).teams = s.teams := rfl
@[simp] theorem State.withSpace_returns (s : State) (i : Nat) (f : Space → Space) : (s.withSpace i f).returns = s.returns := rfl
@[simp] theorem State.withSpace_cores (s : State) (i : Nat) (f : Space → Space) : (s.withSpace i f).cores = s.cores := rfl
@[simp] theorem State.withSpace_tasks (s : State) (i : Nat) (f : Space → Space) : (s.withSpace i f).tasks = s.tasks := rfl
@[simp] theorem State.withSpace_pushed (s : State) (i : Nat) (f : Space → Space) : (s.withSpace i f).pushed = s.pushed := rfl
@[simp] theorem State.withSpace_rings (s : State) (i : Nat) (f : Space → Space) : (s.withSpace i f).rings = s.rings := rfl
@[simp] theorem State.withSpace_mem (s : State) (i : Nat) (f : Space → Space) : (s.withSpace i f).mem = s.mem := rfl
@[simp] theorem State.withSpace_metadata (s : State) (i : Nat) (f : Space → Space) : (s.withSpace i f).metadata = s.metadata := rfl
@[simp] theorem State.withSpace_covers (s : State) (i : Nat) (f : Space → Space) : (s.withSpace i f).covers = s.covers := rfl
@[simp] theorem State.withSpace_writes (s : State) (i : Nat) (f : Space → Space) : (s.withSpace i f).writes = s.writes := rfl
@[simp] theorem State.withSpace_mortarIn (s : State) (i : Nat) (f : Space → Space) : (s.withSpace i f).mortarIn = s.mortarIn := rfl
@[simp] theorem State.withSpace_mortar (s : State) (i : Nat) (f : Space → Space) : (s.withSpace i f).mortar = s.mortar := rfl
@[simp] theorem State.withSpace_copies (s : State) (i : Nat) (f : Space → Space) : (s.withSpace i f).copies = s.copies := rfl
@[simp] theorem State.withSpace_sills (s : State) (i : Nat) (f : Space → Space) : (s.withSpace i f).sills = s.sills := rfl
@[simp] theorem State.withSpace_grids (s : State) (i : Nat) (f : Space → Space) : (s.withSpace i f).grids = s.grids := rfl
@[simp] theorem State.withSpace_channels (s : State) (i : Nat) (f : Space → Space) : (s.withSpace i f).channels = s.channels := rfl
@[simp] theorem State.withSpace_spaces (s : State) (i : Nat) (f : Space → Space) : (s.withSpace i f).spaces = SMap.alter s.spaces i f := rfl
@[simp] theorem State.withSpace_regions (s : State) (i : Nat) (f : Space → Space) : (s.withSpace i f).regions = s.regions := rfl
@[simp] theorem State.withSpace_hearth (s : State) (i : Nat) (f : Space → Space) : (s.withSpace i f).hearth = s.hearth := rfl
@[simp] theorem State.withSpace_cellars (s : State) (i : Nat) (f : Space → Space) : (s.withSpace i f).cellars = s.cellars := rfl

/-! ## State.withRegion -/

@[simp] theorem State.withRegion_turns (s : State) (i : Nat) (f : Region → Region) : (s.withRegion i f).turns = s.turns := rfl
@[simp] theorem State.withRegion_cur (s : State) (i : Nat) (f : Region → Region) : (s.withRegion i f).cur = s.cur := rfl
@[simp] theorem State.withRegion_curUnit (s : State) (i : Nat) (f : Region → Region) : (s.withRegion i f).curUnit = s.curUnit := rfl
@[simp] theorem State.withRegion_free (s : State) (i : Nat) (f : Region → Region) : (s.withRegion i f).free = s.free := rfl
@[simp] theorem State.withRegion_serial (s : State) (i : Nat) (f : Region → Region) : (s.withRegion i f).serial = s.serial := rfl
@[simp] theorem State.withRegion_teams (s : State) (i : Nat) (f : Region → Region) : (s.withRegion i f).teams = s.teams := rfl
@[simp] theorem State.withRegion_returns (s : State) (i : Nat) (f : Region → Region) : (s.withRegion i f).returns = s.returns := rfl
@[simp] theorem State.withRegion_cores (s : State) (i : Nat) (f : Region → Region) : (s.withRegion i f).cores = s.cores := rfl
@[simp] theorem State.withRegion_tasks (s : State) (i : Nat) (f : Region → Region) : (s.withRegion i f).tasks = s.tasks := rfl
@[simp] theorem State.withRegion_pushed (s : State) (i : Nat) (f : Region → Region) : (s.withRegion i f).pushed = s.pushed := rfl
@[simp] theorem State.withRegion_rings (s : State) (i : Nat) (f : Region → Region) : (s.withRegion i f).rings = s.rings := rfl
@[simp] theorem State.withRegion_mem (s : State) (i : Nat) (f : Region → Region) : (s.withRegion i f).mem = s.mem := rfl
@[simp] theorem State.withRegion_metadata (s : State) (i : Nat) (f : Region → Region) : (s.withRegion i f).metadata = s.metadata := rfl
@[simp] theorem State.withRegion_covers (s : State) (i : Nat) (f : Region → Region) : (s.withRegion i f).covers = s.covers := rfl
@[simp] theorem State.withRegion_writes (s : State) (i : Nat) (f : Region → Region) : (s.withRegion i f).writes = s.writes := rfl
@[simp] theorem State.withRegion_mortarIn (s : State) (i : Nat) (f : Region → Region) : (s.withRegion i f).mortarIn = s.mortarIn := rfl
@[simp] theorem State.withRegion_mortar (s : State) (i : Nat) (f : Region → Region) : (s.withRegion i f).mortar = s.mortar := rfl
@[simp] theorem State.withRegion_copies (s : State) (i : Nat) (f : Region → Region) : (s.withRegion i f).copies = s.copies := rfl
@[simp] theorem State.withRegion_sills (s : State) (i : Nat) (f : Region → Region) : (s.withRegion i f).sills = s.sills := rfl
@[simp] theorem State.withRegion_grids (s : State) (i : Nat) (f : Region → Region) : (s.withRegion i f).grids = s.grids := rfl
@[simp] theorem State.withRegion_channels (s : State) (i : Nat) (f : Region → Region) : (s.withRegion i f).channels = s.channels := rfl
@[simp] theorem State.withRegion_spaces (s : State) (i : Nat) (f : Region → Region) : (s.withRegion i f).spaces = s.spaces := rfl
@[simp] theorem State.withRegion_regions (s : State) (i : Nat) (f : Region → Region) : (s.withRegion i f).regions = SMap.alter s.regions i f := rfl
@[simp] theorem State.withRegion_hearth (s : State) (i : Nat) (f : Region → Region) : (s.withRegion i f).hearth = s.hearth := rfl
@[simp] theorem State.withRegion_cellars (s : State) (i : Nat) (f : Region → Region) : (s.withRegion i f).cellars = s.cellars := rfl

/-! ## State.withSill -/

@[simp] theorem State.withSill_turns (s : State) (i : Nat) (f : Sill → Sill) : (s.withSill i f).turns = s.turns := rfl
@[simp] theorem State.withSill_cur (s : State) (i : Nat) (f : Sill → Sill) : (s.withSill i f).cur = s.cur := rfl
@[simp] theorem State.withSill_curUnit (s : State) (i : Nat) (f : Sill → Sill) : (s.withSill i f).curUnit = s.curUnit := rfl
@[simp] theorem State.withSill_free (s : State) (i : Nat) (f : Sill → Sill) : (s.withSill i f).free = s.free := rfl
@[simp] theorem State.withSill_serial (s : State) (i : Nat) (f : Sill → Sill) : (s.withSill i f).serial = s.serial := rfl
@[simp] theorem State.withSill_teams (s : State) (i : Nat) (f : Sill → Sill) : (s.withSill i f).teams = s.teams := rfl
@[simp] theorem State.withSill_returns (s : State) (i : Nat) (f : Sill → Sill) : (s.withSill i f).returns = s.returns := rfl
@[simp] theorem State.withSill_cores (s : State) (i : Nat) (f : Sill → Sill) : (s.withSill i f).cores = s.cores := rfl
@[simp] theorem State.withSill_tasks (s : State) (i : Nat) (f : Sill → Sill) : (s.withSill i f).tasks = s.tasks := rfl
@[simp] theorem State.withSill_pushed (s : State) (i : Nat) (f : Sill → Sill) : (s.withSill i f).pushed = s.pushed := rfl
@[simp] theorem State.withSill_rings (s : State) (i : Nat) (f : Sill → Sill) : (s.withSill i f).rings = s.rings := rfl
@[simp] theorem State.withSill_mem (s : State) (i : Nat) (f : Sill → Sill) : (s.withSill i f).mem = s.mem := rfl
@[simp] theorem State.withSill_metadata (s : State) (i : Nat) (f : Sill → Sill) : (s.withSill i f).metadata = s.metadata := rfl
@[simp] theorem State.withSill_covers (s : State) (i : Nat) (f : Sill → Sill) : (s.withSill i f).covers = s.covers := rfl
@[simp] theorem State.withSill_writes (s : State) (i : Nat) (f : Sill → Sill) : (s.withSill i f).writes = s.writes := rfl
@[simp] theorem State.withSill_mortarIn (s : State) (i : Nat) (f : Sill → Sill) : (s.withSill i f).mortarIn = s.mortarIn := rfl
@[simp] theorem State.withSill_mortar (s : State) (i : Nat) (f : Sill → Sill) : (s.withSill i f).mortar = s.mortar := rfl
@[simp] theorem State.withSill_copies (s : State) (i : Nat) (f : Sill → Sill) : (s.withSill i f).copies = s.copies := rfl
@[simp] theorem State.withSill_sills (s : State) (i : Nat) (f : Sill → Sill) : (s.withSill i f).sills = SMap.upd {} s.sills i f := rfl
@[simp] theorem State.withSill_grids (s : State) (i : Nat) (f : Sill → Sill) : (s.withSill i f).grids = s.grids := rfl
@[simp] theorem State.withSill_channels (s : State) (i : Nat) (f : Sill → Sill) : (s.withSill i f).channels = s.channels := rfl
@[simp] theorem State.withSill_spaces (s : State) (i : Nat) (f : Sill → Sill) : (s.withSill i f).spaces = s.spaces := rfl
@[simp] theorem State.withSill_regions (s : State) (i : Nat) (f : Sill → Sill) : (s.withSill i f).regions = s.regions := rfl
@[simp] theorem State.withSill_hearth (s : State) (i : Nat) (f : Sill → Sill) : (s.withSill i f).hearth = s.hearth := rfl
@[simp] theorem State.withSill_cellars (s : State) (i : Nat) (f : Sill → Sill) : (s.withSill i f).cellars = s.cellars := rfl

/-! ## State.withHearth -/

@[simp] theorem State.withHearth_turns (s : State) (f : Hearth → Hearth) : (s.withHearth f).turns = s.turns := rfl
@[simp] theorem State.withHearth_cur (s : State) (f : Hearth → Hearth) : (s.withHearth f).cur = s.cur := rfl
@[simp] theorem State.withHearth_curUnit (s : State) (f : Hearth → Hearth) : (s.withHearth f).curUnit = s.curUnit := rfl
@[simp] theorem State.withHearth_free (s : State) (f : Hearth → Hearth) : (s.withHearth f).free = s.free := rfl
@[simp] theorem State.withHearth_serial (s : State) (f : Hearth → Hearth) : (s.withHearth f).serial = s.serial := rfl
@[simp] theorem State.withHearth_teams (s : State) (f : Hearth → Hearth) : (s.withHearth f).teams = s.teams := rfl
@[simp] theorem State.withHearth_returns (s : State) (f : Hearth → Hearth) : (s.withHearth f).returns = s.returns := rfl
@[simp] theorem State.withHearth_cores (s : State) (f : Hearth → Hearth) : (s.withHearth f).cores = s.cores := rfl
@[simp] theorem State.withHearth_tasks (s : State) (f : Hearth → Hearth) : (s.withHearth f).tasks = s.tasks := rfl
@[simp] theorem State.withHearth_pushed (s : State) (f : Hearth → Hearth) : (s.withHearth f).pushed = s.pushed := rfl
@[simp] theorem State.withHearth_rings (s : State) (f : Hearth → Hearth) : (s.withHearth f).rings = s.rings := rfl
@[simp] theorem State.withHearth_mem (s : State) (f : Hearth → Hearth) : (s.withHearth f).mem = s.mem := rfl
@[simp] theorem State.withHearth_metadata (s : State) (f : Hearth → Hearth) : (s.withHearth f).metadata = s.metadata := rfl
@[simp] theorem State.withHearth_covers (s : State) (f : Hearth → Hearth) : (s.withHearth f).covers = s.covers := rfl
@[simp] theorem State.withHearth_writes (s : State) (f : Hearth → Hearth) : (s.withHearth f).writes = s.writes := rfl
@[simp] theorem State.withHearth_mortarIn (s : State) (f : Hearth → Hearth) : (s.withHearth f).mortarIn = s.mortarIn := rfl
@[simp] theorem State.withHearth_mortar (s : State) (f : Hearth → Hearth) : (s.withHearth f).mortar = s.mortar := rfl
@[simp] theorem State.withHearth_copies (s : State) (f : Hearth → Hearth) : (s.withHearth f).copies = s.copies := rfl
@[simp] theorem State.withHearth_sills (s : State) (f : Hearth → Hearth) : (s.withHearth f).sills = s.sills := rfl
@[simp] theorem State.withHearth_grids (s : State) (f : Hearth → Hearth) : (s.withHearth f).grids = s.grids := rfl
@[simp] theorem State.withHearth_channels (s : State) (f : Hearth → Hearth) : (s.withHearth f).channels = s.channels := rfl
@[simp] theorem State.withHearth_spaces (s : State) (f : Hearth → Hearth) : (s.withHearth f).spaces = s.spaces := rfl
@[simp] theorem State.withHearth_regions (s : State) (f : Hearth → Hearth) : (s.withHearth f).regions = s.regions := rfl
@[simp] theorem State.withHearth_hearth (s : State) (f : Hearth → Hearth) : (s.withHearth f).hearth = f s.hearth := rfl
@[simp] theorem State.withHearth_cellars (s : State) (f : Hearth → Hearth) : (s.withHearth f).cellars = s.cellars := rfl

/-! ## Team.setV -/

@[simp] theorem Team.setV_asid (t : Team) (l r : Nat) (x : LaneWord) : (t.setV l r x).asid = t.asid := rfl
@[simp] theorem Team.setV_timeline (t : Team) (l r : Nat) (x : LaneWord) : (t.setV l r x).timeline = t.timeline := rfl
@[simp] theorem Team.setV_launch (t : Team) (l r : Nat) (x : LaneWord) : (t.setV l r x).launch = t.launch := rfl
@[simp] theorem Team.setV_desc (t : Team) (l r : Nat) (x : LaneWord) : (t.setV l r x).desc = t.desc := rfl
@[simp] theorem Team.setV_lanes (t : Team) (l r : Nat) (x : LaneWord) : (t.setV l r x).lanes = t.lanes := rfl
@[simp] theorem Team.setV_teamix (t : Team) (l r : Nat) (x : LaneWord) : (t.setV l r x).teamix = t.teamix := rfl
@[simp] theorem Team.setV_origin (t : Team) (l r : Nat) (x : LaneWord) : (t.setV l r x).origin = t.origin := rfl
@[simp] theorem Team.setV_taskLoc (t : Team) (l r : Nat) (x : LaneWord) : (t.setV l r x).taskLoc = t.taskLoc := rfl
@[simp] theorem Team.setV_tasks (t : Team) (l r : Nat) (x : LaneWord) : (t.setV l r x).tasks = t.tasks := rfl
@[simp] theorem Team.setV_place (t : Team) (l r : Nat) (x : LaneWord) : (t.setV l r x).place = t.place := rfl
@[simp] theorem Team.setV_core (t : Team) (l r : Nat) (x : LaneWord) : (t.setV l r x).core = t.core := rfl
@[simp] theorem Team.setV_slot (t : Team) (l r : Nat) (x : LaneWord) : (t.setV l r x).slot = t.slot := rfl
@[simp] theorem Team.setV_bind (t : Team) (l r : Nat) (x : LaneWord) : (t.setV l r x).bind = t.bind := rfl
@[simp] theorem Team.setV_ctx (t : Team) (l r : Nat) (x : LaneWord) : (t.setV l r x).ctx = t.ctx := rfl
@[simp] theorem Team.setV_parked (t : Team) (l r : Nat) (x : LaneWord) : (t.setV l r x).parked = t.parked := rfl
@[simp] theorem Team.setV_debugStop (t : Team) (l r : Nat) (x : LaneWord) : (t.setV l r x).debugStop = t.debugStop := rfl
@[simp] theorem Team.setV_saveLive (t : Team) (l r : Nat) (x : LaneWord) : (t.setV l r x).saveLive = t.saveLive := rfl
@[simp] theorem Team.setV_fullSave (t : Team) (l r : Nat) (x : LaneWord) : (t.setV l r x).fullSave = t.fullSave := rfl
@[simp] theorem Team.setV_keptKey (t : Team) (l r : Nat) (x : LaneWord) : (t.setV l r x).keptKey = t.keptKey := rfl
@[simp] theorem Team.setV_keptBuf (t : Team) (l r : Nat) (x : LaneWord) : (t.setV l r x).keptBuf = t.keptBuf := rfl
@[simp] theorem Team.setV_keptPoison (t : Team) (l r : Nat) (x : LaneWord) : (t.setV l r x).keptPoison = t.keptPoison := rfl
@[simp] theorem Team.setV_keptTags (t : Team) (l r : Nat) (x : LaneWord) : (t.setV l r x).keptTags = t.keptTags := rfl
@[simp] theorem Team.setV_keptLoads (t : Team) (l r : Nat) (x : LaneWord) : (t.setV l r x).keptLoads = t.keptLoads := rfl
@[simp] theorem Team.setV_exm (t : Team) (l r : Nat) (x : LaneWord) : (t.setV l r x).exm = t.exm := rfl
@[simp] theorem Team.setV_k (t : Team) (l r : Nat) (x : LaneWord) : (t.setV l r x).k = t.k := rfl
@[simp] theorem Team.setV_a (t : Team) (l r : Nat) (x : LaneWord) : (t.setV l r x).a = t.a := rfl
@[simp] theorem Team.setV_v (t : Team) (l r : Nat) (x : LaneWord) : (t.setV l r x).v = SMap.set 0 t.v (vKey l r) x := rfl
@[simp] theorem Team.setV_s (t : Team) (l r : Nat) (x : LaneWord) : (t.setV l r x).s = t.s := rfl
@[simp] theorem Team.setV_vPoison (t : Team) (l r : Nat) (x : LaneWord) : (t.setV l r x).vPoison = SMap.del t.vPoison (vKey l r) := rfl
@[simp] theorem Team.setV_sPoison (t : Team) (l r : Nat) (x : LaneWord) : (t.setV l r x).sPoison = t.sPoison := rfl
@[simp] theorem Team.setV_q (t : Team) (l r : Nat) (x : LaneWord) : (t.setV l r x).q = t.q := rfl
@[simp] theorem Team.setV_stack (t : Team) (l r : Nat) (x : LaneWord) : (t.setV l r x).stack = t.stack := rfl
@[simp] theorem Team.setV_exited (t : Team) (l r : Nat) (x : LaneWord) : (t.setV l r x).exited = t.exited := rfl
@[simp] theorem Team.setV_pc (t : Team) (l r : Nat) (x : LaneWord) : (t.setV l r x).pc = t.pc := rfl
@[simp] theorem Team.setV_clause (t : Team) (l r : Nat) (x : LaneWord) : (t.setV l r x).clause = t.clause := rfl
@[simp] theorem Team.setV_after (t : Team) (l r : Nat) (x : LaneWord) : (t.setV l r x).after = t.after := rfl
@[simp] theorem Team.setV_returning (t : Team) (l r : Nat) (x : LaneWord) : (t.setV l r x).returning = t.returning := rfl
@[simp] theorem Team.setV_skip (t : Team) (l r : Nat) (x : LaneWord) : (t.setV l r x).skip = t.skip := rfl
@[simp] theorem Team.setV_block (t : Team) (l r : Nat) (x : LaneWord) : (t.setV l r x).block = t.block := rfl
@[simp] theorem Team.setV_served (t : Team) (l r : Nat) (x : LaneWord) : (t.setV l r x).served = t.served := rfl
@[simp] theorem Team.setV_popped (t : Team) (l r : Nat) (x : LaneWord) : (t.setV l r x).popped = t.popped := rfl
@[simp] theorem Team.setV_step (t : Team) (l r : Nat) (x : LaneWord) : (t.setV l r x).step = t.step := rfl
@[simp] theorem Team.setV_reissue (t : Team) (l r : Nat) (x : LaneWord) : (t.setV l r x).reissue = t.reissue := rfl
@[simp] theorem Team.setV_unitNow (t : Team) (l r : Nat) (x : LaneWord) : (t.setV l r x).unitNow = t.unitNow := rfl
@[simp] theorem Team.setV_groupNow (t : Team) (l r : Nat) (x : LaneWord) : (t.setV l r x).groupNow = t.groupNow := rfl
@[simp] theorem Team.setV_declared (t : Team) (l r : Nat) (x : LaneWord) : (t.setV l r x).declared = t.declared := rfl
@[simp] theorem Team.setV_stalled (t : Team) (l r : Nat) (x : LaneWord) : (t.setV l r x).stalled = t.stalled := rfl
@[simp] theorem Team.setV_accb (t : Team) (l r : Nat) (x : LaneWord) : (t.setV l r x).accb = t.accb := rfl
@[simp] theorem Team.setV_mxc (t : Team) (l r : Nat) (x : LaneWord) : (t.setV l r x).mxc = t.mxc := rfl
@[simp] theorem Team.setV_fpc (t : Team) (l r : Nat) (x : LaneWord) : (t.setV l r x).fpc = t.fpc := rfl
@[simp] theorem Team.setV_fpf (t : Team) (l r : Nat) (x : LaneWord) : (t.setV l r x).fpf = t.fpf := rfl
@[simp] theorem Team.setV_dcc (t : Team) (l r : Nat) (x : LaneWord) : (t.setV l r x).dcc = t.dcc := rfl
@[simp] theorem Team.setV_dcf (t : Team) (l r : Nat) (x : LaneWord) : (t.setV l r x).dcf = t.dcf := rfl
@[simp] theorem Team.setV_frecb (t : Team) (l r : Nat) (x : LaneWord) : (t.setV l r x).frecb = t.frecb := rfl
@[simp] theorem Team.setV_handler (t : Team) (l r : Nat) (x : LaneWord) : (t.setV l r x).handler = t.handler := rfl
@[simp] theorem Team.setV_causeCount (t : Team) (l r : Nat) (x : LaneWord) : (t.setV l r x).causeCount = t.causeCount := rfl
@[simp] theorem Team.setV_causeOrigin (t : Team) (l r : Nat) (x : LaneWord) : (t.setV l r x).causeOrigin = t.causeOrigin := rfl
@[simp] theorem Team.setV_causeCode (t : Team) (l r : Nat) (x : LaneWord) : (t.setV l r x).causeCode = t.causeCode := rfl
@[simp] theorem Team.setV_rpc (t : Team) (l r : Nat) (x : LaneWord) : (t.setV l r x).rpc = t.rpc := rfl
@[simp] theorem Team.setV_handled (t : Team) (l r : Nat) (x : LaneWord) : (t.setV l r x).handled = t.handled := rfl
@[simp] theorem Team.setV_delivery (t : Team) (l r : Nat) (x : LaneWord) : (t.setV l r x).delivery = t.delivery := rfl
@[simp] theorem Team.setV_headerRecs (t : Team) (l r : Nat) (x : LaneWord) : (t.setV l r x).headerRecs = t.headerRecs := rfl
@[simp] theorem Team.setV_score (t : Team) (l r : Nat) (x : LaneWord) : (t.setV l r x).score = t.score := rfl
@[simp] theorem Team.setV_allow (t : Team) (l r : Nat) (x : LaneWord) : (t.setV l r x).allow = t.allow := rfl
@[simp] theorem Team.setV_budgetDue (t : Team) (l r : Nat) (x : LaneWord) : (t.setV l r x).budgetDue = t.budgetDue := rfl
@[simp] theorem Team.setV_split (t : Team) (l r : Nat) (x : LaneWord) : (t.setV l r x).split = t.split := rfl
@[simp] theorem Team.setV_now (t : Team) (l r : Nat) (x : LaneWord) : (t.setV l r x).now = t.now := rfl
@[simp] theorem Team.setV_holds (t : Team) (l r : Nat) (x : LaneWord) : (t.setV l r x).holds = t.holds := rfl
@[simp] theorem Team.setV_issued (t : Team) (l r : Nat) (x : LaneWord) : (t.setV l r x).issued = t.issued := rfl
@[simp] theorem Team.setV_undrained (t : Team) (l r : Nat) (x : LaneWord) : (t.setV l r x).undrained = t.undrained := rfl
@[simp] theorem Team.setV_owed (t : Team) (l r : Nat) (x : LaneWord) : (t.setV l r x).owed = t.owed := rfl
@[simp] theorem Team.setV_copySeq (t : Team) (l r : Nat) (x : LaneWord) : (t.setV l r x).copySeq = t.copySeq := rfl
@[simp] theorem Team.setV_gap (t : Team) (l r : Nat) (x : LaneWord) : (t.setV l r x).gap = t.gap := rfl
@[simp] theorem Team.setV_ops (t : Team) (l r : Nat) (x : LaneWord) : (t.setV l r x).ops = t.ops := rfl
@[simp] theorem Team.setV_acc (t : Team) (l r : Nat) (x : LaneWord) : (t.setV l r x).acc = t.acc := rfl
@[simp] theorem Team.setV_accrows (t : Team) (l r : Nat) (x : LaneWord) : (t.setV l r x).accrows = t.accrows := rfl
@[simp] theorem Team.setV_staged (t : Team) (l r : Nat) (x : LaneWord) : (t.setV l r x).staged = t.staged := rfl
@[simp] theorem Team.setV_released (t : Team) (l r : Nat) (x : LaneWord) : (t.setV l r x).released = t.released := rfl
@[simp] theorem Team.setV_wantsKey (t : Team) (l r : Nat) (x : LaneWord) : (t.setV l r x).wantsKey = t.wantsKey := rfl
@[simp] theorem Team.setV_parkWait (t : Team) (l r : Nat) (x : LaneWord) : (t.setV l r x).parkWait = t.parkWait := rfl
@[simp] theorem Team.setV_gaveUp (t : Team) (l r : Nat) (x : LaneWord) : (t.setV l r x).gaveUp = t.gaveUp := rfl
@[simp] theorem Team.setV_behind (t : Team) (l r : Nat) (x : LaneWord) : (t.setV l r x).behind = t.behind := rfl
@[simp] theorem Team.setV_acquired (t : Team) (l r : Nat) (x : LaneWord) : (t.setV l r x).acquired = t.acquired := rfl
@[simp] theorem Team.setV_mxq (t : Team) (l r : Nat) (x : LaneWord) : (t.setV l r x).mxq = t.mxq := rfl
@[simp] theorem Team.setV_lanePages (t : Team) (l r : Nat) (x : LaneWord) : (t.setV l r x).lanePages = t.lanePages := rfl
@[simp] theorem Team.setV_frontPage (t : Team) (l r : Nat) (x : LaneWord) : (t.setV l r x).frontPage = t.frontPage := rfl

/-! ## Team.setS -/

@[simp] theorem Team.setS_asid (t : Team) (r : Nat) (x : Word) : (t.setS r x).asid = t.asid := rfl
@[simp] theorem Team.setS_timeline (t : Team) (r : Nat) (x : Word) : (t.setS r x).timeline = t.timeline := rfl
@[simp] theorem Team.setS_launch (t : Team) (r : Nat) (x : Word) : (t.setS r x).launch = t.launch := rfl
@[simp] theorem Team.setS_desc (t : Team) (r : Nat) (x : Word) : (t.setS r x).desc = t.desc := rfl
@[simp] theorem Team.setS_lanes (t : Team) (r : Nat) (x : Word) : (t.setS r x).lanes = t.lanes := rfl
@[simp] theorem Team.setS_teamix (t : Team) (r : Nat) (x : Word) : (t.setS r x).teamix = t.teamix := rfl
@[simp] theorem Team.setS_origin (t : Team) (r : Nat) (x : Word) : (t.setS r x).origin = t.origin := rfl
@[simp] theorem Team.setS_taskLoc (t : Team) (r : Nat) (x : Word) : (t.setS r x).taskLoc = t.taskLoc := rfl
@[simp] theorem Team.setS_tasks (t : Team) (r : Nat) (x : Word) : (t.setS r x).tasks = t.tasks := rfl
@[simp] theorem Team.setS_place (t : Team) (r : Nat) (x : Word) : (t.setS r x).place = t.place := rfl
@[simp] theorem Team.setS_core (t : Team) (r : Nat) (x : Word) : (t.setS r x).core = t.core := rfl
@[simp] theorem Team.setS_slot (t : Team) (r : Nat) (x : Word) : (t.setS r x).slot = t.slot := rfl
@[simp] theorem Team.setS_bind (t : Team) (r : Nat) (x : Word) : (t.setS r x).bind = t.bind := rfl
@[simp] theorem Team.setS_ctx (t : Team) (r : Nat) (x : Word) : (t.setS r x).ctx = t.ctx := rfl
@[simp] theorem Team.setS_parked (t : Team) (r : Nat) (x : Word) : (t.setS r x).parked = t.parked := rfl
@[simp] theorem Team.setS_debugStop (t : Team) (r : Nat) (x : Word) : (t.setS r x).debugStop = t.debugStop := rfl
@[simp] theorem Team.setS_saveLive (t : Team) (r : Nat) (x : Word) : (t.setS r x).saveLive = t.saveLive := rfl
@[simp] theorem Team.setS_fullSave (t : Team) (r : Nat) (x : Word) : (t.setS r x).fullSave = t.fullSave := rfl
@[simp] theorem Team.setS_keptKey (t : Team) (r : Nat) (x : Word) : (t.setS r x).keptKey = t.keptKey := rfl
@[simp] theorem Team.setS_keptBuf (t : Team) (r : Nat) (x : Word) : (t.setS r x).keptBuf = t.keptBuf := rfl
@[simp] theorem Team.setS_keptPoison (t : Team) (r : Nat) (x : Word) : (t.setS r x).keptPoison = t.keptPoison := rfl
@[simp] theorem Team.setS_keptTags (t : Team) (r : Nat) (x : Word) : (t.setS r x).keptTags = t.keptTags := rfl
@[simp] theorem Team.setS_keptLoads (t : Team) (r : Nat) (x : Word) : (t.setS r x).keptLoads = t.keptLoads := rfl
@[simp] theorem Team.setS_exm (t : Team) (r : Nat) (x : Word) : (t.setS r x).exm = t.exm := rfl
@[simp] theorem Team.setS_k (t : Team) (r : Nat) (x : Word) : (t.setS r x).k = t.k := rfl
@[simp] theorem Team.setS_a (t : Team) (r : Nat) (x : Word) : (t.setS r x).a = t.a := rfl
@[simp] theorem Team.setS_v (t : Team) (r : Nat) (x : Word) : (t.setS r x).v = t.v := rfl
@[simp] theorem Team.setS_s (t : Team) (r : Nat) (x : Word) : (t.setS r x).s = SMap.set 0 t.s r x := rfl
@[simp] theorem Team.setS_vPoison (t : Team) (r : Nat) (x : Word) : (t.setS r x).vPoison = t.vPoison := rfl
@[simp] theorem Team.setS_sPoison (t : Team) (r : Nat) (x : Word) : (t.setS r x).sPoison = SMap.del t.sPoison r := rfl
@[simp] theorem Team.setS_q (t : Team) (r : Nat) (x : Word) : (t.setS r x).q = t.q := rfl
@[simp] theorem Team.setS_stack (t : Team) (r : Nat) (x : Word) : (t.setS r x).stack = t.stack := rfl
@[simp] theorem Team.setS_exited (t : Team) (r : Nat) (x : Word) : (t.setS r x).exited = t.exited := rfl
@[simp] theorem Team.setS_pc (t : Team) (r : Nat) (x : Word) : (t.setS r x).pc = t.pc := rfl
@[simp] theorem Team.setS_clause (t : Team) (r : Nat) (x : Word) : (t.setS r x).clause = t.clause := rfl
@[simp] theorem Team.setS_after (t : Team) (r : Nat) (x : Word) : (t.setS r x).after = t.after := rfl
@[simp] theorem Team.setS_returning (t : Team) (r : Nat) (x : Word) : (t.setS r x).returning = t.returning := rfl
@[simp] theorem Team.setS_skip (t : Team) (r : Nat) (x : Word) : (t.setS r x).skip = t.skip := rfl
@[simp] theorem Team.setS_block (t : Team) (r : Nat) (x : Word) : (t.setS r x).block = t.block := rfl
@[simp] theorem Team.setS_served (t : Team) (r : Nat) (x : Word) : (t.setS r x).served = t.served := rfl
@[simp] theorem Team.setS_popped (t : Team) (r : Nat) (x : Word) : (t.setS r x).popped = t.popped := rfl
@[simp] theorem Team.setS_step (t : Team) (r : Nat) (x : Word) : (t.setS r x).step = t.step := rfl
@[simp] theorem Team.setS_reissue (t : Team) (r : Nat) (x : Word) : (t.setS r x).reissue = t.reissue := rfl
@[simp] theorem Team.setS_unitNow (t : Team) (r : Nat) (x : Word) : (t.setS r x).unitNow = t.unitNow := rfl
@[simp] theorem Team.setS_groupNow (t : Team) (r : Nat) (x : Word) : (t.setS r x).groupNow = t.groupNow := rfl
@[simp] theorem Team.setS_declared (t : Team) (r : Nat) (x : Word) : (t.setS r x).declared = t.declared := rfl
@[simp] theorem Team.setS_stalled (t : Team) (r : Nat) (x : Word) : (t.setS r x).stalled = t.stalled := rfl
@[simp] theorem Team.setS_accb (t : Team) (r : Nat) (x : Word) : (t.setS r x).accb = t.accb := rfl
@[simp] theorem Team.setS_mxc (t : Team) (r : Nat) (x : Word) : (t.setS r x).mxc = t.mxc := rfl
@[simp] theorem Team.setS_fpc (t : Team) (r : Nat) (x : Word) : (t.setS r x).fpc = t.fpc := rfl
@[simp] theorem Team.setS_fpf (t : Team) (r : Nat) (x : Word) : (t.setS r x).fpf = t.fpf := rfl
@[simp] theorem Team.setS_dcc (t : Team) (r : Nat) (x : Word) : (t.setS r x).dcc = t.dcc := rfl
@[simp] theorem Team.setS_dcf (t : Team) (r : Nat) (x : Word) : (t.setS r x).dcf = t.dcf := rfl
@[simp] theorem Team.setS_frecb (t : Team) (r : Nat) (x : Word) : (t.setS r x).frecb = t.frecb := rfl
@[simp] theorem Team.setS_handler (t : Team) (r : Nat) (x : Word) : (t.setS r x).handler = t.handler := rfl
@[simp] theorem Team.setS_causeCount (t : Team) (r : Nat) (x : Word) : (t.setS r x).causeCount = t.causeCount := rfl
@[simp] theorem Team.setS_causeOrigin (t : Team) (r : Nat) (x : Word) : (t.setS r x).causeOrigin = t.causeOrigin := rfl
@[simp] theorem Team.setS_causeCode (t : Team) (r : Nat) (x : Word) : (t.setS r x).causeCode = t.causeCode := rfl
@[simp] theorem Team.setS_rpc (t : Team) (r : Nat) (x : Word) : (t.setS r x).rpc = t.rpc := rfl
@[simp] theorem Team.setS_handled (t : Team) (r : Nat) (x : Word) : (t.setS r x).handled = t.handled := rfl
@[simp] theorem Team.setS_delivery (t : Team) (r : Nat) (x : Word) : (t.setS r x).delivery = t.delivery := rfl
@[simp] theorem Team.setS_headerRecs (t : Team) (r : Nat) (x : Word) : (t.setS r x).headerRecs = t.headerRecs := rfl
@[simp] theorem Team.setS_score (t : Team) (r : Nat) (x : Word) : (t.setS r x).score = t.score := rfl
@[simp] theorem Team.setS_allow (t : Team) (r : Nat) (x : Word) : (t.setS r x).allow = t.allow := rfl
@[simp] theorem Team.setS_budgetDue (t : Team) (r : Nat) (x : Word) : (t.setS r x).budgetDue = t.budgetDue := rfl
@[simp] theorem Team.setS_split (t : Team) (r : Nat) (x : Word) : (t.setS r x).split = t.split := rfl
@[simp] theorem Team.setS_now (t : Team) (r : Nat) (x : Word) : (t.setS r x).now = t.now := rfl
@[simp] theorem Team.setS_holds (t : Team) (r : Nat) (x : Word) : (t.setS r x).holds = t.holds := rfl
@[simp] theorem Team.setS_issued (t : Team) (r : Nat) (x : Word) : (t.setS r x).issued = t.issued := rfl
@[simp] theorem Team.setS_undrained (t : Team) (r : Nat) (x : Word) : (t.setS r x).undrained = t.undrained := rfl
@[simp] theorem Team.setS_owed (t : Team) (r : Nat) (x : Word) : (t.setS r x).owed = t.owed := rfl
@[simp] theorem Team.setS_copySeq (t : Team) (r : Nat) (x : Word) : (t.setS r x).copySeq = t.copySeq := rfl
@[simp] theorem Team.setS_gap (t : Team) (r : Nat) (x : Word) : (t.setS r x).gap = t.gap := rfl
@[simp] theorem Team.setS_ops (t : Team) (r : Nat) (x : Word) : (t.setS r x).ops = t.ops := rfl
@[simp] theorem Team.setS_acc (t : Team) (r : Nat) (x : Word) : (t.setS r x).acc = t.acc := rfl
@[simp] theorem Team.setS_accrows (t : Team) (r : Nat) (x : Word) : (t.setS r x).accrows = t.accrows := rfl
@[simp] theorem Team.setS_staged (t : Team) (r : Nat) (x : Word) : (t.setS r x).staged = t.staged := rfl
@[simp] theorem Team.setS_released (t : Team) (r : Nat) (x : Word) : (t.setS r x).released = t.released := rfl
@[simp] theorem Team.setS_wantsKey (t : Team) (r : Nat) (x : Word) : (t.setS r x).wantsKey = t.wantsKey := rfl
@[simp] theorem Team.setS_parkWait (t : Team) (r : Nat) (x : Word) : (t.setS r x).parkWait = t.parkWait := rfl
@[simp] theorem Team.setS_gaveUp (t : Team) (r : Nat) (x : Word) : (t.setS r x).gaveUp = t.gaveUp := rfl
@[simp] theorem Team.setS_behind (t : Team) (r : Nat) (x : Word) : (t.setS r x).behind = t.behind := rfl
@[simp] theorem Team.setS_acquired (t : Team) (r : Nat) (x : Word) : (t.setS r x).acquired = t.acquired := rfl
@[simp] theorem Team.setS_mxq (t : Team) (r : Nat) (x : Word) : (t.setS r x).mxq = t.mxq := rfl
@[simp] theorem Team.setS_lanePages (t : Team) (r : Nat) (x : Word) : (t.setS r x).lanePages = t.lanePages := rfl
@[simp] theorem Team.setS_frontPage (t : Team) (r : Nat) (x : Word) : (t.setS r x).frontPage = t.frontPage := rfl

/-! ## Team.setA -/

@[simp] theorem Team.setA_asid (t : Team) (r : Nat) (x : BitVec 8) : (t.setA r x).asid = t.asid := rfl
@[simp] theorem Team.setA_timeline (t : Team) (r : Nat) (x : BitVec 8) : (t.setA r x).timeline = t.timeline := rfl
@[simp] theorem Team.setA_launch (t : Team) (r : Nat) (x : BitVec 8) : (t.setA r x).launch = t.launch := rfl
@[simp] theorem Team.setA_desc (t : Team) (r : Nat) (x : BitVec 8) : (t.setA r x).desc = t.desc := rfl
@[simp] theorem Team.setA_lanes (t : Team) (r : Nat) (x : BitVec 8) : (t.setA r x).lanes = t.lanes := rfl
@[simp] theorem Team.setA_teamix (t : Team) (r : Nat) (x : BitVec 8) : (t.setA r x).teamix = t.teamix := rfl
@[simp] theorem Team.setA_origin (t : Team) (r : Nat) (x : BitVec 8) : (t.setA r x).origin = t.origin := rfl
@[simp] theorem Team.setA_taskLoc (t : Team) (r : Nat) (x : BitVec 8) : (t.setA r x).taskLoc = t.taskLoc := rfl
@[simp] theorem Team.setA_tasks (t : Team) (r : Nat) (x : BitVec 8) : (t.setA r x).tasks = t.tasks := rfl
@[simp] theorem Team.setA_place (t : Team) (r : Nat) (x : BitVec 8) : (t.setA r x).place = t.place := rfl
@[simp] theorem Team.setA_core (t : Team) (r : Nat) (x : BitVec 8) : (t.setA r x).core = t.core := rfl
@[simp] theorem Team.setA_slot (t : Team) (r : Nat) (x : BitVec 8) : (t.setA r x).slot = t.slot := rfl
@[simp] theorem Team.setA_bind (t : Team) (r : Nat) (x : BitVec 8) : (t.setA r x).bind = t.bind := rfl
@[simp] theorem Team.setA_ctx (t : Team) (r : Nat) (x : BitVec 8) : (t.setA r x).ctx = t.ctx := rfl
@[simp] theorem Team.setA_parked (t : Team) (r : Nat) (x : BitVec 8) : (t.setA r x).parked = t.parked := rfl
@[simp] theorem Team.setA_debugStop (t : Team) (r : Nat) (x : BitVec 8) : (t.setA r x).debugStop = t.debugStop := rfl
@[simp] theorem Team.setA_saveLive (t : Team) (r : Nat) (x : BitVec 8) : (t.setA r x).saveLive = t.saveLive := rfl
@[simp] theorem Team.setA_fullSave (t : Team) (r : Nat) (x : BitVec 8) : (t.setA r x).fullSave = t.fullSave := rfl
@[simp] theorem Team.setA_keptKey (t : Team) (r : Nat) (x : BitVec 8) : (t.setA r x).keptKey = t.keptKey := rfl
@[simp] theorem Team.setA_keptBuf (t : Team) (r : Nat) (x : BitVec 8) : (t.setA r x).keptBuf = t.keptBuf := rfl
@[simp] theorem Team.setA_keptPoison (t : Team) (r : Nat) (x : BitVec 8) : (t.setA r x).keptPoison = t.keptPoison := rfl
@[simp] theorem Team.setA_keptTags (t : Team) (r : Nat) (x : BitVec 8) : (t.setA r x).keptTags = t.keptTags := rfl
@[simp] theorem Team.setA_keptLoads (t : Team) (r : Nat) (x : BitVec 8) : (t.setA r x).keptLoads = t.keptLoads := rfl
@[simp] theorem Team.setA_exm (t : Team) (r : Nat) (x : BitVec 8) : (t.setA r x).exm = t.exm := rfl
@[simp] theorem Team.setA_k (t : Team) (r : Nat) (x : BitVec 8) : (t.setA r x).k = t.k := rfl
@[simp] theorem Team.setA_a (t : Team) (r : Nat) (x : BitVec 8) : (t.setA r x).a = SMap.set 0 t.a r x := rfl
@[simp] theorem Team.setA_v (t : Team) (r : Nat) (x : BitVec 8) : (t.setA r x).v = t.v := rfl
@[simp] theorem Team.setA_s (t : Team) (r : Nat) (x : BitVec 8) : (t.setA r x).s = t.s := rfl
@[simp] theorem Team.setA_vPoison (t : Team) (r : Nat) (x : BitVec 8) : (t.setA r x).vPoison = t.vPoison := rfl
@[simp] theorem Team.setA_sPoison (t : Team) (r : Nat) (x : BitVec 8) : (t.setA r x).sPoison = t.sPoison := rfl
@[simp] theorem Team.setA_q (t : Team) (r : Nat) (x : BitVec 8) : (t.setA r x).q = t.q := rfl
@[simp] theorem Team.setA_stack (t : Team) (r : Nat) (x : BitVec 8) : (t.setA r x).stack = t.stack := rfl
@[simp] theorem Team.setA_exited (t : Team) (r : Nat) (x : BitVec 8) : (t.setA r x).exited = t.exited := rfl
@[simp] theorem Team.setA_pc (t : Team) (r : Nat) (x : BitVec 8) : (t.setA r x).pc = t.pc := rfl
@[simp] theorem Team.setA_clause (t : Team) (r : Nat) (x : BitVec 8) : (t.setA r x).clause = t.clause := rfl
@[simp] theorem Team.setA_after (t : Team) (r : Nat) (x : BitVec 8) : (t.setA r x).after = t.after := rfl
@[simp] theorem Team.setA_returning (t : Team) (r : Nat) (x : BitVec 8) : (t.setA r x).returning = t.returning := rfl
@[simp] theorem Team.setA_skip (t : Team) (r : Nat) (x : BitVec 8) : (t.setA r x).skip = t.skip := rfl
@[simp] theorem Team.setA_block (t : Team) (r : Nat) (x : BitVec 8) : (t.setA r x).block = t.block := rfl
@[simp] theorem Team.setA_served (t : Team) (r : Nat) (x : BitVec 8) : (t.setA r x).served = t.served := rfl
@[simp] theorem Team.setA_popped (t : Team) (r : Nat) (x : BitVec 8) : (t.setA r x).popped = t.popped := rfl
@[simp] theorem Team.setA_step (t : Team) (r : Nat) (x : BitVec 8) : (t.setA r x).step = t.step := rfl
@[simp] theorem Team.setA_reissue (t : Team) (r : Nat) (x : BitVec 8) : (t.setA r x).reissue = t.reissue := rfl
@[simp] theorem Team.setA_unitNow (t : Team) (r : Nat) (x : BitVec 8) : (t.setA r x).unitNow = t.unitNow := rfl
@[simp] theorem Team.setA_groupNow (t : Team) (r : Nat) (x : BitVec 8) : (t.setA r x).groupNow = t.groupNow := rfl
@[simp] theorem Team.setA_declared (t : Team) (r : Nat) (x : BitVec 8) : (t.setA r x).declared = t.declared := rfl
@[simp] theorem Team.setA_stalled (t : Team) (r : Nat) (x : BitVec 8) : (t.setA r x).stalled = t.stalled := rfl
@[simp] theorem Team.setA_accb (t : Team) (r : Nat) (x : BitVec 8) : (t.setA r x).accb = t.accb := rfl
@[simp] theorem Team.setA_mxc (t : Team) (r : Nat) (x : BitVec 8) : (t.setA r x).mxc = t.mxc := rfl
@[simp] theorem Team.setA_fpc (t : Team) (r : Nat) (x : BitVec 8) : (t.setA r x).fpc = t.fpc := rfl
@[simp] theorem Team.setA_fpf (t : Team) (r : Nat) (x : BitVec 8) : (t.setA r x).fpf = t.fpf := rfl
@[simp] theorem Team.setA_dcc (t : Team) (r : Nat) (x : BitVec 8) : (t.setA r x).dcc = t.dcc := rfl
@[simp] theorem Team.setA_dcf (t : Team) (r : Nat) (x : BitVec 8) : (t.setA r x).dcf = t.dcf := rfl
@[simp] theorem Team.setA_frecb (t : Team) (r : Nat) (x : BitVec 8) : (t.setA r x).frecb = t.frecb := rfl
@[simp] theorem Team.setA_handler (t : Team) (r : Nat) (x : BitVec 8) : (t.setA r x).handler = t.handler := rfl
@[simp] theorem Team.setA_causeCount (t : Team) (r : Nat) (x : BitVec 8) : (t.setA r x).causeCount = t.causeCount := rfl
@[simp] theorem Team.setA_causeOrigin (t : Team) (r : Nat) (x : BitVec 8) : (t.setA r x).causeOrigin = t.causeOrigin := rfl
@[simp] theorem Team.setA_causeCode (t : Team) (r : Nat) (x : BitVec 8) : (t.setA r x).causeCode = t.causeCode := rfl
@[simp] theorem Team.setA_rpc (t : Team) (r : Nat) (x : BitVec 8) : (t.setA r x).rpc = t.rpc := rfl
@[simp] theorem Team.setA_handled (t : Team) (r : Nat) (x : BitVec 8) : (t.setA r x).handled = t.handled := rfl
@[simp] theorem Team.setA_delivery (t : Team) (r : Nat) (x : BitVec 8) : (t.setA r x).delivery = t.delivery := rfl
@[simp] theorem Team.setA_headerRecs (t : Team) (r : Nat) (x : BitVec 8) : (t.setA r x).headerRecs = t.headerRecs := rfl
@[simp] theorem Team.setA_score (t : Team) (r : Nat) (x : BitVec 8) : (t.setA r x).score = t.score := rfl
@[simp] theorem Team.setA_allow (t : Team) (r : Nat) (x : BitVec 8) : (t.setA r x).allow = t.allow := rfl
@[simp] theorem Team.setA_budgetDue (t : Team) (r : Nat) (x : BitVec 8) : (t.setA r x).budgetDue = t.budgetDue := rfl
@[simp] theorem Team.setA_split (t : Team) (r : Nat) (x : BitVec 8) : (t.setA r x).split = t.split := rfl
@[simp] theorem Team.setA_now (t : Team) (r : Nat) (x : BitVec 8) : (t.setA r x).now = t.now := rfl
@[simp] theorem Team.setA_holds (t : Team) (r : Nat) (x : BitVec 8) : (t.setA r x).holds = t.holds := rfl
@[simp] theorem Team.setA_issued (t : Team) (r : Nat) (x : BitVec 8) : (t.setA r x).issued = t.issued := rfl
@[simp] theorem Team.setA_undrained (t : Team) (r : Nat) (x : BitVec 8) : (t.setA r x).undrained = t.undrained := rfl
@[simp] theorem Team.setA_owed (t : Team) (r : Nat) (x : BitVec 8) : (t.setA r x).owed = t.owed := rfl
@[simp] theorem Team.setA_copySeq (t : Team) (r : Nat) (x : BitVec 8) : (t.setA r x).copySeq = t.copySeq := rfl
@[simp] theorem Team.setA_gap (t : Team) (r : Nat) (x : BitVec 8) : (t.setA r x).gap = t.gap := rfl
@[simp] theorem Team.setA_ops (t : Team) (r : Nat) (x : BitVec 8) : (t.setA r x).ops = t.ops := rfl
@[simp] theorem Team.setA_acc (t : Team) (r : Nat) (x : BitVec 8) : (t.setA r x).acc = t.acc := rfl
@[simp] theorem Team.setA_accrows (t : Team) (r : Nat) (x : BitVec 8) : (t.setA r x).accrows = t.accrows := rfl
@[simp] theorem Team.setA_staged (t : Team) (r : Nat) (x : BitVec 8) : (t.setA r x).staged = t.staged := rfl
@[simp] theorem Team.setA_released (t : Team) (r : Nat) (x : BitVec 8) : (t.setA r x).released = t.released := rfl
@[simp] theorem Team.setA_wantsKey (t : Team) (r : Nat) (x : BitVec 8) : (t.setA r x).wantsKey = t.wantsKey := rfl
@[simp] theorem Team.setA_parkWait (t : Team) (r : Nat) (x : BitVec 8) : (t.setA r x).parkWait = t.parkWait := rfl
@[simp] theorem Team.setA_gaveUp (t : Team) (r : Nat) (x : BitVec 8) : (t.setA r x).gaveUp = t.gaveUp := rfl
@[simp] theorem Team.setA_behind (t : Team) (r : Nat) (x : BitVec 8) : (t.setA r x).behind = t.behind := rfl
@[simp] theorem Team.setA_acquired (t : Team) (r : Nat) (x : BitVec 8) : (t.setA r x).acquired = t.acquired := rfl
@[simp] theorem Team.setA_mxq (t : Team) (r : Nat) (x : BitVec 8) : (t.setA r x).mxq = t.mxq := rfl
@[simp] theorem Team.setA_lanePages (t : Team) (r : Nat) (x : BitVec 8) : (t.setA r x).lanePages = t.lanePages := rfl
@[simp] theorem Team.setA_frontPage (t : Team) (r : Nat) (x : BitVec 8) : (t.setA r x).frontPage = t.frontPage := rfl

/-! ## Team.setExm -/

@[simp] theorem Team.setExm_asid (t : Team) (m : Mask) : (t.setExm m).asid = t.asid := rfl
@[simp] theorem Team.setExm_timeline (t : Team) (m : Mask) : (t.setExm m).timeline = t.timeline := rfl
@[simp] theorem Team.setExm_launch (t : Team) (m : Mask) : (t.setExm m).launch = t.launch := rfl
@[simp] theorem Team.setExm_desc (t : Team) (m : Mask) : (t.setExm m).desc = t.desc := rfl
@[simp] theorem Team.setExm_lanes (t : Team) (m : Mask) : (t.setExm m).lanes = t.lanes := rfl
@[simp] theorem Team.setExm_teamix (t : Team) (m : Mask) : (t.setExm m).teamix = t.teamix := rfl
@[simp] theorem Team.setExm_origin (t : Team) (m : Mask) : (t.setExm m).origin = t.origin := rfl
@[simp] theorem Team.setExm_taskLoc (t : Team) (m : Mask) : (t.setExm m).taskLoc = t.taskLoc := rfl
@[simp] theorem Team.setExm_tasks (t : Team) (m : Mask) : (t.setExm m).tasks = t.tasks := rfl
@[simp] theorem Team.setExm_place (t : Team) (m : Mask) : (t.setExm m).place = t.place := rfl
@[simp] theorem Team.setExm_core (t : Team) (m : Mask) : (t.setExm m).core = t.core := rfl
@[simp] theorem Team.setExm_slot (t : Team) (m : Mask) : (t.setExm m).slot = t.slot := rfl
@[simp] theorem Team.setExm_bind (t : Team) (m : Mask) : (t.setExm m).bind = t.bind := rfl
@[simp] theorem Team.setExm_ctx (t : Team) (m : Mask) : (t.setExm m).ctx = t.ctx := rfl
@[simp] theorem Team.setExm_parked (t : Team) (m : Mask) : (t.setExm m).parked = t.parked := rfl
@[simp] theorem Team.setExm_debugStop (t : Team) (m : Mask) : (t.setExm m).debugStop = t.debugStop := rfl
@[simp] theorem Team.setExm_saveLive (t : Team) (m : Mask) : (t.setExm m).saveLive = t.saveLive := rfl
@[simp] theorem Team.setExm_fullSave (t : Team) (m : Mask) : (t.setExm m).fullSave = t.fullSave := rfl
@[simp] theorem Team.setExm_keptKey (t : Team) (m : Mask) : (t.setExm m).keptKey = t.keptKey := rfl
@[simp] theorem Team.setExm_keptBuf (t : Team) (m : Mask) : (t.setExm m).keptBuf = t.keptBuf := rfl
@[simp] theorem Team.setExm_keptPoison (t : Team) (m : Mask) : (t.setExm m).keptPoison = t.keptPoison := rfl
@[simp] theorem Team.setExm_keptTags (t : Team) (m : Mask) : (t.setExm m).keptTags = t.keptTags := rfl
@[simp] theorem Team.setExm_keptLoads (t : Team) (m : Mask) : (t.setExm m).keptLoads = t.keptLoads := rfl
@[simp] theorem Team.setExm_exm (t : Team) (m : Mask) : (t.setExm m).exm = m &&& lanesMask t.lanes := rfl
@[simp] theorem Team.setExm_k (t : Team) (m : Mask) : (t.setExm m).k = t.k := rfl
@[simp] theorem Team.setExm_a (t : Team) (m : Mask) : (t.setExm m).a = t.a := rfl
@[simp] theorem Team.setExm_v (t : Team) (m : Mask) : (t.setExm m).v = t.v := rfl
@[simp] theorem Team.setExm_s (t : Team) (m : Mask) : (t.setExm m).s = t.s := rfl
@[simp] theorem Team.setExm_vPoison (t : Team) (m : Mask) : (t.setExm m).vPoison = t.vPoison := rfl
@[simp] theorem Team.setExm_sPoison (t : Team) (m : Mask) : (t.setExm m).sPoison = t.sPoison := rfl
@[simp] theorem Team.setExm_q (t : Team) (m : Mask) : (t.setExm m).q = t.q := rfl
@[simp] theorem Team.setExm_stack (t : Team) (m : Mask) : (t.setExm m).stack = t.stack := rfl
@[simp] theorem Team.setExm_exited (t : Team) (m : Mask) : (t.setExm m).exited = t.exited := rfl
@[simp] theorem Team.setExm_pc (t : Team) (m : Mask) : (t.setExm m).pc = t.pc := rfl
@[simp] theorem Team.setExm_clause (t : Team) (m : Mask) : (t.setExm m).clause = t.clause := rfl
@[simp] theorem Team.setExm_after (t : Team) (m : Mask) : (t.setExm m).after = t.after := rfl
@[simp] theorem Team.setExm_returning (t : Team) (m : Mask) : (t.setExm m).returning = t.returning := rfl
@[simp] theorem Team.setExm_skip (t : Team) (m : Mask) : (t.setExm m).skip = t.skip := rfl
@[simp] theorem Team.setExm_block (t : Team) (m : Mask) : (t.setExm m).block = t.block := rfl
@[simp] theorem Team.setExm_served (t : Team) (m : Mask) : (t.setExm m).served = t.served := rfl
@[simp] theorem Team.setExm_popped (t : Team) (m : Mask) : (t.setExm m).popped = t.popped := rfl
@[simp] theorem Team.setExm_step (t : Team) (m : Mask) : (t.setExm m).step = t.step := rfl
@[simp] theorem Team.setExm_reissue (t : Team) (m : Mask) : (t.setExm m).reissue = t.reissue := rfl
@[simp] theorem Team.setExm_unitNow (t : Team) (m : Mask) : (t.setExm m).unitNow = t.unitNow := rfl
@[simp] theorem Team.setExm_groupNow (t : Team) (m : Mask) : (t.setExm m).groupNow = t.groupNow := rfl
@[simp] theorem Team.setExm_declared (t : Team) (m : Mask) : (t.setExm m).declared = t.declared := rfl
@[simp] theorem Team.setExm_stalled (t : Team) (m : Mask) : (t.setExm m).stalled = t.stalled := rfl
@[simp] theorem Team.setExm_accb (t : Team) (m : Mask) : (t.setExm m).accb = t.accb := rfl
@[simp] theorem Team.setExm_mxc (t : Team) (m : Mask) : (t.setExm m).mxc = t.mxc := rfl
@[simp] theorem Team.setExm_fpc (t : Team) (m : Mask) : (t.setExm m).fpc = t.fpc := rfl
@[simp] theorem Team.setExm_fpf (t : Team) (m : Mask) : (t.setExm m).fpf = t.fpf := rfl
@[simp] theorem Team.setExm_dcc (t : Team) (m : Mask) : (t.setExm m).dcc = t.dcc := rfl
@[simp] theorem Team.setExm_dcf (t : Team) (m : Mask) : (t.setExm m).dcf = t.dcf := rfl
@[simp] theorem Team.setExm_frecb (t : Team) (m : Mask) : (t.setExm m).frecb = t.frecb := rfl
@[simp] theorem Team.setExm_handler (t : Team) (m : Mask) : (t.setExm m).handler = t.handler := rfl
@[simp] theorem Team.setExm_causeCount (t : Team) (m : Mask) : (t.setExm m).causeCount = t.causeCount := rfl
@[simp] theorem Team.setExm_causeOrigin (t : Team) (m : Mask) : (t.setExm m).causeOrigin = t.causeOrigin := rfl
@[simp] theorem Team.setExm_causeCode (t : Team) (m : Mask) : (t.setExm m).causeCode = t.causeCode := rfl
@[simp] theorem Team.setExm_rpc (t : Team) (m : Mask) : (t.setExm m).rpc = t.rpc := rfl
@[simp] theorem Team.setExm_handled (t : Team) (m : Mask) : (t.setExm m).handled = t.handled := rfl
@[simp] theorem Team.setExm_delivery (t : Team) (m : Mask) : (t.setExm m).delivery = t.delivery := rfl
@[simp] theorem Team.setExm_headerRecs (t : Team) (m : Mask) : (t.setExm m).headerRecs = t.headerRecs := rfl
@[simp] theorem Team.setExm_score (t : Team) (m : Mask) : (t.setExm m).score = t.score := rfl
@[simp] theorem Team.setExm_allow (t : Team) (m : Mask) : (t.setExm m).allow = t.allow := rfl
@[simp] theorem Team.setExm_budgetDue (t : Team) (m : Mask) : (t.setExm m).budgetDue = t.budgetDue := rfl
@[simp] theorem Team.setExm_split (t : Team) (m : Mask) : (t.setExm m).split = t.split := rfl
@[simp] theorem Team.setExm_now (t : Team) (m : Mask) : (t.setExm m).now = t.now := rfl
@[simp] theorem Team.setExm_holds (t : Team) (m : Mask) : (t.setExm m).holds = t.holds := rfl
@[simp] theorem Team.setExm_issued (t : Team) (m : Mask) : (t.setExm m).issued = t.issued := rfl
@[simp] theorem Team.setExm_undrained (t : Team) (m : Mask) : (t.setExm m).undrained = t.undrained := rfl
@[simp] theorem Team.setExm_owed (t : Team) (m : Mask) : (t.setExm m).owed = t.owed := rfl
@[simp] theorem Team.setExm_copySeq (t : Team) (m : Mask) : (t.setExm m).copySeq = t.copySeq := rfl
@[simp] theorem Team.setExm_gap (t : Team) (m : Mask) : (t.setExm m).gap = t.gap := rfl
@[simp] theorem Team.setExm_ops (t : Team) (m : Mask) : (t.setExm m).ops = t.ops := rfl
@[simp] theorem Team.setExm_acc (t : Team) (m : Mask) : (t.setExm m).acc = t.acc := rfl
@[simp] theorem Team.setExm_accrows (t : Team) (m : Mask) : (t.setExm m).accrows = t.accrows := rfl
@[simp] theorem Team.setExm_staged (t : Team) (m : Mask) : (t.setExm m).staged = t.staged := rfl
@[simp] theorem Team.setExm_released (t : Team) (m : Mask) : (t.setExm m).released = t.released := rfl
@[simp] theorem Team.setExm_wantsKey (t : Team) (m : Mask) : (t.setExm m).wantsKey = t.wantsKey := rfl
@[simp] theorem Team.setExm_parkWait (t : Team) (m : Mask) : (t.setExm m).parkWait = t.parkWait := rfl
@[simp] theorem Team.setExm_gaveUp (t : Team) (m : Mask) : (t.setExm m).gaveUp = t.gaveUp := rfl
@[simp] theorem Team.setExm_behind (t : Team) (m : Mask) : (t.setExm m).behind = t.behind := rfl
@[simp] theorem Team.setExm_acquired (t : Team) (m : Mask) : (t.setExm m).acquired = t.acquired := rfl
@[simp] theorem Team.setExm_mxq (t : Team) (m : Mask) : (t.setExm m).mxq = t.mxq := rfl
@[simp] theorem Team.setExm_lanePages (t : Team) (m : Mask) : (t.setExm m).lanePages = t.lanePages := rfl
@[simp] theorem Team.setExm_frontPage (t : Team) (m : Mask) : (t.setExm m).frontPage = t.frontPage := rfl

/-! ## Team.setK: K0 discards what is written to it -/

@[simp] theorem Team.setK_asid (t : Team) (n : Nat) (m : Mask) : (t.setK n m).asid = t.asid := by unfold Team.setK; split <;> rfl
@[simp] theorem Team.setK_timeline (t : Team) (n : Nat) (m : Mask) : (t.setK n m).timeline = t.timeline := by unfold Team.setK; split <;> rfl
@[simp] theorem Team.setK_launch (t : Team) (n : Nat) (m : Mask) : (t.setK n m).launch = t.launch := by unfold Team.setK; split <;> rfl
@[simp] theorem Team.setK_desc (t : Team) (n : Nat) (m : Mask) : (t.setK n m).desc = t.desc := by unfold Team.setK; split <;> rfl
@[simp] theorem Team.setK_lanes (t : Team) (n : Nat) (m : Mask) : (t.setK n m).lanes = t.lanes := by unfold Team.setK; split <;> rfl
@[simp] theorem Team.setK_teamix (t : Team) (n : Nat) (m : Mask) : (t.setK n m).teamix = t.teamix := by unfold Team.setK; split <;> rfl
@[simp] theorem Team.setK_origin (t : Team) (n : Nat) (m : Mask) : (t.setK n m).origin = t.origin := by unfold Team.setK; split <;> rfl
@[simp] theorem Team.setK_taskLoc (t : Team) (n : Nat) (m : Mask) : (t.setK n m).taskLoc = t.taskLoc := by unfold Team.setK; split <;> rfl
@[simp] theorem Team.setK_tasks (t : Team) (n : Nat) (m : Mask) : (t.setK n m).tasks = t.tasks := by unfold Team.setK; split <;> rfl
@[simp] theorem Team.setK_place (t : Team) (n : Nat) (m : Mask) : (t.setK n m).place = t.place := by unfold Team.setK; split <;> rfl
@[simp] theorem Team.setK_core (t : Team) (n : Nat) (m : Mask) : (t.setK n m).core = t.core := by unfold Team.setK; split <;> rfl
@[simp] theorem Team.setK_slot (t : Team) (n : Nat) (m : Mask) : (t.setK n m).slot = t.slot := by unfold Team.setK; split <;> rfl
@[simp] theorem Team.setK_bind (t : Team) (n : Nat) (m : Mask) : (t.setK n m).bind = t.bind := by unfold Team.setK; split <;> rfl
@[simp] theorem Team.setK_ctx (t : Team) (n : Nat) (m : Mask) : (t.setK n m).ctx = t.ctx := by unfold Team.setK; split <;> rfl
@[simp] theorem Team.setK_parked (t : Team) (n : Nat) (m : Mask) : (t.setK n m).parked = t.parked := by unfold Team.setK; split <;> rfl
@[simp] theorem Team.setK_debugStop (t : Team) (n : Nat) (m : Mask) : (t.setK n m).debugStop = t.debugStop := by unfold Team.setK; split <;> rfl
@[simp] theorem Team.setK_saveLive (t : Team) (n : Nat) (m : Mask) : (t.setK n m).saveLive = t.saveLive := by unfold Team.setK; split <;> rfl
@[simp] theorem Team.setK_fullSave (t : Team) (n : Nat) (m : Mask) : (t.setK n m).fullSave = t.fullSave := by unfold Team.setK; split <;> rfl
@[simp] theorem Team.setK_keptKey (t : Team) (n : Nat) (m : Mask) : (t.setK n m).keptKey = t.keptKey := by unfold Team.setK; split <;> rfl
@[simp] theorem Team.setK_keptBuf (t : Team) (n : Nat) (m : Mask) : (t.setK n m).keptBuf = t.keptBuf := by unfold Team.setK; split <;> rfl
@[simp] theorem Team.setK_keptPoison (t : Team) (n : Nat) (m : Mask) : (t.setK n m).keptPoison = t.keptPoison := by unfold Team.setK; split <;> rfl
@[simp] theorem Team.setK_keptTags (t : Team) (n : Nat) (m : Mask) : (t.setK n m).keptTags = t.keptTags := by unfold Team.setK; split <;> rfl
@[simp] theorem Team.setK_keptLoads (t : Team) (n : Nat) (m : Mask) : (t.setK n m).keptLoads = t.keptLoads := by unfold Team.setK; split <;> rfl
@[simp] theorem Team.setK_exm (t : Team) (n : Nat) (m : Mask) : (t.setK n m).exm = t.exm := by unfold Team.setK; split <;> rfl
@[simp] theorem Team.setK_a (t : Team) (n : Nat) (m : Mask) : (t.setK n m).a = t.a := by unfold Team.setK; split <;> rfl
@[simp] theorem Team.setK_v (t : Team) (n : Nat) (m : Mask) : (t.setK n m).v = t.v := by unfold Team.setK; split <;> rfl
@[simp] theorem Team.setK_s (t : Team) (n : Nat) (m : Mask) : (t.setK n m).s = t.s := by unfold Team.setK; split <;> rfl
@[simp] theorem Team.setK_vPoison (t : Team) (n : Nat) (m : Mask) : (t.setK n m).vPoison = t.vPoison := by unfold Team.setK; split <;> rfl
@[simp] theorem Team.setK_sPoison (t : Team) (n : Nat) (m : Mask) : (t.setK n m).sPoison = t.sPoison := by unfold Team.setK; split <;> rfl
@[simp] theorem Team.setK_q (t : Team) (n : Nat) (m : Mask) : (t.setK n m).q = t.q := by unfold Team.setK; split <;> rfl
@[simp] theorem Team.setK_stack (t : Team) (n : Nat) (m : Mask) : (t.setK n m).stack = t.stack := by unfold Team.setK; split <;> rfl
@[simp] theorem Team.setK_exited (t : Team) (n : Nat) (m : Mask) : (t.setK n m).exited = t.exited := by unfold Team.setK; split <;> rfl
@[simp] theorem Team.setK_pc (t : Team) (n : Nat) (m : Mask) : (t.setK n m).pc = t.pc := by unfold Team.setK; split <;> rfl
@[simp] theorem Team.setK_clause (t : Team) (n : Nat) (m : Mask) : (t.setK n m).clause = t.clause := by unfold Team.setK; split <;> rfl
@[simp] theorem Team.setK_after (t : Team) (n : Nat) (m : Mask) : (t.setK n m).after = t.after := by unfold Team.setK; split <;> rfl
@[simp] theorem Team.setK_returning (t : Team) (n : Nat) (m : Mask) : (t.setK n m).returning = t.returning := by unfold Team.setK; split <;> rfl
@[simp] theorem Team.setK_skip (t : Team) (n : Nat) (m : Mask) : (t.setK n m).skip = t.skip := by unfold Team.setK; split <;> rfl
@[simp] theorem Team.setK_block (t : Team) (n : Nat) (m : Mask) : (t.setK n m).block = t.block := by unfold Team.setK; split <;> rfl
@[simp] theorem Team.setK_served (t : Team) (n : Nat) (m : Mask) : (t.setK n m).served = t.served := by unfold Team.setK; split <;> rfl
@[simp] theorem Team.setK_popped (t : Team) (n : Nat) (m : Mask) : (t.setK n m).popped = t.popped := by unfold Team.setK; split <;> rfl
@[simp] theorem Team.setK_step (t : Team) (n : Nat) (m : Mask) : (t.setK n m).step = t.step := by unfold Team.setK; split <;> rfl
@[simp] theorem Team.setK_reissue (t : Team) (n : Nat) (m : Mask) : (t.setK n m).reissue = t.reissue := by unfold Team.setK; split <;> rfl
@[simp] theorem Team.setK_unitNow (t : Team) (n : Nat) (m : Mask) : (t.setK n m).unitNow = t.unitNow := by unfold Team.setK; split <;> rfl
@[simp] theorem Team.setK_groupNow (t : Team) (n : Nat) (m : Mask) : (t.setK n m).groupNow = t.groupNow := by unfold Team.setK; split <;> rfl
@[simp] theorem Team.setK_declared (t : Team) (n : Nat) (m : Mask) : (t.setK n m).declared = t.declared := by unfold Team.setK; split <;> rfl
@[simp] theorem Team.setK_stalled (t : Team) (n : Nat) (m : Mask) : (t.setK n m).stalled = t.stalled := by unfold Team.setK; split <;> rfl
@[simp] theorem Team.setK_accb (t : Team) (n : Nat) (m : Mask) : (t.setK n m).accb = t.accb := by unfold Team.setK; split <;> rfl
@[simp] theorem Team.setK_mxc (t : Team) (n : Nat) (m : Mask) : (t.setK n m).mxc = t.mxc := by unfold Team.setK; split <;> rfl
@[simp] theorem Team.setK_fpc (t : Team) (n : Nat) (m : Mask) : (t.setK n m).fpc = t.fpc := by unfold Team.setK; split <;> rfl
@[simp] theorem Team.setK_fpf (t : Team) (n : Nat) (m : Mask) : (t.setK n m).fpf = t.fpf := by unfold Team.setK; split <;> rfl
@[simp] theorem Team.setK_dcc (t : Team) (n : Nat) (m : Mask) : (t.setK n m).dcc = t.dcc := by unfold Team.setK; split <;> rfl
@[simp] theorem Team.setK_dcf (t : Team) (n : Nat) (m : Mask) : (t.setK n m).dcf = t.dcf := by unfold Team.setK; split <;> rfl
@[simp] theorem Team.setK_frecb (t : Team) (n : Nat) (m : Mask) : (t.setK n m).frecb = t.frecb := by unfold Team.setK; split <;> rfl
@[simp] theorem Team.setK_handler (t : Team) (n : Nat) (m : Mask) : (t.setK n m).handler = t.handler := by unfold Team.setK; split <;> rfl
@[simp] theorem Team.setK_causeCount (t : Team) (n : Nat) (m : Mask) : (t.setK n m).causeCount = t.causeCount := by unfold Team.setK; split <;> rfl
@[simp] theorem Team.setK_causeOrigin (t : Team) (n : Nat) (m : Mask) : (t.setK n m).causeOrigin = t.causeOrigin := by unfold Team.setK; split <;> rfl
@[simp] theorem Team.setK_causeCode (t : Team) (n : Nat) (m : Mask) : (t.setK n m).causeCode = t.causeCode := by unfold Team.setK; split <;> rfl
@[simp] theorem Team.setK_rpc (t : Team) (n : Nat) (m : Mask) : (t.setK n m).rpc = t.rpc := by unfold Team.setK; split <;> rfl
@[simp] theorem Team.setK_handled (t : Team) (n : Nat) (m : Mask) : (t.setK n m).handled = t.handled := by unfold Team.setK; split <;> rfl
@[simp] theorem Team.setK_delivery (t : Team) (n : Nat) (m : Mask) : (t.setK n m).delivery = t.delivery := by unfold Team.setK; split <;> rfl
@[simp] theorem Team.setK_headerRecs (t : Team) (n : Nat) (m : Mask) : (t.setK n m).headerRecs = t.headerRecs := by unfold Team.setK; split <;> rfl
@[simp] theorem Team.setK_score (t : Team) (n : Nat) (m : Mask) : (t.setK n m).score = t.score := by unfold Team.setK; split <;> rfl
@[simp] theorem Team.setK_allow (t : Team) (n : Nat) (m : Mask) : (t.setK n m).allow = t.allow := by unfold Team.setK; split <;> rfl
@[simp] theorem Team.setK_budgetDue (t : Team) (n : Nat) (m : Mask) : (t.setK n m).budgetDue = t.budgetDue := by unfold Team.setK; split <;> rfl
@[simp] theorem Team.setK_split (t : Team) (n : Nat) (m : Mask) : (t.setK n m).split = t.split := by unfold Team.setK; split <;> rfl
@[simp] theorem Team.setK_now (t : Team) (n : Nat) (m : Mask) : (t.setK n m).now = t.now := by unfold Team.setK; split <;> rfl
@[simp] theorem Team.setK_holds (t : Team) (n : Nat) (m : Mask) : (t.setK n m).holds = t.holds := by unfold Team.setK; split <;> rfl
@[simp] theorem Team.setK_issued (t : Team) (n : Nat) (m : Mask) : (t.setK n m).issued = t.issued := by unfold Team.setK; split <;> rfl
@[simp] theorem Team.setK_undrained (t : Team) (n : Nat) (m : Mask) : (t.setK n m).undrained = t.undrained := by unfold Team.setK; split <;> rfl
@[simp] theorem Team.setK_owed (t : Team) (n : Nat) (m : Mask) : (t.setK n m).owed = t.owed := by unfold Team.setK; split <;> rfl
@[simp] theorem Team.setK_copySeq (t : Team) (n : Nat) (m : Mask) : (t.setK n m).copySeq = t.copySeq := by unfold Team.setK; split <;> rfl
@[simp] theorem Team.setK_gap (t : Team) (n : Nat) (m : Mask) : (t.setK n m).gap = t.gap := by unfold Team.setK; split <;> rfl
@[simp] theorem Team.setK_ops (t : Team) (n : Nat) (m : Mask) : (t.setK n m).ops = t.ops := by unfold Team.setK; split <;> rfl
@[simp] theorem Team.setK_acc (t : Team) (n : Nat) (m : Mask) : (t.setK n m).acc = t.acc := by unfold Team.setK; split <;> rfl
@[simp] theorem Team.setK_accrows (t : Team) (n : Nat) (m : Mask) : (t.setK n m).accrows = t.accrows := by unfold Team.setK; split <;> rfl
@[simp] theorem Team.setK_staged (t : Team) (n : Nat) (m : Mask) : (t.setK n m).staged = t.staged := by unfold Team.setK; split <;> rfl
@[simp] theorem Team.setK_released (t : Team) (n : Nat) (m : Mask) : (t.setK n m).released = t.released := by unfold Team.setK; split <;> rfl
@[simp] theorem Team.setK_wantsKey (t : Team) (n : Nat) (m : Mask) : (t.setK n m).wantsKey = t.wantsKey := by unfold Team.setK; split <;> rfl
@[simp] theorem Team.setK_parkWait (t : Team) (n : Nat) (m : Mask) : (t.setK n m).parkWait = t.parkWait := by unfold Team.setK; split <;> rfl
@[simp] theorem Team.setK_gaveUp (t : Team) (n : Nat) (m : Mask) : (t.setK n m).gaveUp = t.gaveUp := by unfold Team.setK; split <;> rfl
@[simp] theorem Team.setK_behind (t : Team) (n : Nat) (m : Mask) : (t.setK n m).behind = t.behind := by unfold Team.setK; split <;> rfl
@[simp] theorem Team.setK_acquired (t : Team) (n : Nat) (m : Mask) : (t.setK n m).acquired = t.acquired := by unfold Team.setK; split <;> rfl
@[simp] theorem Team.setK_mxq (t : Team) (n : Nat) (m : Mask) : (t.setK n m).mxq = t.mxq := by unfold Team.setK; split <;> rfl
@[simp] theorem Team.setK_lanePages (t : Team) (n : Nat) (m : Mask) : (t.setK n m).lanePages = t.lanePages := by unfold Team.setK; split <;> rfl
@[simp] theorem Team.setK_frontPage (t : Team) (n : Nat) (m : Mask) : (t.setK n m).frontPage = t.frontPage := by unfold Team.setK; split <;> rfl

end Sys2Proof.Machine
end

