-- ==== Sys2Proof/Laws/Memory.lean ====
section
/-! SUPPORT. Memory: what a byte reads as after a write, and that every operation keeps the canonical
form (log 3). -/

namespace Sys2Proof.Machine

/-! ## Bytes -/

@[simp] theorem readByte_writeByte_same (m : List Host.Cell) (a : Nat) (b : Byte) :
    readByte (writeByte m a b) a = b := SMap.val_set_same 0 m a b

theorem readByte_writeByte_other (m : List Host.Cell) {a c : Nat} (b : Byte) (h : c ≠ a) :
    readByte (writeByte m a b) c = readByte m c := SMap.val_set_other 0 m b h

/-- A write of bytes leaves every byte outside its range alone. -/
theorem readByte_writeBytes_outside (bs : List Byte) (m : List Host.Cell) (a c : Nat)
    (h : c < a ∨ a + bs.length ≤ c) : readByte (writeBytes m a bs) c = readByte m c := by
  induction bs generalizing m a with
  | nil => rfl
  | cons b bs ih =>
    simp only [List.length_cons] at h
    rw [writeBytes, ih (writeByte m a b) (a + 1) (by omega), readByte_writeByte_other m b (by omega)]

/-- The byte at each place of a range that was written. -/
theorem readByte_writeBytes_inside (bs : List Byte) (m : List Host.Cell) (a i : Nat) (h : i < bs.length) :
    readByte (writeBytes m a bs) (a + i) = bs[i] := by
  induction bs generalizing m a i with
  | nil => simp at h
  | cons b bs ih =>
    cases i with
    | zero =>
      rw [writeBytes, readByte_writeBytes_outside bs _ (a + 1) (a + 0) (by omega)]
      simp
    | succ i =>
      have h' : i < bs.length := by simpa using h
      have e : a + (i + 1) = a + 1 + i := by omega
      rw [writeBytes, e, ih _ _ _ h']
      simp

/-- Bytes read back where they were written. -/
theorem readBytes_writeBytes (bs : List Byte) (m : List Host.Cell) (a : Nat) :
    readBytes (writeBytes m a bs) a bs.length = bs := by
  apply List.ext_getElem
  · simp [readBytes]
  · intro i h1 h2
    simp only [readBytes, List.getElem_map, List.getElem_range]
    exact readByte_writeBytes_inside bs m a i h2

/-! ## The canonical form -/

theorem writeByte_wf {m : List Host.Cell} (a : Nat) (b : Byte) (h : Memory.wf m = true) :
    Memory.wf (writeByte m a b) = true := SMap.set_wf a b h

theorem writeBytes_wf (bs : List Byte) {m : List Host.Cell} (a : Nat) (h : Memory.wf m = true) :
    Memory.wf (writeBytes m a bs) = true := by
  induction bs generalizing m a with
  | nil => exact h
  | cons b bs ih => exact ih (a + 1) (writeByte_wf a b h)

/-- Restoring what a checkpoint kept keeps it (R387). -/
theorem foldl_writeByte_wf (cs : List Host.Cell) {m : List Host.Cell} (h : Memory.wf m = true) :
    Memory.wf (cs.foldl (fun m c => writeByte m c.1 c.2) m) = true := by
  induction cs generalizing m with
  | nil => exact h
  | cons c cs ih => exact ih (writeByte_wf c.1 c.2 h)

theorem memory_filter_wf {m : List Host.Cell} (q : Host.Cell → Bool) (h : Memory.wf m = true) :
    Memory.wf (m.filter q) = true := SMap.filter_wf q h

/-! ## Slices keep it -/

/-- A fold whose steps leave memory alone leaves it alone. -/
theorem foldl_mem {α : Type} {f : State → α → State} (h : ∀ s a, (f s a).mem = s.mem) (l : List α) (s : State) :
    (l.foldl f s).mem = s.mem := by
  induction l generalizing s with
  | nil => rfl
  | cons a l ih => exact (ih (f s a)).trans (h s a)

/-- A fold whose steps keep the form keeps it. -/
theorem foldl_wf {α : Type} {f : State → α → State}
    (h : ∀ s a, Memory.wf s.mem = true → Memory.wf (f s a).mem = true) (l : List α) {s : State}
    (hs : Memory.wf s.mem = true) : Memory.wf (l.foldl f s).mem = true := by
  induction l generalizing s with
  | nil => exact hs
  | cons a l ih => exact ih (h s a hs)

/-- MTAG stands beside memory. -/
@[simp] theorem State.tag_mem (s : State) (key n asid : Nat) : (s.tag key n asid).mem = s.mem := by
  unfold State.tag
  split
  · apply foldl_mem
    intro s p
    rfl
  · rfl

/-- So do the poison bits. -/
@[simp] theorem State.cover_mem (s : State) (group key n : Nat) : (s.cover group key n).mem = s.mem := by
  unfold State.cover
  split
  · apply foldl_mem
    intro s p
    dsimp only
    repeat' split
    all_goals rfl
  · rfl

/-- A Mortar LOAD answers without a write. -/
@[simp] theorem State.answer_mem (s : State) (m : MortarOp) (v poison : Nat) : (s.answer m v poison).mem = s.mem := by
  unfold State.answer State.ackOp
  dsimp only
  rw [State.withTeam_mem]
  split <;> rfl

theorem State.applyEntry_wf (s : State) (m : MortarOp) (h : Memory.wf s.mem = true) :
    Memory.wf (s.applyEntry m).mem = true := by
  unfold State.applyEntry
  split
  · simpa using h
  · simpa using writeBytes_wf _ _ h

theorem State.drainOver_wf (s : State) (key n : Nat) (h : Memory.wf s.mem = true) :
    Memory.wf (s.drainOver key n).mem = true := by
  unfold State.drainOver
  dsimp only
  split
  · apply foldl_wf (fun s m => s.applyEntry_wf m)
    exact h
  · exact h

/-- A write at a slice that leaves POISON keeps the form. -/
theorem State.storeKept_wf (s : State) (key : Nat) (bs : List Byte) (asid : Nat) (h : Memory.wf s.mem = true) :
    Memory.wf (s.storeKept key bs asid).mem = true := by
  simpa [State.storeKept] using writeBytes_wf bs key (s.drainOver_wf key bs.length h)

/-- A write at a slice keeps the form. -/
theorem State.store_wf (s : State) (key : Nat) (bs : List Byte) (asid group : Nat) (h : Memory.wf s.mem = true) :
    Memory.wf (s.store key bs asid group).mem = true := by
  simpa [State.store] using s.storeKept_wf key bs asid h

/-- Forgetting what clean writes replaced leaves memory alone, as does poison. -/
@[simp] theorem State.uncover_mem (s : State) (key n : Nat) : (s.uncover key n).mem = s.mem := by
  unfold State.uncover; split <;> rfl

@[simp] theorem State.poisonBurst_mem (s : State) (b sev : Nat) : (s.poisonBurst b sev).mem = s.mem := rfl

/-- A poisoned store keeps memory's form. -/
theorem State.storePoisoned_wf (s : State) (key : Nat) (bs : List Byte) (asid : Nat) (h : Memory.wf s.mem = true) :
    Memory.wf (s.storePoisoned key bs asid).mem = true := by
  simpa [State.storePoisoned] using s.storeKept_wf key bs asid h

/-- LOADs that complete keep memory's form. -/
theorem State.completeLoads_wf (fuel : Nat) (s : State) (h : Memory.wf s.mem = true) :
    Memory.wf (s.completeLoads fuel).mem = true := by
  induction fuel generalizing s with
  | zero => exact h
  | succ n ih =>
    unfold State.completeLoads
    dsimp only
    split
    · exact ih _ (State.applyEntry_wf _ _ h)
    · exact h

/-- Returns of callee lanes leave memory alone (R92). -/
@[simp] theorem State.laneBack_mem (s : State) (r : Return) : (s.laneBack r).mem = s.mem := by
  simp [State.laneBack]

@[simp] theorem State.flushReturns_mem (s : State) (i : Nat) : (s.flushReturns i).mem = s.mem := by
  unfold State.flushReturns
  exact foldl_mem State.laneBack_mem _ _

/-- A drain keeps memory's form. -/
theorem State.drainEntry_wf (s : State) (i : Nat) (m : MortarOp) (h : Memory.wf s.mem = true) :
    Memory.wf (s.drainEntry i m).mem = true := State.completeLoads_wf _ _ (State.applyEntry_wf _ _ h)

/-- So does making room in a queue. -/
theorem State.makeRoom_wf (s : State) (key : Nat) (h : Memory.wf s.mem = true) : Memory.wf (s.makeRoom key).mem = true := by
  unfold State.makeRoom
  split
  · split
    · exact State.drainEntry_wf _ _ _ h
    · exact h
  · exact h

/-- Reset memory lists nothing. -/
theorem reset_mem_wf : Memory.wf State.reset.mem = true := by decide

end Sys2Proof.Machine
end

