-- ==== Sys2Proof/Laws/Act.lean ====
section
/-! SUPPORT. Running an action of the team at issue: each combinator once, the shared reads and writes
of registers once, and what a whole instruction comes to. -/

namespace Sys2Proof.Machine

variable {α β : Type}

/-! ## Combinators -/

@[simp] theorem Act.go_pure (a : α) (s : State) : Act.go (pure a) s = (.ok a, s) := rfl

/-- One action after another: the first one's stop ends both. -/
theorem Act.go_bind (m : Act α) (f : α → Act β) (s : State) :
    Act.go (m >>= f) s =
      match Act.go m s with
      | (.ok a, s') => Act.go (f a) s'
      | (.error e, s') => (.error e, s') := by
  simp only [Act.go, ExceptT.run, bind, ExceptT.bind, ExceptT.mk, StateT.run, StateT.bind]
  show (match (m : StateM State (Except Stop α)) s with | (a, s') => ExceptT.bindCont f a s') = _
  rcases (m : StateM State (Except Stop α)) s with ⟨r, s'⟩
  cases r <;> rfl

/-- A first action that ends well. -/
theorem Act.go_bind_ok {m : Act α} {f : α → Act β} {s s' : State} {a : α} (h : Act.go m s = (.ok a, s')) :
    Act.go (m >>= f) s = Act.go (f a) s' := by rw [Act.go_bind, h]

@[simp] theorem Act.go_get (s : State) : Act.go get s = (.ok s, s) := rfl
@[simp] theorem Act.go_set (s s' : State) : Act.go (set s') s = (.ok PUnit.unit, s') := rfl
@[simp] theorem Act.go_modify (f : State → State) (s : State) : Act.go (modify f) s = (.ok PUnit.unit, f s) := rfl
@[simp] theorem Act.go_throw (e : Stop) (s : State) : Act.go (throw e : Act α) s = (.error e, s) := rfl
@[simp] theorem Act.go_trap (r : Rec) (s : State) : Act.go (trap r : Act α) s = (.error (.trap [r]), s) := rfl
@[simp] theorem Act.go_blockAt (b : Block) (s : State) : Act.go (blockAt b : Act α) s = (.error (.block b), s) := rfl
@[simp] theorem Act.go_tm (s : State) : Act.go tm s = (.ok (s.team (s.cur.getD 0)), s) := rfl
@[simp] theorem Act.go_me (s : State) : Act.go me s = (.ok (s.cur.getD 0), s) := rfl
@[simp] theorem Act.go_modTm (f : Team → Team) (s : State) :
    Act.go (modTm f) s = (.ok PUnit.unit, s.withTeam (s.cur.getD 0) f) := rfl
@[simp] theorem Act.go_fresh (s : State) : Act.go fresh s = (.ok s.serial, { s with serial := s.serial + 1 }) := rfl
@[simp] theorem Act.go_nextFree (s : State) : Act.go nextFree s = (.ok s.free, { s with free := s.free + 1 }) := rfl

/-! ## Teams -/

theorem State.team_of_find {s : State} {i : Nat} {t : Team} (h : SMap.find s.teams i = some t) : s.team i = t := by
  simp [State.team, SMap.val, h]

theorem State.find_withTeam {s : State} {i : Nat} {t : Team} (f : Team → Team) (h : SMap.find s.teams i = some t) :
    SMap.find (s.withTeam i f).teams i = some (f t) := SMap.find_alter_same s.teams f h

theorem State.team_withTeam {s : State} {i : Nat} {t : Team} (f : Team → Team) (h : SMap.find s.teams i = some t) :
    (s.withTeam i f).team i = f t := State.team_of_find (State.find_withTeam f h)

theorem State.team_withTeam_other (s : State) {i j : Nat} (f : Team → Team) (h : j ≠ i) :
    (s.withTeam i f).team j = s.team j := by
  simp [State.team, SMap.val, SMap.find_alter_other s.teams f h]

theorem State.withTeam_withTeam (s : State) (i : Nat) (f g : Team → Team) :
    (s.withTeam i f).withTeam i g = s.withTeam i fun t => g (f t) := by
  simp [State.withTeam, SMap.alter_alter]

/-- A change that leaves a team as it stands changes nothing that is read. -/
theorem State.withTeam_congr {s : State} {i : Nat} {t : Team} {f g : Team → Team} (h : SMap.find s.teams i = some t)
    (e : f t = g t) : s.withTeam i f = s.withTeam i g := by
  simp [State.withTeam, SMap.alter, h, e]

/-- Writing what a change makes of the team as it stands is the change. -/
theorem State.withTeam_const {s : State} {i : Nat} {t : Team} (h : SMap.find s.teams i = some t) (g : Team → Team) :
    (s.withTeam i fun _ => g t) = s.withTeam i g := State.withTeam_congr h rfl

/-! ## Instructions -/

/-- An instruction whose action ends well retires. -/
theorem runCore_ok {s s' : State} {i : Nat} {t : Team} {act : Act Unit} (hc : s.cur = some i)
    (ht : SMap.find s.teams i = some t) (h : Act.go act s = (.ok (), s')) :
    runCore act s = .next (s'.retire i) := by
  simp [runCore, hc, ht, h, conclude]

/-- One whose action traps is delivered. -/
theorem runCore_trap {s s' : State} {i : Nat} {t : Team} {act : Act Unit} {rs : List Rec} (hc : s.cur = some i)
    (ht : SMap.find s.teams i = some t) (h : Act.go act s = (.error (.trap rs), s')) :
    runCore act s = .next (s'.trapInstr i rs) := by
  simp [runCore, hc, ht, h, conclude]

/-- One whose action blocks stands there. -/
theorem runCore_block {s s' : State} {i : Nat} {t : Team} {act : Act Unit} {b : Block} (hc : s.cur = some i)
    (ht : SMap.find s.teams i = some t) (h : Act.go act s = (.error (.block b), s')) :
    runCore act s = .next (s'.stand i b) := by
  simp [runCore, hc, ht, h, conclude]

end Sys2Proof.Machine
end

