-- ==== Sys2Proof/Laws/Operands.lean ====
section
/-! SUPPORT. Registers: what a read gives after a write, and what the shared reads and writes of
operands come to for the team at issue. -/

namespace Sys2Proof.Machine

/-! ## Registers of a team -/

@[simp] theorem Team.getV_setV_same (t : Team) (l r : Nat) (x : LaneWord) : (t.setV l r x).getV l r = x := by
  simp [Team.getV]
theorem Team.getV_setV_other (t : Team) {l r m q : Nat} (x : LaneWord) (h : vKey m q ≠ vKey l r) :
    (t.setV l r x).getV m q = t.getV m q := by
  simp [Team.getV, SMap.val_set_other _ _ _ h]
@[simp] theorem Team.getS_setS_same (t : Team) (r : Nat) (x : Word) : (t.setS r x).getS r = x := by
  simp [Team.getS]
theorem Team.getS_setS_other (t : Team) {r q : Nat} (x : Word) (h : q ≠ r) : (t.setS r x).getS q = t.getS q := by
  simp [Team.getS, SMap.val_set_other _ _ _ h]
@[simp] theorem Team.getA_setA_same (t : Team) (r : Nat) (x : BitVec 8) : (t.setA r x).getA r = x := by
  simp [Team.getA]
theorem Team.getA_setA_other (t : Team) {r q : Nat} (x : BitVec 8) (h : q ≠ r) : (t.setA r x).getA q = t.getA q := by
  simp [Team.getA, SMap.val_set_other _ _ _ h]
theorem Team.getK_setK_same (t : Team) {n : Nat} (m : Mask) (h : n ≠ 0) :
    (t.setK n m).getK n = m &&& lanesMask t.lanes := by
  simp [Team.getK, Team.setK, h]
theorem Team.getK_setK_other (t : Team) {n j : Nat} (m : Mask) (h : j ≠ n) : (t.setK n m).getK j = t.getK j := by
  by_cases hn : n = 0
  · simp [Team.setK, hn]
  · by_cases hj : j = 0
    · simp [Team.getK, hj]
    · simp [Team.getK, Team.setK, hn, hj, SMap.val_set_other _ _ _ h]

/-! ## The team at issue -/

theorem AtIssue.team {s : State} {i : Nat} {t : Team} (h : AtIssue s i t) : s.team i = t := State.team_of_find h.2
theorem AtIssue.cur {s : State} {i : Nat} {t : Team} (h : AtIssue s i t) : s.cur.getD 0 = i := by simp [h.1]
theorem AtIssue.withTeam {s : State} {i : Nat} {t : Team} (h : AtIssue s i t) (f : Team → Team) :
    AtIssue (s.withTeam i f) i (f t) := ⟨h.1, State.find_withTeam f h.2⟩

/-- Reading the team at issue. -/
theorem AtIssue.go_tm {s : State} {i : Nat} {t : Team} (h : AtIssue s i t) : Act.go tm s = (.ok t, s) := by
  simp [h.cur, h.team]

/-- Changing the team at issue. -/
theorem AtIssue.go_modTm {s : State} {i : Nat} {t : Team} (h : AtIssue s i t) (g : Team → Team) :
    Act.go (modTm g) s = (.ok (), s.withTeam i fun _ => g t) := by
  rw [Act.go_modTm, h.cur, State.withTeam_const h.2]

/-- A fault of the word at issue. -/
theorem AtIssue.go_fail {s : State} {i : Nat} {t : Team} (h : AtIssue s i t) {α : Type} (c : Cause) (d : Nat) (ea : Word) :
    Act.go (fail (α := α) c d ea) s = (.error (.trap [{ t.record c d with ea := ea }]), s) := by
  unfold fail
  rw [Act.go_bind_ok h.go_tm]
  rfl

/-- The instruction completes when its action ends well and did no more than change its team. -/
theorem AtIssue.completes {s : State} {i : Nat} {t u : Team} {ins : Instr} {act : Act Unit} (h : AtIssue s i t)
    (he : exec ins s = runCore act s) (ha : Act.go act s = (.ok (), s.withTeam i fun _ => u)) : Completes ins s i u := by
  rw [Completes, he]
  exact runCore_ok h.1 h.2 ha

/-- Retiring a team that was written as it stands. -/
theorem State.retire_self {s : State} {i : Nat} {t : Team} (h : SMap.find s.teams i = some t) :
    (s.withTeam i fun _ => t).retire i = s.retire i := by
  have e : (s.withTeam i fun _ => t).closeInstr i = s.closeInstr i := by
    unfold State.closeInstr
    rw [State.withTeam_withTeam, State.team_withTeam _ h, State.team_of_find h, State.withTeam_const h]
  unfold State.retire
  rw [e]

/-- Retiring forgets what the open instruction kept of its progress. -/
theorem State.retire_congr {s : State} {i : Nat} {t u w : Team} (h : SMap.find s.teams i = some t) (e : u.closed = w.closed)
    (n : u.unitNow = w.unitNow) : (s.withTeam i fun _ => u).retire i = (s.withTeam i fun _ => w).retire i := by
  have c : (s.withTeam i fun _ => u).closeInstr i = (s.withTeam i fun _ => w).closeInstr i := by
    unfold State.closeInstr
    simp only [State.withTeam_withTeam, State.team_withTeam _ h, n, e]
  unfold State.retire
  rw [c]

/-- The same when the action changed nothing. -/
theorem AtIssue.completes_self {s : State} {i : Nat} {t : Team} {ins : Instr} {act : Act Unit} (h : AtIssue s i t)
    (he : exec ins s = runCore act s) (ha : Act.go act s = (.ok (), s)) : Completes ins s i t := by
  rw [Completes, he, State.retire_self h.2]
  exact runCore_ok h.1 h.2 ha

/-! ## Scalar operands -/

theorem go_usePoison {s : State} {i : Nat} {t : Team} (h : AtIssue s i t) {r : Reg} (hr : Readable t r) :
    Act.go (usePoison r) s = (.ok (), s) := by
  unfold usePoison
  rw [Act.go_bind_ok h.go_tm]
  cases r <;> simp_all [Readable]

theorem go_sread {s : State} {i : Nat} {t : Team} (h : AtIssue s i t) {r : Reg} (hr : Readable t r) :
    Act.go (sread r) s = (.ok (t.scalar (s.teamsOf t) r), s) := by
  unfold sread
  rw [Act.go_bind_ok (go_usePoison h hr), Act.go_bind_ok (Act.go_get s), Act.go_bind_ok h.go_tm]
  rfl

theorem go_useAll {s : State} {i : Nat} {t : Team} (h : AtIssue s i t) (rs : List Reg) (hr : ∀ r ∈ rs, Readable t r) :
    Act.go (rs.forM usePoison) s = (.ok (), s) := by
  induction rs with
  | nil => rfl
  | cons r rs ih =>
    show Act.go (usePoison r >>= fun _ => rs.forM usePoison) s = _
    rw [Act.go_bind_ok (go_usePoison h (hr r (by simp)))]
    exact ih fun q hq => hr q (by simp [hq])

/-- A scalar result, written for the team at issue. -/
theorem go_swrite {s : State} {i : Nat} {t : Team} (h : AtIssue s i t) (r : Reg) (x : Word) :
    Act.go (swrite r x) s = (.ok (), match r with | .s _ | .a _ => s.withTeam i fun _ => t.putScalar r x | _ => s) := by
  cases r <;> simp [swrite, h.cur, Team.putScalar]
  · exact State.withTeam_congr h.2 rfl
  · exact State.withTeam_congr h.2 rfl

/-- An instruction whose action ends with a scalar result. -/
theorem AtIssue.completes_swrite {s : State} {i : Nat} {t : Team} {ins : Instr} {act : Act Unit} {r : Reg} {x : Word}
    (h : AtIssue s i t) (he : exec ins s = runCore act s) (ha : Act.go act s = Act.go (swrite r x) s) :
    Completes ins s i (t.putScalar r x) := by
  rw [go_swrite h] at ha
  cases r <;> first | exact h.completes he ha | exact h.completes_self he ha

theorem qread_eq {s : State} {i : Nat} {t : Team} (h : AtIssue s i t) (slot : Nat) {r : Reg} (hr : Readable t r) :
    Act.go (qread slot r) s = (.ok (t.scalar (s.teamsOf t) r), s) := by
  cases r <;> first | exact go_sread h hr | exact hr.elim

theorem qwrite_eq {r : Reg} (hr : NoQueue r) (x : Word) : qwrite r x = swrite r x := by
  cases r <;> first | rfl | exact hr.elim

end Sys2Proof.Machine
end

