-- ==== Sys2Proof/Laws/Access.lean ====
section
/-! SUPPORT. Reaching an address of the team at issue whose translation its core holds: nothing changes but
the page register that served (R336, R339, R340). -/

namespace Sys2Proof.Machine

variable {s : State} {i : Nat} {t : Team}

/-- A team with other page registers. -/
def Team.paged (t : Team) (lanes : SMap Tlb) (front : Option Tlb) : Team := { t with lanePages := lanes, frontPage := front }

/-- A cached translation that may serve is taken. -/
theorem go_leafFor {h : Holder} {asid u g a : Nat} {need : Need} {e : Tlb}
    (hf : (s.cached h).find? (fun t => t.usable asid a u g need) = some e) :
    Act.go (leafFor h asid u g a need) s = (.ok (.ok e), s.keep h e false) := by
  unfold leafFor
  rw [Act.go_bind_ok (Act.go_get s)]
  simp only [hf]
  rfl

/-- Keeping a translation leaves the ways of keys alone. -/
theorem State.through_keep (s : State) (h : Holder) (e : Tlb) (b : Bool) (x : Tlb) (a : Nat) (need : Need) :
    (s.keep h e b).through x a need = s.through x a need := by
  cases h <;> cases b <;> rfl

/-- A translation through one. -/
theorem go_translate {h : Holder} {asid u g : Nat} {va : Word} {need : Need} {e : Tlb} {key k : Nat} (hc : canonical va = true)
    (hf : (s.cached h).find? (fun t => t.usable asid (va.toNat % 2 ^ 57) u g need) = some e)
    (ht : s.through e (va.toNat % 2 ^ 57) need = .ok key k) :
    Act.go (translate h asid u g va need) s = (.ok (.ok key k), s.keep h e false) := by
  unfold translate
  simp only [hc, Bool.not_true, if_false, Bool.false_eq_true]
  show Act.go (leafFor h asid u g (va.toNat % 2 ^ 57) need >>= _) s = _
  rw [Act.go_bind_ok (go_leafFor hf)]
  show Act.go (get >>= fun s => pure (s.through e (va.toNat % 2 ^ 57) need)) (s.keep h e false) = _
  rw [Act.go_bind_ok (Act.go_get _), State.through_keep, ht]
  rfl

/-- The holders of a team. -/
def Holder.ofTeam (h : Holder) (i core : Nat) : Prop := h = .core core ∨ (∃ l, h = .lane i l) ∨ h = .front i

/-- What a holder of the team finds is one of the team's translations. -/
theorem AtIssue.cached_sub (hi : AtIssue s i t) {h : Holder} (ho : h.ofTeam i t.core) :
    (∀ e ∈ s.cached h, e ∈ t.translations s) ∧ ∀ e ∈ (s.core t.core).tlb, e ∈ s.cached h := by
  rcases ho with rfl | ⟨l, rfl⟩ | rfl
  · exact ⟨fun e he => by simp [Team.translations, State.cached] at he ⊢; tauto, fun e he => he⟩
  · simp only [State.cached, hi.team, Team.translations]
    refine ⟨fun e he => ?_, fun e he => List.mem_append.mpr (.inr he)⟩
    rcases List.mem_append.mp he with he | he
    · have hx := SMap.mem_of_find t.lanePages (by simpa using he)
      simp only [List.mem_append, List.mem_map]
      exact .inl (.inr ⟨_, hx, rfl⟩)
    · simp [he]
  · simp only [State.cached, hi.team, Team.translations]
    refine ⟨fun e he => ?_, fun e he => List.mem_append.mpr (.inr he)⟩
    simp only [List.mem_append] at he ⊢
    tauto

/-- A mapped address is translated to its key by every holder of the team. -/
theorem go_translate_mapped (hi : AtIssue s i t) {va : Word} {need : Need} {key : Nat} (m : Mapped s i t va need key)
    {h : Holder} (ho : h.ofTeam i t.core) :
    ∃ e k, e ∈ t.translations s ∧
      Act.go (translate h t.asid t.timeline t.gen va need) s = (.ok (.ok key k), s.keep h e false) := by
  obtain ⟨hc, -, -, k, ha, hall⟩ := m
  obtain ⟨h1, h2⟩ := hi.cached_sub ho
  obtain ⟨e0, he0, hu0⟩ := List.any_eq_true.mp ha
  cases hf : (s.cached h).find? (fun e => e.usable t.asid (va.toNat % 2 ^ 57) t.timeline t.gen need) with
  | none => exact absurd hu0 (by simpa using List.find?_eq_none.mp hf e0 (h2 e0 he0))
  | some e =>
    have he := h1 e (List.mem_of_find?_eq_some hf)
    exact ⟨e, k, he, go_translate hc hf (hall e he (by simpa using List.find?_some hf))⟩

/-- It is reached at its key. -/
theorem go_reach (hi : AtIssue s i t) {va : Word} {need : Need} {key : Nat} (m : Mapped s i t va need key)
    {h : Holder} (ho : h.ofTeam i t.core) (access : Nat) (ordered logged : Bool) :
    ∃ e k, e ∈ t.translations s ∧ Act.go (reach h va need access ordered logged) s = (.ok (.key key k), s.keep h e false) := by
  obtain ⟨e, k, he, hgo⟩ := go_translate_mapped hi m ho
  obtain ⟨hc, hl, hd, -⟩ := m
  refine ⟨e, k, he, ?_⟩
  unfold reach
  rw [Act.go_bind_ok hi.go_tm, Act.go_bind_ok (Act.go_me s), Act.go_bind_ok (Act.go_get s)]
  simp only [hc, Bool.not_true, if_false, Bool.false_eq_true, hi.cur, hl, Bool.and_false, hd]
  show Act.go (translate h t.asid t.timeline t.gen va need >>= _) s = _
  rw [Act.go_bind_ok hgo]
  rfl

/-- Through the core's store nothing changes. -/
theorem State.keep_core (s : State) (c : Nat) (e : Tlb) : s.keep (.core c) e false = s := rfl

end Sys2Proof.Machine
end

