-- ==== Sys2Proof/Laws/Cache.lean ====
section
/-! SUPPORT. The load cache of a core and the views that teams have of it (R3, R239, R374). -/

namespace Sys2Proof.Machine

/-- A line that has been filled is the one found at its key. -/
theorem Core.find_fill (c : Core) (l : CacheLine) (victim : Nat) :
    (c.fill l victim).cache.find? (fun x => x.key == l.key) = some l := by simp [Core.fill]

/-- A load cache holds no more than its lines, whatever fills it. -/
theorem Core.fill_length (c : Core) (l : CacheLine) (victim : Nat) (h : c.cache.length ≤ cacheLines) :
    (c.fill l victim).cache.length ≤ cacheLines := by
  have hf := List.length_filter_le (fun x : CacheLine => x.key != l.key) c.cache
  have hp : 0 < cacheLines := by decide
  simp only [Core.fill, List.length_cons]
  split
  · rename_i hc
    rw [List.length_eraseIdx_of_lt (Nat.mod_lt _ (by omega))]
    omega
  · omega

/-- A fill leaves no line that was not there before but its own. -/
theorem Core.mem_fill {c : Core} {l x : CacheLine} {victim : Nat} (h : x ∈ (c.fill l victim).cache) : x = l ∨ x ∈ c.cache := by
  rcases List.mem_cons.mp h with rfl | h
  · exact .inl rfl
  · refine .inr ?_
    split at h
    · exact (List.mem_filter.mp (List.mem_of_mem_eraseIdx h)).1
    · exact (List.mem_filter.mp h).1

@[simp] theorem State.acquire_mem (s : State) (i : Nat) : (s.acquire i).mem = s.mem := rfl
@[simp] theorem State.acquire_cores (s : State) (i : Nat) : (s.acquire i).cores = s.cores := rfl
@[simp] theorem State.acquire_writes (s : State) (i : Nat) : (s.acquire i).writes = s.writes := rfl
@[simp] theorem State.unseeAt_mem (s : State) (c i key n : Nat) : (s.unseeAt c i key n).mem = s.mem := by
  unfold State.unseeAt; split <;> rfl
@[simp] theorem State.unseeAt_teams (s : State) (c i key n : Nat) : (s.unseeAt c i key n).teams = s.teams := by
  unfold State.unseeAt; split <;> rfl
@[simp] theorem State.unseeAt_writes (s : State) (c i key n : Nat) : (s.unseeAt c i key n).writes = s.writes := by
  unfold State.unseeAt; split <;> rfl
@[simp] theorem State.unsee_mem (s : State) (c i : Nat) : (s.unsee c i).mem = s.mem := by unfold State.unsee; split <;> rfl
@[simp] theorem State.unsee_teams (s : State) (c i : Nat) : (s.unsee c i).teams = s.teams := by unfold State.unsee; split <;> rfl
@[simp] theorem State.unsee_writes (s : State) (c i : Nat) : (s.unsee c i).writes = s.writes := by unfold State.unsee; split <;> rfl

/-- An acquire marks its team and changes nothing else of it. -/
theorem State.acquire_team (s : State) (i : Nat) (t : Team) (h : SMap.find s.teams i = some t) :
    SMap.find (s.acquire i).teams i = some { t with acquired := true } :=
  SMap.find_alter_same s.teams _ h

end Sys2Proof.Machine
end

