-- ==== Sys2Proof/Laws/Values.lean ====
section
/-! SUPPORT. Integer arithmetic at a type's width, as exact integers narrowed at the end: each operation
of the front unit and the lanes once (R79 to R82, R100, R104). -/

namespace Sys2Proof.Machine

theorem tyWidth_pos (ty : Ty) : 0 < tyWidth ty := by cases ty <;> decide

theorem ofInt_valueOf (ty : Ty) (x : Word) :
    BitVec.ofInt (tyWidth ty) (valueOf ty x) = BitVec.ofNat (tyWidth ty) x.toNat := by
  unfold valueOf
  split
  · rw [BitVec.ofInt_toInt]
  · rw [BitVec.ofInt_natCast]
    apply BitVec.eq_of_toNat_eq
    simp

theorem ofNat_lowBits (ty : Ty) (x : Word) :
    BitVec.ofNat (tyWidth ty) (lowBits (tyWidth ty) x) = BitVec.ofNat (tyWidth ty) x.toNat := by
  apply BitVec.eq_of_toNat_eq
  simp [lowBits]

theorem ofNat_ofSigned (w : Nat) (z : Int) : BitVec.ofNat w (ofSigned w z) = BitVec.ofInt w z := by
  rw [ofSigned, BitVec.ofNat_toNat, BitVec.setWidth_eq]

theorem narrow_congr (ty : Ty) {x y : Int} (h : BitVec.ofInt (tyWidth ty) x = BitVec.ofInt (tyWidth ty) y) :
    narrow ty x = narrow ty y := by rw [narrow, narrow, h]

theorem extendTo_eq_narrow (ty : Ty) (n : Nat) : extendTo (tySigned ty) (tyWidth ty) n = narrow ty n := by
  unfold extendTo narrow
  rw [BitVec.ofInt_natCast]
  split <;> simp

/-- A result that agrees with an exact integer in its low bits is that integer narrowed. -/
theorem extendTo_of (ty : Ty) {n : Nat} {z : Int} (h : BitVec.ofNat (tyWidth ty) n = BitVec.ofInt (tyWidth ty) z) :
    extendTo (tySigned ty) (tyWidth ty) n = narrow ty z := by
  rw [extendTo_eq_narrow]
  apply narrow_congr
  rw [BitVec.ofInt_natCast, h]

theorem readAs_lowBits (ty : Ty) (x : Word) : readAs ty (lowBits (tyWidth ty) x) = valueOf ty x := by
  unfold readAs valueOf
  split
  · rw [toSigned, ofNat_lowBits]
  · rfl

theorem extendTo_lowBits (ty : Ty) (a : Word) :
    extendTo (tySigned ty) (tyWidth ty) (lowBits (tyWidth ty) a) = narrow ty (valueOf ty a) := by
  apply extendTo_of
  rw [ofInt_valueOf, ofNat_lowBits]

/-- A type's arithmetic on the low bits of two words, narrowed. -/
abbrev onLow (op : Ty → Nat → Nat → Nat) (ty : Ty) (a b : Word) : Word :=
  extendTo (tySigned ty) (tyWidth ty) (op ty (lowBits (tyWidth ty) a) (lowBits (tyWidth ty) b))

theorem onLow_iAdd (ty : Ty) (a b : Word) : onLow iAdd ty a b = narrow ty (valueOf ty a + valueOf ty b) := by
  apply extendTo_of
  rw [BitVec.ofInt_add, ofInt_valueOf, ofInt_valueOf]
  apply BitVec.eq_of_toNat_eq
  simp [iAdd, lowBits]

theorem onLow_iSub (ty : Ty) (a b : Word) : onLow iSub ty a b = narrow ty (valueOf ty a - valueOf ty b) := by
  have h (x : Word) : BitVec.ofInt (tyWidth ty) (lowBits (tyWidth ty) x : Int) = BitVec.ofInt (tyWidth ty) (valueOf ty x) := by
    rw [ofInt_valueOf, BitVec.ofInt_natCast, ofNat_lowBits]
  apply extendTo_of
  rw [iSub, ofNat_ofSigned, Int.sub_eq_add_neg, Int.sub_eq_add_neg, BitVec.ofInt_add, BitVec.ofInt_add, BitVec.ofInt_neg,
    BitVec.ofInt_neg, h, h]

theorem onLow_iMul (ty : Ty) (a b : Word) : onLow iMul ty a b = narrow ty (valueOf ty a * valueOf ty b) := by
  apply extendTo_of
  rw [BitVec.ofInt_mul, ofInt_valueOf, ofInt_valueOf]
  apply BitVec.eq_of_toNat_eq
  simp [iMul, lowBits, Nat.mul_mod]

theorem onLow_iMulh (ty : Ty) (a b : Word) :
    onLow iMulh ty a b = narrow ty (valueOf ty a * valueOf ty b / 2 ^ tyWidth ty) := by
  apply extendTo_of
  rw [iMulh, ofNat_ofSigned, readAs_lowBits, readAs_lowBits]

theorem onLow_iAnd (ty : Ty) (a b : Word) : onLow iAnd ty a b = narrow ty (a &&& b).toNat := by
  apply extendTo_of
  rw [BitVec.ofInt_natCast]
  apply BitVec.eq_of_toNat_eq
  simp [iAnd, lowBits]

theorem onLow_iOr (ty : Ty) (a b : Word) : onLow iOr ty a b = narrow ty (a ||| b).toNat := by
  apply extendTo_of
  rw [BitVec.ofInt_natCast]
  apply BitVec.eq_of_toNat_eq
  simp [iOr, lowBits]

theorem onLow_iXor (ty : Ty) (a b : Word) : onLow iXor ty a b = narrow ty (a ^^^ b).toNat := by
  apply extendTo_of
  rw [BitVec.ofInt_natCast]
  apply BitVec.eq_of_toNat_eq
  simp [iXor, lowBits]

theorem onLow_iMin (ty : Ty) (a b : Word) : onLow iMin ty a b = narrow ty (min (valueOf ty a) (valueOf ty b)) := by
  unfold onLow iMin
  rw [readAs_lowBits, readAs_lowBits]
  split
  · rw [extendTo_lowBits, Int.min_eq_right (by omega)]
  · rw [extendTo_lowBits, Int.min_eq_left (by omega)]

theorem onLow_iMax (ty : Ty) (a b : Word) : onLow iMax ty a b = narrow ty (max (valueOf ty a) (valueOf ty b)) := by
  unfold onLow iMax
  rw [readAs_lowBits, readAs_lowBits]
  split
  · rw [extendTo_lowBits, Int.max_eq_right (by omega)]
  · rw [extendTo_lowBits, Int.max_eq_left (by omega)]

theorem onLow_iQuot (ty : Ty) (a b : Word) : onLow iQuot ty a b = narrow ty ((valueOf ty a).tdiv (valueOf ty b)) := by
  apply extendTo_of
  rw [iQuot, ofNat_ofSigned, readAs_lowBits, readAs_lowBits]

theorem onLow_iRem (ty : Ty) (a b : Word) : onLow iRem ty a b = narrow ty ((valueOf ty a).tmod (valueOf ty b)) := by
  apply extendTo_of
  rw [iRem, ofNat_ofSigned, readAs_lowBits, readAs_lowBits]

/-! ## Shifts, whose count is taken in full -/

/-- A shift of the low bits of a word, narrowed. -/
abbrev shiftLow (op : Ty → Nat → Nat → Nat) (ty : Ty) (a : Word) (c : Nat) : Word :=
  extendTo (tySigned ty) (tyWidth ty) (op ty (lowBits (tyWidth ty) a) c)

theorem shiftLow_iShl (ty : Ty) (a : Word) (c : Nat) : shiftLow iShl ty a c = narrow ty (a.toNat * 2 ^ c) := by
  have e : (a.toNat : Int) * 2 ^ c = ((a.toNat * 2 ^ c : Nat) : Int) := by push_cast; rfl
  rw [e]
  apply extendTo_of
  rw [BitVec.ofInt_natCast]
  apply BitVec.eq_of_toNat_eq
  unfold iShl
  split
  · rename_i h
    obtain ⟨k, hk⟩ := Nat.exists_eq_add_of_le h
    have : a.toNat * 2 ^ c = 2 ^ tyWidth ty * (a.toNat * 2 ^ k) := by rw [hk, Nat.pow_add, Nat.mul_left_comm]
    simp [this]
  · simp [lowBits, Nat.mul_mod]

theorem shiftLow_iShr (ty : Ty) (a : Word) (c : Nat) :
    shiftLow iShr ty a c = narrow ty (a.toNat % 2 ^ tyWidth ty / 2 ^ c : Nat) := by
  rw [shiftLow, ← extendTo_eq_narrow]
  congr 1
  unfold iShr lowBits
  split
  · rename_i h
    symm
    apply Nat.div_eq_of_lt
    exact Nat.lt_of_lt_of_le (Nat.mod_lt _ (Nat.two_pow_pos _)) (Nat.pow_le_pow_right (by omega) h)
  · rfl

/-- Beyond its magnitude a power of two divides an integer to 0 or −1. -/
theorem ediv_two_pow_big {x : Int} {n c : Nat} (h : n ≤ c) (hl : -(2 : Int) ^ n ≤ x) (hh : x < (2 : Int) ^ n) :
    x / 2 ^ c = x / 2 ^ n := by
  have p : (2 : Int) ^ n ≤ 2 ^ c := by exact_mod_cast Nat.pow_le_pow_right (by omega) h
  have q : (0 : Int) < 2 ^ n := by exact_mod_cast Nat.two_pow_pos n
  by_cases h0 : x < 0
  · have a1 : x / 2 ^ c = -1 := by rw [Int.ediv_eq_iff_of_pos (by omega)]; omega
    have a2 : x / 2 ^ n = -1 := by rw [Int.ediv_eq_iff_of_pos (by omega)]; omega
    rw [a1, a2]
  · rw [Int.ediv_eq_zero_of_lt (by omega) (by omega), Int.ediv_eq_zero_of_lt (by omega) (by omega)]

theorem shiftLow_iSra (ty : Ty) (a : Word) (c : Nat) :
    shiftLow iSra ty a c = narrow ty ((BitVec.ofNat (tyWidth ty) a.toNat).toInt / 2 ^ c) := by
  apply extendTo_of
  unfold iSra toSigned
  simp only [ofNat_ofSigned, ofNat_lowBits]
  congr 1
  rcases Nat.le_total c (tyWidth ty - 1) with h | h
  · rw [Nat.min_eq_left h]
  · rw [Nat.min_eq_right h]
    exact (ediv_two_pow_big h (BitVec.le_toInt _) BitVec.toInt_lt).symm

end Sys2Proof.Machine
end

