-- ==== Sys2Proof/Laws/Front.lean ====
section
/-! SUPPORT. The fr instructions by shape, for operands read without a pop: each comes to one scalar
write. -/

namespace Sys2Proof.Machine

variable {s : State} {i : Nat} {t : Team}

theorem go_useAll2 (h : AtIssue s i t) {a b : Reg} (ha : Readable t a) (hb : Readable t b) :
    Act.go (useAll [a, b]) s = (.ok (), s) := go_useAll h [a, b] (by simp [ha, hb])

theorem go_frSrc (h : AtIssue s i t) (ty : Ty) (slot : Nat) {r : Reg} (hr : Readable t r) :
    Act.go (frSrc ty slot r) s = (.ok (lowBits (tyWidth ty) (t.scalar (s.teamsOf t) r)), s) := by
  unfold frSrc
  rw [Act.go_bind_ok (qread_eq h slot hr)]
  rfl

theorem go_frBin (h : AtIssue s i t) {op : Ty → Nat → Nat → Nat} {f : TForm} (ha : Readable t f.a) (hb : Readable t f.b)
    (hd : NoQueue f.d) :
    Act.go (frBin op f) s =
      Act.go (swrite f.d (onLow op f.ty (t.scalar (s.teamsOf t) f.a) (t.scalar (s.teamsOf t) f.b))) s := by
  unfold frBin frDst
  rw [Act.go_bind_ok (go_useAll2 h ha hb), Act.go_bind_ok (go_frSrc h _ _ ha), Act.go_bind_ok (go_frSrc h _ _ hb),
    qwrite_eq hd]

theorem go_frImm (h : AtIssue s i t) {op : Ty → Nat → Nat → Nat} {f : IForm} (ha : Readable t f.a) (hd : NoQueue f.d) :
    Act.go (frImm op f) s = Act.go (swrite f.d (onLow op f.ty (t.scalar (s.teamsOf t) f.a) (immOf f))) s := by
  unfold frImm frDst
  rw [Act.go_bind_ok (go_frSrc h _ _ ha), qwrite_eq hd]

theorem go_frShift (h : AtIssue s i t) {op : Ty → Nat → Nat → Nat} {f : TForm} (ha : Readable t f.a) (hb : Readable t f.b)
    (hd : NoQueue f.d) :
    Act.go (frShift op f) s =
      Act.go (swrite f.d (shiftLow op f.ty (t.scalar (s.teamsOf t) f.a) (t.scalar (s.teamsOf t) f.b).toNat)) s := by
  unfold frShift frDst
  rw [Act.go_bind_ok (go_useAll2 h ha hb), Act.go_bind_ok (go_frSrc h _ _ ha), Act.go_bind_ok (qread_eq h _ hb),
    qwrite_eq hd]

theorem go_frShiftImm (h : AtIssue s i t) {op : Ty → Nat → Nat → Nat} {f : IForm} (ha : Readable t f.a) (hd : NoQueue f.d) :
    Act.go (frShiftImm op f) s =
      Act.go (swrite f.d (shiftLow op f.ty (t.scalar (s.teamsOf t) f.a) (immOf f).toNat)) s := by
  unfold frShiftImm frDst
  rw [Act.go_bind_ok (go_frSrc h _ _ ha), qwrite_eq hd]

theorem go_frUn (h : AtIssue s i t) {op : Ty → Nat → Nat} {f : TForm} (ha : Readable t f.a) (hd : NoQueue f.d) :
    Act.go (frUn op f) s =
      Act.go (swrite f.d (extendTo (tySigned f.ty) (tyWidth f.ty)
        (op f.ty (lowBits (tyWidth f.ty) (t.scalar (s.teamsOf t) f.a))))) s := by
  unfold frUn frDst
  rw [Act.go_bind_ok (go_frSrc h _ _ ha), qwrite_eq hd]

theorem go_frDivide (h : AtIssue s i t) {op : Ty → Nat → Nat → Nat} {f : TForm} (ha : Readable t f.a) (hb : Readable t f.b)
    (hd : NoQueue f.d) (h0 : lowBits (tyWidth f.ty) (t.scalar (s.teamsOf t) f.b) ≠ 0) :
    Act.go (frDivide op f) s =
      Act.go (swrite f.d (onLow op f.ty (t.scalar (s.teamsOf t) f.a) (t.scalar (s.teamsOf t) f.b))) s := by
  unfold frDivide frDst
  rw [Act.go_bind_ok (go_useAll2 h ha hb), Act.go_bind_ok (go_frSrc h _ _ ha), Act.go_bind_ok (go_frSrc h _ _ hb)]
  simp [h0, qwrite_eq hd]

/-- A zero divisor is FPDIVZ with detail 1 (R82). -/
theorem go_frDivide_zero (h : AtIssue s i t) {op : Ty → Nat → Nat → Nat} {f : TForm} (ha : Readable t f.a)
    (hb : Readable t f.b) (h0 : lowBits (tyWidth f.ty) (t.scalar (s.teamsOf t) f.b) = 0) :
    Act.go (frDivide op f) s = (.error (.trap [t.record .fpdivz 1]), s) := by
  unfold frDivide fail
  rw [Act.go_bind_ok (go_useAll2 h ha hb), Act.go_bind_ok (go_frSrc h _ _ ha), Act.go_bind_ok (go_frSrc h _ _ hb)]
  simp [h0, Act.go_bind, h.cur, h.team, Team.record]
  split <;> rfl

theorem go_frCmp (h : AtIssue s i t) {f : TForm} (ha : Readable t f.a) (hb : Readable t f.b) (hd : NoQueue f.d) :
    Act.go (frCmp f) s =
      Act.go (swrite f.d (if iCond f.ty f.mod.toNat (lowBits (tyWidth f.ty) (t.scalar (s.teamsOf t) f.a))
        (lowBits (tyWidth f.ty) (t.scalar (s.teamsOf t) f.b)) then 1 else 0)) s := by
  unfold frCmp
  rw [Act.go_bind_ok (go_useAll2 h ha hb), Act.go_bind_ok (go_frSrc h _ _ ha), Act.go_bind_ok (go_frSrc h _ _ hb),
    qwrite_eq hd]

theorem go_frSel (h : AtIssue s i t) {f : TForm} (ha : Readable t f.a) (hb : Readable t f.b) (hc : Readable t f.c)
    (hd : NoQueue f.d) :
    Act.go (frSel f) s =
      Act.go (swrite f.d (extendTo (tySigned f.ty) (tyWidth f.ty) (lowBits (tyWidth f.ty) (t.scalar (s.teamsOf t)
        (if t.scalar (s.teamsOf t) f.c = 0 then f.b else f.a))))) s := by
  have hu : Act.go (useAll [f.a, f.b, f.c]) s = (.ok (), s) := go_useAll h _ (by simp [ha, hb, hc])
  unfold frSel frDst
  rw [Act.go_bind_ok hu, Act.go_bind_ok (go_frSrc h _ _ ha),
    Act.go_bind_ok (go_frSrc h _ _ hb), Act.go_bind_ok (qread_eq h _ hc), qwrite_eq hd]
  split <;> rfl

end Sys2Proof.Machine
end

