-- ==== Sys2Proof/Laws/Lanes.lean ====
section
/-! SUPPORT. The instructions that act lane by lane, by shape: what each comes to where no active lane
uses a poisoned register. -/

namespace Sys2Proof.Machine

variable {s : State} {i : Nat} {t : Team}

theorem AtIssue.go_get (_ : AtIssue s i t) : Act.go get s = (.ok s, s) := rfl

theorem Unpoisoned.filter {km : Fin 16} {uses : List (Reg × Nat)} (h : Unpoisoned t km uses) :
    ((t.lanesOf km.val).filter fun l => (t.firstPoison l uses).isNone) = t.lanesOf km.val :=
  List.filter_eq_self.mpr fun l hl => by simp [h l hl]

theorem Unpoisoned.records {km : Fin 16} {uses : List (Reg × Nat)} (h : Unpoisoned t km uses) (g : Nat → Reg × Nat → Rec) :
    ((t.lanesOf km.val).filterMap fun l => (t.firstPoison l uses).map (g l)) = [] :=
  List.filterMap_eq_nil_iff.mpr fun l hl => by simp [h l hl]

/-- An ln instruction: a value in every active lane. -/
theorem go_lnWords (h : AtIssue s i t) {km : Fin 16} {ty : Ty} {d : Reg} {uses : List (Reg × Nat)}
    {g : Team → Nat → Nat → Word} (hp : Unpoisoned t km uses) :
    Act.go (lnWords km ty d uses g) s =
      (.ok (), s.withTeam i fun _ => t.putLanes (t.lanesOf km.val) (tyWide ty) d (g t (s.teamsOf t))) := by
  unfold lnWords
  rw [Act.go_bind_ok h.go_tm, Act.go_bind_ok (Act.go_get s)]
  simp only [hp.filter]
  rw [Act.go_bind_ok (Act.go_modTm _ _), hp.records, h.cur]
  rfl

/-- What a lane comes to where it proceeds. -/
theorem laneOut_done {t : Team} {lane : Nat} {dec : Bool} {rs : List Result} {fl : BitVec 5} (h : fl &&& t.enables dec = 0) :
    laneOut t lane dec rs fl = .done rs fl := by simp [laneOut, h]

theorem outs_done {α : Type} (lanes : List α) (o : α → LaneOut) (r : α → List Result × BitVec 5)
    (h : ∀ l ∈ lanes, o l = .done (r l).1 (r l).2) : lanes.map o = lanes.map fun l => .done (r l).1 (r l).2 :=
  List.map_congr_left h

/-- An instruction whose lanes all proceed delivers their results and flags. -/
theorem go_runLanes (h : AtIssue s i t) {f : TForm} {dec : Bool} {uses : List (Reg × Nat)}
    {g : Team → Nat → Nat → List Result × BitVec 5} (hp : Proceeds t (s.teamsOf t) f.km dec uses g) :
    Act.go (runLanes f dec uses g) s =
      Act.go (deliverResults f.la (laneResults t (s.teamsOf t) f.km g)
        (if dec then 0 else laneFlags t (s.teamsOf t) f.km g) (if dec then laneFlags t (s.teamsOf t) f.km g else 0)) s := by
  unfold runLanes
  rw [Act.go_bind_ok h.go_tm, Act.go_bind_ok (Act.go_get s)]
  dsimp only
  rw [outs_done (r := g t (s.teamsOf t))]
  · unfold settleLanes
    simp only [List.flatMap_map, List.foldl_map, List.filterMap_map]
    have hn : ∀ (q : Nat → Option Rec), (∀ l, q l = none) → (t.lanesOf f.km.val).filterMap q = [] :=
      fun q hq => List.filterMap_eq_nil_iff.mpr fun l _ => hq l
    rw [hn (_ ∘ _) fun l => rfl]
    rfl
  · intro l hl
    rw [hp.1 l hl]
    exact laneOut_done (hp.2 l hl)

/-- Under LA 0 results and flags land at once. -/
theorem go_deliver_now (h : AtIssue s i t) (rs : List Result) (fpf dcf : BitVec 5) :
    Act.go (deliverResults 0 rs fpf dcf) s = (.ok (), s.withTeam i fun _ => t.putResults rs fpf dcf) := by
  unfold deliverResults
  simp only [if_true]
  rw [Act.go_bind_ok (Act.go_modTm _ _), h.cur]
  show (_, _) = _
  rw [State.withTeam_const h.2 fun t => t.putResults rs fpf dcf]

end Sys2Proof.Machine
end

