-- ==== Sys2Proof/Laws/Signature.lean ====
section
/-! SUPPORT. Signatures that verify: the neutral key of Ed25519 and the key of zeros of ML-DSA-65 accept every
message, so both signatures of an image file may be accepted (R56, R392). -/

namespace Sys2Proof.Laws.Signature

open Sys2Proof Sys2Proof.Hash Sys2Proof.Machine

/-- A neutral point in some coordinates. -/
def Neutral (u : Ed25519.Point) : Prop := u.x = 0 ∧ u.t = 0 ∧ u.y = u.z

/-- A sum of neutral points is one. -/
theorem neutral_plus {u v : Ed25519.Point} (hu : Neutral u) (hv : Neutral v) : Neutral (u.plus v) := by
  obtain ⟨ux, ut, uy⟩ := hu
  obtain ⟨vx, vt, vy⟩ := hv
  unfold Ed25519.Point.plus Neutral
  simp only [ux, ut, uy, vx, vt, vy, Ed25519.mul, Ed25519.sub, Ed25519.add, Nat.zero_mul, Nat.mul_zero, Nat.zero_mod,
    Nat.add_zero, Nat.sub_zero, Nat.add_mod_right, Nat.add_sub_cancel_left, Nat.mod_self, true_and]
  rw [Nat.mul_comm]
  congr 2
  simp only [Nat.mod_mul_mod, Nat.mul_mod_mod, Nat.mod_mod, Nat.mod_add_mod, Nat.add_mod_mod, Nat.add_mul]

/-- So is a multiple. -/
theorem neutral_times {u : Ed25519.Point} (hu : Neutral u) (n : Nat) : Neutral (u.times n) := by
  unfold Ed25519.Point.times
  suffices h : ∀ (l : List Nat) r, Neutral r → Neutral (l.foldl (fun r i =>
      let q := r.plus r; if n / 2 ^ i % 2 = 1 then q.plus u else q) r) from h _ _ ⟨rfl, rfl, rfl⟩
  intro l
  induction l with
  | nil => exact fun _ h => h
  | cons i l ih =>
    intro r h
    refine ih _ ?_
    dsimp only
    split
    · exact neutral_plus (neutral_plus h h) hu
    · exact neutral_plus h h

/-- They are the same point. -/
theorem neutral_same {u v : Ed25519.Point} (hu : Neutral u) (hv : Neutral v) : u.same v = true := by
  simp [Ed25519.Point.same, hu.1, hv.1, hu.2.2, hv.2.2, Ed25519.mul, Nat.mul_comm]

/-- Any message verifies under the neutral key, with the neutral point and 0. -/
theorem ed_accepts (m : List Byte) : Ed25519.verify m (1 :: zeros 31) (1 :: zeros 63) = true := by
  have hk : Ed25519.decode (1 :: zeros 31) = some ⟨0, 1, 1, 0⟩ := by decide +kernel
  have hr : Ed25519.decode ((1 :: zeros 63).take 32) = some ⟨0, 1, 1, 0⟩ := by decide +kernel
  have hs : leNat ((1 :: zeros 63).drop 32) = 0 := by decide +kernel
  have h0 : Ed25519.base.times 0 = Ed25519.zero.times 0 := by
    simp [Ed25519.Point.times]
  have n : Neutral ⟨0, 1, 1, 0⟩ := ⟨rfl, rfl, rfl⟩
  simp only [Ed25519.verify, hk, hr, hs, h0, Bool.and_eq_true, decide_eq_true_eq]
  exact ⟨⟨⟨by decide, by decide⟩, by decide⟩, neutral_same (neutral_times (neutral_times n 0) 8)
    (neutral_times (neutral_plus n (neutral_times n _)) 8)⟩

/-- All values of a polynomial are 0. -/
def Zero (f : List Nat) : Prop := ∀ x ∈ f, x = 0

/-- Products with 0. -/
theorem zero_times {f g : List Nat} (h : Zero g) : Zero (MlDsa65.times f g) := by
  intro x hx
  obtain ⟨p, hp, rfl⟩ := List.mem_map.mp hx
  have := h p.2 (List.of_mem_zip hp).2
  simp [this]

/-- Sums of 0. -/
theorem zero_plus {f g : List Nat} (hf : Zero f) (hg : Zero g) : Zero (MlDsa65.plus f g) := by
  intro x hx
  obtain ⟨p, hp, rfl⟩ := List.mem_map.mp hx
  simp [hf p.1 (List.of_mem_zip hp).1, hg p.2 (List.of_mem_zip hp).2]

/-- Differences of 0. -/
theorem zero_minus {f g : List Nat} (hf : Zero f) (hg : Zero g) : Zero (MlDsa65.minus f g) := by
  intro x hx
  obtain ⟨p, hp, rfl⟩ := List.mem_map.mp hx
  simp [hf p.1 (List.of_mem_zip hp).1, hg p.2 (List.of_mem_zip hp).2]

/-- A sum of multiples of 0. -/
theorem zero_fold (z : Nat × Nat → Nat) {l : List (Nat × Nat)} (h : ∀ p ∈ l, p.2 = 0) : l.foldl (fun n v => n + v.2 * z v) 0 = 0 := by
  suffices ∀ n, l.foldl (fun n v => n + v.2 * z v) n = n from this 0
  induction l with
  | nil => exact fun _ => rfl
  | cons p l ih =>
    intro n
    simp only [List.foldl_cons, h p (by simp), Nat.zero_mul, Nat.add_zero]
    exact ih (fun q hq => h q (by simp [hq])) n

/-- The transform of 0. -/
theorem zero_ntt {f : List Nat} (h : Zero f) : MlDsa65.ntt f = List.replicate 256 0 := by
  refine List.eq_replicate_iff.mpr ⟨by simp [MlDsa65.ntt], fun x hx => ?_⟩
  obtain ⟨i, -, rfl⟩ := List.mem_map.mp hx
  rw [zero_fold (fun c => MlDsa65.zetas.getD (MlDsa65.rootAt i * c.1 % 512) 0) fun p hp => h p.2 (List.of_mem_zip hp).2]
  rfl

/-- And back. -/
theorem zero_intt {f : List Nat} (h : Zero f) : MlDsa65.intt f = List.replicate 256 0 := by
  refine List.eq_replicate_iff.mpr ⟨by simp [MlDsa65.intt], fun x hx => ?_⟩
  obtain ⟨j, -, rfl⟩ := List.mem_map.mp hx
  rw [zero_fold (fun v => MlDsa65.zetas.getD ((512 - MlDsa65.rootAt v.1 * j % 512) % 512) 0) fun p hp => h p.2 (List.of_mem_zip hp).2]
  rfl

/-- What the digest of a message under the key of zeros is, and the challenge that the value 0 gives. -/
def digest (m : List Byte) : List Byte := (shake256 ((shake256 (zeros 1952) 1).take 64 ++ [0, 0] ++ m) 1).take 64
/-- The challenge. -/
def challenged (m : List Byte) : List Byte := (shake256 (digest m ++ (List.replicate 6 (zeros 128)).flatten) 1).take 48
/-- A signature that stands for z = 0 without hints: the encoding of 0 is 2^19 in 20 bits. -/
def zeroTail : List Byte := (List.replicate 640 ([0x00, 0x00, 0x08, 0x00, 0x80] : List Byte)).flatten ++ zeros 61

/-- A state has 25 lanes. -/
theorem absorb_length (a : List (BitVec 64)) (b : List Byte) : (absorb a b).length = 25 := by
  have round (a : List (BitVec 64)) (rc : BitVec 64) : (keccakRound a rc).length = 25 := by
    simp only [keccakRound, byLanes]
    split
    · rename_i x rest h
      have := congrArg List.length h
      simpa using this.symm
    · rename_i h
      have := congrArg List.length h
      simp at this
  have fold (l : List (BitVec 64)) (a : List (BitVec 64)) (h : a.length = 25) : (l.foldl keccakRound a).length = 25 := by
    induction l generalizing a with
    | nil => exact h
    | cons x l ih => exact ih _ (round _ _)
  unfold absorb keccak
  have hi : iota = iota.headD 0 :: iota.drop 1 := by decide +kernel
  rw [hi, List.foldl_cons]
  exact fold _ _ (round _ _)

/-- One block of SHAKE256. -/
theorem shake_length (m : List Byte) : (shake256 m 1).length = 136 := by
  have fold (l : List (List Byte)) (a : List (BitVec 64)) (h : a.length = 25) : (l.foldl absorb a).length = 25 := by
    induction l generalizing a with
    | nil => exact h
    | cons x l ih => exact ih _ (absorb_length _ _)
  have bytes (a : List (BitVec 64)) (h : a.length = 25) : (stateBytes a).length = 200 := by
    have : (fun w : BitVec 64 => (leBytes 8 w.toNat).length) = fun _ => 8 := by funext w; simp [leBytes]
    simp [stateBytes, List.length_flatMap, this, h]
  simp only [shake256, shake, squeeze, List.append_nil, List.length_take]
  rw [bytes _ (fold _ _ (by decide))]
  rfl

/-- Any message verifies under the key of zeros with that signature. -/
theorem ml_accepts (m : List Byte) : MlDsa65.verify m (zeros 1952) (challenged m ++ zeroTail) = true := by
  have hc : (challenged m).length = 48 := by simp [challenged, shake_length]
  have drop (n : Nat) : (challenged m ++ zeroTail).drop (48 + n) = zeroTail.drop n := by
    rw [← hc, List.drop_append, List.drop_eq_nil_of_le (by omega), Nat.add_sub_cancel_left, List.nil_append]
  have htake : (challenged m ++ zeroTail).take 48 = challenged m := by rw [← hc, List.take_left]
  have hlen : (challenged m ++ zeroTail).length = 3309 := by rw [List.length_append, hc]; decide +kernel
  have hraw : (List.range MlDsa65.cols).map (fun i => MlDsa65.unpack 20 256 (((challenged m ++ zeroTail).drop (48 + 640 * i)).take 640)) =
      List.replicate 5 (List.replicate 256 (2 ^ 19)) := by
    simp only [drop]
    decide +kernel
  have hy : ((challenged m ++ zeroTail).drop (48 + 640 * MlDsa65.cols)).map (·.toNat) = List.replicate 61 0 := by
    rw [drop]; decide +kernel
  have ht : (List.range MlDsa65.rows).map (fun i => (MlDsa65.unpack 10 256 (((zeros 1952).drop (32 + 320 * i)).take 320)).map fun x => x * 2 ^ 13 % MlDsa65.q) =
      List.replicate 6 (List.replicate 256 0) := by decide +kernel
  have hh : MlDsa65.hints ((List.replicate 61 0).take MlDsa65.omega) 0 ((List.replicate 61 0).drop MlDsa65.omega) = some (List.replicate 6 []) := by
    decide +kernel
  have hz : Zero (List.replicate 256 0) := fun x hx => (List.mem_replicate.mp hx).2
  have hsmall : ((List.replicate 5 (List.replicate 256 (2 ^ 19))).all fun f => f.all fun x => decide (MlDsa65.beta < x) && decide (x < 2 * MlDsa65.gamma1 - MlDsa65.beta)) = true := by
    decide +kernel
  have hm : (List.replicate 256 (2 ^ 19)).map (fun x => (MlDsa65.q + MlDsa65.gamma1 - x) % MlDsa65.q) = List.replicate 256 0 := by decide +kernel
  have hn : MlDsa65.ntt (List.replicate 256 0) = List.replicate 256 0 := zero_ntt hz
  have row (r : Nat) (ch : List Nat) : ((List.range 256).zip (MlDsa65.intt (MlDsa65.minus
      (((List.range MlDsa65.cols).zip (List.replicate 5 (List.replicate 256 0))).foldl (fun f s =>
        MlDsa65.plus f (MlDsa65.times (MlDsa65.element ((zeros 1952).take 32) r s.1) s.2)) (List.replicate 256 0))
      (MlDsa65.times ch (List.replicate 256 0))))).map (fun x => MlDsa65.useHint (([] : List Nat).contains x.1) x.2) =
      List.replicate 256 0 := by
    rw [zero_intt (zero_minus ?_ (zero_times hz))]
    · decide +kernel
    · have fold (l : List (Nat × List Nat)) (hl : ∀ s ∈ l, Zero s.2) (f : List Nat) (hf : Zero f) : Zero (l.foldl (fun f s =>
          MlDsa65.plus f (MlDsa65.times (MlDsa65.element ((zeros 1952).take 32) r s.1) s.2)) f) := by
        induction l generalizing f with
        | nil => exact hf
        | cons s l ih => exact ih (fun x hx => hl x (by simp [hx])) _ (zero_plus hf (zero_times (hl s (by simp))))
      refine fold _ (fun s hs => ?_) _ hz
      rw [(List.mem_replicate.mp (List.of_mem_zip hs).2).2]
      exact hz
  unfold MlDsa65.verify
  simp only [hraw, hy, ht, hh, htake, hlen, hsmall, List.map_replicate, hm, hn]
  have hw (ch : List Nat) : ((List.range MlDsa65.rows).zip ((List.replicate 6 (List.replicate 256 0)).zip (List.replicate 6 ([] : List Nat)))).map
      (fun r => ((List.range 256).zip (MlDsa65.intt (MlDsa65.minus
        (((List.range MlDsa65.cols).zip (List.replicate 5 (List.replicate 256 0))).foldl (fun f s =>
          MlDsa65.plus f (MlDsa65.times (MlDsa65.element ((zeros 1952).take 32) r.1 s.1) s.2)) (List.replicate 256 0))
        (MlDsa65.times ch (MlDsa65.ntt r.2.1))))).map (fun x => MlDsa65.useHint (r.2.2.contains x.1) x.2)) =
      List.replicate 6 (List.replicate 256 0) := by
    refine List.eq_replicate_iff.mpr ⟨by rw [List.length_map]; decide +kernel, fun x hx => ?_⟩
    obtain ⟨r, hr, rfl⟩ := List.mem_map.mp hx
    have h2 := List.of_mem_zip (List.of_mem_zip hr).2
    rw [(List.mem_replicate.mp h2.1).2, (List.mem_replicate.mp h2.2).2, hn, row]
  rw [hw]
  simp only [decide_true, Bool.true_and]
  have hp : (List.replicate 6 (List.replicate 256 0)).flatMap (fun f : List Nat => leBytes 128 (((List.range 256).zip f).foldl (fun n x => n + x.2 * 16 ^ x.1) 0)) =
      (List.replicate 6 (zeros 128)).flatten := by decide +kernel
  rw [hp]
  simp only [challenged, digest, decide_true]
  decide +kernel

/-- The first 96 bytes of a .sign section that names two keys of identifier 0. -/
def signHead : List Byte := leBytes 4 1 ++ zeros 12 ++ (1 :: zeros 63) ++ zeros 8 ++ leBytes 4 3309 ++ zeros 4

/-- Both signatures of an image file may be accepted (R56). -/
theorem signed_accepts (m : List Byte) (sign : SectHead) (hm : m.length = sign.offset) (hs : sign.size = 3408) :
    signed [(0, { edIdent := 0, edKey := 1 :: zeros 31, mlIdent := 0, mlKey := zeros 1952 })]
      (m ++ (signHead ++ ((challenged m ++ zeroTail) ++ zeros 3))) sign = true := by
  have hh : signHead.length = 96 := by decide +kernel
  have hl : (challenged m ++ zeroTail).length = 3309 := by
    rw [List.length_append, show (challenged m).length = 48 by simp [challenged, shake_length]]; decide +kernel
  have hx : ((m ++ (signHead ++ ((challenged m ++ zeroTail) ++ zeros 3))).drop sign.offset).take sign.size =
      signHead ++ ((challenged m ++ zeroTail) ++ zeros 3) := by
    rw [← hm, List.drop_left, hs, List.take_of_length_le]
    rw [List.length_append, List.length_append, hh, hl]; decide
  have early (a n : Nat) (h : a + n ≤ 96) (t : List Byte) : ((signHead ++ t).drop a).take n = (signHead.drop a).take n := by
    rw [List.drop_append_of_le_length (by omega), List.take_append_of_le_length (by rw [List.length_drop]; omega)]
  have field (a n : Nat) (h : a + n ≤ 96) (t : List Byte) : bytesAt (signHead ++ t) a n = bytesAt signHead a n := by
    simp only [bytesAt, early a n h]
  have late (n : Nat) (t : List Byte) : (signHead ++ t).drop (96 + n) = t.drop n := by rw [← hh, List.drop_append]; simp
  have h3 : bytesAt (signHead ++ ((challenged m ++ zeroTail) ++ zeros 3)) 3405 3 = 0 := by
    have : ((challenged m ++ zeroTail) ++ zeros 3).drop 3309 = zeros 3 := by rw [← hl, List.drop_left]
    simp only [bytesAt, late 3309, this]; decide
  have hml : ((signHead ++ ((challenged m ++ zeroTail) ++ zeros 3)).drop 96).take 3309 = challenged m ++ zeroTail := by
    rw [late 0, List.drop_zero, ← hl, List.take_left]
  have hed : (signHead.drop 16).take 64 = 1 :: zeros 63 := by decide +kernel
  have ht : (m ++ (signHead ++ ((challenged m ++ zeroTail) ++ zeros 3))).take sign.offset = m := by rw [← hm, List.take_left]
  unfold signed
  simp only [hx, List.any_cons, List.any_nil, Bool.or_false, Bool.and_eq_true, h3, hml, early 16 64 (by decide), hed,
    field 0 4 (by decide), field 4 4 (by decide), field 8 8 (by decide), field 80 8 (by decide), field 88 4 (by decide),
    field 92 4 (by decide), ht, ed_accepts, ml_accepts]
  decide +kernel

end Sys2Proof.Laws.Signature
end

