-- ==== Sys2Proof/Tests/Slice0.lean ====
section
/-! SUPPORT. Tests: words of the spec and the instructions they stand for, terms that WellFormed refuses,
single steps on small states, and for every obligation states and operands that meet its hypotheses. -/

namespace Sys2Proof.Tests

open Sys2Proof Sys2Proof.Machine Sys2Proof.Claims

set_option maxRecDepth 100000
set_option Elab.async false

/-! ## Decoding -/

/-- Each word decodes to the instruction beside it, which encodes to the word. -/
def decodeAll (ps : List (Word × Instr)) : Bool :=
  ps.all fun p => (match decodeWord p.1 with | .ok i => decide (i = p.2) | .error _ => false) && encodeCore p.2 == p.1

/-- The same for Sill words. -/
def decodeAllSill (ps : List (BitVec 32 × Instr)) : Bool :=
  ps.all fun p => (match decodeSill p.1 with | .ok i => decide (i = p.2) | .error _ => false) && encodeSill p.2 == p.1

/-- Words written out from R59, R68 and R79 to R85. -/
theorem test_decode_fr_1 : decodeAll
    [(0x0000_003C_0000_0000, .frNop ⟨.i8, 0, 0, .zero, .v 0, .v 0, .v 0, 0⟩),
     (0x0005_8021_6180_0000, .frMov ⟨.n32, 0, 0, .s 5, .s 6, .v 0, .v 0, 0⟩),
     (0x0108_8021_403F_FFFB, .frMovi ⟨.i32, 0, 0, .s 5, .v 0, 4194299⟩),
     (0x010D_C021_4000_004D, .frMovhi ⟨.n64, 0, 0, .s 5, .v 0, 77⟩),
     (0x0010_4028_792F_C000, .frAddT ⟨.i16, 0, 0, .s 33, .a 4, .s 63, .v 0, 0⟩),
     (0x0110_8021_61BF_FFFD, .frAddI ⟨.i32, 0, 0, .s 5, .s 6, 4194301⟩),
     (0x0014_4028_792F_C000, .frSubT ⟨.i16, 0, 0, .s 33, .a 4, .s 63, .v 0, 0⟩),
     (0x0114_8021_61BF_FFFD, .frSubI ⟨.i32, 0, 0, .s 5, .s 6, 4194301⟩),
     (0x0018_4028_792F_C000, .frMulT ⟨.i16, 0, 0, .s 33, .a 4, .s 63, .v 0, 0⟩),
     (0x0118_8021_61BF_FFFD, .frMulI ⟨.i32, 0, 0, .s 5, .s 6, 4194301⟩),
     (0x001C_4028_792F_C000, .frMulh ⟨.i16, 0, 0, .s 33, .a 4, .s 63, .v 0, 0⟩),
     (0x0020_5428_792F_C000, .frDiv ⟨.i16, 5, 0, .s 33, .a 4, .s 63, .v 0, 0⟩)] = true := by decide +kernel

/-- Words written out from R59, R68 and R79 to R85. -/
theorem test_decode_fr_2 : decodeAll
    [(0x0024_5428_792F_C000, .frRem ⟨.i16, 5, 0, .s 33, .a 4, .s 63, .v 0, 0⟩),
     (0x0028_4028_792F_C000, .frAndT ⟨.i16, 0, 0, .s 33, .a 4, .s 63, .v 0, 0⟩),
     (0x0128_8021_61BF_FFFD, .frAndI ⟨.i32, 0, 0, .s 5, .s 6, 4194301⟩),
     (0x002C_4028_792F_C000, .frOrT ⟨.i16, 0, 0, .s 33, .a 4, .s 63, .v 0, 0⟩),
     (0x012C_8021_61BF_FFFD, .frOrI ⟨.i32, 0, 0, .s 5, .s 6, 4194301⟩),
     (0x0030_4028_792F_C000, .frXorT ⟨.i16, 0, 0, .s 33, .a 4, .s 63, .v 0, 0⟩),
     (0x0130_8021_61BF_FFFD, .frXorI ⟨.i32, 0, 0, .s 5, .s 6, 4194301⟩),
     (0x0034_4028_792F_C000, .frShlT ⟨.i16, 0, 0, .s 33, .a 4, .s 63, .v 0, 0⟩),
     (0x0134_8021_6180_0007, .frShlI ⟨.i32, 0, 0, .s 5, .s 6, 7⟩),
     (0x0038_4028_792F_C000, .frShrT ⟨.i16, 0, 0, .s 33, .a 4, .s 63, .v 0, 0⟩),
     (0x0138_8021_6180_0007, .frShrI ⟨.i32, 0, 0, .s 5, .s 6, 7⟩),
     (0x003C_4028_792F_C000, .frSraT ⟨.i16, 0, 0, .s 33, .a 4, .s 63, .v 0, 0⟩)] = true := by decide +kernel

/-- Words written out from R59, R68 and R79 to R85. -/
theorem test_decode_fr_3 : decodeAll
    [(0x013C_8021_6180_0007, .frSraI ⟨.i32, 0, 0, .s 5, .s 6, 7⟩),
     (0x0040_4028_792F_C000, .frMinT ⟨.i16, 0, 0, .s 33, .a 4, .s 63, .v 0, 0⟩),
     (0x0140_8021_61BF_FFFD, .frMinI ⟨.i32, 0, 0, .s 5, .s 6, 4194301⟩),
     (0x0044_4028_792F_C000, .frMaxT ⟨.i16, 0, 0, .s 33, .a 4, .s 63, .v 0, 0⟩),
     (0x0144_8021_61BF_FFFD, .frMaxI ⟨.i32, 0, 0, .s 5, .s 6, 4194301⟩),
     (0x0049_0020_74A0_C005, .frCmp ⟨.n8, 0, 0, .s 1, .q 2, .s 3, .v 0, 5⟩),
     (0x004C_C020_60A0_E100, .frSel ⟨.i64, 0, 0, .s 1, .s 2, .s 3, .s 4, 0⟩),
     (0x0051_C03B_EF80_0000, .frClz ⟨.n64, 0, 0, .a 15, .s 62, .v 0, .v 0, 0⟩),
     (0x0055_C03B_EF80_0000, .frPopc ⟨.n64, 0, 0, .a 15, .s 62, .v 0, .v 0, 0⟩),
     (0x0159_9421_61BF_FFF8, .frLd ⟨.n32, 5, 0, .s 5, .s 6, 4194296⟩),
     (0x015D_8021_6180_0010, .frSt ⟨.n32, 0, 0, .s 5, .s 6, 16⟩),
     (0x0160_0021_4000_0022, .frCsrr ⟨.i8, 0, 0, .s 5, .v 0, 34⟩)] = true := by decide +kernel

/-- Words written out from R59, R68 and R79 to R85. -/
theorem test_decode_fr_4 : decodeAll
    [(0x0164_0021_4000_0022, .frCsrw ⟨.i8, 0, 0, .s 5, .v 0, 34⟩)] = true := by decide +kernel

/-- Words written out from R59, R68 and R86 to R93. -/
theorem test_decode_ctl : decodeAll
    [(0x2000_0031_7FFF_FFFC, .ctlBr ⟨.i8, 0, 0, .k 5, 1073741820⟩),
     (0x2004_0000_0000_0064, .ctlJmp ⟨.i8, 0, 0, .v 0, 100⟩),
     (0x2008_0027_DFFF_FFFF, .ctlCall ⟨.i8, 0, 0, .s 31, 536870911⟩),
     (0x2100_0000_2240_0000, .ctlRet ⟨.i8, 0, 0, .v 0, .s 9, .v 0, .v 0, 0⟩),
     (0x200C_00C0_0000_0004, .ctlBrv ⟨.i8, 0, 3, .v 0, 4⟩),
     (0x2104_0000_0000_0000, .ctlJoin ⟨.i8, 0, 0, .v 0, .v 0, .v 0, .v 0, 0⟩),
     (0x2108_0022_4280_0000, .ctlCallv ⟨.i8, 0, 0, .s 9, .v 10, .v 0, .v 0, 0⟩),
     (0x210C_0000_2240_0000, .ctlRetq ⟨.i8, 0, 0, .v 0, .s 9, .v 0, .v 0, 0⟩),
     (0x2110_00C0_0000_0000, .ctlExit ⟨.i8, 0, 3, .v 0, .v 0, .v 0, .v 0, 0⟩)] = true := by decide +kernel

/-- Words written out from R59, R68 and R94, R95. -/
theorem test_decode_km_1 : decodeAll
    [(0x3000_0032_6464_8000, .kmSetT ⟨.i8, 0, 0, .k 9, .s 17, .s 18, .v 0, 0⟩),
     (0x3100_0030_8000_F014, .kmSetI ⟨.i8, 0, 0, .k 2, .v 0, 61460⟩),
     (0x3004_0030_70B3_C000, .kmAnd ⟨.i8, 0, 0, .k 1, .k 2, .k 15, .v 0, 0⟩),
     (0x3008_0030_70B3_C000, .kmOr ⟨.i8, 0, 0, .k 1, .k 2, .k 15, .v 0, 0⟩),
     (0x300C_0030_70B3_C000, .kmAndn ⟨.i8, 0, 0, .k 1, .k 2, .k 15, .v 0, 0⟩),
     (0x3010_0030_70B3_C000, .kmXor ⟨.i8, 0, 0, .k 1, .k 2, .k 15, .v 0, 0⟩),
     (0x3014_0030_F100_0000, .kmNot ⟨.i8, 0, 0, .k 3, .k 4, .v 0, .v 0, 0⟩),
     (0x3018_0022_7140_0001, .kmPop ⟨.i8, 0, 0, .s 9, .k 5, .v 0, .v 0, 1⟩),
     (0x301C_0022_7140_0001, .kmFirst ⟨.i8, 0, 0, .s 9, .k 5, .v 0, .v 0, 1⟩),
     (0x3020_0031_A1E2_0000, .kmInsT ⟨.i8, 0, 0, .k 6, .s 7, .s 8, .v 0, 0⟩),
     (0x3120_0030_A0C0_001F, .kmInsI ⟨.i8, 0, 0, .k 2, .s 3, 31⟩),
     (0x3024_0022_31E1_8000, .kmExtT ⟨.i8, 0, 0, .s 8, .k 7, .s 6, .v 0, 0⟩)] = true := by decide +kernel

/-- Words written out from R59, R68 and R94, R95. -/
theorem test_decode_km_2 : decodeAll
    [(0x3124_0020_F080_0020, .kmExtI ⟨.i8, 0, 0, .s 3, .k 2, 32⟩),
     (0x3028_0032_3240_0001, .kmExm ⟨.i8, 0, 0, .k 8, .k 9, .v 0, .v 0, 1⟩)] = true := by decide +kernel

/-- Words written out from R59, R68 and R100 to R107. -/
theorem test_decode_ln_1 : decodeAll
    [(0x4001_80C2_7C40_0000, .lnMov ⟨.n32, 0, 3, .v 9, .lane, .v 0, .v 0, 0⟩),
     (0x4104_80C1_403F_FFFF, .lnMovi ⟨.i32, 0, 3, .v 5, .v 0, 4194303⟩),
     (0x4008_80C0_D001_4000, .lnMovs ⟨.i32, 0, 3, .v 3, .v 64, .v 5, .v 0, 0⟩),
     (0x400C_80C0_40A0_C001, .lnAddT ⟨.i32, 0, 3, .v 1, .v 2, .s 3, .v 0, 1⟩),
     (0x410C_80C1_41BF_FFFD, .lnAddI ⟨.i32, 0, 3, .v 5, .v 6, 4194301⟩),
     (0x4010_80C0_40A0_C001, .lnSubT ⟨.i32, 0, 3, .v 1, .v 2, .s 3, .v 0, 1⟩),
     (0x4110_80C1_41BF_FFFD, .lnSubI ⟨.i32, 0, 3, .v 5, .v 6, 4194301⟩),
     (0x4015_80C0_4080_F105, .lnAddc ⟨.n32, 0, 3, .v 1, .v 2, .v 3, .k 4, 5⟩),
     (0x4019_80C0_4080_F105, .lnSubb ⟨.n32, 0, 3, .v 1, .v 2, .v 3, .k 4, 5⟩),
     (0x401C_C0C0_8101_8003, .lnMulT ⟨.i64, 0, 3, .v 2, .v 4, .v 6, .v 0, 3⟩),
     (0x411C_80C1_41BF_FFFD, .lnMulI ⟨.i32, 0, 3, .v 5, .v 6, 4194301⟩),
     (0x4021_40C2_C303_4000, .lnMulh ⟨.n16, 0, 3, .v 11, .v 12, .v 13, .v 0, 0⟩)] = true := by decide +kernel

/-- Words written out from R59, R68 and R100 to R107. -/
theorem test_decode_ln_2 : decodeAll
    [(0x4024_00C0_4080_E101, .lnMad ⟨.i8, 0, 3, .v 1, .v 2, .v 3, .s 4, 1⟩),
     (0x4029_40C2_C303_4000, .lnAndT ⟨.n16, 0, 3, .v 11, .v 12, .v 13, .v 0, 0⟩),
     (0x4128_80C1_41BF_FFFD, .lnAndI ⟨.i32, 0, 3, .v 5, .v 6, 4194301⟩),
     (0x402D_40C2_C303_4000, .lnOrT ⟨.n16, 0, 3, .v 11, .v 12, .v 13, .v 0, 0⟩),
     (0x412C_80C1_41BF_FFFD, .lnOrI ⟨.i32, 0, 3, .v 5, .v 6, 4194301⟩),
     (0x4031_40C2_C303_4000, .lnXorT ⟨.n16, 0, 3, .v 11, .v 12, .v 13, .v 0, 0⟩),
     (0x4130_80C1_41BF_FFFD, .lnXorI ⟨.i32, 0, 3, .v 5, .v 6, 4194301⟩),
     (0x4035_C0C5_0580_0000, .lnNot ⟨.n64, 0, 3, .v 20, .v 22, .v 0, .v 0, 0⟩),
     (0x4039_40C2_C303_4000, .lnShlT ⟨.n16, 0, 3, .v 11, .v 12, .v 13, .v 0, 0⟩),
     (0x4138_80C1_4180_0007, .lnShlI ⟨.i32, 0, 3, .v 5, .v 6, 7⟩),
     (0x403D_40C2_C303_4000, .lnShrT ⟨.n16, 0, 3, .v 11, .v 12, .v 13, .v 0, 0⟩),
     (0x413C_80C1_4180_0007, .lnShrI ⟨.i32, 0, 3, .v 5, .v 6, 7⟩)] = true := by decide +kernel

/-- Words written out from R59, R68 and R100 to R107. -/
theorem test_decode_ln_3 : decodeAll
    [(0x4041_40C2_C303_4000, .lnSraT ⟨.n16, 0, 3, .v 11, .v 12, .v 13, .v 0, 0⟩),
     (0x4140_80C1_4180_0007, .lnSraI ⟨.i32, 0, 3, .v 5, .v 6, 7⟩),
     (0x4045_40C2_C303_4000, .lnRotT ⟨.n16, 0, 3, .v 11, .v 12, .v 13, .v 0, 0⟩),
     (0x4144_80C1_4180_0007, .lnRotI ⟨.i32, 0, 3, .v 5, .v 6, 7⟩),
     (0x4049_40C2_C303_4000, .lnMinT ⟨.n16, 0, 3, .v 11, .v 12, .v 13, .v 0, 0⟩),
     (0x4148_80C1_41BF_FFFD, .lnMinI ⟨.i32, 0, 3, .v 5, .v 6, 4194301⟩),
     (0x404D_40C2_C303_4000, .lnMaxT ⟨.n16, 0, 3, .v 11, .v 12, .v 13, .v 0, 0⟩),
     (0x414C_80C1_41BF_FFFD, .lnMaxI ⟨.i32, 0, 3, .v 5, .v 6, 4194301⟩),
     (0x4050_40C1_4180_0001, .lnAbs ⟨.i16, 0, 3, .v 5, .v 6, .v 0, .v 0, 1⟩),
     (0x4054_40C1_4180_0001, .lnNeg ⟨.i16, 0, 3, .v 5, .v 6, .v 0, .v 0, 1⟩),
     (0x4059_80F0_C121_400D, .lnCmp ⟨.n32, 0, 3, .k 3, .v 4, .s 5, .v 0, 13⟩),
     (0x405D_80C1_0141_B1C0, .lnSel ⟨.n32, 0, 3, .v 4, .v 5, .v 6, .k 7, 0⟩)] = true := by decide +kernel

/-- Words written out from R59, R68 and R100 to R107. -/
theorem test_decode_ln_4 : decodeAll
    [(0x4061_C0C5_0580_0000, .lnClz ⟨.n64, 0, 3, .v 20, .v 22, .v 0, .v 0, 0⟩),
     (0x4065_C0C5_0580_0000, .lnPopc ⟨.n64, 0, 3, .v 20, .v 22, .v 0, .v 0, 0⟩),
     (0x4068_80C0_40A0_C101, .lnBfx ⟨.i32, 0, 3, .v 1, .v 2, .s 3, .v 4, 1⟩),
     (0x406D_80C0_4080_C100, .lnBfi ⟨.n32, 0, 3, .v 1, .v 2, .v 3, .v 4, 0⟩),
     (0x4071_80C0_4080_C100, .lnPerm ⟨.n32, 0, 3, .v 1, .v 2, .v 3, .v 4, 0⟩),
     (0x4075_00C0_4080_0003, .lnCvt ⟨.n8, 0, 3, .v 1, .v 2, .v 0, .v 0, 3⟩),
     (0x4079_00C0_4080_0003, .lnSat ⟨.n8, 0, 3, .v 1, .v 2, .v 0, .v 0, 3⟩)] = true := by decide +kernel

/-- Words written out from R59, R68 and R109 to R114. -/
theorem test_decode_xl : decodeAll
    [(0x6001_80C0_40A0_C002, .xlShflT ⟨.n32, 0, 3, .v 1, .v 2, .s 3, .v 0, 2⟩),
     (0x6100_80C1_4180_0007, .xlShflI ⟨.i32, 0, 3, .v 5, .v 6, 7⟩),
     (0x6006_80C0_40A0_C000, .xlShfxT ⟨.f32, 0, 3, .v 1, .v 2, .s 3, .v 0, 0⟩),
     (0x6104_80C1_4180_0007, .xlShfxI ⟨.i32, 0, 3, .v 5, .v 6, 7⟩),
     (0x600A_80C0_40A0_C000, .xlBcastT ⟨.f32, 0, 3, .v 1, .v 2, .s 3, .v 0, 0⟩),
     (0x6108_80C1_4180_0007, .xlBcastI ⟨.i32, 0, 3, .v 5, .v 6, 7⟩),
     (0x600C_94E0_40BC_0004, .xlRed ⟨.i32, 5, 3, .s 1, .v 2, .zero, .v 0, 4⟩),
     (0x6011_94E5_0621_4001, .xlRedi ⟨.n32, 5, 3, .s 20, .v 24, .s 5, .v 0, 1⟩),
     (0x6014_94C0_40A0_C009, .xlScan ⟨.i32, 5, 3, .v 1, .v 2, .s 3, .v 0, 9⟩),
     (0x6018_00F0_C100_0000, .xlBallot ⟨.i8, 0, 3, .k 3, .v 4, .v 0, .v 0, 0⟩)] = true := by decide +kernel

/-- Words written out from R59, R68 and R143 to R152. -/
theorem test_decode_fp_1 : decodeAll
    [(0x6802_80C0_40A0_C000, .fpAdd ⟨.f32, 0, 3, .v 1, .v 2, .s 3, .v 0, 0⟩),
     (0x6806_80C0_40A0_C000, .fpSub ⟨.f32, 0, 3, .v 1, .v 2, .s 3, .v 0, 0⟩),
     (0x680A_80C0_40A0_C000, .fpMul ⟨.f32, 0, 3, .v 1, .v 2, .s 3, .v 0, 0⟩),
     (0x680E_00C0_4080_C100, .fpFma ⟨.f16, 0, 3, .v 1, .v 2, .v 3, .v 4, 0⟩),
     (0x6812_40C0_4080_C001, .fpMin ⟨.bf16, 0, 3, .v 1, .v 2, .v 3, .v 0, 1⟩),
     (0x6816_40C0_4080_C001, .fpMax ⟨.bf16, 0, 3, .v 1, .v 2, .v 3, .v 0, 1⟩),
     (0x681A_80C1_C200_0000, .fpAbs ⟨.f32, 0, 3, .v 7, .v 8, .v 0, .v 0, 0⟩),
     (0x681E_80C1_C200_0000, .fpNeg ⟨.f32, 0, 3, .v 7, .v 8, .v 0, .v 0, 0⟩),
     (0x6822_80F0_80C1_000A, .fpCmp ⟨.f32, 0, 3, .k 2, .v 3, .v 4, .v 0, 10⟩),
     (0x6826_80C1_C200_0000, .fpCls ⟨.f32, 0, 3, .v 7, .v 8, .v 0, .v 0, 0⟩),
     (0x682A_D4C0_8101_8000, .fpDiv ⟨.f64, 5, 3, .v 2, .v 4, .v 6, .v 0, 0⟩),
     (0x682E_94C1_E200_0000, .fpSqrt ⟨.f32, 5, 3, .v 7, .s 8, .v 0, .v 0, 0⟩)] = true := by decide +kernel

/-- Words written out from R59, R68 and R143 to R152. -/
theorem test_decode_fp_2 : decodeAll
    [(0x6832_94C1_E200_0000, .fpRcp ⟨.f32, 5, 3, .v 7, .s 8, .v 0, .v 0, 0⟩),
     (0x6836_94C1_E200_0000, .fpRsq ⟨.f32, 5, 3, .v 7, .s 8, .v 0, .v 0, 0⟩),
     (0x683A_94C1_E200_0000, .fpExp2 ⟨.f32, 5, 3, .v 7, .s 8, .v 0, .v 0, 0⟩),
     (0x683E_94C1_E200_0000, .fpLog2 ⟨.f32, 5, 3, .v 7, .s 8, .v 0, .v 0, 0⟩),
     (0x6842_C0C1_0180_0009, .fpRnd ⟨.f64, 0, 3, .v 4, .v 6, .v 0, .v 0, 9⟩),
     (0x6847_00C0_4080_001A, .fpCvt ⟨.e4m3, 0, 3, .v 1, .v 2, .v 0, .v 0, 26⟩),
     (0x6848_80C0_4080_0006, .fpFti ⟨.i32, 0, 3, .v 1, .v 2, .v 0, .v 0, 6⟩),
     (0x684E_80C0_6080_0006, .fpItf ⟨.f32, 0, 3, .v 1, .s 2, .v 0, .v 0, 6⟩),
     (0x6852_80C0_4080_C000, .fpLdexp ⟨.f32, 0, 3, .v 1, .v 2, .v 3, .v 0, 0⟩),
     (0x6856_80C0_4080_0001, .fpFrexp ⟨.f32, 0, 3, .v 1, .v 2, .v 0, .v 0, 1⟩)] = true := by decide +kernel

/-- Words written out from R59, R68 and R153 to R155. -/
theorem test_decode_dc : decodeAll
    [(0x8003_D4C2_8081_0000, .dcAdd ⟨.d64, 5, 3, .v 10, .v 2, .v 4, .v 0, 0⟩),
     (0x8007_D4C2_8081_0000, .dcSub ⟨.d64, 5, 3, .v 10, .v 2, .v 4, .v 0, 0⟩),
     (0x800B_D4C2_8081_0000, .dcMul ⟨.d64, 5, 3, .v 10, .v 2, .v 4, .v 0, 0⟩),
     (0x800F_D4C2_8081_0180, .dcFma ⟨.d64, 5, 3, .v 10, .v 2, .v 4, .v 6, 0⟩),
     (0x8013_D4C2_8081_0000, .dcDiv ⟨.d64, 5, 3, .v 10, .v 2, .v 4, .v 0, 0⟩),
     (0x8017_C0F0_4081_0004, .dcCmp ⟨.d64, 0, 3, .k 1, .v 2, .v 4, .v 0, 4⟩),
     (0x801B_D4C2_8081_0000, .dcQuant ⟨.d64, 5, 3, .v 10, .v 2, .v 4, .v 0, 0⟩),
     (0x801F_D4C0_8100_000B, .dcCvt ⟨.d64, 5, 3, .v 2, .v 4, .v 0, .v 0, 11⟩),
     (0x8023_D4C0_8100_0008, .dcRnd ⟨.d64, 5, 3, .v 2, .v 4, .v 0, .v 0, 8⟩)] = true := by decide +kernel

/-- Words written out from R59, R68 and R157 to R161. -/
theorem test_decode_sc : decodeAll
    [(0x9003_80CF_0100_0000, .scScale ⟨.e2m1, 0, 3, .v 60, .v 4, .v 0, .v 0, 0⟩),
     (0x9007_14CF_0100_0001, .scQuant ⟨.e4m3, 5, 3, .v 60, .v 4, .v 0, .v 0, 1⟩),
     (0x900B_80C1_0F11_8002, .scDeq ⟨.e2m1, 0, 3, .v 4, .v 60, .v 70, .v 0, 2⟩),
     (0x900F_40CF_0100_0000, .scPack ⟨.e5m2, 0, 3, .v 60, .v 4, .v 0, .v 0, 0⟩),
     (0x9013_80C1_0F00_0000, .scUnpack ⟨.e2m1, 0, 3, .v 4, .v 60, .v 0, .v 0, 0⟩),
     (0x9017_80CF_0100_0000, .scSpec ⟨.e2m1, 0, 3, .v 60, .v 4, .v 0, .v 0, 0⟩)] = true := by decide +kernel

/-- Words written out from R59, R68 and R174 to R180. -/
theorem test_decode_mx : decodeAll
    [(0x9800_0000_0000_0000, .mxTake ⟨.i8, 0, 0, .v 0, .v 0, .v 0, .v 0, 0⟩),
     (0x9804_0000_0000_0000, .mxGive ⟨.i8, 0, 0, .v 0, .v 0, .v 0, .v 0, 0⟩),
     (0x980A_14C2_0000_0000, .mxMma ⟨.f16, 5, 3, .v 8, .v 0, .v 0, .v 0, 0⟩),
     (0x980F_94C2_0500_0002, .mxMmas ⟨.e2m1, 5, 3, .v 8, .v 20, .v 0, .v 0, 2⟩),
     (0x9812_14C2_0000_0001, .mxDist ⟨.f16, 5, 3, .v 8, .v 0, .v 0, .v 0, 1⟩),
     (0x9816_94C0_0000_0037, .mxTopk ⟨.f32, 5, 3, .v 0, .v 0, .v 0, .v 0, 55⟩),
     (0x981B_9420_60B8_C000, .mxWload ⟨.e2m1, 5, 0, .s 1, .s 2, .a 3, .v 0, 0⟩),
     (0x981E_94C2_20C0_0003, .mxAload ⟨.f32, 5, 3, .v 8, .s 3, .v 0, .v 0, 3⟩),
     (0x9822_94C2_20C0_0003, .mxAstore ⟨.f32, 5, 3, .v 8, .s 3, .v 0, .v 0, 3⟩),
     (0x9824_0000_0000_0000, .mxAzero ⟨.i8, 0, 0, .v 0, .v 0, .v 0, .v 0, 0⟩),
     (0x9828_0020_6080_0000, .mxCfg ⟨.i8, 0, 0, .s 1, .s 2, .v 0, .v 0, 0⟩)] = true := by decide +kernel

/-- Words written out from R59, R68 and R188 to R198, R213, R224. -/
theorem test_decode_mem : decodeAll
    [(0xA002_80C0_0E38_402F, .memLdi ⟨.f32, 0, 3, .v 0, .v 56, .a 1, .v 0, 47⟩),
     (0xA004_0000_38C0_11C0, .memAwait ⟨.i8, 0, 0, .v 0, .a 3, .v 0, .v 71, 0⟩),
     (0xA009_80C5_0580_0001, .memSt ⟨.n32, 0, 3, .v 20, .v 22, .v 0, .v 0, 1⟩),
     (0xA00D_94C5_0080_0001, .memLds ⟨.n32, 5, 3, .v 20, .v 2, .v 0, .v 0, 1⟩),
     (0xA011_00E5_2080_0000, .memSts ⟨.n8, 0, 3, .s 20, .s 2, .v 0, .v 0, 0⟩),
     (0xA014_00F0_C080_0000, .memFe ⟨.i8, 0, 3, .k 3, .v 2, .v 0, .v 0, 0⟩),
     (0xA018_94C0_4081_3C08, .memAtom ⟨.i32, 5, 3, .v 1, .v 2, .v 4, .zero, 8⟩),
     (0xA01C_0000_0000_0009, .memFence ⟨.i8, 0, 0, .v 0, .v 0, .v 0, .v 0, 9⟩),
     (0xA020_0000_014E_8002, .memXfence ⟨.i8, 0, 0, .v 0, .v 5, .v 58, .v 0, 2⟩),
     (0xA024_0020_6080_0000, .memPublish ⟨.i8, 0, 0, .s 1, .s 2, .v 0, .v 0, 0⟩),
     (0xA028_00C0_4081_2187, .memOpx ⟨.i8, 0, 3, .v 1, .v 2, .v 4, .s 6, 7⟩),
     (0xA02C_0000_2240_0003, .memOptab ⟨.i8, 0, 0, .v 0, .s 9, .v 0, .v 0, 3⟩)] = true := by decide +kernel

/-- Words written out from R59, R68 and R200 to R204. -/
theorem test_decode_cp : decodeAll
    [(0xB000_00E1_2161_A1C0, .cpColl ⟨.i8, 0, 3, .s 4, .s 5, .s 6, .s 7, 0⟩),
     (0xB004_00E1_2161_A1C3, .cpGath ⟨.i8, 0, 3, .s 4, .s 5, .s 6, .s 7, 3⟩),
     (0xB008_00E1_2161_8001, .cpPut ⟨.i8, 0, 3, .s 4, .s 5, .s 6, .v 0, 1⟩),
     (0xB10C_0023_0000_0006, .cpYield ⟨.i8, 0, 0, .s 12, 6⟩),
     (0xB010_0000_2100_0000, .cpWait ⟨.i8, 0, 0, .v 0, .s 4, .v 0, .v 0, 0⟩)] = true := by decide +kernel

/-- Words written out from R59, R68 and R205 to R208. -/
theorem test_decode_q : decodeAll
    [(0xB800_0034_E100_0000, .qBind ⟨.i8, 0, 0, .q 3, .s 4, .v 0, .v 0, 0⟩),
     (0xB804_00F4_C180_0001, .qPut ⟨.i8, 0, 3, .q 3, .v 6, .v 0, .v 0, 1⟩),
     (0xB808_00C1_B4C0_0001, .qTake ⟨.i8, 0, 3, .v 6, .q 3, .v 0, .v 0, 1⟩),
     (0xB80C_0021_74E1_C001, .qTry ⟨.i8, 0, 0, .s 5, .q 3, .s 7, .v 0, 1⟩),
     (0xB810_0021_74C0_0000, .qLen ⟨.i8, 0, 0, .s 5, .q 3, .v 0, .v 0, 0⟩)] = true := by decide +kernel

/-- Words written out from R59, R68 and R263. -/
theorem test_decode_lt : decodeAll
    [(0xC000_0021_4000_0000, .ltNow ⟨.i8, 0, 0, .s 5, .v 0, .v 0, .v 0, 0⟩),
     (0xC004_0021_4000_0000, .ltAdv ⟨.i8, 0, 0, .s 5, .v 0, .v 0, .v 0, 0⟩),
     (0xC008_0000_0000_0000, .ltEnter ⟨.i8, 0, 0, .v 0, .v 0, .v 0, .v 0, 0⟩),
     (0xC00C_0000_0000_0000, .ltLeave ⟨.i8, 0, 0, .v 0, .v 0, .v 0, .v 0, 0⟩),
     (0xC010_0021_6180_0003, .ltHold ⟨.i8, 0, 0, .s 5, .s 6, .v 0, .v 0, 3⟩),
     (0xC014_0021_6180_0003, .ltDrop ⟨.i8, 0, 0, .s 5, .s 6, .v 0, .v 0, 3⟩),
     (0xC018_0021_6180_0003, .ltWait ⟨.i8, 0, 0, .s 5, .s 6, .v 0, .v 0, 3⟩),
     (0xC01C_0021_2161_8001, .ltTest ⟨.i8, 0, 0, .s 4, .s 5, .s 6, .v 0, 1⟩)] = true := by decide +kernel

/-- Words written out from R59, R68 and R268. -/
theorem test_decode_tk : decodeAll
    [(0xC800_0022_2263_3C00, .tkPush ⟨.i8, 0, 0, .s 8, .s 9, .s 12, .zero, 0⟩),
     (0xC804_0021_2140_0001, .tkArgs ⟨.i8, 0, 0, .s 4, .s 5, .v 0, .v 0, 1⟩),
     (0xC808_0021_2140_0003, .tkEq ⟨.i8, 0, 0, .s 4, .s 5, .v 0, .v 0, 3⟩),
     (0xC80C_0021_2262_8001, .tkDq ⟨.i8, 0, 0, .s 4, .s 9, .s 10, .v 0, 1⟩),
     (0xC810_0021_2140_0000, .tkRing ⟨.i8, 0, 0, .s 4, .s 5, .v 0, .v 0, 0⟩)] = true := by decide +kernel

/-- Words written out from R59, R68 and R298 to R303. -/
theorem test_decode_rg : decodeAll
    [(0xD000_0021_2200_0000, .rgOpen ⟨.i8, 0, 0, .s 4, .s 8, .v 0, .v 0, 0⟩),
     (0xD004_0021_2200_0001, .rgClose ⟨.i8, 0, 0, .s 4, .s 8, .v 0, .v 0, 1⟩),
     (0xD008_0021_2180_0000, .rgScore ⟨.i8, 0, 0, .s 4, .s 6, .v 0, .v 0, 0⟩),
     (0xD00C_0021_2180_0002, .rgGrow ⟨.i8, 0, 0, .s 4, .s 6, .v 0, .v 0, 2⟩),
     (0xD010_0021_2180_0003, .rgInfo ⟨.i8, 0, 0, .s 4, .s 6, .v 0, .v 0, 3⟩),
     (0xD014_0021_C000_0001, .rgAllow ⟨.i8, 0, 0, .s 7, .v 0, .v 0, .v 0, 1⟩)] = true := by decide +kernel

/-- Words written out from R59, R68 and R325, R326. -/
theorem test_decode_nm : decodeAll
    [(0xD800_0023_20E3_6380, .nmLaunch ⟨.i8, 0, 0, .s 12, .s 3, .s 13, .s 14, 0⟩),
     (0xD804_0020_6080_0010, .nmRatio ⟨.i8, 0, 0, .s 1, .s 2, .v 0, .v 0, 16⟩)] = true := by decide +kernel

/-- Words written out from R59, R68 and R368 to R373. -/
theorem test_decode_sys : decodeAll
    [(0xDC00_0000_2100_0005, .sysTrap ⟨.i8, 0, 0, .v 0, .s 4, .v 0, .v 0, 5⟩),
     (0xDC04_0000_0000_0001, .sysEret ⟨.i8, 0, 0, .v 0, .v 0, .v 0, .v 0, 1⟩),
     (0xDC08_0022_0000_0000, .sysFrec ⟨.i8, 0, 0, .s 8, .v 0, .v 0, .v 0, 0⟩),
     (0xDC0C_0021_6180_0002, .sysFlog ⟨.i8, 0, 0, .s 5, .s 6, .v 0, .v 0, 2⟩),
     (0xDC10_0000_0000_0000, .sysYield ⟨.i8, 0, 0, .v 0, .v 0, .v 0, .v 0, 0⟩),
     (0xDC14_0000_0000_0007, .sysDbg ⟨.i8, 0, 0, .v 0, .v 0, .v 0, .v 0, 7⟩)] = true := by decide +kernel

/-- Sill words written out from R313 and R314. -/
theorem test_decode_sl_1 : decodeAllSill
    [(0x0000_0000, .slNop),
     (0x0800_0000, .slHalt),
     (0x1000_0000, .slAbm),
     (0x1800_0000, .slSbm),
     (0xC800_0000, .slFence),
     (0x2600_0081, .slAct ⟨3, 0, 0, 0, 0, 0, 129⟩),
     (0x2A02_C0FF, .slRd ⟨1, 0, 0, 0, 22, 0, 255⟩),
     (0x3400_8001, .slWr ⟨2, 0, 0, 0, 4, 0, 1⟩),
     (0x38CA_9000, .slBx ⟨3, 5, 9, 0, 0, 0⟩),
     (0x4364_1020, .slMac ⟨1, 2, 1, 9, 0, 1, 32⟩),
     (0x486E_E006, .slBred ⟨0, 0, 1, 11, 23, 0, 6⟩),
     (0x5044_3020, .slAdd ⟨1, 2, 3, 0, 1, 0⟩),
     (0x5DED_5000, .slSub ⟨23, 22, 21, 0, 0, 0⟩),
     (0x610A_6020, .slMul ⟨4, 5, 6, 0, 1, 0⟩)] = true := by decide +kernel

/-- Sill words written out from R313 and R314. -/
theorem test_decode_sl_2 : decodeAllSill
    [(0x69D0_9520, .slFma ⟨7, 8, 9, 10, 1, 0⟩),
     (0x7044_3001, .slMin ⟨1, 2, 3, 0, 0, 1⟩),
     (0x78C4_1020, .slMax ⟨3, 2, 1, 0, 1, 0⟩),
     (0x8044_3025, .slCmp ⟨1, 2, 3, 0, 1, 5⟩),
     (0x8844_3220, .slSel ⟨1, 2, 3, 4, 1, 0⟩),
     (0x918E_0021, .slCvt ⟨6, 7, 0, 0, 1, 1⟩),
     (0xA4E4_0000, .slMov ⟨19, 18, 0, 0, 0, 0⟩),
     (0x9C50_BEEF, .slMovi ⟨17, 1, 0xBEEF⟩),
     (0xADBF_FFF0, .slAg ⟨2, 3, 0, 0x3FFFF0⟩),
     (0xB463_03E8, .slLoop ⟨1, 99, 1000⟩),
     (0xBAE0_3000, .slSendBa ⟨1, 7, 0, 0, 12⟩),
     (0xBC15_8000, .slSendW ⟨0, 0, 21, 2, 0⟩),
     (0xC014_C000, .slRecv ⟨0, 0, 20, 3, 0⟩)] = true := by decide +kernel
/-- An OP that is not assigned, an FN that is not assigned (R69 tests 1 and 2), and bytes that are no word. -/
theorem test_rejects : (decodeWord 0xE400_0000_0000_0000).isOk = false ∧ (decodeWord 0x0068_0000_0000_0000).isOk = false ∧
    (decodeWord 0x0008_0000_0000_0000).isOk = false ∧ (decodeSill 0xD000_0000).isOk = false ∧
    (decodeBytes [1, 2, 3]).isOk = false := by decide +kernel

/-- A class outside its clause, a transfer before the last position (R69 tests 3 and 4), and the same words in
their places. -/
theorem test_places : checkWord 1 true 128 64 0x0000_003C_0000_0000 = some 3 ∧
    checkWord 0 false 128 64 0x2000_0022_3FFF_FFFC = some 4 ∧ checkWord 0 true 128 64 0x2000_0022_3FFF_FFFC = none ∧
    checkWord 1 true 8 8 0x4031_C042_0222_8000 = some 7 := by decide +kernel

/-! ## Terms that WellFormed refuses -/

/-- A term whose fields would be a well-formed fr.mov but for one. -/
def movBut (g : TForm → TForm) : Bool := WellFormed (.frMov (g ⟨.n32, 0, 0, .s 5, .s 6, .v 0, .v 0, 0⟩))

/-- TY, LA, a register class, an unused field, KM and unused bits of MOD (R69 tests 5 to 8). -/
theorem test_wf_fields : movBut id = true ∧ movBut ({ · with ty := .f32 }) = false ∧ movBut ({ · with la := 1 }) = false ∧
    movBut ({ · with d := .v 1 }) = false ∧ movBut ({ · with a := .lane }) = false ∧ movBut ({ · with b := .s 1 }) = false ∧
    movBut ({ · with km := 1 }) = false ∧ movBut ({ · with mod := 1 }) = false := by decide +kernel

/-- A pair at an odd register, a pair past the last, one queue register twice (R62, R63). -/
theorem test_wf_registers : WellFormed (.lnMov ⟨.n64, 0, 0, .v 1, .v 2, .v 0, .v 0, 0⟩) = false ∧
    WellFormed (.ltNow ⟨.i8, 0, 0, .s 63, .v 0, .v 0, .v 0, 0⟩) = false ∧
    WellFormed (.frAddT ⟨.i32, 0, 0, .s 1, .q 3, .q 3, .v 0, 0⟩) = false ∧
    WellFormed (.frAddT ⟨.i32, 0, 0, .s 1, .q 3, .q 4, .v 0, 0⟩) = true ∧
    WellFormed (.frNop ⟨.i8, 0, 0, .v 0, .v 0, .v 0, .v 0, 0⟩) = false := by decide +kernel

/-- Fields that an entry uses only under some MOD (R185, R195, R203, R208, R275, R302). -/
theorem test_wf_conditional : WellFormed (.memFe ⟨.i8, 0, 0, .k 1, .v 2, .v 0, .v 0, 1⟩) = false ∧
    WellFormed (.memAtom ⟨.i32, 0, 0, .v 1, .v 2, .v 4, .v 5, 0⟩) = false ∧
    WellFormed (.cpWait ⟨.i8, 0, 0, .v 0, .s 4, .v 0, .v 0, 1⟩) = false ∧
    WellFormed (.tkArgs ⟨.i8, 0, 0, .s 4, .s 5, .v 0, .v 0, 0⟩) = false ∧
    WellFormed (.rgInfo ⟨.i8, 0, 0, .s 4, .s 5, .v 0, .v 0, 2⟩) = false ∧
    WellFormed (.qTry ⟨.i8, 0, 0, .s 4, .q 5, .s 6, .v 0, 0⟩) = false := by decide +kernel

/-- Values that entries reserve and a CSR number that is not assigned (R69 test 9). -/
theorem test_wf_reserved : WellFormed (.frCmp ⟨.i32, 0, 0, .s 1, .s 2, .s 3, .v 0, 6⟩) = false ∧
    WellFormed (.frCsrr ⟨.i8, 0, 0, .s 1, .v 0, 0x061⟩) = false ∧ WellFormed (.frCsrr ⟨.i8, 0, 0, .s 1, .v 0, 0x060⟩) = true ∧
    WellFormed (.lnCmp ⟨.i32, 0, 0, .v 1, .v 2, .v 3, .v 0, 8⟩) = false ∧
    WellFormed (.xlRed ⟨.f32, 0, 0, .v 1, .v 2, .zero, .v 0, 3⟩) = false ∧
    WellFormed (.memXfence ⟨.i8, 0, 0, .v 0, .v 0, .v 1, .v 0, 0⟩) = false ∧
    WellFormed (.mxAzero ⟨.i8, 0, 3, .v 0, .v 0, .v 0, .v 0, 0⟩) = false ∧
    WellFormed (.sysEret ⟨.i8, 0, 0, .v 0, .v 0, .v 0, .v 0, 4⟩) = false := by decide +kernel

/-- The word checks of the Sill units (R315). -/
theorem test_wf_sill : WellFormed (.slAct ⟨0, 1, 0, 0, 0, 0, 0⟩) = false ∧ WellFormed (.slRd ⟨0, 0, 0, 0, 3, 0, 0⟩) = false ∧
    WellFormed (.slBx ⟨4, 0, 0, 0, 0, 0⟩) = false ∧ WellFormed (.slAdd ⟨24, 0, 0, 0, 0, 0⟩) = false ∧
    WellFormed (.slAdd ⟨0, 0, 0, 0, 2, 0⟩) = false ∧ WellFormed (.slCmp ⟨0, 0, 0, 0, 0, 8⟩) = false ∧
    WellFormed (.slBred ⟨0, 0, 0, 0, 0, 0, 8⟩) = false ∧ WellFormed (.slAg ⟨0, 1, 1, 0⟩) = false ∧
    WellFormed (.slMov ⟨0, 0, 1, 0, 0, 0⟩) = false ∧ WellFormed (.slSendW ⟨1, 0, 0, 0, 0⟩) = false := by decide +kernel

/-- The arguments of events that have a length of their own (R393). -/
theorem test_wf_events : WellFormed (.attest (List.replicate 31 0) 0) = false ∧
    WellFormed (.attest (List.replicate 32 0) 0) = true ∧ WellFormed (.hostTlpWrite 0 (List.replicate 4097 0) false) = false := by
  decide +kernel


/-! ## States that meet the hypotheses of the obligations

Each `witness_` theorem names an obligation and, where it has several clauses, meets the hypotheses of each. -/

/-- A team of 32 lanes, four of them active, with values in registers. -/
def team0 : Team :=
  { desc := { traph := 0x2000, lanes := 32, scratch := 4096, vregs := 64, sregs := 64 }, lanes := 32, exm := 0xF,
    clause := some { header := 0x1000, eng := 0, words := [0, 0] }, frecb := 0x10, accrows := 4,
    s := [(0, 0x100), (1, 7), (2, 0xFFFF_FFFF_FFFF_FFFE), (3, 3), (4, 0x40)], k := [(1, 3), (2, 5)],
    v := (List.range 8).map fun l => (128 * l, BitVec.ofNat 32 (0x100 + 8 * l)) }

/-- A state whose team 0, at issue, is `t`: pages from 0 are mapped to themselves, eight bytes from 0x100 are listed. -/
def at0 (t : Team) : State :=
  { State.reset with
    cur := some 0, teams := [(0, t)],
    mem := (List.range 8).map fun i => (0x100 + i, BitVec.ofNat 8 (i + 1)),
    cores := [(0, { tlb := [⟨0, 0, 65536, 0, 0, true, true, true, 0, 0xFFFF_FFFF⟩], allocs := [{ launch := {}, size := 4096 }] })],
    regions := [(0, { teams := 4, launches := [{}] })], spaces := [(0, {})] }

/-- The same with the plain team. -/
def base : State := at0 team0

/-- Page tables at 0x40000 whose one leaf maps the first GiB, to the global space or elsewhere (R332). -/
def paged (s : State) (leaf : Nat := 31) : State :=
  let w (m : List Host.Cell) (a lo hi : Nat) := writeBytes m a (leBytes 8 lo ++ leBytes 8 hi)
  { s with
    mem := w (w (w s.mem 0x40000 0x42001 0) 0x42000 0x44001 0) 0x44000 leaf 0xFFFFFFFFFFFF
    spaces := s.spaces.map fun p => (p.1, { p.2 with root := 0x40000 }) }

/-- A T-form and an I-form with the fields a test sets. -/
def tf (d a : Reg) (b : Reg := .v 0) (c : Reg := .v 0) (ty : Ty := .i64) (mod : BitVec 6 := 0) (la : BitVec 4 := 0)
    (km : Fin 16 := 0) : TForm := ⟨ty, la, km, d, a, b, c, mod⟩
/-- An I-form. -/
def jf (d a : Reg) (imm : BitVec 22 := 0) (ty : Ty := .i64) : IForm := ⟨ty, 0, 0, d, a, imm⟩

/-- An action answers `x` and leaves `s'`. -/
def answers {α : Type} [DecidableEq α] (m : Act α) (s : State) (x : α) (s' : State) : Bool :=
  match Act.go m s with
  | (.ok y, r) => decide (y = x) && decide (r = s')
  | _ => false

/-- The answer of an action as a check. -/
theorem go_iff {α : Type} [DecidableEq α] {m : Act α} {s s' : State} {x : α} :
    Act.go m s = (.ok x, s') ↔ answers m s x s' = true := by
  unfold answers
  constructor
  · intro h; simp [h]
  · intro h
    split at h
    · rename_i y r hg
      simp only [Bool.and_eq_true, decide_eq_true_eq] at h
      rw [hg, h.1, h.2]
    · cases h

/-- A readable operand and one that is no queue register, as checks. -/
theorem readable_iff {t : Team} {r : Reg} :
    Readable t r ↔ (match r with | .q _ => false | .s n => t.poisonS n == 0 | _ => true) = true := by
  cases r <;> simp [Readable]
/-- The same of a destination. -/
theorem noQueue_iff {r : Reg} : NoQueue r ↔ (match r with | .q _ => false | _ => true) = true := by
  cases r <;> simp [NoQueue]

/-- An access finds its translation in the core's store, and all that may serve it agree. -/
def mapped (s : State) (i : Nat) (t : Team) (va : Word) (need : Need) (key : Nat) : Bool :=
  let v := va.toNat % 2 ^ 57
  let serves (e : Tlb) : Bool := e.usable t.asid v t.timeline t.gen need
  canonical va && !s.inLog i va && (t.declared.find? (·.page == v / 4096 * 4096)).isNone &&
    (s.core t.core).tlb.any serves &&
    match (t.translations s).find? serves with
    | some e => match s.through e v need with
      | .ok k n => decide (k = key) && (t.translations s).all fun e => !serves e || decide (s.through e v need = .ok k n)
      | _ => false
    | none => false

/-- A mapped access, as a check. -/
theorem mapped_iff {s : State} {i : Nat} {t : Team} {va : Word} {need : Need} {key : Nat} :
    Mapped s i t va need key ↔ mapped s i t va need key = true := by
  unfold mapped
  simp only [Bool.and_eq_true, Bool.not_eq_true', Option.isNone_iff_eq_none]
  constructor
  · rintro ⟨h1, h2, h3, k, h4, h5⟩
    refine ⟨⟨⟨⟨h1, h2⟩, h3⟩, h4⟩, ?_⟩
    obtain ⟨e, he, hs⟩ := List.any_eq_true.mp h4
    have hm : e ∈ t.translations s := by simp [Team.translations, he]
    split
    · rename_i e' hf
      have hu := List.find?_some (p := fun e : Tlb => e.usable t.asid (va.toNat % 2 ^ 57) t.timeline t.gen need) hf
      rw [h5 e' (List.mem_of_find?_eq_some hf) hu]
      simp only [decide_true, Bool.true_and, List.all_eq_true]
      intro x hx
      by_cases hxs : x.usable t.asid (va.toNat % 2 ^ 57) t.timeline t.gen need = true
      · rw [h5 x hx hxs]; exact (Bool.or_eq_true _ _).mpr (.inr (decide_eq_true rfl))
      · rw [Bool.not_eq_true] at hxs; rw [hxs]; rfl
    · rename_i hf
      exact absurd hs (List.find?_eq_none.mp hf e hm)
  · rintro ⟨⟨⟨⟨h1, h2⟩, h3⟩, h4⟩, h5⟩
    refine ⟨h1, h2, h3, ?_⟩
    split at h5
    · split at h5
      · rename_i k n _
        simp only [Bool.and_eq_true, decide_eq_true_eq, List.all_eq_true] at h5
        refine ⟨n, h4, fun e he hs => ?_⟩
        have h6 := h5.2 e he
        simp only [hs, Bool.not_true, Bool.false_or, decide_eq_true_eq] at h6
        rw [h6, h5.1]
      · cases h5
    · cases h5

/-- FrontRegisterForms, with S, A and ZERO as destination. -/
theorem witness_FrontRegisterForms : ∀ d ∈ [Reg.s 5, .a 3, .zero], let f := tf d (.s 2) (.s 1) (.s 3)
    AtIssue base 0 team0 ∧ Readable team0 f.a ∧ Readable team0 f.b ∧ Readable team0 f.c ∧ NoQueue f.d := by
  simp only [AtIssue, readable_iff, noQueue_iff]; decide +kernel

/-- FrontImmediateForms: one form for all three clauses. -/
theorem witness_FrontImmediateForms : let f := jf (.s 2) (.s 1) 0x3FFFFF
    AtIssue base 0 team0 ∧ NoQueue f.d ∧ Readable team0 f.a ∧ Readable team0 f.d := by
  simp only [AtIssue, readable_iff, noQueue_iff]; decide +kernel

/-- FrontDivide: a well-formed word; a divisor that is not zero; a divisor of zero. -/
theorem witness_FrontDivide : let f := tf (.s 5) (.s 2) (.s 1); let g := tf (.s 5) (.s 2) .zero
    (WellFormed (.frDiv f) = true ∧ WellFormed (.frRem f) = true) ∧
    (AtIssue base 0 team0 ∧ Readable team0 f.a ∧ Readable team0 f.b ∧ NoQueue f.d ∧
      valueOf f.ty (team0.scalar (base.teamsOf team0) f.b) ≠ 0) ∧
    (AtIssue base 0 team0 ∧ Readable team0 g.a ∧ Readable team0 g.b ∧ NoQueue g.d ∧
      valueOf g.ty (team0.scalar (base.teamsOf team0) g.b) = 0) := by
  simp only [AtIssue, readable_iff, noQueue_iff]; decide +kernel

/-- A team with Q3 bound to the Sill unit 0, whose word is ready, and Q4 to the copy unit. -/
def teamQ : Team := { team0 with q := [(3, ⟨3, 0, []⟩), (4, ⟨1, 0, []⟩)] }
/-- Its state. -/
def baseQ : State := { at0 teamQ with sills := [(0, { left := [(0, 99)] })] }

/-- FrontQueueForms: a pop from Q3, and fr.add into Q4. -/
theorem witness_FrontQueueForms : let f := tf (.s 5) (.q 3) (.s 1); let g := tf (.q 4) (.s 2) (.s 1)
    let v := teamQ.scalar (baseQ.teamsOf teamQ)
    let x := narrow g.ty (valueOf g.ty (v g.a) + valueOf g.ty (v g.b))
    let s1 := (Act.go (popQ 3) baseQ).2; let s2 := (Act.go (pushQ 4 x) baseQ).2
    (AtIssue baseQ 0 teamQ ∧ f.a = .q 3 ∧ Readable teamQ f.b ∧ NoQueue f.d ∧
      teamQ.popped.find? (fun p => p.1 == 0) = none ∧ Act.go (popQ 3) baseQ = (.ok 99, s1) ∧
      AtIssue s1 0 teamQ ∧ Readable { teamQ with popped := teamQ.popped ++ [(0, 99)] } f.b) ∧
    (g.d = .q 4 ∧ Readable teamQ g.a ∧ Readable teamQ g.b ∧ Act.go (pushQ 4 x) baseQ = (.ok (), s2)) := by
  simp only [AtIssue, readable_iff, noQueue_iff, go_iff]; decide +kernel

/-- ControlRegisters: the number of FPF read and written, CYC read, and ACCB with nothing and with something left in
the matrix stream. -/
theorem witness_ControlRegisters : let f := jf (.s 1) (.v 0) 0x021; let g := jf (.s 1) (.v 0) 0x040
    (AtIssue base 0 team0 ∧ f.imm.toNat % 2 ^ 12 ≠ 0x040 ∧ isFlags (f.imm.toNat % 2 ^ 12) = true ∧ team0.flagsQuiet = true ∧
      Readable team0 f.d) ∧ (AtIssue base 0 team0 ∧ g.imm.toNat % 2 ^ 12 = 0x040) ∧
    (∀ t ∈ [team0, { team0 with mxq := [⟨0x9824_0000_0000_0000, 0x1000, 0, [], []⟩] }], AtIssue (at0 t) 0 t ∧
      Readable t (.s 1) ∧ (jf (.s 1) (.v 0) 0x002).imm.toNat % 2 ^ 12 = 0x002) := by
  simp only [AtIssue, readable_iff]; decide +kernel

/-- FrontMemory: a load whose line is not in the cache, one whose line is where the cache serves it, and a store. -/
theorem witness_FrontMemory : let f := jf (.s 2) (.s 0) 0xFC .i32; let line : CacheLine := ⟨0x1C0, zeros 64, 0, []⟩
    let s2 := base.withCore 0 fun c => { c with cache := [line] }
    let serves (s : State) (l : CacheLine) : Bool := l.key == 0x1C0 && Config.cacheHit s.free && !team0.acquired && !l.gone.contains 0
    let good (s : State) : Prop := AtIssue s 0 team0 ∧ Mapped s 0 team0 0x1FC { r := true } 0x1FC ∧ s.rangeLanded 0 0x1FC 4 = true ∧
      s.mortar = [] ∧ s.writes.any (·.team == 0) = false ∧ s.mortarIn.any (·.team == 0) = false
    team0.FirstIssue ∧ Readable team0 f.a ∧ NoQueue f.d ∧ team0.staged = [] ∧
    (team0.scalar (base.teamsOf team0) f.a + f.imm.signExtend 64).toNat % tyBytes f.ty = 0 ∧
    (good base ∧ (base.core 0).cache.find? (serves base) = none ∧ base.poisonAt 0x1C0 = 0) ∧
    (good s2 ∧ (Config.cacheHit s2.free = true → (s2.core 0).cache.find? (serves s2) = some line) ∧ line.poison = 0) ∧
    (Mapped base 0 team0 0x1FC { w := true } 0x1FC ∧ Readable team0 f.d ∧ team0.UnitsIssued ∧ UnitRoom base team0) := by
  simp only [AtIssue, readable_iff, noQueue_iff, mapped_iff, Team.FirstIssue, Team.UnitsIssued, UnitRoom]
  refine ⟨by decide +kernel, by decide +kernel, by decide +kernel, by decide +kernel, by decide +kernel, by decide +kernel,
    ⟨by decide +kernel, fun h => ?_, by decide +kernel⟩, by decide +kernel⟩
  have hc : ((base.withCore 0 fun c => { c with cache := [⟨0x1C0, zeros 64, 0, []⟩] }).core 0).cache = [⟨0x1C0, zeros 64, 0, []⟩] := by
    decide +kernel
  rw [hc, List.find?_cons, h]
  rfl

/-- The forms of a transfer. -/
def bf (d : Reg) (imm : BitVec 30 := 5) (km : Fin 16 := 0) : BForm := ⟨.i8, 0, km, d, imm⟩

/-- UniformTransfers: a condition in K, in S and of none, targets that are and are not aligned. -/
theorem witness_UniformTransfers : let g := tf (.v 0) (.s 4); let h := tf (.v 0) (.s 1)
    AtIssue base 0 team0 ∧ (bf (.k 1)).d = .k 1 ∧ ((bf (.s 3)).d = .s 3 ∧ Readable team0 (.s 3)) ∧ (bf .zero).d = .zero ∧
    (team0.origin ≠ 2 ∧ lanesIn team0.lanes team0.exm ≠ []) ∧
    (Readable team0 g.a ∧ (team0.scalar (base.teamsOf team0) g.a).toNat % 8 = 0) ∧
    (Readable team0 h.a ∧ (team0.scalar (base.teamsOf team0) h.a).toNat % 8 ≠ 0) := by
  simp only [AtIssue, readable_iff]; decide +kernel

/-- A team with a stack. -/
def teamS (st : List StackEntry) : Team := { team0 with stack := st }

/-- Divergence: no lane parts, all do, some do with room and without; ctl.join on each entry and on none. -/
theorem witness_Divergence :
    let parts (t : Team) (k : Fin 16) := (t.exm &&& t.getK k.val, t.exm &&& ~~~ t.getK k.val)
    let e : StackEntry := ⟨.pending, 0x2000, 8⟩; let m : StackEntry := ⟨.merge, 0x2000, 8⟩; let p : StackEntry := ⟨.park, 0x2000, 8⟩
    let t31 := teamS (List.replicate 31 e); let t32 := teamS (List.replicate 32 e)
    (AtIssue base 0 team0 ∧ (parts team0 5).1 = 0) ∧
    (AtIssue base 0 team0 ∧ (parts { team0 with exm := 3 } 1).1 ≠ 0 ∧ (parts { team0 with exm := 3 } 1).2 = 0) ∧
    (AtIssue (at0 t31) 0 t31 ∧ (parts t31 1).1 ≠ 0 ∧ (parts t31 1).2 ≠ 0 ∧ t31.stack.length < 32) ∧
    (AtIssue (at0 t32) 0 t32 ∧ (parts t32 1).1 ≠ 0 ∧ (parts t32 1).2 ≠ 0 ∧ 32 ≤ t32.stack.length) ∧
    (AtIssue (at0 (teamS [e])) 0 (teamS [e]) ∧ (teamS [e]).stack = ⟨.pending, 0x2000, 8⟩ :: []) ∧
    (AtIssue (at0 (teamS [m])) 0 (teamS [m]) ∧ (teamS [m]).stack = ⟨.merge, 0x2000, 8⟩ :: []) ∧
    (AtIssue (at0 (teamS [p])) 0 (teamS [p]) ∧ (teamS [p]).stack = ⟨.park, 0x2000, 8⟩ :: []) ∧
    (AtIssue base 0 team0 ∧ team0.stack = []) := by
  simp only [AtIssue]; decide +kernel

/-- Kernel descriptors at 0x80 and 0x100 and four lanes that name one of them each. -/
def teamC (a b : Nat) : Team :=
  { team0 with v := [(0, BitVec.ofNat 32 a), (128, BitVec.ofNat 32 b), (256, BitVec.ofNat 32 a), (384, BitVec.ofNat 32 b)] }
/-- The bytes of such a descriptor that are not zero. -/
def descBytes (a : Nat) : List Host.Cell := [(a + 1, 0x10), (a + 40, 32), (a + 42, 8), (a + 43, 8), (a + 55, 0xFF), (a + 60, 1), (a + 61, 0xFF)]
/-- The state of that team. -/
def baseC (t : Team) : State :=
  { at0 t with
    mem := descBytes 0x80 ++ descBytes 0x100
    spaces := [(0, { images := [[⟨2, 0, 0x1000⟩, ⟨1, 0x1000, 0x1000⟩]] })] }
/-- LaneCalls: no lane, one target, two targets. -/
theorem witness_LaneCalls : let t0 := { team0 with exm := 0 }; let t1 := teamC 0x80 0x80; let t2 := teamC 0x80 0x100
    let a (t : Team) (l : Nat) := t.laneAddr l (.v 0)
    let good (t : Team) : Prop := ∀ l ∈ lanesIn t.lanes t.exm,
      let b := (baseC t).ownBytes 0 (baseC t).serial (a t l).toNat 128; let d := descOf (a t l).toNat b
      t.firstPoison l [(.v 0, 2)] = none ∧ (a t l).toNat % 128 = 0 ∧ Mapped (baseC t) 0 t (a t l) { r := true } (a t l).toNat ∧
        d.valid b = true ∧ d.usable ((baseC t).space t.asid) = true
    (AtIssue (at0 t0) 0 t0 ∧ t0.FirstIssue ∧ t0.UnitsIssued ∧ lanesIn t0.lanes t0.exm = []) ∧
    (AtIssue (baseC t1) 0 t1 ∧ t1.FirstIssue ∧ t1.UnitsIssued ∧ (baseC t1).mortar = [] ∧ good t1 ∧
      0 ∈ (lanesIn t1.lanes t1.exm).head? ∧ ∀ l ∈ lanesIn t1.lanes t1.exm, a t1 l = a t1 0) ∧
    (AtIssue (baseC t2) 0 t2 ∧ t2.FirstIssue ∧ t2.UnitsIssued ∧ (baseC t2).mortar = [] ∧ good t2 ∧
      0 ∈ (lanesIn t2.lanes t2.exm).head? ∧ (∃ l ∈ lanesIn t2.lanes t2.exm, a t2 l ≠ a t2 0) ∧
      (∀ l ∈ lanesIn t2.lanes t2.exm, ∀ r < 8, t2.poisonV l r = 0) ∧ t2.stack.length < 32 ∧
      (((baseC t2).tasks ++ (baseC t2).pushed).filter fun k => k.1 == clusterOf t2.core).length +
        (lanesIn t2.lanes t2.exm).length ≤ 1024) := by
  simp only [AtIssue, Team.FirstIssue, Team.UnitsIssued, mapped_iff]
  refine ⟨?_, ?_, ?_⟩ <;> decide +kernel

/-- A callee team with a store on its way; in a deterministic launch, one with a put on its way. -/
def callee (writes : List PendWrite) (copies : SMap Copy) (det : Bool := false) : State :=
  let t := { team0 with origin := 2, issued := 1, undrained := if writes = [] then [] else [(1, 1)] }
  { at0 t with writes := writes, copies := copies, regions := [(0, { teams := 4, launches := [{}], det := det })] }
/-- Its team. -/
def calleeTeam (s : State) : Team := s.team 0

/-- LaneExits: each origin; ctl.retq of no lane, of callee teams whose effects are covered, and of teams with a
store outstanding and with a put still to be staged. -/
theorem witness_LaneExits : let o (n : Nat) := { team0 with origin := n }; let t0 := { team0 with exm := 0 }
    let w : PendWrite := { team := 0, unit := 1, path := 0, va := 0x40, key := 0x40, bytes := [1], asid := 0, group := 0 }
    let c : Copy := { team := 0, handles := [(0, 1)], kind := 2, core := 0, launch := {}, asid := 0, timeline := 0, order := 0, unit := some 1 }
    (∀ n ∈ [0, 1, 2], AtIssue (at0 (o n)) 0 (o n) ∧ (o n).origin = n) ∧
    (AtIssue (at0 t0) 0 t0 ∧ lanesIn t0.lanes t0.exm = []) ∧
    (∀ s ∈ [callee [] [], callee [w] [], callee [] [(9, c)] true, callee [] [(9, { c with issuedAll := true })] true],
      AtIssue s 0 (calleeTeam s) ∧ (calleeTeam s).origin = 2 ∧ lanesIn (calleeTeam s).lanes (calleeTeam s).exm ≠ []) ∧
    (∀ s ∈ [callee [] [], callee [] [(9, { c with issuedAll := true })] true], s.drainedTo 0 (calleeTeam s).issued s.serial = true) ∧
    (∀ s ∈ [callee [w] [], callee [] [(9, c)] true], s.drainedTo 0 (calleeTeam s).issued s.serial = false) := by
  simp only [AtIssue]; decide +kernel

/-- MaskForms: operands that are read, MOD 1 and MOD 0 of km.exm. -/
theorem witness_MaskForms : let f := tf (.k 3) (.s 1) (.s 3) (mod := 1); let g := jf (.k 3) (.s 1) 31
    AtIssue base 0 team0 ∧ Readable team0 f.a ∧ Readable team0 f.b ∧ Readable team0 g.a ∧ f.mod = 1 ∧
    (tf (.k 3) (.k 1)).mod ≠ 1 := by
  simp only [AtIssue, readable_iff]; decide +kernel

/-- Three lane operands, for every type and row. -/
def lf (ty : Ty) (mod : BitVec 6 := 0) : TForm := tf (.v 8) (.v 0) (.v 2) (.v 4) ty mod (km := 1)

/-- LaneRegisterForms: every row. -/
theorem witness_LaneRegisterForms : AtIssue base 0 team0 ∧
    ∀ p ∈ laneRows, Unpoisoned team0 (lf .i64).km (p.uses (lf .i64)) := by
  simp only [AtIssue, Unpoisoned]; decide +kernel

/-- LaneImmediateForms. -/
theorem witness_LaneImmediateForms : let f := jf (.v 8) (.v 0) 0x200000
    AtIssue base 0 team0 ∧ Unpoisoned team0 f.km [useOf f.ty f.a] := by
  simp only [AtIssue, Unpoisoned]; decide +kernel

/-- LaneChainsAndMoves: sources of the chains, a register that ln.movs finds and one past the last, a field. -/
theorem witness_LaneChainsAndMoves : let f := lf .n32; let m := tf (.v 8) (.v 60) (.s 3) (ty := .n32)
    let n := base.teamsOf team0
    AtIssue base 0 team0 ∧ Unpoisoned team0 f.km [useOf f.ty f.a, useOf f.ty f.b] ∧
    (Unpoisoned team0 m.km [(m.b, 1)] ∧ isNamed m team0 n 0 = true ∧ isNamed { m with b := .s 0 } team0 n 0 = false ∧
      ∀ l ∈ team0.lanesOf m.km.val, isNamed m team0 n l → team0.lpoison l (if tyWide m.ty then 2 else 1)
        (Reg.ofByte (BitVec.ofNat 8 (namedReg m team0 n l))) = none) ∧
    Unpoisoned team0 f.km [useOf f.ty f.d, useOf f.ty f.a, (f.b, 1), (f.c, 1)] := by
  simp only [AtIssue, Unpoisoned]; decide +kernel

/-- A team with poisoned registers. -/
def teamP : Team := { team0 with sPoison := [(2, 8)], vPoison := [(128, 9)] }

/-- OperandTraps: POISON of S2, misaligned load and store, POISON of V0 in lane 1. -/
theorem witness_OperandTraps : let f := tf (.s 5) (.s 2); let g := jf (.s 4) (.s 0) 3 .i32
    let a := team0.scalar (base.teamsOf team0) g.a + g.imm.signExtend 64
    (AtIssue (at0 teamP) 0 teamP ∧ f.a = .s 2 ∧ teamP.poisonS 2 ≠ 0) ∧
    (AtIssue base 0 team0 ∧ team0.FirstIssue ∧ Readable team0 g.a ∧ a.toNat % tyBytes g.ty ≠ 0 ∧ Readable team0 g.d) ∧
    (AtIssue (at0 teamP) 0 teamP ∧ ∀ p ∈ laneRows, ¬ Unpoisoned teamP (lf .i64).km (p.uses (lf .i64))) := by
  simp only [AtIssue, Unpoisoned, readable_iff, Team.FirstIssue]; decide +kernel

/-- CrossLaneMoves. -/
theorem witness_CrossLaneMoves : AtIssue base 0 team0 ∧ team0.vPoison = [] ∧ team0.sPoison = [] := by
  simp only [AtIssue]; decide +kernel

/-- A team whose lanes hold 1.5, and one that has Invalid enabled and a signalling NaN in lane 1. -/
def teamF : Team := { team0 with v := (List.range 4).flatMap fun l => (List.range 6).map fun r => (128 * l + r, 0x3FC00000) }
/-- The other. -/
def teamN : Team := { (teamF.setV 1 0 0x7F800001) with desc := { team0.desc with ten := 1 } }

/-- A team whose lane 1 has a poisoned V0. -/
def teamPV : Team := { teamF with vPoison := [(128, 9)] }

/-- CrossLaneFolds: the three instructions on 1.5 in four lanes and 0 elsewhere; the same with Invalid enabled and a
signalling NaN, at once and under a non-zero LA; no active lane; a poisoned operand. -/
theorem witness_CrossLaneFolds : let f := tf (.v 8) (.v 0) .zero (ty := .f32); let s := at0 teamF
    let cs := contributions teamF (s.teamsOf teamF) f
    AtIssue s 0 teamF ∧ foldPoison teamF f = [] ∧ cs = cs.headD 0 :: cs.drop 1 ∧ (∀ k, f.d ≠ .s k) ∧
    raised ((foldFrom (foldStep teamF f.ty f.mod.toNat) (cs.headD 0) (cs.drop 1)).map (·.2)) &&& teamF.enables false = 0 ∧
    (∀ la ∈ [(0 : BitVec 4), 3], let f := tf (.v 8) (.v 0) .zero (ty := .f32) (la := la)
      let cs := contributions teamN ((at0 teamN).teamsOf teamN) f
      AtIssue (at0 teamN) 0 teamN ∧ foldPoison teamN f = [] ∧ teamN.foldsNothing f = false ∧ cs = cs.headD 0 :: cs.drop 1 ∧
      raised ((foldFrom (foldStep teamN f.ty f.mod.toNat) (cs.headD 0) (cs.drop 1)).map (·.2)) &&& teamN.enables false ≠ 0) ∧
    (let t := { teamF with exm := 0 }; AtIssue (at0 t) 0 t ∧ t.foldsNothing f = true) ∧
    (AtIssue (at0 teamPV) 0 teamPV ∧ teamPV.foldsNothing f = false ∧ 0 < teamPV.lanes ∧ foldPoison teamPV f ≠ []) := by
  simp only [AtIssue]; decide +kernel

/-- IntegerFolds: the first and the last operation. -/
theorem witness_IntegerFolds : ∀ m ∈ [(0 : BitVec 6), 5], let f := tf (.s 8) (.v 0) .zero (ty := .i32) (mod := m)
    AtIssue base 0 team0 ∧ foldPoison team0 f = [] ∧ f.ty.code < 8 ∧ team0.lanes ≠ 0 ∧ f.mod.toNat < 6 := by
  simp only [AtIssue]; decide +kernel

/-- FloatForms, DecimalAndScaledForms: every row proceeds with no exception enabled. -/
theorem witness_FloatForms : let s := at0 teamF
    AtIssue s 0 teamF ∧ ∀ p ∈ floatRows, Proceeds teamF (s.teamsOf teamF) 0 p.dec (p.uses (lf .f32 10)) (p.out (lf .f32 10)) := by
  simp only [AtIssue, Proceeds, Unpoisoned]; decide +kernel
/-- The decimal and scaled rows. -/
theorem witness_DecimalAndScaledForms : let s := at0 teamF; let f := tf (.v 8) (.v 0) (.v 2) (.v 4) .e4m3 0x1B
    AtIssue s 0 teamF ∧ ∀ p ∈ decimalRows ++ scaledRows, Proceeds teamF (s.teamsOf teamF) 0 p.dec (p.uses f) (p.out f) := by
  simp only [AtIssue, Proceeds, Unpoisoned]; decide +kernel

/-- FloatComparisons: both. -/
theorem witness_FloatComparisons : let s := at0 teamF; let f := tf (.k 4) (.v 0) (.v 2) (ty := .f32)
    AtIssue s 0 teamF ∧ ∀ p ∈ comparisons, Unpoisoned teamF f.km (p.2.2.1 f) ∧
      ∀ l ∈ teamF.lanesOf f.km.val, (p.2.2.2 f teamF (s.teamsOf teamF) l).2 &&& teamF.enables p.2.1 = 0 := by
  simp only [AtIssue, Unpoisoned]; decide +kernel

/-- FloatTraps: fp.add of a signalling NaN with Invalid enabled, a trap in lane 1 and none in lane 0, at once and under a
non-zero LA. -/
theorem witness_FloatTraps : let s := at0 teamN; ∀ f ∈ [lf .f32, { lf .f32 with la := 2 }],
    AtIssue s 0 teamN ∧ ∃ p ∈ floatRows ++ decimalRows, Unpoisoned teamN f.km (p.uses f) ∧
      (teamN.lanesOf f.km.val).filter (fun l => (p.out f teamN (s.teamsOf teamN) l).2 &&& teamN.enables p.dec ≠ 0) = [1] := by
  simp only [AtIssue, Unpoisoned]; decide +kernel

/-- FloatSpecials: a negative number, and the ends of the range of exact powers. -/
theorem witness_FloatSpecials : ∀ f ∈ [Num.f32, Num.f64], (1 : Nat) ≠ 0 ∧ f.emin ≤ f.emin ∧ f.emin ≤ f.bias := by decide +kernel

/-- FormatsExact: the first format and the last, and a pattern of each that is a number. -/
theorem witness_FormatsExact : ∀ ty ∈ [8, 14], 8 ≤ ty ∧ ty ≤ 14 ∧ 1 < 2 ^ (Num.fmtOf ty).width ∧
    ((Num.fmtOf ty).value 1).isNan = false := by decide +kernel

/-- A state whose team holds the Latchkey, one where another does, one where another passes it on. -/
def latched (l : Latch) (t : Team := team0) : State := (at0 t).withCore 0 fun c => { c with latch := l }
/-- A giver in slot 0, and a team in slot 3 that waits for the Latchkey. -/
def waiting (giver : Team) (loads : List Wload := []) : State :=
  { (latched (.passing 0 0)).withCore 0 fun c => { c with wloads := loads } with
    teams := [(0, giver), (1, { team0 with slot := 3, wantsKey := true })] }
/-- Team 0 with a matrix instruction in its window. -/
def teamBusy : Team := { team0 with ops := [{ ident := 1, matrix := true }] }

/-- Latchkey: free, held, held by another; mx.cfg; without it; handed on to nobody, to a waiter, and held back. -/
theorem witness_Latchkey :
    (AtIssue base 0 team0 ∧ team0.mxq = [] ∧ (base.core team0.core).latch = .free ∧ ¬ HasKey base 0 team0) ∧
    (AtIssue (latched (.held 0)) 0 team0 ∧ ((latched (.held 0)).core 0).latch = .held 0 ∧ HasKey (latched (.held 0)) 0 team0 ∧
      Readable team0 (.s 2)) ∧
    (AtIssue (latched (.held 1)) 0 team0 ∧ ((latched (.held 1)).core 0).latch ≠ .free ∧ ((latched (.held 1)).core 0).latch ≠ .held 0) ∧
    (let busy (s : State) := (s.core 0).wloads.any (·.team == 0) || (s.team 0).ops.any (·.matrix)
     let free := latched (.passing 0 0); let w := waiting team0
     (∀ s ∈ [free, w, waiting teamBusy, waiting team0 [⟨7, 0, [(0, 0, 4)], 1⟩]], (s.core 0).latch = .passing 0 0) ∧
     busy (waiting teamBusy) = true ∧ busy (waiting team0 [⟨7, 0, [(0, 0, 4)], 1⟩]) = true ∧
     (busy free = false ∧ nextForKey free 0 0 = none) ∧
     (busy w = false ∧ nextForKey w 0 0 = some 1 ∧ (w.team 1).keptKey = false ∧ (w.team 1).mxq = [])) := by
  simp only [AtIssue, readable_iff, HasKey]; decide +kernel

/-- A team of four active lanes of which the last has no accumulator row, and one without any. -/
def teamR (rows : Nat) : Team := { team0 with accrows := rows }

/-- MatrixProducts: mx.mma of a sparse tile, mx.mmas, mx.dist; lanes with their row and lanes without. -/
theorem witness_MatrixProducts : ∀ t ∈ [teamR 4, teamR 3],
    let s := (latched (.held 0) t).withCore 0 fun c => { c with tags := [(0, true)] }
    let f := tf (.v 8) (.v 2) (ty := .e4m3)
    AtIssue s 0 t ∧ t.mxq = [] ∧ HasKey s 0 t ∧ rowLanes t f.km ≠ [] ∧ (s.core 0).sparseAt f.ty (t.mxc.toNat % 128) = true ∧
    ∀ p ∈ products, Unpoisoned t f.km (p.2.2.2.1 f) ∧
      (s.core 0).tilePoison f.ty (p.2.2.1 && (s.core 0).sparseAt f.ty 0) p.2.1 (t.mxc.toNat % 128) 128 = none := by
  simp only [AtIssue, HasKey, Unpoisoned]; decide +kernel

/-- AccumulatorForms: columns up to the last and past it, no active lane, lanes with and without their row, a poisoned
column register. -/
theorem witness_AccumulatorForms : let f := tf (.v 0) (.s 4) (ty := .f32) (mod := 63); let g := tf (.v 0) (.s 0) (ty := .f32) (mod := 63)
    (∀ t ∈ [teamR 4, teamR 3, teamR 0], AtIssue (latched (.held 0) t) 0 t ∧ t.mxq = [] ∧ HasKey (latched (.held 0) t) 0 t ∧
      Readable t f.a ∧ (t.scalar ((latched (.held 0) t).teamsOf t) f.a).toNat + (f.mod.toNat + 1) = 128 ∧
      Unpoisoned t f.km [(f.d, 64)] ∧ Readable t g.a ∧ t.lanesOf g.km.val ≠ [] ∧
      128 < (t.scalar ((latched (.held 0) t).teamsOf t) g.a).toNat + (g.mod.toNat + 1)) ∧
    rowFaults (teamR 4) 0 = [] ∧ rowFaults (teamR 3) 0 ≠ [] ∧ rowLanes (teamR 3) 0 ≠ [] ∧ rowLanes (teamR 0) 0 = [] ∧
    (let t := { team0 with exm := 0 }; AtIssue (latched (.held 0) t) 0 t ∧ t.mxq = [] ∧ HasKey (latched (.held 0) t) 0 t ∧
      t.lanesOf f.km.val = []) ∧
    (let t := { teamR 3 with sPoison := [(4, 8)] }; AtIssue (latched (.held 0) t) 0 t ∧ t.mxq = [] ∧
      HasKey (latched (.held 0) t) 0 t ∧ f.a = .s 4 ∧ t.poisonS 4 ≠ 0 ∧ t.lanesOf f.km.val ≠ []) := by
  simp only [AtIssue, HasKey, Unpoisoned, readable_iff]; decide +kernel

/-- A mx.wload of team 0 that still has 20 bytes to place. -/
def wload0 : Wload := ⟨9, 0, [(0x48, 12288, 20)], 3⟩
/-- A state whose core has it, with one of another team behind it, and whose team may have it beside its kept buffer. -/
def loading (kept : List Wload) : State :=
  ((latched (.held 0)).withCore 0 fun c => { c with wloads := [wload0, ⟨11, 1, [(0, 500, 3)], 2⟩] }).withTeam 0 fun t =>
    { t with keptLoads := kept }

/-- WeightLoads: a tile at 0x100 is accepted; a burst of it becomes resident, in whole and in part, on the core and
in the buffer kept for a team that does not run. -/
theorem witness_WeightLoads : let s := latched (.held 0); let f := tf (.s 3) (.s 0) (.a 3) (ty := .e4m3)
    let r := Act.go (reachRange { r := true } accRead 0x100 (128 * tileStride f.ty false) ((team0.lanesOf 0).headD 0)) s
    let ks := match r.1 with
      | .ok ks => ks | _ => []
    let w := wload0
    (AtIssue s 0 team0 ∧ team0.mxq = [] ∧ HasKey s 0 team0 ∧ Readable team0 f.a ∧ Readable team0 f.d ∧
      (team0.scalar (s.teamsOf team0) f.a) = 0x100 ∧ f.mod.toNat % 4 = 0 ∧
      Act.go (reachRange { r := true } accRead 0x100 (128 * tileStride f.ty false) ((team0.lanesOf 0).headD 0)) s = (.ok ks, r.2)) ∧
    ∀ s2 ∈ [loading [], loading [wload0]], ∀ count ∈ [12, 20], let n := min count (min 20 (64 - 0x48 % 64)); let u := s2.team 0
      (s2.core 0).wloads.find? (·.ident == w.ident) = some w ∧ w.runs = (0x48, 12288, 20) :: [] ∧
      ((s2.core 0).wloads.any fun v => v.ident < w.ident && (v.meets w || v.reads w.team 0x48 n)) = false ∧ 0 < count ∧
      s2.mortar = [] ∧ s2.poisonAt 0x48 = 0 ∧ SMap.find s2.teams w.team = some u ∧ u.place ≠ .ended ∧ s2.detOf u = false ∧
      cutRun w.runs 0 n = (if n = 20 then [] else [(0x48 + n, 12288 + n, 20 - n)]) := by
  simp only [AtIssue, HasKey, readable_iff, go_iff]; decide +kernel

/-- TopRanks: every column taken, and none. -/
theorem witness_TopRanks : (128 : Nat) ≤ 128 ∧ (0 : Nat) ≤ 128 := by decide

/-- Lane l names 0x100 + 8l; its elements follow it. -/
def key0 (l k : Nat) : Nat := 0x100 + 8 * l + 4 * k
/-- Two 32-bit elements a lane, data in V2 on, address in V0. -/
def mf (mod : BitVec 6 := 1) (d : Reg := .v 2) : TForm := tf d (.v 0) (.a 3) (ty := .i32) (mod := mod)

/-- LoadRequests: four active lanes, and none. -/
theorem witness_LoadRequests : ∀ t ∈ [team0, { team0 with exm := 0 }],
    AtIssue (at0 t) 0 t ∧ t.FirstIssue ∧ Unpoisoned t (mf).km [addrUse (mf).a] ∧ (∀ o ∈ t.ops, o.ident ≠ (at0 t).serial) ∧
    AllMapped (mf) (at0 t) 0 t 2 { r := true } key0 := by
  simp only [AtIssue, Team.FirstIssue, Unpoisoned, AllMapped, mapped_iff]; decide +kernel

/-- A team with a load in flight. -/
def teamL : Team := { team0 with ops := [{ ident := 9, counter := some 3, parts := [⟨0, .v 0 5, 0x104, 4, true⟩, ⟨1, .v 1 5, 0x10C, 4, true⟩] }] }

/-- LoadLandings: the second element lands. -/
theorem witness_LoadLandings : let s := at0 teamL; let p : Part := ⟨1, .v 1 5, 0x10C, 4, true⟩
    SMap.find s.teams 0 = some teamL ∧ teamL.ops.find? (·.ident == 9) = teamL.ops.head? ∧
    (teamL.ops.head?.map (·.parts[1]?)) = some (some p) ∧ teamL.landsAfter 9 1 p = false ∧ s.mortar = [] ∧
    s.writes.any (·.team == 0) = false ∧ s.mortarIn.any (·.team == 0) = false ∧ teamL.staged = [] ∧ s.poisonAt 0x100 = 0 ∧ p.key % p.size = 0 ∧ 0 < p.size ∧ p.size ∣ 64 := by
  decide +kernel

/-- ArrivalWaits: a counter that has just reached its target of 0, and one that has it before it. -/
theorem witness_ArrivalWaits : let f := tf (.v 0) (.a 3) (.v 0) (.v 0); let g := tf (.v 0) (.a 3) (.v 0) (.v 1)
    AtIssue base 0 team0 ∧ ((team0.getA (counterOf f.a)) - BitVec.ofNat 8 f.c.code).toNat = 0 ∧
    ((team0.getA (counterOf g.a)) - BitVec.ofNat 8 g.c.code).toNat = 255 := by
  simp only [AtIssue]; decide +kernel

/-- LaneStores. -/
theorem witness_LaneStores :
    AtIssue base 0 team0 ∧ team0.FirstIssue ∧ team0.UnitsIssued ∧ UnitRoom base team0 ∧
    Unpoisoned team0 (mf).km (dataUses (mf).ty 2 (mf).d ++ [addrUse (mf).a]) ∧
    AllMapped (mf) base 0 team0 2 { w := true } key0 ∧ (base.core team0.core).log.length ≤ 256 := by
  simp only [AtIssue, Team.FirstIssue, Team.UnitsIssued, UnitRoom, Unpoisoned, AllMapped, mapped_iff]; decide +kernel

/-- A state whose scratchpad line 3 is empty. -/
def lineEmpty : State := base.withAlloc 0 {} fun a => { a with empties := [2] }

/-- Scratchpad: lanes up to the last byte, lanes past it and misaligned ones, a load that waits, mem.fe. -/
theorem witness_Scratchpad : let f := mf
    let at_ (g : Nat → Nat) : Team := { team0 with v := (List.range 4).map fun l => (128 * l, BitVec.ofNat 32 (g l)) }
    let near := at_ fun l => 4088 - 8 * l; let mixed := at_ fun l => 4080 + 6 * l; let far := at_ fun l => 4096 + 8 * l
    let good (s : State) (t : Team) := (t.lanesOf f.km.val).filter (inScratch f s t)
    (∀ t ∈ [near, mixed, far], AtIssue (at0 t) 0 t ∧ Unpoisoned t f.km [(f.a, 1)] ∧
      Unpoisoned t f.km (dataUses f.ty 2 f.d ++ [(f.a, 1)]) ∧
      ∀ l ∈ good (at0 t) t, ((at0 t).allocOf t).full (t.laneWord l f.a) 8 = true ∧ ((at0 t).allocOf t).poisonIn (t.laneWord l f.a) 8 = 0) ∧
    (good (at0 near) near = [0, 1, 2, 3] ∧ good (at0 mixed) mixed = [0] ∧ good (at0 far) far = [] ∧
      (scratchFaults f (at0 mixed) mixed false).map (·.cause) = [.misalign, .scratch, .misalign]) ∧
    (AtIssue lineEmpty 0 team0 ∧ Unpoisoned team0 f.km [(f.a, 1)] ∧
      ∃ l ∈ good lineEmpty team0, (lineEmpty.allocOf team0).full (team0.laneWord l f.a) 8 = false) ∧
    ((mf 0).mod.toNat % 4 = 0 ∧ (mf 1).mod.toNat % 4 = 1 ∧ 2 ≤ (mf 2).mod.toNat % 4) := by
  simp only [AtIssue, Unpoisoned]; decide +kernel

/-- A state whose region is deterministic. -/
def certain (t : Team) : State := { at0 t with regions := [(0, { teams := 4, launches := [{}], det := true })] }

/-- Atomics: at device scope four lanes, at team scope one, and in a deterministic launch. -/
theorem witness_Atomics : let f := tf (.v 2) (.v 0) (.v 4) .zero (ty := .i32); let g := { f with mod := 8 }
    let t := { team0 with exm := 2 }; let key (l : Nat) := 0x100 + 8 * l
    (AtIssue base 0 team0 ∧ team0.FirstIssue ∧ Unpoisoned team0 f.km (atomUses f) ∧ base.mortar = [] ∧ base.mortarIn = [] ∧
      AllMapped f base 0 team0 1 { w := true, use := 5 } (fun l _ => key l) ∧
      (∀ l ∈ team0.lanesOf f.km.val, base.poisonAt (key l) = 0) ∧ (!f.mod.getLsbD 3) = true ∧ base.detOf team0 = false) ∧
    (AtIssue (certain team0) 0 team0 ∧ (certain team0).detOf team0 = true ∧ UnitRoom (certain team0) team0 ∧
      team0.lanesOf f.km.val ≠ [] ∧ ∀ l ∈ team0.lanesOf f.km.val, (team0.laneAddr l f.a).toNat % tyBytes f.ty = 0) ∧
    (∀ s ∈ [at0 t, certain t], AtIssue s 0 t ∧ t.FirstIssue ∧ Unpoisoned t g.km (atomUses g) ∧ s.mortar = [] ∧ s.mortarIn = [] ∧
      AllMapped g s 0 t 1 { w := true } (fun l _ => key l) ∧ (!g.mod.getLsbD 3) = false ∧ t.lanesOf g.km.val = [1] ∧
      s.poisonAt (key 1) = 0 ∧ s.rangeLanded 0 (key 1) 4 = true ∧ s.writes.any (·.team == 0) = false ∧
      t.staged = [] ∧ s.poisonAt (key 1 / 64 * 64) = 0 ∧ key 1 % 4 = 0 ∧
      (s.core t.core).cache.any (·.key == key 1 / 64 * 64) = false) := by
  simp only [AtIssue, Team.FirstIssue, Unpoisoned, AllMapped, mapped_iff, UnitRoom]; decide +kernel

/-- A state with a store of team 0 that waits for its slice, and one with a window. -/
def storing : State := { base with writes := [{ team := 0, unit := 1, path := 0, va := 0x40, key := 0x40, bytes := [1], asid := 0, group := 0 }] }
/-- A window of an address space. -/
def win0 (asid : Nat) : Window := { asid := asid, base := 0x1000, length := 0x1000, bar2 := 0, versionAt := 0x40, version := 7 }
/-- A state that has it. -/
def windowed (asid : Nat) : State := base.withHearth fun h => { h with windows := [(3, win0 asid)] }

/-- FencesAndPublication: a team that is quiet, one that is not, windows of its own and of another space, one that
is not defined, and one that a store of the team is still to reach. -/
theorem witness_FencesAndPublication : let f := tf (.s 5) (.s 3) (mod := 1)
    let busy := paged { windowed 0 with writes := [{ team := 0, unit := 1, path := 0, va := 0x1100, key := 0x1100, bytes := [1], asid := 0, group := 0 }] }
    (AtIssue base 0 team0 ∧ base.pathsQuiet 0 127 = true ∧ base.lanesQuiet 0 = true ∧ base.loadsQuiet 0 = true) ∧
    (AtIssue storing 0 team0 ∧ storing.lanesQuiet 0 = false ∧ f.mod.toNat / 4 % 4 ≠ 2 ∧ f.mod.toNat % 4 ≠ 0 ∧
      storing.pathsQuiet 0 1 = false) ∧
    (AtIssue (at0 teamL) 0 teamL ∧ (at0 teamL).loadsQuiet 0 = false ∧ f.mod.toNat / 4 % 4 ≠ 1) ∧
    (∀ s ∈ [base, windowed 0, windowed 1, busy], AtIssue s 0 team0 ∧ Readable team0 f.a ∧
      (team0.scalar (s.teamsOf team0) f.a).toNat = 3) ∧
    SMap.find base.hearth.windows 3 = none ∧ (∀ a ∈ [0, 1], SMap.find (windowed a).hearth.windows 3 = some (win0 a) ∧ (win0 a).asid = a) ∧
    (windowed 0).writesInto 0 (win0 0) = false ∧ busy.writesInto 0 (win0 0) = true ∧ SMap.find busy.hearth.windows 3 = some (win0 0) ∧
    64 ≤ (team0.scalar (base.teamsOf team0) (.s 0)).toNat := by
  simp only [AtIssue, readable_iff]; decide +kernel

/-- A table of one slot: STORE of a 32-bit integer (R210, R211). -/
def table0 : List Byte := [1, 1] ++ List.replicate 14 0 ++ [1] ++ List.replicate 383 0
/-- One that check 1 refuses. -/
def table1 : List Byte := List.replicate 400 0xFF
/-- It lies at 0x100. -/
def tabled (bs : List Byte) : State := { base with mem := writeBytes base.mem 0x100 bs }

/-- A team whose store of the first byte of the table is staged, and its state in a deterministic launch. -/
def teamStaged : Team := { team0 with staged := [.write { team := 0, unit := 1, path := 0, va := 0x100, key := 0x100, bytes := [1], asid := 0, group := 0 }] }
/-- The state, whose memory holds 0 there. -/
def stagedTable : State := { certain teamStaged with mem := writeBytes base.mem 0x100 (0 :: table0.drop 1), serial := 1 }

/-- The bytes of a table as the instruction reads them. -/
def tableBytes (s : State) : List Byte := (pagePieces 0x100 400).flatMap fun p => s.ownBytes 0 s.serial p.1 p.2

/-- OperatorTables: no table, a table that is bound, one whose first check fails, one whose first byte is staged. -/
theorem witness_OperatorTables :
    (AtIssue base 0 team0 ∧ (tf (.v 0) .zero).a = .zero) ∧
    (∀ bs ∈ [table0, table1], AtIssue (tabled bs) 0 team0 ∧ (tf (.v 0) (.s 0)).a = .s 0 ∧ Readable team0 (.s 0) ∧
      team0.scalar ((tabled bs).teamsOf team0) (.s 0) = 0x100 ∧ (tabled bs).mortar = [] ∧
      (tabled bs).mortarIn.any (·.team == 0) = false ∧
      ∀ p ∈ pagePieces 0x100 400, Mapped (tabled bs) 0 team0 (BitVec.ofNat 64 p.1) { r := true } p.1) ∧
    (AtIssue stagedTable 0 teamStaged ∧ Readable teamStaged (.s 0) ∧ teamStaged.scalar (stagedTable.teamsOf teamStaged) (.s 0) = 0x100 ∧
      stagedTable.mortar = [] ∧ stagedTable.mortarIn.any (·.team == 0) = false ∧
      ∀ p ∈ pagePieces 0x100 400, Mapped stagedTable 0 teamStaged (BitVec.ofNat 64 p.1) { r := true } p.1) ∧
    (optabFail (tableBytes (tabled table0)) = none ∧ (optabFail (tableBytes (tabled table1))).isSome = true ∧
      optabFail (tableBytes stagedTable) = none ∧ readBytes stagedTable.mem 0x100 1 = [0]) := by
  simp only [AtIssue, readable_iff, mapped_iff]
  refine ⟨?_, ?_, ?_, ?_⟩ <;> decide +kernel

/-- A team whose lanes name slot 0 of table 0, bound under version 1. -/
def teamM : Team := { team0 with v := (List.range 4).map fun l => (128 * l, BitVec.ofNat 32 (0x100 + 8 * l)) }
/-- Its state. -/
def bound : State := (at0 teamM).withSpace 0 fun sp => { sp with tables := [(1, table0)], bound := [(0, 1)] }

/-- The same of a deterministic launch. -/
def boundDet : State := (certain teamM).withSpace 0 fun sp => { sp with tables := [(1, table0)], bound := [(0, 1)] }

/-- MortarRequests: sent and staged. -/
theorem witness_MortarRequests : let f := tf (.v 2) (.v 0) (.v 4) (.v 6) (ty := .i8) (mod := 3); let key (l : Nat) := 0x100 + 8 * l
    (∀ s ∈ [bound, boundDet], AtIssue s 0 teamM ∧ teamM.FirstIssue ∧ teamM.UnitsIssued ∧ (∀ o ∈ teamM.ops, o.ident ≠ s.serial) ∧
      Unpoisoned teamM f.km [addrUse f.a, (f.c, 1)] ∧ ∀ l ∈ teamM.lanesOf f.km.val, SlotGood f s 0 teamM key l) ∧
    Holds bound teamM = false ∧ Holds boundDet teamM = true ∧ UnitRoom boundDet teamM ∧
    ∀ m ∈ (teamM.lanesOf f.km.val).map (laneOp f boundDet 0 teamM key), m.kind ≠ 0 := by
  simp only [AtIssue, Team.FirstIssue, Team.UnitsIssued, Unpoisoned, SlotGood, mapped_iff, UnitRoom]; decide +kernel

/-- An operation of the Mortar on a 32-bit integer. -/
def mop (kind fn : Nat) (value : Word) : MortarOp :=
  { team := 0, unit := 1, asid := 0, key := 0x104, size := 4, kind := kind, ty := 0, fn := fn, version := 1, value := value, op := 9 }

/-- MortarComposition: a STORE and a COMBINE before a COMBINE; the identity of ADD. -/
theorem witness_MortarComposition : let d := slotOf table0 0; let s := base.withSpace 0 fun sp => { sp with tables := [(1, table0)] }
    (∀ e ∈ [mop 1 0 5, mop 2 1 5], e.ty < 4 ∧ e.size = slotSize e.ty ∧ (e.kind = 1 ∨ e.kind = 2) ∧ e.fn ≤ 5 ∧
      (e.kind = 2 → (mop 2 1 0).fn = e.fn) ∧ 2 ^ 32 - 1 < 2 ^ (8 * e.size)) ∧
    ((mop 2 1 0).ty = (mop 1 0 5).ty ∧ (mop 2 1 0).kind = 2 ∧ (mop 2 1 0).fn ≤ 5 ∧ (mop 2 0 0).isIdentity = true) ∧
    (SMap.val (s.space 0).tables [] 1 = table0 ∧ d.1 = (mop 1 0 5).kind) := by
  decide +kernel

/-- MortarQueues: a STORE and a LOAD that arrive; a STORE that drains before a word beside it. -/
theorem witness_MortarQueues : let m := mop 1 0 5; let l := mop 0 0 0
    (∀ x ∈ [m, l], let s := { base with mortarIn := [x] }
      s.mortarIn[0]? = some x ∧ s.behindOwn 0 x = false ∧ s.mortarIn.eraseIdx 0 = [] ∧ entriesOf s.mortar x = [] ∧
        s.queueFull x.key = false) ∧
    (m.kind ≠ 0 ∧ l.kind = 0) ∧
    (let rest := [{ m with key := 0x108 }, { l with key := 0x108 }]; let s := { base with mortar := m :: rest }
     s.mortar = m :: rest ∧ m.gathers = false ∧ 0 < m.size ∧ ∀ e ∈ rest, meets e.key e.size m.key m.size = false) := by
  decide +kernel

/-- MortarQueues: a LOAD behind an entry of its word. -/
theorem witness_MortarQueues_loads : LoadsWait [{ mop 1 0 5 with key := 0x108 }, { mop 0 0 0 with key := 0x108 }] := by
  intro j e h hk
  rcases j with _ | _ | j <;> cases h
  · cases hk
  · decide

/-- SliceWrites: a write at the head of its path; host writes up to the end of their space and past it. -/
theorem witness_SliceWrites : let w : PendWrite := { team := 0, unit := 1, path := 0, va := 0x40, key := 0x40, bytes := [1], asid := 0, group := 0 }
    (storing.writes[0]? = some w ∧ storing.mustWait 0 w = false ∧ storing.mortar = [] ∧ expanderOf w.key = none) ∧
    2 ^ 39 - 1 + ([1] : List Byte).length ≤ 2 ^ 39 ∧ 2 ^ 39 < 2 ^ 39 - 1 + ([1, 2] : List Byte).length := by decide +kernel

/-- A team with operands of copies: one row, or one line, at offset 0x80; member 1 of a collective. -/
def teamK : Team := ((team0.setS 10 0x1_0000_0080).setS 11 0x80_0000_0080).setS 12 0x1_0101

/-- CopyInstructions: each with the operands it takes, with and without lanes, of no byte; a handle that is complete
and one that is not; a team of a deterministic launch. -/
theorem witness_CopyInstructions : let s := at0 teamK; let t := teamK; let v := t.scalar (s.teamsOf t)
    let f := tf (.s 5) (.s 0) (.s 10) (.s 0); let p := tf (.s 5) (.s 0) (.s 11) (.s 12); let e := tf (.s 5) (.s 0) (.s 5) (.s 12)
    let z := { teamK with exm := 0 }
    let copying : State := { s with copies := [(9, { copyOf 0 t 2 p with runs := [(0x100, 0x80, 128)] })] }
    (∀ s ∈ [at0 t, certain t], AtIssue s 0 t ∧ t.FirstIssue ∧ t.UnitsIssued ∧ UnitRoom s t ∧ (s.copiesOf 0).length < 16 ∧
      s.countPairs t.core t.asid t.timeline t.holds = some s) ∧ Holds (at0 t) t = false ∧ Holds (certain t) t = true ∧
    (Readable t f.a ∧ Readable t f.b ∧ Readable t f.c ∧ (t.lanesOf 0).isEmpty = false ∧ (v f.a).toNat % 128 = 0 ∧
      CopyRange s t (copyOff (v f.b)) (copySize (v f.b) 128) ∧ copySize (v f.b) 128 ≠ 0 ∧ s.filling t 128 128 = false) ∧
    (AtIssue (at0 z) 0 z ∧ (z.lanesOf 0).isEmpty = true) ∧
    (Readable t p.b ∧ CopyRange s t (copyOff (v p.b)) (copySize (v p.b) 1) ∧ copySize (v p.b) 1 ≠ 0) ∧
    (Readable t e.b ∧ CopyRange s t (copyOff (v e.b)) (copySize (v e.b) 1) ∧ copySize (v e.b) 1 = 0) ∧
    (Readable t p.c ∧ (v p.c).toNat / 2 ^ 11 % 2 ^ 5 = 0 ∧ s.filling t 128 (copySize (v p.b) 1) = false ∧
      (s.core t.core).colls.length < 16 ∧
      ∀ k ∈ (s.core t.core).colls, joins t 1 3 k = true → k.slices.any (·.idx == 1) = false) ∧
    (s.copyDone 0 true 0 = true ∧ copying.copyDone 0 true 0 = false ∧ AtIssue copying 0 t ∧ Readable t (bf (.s 1)).d) := by
  simp only [AtIssue, Team.FirstIssue, Team.UnitsIssued, UnitRoom, CopyRange, readable_iff]; decide +kernel

/-- A copy of one line between 0x100 and offset 0x80. -/
def copy0 (kind : Nat) (runs : List (Word × Nat × Nat)) : Copy :=
  { team := 0, handles := [(0, 1)], kind := kind, core := 0, launch := {}, asid := 0, timeline := 0, order := 9, runs := runs }
/-- A state that holds it. -/
def copying (c : Copy) : State := paged { base with copies := [(9, c)] }
/-- What an access of a copy answers, and the state after it. -/
def keysOf (c : Copy) (s : State) (a : Word) (n : Nat) (need : Need) : List (Word × Nat × Nat) × State :=
  let r := Act.go (c.keys a n need) s
  (match r.1 with | .ok ks => ks | _ => [], r.2)

/-- CopyMovement, the pieces: of a slice, of a gather, of a put and of a command. -/
theorem witness_CopyMovement_pieces : let run := (0x100, 0x80, 128)
    (∀ kind ∈ [0, 1, 2, 3], let c := { copy0 kind [run] with dst := 0x200 }; let s := copying c
      SMap.find s.copies 9 = some c ∧ s.mortar = [] ∧ s.copyMoves 9 c = true ∧ takeChunk c.runs 0 = some (run, []) ∧
      s.sourceUnread c 0x80 128 = false) ∧
    (∀ kind ∈ [0, 1, 3], let c := { copy0 kind [run] with dst := 0x200 }; let r := keysOf c (copying c) 0x100 128 { r := true }
      Act.go (c.keys 0x100 128 { r := true }) (copying c) = (.ok r.1, r.2) ∧ r.1 ≠ [] ∧
      ∀ k ∈ r.1, r.2.poisonAt (k.2.1 / 8 * 8) = 0 ∧ r.2.poisonAt k.2.1 = 0) ∧
    (let c := copy0 2 [run]; let r := keysOf c (copying c) 0x100 128 { w := true }
     Act.go (c.keys 0x100 128 { w := true }) (copying c) = (.ok r.1, r.2) ∧
      (((copying c).core 0).allocs.find? fun al => decide (al.launch = c.launch)).map
        (fun al => ((linesOf 0x80 128).all fun l => (copying c).lineReadable c al l) && al.poisonIn 0x80 128 == 0) = some true) ∧
    (let c := { copy0 3 [run] with dst := 0x200 }; let r := keysOf c (copying c) 0x100 128 { r := true }
     let d := keysOf c r.2 (after c.dst 0x80) 128 { w := true }
     Act.go (c.keys (after c.dst 0x80) 128 { w := true }) r.2 = (.ok d.1, d.2) ∧ d.1 ≠ []) := by
  simp only [go_iff]
  refine ⟨?_, ?_, ?_, ?_⟩ <;> decide +kernel

/-- A copy of a team of a deterministic launch whose store of the source's first byte is staged (teamStaged). -/
def copyingDet (c : Copy) : State := paged { stagedTable with copies := [(9, c)] }

/-- CopyMovement, a piece of a slice and of a gather of a deterministic launch: the staged byte is found. -/
theorem witness_CopyMovement_staged : ∀ kind ∈ [0, 1], let run := (0x100, 0x80, 128); let c := { copy0 kind [run] with dst := 0x200 }
    let s := copyingDet c; let r := keysOf c s 0x100 128 { r := true }
    SMap.find s.copies 9 = some c ∧ s.mortar = [] ∧ s.copyMoves 9 c = true ∧ s.detOf teamStaged = true ∧ s.sourceUnread c 0x80 128 = false ∧
    Act.go (c.keys 0x100 128 { r := true }) s = (.ok r.1, r.2) ∧ r.1 ≠ [] ∧
    (∀ k ∈ r.1, r.2.poisonAt (k.2.1 / 8 * 8) = 0 ∧ r.2.poisonAt k.2.1 = 0) ∧
    ((r.1.flatMap (copyBytes r.2 c)).head? = some 1 ∧ readBytes s.mem 0x100 1 = [0]) := by
  simp only [go_iff]; decide +kernel

/-- CopyMovement, the rest: the index of a row, a copy all of which has moved with and without a completion word,
one at a boundary whose team runs and one whose team has ended. -/
theorem witness_CopyMovement : let ended := copy0 1 []; let rowed := { copy0 1 [] with rows := [(0x100, 0x80, 128)] }
    let worded := { copy0 3 [] with done := 0x208 }; let turn := { ended with restamp := true }
    (SMap.find (copying rowed).copies 9 = some rowed ∧ (copying rowed).copyMoves 9 rowed = true ∧
      rowed.rows[0]? = some (0x100, 0x80, 128) ∧
      (let r := keysOf rowed (copying rowed) 0x100 4 { r := true }
       Act.go (rowed.keys 0x100 4 { r := true }) (copying rowed) = (.ok r.1, r.2) ∧ r.1 ≠ [] ∧
        ∀ k ∈ r.1, r.2.poisonAt (k.2.1 / 8 * 8) = 0)) ∧
    (∀ c ∈ [ended, worded], c.held = false ∧ (copying c).copyMoves 9 c = true ∧ (copying c).copySettled 9 c = true) ∧
    (ended.done = 0 ∧ worded.done ≠ 0 ∧ worded.done.toNat % 4096 ≤ 4088 ∧
      (let r := Act.go (worded.reach worded.done { r := true, w := true }) (copying worded)
       Act.go (worded.reach worded.done { r := true, w := true }) (copying worded) = (.ok 0x208, r.2) ∧
        r.2.copyBehind worded [(0x208, 8)] = false)) ∧
    (turn.restamp = true ∧ ((copying turn).team turn.team).place ≠ .ended ∧
      (copying turn).countPairs (turn.core % 160) turn.asid turn.timeline ((copying turn).team turn.team).holds = some (copying turn)) ∧
    ({ copying turn with teams := [(0, { team0 with place := .ended })] }.team turn.team).place = .ended := by
  simp only [go_iff]
  refine ⟨?_, ?_, ?_, ?_, ?_⟩ <;> decide +kernel

/-- A block of team 0 that runs. -/
def block0 : SillBlock := { grid := 0, index := 0, team := 0, asid := 0, timeline := 0, gen := 0, prog := [], affinity := 0, split := 16 }
/-- Team 0 with Q3 bound to unit 7 and with values for q.bind, and its state with words in the unit's queues. -/
def teamE (x : Word) : Team := { (team0.setS 10 x) with q := [(3, ⟨3, 7, []⟩)] }
/-- The state. -/
def queued (x : Word) (inq outq : Nat) : State :=
  { at0 (teamE x) with
    sills := [(7, { running := some block0, inq := List.replicate inq 5, outq := List.replicate outq 6 })]
    rings := [(2, { asid := 0, desc := 0x80, key := 0x80, core := 0, launch := {}, line := 0, slotSize := 8, slots := 16, head := 0,
                    tail := 0, loc := 1, timeline := 0 })] }

/-- QueueInstructions: the kinds of endpoint, a ring, an endpoint of no kind. -/
theorem witness_QueueInstructions_bind : ∀ n ∈ [0x1000_0000_0000_0017, 0x2000_0000_0000_0000, 0x3000_0000_0000_01FF,
      0x5000_0000_0000_0FFF, 0x4000_0000_0000_0080, 0x6000_0000_0000_0000, 0x01FF_FFFF_FFFF_FFFF], let x : Word := BitVec.ofNat 64 n
    AtIssue (queued x 0 0) 0 (teamE x) ∧ (teamE x).FirstIssue ∧ Unpoisoned (teamE x) 0 [(.s 10, 2)] ∧
    Readable (teamE x) (.s 10) ∧ Readable (teamE x) (.v 0) ∧ queueOf (.q 4) = 4 ∧ (teamE x).bound 4 = none ∧
    (teamE x).scalar ((queued x 0 0).teamsOf (teamE x)) (.s 10) = x ∧
    ((queued x 0 0).ringAt 0 0x80).map (clusterOf ·.2.core) = some (clusterOf (teamE x).core) := by
  simp only [AtIssue, Team.FirstIssue, Unpoisoned, readable_iff]; decide +kernel

/-- QueueInstructions: pushes of a word and of four lanes' words, with room for both, and with none. -/
theorem witness_QueueInstructions_put : ∀ n ∈ [12, 16],
    AtIssue (queued 0 n 0) 0 (teamE 0) ∧ (teamE 0).FirstIssue ∧ (teamE 0).bound 3 = some { kind := 3, ident := 7 } ∧
    Unpoisoned (teamE 0) 0 [(.s 2, 2)] ∧ Unpoisoned (teamE 0) 0 [(.v 0, 2)] ∧ Readable (teamE 0) (.s 2) ∧ Readable (teamE 0) (.v 0) ∧
    queueOf (.q 3) = 3 ∧ (queued 0 n 0).sillMine 7 0 = true ∧ ((teamE 0).lanesOf 0).length = 4 ∧ ((queued 0 n 0).sill 7).inq.length = n := by
  simp only [AtIssue, Team.FirstIssue, Unpoisoned, readable_iff]; decide +kernel

/-- QueueInstructions: pops where no word, one and four stand; q.try with a push and a pop; no lanes, and no binding. -/
theorem witness_QueueInstructions_take : let z := { teamE 0 with exm := 0 }
    (∀ n ∈ [0, 1, 4, 16], AtIssue (queued 0 n n) 0 (teamE 0) ∧ (teamE 0).FirstIssue ∧ Unpoisoned (teamE 0) 0 [(.q 3, 2)] ∧
      Readable (teamE 0) (.s 1) ∧ (teamE 0).bound 3 = some { kind := 3, ident := 7 } ∧ (teamE 0).lanesOf 0 ≠ [] ∧
      ((queued 0 n n).sillWords 7 0).length = n ∧ (queued 0 n n).sillMine 7 0 = true ∧ ((queued 0 n n).sill 7).inq.length = n) ∧
    ((tf (.s 5) (.q 3) (.s 1) (mod := 1)).mod.getLsbD 0 = true ∧ (tf (.s 5) (.q 3)).mod.getLsbD 0 = false) ∧
    (AtIssue (at0 z) 0 z ∧ z.FirstIssue ∧ Unpoisoned z 0 [(.s 2, 2)] ∧ Readable z (.s 2) ∧ z.lanesOf 0 = [] ∧ z.bound 4 = none ∧
      Unpoisoned z 0 [(.q 4, 2)] ∧ queueOf (.q 4) = 4) := by
  simp only [AtIssue, Team.FirstIssue, Unpoisoned, readable_iff]
  refine ⟨?_, ?_, ?_⟩ <;> decide +kernel

/-- A team at time 5 in region 1 of time, that holds location 3 there, and its space with the count. -/
def teamT : Team :=
  { team0 with desc := { team0.desc with tdepth := 3 }, now := [1, 5], holds := [{ loc := 3, stamp := [1, 5] }],
               s := [(0, 3), (1, 7), (2, 0x5_0000_0001), (4, 4), (6, 0xFFFF_FFFB), (8, 8)] }
/-- A space where location 3 reaches 4, with counts at 3 and 8 and a −1 owed at 8. -/
def space0 : Space :=
  { reach := [⟨3, 3, []⟩, ⟨4, 3, []⟩], counts := [⟨0, 3, [1, 5], 1⟩, ⟨0, 8, [1, 5], 1⟩], retires := [⟨0, 8, [1, 5], 1, .drained 0 0 0⟩] }
/-- Its state. -/
def timed (t : Team) : State := { at0 t with spaces := [(0, space0)] }

/-- LogicalTime: the moves, and where they stop. -/
theorem witness_LogicalTime_moves : let s := timed teamT; let f := tf (.s 1) .zero; let g := tf (.s 6) .zero
    let top := { teamT with now := [5] }; let deep := { teamT with now := [1, 2, 5] }
    (AtIssue s 0 teamT ∧ Readable teamT f.d ∧ teamT.scalar (s.teamsOf teamT) (.s 5) = 0 ∧
      (moves s teamT f).map (fun m => (m.2.1, m.2.2.2)) = [(true, 3), (true, 4), (true, 5)] ∧
      ∀ m ∈ moves s teamT f, MovesFreely teamT m.2.2.1 ∧ (countedAt s teamT m.2.2.1).isSome = true) ∧
    ((moves s teamT g).map (fun m => m.2.1) = [false, true, true] ∧ (moves (timed top) top f).map (·.2.1) = [true, true, false] ∧
      (moves (timed deep) deep f).map (·.2.1) = [true, false, true]) ∧
    (AtIssue (timed top) 0 top ∧ AtIssue (timed deep) 0 deep ∧ Readable teamT g.d) := by
  simp only [AtIssue, MovesFreely, readable_iff]; decide +kernel

/-- LogicalTime: a pair held, one covered and not held, ones not covered whose frontier has and has not passed;
a count that is due, and a location announced. -/
theorem witness_LogicalTime : let s := timed teamT; let sp := s.space 0; let now := timeOf teamT .zero 0
    let loc (n : Fin 64) := (teamT.scalar (s.teamsOf teamT) (.s n)).toNat
    let has (l : Nat) (st : Stamp) := teamT.holds.any fun h => h.loc == l && h.stamp == st
    (AtIssue s 0 teamT ∧ (∀ n ∈ [(0 : Fin 64), 1, 4, 8], Readable teamT (.s n) ∧ PairGood teamT (loc n) now) ∧
      ReadableFrom teamT .zero 2 ∧ timeOf teamT (.s 2) 1 = [1, 5]) ∧
    (teamT.covers sp (loc 0) now = true ∧ has (loc 0) now = true ∧
      (teamT.holds.find? fun h => h.loc == loc 0 && h.stamp == now && !h.task) = teamT.holds.head?) ∧
    (teamT.covers sp (loc 4) now = true ∧ has (loc 4) now = false ∧ teamT.holds.length < 16 ∧
      (s.addCount (some 0) 0 0 (loc 4) now).isSome = true) ∧
    (let full := { teamT with holds := (List.range 16).map fun k => { loc := 3, stamp := [1, 5 + k] } }
     AtIssue (timed full) 0 full ∧ full.covers ((timed full).space 0) 4 now = true ∧ 16 ≤ full.holds.length ∧
      (full.holds.any fun h => h.loc == 4 && h.stamp == now) = false) ∧
    (∀ n ∈ [1, 8], teamT.covers sp (loc n) now = false ∧ has (loc n) now = false ∧
      passedBy (s.heardAt teamT.core 0 (loc n)) now = decide (n = 1)) ∧
    ((tf (.s 5) .zero).mod.getLsbD 2 = false ∧ (tf (.s 5) .zero (mod := 4)).mod.getLsbD 2 = true) ∧
    (s.owing[0]? = some (0, 0, ⟨0, 8, [1, 5], 1, .drained 0 0 0⟩) ∧ s.due (.drained 0 0 0) = true) ∧
    (SMap.find s.spaces 0 = some sp ∧ 159 < 160 ∧ 4095 < 4096) := by
  simp only [AtIssue, PairGood, ReadableFrom, readable_iff]; decide +kernel

/-- A team with a record area for its tasks, gathered from two tasks. -/
def teamG : Team :=
  { teamT with origin := 1, lanes := 2, tasks := [⟨[1, 2, 3, 4], 0, 0⟩, ⟨[5, 6, 7, 8], 0, 0⟩], s := [(0, 3), (1, 1), (4, 0x80), (5, 2)] }
/-- A ring at 0x80 whose slots are 16 bytes, with some taken. -/
def ring0 (n : Nat) : Ring :=
  { asid := 0, desc := 0x80, key := 0x80, core := 0, launch := {}, line := 0, slotSize := 16, slots := 2, head := 0, tail := BitVec.ofNat 32 n,
    loc := 3, queue := List.replicate n { bytes := List.replicate 16 7, stamp := [1, 5], timeline := 0, eos := true, producer := 0, drain := 0 }, timeline := 0 }
/-- The state with that ring. -/
def ringed (t : Team) (n : Nat) (det : Bool := false) : State :=
  { timed t with rings := [(6, ring0 n)], regions := [(0, { teams := 1, det := det, launches := [{ started := 1 }] })] }

/-- TasksAndRings, tk.push and tk.args. -/
theorem witness_TasksAndRings_push : let s := ringed teamG 0; let f := tf (.s 4) (.s 0) .zero .zero; let k := taskOf s 0 teamG f
    (AtIssue s 0 teamG ∧ teamG.FirstIssue ∧ teamG.UnitsIssued ∧ UnitRoom s teamG ∧ Readable teamG f.d ∧ Readable teamG f.a ∧
      f.b = .zero ∧ ReadableFrom teamG .zero 4 ∧ f.c = .zero ∧ ReadableFrom teamG .zero 2 ∧ k.desc % 128 = 0 ∧ PairGood teamG k.loc k.stamp ∧
      teamG.covers (s.space 0) k.loc k.stamp = true ∧ Holds s teamG = false ∧ s.gatherRoom 0 = true ∧
      (s.addCount (some 0) 0 0 k.loc k.stamp).isSome = true) ∧
    (Holds (ringed teamG 0 true) teamG = true ∧ AtIssue (ringed teamG 0 true) 0 teamG ∧ UnitRoom (ringed teamG 0 true) teamG) ∧
    ((tf (.s 4) (.s 1)).mod.getLsbD 0 = false ∧ (tf (.s 4) (.s 1) (mod := 1)).mod.getLsbD 0 = true ∧ Readable teamG (.s 1)) := by
  simp only [AtIssue, Team.FirstIssue, Team.UnitsIssued, UnitRoom, PairGood, ReadableFrom, readable_iff]; decide +kernel

/-- TasksAndRings, the rings: no slot taken, one, both; a deterministic team; a line of the scratchpad as data. -/
theorem witness_TasksAndRings_ring : let f := tf (.s 4) (.s 4) .zero (mod := 2); let g := tf (.s 8) (.s 4) (.s 4)
    (∀ n ∈ [0, 1, 2], ∀ det ∈ [false, true], let s := ringed teamG n det
      AtIssue s 0 teamG ∧ SMap.find s.rings 6 = some (ring0 n) ∧ Readable teamG f.d ∧ Readable teamG f.a ∧
      (teamG.scalar (s.teamsOf teamG) f.d).toNat % 32 = 0 ∧ s.ringAt 0 (teamG.scalar (s.teamsOf teamG) f.d) = some (6, ring0 n) ∧
      clusterOf (ring0 n).core = clusterOf teamG.core ∧ teamG.covers (s.space 0) (ring0 n).loc teamG.now = true ∧
      SlotRange s teamG (teamG.scalar (s.teamsOf teamG) f.a).toNat (ring0 n).slotSize ∧
      (s.addCount (some 0) 0 0 (ring0 n).loc teamG.now).isSome = true ∧ Holds s teamG = det ∧ (ring0 n).queue.length = n ∧
      (ring0 n).slots = 2) ∧
    (let s := ringed teamG 1
     Readable teamG g.b ∧ g.b ≠ .zero ∧ (teamG.scalar (s.teamsOf teamG) g.b).toNat % 16 = 0 ∧
      (teamG.scalar (s.teamsOf teamG) g.b).toNat + (ring0 1).slotSize ≤ s.scratchOf teamG ∧ (ring0 1).core = teamG.core ∧
      (s.team 0).covered 0 = true) := by
  simp only [AtIssue, SlotRange, readable_iff]; decide +kernel

/-- TasksAndRings, the gatherer: a task to accept, and a group whose time has come. -/
theorem witness_TasksAndRings_gather : let k := taskOf (ringed teamG 0) 0 teamG (tf (.s 4) (.s 0) .zero .zero)
    let s := { ringed teamG 0 with pushed := [(0, k)] }; let s2 := { ringed teamG 0 with tasks := [(0, k)] }
    (s.pushed[0]? = some (0, k) ∧ s.acceptable 0 k = true) ∧
    (s2.tasks[0]? = some (0, k) ∧ 7 ∈ coresOf 0 ∧ (s2.region k.launch.region).det = false) ∧
    (let s3 := { ringed teamG 0 true with tasks := [(0, k)], teams := [] }
     s3.tasks[0]? = some (0, k) ∧ (s3.region 0).det = true ∧ s3.pushersDone k.launch = true) := by decide +kernel

/-- A team at a time, with a queue register on each kind of endpoint, and on those whose next word completes. -/
def teamU : Team :=
  { teamT with q := [(1, ⟨1, 0, []⟩), (2, ⟨2, 0, []⟩), (4, ⟨4, 0x80, []⟩), (5, ⟨5, 3, []⟩), (6, ⟨1, 0, [0x100, 0x200, 64]⟩),
                     (7, ⟨5, 3, [0x80, 1, 2, 3]⟩)] }
/-- A word of the matrix stream: mx.azero, and mx.take. -/
def mxWords : List Word := [encodeCore (.mxAzero (tf (.v 0) (.v 0) (ty := .i8))), encodeCore (.mxTake (tf (.v 0) (.v 0) (ty := .i8)))]
/-- An action answers and leaves the state as it is. -/
def plain {α : Type} (m : Act α) (s : State) : Bool := match Act.go m s with | (.ok _, r) => decide (r = s) | _ => false
/-- What that says. -/
theorem plain_iff {α : Type} {m : Act α} {s : State} : (∃ a, Act.go m s = (.ok a, s)) ↔ plain m s = true := by
  unfold plain
  constructor
  · rintro ⟨a, h⟩; simp [h]
  · intro h
    split at h
    · rename_i a r hg; exact ⟨a, by rw [hg, of_decide_eq_true h]⟩
    · cases h

/-- Its units are those issued so far. -/
theorem teamU_issued : teamU.UnitsIssued := by simp only [Team.UnitsIssued]; decide +kernel
/-- A run that answers. -/
theorem run_ok {r : Except Stop Unit × State} (h : (match r.1 with | .ok _ => true | _ => false) = true) : r = (.ok (), r.2) := by
  obtain ⟨x, s⟩ := r
  cases x with
  | ok => rfl
  | error => cases h
/-- A run that blocks. -/
theorem run_block {r : Except Stop Unit × State} (h : (match r.1 with | .error (.block _) => true | _ => false) = true) :
    ∃ k, r = (.error (.block k), r.2) := by
  obtain ⟨x, s⟩ := r
  cases x with
  | ok => cases h
  | error e => cases e with
    | block k => exact ⟨k, rfl⟩
    | _ => cases h

/-- QueueInstructions: a word that a copy engine keeps, and one that completes a command. -/
theorem witness_QueueInstructions_copy : let s := ringed teamU 0
    (∃ s', Pushes s 0 1 5 s') ∧ (∃ s', Pushes s 0 6 0x300 s') ∧ (∃ s', Pushes (ringed teamU 0 true) 0 6 0x300 s') := by
  have h : (ringed teamU 0).countPairs 0 0 0 teamU.holds =
      some (((ringed teamU 0).countPairs 0 0 0 teamU.holds).getD State.reset) := by decide +kernel
  have h' : (ringed teamU 0 true).countPairs 0 0 0 teamU.holds =
      some (((ringed teamU 0 true).countPairs 0 0 0 teamU.holds).getD State.reset) := by decide +kernel
  refine ⟨⟨_, teamU, ⟨1, 0, []⟩, by decide +kernel, by decide +kernel, by decide +kernel, .inl ⟨rfl, .inl ⟨by decide, rfl⟩⟩⟩,
    ⟨_, teamU, ⟨1, 0, [0x100, 0x200, 64]⟩, by decide +kernel, by decide +kernel, by decide +kernel,
      .inl ⟨rfl, .inr ⟨0x100, 0x200, 64, _, rfl, teamU_issued, fun _ => by decide +kernel, h, rfl⟩⟩⟩,
    ⟨_, teamU, ⟨1, 0, [0x100, 0x200, 64]⟩, by decide +kernel, by decide +kernel, by decide +kernel,
      .inl ⟨rfl, .inr ⟨0x100, 0x200, 64, _, rfl, teamU_issued, fun _ => by decide +kernel, h', rfl⟩⟩⟩⟩

/-- A state whose matrix stream holds `n` words, with the Latchkey held by a team. -/
def streamed (n key : Nat) : State :=
  let w (x : Word) : MxWord := { word := x, clause := 0x1000, index := 0 }
  let t := { teamU with wantsKey := true, mxq := List.replicate n (w (mxWords.getD 1 0)) }
  (ringed t 0).withCore 0 fun c => { c with latch := .held key }

/-- The same of the matrix stream: a word that is executed at once, one that waits, one behind others. -/
theorem witness_QueueInstructions_matrix :
    (∃ s', Pushes (streamed 0 0) 0 2 (mxWords.getD 0 0) s') ∧ (∃ s', Pushes (streamed 0 1) 0 2 (mxWords.getD 1 0) s') ∧
    (∃ s', Pushes (streamed 31 1) 0 2 (mxWords.getD 0 0) s') := by
  refine ⟨?_, ?_, ?_⟩
  · obtain ⟨a, ha⟩ := (plain_iff (m := mxWord (mxWords.getD 0 0)) (s := streamed 0 0)).mpr (by decide +kernel)
    exact ⟨_, _, ⟨2, 0, []⟩, rfl, by decide +kernel, by decide +kernel, .inr (.inl ⟨rfl, a, ha, by decide +kernel,
      .inr ⟨rfl, .inl (run_ok (by decide +kernel))⟩⟩)⟩
  · obtain ⟨a, ha⟩ := (plain_iff (m := mxWord (mxWords.getD 1 0)) (s := streamed 0 1)).mpr (by decide +kernel)
    have ⟨k, hk⟩ := run_block (r := (streamed 0 1).mxRun 0 { word := mxWords.getD 1 0, clause := 0x1000, index := 0 }) (by decide +kernel)
    exact ⟨_, _, ⟨2, 0, []⟩, rfl, by decide +kernel, by decide +kernel, .inr (.inl ⟨rfl, a, ha, by decide +kernel,
      .inr ⟨rfl, .inr ⟨k, _, hk, rfl⟩⟩⟩)⟩
  · obtain ⟨a, ha⟩ := (plain_iff (m := mxWord (mxWords.getD 0 0)) (s := streamed 31 1)).mpr (by decide +kernel)
    exact ⟨_, _, ⟨2, 0, []⟩, rfl, by decide +kernel, by decide +kernel, .inr (.inl ⟨rfl, a, ha, by decide +kernel,
      .inl ⟨by decide +kernel, rfl⟩⟩)⟩

/-- The same of a Sill unit, of four lanes' words, of a ring and of a location. -/
theorem witness_QueueInstructions_pushes : let v (n : Nat) : Word := BitVec.ofNat 64 n
    (∃ s', Pushes (queued 0 15 0) 0 3 5 s') ∧ (∃ s', PushesAll 0 3 [1, 2] (queued 0 14 0) s') ∧
    (∃ s', Pushes (ringed teamU 1) 0 4 5 s') ∧ (∃ s', Pushes (ringed teamU 2 true) 0 4 5 s') ∧
    (∃ s', Pushes (ringed teamU 0) 0 5 5 s') ∧ (∃ s', Pushes (ringed teamU 0) 0 7 (v 4) s') ∧
    (∃ s', Pushes (ringed teamU 0 true) 0 7 (v 4) s') := by
  have got (o : Option State) (h : o.isSome = true) : o = some (o.getD State.reset) := by cases o <;> simp_all
  refine ⟨⟨_, teamE 0, ⟨3, 7, []⟩, by decide +kernel, by decide +kernel, by decide +kernel, .inr (.inr (.inl ⟨rfl, rfl⟩))⟩,
    ⟨_, _, ⟨teamE 0, ⟨3, 7, []⟩, by decide +kernel, by decide +kernel, by decide +kernel, .inr (.inr (.inl ⟨rfl, rfl⟩))⟩,
      _, ⟨teamE 0, ⟨3, 7, []⟩, by decide +kernel, by decide +kernel, by decide +kernel, .inr (.inr (.inl ⟨rfl, rfl⟩))⟩, rfl⟩,
    ⟨_, teamU, ⟨4, 0x80, []⟩, by decide +kernel, by decide +kernel, by decide +kernel, .inr (.inr (.inr (.inl ⟨rfl, 6, ring0 1, _,
      by decide +kernel, by decide +kernel, rfl, by decide +kernel, got _ (by decide +kernel), rfl⟩)))⟩,
    ⟨_, teamU, ⟨4, 0x80, []⟩, by decide +kernel, by decide +kernel, by decide +kernel, .inr (.inr (.inr (.inl ⟨rfl, 6, ring0 2, _,
      by decide +kernel, by decide +kernel, rfl, by decide +kernel, got _ (by decide +kernel), rfl⟩)))⟩,
    ⟨_, teamU, ⟨5, 3, []⟩, by decide +kernel, by decide +kernel, by decide +kernel, .inr (.inr (.inr (.inr ⟨rfl, .inl ⟨by decide, rfl⟩⟩)))⟩,
    ⟨_, teamU, ⟨5, 3, [0x80, 1, 2, 3]⟩, by decide +kernel, by decide +kernel, by decide +kernel, .inr (.inr (.inr (.inr ⟨rfl,
      .inr ⟨0x80, 1, 2, 3, _, rfl, teamU_issued, fun h => by revert h; decide +kernel, by decide, by decide, by decide +kernel, by decide +kernel,
        fun _ => by decide +kernel, got _ (by decide +kernel), rfl⟩⟩)))⟩,
    ⟨_, teamU, ⟨5, 3, [0x80, 1, 2, 3]⟩, by decide +kernel, by decide +kernel, by decide +kernel, .inr (.inr (.inr (.inr ⟨rfl,
      .inr ⟨0x80, 1, 2, 3, _, rfl, teamU_issued, fun _ => by decide +kernel, by decide, by decide, by decide +kernel, by decide +kernel,
        fun h => by revert h; decide +kernel, got _ (by decide +kernel), rfl⟩⟩)))⟩⟩

/-- QueueInstructions: a ring's head slot, an empty ring, and the kinds that cannot be popped. -/
theorem witness_QueueInstructions_pop : let b (k : Nat) (i : Nat) : QBind := ⟨k, i, []⟩
    (∃ w s', PopsRing (ringed teamU 1) 0 teamU (b 4 0x80) w s') ∧
    (AtIssue (ringed teamU 1) 0 teamU ∧ teamU.FirstIssue ∧ Unpoisoned teamU 0 [(.q 4, 2)] ∧ queueOf (.q 4) = 4 ∧
      teamU.bound 4 = some (b 4 0x80) ∧ teamU.lanesOf 0 ≠ []) ∧
    ((ringed teamU 0).ringAt 0 0x80 = some (6, ring0 0) ∧ SMap.find (ringed teamU 0).rings 6 = some (ring0 0) ∧ (ring0 0).core = 0 ∧
      (ring0 0).queue = []) ∧
    (∀ k ∈ [((1 : Fin 16), 1), (2, 2), (5, 5)], (teamU.bound k.1.val).map (·.kind) = some k.2 ∧ Unpoisoned teamU 0 [(.q k.1, 2)]) ∧
    (let one := { teamU with exm := 1 }; one.lanesOf 0 = [0] ∧ AtIssue (ringed one 1) 0 one) := by
  simp only [AtIssue, Team.FirstIssue, Unpoisoned]
  refine ⟨⟨_, _, 6, ring0 1, _, _, by decide +kernel, by decide +kernel, by decide +kernel, rfl, by decide +kernel, rfl, rfl⟩,
    ?_, ?_, ?_, ?_⟩ <;> decide +kernel

/-- QueueInstructions: no place, at a copy engine, the matrix stream, a Sill unit and a location. -/
theorem witness_QueueInstructions_full :
    let busy (s : State) : State := { s with copies := (List.range 16).map fun k => (k, { copy0 3 [(0x100, 0, 8)] with engine := some 0 }) }
    let tasks (s : State) : State := { s with pushed := List.replicate 32 (0, taskOf s 0 teamT (tf (.s 4) (.s 0) .zero .zero)) }
    let s1 := busy (ringed teamU 0); let s5 := tasks (ringed teamU 0)
    (AtIssue s1 0 teamU ∧ teamU.bound 1 = some ⟨1, 0, []⟩ ∧ placesOf s1 0 teamU ⟨1, 0, []⟩ = 0 ∧ Holds s1 teamU = false) ∧
    (AtIssue s5 0 teamU ∧ teamU.bound 5 = some ⟨5, 3, []⟩ ∧ placesOf s5 0 teamU ⟨5, 3, []⟩ = 0 ∧ Holds s5 teamU = false) ∧
    (placesOf (queued 0 16 0) 0 (teamE 0) ⟨3, 7, []⟩ = 0) ∧
    (let s := streamed 32 1
     AtIssue s 0 (s.team 0) ∧ (s.team 0).bound 2 = some ⟨2, 0, []⟩ ∧ placesOf s 0 (s.team 0) ⟨2, 0, []⟩ = 0 ∧
      (∃ a, Act.go (mxWord (mxWords.getD 0 0)) s = (.ok a, s)) ∧ s.mxGo 0 = s) := by
  simp only [AtIssue, plain_iff]
  refine ⟨?_, ?_, ?_, ?_⟩ <;> decide +kernel

/-- A region control block (R44) for the descriptor at 0x400. -/
def rcb0 : List Byte :=
  ((((((List.replicate 256 (0 : Byte)).set 16 1).set 56 2).set 62 1).set 12 255).set 20 1).set 41 4
/-- Memory with a block at 0x100. -/
def rcbMem (b : List Byte) : List Host.Cell := writeBytes [] 0x100 b ++ descBytes 0x400
/-- A team that holds location 0. -/
def teamO : Team := { team0 with holds := [{ loc := 0, stamp := [0] }] }
/-- A region of a kind with a child that stands as it says. -/
def regioned (kind : Nat) (kids : List (Nat × Region)) (b : List Byte) : State :=
  { at0 teamO with
    mem := rcbMem b
    spaces := [(0, { images := [[⟨2, 0, 0x1000⟩, ⟨1, 0x1000, 0x1000⟩]] })]
    regions := (0, { teams := 4, kind := kind, cores := 20, scratchk := 64,
                     launches := [{ shareCores := 7, shareScratch := 9000, shareRows := 40, cores := 3 }] }) :: kids }
/-- A child whose block stands at 0x100. -/
def kid (reported : Bool) : Region := { parent := some 0, rcb := 0x100, state := .complete, reported := reported, launches := [{}] }
/-- Before rg.open looks at a block, with the page that its team's front unit keeps. -/
def beforeOpen (front : Option Tlb) (b : List Byte) : State := (regioned 0 [] b).withTeam 0 fun u => { u with frontPage := front }
/-- What rg.open answers. -/
def opening (front : Option Tlb) (b : List Byte) : Except Stop (Nat × Option Nat) × State :=
  let s := beforeOpen front b
  Act.go (openRegion (openerOf 0 teamO) 0x100 0x100 b (some (0, {})) teamO.now (teamO.covers (s.space 0)) 0 0) s

/-- RegionInstructions: a block that is refused and one that opens. -/
theorem witness_RegionInstructions_open : ∀ front ∈ [none, some (⟨0, 0, 4096, 0, 0, true, true, true, 0, 0xFFFF_FFFF⟩ : Tlb)],
    ∀ b ∈ [rcb0, List.replicate 256 0xFF], let s := regioned 0 [] b
      AtIssue s 0 teamO ∧ Readable teamO (.s 0) ∧ teamO.scalar (s.teamsOf teamO) (.s 0) = 0x100 ∧
      Mapped s 0 teamO 0x100 { r := true, w := true } 0x100 ∧ s.mortar = [] ∧ s.ownPending 0 s.serial 0x100 256 = false ∧
      s.ownBytes 0 s.serial 0x100 256 = b ∧
      rcbBad b = decide (b ≠ rcb0) ∧ (b = rcb0 → timeGen teamO b = teamO.gen) ∧
      Act.go (rcbOfTime 0x100 b) (beforeOpen front b) = (.ok b, beforeOpen front b) ∧
      (match (opening front b).1 with | .ok x => decide ((x.1 = 0) = (b = rcb0)) | _ => false) = true := by
  simp only [AtIssue, readable_iff, mapped_iff, go_iff]; decide +kernel

/-- RegionInstructions: a store of the team is on its way to the block, where STATE stands. -/
theorem witness_RegionInstructions_pending :
    let w : PendWrite := { team := 0, unit := 1, path := 0, va := 0x150, key := 0x150, bytes := [1], asid := 0, group := 0 }
    let s : State := { regioned 0 [(5, kid true)] rcb0 with writes := [w], serial := 1 }
    AtIssue s 0 teamO ∧ Readable teamO (.s 0) ∧ teamO.scalar (s.teamsOf teamO) (.s 0) = 0x100 ∧
    Mapped s 0 teamO 0x100 { r := true, w := true } 0x100 ∧ s.ownPending 0 s.serial 0x100 256 = true ∧
    s.ownPending 0 s.serial 0x150 1 = true ∧ (s.region 5).reported = true ∧ SMap.find s.regions 5 = some (kid true) ∧
    (s.regions.find? fun c => c.2.parent == some 0 && c.2.rcb == 0x100) = some (5, kid true) := by
  simp only [AtIssue, readable_iff, mapped_iff]; decide +kernel

/-- RegionInstructions: a child that still runs is closed with kill. -/
theorem witness_RegionInstructions_kill : let c : Region := { kid false with state := .running, launches := [{ started := 1 }] }
    let s := regioned 0 [(5, c)] rcb0; let s1 := s.failRegion 5 (Cause.code .user)
    (s.regions.find? fun c => c.2.parent == some 0 && c.2.rcb == 0x100) = some (5, c) ∧ SMap.find s.regions 5 = some c ∧
    (s1.team 0).place ≠ .ended ∧ (s1.region 5).reported = false ∧ (tf (.s 5) (.s 0) (mod := 1)).mod.getLsbD 0 = true := by
  decide +kernel

/-- RegionInstructions: no child, one that runs, one that has ended; every item of rg.grow and rg.info, with and without a tournament. -/
theorem witness_RegionInstructions :
    (∀ x ∈ [none, some false, some true], let kids := match x with | some r => [(5, kid r)] | none => []
      let s := regioned 0 kids rcb0
      AtIssue s 0 teamO ∧ Readable teamO (.s 0) ∧ (s.regions.find? fun c => c.2.parent == some 0 && c.2.rcb == 0x100) = kids.head? ∧
        (tf (.s 5) (.s 0)).mod.getLsbD 0 = false) ∧
    (∀ kind ∈ [0, 2], let s := regioned kind [] rcb0; let have_ := s.growable teamO.launch
      AtIssue s 0 teamO ∧ (s.region teamO.launch.region).kind = kind ∧
        ((s.core 0).allocs.all fun x => decide (x.launch = teamO.launch)) = true ∧ have_.scratch < 2 ^ 32 ∧ have_.rows < 2 ^ 16 ∧
        have_.cores < 2 ^ 16 ∧ Mapped s 0 teamO 0x100 { r := true } 0x100) ∧
    ∀ m ∈ [0, 1, 2, 3], (tf (.s 5) (.s 0) (mod := BitVec.ofNat 6 m)).mod.toNat % 4 = m := by
  simp only [AtIssue, readable_iff, mapped_iff]; decide +kernel

/-- A Sill program of three words (R55). -/
def prog0 : List Byte := [3, 0, 0, 0, 0xFF, 0xFF, 0xFF, 0xFF] ++ List.replicate 20 0
/-- A team that launches it on the block at 0x4000_0000. -/
def teamH : Team :=
  { team0 with holds := [{ loc := 0, stamp := [0] }], desc := { team0.desc with affarg := 25, traph := 0x3000 },
               s := [(0, 0x100), (1, 0), (3, 0), (25, 0x4000_0000)] }
/-- Its state, with or without a debugger. -/
def launching (debug : Bool) (t : Team) : State :=
  (({ at0 t with mem := writeBytes [] 0x100 prog0 }).withCore 0 fun c =>
    { c with tlb := c.tlb ++ [(⟨0, 0x4000_0000, 65536, 0x4000_0000, 1, true, true, true, 0, 0xFFFF_FFFF⟩ : Tlb)] }).withSpace 0
      fun sp => { sp with debug := debug }
/-- The program as it is read. -/
def program0 : Program :=
  { head := prog0.take 16, body := prog0.drop 16,
    chans := match (Act.go (blockChannels (blockAddrs 0x4000_0000 0)) (launching false teamH)).1 with | .ok cs => cs | _ => [] }

/-- The states that reading it passes through. -/
def headRead : State := (Act.go (readVirt 0x100 16) (launching false teamH)).2
/-- Its words read too. -/
def bodyRead : State := (Act.go (readVirt 0x110 12) headRead).2
/-- And its blocks' channels. -/
def launchRead : State := (Act.go (blockChannels (blockAddrs 0x4000_0000 0)) bodyRead).2

/-- A team in a clause of some words, at one of them. -/
def inClause (idx : Nat) (after : Option Transfer := none) : Team :=
  { team0 with clause := some { header := 0x1000, eng := 0, words := [0, 0, 0], idx := idx }, after := after }

/-- SystemInstructions: a launch; to a unit with room and to a full one; a team in its handler; a space with a debugger. -/
theorem witness_SystemInstructions : let s := launching false teamH; let f := tf (.s 5) (.s 0) (.s 1) (.s 3)
    let v := teamH.scalar (s.teamsOf teamH); let d := launching true teamH
    (AtIssue s 0 teamH ∧ Readable teamH f.a ∧ Readable teamH f.b ∧ Readable teamH f.c ∧ teamH.desc.affarg < 64 ∧
      teamH.poisonS teamH.desc.affarg = 0 ∧ v f.a = 0x100 ∧ v f.c = 0 ∧ teamH.getS teamH.desc.affarg = 0x4000_0000 ∧
      PairGood teamH (v f.b).toNat teamH.now ∧
      teamH.covers (s.space 0) (v f.b).toNat teamH.now = true ∧ (s.addCount (some 0) 0 0 (v f.b).toNat teamH.now).isSome = true ∧
      (s.space 0).debug = false ∧ teamH.step = 0 ∧ program0.chans ≠ [] ∧ UnitsRoom launchRead program0.chans ∧
      (launchRead.addCount (some 0) 0 0 (v f.b).toNat teamH.now).isSome = true ∧ teamH.covers (launchRead.space 0) 0 teamH.now = true) ∧
    LaunchGood s launchRead teamH 0x100 0 0x4000_0000 program0 ∧
    (let full := launchRead.withSill (program0.chans.headD 0) fun u => { u with pending := List.replicate 8 block0 }
     ∃ c ∈ program0.chans, 8 ≤ (full.sill c).pending.length) ∧
    ({ teamH with handler := true }.handler = true ∧ teamH.handler = false) ∧
    (AtIssue d 0 teamH ∧ (d.space 0).debug = true ∧
      (((d.logFault (teamH.record .user (64 + f.mod.toNat))).retire 0).team 0).place = .resident) ∧
    (∀ x ∈ [(Place.saved, { inClause 2 with returning := some 0, handler := true, gaveUp := true }),
        (.ended, { team0 with exited := lanesMask 32, exm := 0 })],
      let t := x.2
      let s := ((at0 t).withHearth fun h =>
        { h with ctxs := [(0, { launch := {}, core := 0, dest := 7, state := .seek })] }).withSpace 0 fun sp => { sp with debug := true }
      AtIssue s 0 t ∧ (s.space 0).debug = true ∧
        (((s.logFault (t.record .user (64 + f.mod.toNat))).retire 0).team 0).place = x.1) := by
  simp only [AtIssue, readable_iff, PairGood, UnitsRoom]
  refine ⟨?_, ?_, ?_, ?_, ?_, ?_⟩
  · decide +kernel
  · refine ⟨by decide +kernel, by decide +kernel, ⟨headRead, bodyRead, ?_, ?_, ?_⟩, by decide +kernel, by decide +kernel, by decide +kernel, by decide +kernel⟩
    all_goals rw [go_iff]; decide +kernel
  · decide +kernel
  · decide +kernel
  · decide +kernel
  · decide +kernel

/-- InstructionEnds: inside the clause, behind it, on a jump, a yield and a return; a team that is spent, and one with a fault in flight; a trap with
and without a handler, and behind an earlier instruction that has faulted. -/
theorem witness_InstructionEnds : let spent := { team0 with exited := lanesMask 32, exm := 0 }
    let back := { inClause 2 with returning := some 3, handler := true }; let op : Op := { ident := 1, faults := [{ cause := .poison }] }
    let late := { team0 with ops := [op] }
    (∀ k ∈ [1, 2], SMap.find (at0 (inClause k)).teams 0 = some (inClause k) ∧ (inClause k).unitNow = none ∧
      (inClause k).clause = some { header := 0x1000, eng := 0, words := [0, 0, 0], idx := k } ∧ (inClause k).after = none ∧
      (inClause k).returning = none) ∧
    (∀ a ∈ [Transfer.jump 0x5000, .yield 3 0x5000], (inClause 2 (some a)).after = some a ∧ (inClause 2 (some a)).returning = none) ∧
    (back.returning = some 3 ∧ back.origin = 0 ∧ back.gaveUp = false ∧ { back with gaveUp := true }.gaveUp = true ∧
      (returned { back with gaveUp := true } 3).spent = false) ∧
    (team0.spent = false ∧ spent.spent = true ∧ spent.place = .resident ∧ SMap.find (at0 spent).teams 0 = some spent ∧
      spent.clause.isSome = true ∧ spent.unitNow = none) ∧
    ({ spent with ops := [op] }.spent = true ∧ { spent with ops := [op] }.faulty ≠ none ∧ spent.faulty = none) ∧
    (late.faulty = some op ∧ late.clause.isSome = true ∧ late.unitNow = none) ∧
    (team0.faulty = none ∧ team0.place = .resident ∧ team0.desc.traph ≠ 0 ∧ team0.handler = false ∧ (base.ctxOf 0).state ≠ .seek ∧
      Holds base team0 = false ∧
      ∀ j < 2, Mapped base 0 { team0 with declared := [] } (recordPlace team0 j) { w := true } (0x200 + 32 * j)) ∧
    ({ team0 with handler := true }).handler = true := by
  simp only [mapped_iff]; decide +kernel

/-- A unit whose G0 names a word of its own channel, G1 a row of its banks, G2 no word. -/
def unit0 : Sill := { running := some { block0 with grid := 7 }, g := [(0, 0x1040), (1, 0x1400), (2, 0x7)], outq := [] }
/-- The same page tables with a page of 4 KiB at 0x1000 under them, of channel 9 (R308). -/
def pagedFine (s : State) : State :=
  let w (m : List Host.Cell) (a lo hi : Nat) := writeBytes m a (leBytes 8 lo ++ leBytes 8 hi)
  let p := paged s 0x46001
  { p with mem := w (w (w p.mem 0x44000 0x46001 0) 0x46000 0x48001 0) 0x48010 (31 + 64 + 9 * 2 ^ 30 + 0x1000) 0xFFFFFFFFFFFF }
/-- Unit 9 at issue as `u`; the page at 0x1000 is channel 9's. -/
def onUnit (u : Sill) (busy : Bool := false) : State :=
  pagedFine { base with
            cur := none
            curUnit := some 9
            sills := [(9, u)]
            grids := [(7, { team := 0, asid := 0, timeline := 0, loc := 0, stamp := [0], size := 1, blocks := 1 })]
            writes := if busy then
              [{ team := 0, unit := 0, path := 6, va := 0, key := 3, bytes := [1], asid := 0, group := ({ block0 with grid := 7 } : SillBlock).group }]
              else [] }

/-- SillArithmetic: a unit at issue; both formats of sl.cvt, a register of sl.bx, a base of sl.ag. -/
theorem witness_SillArithmetic :
    UnitAtIssue (onUnit unit0) 9 unit0 { block0 with grid := 7 } ∧ (⟨1, 0, 0, 0, 1, 0⟩ : SillV).t = 1 ∧ (⟨3, 0, 0, 0, 0, 0⟩ : SillV).t = 0 ∧
    (⟨3, 0, 0, 0, 0, 0⟩ : SillV).d.toNat < 4 ∧ (⟨1, 0, 1, 1024⟩ : SillA).base = 1 ∧ WellFormed (.slAg ⟨1, 0, 1, 1024⟩) = true := by
  simp only [UnitAtIssue]; decide +kernel

/-- What an access of the unit's finds: the offset in its channel, and the state after it. -/
def found (s : State) (a : Word) (need : Need) : Nat × State :=
  let r := Act.go (localAt (.sill 9) 0 0 0 a need) s
  (match r.1 with | .ok (.at 9 o) => o | _ => 0, r.2)
/-- An address lies in the unit's own channel, as a check. -/
def isLocal (s : State) (a : Word) (need : Need) (off : Nat) : Bool :=
  match Act.go (localAt (.sill 9) 0 0 0 a need) s with
  | (.ok (.at d o), _) => decide (d = 9) && decide (o = off)
  | _ => false
/-- What it says. -/
theorem localAt_of {s : State} {a : Word} {need : Need} {off : Nat} (h : isLocal s a need off = true) :
    LocalAt s 9 { block0 with grid := 7 } a need off (found s a need).2 ((found s a need).2.sill 9) := by
  unfold isLocal at h
  split at h
  · rename_i d o s' hg
    simp only [Bool.and_eq_true, decide_eq_true_eq] at h
    refine ⟨?_, rfl⟩
    show Act.go (localAt (.sill 9) 0 0 0 a need) s = _
    simp only [found, hg, h.1, h.2]
  · cases h

/-- SillAccesses: a word of the channel in single-bank mode, a row in all-bank mode with full and with limited
waves, an address that is no word. -/
theorem witness_SillAccesses : let b := { block0 with grid := 7 }; let all := { unit0 with allBank := true }
    let few := { all with limitLess := 15 }
    (UnitAtIssue (onUnit unit0) 9 unit0 b ∧ unit0.allBank = false ∧ unit0.wave = 0 ∧ (bankAddr unit0 ⟨0, 0, 0, 0, 0, 0, 0⟩).toNat = 0x1040 ∧
      Settled (found (onUnit unit0) 0x1040 { r := true, use := 4 }).2 9 b 0x1040 ∧ (bankAddr unit0 ⟨2, 0, 0, 0, 0, 0, 0⟩).toNat % 64 ≠ 0) ∧
    (UnitAtIssue (onUnit all) 9 all b ∧ all.allBank = true ∧ all.wave = 0 ∧ (bankAddr all ⟨1, 0, 0, 0, 0, 0, 0⟩).toNat = 0x1400 ∧
      (∀ k < 16, Settled (found (onUnit all) 0x1400 { r := true, use := 4 }).2 9 b (0x1400 + 64 * k)) ∧ waveWidth all = 16 ∧ waveWidth few = 1 ∧ UnitAtIssue (onUnit few) 9 few b) := by
  simp only [UnitAtIssue, Settled]; decide +kernel
/-- Its translations. -/
theorem witness_SillAccesses_local : let b := { block0 with grid := 7 }; let all := { unit0 with allBank := true }
    (∀ need ∈ [({ r := true, use := 4 } : Need), { w := true, use := 4 }, { use := 4 }],
      LocalAt (onUnit unit0) 9 b 0x1040 need 0x1040 (found (onUnit unit0) 0x1040 need).2 ((found (onUnit unit0) 0x1040 need).2.sill 9)) ∧
    ∀ v ∈ [all, { all with limitLess := 15 }], LocalAt (onUnit v) 9 b 0x1400 { r := true, use := 4 } 0x1400
      (found (onUnit v) 0x1400 { r := true, use := 4 }).2 ((found (onUnit v) 0x1400 { r := true, use := 4 }).2.sill 9) := by
  refine ⟨fun need h => localAt_of ?_, fun v h => localAt_of ?_⟩
  · revert need; decide +kernel
  · revert v; decide +kernel
/-- SillAccesses: loops that may start and that may not, fences, words sent and received where there is room, none, words, none. -/
theorem witness_SillAccesses_queues : let u (inq outq : Nat) (ls : List SillLoop) : Sill :=
      { unit0 with inq := List.replicate inq 5, outq := List.replicate outq 6, loops := ls }
    let nested (v : Sill) (f : SillL) : Bool :=
      v.loops.any (·.counter == f.l.toNat) || (v.loops.head?.map fun x => decide (x.stop < f.stop.toNat)).getD false
    let b := { block0 with grid := 7 }
    (∀ n ∈ [0, 1], nested (u 0 0 []) ⟨0, 8, BitVec.ofNat 16 n⟩ = false) ∧ nested (u 0 0 [⟨1, 1, 7⟩]) ⟨0, 8, 1⟩ = true ∧
    (onUnit unit0).blockQuiet b = true ∧ UnitAtIssue (onUnit unit0 true) 9 unit0 b ∧ (onUnit unit0 true).blockQuiet b = false ∧
    (∀ n ∈ [0, 15, 16], UnitAtIssue (onUnit (u n n [])) 9 (u n n []) b ∧ (u n n []).words = 0 ∧ (u n n []).outq.length = n ∧
      (u n n []).inq.length = n) ∧
    ∀ ba ∈ [true, false], (sentWords (u 0 0 []) ba ⟨0, 0, 0, 0, 0⟩).length = 1 := by
  simp only [UnitAtIssue]; decide +kernel

/-- A header with its checksum (R16). -/
def headerOf (bits : Word) : Word := bits + BitVec.ofNat 64 (hdrSum bits)
/-- A team before the clause at 0x200, and its state, whose line 3 of the scratchpad is empty. -/
def teamB : Team :=
  { (team0.setS 9 0x180) with clause := none, pc := 0x200, desc := { team0.desc with livecnt := 1 } }
/-- The state. -/
def before (h : Word) : State :=
  ({ at0 teamB with mem := writeBytes [] 0x200 (leBytes 8 h.toNat) }).withAlloc 0 {} fun a => { a with empties := [3] }
/-- A plain clause, one that is a safe point, and one that waits for the line at S9. -/
def headers : List Word := [headerOf 0x0300_0000_0000_0000, headerOf 0x0380_0000_0000_0000, headerOf 0x0300_0009_2000_0000]

/-- A state whose team has waited at its header, and one with other teams that issue. -/
def waited (h : Word) : State := (before h).withTeam 0 fun u => { u with block := some { point := false } }
/-- The other. -/
def crowded (h : Word) : State :=
  { before h with teams := (0, teamB) :: (List.range 8).map fun k => (k + 1, { team0 with slot := k + 1 }) }

/-- CoreAndSillEvents, headers: each stands, is good, and goes on but for the one whose line is empty and the one whose
core has no slot left; a wrong checksum. Each is looked at for the first time and again. -/
theorem witness_CoreAndSillEvents_header : let bad : Word := headerOf 0x0300_0000_0000_0000 + 1
    (∀ k ∈ [0, 1, 2], let h := headers.getD k 0
      ∀ s ∈ [before h, waited h], let t := s.team 0
        (StandsAtHeader s 0 t ∧ ClauseAt s 0 t 0x200 h) ∧ HeaderGood s t h ∧ (t.counterReady h && s.lineReady t h) = decide (k ≠ 2) ∧
          (headerLooks s 0 t).map (·.2.1) = [t.block.isNone, t.block.isSome] ∧
          ∀ p ∈ headerLooks s 0 t, p.2.2.slotFree 0 (hdrEng h) = true) ∧
    (∀ k ∈ [0, 1], let h := headers.getD k 0; let s := crowded h
      (StandsAtHeader s 0 teamB ∧ ClauseAt s 0 teamB 0x200 h) ∧ HeaderGood s teamB h ∧
        ∀ p ∈ headerLooks s 0 teamB, p.2.2.slotFree 0 (hdrEng h) = false) ∧
    (∀ s ∈ [before bad, waited bad], (StandsAtHeader s 0 (s.team 0) ∧ ClauseAt s 0 (s.team 0) 0x200 bad) ∧
      (headerFail (s.team 0).desc.livecnt bad).isSome = true) := by
  simp only [StandsAtHeader, ClauseAt, HeaderGood, mapped_iff]
  refine ⟨?_, ?_, ?_⟩ <;> decide +kernel

/-- A team that stands at a blocking point. -/
def standing (b : Block) (t : Team := team0) : State := at0 { t with block := some b }
/-- An operation in flight. -/
def op0 : Op := { ident := 5, window := some 3, results := [⟨.v 2 9, 77, 0⟩], fpf := 3, dcf := 17 }
/-- Page 3 as the walk finds it. -/
def walked : Tlb := match (Act.go (walk 0 0x3000 0 0 { r := true }) (paged base)).1 with | .ok (.ok l) => l | _ => default

/-- CoreAndSillEvents, teams: a wait that holds, points that are left and that stall, results that land, a walk. -/
theorem witness_CoreAndSillEvents_team :
    (let s := standing { point := false } teamB; let s1 := s.withTeam 0 fun u => { u with block := none }
     SMap.find s.teams 0 = some { teamB with block := some { point := false } } ∧ s.beforeClause 0 = true ∧ s1.beforeClause 0 = true) ∧
    (∀ d ∈ [0, 3], let t := { team0 with block := some { detail := d } }
      SMap.find (standing { detail := d }).teams 0 = some t ∧ (standing { detail := d }).mayIssue 0 = true ∧ t.clause = team0.clause ∧ team0.clause.isSome = true ∧
        t.delivery = none ∧ t.headerRecs = [] ∧ t.place = .resident ∧ (standing { detail := d }).slotFree 0 0 = true) ∧
    (∀ o ∈ [op0, { op0 with faults := [{ cause := .poison }] }], ∀ parked ∈ [false, true], let t := { team0 with ops := [o], parkWait := parked }
      SMap.find (at0 t).teams 0 = some t ∧ t.ops.find? (fun p => p.ident == o.ident && p.window.isSome) = some o ∧
        ∀ r ∈ o.results, (0xFF : Mask).getLsbD r.lane = true) ∧
    (((paged base).team 0).place = .resident ∧ canonical 0x3000 = true ∧
      (match Act.go (walk 0 0x3000 0 0 { r := true }) (paged base) with
       | (.ok (.ok l), s') => decide (l = walked) && decide (s' = paged base)
       | _ => false) = true) := by decide +kernel

/-- CoreAndSillEvents, units: a block to start, sub-waves of sl.act and sl.mac, a stall, limits, a layout. -/
theorem witness_CoreAndSillEvents_unit : let b := { block0 with prog := [0x4000_0000, 0x2000_0000] }
    let u (idx : Nat) : Sill := { running := some b, idx := idx, wave := 5, allBank := true, waiting := true }
    let idle : Sill := { pending := [b] }
    ((onUnit idle).sill 9 = idle ∧ idle.running = none ∧ idle.pending = b :: []) ∧
    (∀ k ∈ [0, 1], (onUnit (u k)).sill 9 = u k ∧ (u k).running = some b ∧ (u k).wave ≠ 0 ∧ (u k).allBank = true) ∧
    ((u 0).command = some (.slMac ⟨0, 0, 0, 0, 0, 0, 0⟩) ∧ (u 1).command = some (.slAct ⟨0, 0, 0, 0, 0, 0, 0⟩)) ∧
    ((u 0).waiting = true ∧ b.stop = false ∧ SMap.find (onUnit (u 0)).teams b.team = some team0 ∧ team0.place = .resident) ∧
    (let z : Sill := { liveLess := 14 }
     let g : Grid := { team := 0, asid := 0, timeline := 0, loc := 0, stamp := [0], size := 2, blocks := 2, rest := [(8, b)] }
     z.running = none ∧ z.pending = [] ∧ 511 < 512 ∧ (∀ x ∈ ({ onUnit z with grids := [(3, g)] }).grids, ∀ y ∈ x.2.rest, y.1 ≠ 9) ∧ z.liveLess < 15 ∧ (onUnit z).layoutId 9 < 0xFFFFFFFE ∧ 1 ≤ 16 ∧ 16 ≤ 16) := by
  decide +kernel

/-- A region of 40 teams with its launch still to bind. -/
def reg0 : Region :=
  { teams := 40, launches := [{ cores := 20, scratchk := 64, left := [(0, 40)] }], desc := { lanes := 32, vregs := 64, scratch := 256 },
    scratchk := 64, cores := 20, rcb := 0xABC00, time := [0] }
/-- A device that runs, with some regions. -/
def device (rs : SMap Region) : State := { State.reset with regions := rs }.withHearth fun h => { h with power := .run }
/-- The state after it. -/
def bound1 : State := match exec .hearthDecision (device [(1, reg0)]) with | .next s => s | _ => State.reset

/-- DispatchAndRegionEvents, a decision: none while the device does not dispatch, and one for region 1. -/
theorem witness_DispatchAndRegionEvents_decision : let s := device [(1, reg0)]
    (s.withHearth fun h => { h with cellar := 1 }).dispatching = false ∧ s.dispatching = true ∧ s.stuckUrgent = none ∧ s.candidates ≠ [] ∧
    s.choose s.candidates s.freeCores = some (1, false) ∧
    (s.affordable 1 s.freeCores).isSome = true ∧ s.bindSlot = some 0 := by
  decide +kernel

/-- The record it wrote. -/
def bind1 : Bind := (SMap.find bound1.hearth.binds 0).getD default

/-- DispatchAndRegionEvents, the distributor: core 0 of the record starts its first team. -/
theorem witness_DispatchAndRegionEvents_start : let b := bind1; let l : LaunchId := ⟨bind1.region, bind1.entrant⟩; let g := bound1.region b.region
    let r := SMap.val b.ranges [] 0; let x := r.headD (0, 0)
    let left := SMap.set [] b.ranges 0 (if x.2 = 1 then r.drop 1 else (x.1 + 1, x.2 - 1) :: r.drop 1)
    SMap.find bound1.hearth.binds 0 = some b ∧ b.state = 1 ∧ b.cmask.getLsbD 0 = true ∧ bound1.dispatching = true ∧
    g.live = true ∧ r = (x.1, x.2) :: r.drop 1 ∧ 0 < x.2 ∧ (∀ p ∈ r.drop 1, 0 < p.2) ∧
    bound1.fits 0 l (max 32 g.desc.lanes * g.desc.vregs) g.desc.accrows 1 true = true ∧
    ((bound1.withHearth fun h => { h with binds := SMap.alter h.binds 0 fun b => { b with ranges := left } }).startTeam 0 l (some 0)
      x.1).isSome = true := by
  decide +kernel

/-- An urgent region that fits only where another gives way. -/
def urgent : State :=
  match exec .hearthDecision (device [(1, { reg0 with cores := 160, launches := [{ cores := 160, scratchk := 4000, left := [(0, 2000)] }],
                                                      teams := 2000, prio := 6, scratchk := 4000 }),
                                      (2, { reg0 with prio := 0, order := 2, state := .complete })]) with
  | .next s => (s.withRegion 2 fun g => { g with state := .ready }).withHearth fun h => { h with k := 8390 }
  | _ => State.reset

/-- DispatchAndRegionEvents: victims; the four ranges of the power measured. -/
theorem witness_DispatchAndRegionEvents_power :
    (urgent.dispatching = true ∧ urgent.stuckUrgent = some 2 ∧ urgent.pickVictims 2 ≠ []) ∧
    (let cap := 2600 - State.reset.hearth.capNext
     State.reset.hearth.bootFailed = false ∧ State.reset.hearth.aboveCap = 0 ∧ cap < cap + 1 ∧ cap - 100 ≤ cap - 100 ∧
      cap - 101 < cap - 100) := by decide +kernel

/-- A context of core 0 and the team that has it. -/
def ctx0 (st : CtxState) : Ctx := { launch := {}, core := 0, dest := 7, state := st }
/-- Their state. -/
def inCtx (st : CtxState) (t : Team) : State :=
  (at0 { t with ctx := 4 }).withHearth fun h => { h with ctxs := [(4, ctx0 st)] }

/-- DispatchAndRegionEvents, contexts: drained, sought with and without its team, saving, restoring. -/
theorem witness_DispatchAndRegionEvents_contexts : let saved := { team0 with place := .saved }
    (∀ st ∈ [CtxState.drain, .seek, .saving, .restoring], SMap.find (inCtx st saved).hearth.ctxs 4 = some (ctx0 st) ∧
      (inCtx st saved).residents 4 = [] ∧ (inCtx st saved).hearth.cellar ≠ 1 ∧ ((inCtx st saved).core 0).log = [] ∧
      ((inCtx st saved).core 7).log.length ≤ 256 ∧
      saveArea (ctx0 st).core 4 ≠ (ctx0 st).core ∧ (ctx0 st).core ≠ (ctx0 st).dest ∧ (inCtx st saved).mortar = [] ∧
      (inCtx st saved).retiringAt {} 7 = false ∧
      ((inCtx st saved).withHearth fun h => { h with binds := [(0, { state := 2, cmask := 1 <<< 7 })] }).retiringAt {} 7 = true ∧
      ∀ e ∈ (inCtx st saved).teams, e.2.mxq = [] ∧ e.2.ctx = 4 ∧ e.2.core = (ctx0 st).core ∧ e.2.place = .saved ∧ e.2.debugStop = false) ∧
    ((inCtx .seek team0).residents 4 = [0] ∧ SMap.find (inCtx .seek team0).teams 0 = some { team0 with ctx := 4 } ∧
      team0.clause.isSome = true ∧ team0.block = none ∧ team0.parked = false ∧ team0.parkWait = false ∧ team0.keptKey = false) := by
  decide +kernel

/-- A region whose one team has ended, and its state. -/
def reg1 (st : RState) : Region := { reg0 with teams := 1, state := st, launches := [{ started := 1 }] }
/-- The state. -/
def ended (st : RState) : State := { paged (at0 { team0 with place := .ended }) with regions := [(0, reg1 st)] }
/-- A tournament of two entrants, with a round that is over when no time is held. -/
def reg2 (decided : Bool) : Region :=
  { reg0 with kind := 2, round := 1, roundcap := 4, cmp := 1, tloc := 3, time := [0, 0], teams := 1, rcb := 0x400, state := .running,
              launches := List.replicate 2 { state := .parked, cores := 5, scratchk := 8, started := 1 }, decided := decided }
/-- It and its two teams. -/
def tournament (decided : Bool) : State :=
  let t (e : Nat) : Team := { team0 with launch := ⟨0, e⟩, parked := true, score := BitVec.ofNat 64 e, now := [0, 1] }
  { paged base with regions := [(0, reg2 decided)], teams := [(0, t 0), (1, t 1)] }
/-- A write that waits for the ticket unit. -/
def staged0 : PendWrite := { team := 0, unit := 1, path := 0, va := 0x40, key := 0x40, bytes := [1], asid := 0, group := 2 }
/-- A team of a deterministic region that has ended with it. -/
def teamD : Team := { team0 with place := .ended, undrained := [(1, 1)], issued := 1, staged := [.write staged0] }

/-- One with a fence before a second write, while the first is on its way. -/
def teamDF : Team := { teamD with staged := [.fence 3 3 1 2, .write { staged0 with key := 0x48, va := 0x48, group := 3 }] }

/-- DispatchAndRegionEvents, a ticket: a fence whose write has not been performed. -/
theorem witness_DispatchAndRegionEvents_fence :
    let s := { at0 teamDF with writes := [staged0], regions := [(0, { reg0 with det := true, launches := [{}] })] }
    (s.region 0).det = true ∧ (s.region 0).launches.length = 1 ∧ s.teamAt ⟨0, 0⟩ ((s.region 0).launch 0).ticket = some (0, teamDF) ∧
    SMap.find s.teams 0 = some teamDF ∧ teamDF.place = .ended ∧ bitOf 3 staged0.path = true ∧ s.beforeFence 0 3 1 2 = true := by
  decide +kernel

/-- DispatchAndRegionEvents, regions: one that is over, one that failed, one that waited for its completion word's page, a round not due and one due, a ticket. -/
theorem witness_DispatchAndRegionEvents_regions :
    (∀ st ∈ [RState.running, .failed, .complete], let g := reg1 st
      SMap.find (ended st).regions 0 = some g ∧ g.reported = false ∧ g.rids = [] ∧ (ended st).regionDrained 0 = true ∧ g.donew = 0 ∧
        g.state = st ∧ (st = .running → g.live = true ∧ (ended st).regionOver 0 = true)) ∧
    (∀ d ∈ [false, true], let g := reg2 d; let s := tournament d
      SMap.find s.regions 0 = some g ∧
        (g.kind == 2 && g.live && !g.decided && passedBy ((s.space g.asid).frontier g.tloc) (g.roundTime g.round)) = !d ∧
        (((List.range g.launches.length).foldl (fun s e => s.settleEntrant ⟨0, e⟩) s).ranking 0).length = 2) ∧
    (let s := { at0 teamD with regions := [(0, { reg0 with det := true, launches := [{}] })] }
     (s.region 0).det = true ∧ (s.region 0).launches.length = 1 ∧ s.teamAt ⟨0, 0⟩ ((s.region 0).launch 0).ticket = some (0, teamD) ∧
      SMap.find s.teams 0 = some teamD ∧ teamD.staged = [staged0].map .write ∧ teamD.undrained ≠ [] ∧ staged0.path < 2 ∧ s.releaseWaits 0 (.write staged0) = false) := by
  decide +kernel

/-- A device that runs, with an expander, a work queue and a channel. -/
def dev (e : Link) (w : WorkQueue) : State :=
  (device []).withHearth fun h => { h with expanders := [(0, e)], queues := [(5, w)], links := [(0, { state := 1, lanes := 8, cxl := true })] }
/-- A work queue whose ring holds one entry. -/
def wq0 : WorkQueue := { ring := 0x5000, slots := 16, compl := 0x9000, asid := 0, vector := 1, pi := 1 }
/-- The entry, in memory. -/
def rooted (rcb tag reserved : Nat) : State :=
  let s := { dev { state := 1 } wq0 with spaces := [(0, {})] }
  paged { s with mem := writeBytes s.mem (hostKey 0x5000) (leBytes 8 rcb ++ leBytes 8 tag ++ leBytes 8 reserved ++ zeros 40) }

/-- DeviceEdgeEvents: links and expanders in each state, no load that waits; power states; patrol scrub; BAR0. -/
theorem witness_DeviceEdgeEvents :
    ((1 : Nat) < 2 ∧ 4 ∈ [16, 8, 4] ∧ (device []).hearth.cellar ≠ 1 ∧ (device []).hearth.cellar ≠ 2 ∧
      ∀ c ∈ [1, 2], ((device []).withHearth fun h => { h with cellar := c }).hearth.cellar = c) ∧
    (let atom := 2 ^ 34 - 1; let chan := (channelOf (32 * atom)).1
     let s := { base with channels := [(chan, { base.channel chan with once := [atom] })] }
     atom ∈ (s.channel chan).once ∧ atom ∉ (s.channel chan).remapped ∧ s.remapsUsed (chan / 64) < 4096) ∧
    (∀ st ∈ [1, 2], let s := dev { state := st } wq0
      (SMap.val s.hearth.links {} 0).state = 1 ∧ (SMap.val s.hearth.links {} 0).cxl = true ∧ (SMap.val s.hearth.expanders {} 0).state = st ∧
        s.teams = []) ∧
    ((device []).hearth.bootFailed = false ∧ (device []).idle = true ∧ (device []).hearth.ltol < 40000 ∧ (device []).spaces = [] ∧
      (base.withHearth fun h => { h with power := .run }).idle = false ∧
      ((device []).withHearth fun h => { h with ltol := 40000 }).idle = true) ∧
    (2 ^ 34 - 1 < 2 ^ 34 ∧ 2 ^ 34 - 1 ∉ (base.channel (channelOf (32 * (2 ^ 34 - 1))).1).once ∧
      2 ^ 34 - 1 ∉ (base.channel (channelOf (32 * (2 ^ 34 - 1))).1).remapped ∧
      (base.burst ((2 ^ 34 - 1) / 2)).extractLsb' 13 2 = 0) ∧
    (SMap.find (dev {} wq0).hearth.queues 5 = some wq0 ∧ 4095 < 4096 ∧ (device []).hearth.admpi = (device []).hearth.admci ∧
      ((device []).withHearth fun h => { h with admpi := 1 }).hearth.admpi ≠ (device []).hearth.admci ∧ (8 ≠ 8 ∨ 0x0C % 8 ≠ 0)) := by
  decide +kernel

/-- What a submission answers. -/
def opened (s : State) (rcb tag : Word) : Except Stop Nat × State := Act.go (openRoot 5 wq0 rcb tag true) s

/-- DeviceEdgeEvents, a root: not free, a bad entry, an entry whose root is answered. -/
theorem witness_DeviceEdgeEvents_root :
    (SMap.find (rooted 0 0 0).hearth.queues 5 = some wq0 ∧ (rooted 0 0 0).dispatching = true ∧ wq0.pi ≠ wq0.taken ∧ wq0.rids = [] ∧
      (wq0.taken - wq0.cc).toNat < wq0.slots) ∧
    ({ wq0 with pi := 0 } : WorkQueue).pi = wq0.taken ∧
    (let e := readBytes (rooted 0x100 7 1).mem (hostKey 0x5000) 64
     (bytesAt e 16 48 == 0 && bytesAt e 0 8 % 256 == 0) = false) ∧
    (let e := readBytes (rooted 0x100 7 0).mem (hostKey 0x5000) 64
     (bytesAt e 16 48 == 0 && bytesAt e 0 8 % 256 == 0) = true ∧ BitVec.ofNat 64 (bytesAt e 0 8) = (0x100 : Word) ∧
      BitVec.ofNat 64 (bytesAt e 8 8) = (7 : Word)) ∧
    (match opened (rooted 0x100 7 0) 0x100 7 with | (.ok _, _) => true | _ => false) = true := by
  decide +kernel

/-- A state whose admin queue holds a command of an opcode, with a reserved field. -/
def adm (op reserved : Nat) (s : State := base) : State :=
  { (s.withHearth fun h => { h with power := .run, admqb := 0x5000, admqn := 16, admcb := 0x9000, admpi := 1 }) with
    mem := writeBytes s.mem (hostKey 0x5000) (leBytes 1 op ++ leBytes 3 reserved ++ leBytes 4 77 ++ zeros 56) }
/-- Its slot. -/
def slotOfAdm (s : State) : List Byte := readBytes s.mem (hostKey 0x5000) 64

/-- AdminCommands: a command of each opcode, an opcode that none has, a reserved byte that is not 0. -/
theorem witness_AdminCommands :
    (∀ op ∈ [0x01, 0x02, 0x10, 0x11, 0x12, 0x13, 0x20, 0x21, 0x30, 0x31, 0x32, 0x33, 0x34, 0x38, 0x39, 0x3A, 0x3B, 0x3C, 0x3D, 0x3E, 0x3F, 0x55],
      Commanded (adm op 0) op (slotOfAdm (adm op 0))) ∧
    (let s := adm 0x02 1
     s.hearth.power = .run ∧ s.hearth.bootFailed = false ∧ s.hearth.cellar ≠ 1 ∧ s.hearth.admpi ≠ s.hearth.admci ∧
      (s.hearth.admdone - s.hearth.admcc).toNat < s.hearth.admqn ∧ bytesAt (slotOfAdm s) 0 1 = 0x02 ∧ bytesAt (slotOfAdm s) 1 3 ≠ 0) ∧
    CommandOf (.deleteWq 3) 0x02 := by
  simp only [Commanded]
  exact ⟨by decide +kernel, by decide +kernel, .deleteWq 3⟩

/-- A translation record (R331) at the device address 0x6000. -/
def record0 : List Byte := leBytes 8 0x4000 ++ leBytes 8 0x40 ++ leBytes 4 64 ++ zeros 4 ++ leBytes 8 0x99 ++ leBytes 8 0x88 ++ leBytes 2 3 ++ zeros 22

/-- AdminCommands, queues, spaces, windows and settings: what each clause asks for beside the command. -/
theorem witness_AdminCommands_settings : let q := (adm 0x02 0 (dev {} wq0)).withHearth fun h => { h with queues := [(5, { wq0 with taken := 1 })] }
    let r := { adm 0x10 0 with mem := writeBytes (adm 0x10 0).mem ((adm 0x10 0).deviceKey 0x6000) record0 }
    let rec_ := readBytes r.mem (r.deviceKey 0x6000) 64
    (4095 < 4096 ∧ ringSlots 16 = true ∧ 65535 < 65536 ∧ 2047 < 2048) ∧
    (SMap.find q.hearth.queues 4 = none ∧ SMap.find q.hearth.queues 5 = some { wq0 with taken := 1 } ∧ wq0.pi = 1 ∧ q.regions = []) ∧
    (Commanded r 0x10 (slotOfAdm r) ∧ 0x6000 < 2 ^ 39 ∧ bytesAt rec_ 0 8 % 8192 = 0 ∧ bytesAt rec_ 0 8 < 2 ^ 39 ∧ bytesAt rec_ 8 8 % 32 = 0 ∧
      ringSlots (bytesAt rec_ 16 4) = true ∧ bytesAt rec_ 20 4 = 0 ∧ 1 ≤ bytesAt rec_ 40 2 ∧ bytesAt rec_ 40 2 ≤ 4095 ∧ bytesAt rec_ 42 22 = 0) ∧
    (let named := { base with spaces := [(4095, {})] }
     (∀ op ∈ [0x13, 0x20, 0x33], Commanded (adm op 0 named) op (slotOfAdm (adm op 0 named)) ∧ (SMap.find (adm op 0 named).spaces 4095).isSome = true) ∧
       (SMap.find (adm 0x33 0 named).spaces 9).isNone = true ∧ 2 ^ 32 - 1 < 2 ^ 32) ∧
    ((0xFFFF_F000 : Word).toNat % 4096 = 0 ∧ (SMap.find (adm 0x21 0).hearth.windows 3).isNone = true ∧
      (SMap.find (adm 0x21 0 (windowed 0)).hearth.windows 3).isSome = true ∧ (∀ t ∈ (adm 0x21 0 (windowed 0)).teams, t.2.block = none)) ∧
    (1 < 2 ∧ 7 / 4 = 1) ∧
    (let l := adm 0x38 0 (base.logFault { cause := .user, detail := 1 })
     l.hearth.flog = l.hearth.flog.headD default :: l.hearth.flog.drop 1 ∧ l.hearth.flog ≠ []) := by
  simp only [Commanded]; decide +kernel

/-- AdminCommands, checkpoints: one that is complete, a restore with spaces, without a checkpoint, and with one; keys and a nonce. -/
theorem witness_AdminCommands_checkpoint : let s := adm 0x3A 0 { base with spaces := [] }
    (let c := base.withHearth fun h => { h with cellar := 1 }
     c.hearth.cellar = 1 ∧ c.writes = [] ∧ c.mortarIn = [] ∧ c.mortar = [] ∧ (∀ x ∈ c.cores, x.2.wloads = []) ∧
      ∀ x ∈ c.hearth.ctxs, x.2.state = .saved) ∧
    ((adm 0x3A 0).spaces ≠ [] ∧ s.spaces = [] ∧ SMap.find s.cellars 0x40 = none ∧
      SMap.find { s with cellars := [(0x40, base.snapshot [])] }.cellars 0x40 = some (base.snapshot []) ∧ s.hearth.cellar ≠ 2 ∧
      ({ s with cellars := [(0x40, base.snapshot [])] }.withHearth fun h => { h with cellar := 2 }).hearth.cellar = 2 ∧
      Commanded { s with cellars := [(0x40, base.snapshot [])] } 0x3A (slotOfAdm s)) ∧
    (7 < 8 ∧ (zeros 32).length = 32) := by
  simp only [Commanded]; decide +kernel

/-- An image file (R56) of a section .text of 64 bytes at 0x100 and .sign. -/
def image0 : List Byte :=
  let head (i al fl off sz ad : Nat) := leBytes 1 i ++ leBytes 1 al ++ leBytes 1 fl ++ zeros 5 ++ leBytes 8 off ++ leBytes 8 sz ++ leBytes 8 ad
  [0x50, 0x4C, 0x59, 0x00] ++ leBytes 2 1 ++ leBytes 2 2 ++ leBytes 4 1 ++ leBytes 2 2 ++ leBytes 2 32 ++ leBytes 8 64 ++ leBytes 8 0x100 ++
    leBytes 8 3600 ++ leBytes 4 9 ++ zeros 20 ++ head 1 3 5 128 64 0x100 ++ head 11 3 0 192 3408 0 ++ zeros 64 ++
    leBytes 4 1 ++ zeros 84 ++ leBytes 4 3309 ++ zeros 3316
/-- It stands at 0x2000. -/
def imaged (keys : SMap KeyPair) : State :=
  let cells := (((List.range 3600).zip image0).filter fun p => p.2 != 0).map fun p => (0x2000 + p.1, p.2)
  paged ((adm 0x3B 0 { base with mem := cells, spaces := [(3, {})] }).withHearth fun h => { h with keys := keys })
/-- What Hearth reads. -/
def imageRead (keys : SMap KeyPair) (a n : Nat) : Except Stop (Option (List Byte)) × State := Act.go (hearthRead 3 a n) (imaged keys)

/-- AdminCommands, images: none that can be read, a file out of order, a file in order whose sections stand as filed. -/
theorem witness_AdminCommands_image :
    Commanded (imaged []) 0x3B (slotOfAdm (imaged [])) ∧ (SMap.find (imaged []).spaces 3).isSome = true ∧
    (match imageRead [] 0x7_0000_0000_0000 100 with | (.ok none, _) => true | _ => false) = true ∧
    (match imageRead [] 0x100 100 with | (.ok (some f), _) => decide (imageSects f 100 = none) | _ => false) = true ∧
    (match imageRead [] 0x2000 3600 with
      | (.ok (some f), s1) => (imageSects f 3600).isSome &&
        (match (Act.go (loadedAsFiled 3 f ((imageSects f 3600).getD [])) s1).1 with | .ok ok => ok | _ => false)
      | _ => false) = true ∧
    ((imageSects image0 3600).getD []).find? (·.ident == 11) = ((imageSects image0 3600).getD [])[1]? := by
  simp only [Commanded]; decide +kernel

/-- Both of its signatures would be accepted with the tail that the keys of zeros and of the neutral point ask for. -/
theorem witness_AdminCommands_signed : let m := image0.take 192; let sign : SectHead := ⟨11, 3, 0, 0, 192, 3408, 0⟩
    (imageSects image0 3600).map (·.find? (·.ident == 11)) = some (some sign) ∧
    signed [(0, { edIdent := 0, edKey := 1 :: zeros 31, mlIdent := 0, mlKey := zeros 1952 })]
      (m ++ (Laws.Signature.signHead ++ ((Laws.Signature.challenged m ++ Laws.Signature.zeroTail) ++ zeros 3))) sign = true :=
  ⟨by decide +kernel, Laws.Signature.signed_accepts _ _ (by decide +kernel) rfl⟩

/-- RoundTrip: a word of a core and of a unit. -/
theorem witness_RoundTrip : WellFormed (.frMovi (jf (.s 5) (.v 0) 0x3FFFFF .n64)) = true ∧
    encode (.frMovi (jf (.s 5) (.v 0) 0x3FFFFF .n64)) ≠ [] ∧ (decodeWord 0x0109C021403FFFFF).isOk = true ∧
    (decodeSill 0x98D03F80).isOk = true := by decide +kernel

/-- A clause of one word in an engine, with team 0's turn next. -/
def turn (w : Word) (eng : Nat) (t : Team := team0) : Team := { t with clause := some { header := 0x1000, eng := eng, words := [w] } }
/-- Its state. -/
def stepping (t : Team) : State := { at0 t with turns := [.team 0] }

/-- StepRunsWord: a word that passes the checks; one that does not, in another engine, in the lanes', and with no lane. -/
theorem witness_StepRunsWord_word : let w : Word := 0x0109C021403FFFFF; let t := turn w 0; let o : OpenClause := { header := 0x1000, eng := 0, words := [w] }
    (ReadyToIssue (stepping t) 0 t o [] ∧ checkWord 0 true 64 64 w = none ∧ decodeWord w = .ok (.frMovi ⟨.n64, 0, 0, .s 5, .v 0, 0x3FFFFF⟩)) ∧
    (let b := turn 0xE400_0000_0000_0000 0
     ReadyToIssue (stepping b) 0 b { o with words := [0xE400_0000_0000_0000] } [] ∧ (checkWord 0 true 64 64 0xE400_0000_0000_0000).isSome = true ∧
      b.reissue = false) ∧
    (∀ exm ∈ [0, 0xF], let l := turn w 1 { team0 with exm := BitVec.ofNat 1024 exm }
      ReadyToIssue (stepping l) 0 l { o with eng := 1 } [] ∧ (checkWord 1 true 64 64 w).isSome = true ∧
        (l.lanesOf (wordKm w)).isEmpty = decide (exm = 0)) := by
  simp only [ReadyToIssue]
  exact ⟨⟨by decide +kernel, by decide +kernel, rfl⟩, by decide +kernel, by decide +kernel⟩

/-- StepRunsWord: a team between clauses, a Sill block at its word, an event. -/
theorem witness_StepRunsWord_turns : let z : State := { before 0 with turns := [.team 0] }
    let b := { block0 with prog := [0x98D03F80] }; let u : State := { onUnit { running := some b } with turns := [.sill 9] }
    (z.turns = .team 0 :: [] ∧ SMap.find z.teams 0 = some teamB ∧ z.awake 0 = true ∧ teamB.clause = none ∧ teamB.block = none ∧
      teamB.delivery = none) ∧
    (u.turns = .sill 9 :: [] ∧ (u.sill 9).running = some b ∧ b.stop = false ∧ (u.sill 9).idx < b.prog.length ∧
      decodeSill (b.prog.getD (u.sill 9).idx 0) = .ok (.slMovi ⟨3, 1, 0x3F80⟩)) ∧
    ({ base with turns := [.event .hearthDecision] } : State).turns = .event .hearthDecision :: [] := by
  refine ⟨by decide +kernel, ⟨by decide +kernel, by decide +kernel, by decide +kernel, by decide +kernel, rfl⟩, rfl⟩

/-- StepKeepsSound: a step of a sound state that answers a next one. -/
theorem witness_StepKeepsSound : (stepping (turn 0x0109C021403FFFFF 0)).Sound ∧
    (match step (stepping (turn 0x0109C021403FFFFF 0)) with | .next _ => true | _ => false) = true := by
  simp only [State.Sound]; decide +kernel

/-! ## Single steps

Expected values are worked out by hand from the rules named. -/

/-- What a reading gives of the state after an instruction. -/
def after {α : Type} (i : Instr) (s : State) (g : State → α) : Option α := match exec i s with | .next s' => some (g s') | _ => none
/-- S[n] of team 0. -/
def sOf (n : Nat) (s : State) : Word := (s.team 0).getS n
/-- V[n] of a lane of team 0. -/
def vOf (l n : Nat) (s : State) : LaneWord := (s.team 0).getV l n

/-- The 32-bit sum wraps and is extended by its sign; the same as n32 is extended by zeros (R74, R79). -/
theorem test_fr_add : let s := at0 (team0.setS 1 0x7FFF_FFFF)
    after (.frAddI (jf (.s 5) (.s 1) 1 .i32)) s (sOf 5) = some 0xFFFF_FFFF_8000_0000 ∧
    after (.frAddI (jf (.s 5) (.s 1) 1 .n32)) s (sOf 5) = some 0x8000_0000 := by decide +kernel

/-- −7 by 2 is −3 with remainder −1; a zero divisor takes FPDIVZ (0x0C) and writes nothing (R82). -/
theorem test_fr_div : let s := at0 ((team0.setS 1 (BitVec.ofInt 64 (-7))).setS 2 2)
    after (.frDiv (tf (.s 5) (.s 1) (.s 2))) s (sOf 5) = some (BitVec.ofInt 64 (-3)) ∧
    after (.frRem (tf (.s 5) (.s 1) (.s 2))) s (sOf 5) = some (BitVec.ofInt 64 (-1)) ∧
    after (.frDiv (tf (.s 4) (.s 1) .zero)) s (fun s => (sOf 4 s, (s.team 0).causeCode, (s.team 0).pc)) = some (0x40, 0x0C, 0x2000) := by
  decide +kernel

/-- fr.movhi shifts D left by 22 and adds the field; FPC keeps four bits (R81, R131). -/
theorem test_fr_moves : let s := at0 ((team0.setS 5 1).setS 6 0xFF)
    after (.frMovhi (jf (.s 5) (.v 0) 0x3FFFFF)) s (sOf 5) = some 0x7F_FFFF ∧
    after (.frCsrw (jf (.s 6) (.v 0) 0x020)) s (fun s => (s.team 0).fpc) = some 0xF := by decide +kernel

/-- A byte of 0x80 is loaded with its sign; a store leaves its low bytes first (R83, R185). -/
theorem test_fr_memory : let s := { at0 team0 with mem := [(0x103, 0x80)] }
    after (.frLd (jf (.s 5) (.s 0) 3 .i8)) s (sOf 5) = some 0xFFFF_FFFF_FFFF_FF80 ∧
    after (.frSt (jf (.s 2) (.s 0) 4 .n32)) s (fun s => s.writes.map fun w => (w.va, w.bytes)) =
      some [(0x104, [0xFE, 0xFF, 0xFF, 0xFF])] := by decide +kernel

/-- A branch of −1 from the first word goes to the header; lanes 0 and 1 part from 2 and 3 (R61, R86, R88). -/
theorem test_ctl : after (.ctlJmp (bf (.v 0) (BitVec.ofInt 30 (-1)))) base (fun s => (s.team 0).after) = some (some (.jump 0x1000)) ∧
    after (.ctlBrv (bf (.v 0) 5 1)) base (fun s => ((s.team 0).exm, (s.team 0).stack.map (·.mask))) = some (3, [0xC]) := by
  decide +kernel

/-- km.set of 30 lanes from lane 20, as the field 0xF014 says, of which the team has 12 (R94). -/
theorem test_km_set : after (.kmSetI ⟨.i8, 0, 0, .k 2, .v 0, 0xF014⟩) base
    (fun s => lanesIn 1024 ((s.team 0).getK 2)) = some ((List.range 12).map (20 + ·)) := by decide +kernel

/-- 100 + 100 saturates to 127 as i8 in each active lane, and a lane outside KM keeps its value (R100). -/
theorem test_ln_add : let t := { team0 with v := [(0, 100), (2, 7), (128, 100), (130, 7), (256, 100), (258, 7)] }
    after (.lnAddT (tf (.v 2) (.v 0) (.v 0) .zero .i8 1 0 1)) (at0 t) (fun s => (vOf 0 2 s, vOf 1 2 s, vOf 2 2 s)) = some (127, 127, 7) := by
  decide +kernel

/-- The sum and the greatest of four lanes' values; a broadcast of lane 2's (R109 to R111). -/
theorem test_xl : after (.xlRed (tf (.s 5) (.v 0) .zero .zero .i32 0)) base (sOf 5) = some 0x430 ∧
    after (.xlRed (tf (.s 5) (.v 0) .zero .zero .i32 2)) base (sOf 5) = some 0x118 ∧
    after (.xlBcastI (jf (.s 5) (.v 0) 2 .i32)) base (sOf 5) = some 0x110 := by decide +kernel

/-- 1.5 + 1.5 = 3; 1.5 / 0 is an infinity and raises Divide by Zero (R143, R148). -/
theorem test_fp : let f := tf (.v 8) (.v 0) (.v 2) .zero .f32; let g := { f with b := .v 10 }
    after (.fpAdd f) (at0 teamF) (vOf 3 8) = some 0x4040_0000 ∧
    after (.fpDiv g) (at0 teamF) (fun s => (vOf 0 8 s, (s.team 0).fpf)) = some (0x7F80_0000, 2) := by decide +kernel

/-- 1 + 1 = 2 in decimal64 (R126, R153). -/
theorem test_dc_add : let t := { team0 with v := [(0, 1), (1, 0x31C0_0000), (2, 1), (3, 0x31C0_0000)], exm := 1 }
    after (.dcAdd (tf (.v 4) (.v 0) (.v 2) .zero .d64)) (at0 t) (fun s => (vOf 0 4 s, vOf 0 5 s)) = some (2, 0x31C0_0000) := by
  decide +kernel

/-- The 64 elements of a row of bf16 ones by a tile of zeros add nothing to 3.0; mx.azero clears it (R174, R180). -/
theorem test_mx : let t := { team0 with exm := 1, acc := [(0, 0x4040_0000)], v := (List.range 32).map fun r => (r, 0x3F80_3F80) }
    let s := latched (.held 0) t
    after (.mxMma (tf (.v 0) (.v 0) (ty := .bf16))) s (fun s => (s.team 0).getAcc 0 0) = some 0x4040_0000 ∧
    after (.mxAzero (tf (.v 0) (.v 0))) s (fun s => (s.team 0).getAcc 0 0) = some 0 := by decide +kernel

/-- A device-scope add gives the old word and leaves the sum (R195). -/
theorem test_mem_atom : let t := { team0 with exm := 1, v := [(0, 0x100), (4, 5)] }
    let s := { at0 t with mem := [(0x100, 0xFF)] }
    after (.memAtom (tf (.v 2) (.v 0) (.v 4) .zero .i32 0)) s (fun s => (vOf 0 2 s, readBytes s.mem 0x100 2)) = some (0xFF, [4, 1]) := by
  decide +kernel

/-- lt.adv by 7 takes [1, 5] to [1, 12]; nm.ratio gives 5 sixteenths of 100 (R263, R325). -/
theorem test_time_and_split : after (.ltAdv (tf (.s 1) .zero)) (timed teamT) (fun s => (s.team 0).now) = some [1, 12] ∧
    after (.nmRatio (tf (.s 5) (.s 6) .zero .zero .i8 5)) (at0 (team0.setS 6 100)) (fun s => (sOf 5 s, (s.team 0).split)) = some (31, 5) := by
  decide +kernel

/-- sys.trap enters the handler at TRAPH with USER (0x19) and two words of CAUSE count; its record names MOD (R352, R374). -/
theorem test_sys_trap : after (.sysTrap (tf .zero .zero .zero .zero .i8 9)) base
    (fun s => ((s.team 0).handler, (s.team 0).pc, (s.team 0).causeCode, (s.team 0).causeCount, (s.team 0).handled.map (·.detail))) =
      some (true, 0x2000, 0x19, 1, [9]) := by decide +kernel

/-- 1 + 1 = 2 in each FP16 element of a unit; sl.ag adds a negative offset (R317, R322). -/
theorem test_sl : let u := { unit0 with w := [(1, BitVec.ofNat 256 0x3C00_3C00), (2, BitVec.ofNat 256 0x3C00_0000)] }
    after (.slAdd ⟨3, 1, 2, 0, 0, 0⟩) (onUnit u) (fun s => (s.sill 9).getW 3) = some (BitVec.ofNat 256 0x4000_3C00) ∧
    after (.slAg ⟨3, 0, 0, BitVec.ofInt 22 (-64)⟩) (onUnit u) (fun s => (s.sill 9).getG 3) = some 0x1000 := by decide +kernel

/-- A step takes the header of the next clause and opens it, with its words (R16, R58). -/
theorem test_step_header : (match step { before (headers.getD 0 0) with turns := [.team 0] } with
    | .next s => (s.team 0).clause.map fun o => (o.header, o.words.length)
    | _ => none) = some (0x200, 4) := by decide +kernel

/-- SET_CAP of 2,000 W is completed and takes effect with the next setting of the budget (R384). -/
theorem test_set_cap : after (.setCap 2000) (adm 0x30 0) (fun s => (s.hearth.capNext, s.hearth.admci)) = some (600, 1) := by decide +kernel

end Sys2Proof.Tests
end

section
/-! PROOF. Whose turn a step takes and what it runs (R16, R18, R20, R69; log 1). -/

open Sys2Proof Sys2Proof.Machine Sys2Proof.Claims
namespace Sys2Proof.Machine


theorem SMap.find_map {α : Type} {m : SMap α} {k : Nat} {v : α} (f : α → α) (h : SMap.find m k = some v) :
    SMap.find (m.map fun e => (e.1, f e.2)) k = some (f v) := by
  induction m with
  | nil => cases h
  | cons e m ih =>
    simp only [SMap.find, List.map_cons] at h ⊢
    split at h
    · cases h; simp_all
    · simp_all

/-- A record of a word or of a header names lane 0 until a lane is written into it. -/
theorem Team.record_lane (t : Team) (c : Cause) (d : Nat) : { t.record c d with lane := 0 } = t.record c d := by
  unfold Team.record
  split <;> rfl

/-! ## Turns -/

/-- A decided turn is taken off the list. -/
theorem State.nextTurn_cons {s : State} {x : Turn} {rest : List Turn} (h : s.turns = x :: rest) :
    s.nextTurn = (x, { s with turns := rest }) := by
  simp only [State.nextTurn, h]

/-- A step whose turn comes to an instruction executes it. -/
theorem step_run {s s' : State} {x : Turn} {rest : List Turn} {ins : Instr} (h : s.turns = x :: rest)
    (hp : ({ s with turns := rest } : State).pick x = .run s' ins) : step s = exec ins s' := by
  simp only [step, State.nextTurn_cons h, hp]

/-- A step whose turn comes to a state answers it. -/
theorem step_done {s s' : State} {x : Turn} {rest : List Turn} (h : s.turns = x :: rest)
    (hp : ({ s with turns := rest } : State).pick x = .done s') : step s = .next s' := by
  simp only [step, State.nextTurn_cons h, hp]

/-- A team that may issue is awake. -/
theorem State.awake_of_mayIssue {s : State} {i : Nat} (h : s.mayIssue i = true) : s.awake i = true := by
  simp only [State.mayIssue, Bool.and_eq_true] at h
  exact h.1


/-- Counting an issue leaves a team's active lanes as they are. -/
@[simp] theorem Team.counted_lanesOf (t : Team) (eng : Nat) (w : Word) (k : Nat) : (t.counted eng w).lanesOf k = t.lanesOf k := rfl

/-- Passing a team leaves every team as it was, but for whom it lets ahead. -/
theorem State.find_passed {s : State} {i j : Nat} {t : Team} (h : SMap.find s.teams j = some t) :
    ∃ b, SMap.find (s.passed i).teams j = some { t with behind := b } := by
  unfold State.passed
  split
  · exact ⟨_, SMap.find_map (fun u : Team => { u with behind := u.behind.erase i }) h⟩
  · exact ⟨t.behind, h⟩

/-- The state in which the next word of a team issues, its turn taken and a first issue counted. -/
def State.issued (s : State) (i : Nat) (t : Team) (o : OpenClause) : State :=
  if t.reissue then s else (s.passed i).withTeam i fun t => t.counted o.eng (o.words.getD o.idx 0)

/-- What the issue of a word comes to, by the check of R69. -/
theorem State.issue_eq {s : State} {i : Nat} {t : Team} (o : OpenClause) (hf : SMap.find s.teams i = some t)
    (hk : t.keptKey = false) :
    s.issue i o =
      let w := o.words.getD o.idx 0
      match checkWord o.eng (o.idx + 1 == o.words.length) t.desc.vregs t.desc.sregs w with
      | some n => .done ((s.issued i t o).illegal i n o w)
      | none =>
        match decodeWord w with
        | .ok ins => .run { s.issued i t o with cur := some i, curUnit := none } ins
        | .error _ => .done (s.issued i t o) := by
  simp only [State.issue, State.team_of_find hf, hk, State.issued]
  rfl

/-- A word that fails the check in an engine that is not the lanes' traps. -/
theorem State.illegal_of_checked (s : State) (i n : Nat) {o : OpenClause} (w : Word) (h : o.eng ≠ 1) :
    s.illegal i n o w = s.trapInstr i [(s.team i).record .encoding n] := by
  simp only [State.illegal, h, decide_false, Bool.false_and, Bool.false_eq_true, if_false]
  rw [Team.record_lane]

/-- A word of the lanes that fails it without an active lane is a no-operation, else it traps in the first one. -/
theorem State.illegal_of_lanes (s : State) (i n : Nat) {o : OpenClause} (w : Word) (h : o.eng = 1) :
    s.illegal i n o w =
      if (s.team i).lanesOf (wordKm w) = [] then s.retire i
      else s.trapInstr i [{ (s.team i).record .encoding n with lane := ((s.team i).lanesOf (wordKm w)).headD 0 }] := by
  simp only [State.illegal, h, decide_true, Bool.true_and, if_true, List.isEmpty_iff]


/-- A first issue counts for the team, whose active lanes stay. -/
theorem State.lanesOf_counted {s : State} {i : Nat} {t : Team} (eng : Nat) (w : Word) (k : Nat)
    (hf : SMap.find s.teams i = some t) :
    (((s.passed i).withTeam i fun t => t.counted eng w).team i).lanesOf k = t.lanesOf k := by
  obtain ⟨b, hb⟩ := State.find_passed (i := i) hf
  rw [State.team_withTeam _ hb]
  rfl

/-- A team between two clauses takes its header. -/
theorem step_header {s : State} {i : Nat} {t : Team} {rest : List Turn} (ht : s.turns = .team i :: rest)
    (hf : SMap.find s.teams i = some t) (ha : s.awake i = true) (hc : t.clause = none) (hb : t.block = none)
    (hd : t.delivery = none) : step s = exec (.clauseHeader i) { s with turns := rest, cur := none, curUnit := none } := by
  have ht' : ({ s with turns := rest } : State).team i = t := State.team_of_find hf
  have ha' : ({ s with turns := rest } : State).awake i = true := ha
  refine step_run ht ?_
  simp [State.pick, State.teamTurn, ht', ha', hc, hb, hd, State.act]

/-- A Sill unit runs the word at its index. -/
theorem step_sill {s : State} {c : Nat} {b : SillBlock} {ins : Instr} {rest : List Turn} (ht : s.turns = .sill c :: rest)
    (hr : (s.sill c).running = some b) (hs : b.stop = false) (hi : (s.sill c).idx < b.prog.length)
    (hd : decodeSill (b.prog.getD (s.sill c).idx 0) = .ok ins) :
    step s = exec ins { s with turns := rest, cur := none, curUnit := some c } := by
  have hu : ({ s with turns := rest } : State).sill c = s.sill c := rfl
  refine step_run ht ?_
  simp only [State.pick, State.sillTurn, hu, hr, hs, Bool.false_and, Bool.false_eq_true, if_false, if_neg (Nat.not_le.mpr hi), hd]

end Sys2Proof.Machine

namespace Sys2Proof.Claims

/-- A team free to issue the next word of its clause issues it. -/
theorem ReadyToIssue.pick {s : State} {i : Nat} {t : Team} {o : OpenClause} {rest : List Turn} (h : ReadyToIssue s i t o rest) :
    ({ s with turns := rest } : State).pick (.team i) = ({ s with turns := rest } : State).issue i o := by
  obtain ⟨-, hf, hm, hc, hd, hb, -, hw⟩ := h
  have ht : ({ s with turns := rest } : State).team i = t := State.team_of_find hf
  have hm' : ({ s with turns := rest } : State).mayIssue i = true := hm
  simp [State.pick, State.teamTurn, ht, State.awake_of_mayIssue hm', hm', hc, hd, hb, hw]

/-- A word that passes the check of R69 executes, in the state in which it is at issue. -/
theorem ReadyToIssue.step_checked {s : State} {i : Nat} {t : Team} {o : OpenClause} {rest : List Turn}
    (h : ReadyToIssue s i t o rest) {ins : Instr}
    (hc : checkWord o.eng (o.idx + 1 == o.words.length) t.desc.vregs t.desc.sregs (o.words.getD o.idx 0) = none)
    (hd : decodeWord (o.words.getD o.idx 0) = .ok ins) : step s = exec ins (issuing s i t o rest) := by
  have hp := h.pick
  obtain ⟨ht, hf, -, -, -, -, hk, -⟩ := h
  refine step_run ht (hp.trans ?_)
  rw [State.issue_eq (s := { s with turns := rest }) o hf hk]
  simp only [hc, hd]
  rfl

/-- A word that fails it leaves the step with what becomes of an illegal word. -/
theorem ReadyToIssue.step_illegal {s : State} {i : Nat} {t : Team} {o : OpenClause} {rest : List Turn}
    (h : ReadyToIssue s i t o rest) {n : Nat}
    (hc : checkWord o.eng (o.idx + 1 == o.words.length) t.desc.vregs t.desc.sregs (o.words.getD o.idx 0) = some n) :
    step s = .next ((({ s with turns := rest } : State).issued i t o).illegal i n o (o.words.getD o.idx 0)) := by
  have hp := h.pick
  obtain ⟨ht, hf, -, -, -, -, hk, -⟩ := h
  refine step_done ht (hp.trans ?_)
  rw [State.issue_eq (s := { s with turns := rest }) o hf hk]
  simp only [hc]

/-- Settles O58: each kind of turn by the lemma about it. -/
theorem stepRunsWord : Obligations.StepRunsWord := by
  refine ⟨fun s i t o rest h => ⟨fun ins hc hd => h.step_checked hc hd, fun n hc hr => ?_⟩,
    fun s i t rest ht hf ha hc hb hd => step_header ht hf ha hc hb hd,
    fun s c b ins rest ht hr hs hi hd => step_sill ht hr hs hi hd, fun s e rest ht => step_run ht rfl⟩
  have hf : SMap.find ({ s with turns := rest } : State).teams i = some t := h.2.1
  have hstep := h.step_illegal hc
  simp only [State.issued, hr, Bool.false_eq_true, if_false] at hstep
  refine ⟨fun he => ?_, fun he hl => ?_, fun he hl => ?_⟩
  · rw [hstep, State.illegal_of_checked _ _ _ _ he]
  · rw [hstep, State.illegal_of_lanes _ _ _ _ he, State.lanesOf_counted _ _ _ hf, if_pos hl]
  · rw [hstep, State.illegal_of_lanes _ _ _ _ he, State.lanesOf_counted _ _ _ hf, if_neg hl]

end Sys2Proof.Claims
end

section
/-! PROOF. ctl.brv and ctl.join: how lanes part and come together (R26, R61, R87, R88). -/

open Sys2Proof Sys2Proof.Machine Sys2Proof.Claims

namespace Sys2Proof.Machine

/-! ## Branch targets -/

/-- The target of a branch, in words from the word at issue. -/
theorem targetOf_wordAt (t : Team) (f : BForm) : targetOf t.wordAt f = branchTarget t f := by
  unfold targetOf branchTarget
  rw [BitVec.shiftLeft_eq_mul_twoPow, BitVec.signExtend, show BitVec.twoPow 64 3 = BitVec.ofInt 64 8 from rfl,
    ← BitVec.ofInt_mul, Int.mul_comm]

variable {s : State} {i : Nat} {t : Team}

/-- A transfer is set for the clause's end. -/
theorem AtIssue.go_jumpTo (h : AtIssue s i t) (a : Word) : Act.go (jumpTo a) s = (.ok (), s.withTeam i fun _ => jumping t a) :=
  h.go_modTm _

/-- A change of the team with a transfer behind it. -/
theorem AtIssue.go_modTm_jumpTo (h : AtIssue s i t) (g : Team → Team) (a : Word) :
    Act.go (do modTm g; jumpTo a) s = (.ok (), s.withTeam i fun _ => jumping (g t) a) := by
  rw [Act.go_bind_ok (h.go_modTm g), (h.withTeam _).go_jumpTo, State.withTeam_withTeam]

/-- A fault of the word at issue without an address. -/
theorem AtIssue.go_fail_zero (h : AtIssue s i t) {α : Type} (c : Cause) (d : Nat) :
    Act.go (fail (α := α) c d) s = (.error (.trap [t.record c d]), s) := by
  rw [h.go_fail]
  unfold Team.record
  split <;> rfl

/-- An instruction whose action traps and changed nothing. -/
theorem AtIssue.traps {ins : Instr} {act : Act Unit} {rs : List Rec} (h : AtIssue s i t) (he : exec ins s = runCore act s)
    (ha : Act.go act s = (.error (.trap rs), s)) : Traps ins s i rs := by
  rw [Traps, he]
  exact runCore_trap h.1 h.2 ha

/-! ## ctl.brv -/

/-- Where no lane takes the branch nothing happens. -/
theorem go_ctlBrv_none (h : AtIssue s i t) {f : BForm} (hy : t.exm &&& t.getK f.km.val = 0) :
    Act.go (ctlBrv f) s = (.ok (), s) := by
  unfold ctlBrv
  rw [Act.go_bind_ok h.go_tm]
  simp only [hy, if_true, Act.go_pure]

/-- Where every lane takes it the team jumps. -/
theorem go_ctlBrv_all (h : AtIssue s i t) {f : BForm} (hy : t.exm &&& t.getK f.km.val ≠ 0)
    (hn : t.exm &&& ~~~ t.getK f.km.val = 0) :
    Act.go (ctlBrv f) s = (.ok (), s.withTeam i fun _ => jumping t (branchTarget t f)) := by
  unfold ctlBrv
  rw [Act.go_bind_ok h.go_tm]
  simp only [hy, hn, if_false, if_true, h.go_jumpTo, targetOf_wordAt]

/-- Where the lanes part, those that do not take it stand on the stack. -/
theorem go_ctlBrv_part (h : AtIssue s i t) {f : BForm} (hy : t.exm &&& t.getK f.km.val ≠ 0)
    (hn : t.exm &&& ~~~ t.getK f.km.val ≠ 0) (hr : t.stack.length < 32) :
    Act.go (ctlBrv f) s = (.ok (), s.withTeam i fun _ => jumping
      { t with stack := ⟨.pending, t.nextHeader, t.exm &&& ~~~ t.getK f.km.val⟩ :: t.stack, exm := t.exm &&& t.getK f.km.val }
      (branchTarget t f)) := by
  unfold ctlBrv
  rw [Act.go_bind_ok h.go_tm]
  simp only [hy, hn, if_false, show ¬ stackDepth ≤ t.stack.length from Nat.not_le.mpr hr, targetOf_wordAt]
  exact h.go_modTm_jumpTo _ _

/-- Where the stack is full they cannot. -/
theorem go_ctlBrv_full (h : AtIssue s i t) {f : BForm} (hy : t.exm &&& t.getK f.km.val ≠ 0)
    (hn : t.exm &&& ~~~ t.getK f.km.val ≠ 0) (hr : 32 ≤ t.stack.length) :
    Act.go (ctlBrv f) s = (.error (.trap [t.record .cstack 0]), s) := by
  unfold ctlBrv
  rw [Act.go_bind_ok h.go_tm]
  simp only [hy, hn, if_false, show stackDepth ≤ t.stack.length from hr, if_true, h.go_fail_zero]

/-! ## ctl.join -/

/-- At a PENDING entry the other side's turn comes, and this one waits under MERGE. -/
theorem go_ctlJoin_pending (h : AtIssue s i t) {p : Word} {m : Mask} {rest : List StackEntry}
    (hs : t.stack = ⟨.pending, p, m⟩ :: rest) :
    Act.go ctlJoin s = (.ok (), s.withTeam i fun _ => jumping
      { t with stack := ⟨.merge, t.nextHeader, t.exm⟩ :: rest, exm := m } p) := by
  unfold ctlJoin
  rw [Act.go_bind_ok h.go_tm]
  simp only [hs]
  exact h.go_modTm_jumpTo _ _

/-- At a MERGE entry both sides go on together. -/
theorem go_ctlJoin_merge (h : AtIssue s i t) {p : Word} {m : Mask} {rest : List StackEntry}
    (hs : t.stack = ⟨.merge, p, m⟩ :: rest) :
    Act.go ctlJoin s = (.ok (), s.withTeam i fun _ => jumping { t with stack := rest, exm := t.exm ||| m } p) := by
  unfold ctlJoin
  rw [Act.go_bind_ok h.go_tm]
  simp only [hs]
  exact h.go_modTm_jumpTo _ _

/-- A PARK entry is none that a join may pop. -/
theorem go_ctlJoin_park (h : AtIssue s i t) {p : Word} {m : Mask} {rest : List StackEntry}
    (hs : t.stack = ⟨.park, p, m⟩ :: rest) : Act.go ctlJoin s = (.error (.trap [t.record .cstack 0]), s) := by
  unfold ctlJoin
  rw [Act.go_bind_ok h.go_tm]
  simp only [hs, h.go_fail_zero]

/-- Nor is there one on an empty stack. -/
theorem go_ctlJoin_empty (h : AtIssue s i t) (hs : t.stack = []) :
    Act.go ctlJoin s = (.error (.trap [t.record .cstack 0]), s) := by
  unfold ctlJoin
  rw [Act.go_bind_ok h.go_tm]
  simp only [hs, h.go_fail_zero]

end Sys2Proof.Machine

namespace Sys2Proof.Claims

/-- Settles O8: every row of R26 for ctl.brv and ctl.join is what the action comes to there. -/
theorem divergence : Obligations.Divergence := by
  intro f g s i t h
  exact ⟨fun hy => h.completes_self rfl (go_ctlBrv_none h hy), fun hy hn => h.completes rfl (go_ctlBrv_all h hy hn),
    fun hy hn hr => h.completes rfl (go_ctlBrv_part h hy hn hr), fun hy hn hr => h.traps rfl (go_ctlBrv_full h hy hn hr),
    fun p m rest hs => h.completes rfl (go_ctlJoin_pending h hs), fun p m rest hs => h.completes rfl (go_ctlJoin_merge h hs),
    fun p m rest hs => h.traps rfl (go_ctlJoin_park h hs), fun hs => h.traps rfl (go_ctlJoin_empty h hs)⟩

end Sys2Proof.Claims
end

section
/-! PROOF. What no reply, return, record or write at a slice changes of any team: whether it is there, where it
stands, what it has issued, where it comes from. A team that ends has ended (R33). -/

open Sys2Proof Sys2Proof.Machine

namespace Sys2Proof.Machine

/-! ## Standing -/

/-- What of a team no return of lanes, reply or record changes: where it is, how many units it has issued, and
where it comes from. -/
def Team.standing (t : Team) : Place × Nat × Nat := (t.place, t.issued, t.origin)

/-- Every team stands in one state as in another, and no team comes or goes. -/
def State.Stands (s s' : State) : Prop :=
  ∀ j, (SMap.find s'.teams j).map Team.standing = (SMap.find s.teams j).map Team.standing

theorem State.Stands.refl (s : State) : s.Stands s := fun _ => rfl
theorem State.Stands.trans {a b c : State} (h : a.Stands b) (k : b.Stands c) : a.Stands c := fun j => (k j).trans (h j)
theorem State.Stands.of_teams {s s' : State} (h : s'.teams = s.teams) : s.Stands s' := fun j => by rw [h]

/-- A change of a team that keeps how it stands. -/
theorem State.stands_withTeam (s : State) (i : Nat) {f : Team → Team} (h : ∀ t, (f t).standing = t.standing) :
    s.Stands (s.withTeam i f) := by
  intro j
  by_cases e : j = i
  · subst e
    cases hf : SMap.find s.teams j with
    | none => simp [State.withTeam, SMap.alter, hf]
    | some t => simp only [State.find_withTeam f hf, Option.map_some, h]
  · rw [State.withTeam_teams, SMap.find_alter_other _ _ e]

/-- Steps that each keep how teams stand, one after another. -/
theorem State.stands_foldl {α : Type} {f : State → α → State} (h : ∀ (s : State) a, s.Stands (f s a)) (l : List α) (s : State) :
    s.Stands (l.foldl f s) := by
  induction l generalizing s with
  | nil => exact .refl s
  | cons a l ih => exact (h s a).trans (ih _)

theorem State.Stands.find {s s' : State} (h : s.Stands s') {i : Nat} {t : Team} (hf : SMap.find s.teams i = some t) :
    ∃ u, SMap.find s'.teams i = some u ∧ u.standing = t.standing := by
  have hj := h i
  rw [hf] at hj
  simpa using hj

theorem State.Stands.standing {s s' : State} (h : s.Stands s') (i : Nat) : (s'.team i).standing = (s.team i).standing := by
  have hj := h i
  simp only [State.team, SMap.val]
  cases h1 : SMap.find s.teams i <;> cases h2 : SMap.find s'.teams i <;> simp_all

theorem State.Stands.place {s s' : State} (h : s.Stands s') (i : Nat) : (s'.team i).place = (s.team i).place :=
  congrArg (·.1) (h.standing i)
theorem State.Stands.issued {s s' : State} (h : s.Stands s') (i : Nat) : (s'.team i).issued = (s.team i).issued :=
  congrArg (·.2.1) (h.standing i)
theorem State.Stands.origin {s s' : State} (h : s.Stands s') (i : Nat) : (s'.team i).origin = (s.team i).origin :=
  congrArg (·.2.2) (h.standing i)

/-! ## Returns (R91, R92) -/

@[simp] theorem Team.returnLane_standing (t : Team) (l : Nat) : (t.returnLane l).standing = t.standing := by
  simp only [Team.returnLane]
  split
  · split <;> rfl
  · rfl

theorem State.stands_laneBack (s : State) (r : Return) : s.Stands (s.laneBack r) :=
  s.stands_withTeam _ fun t => t.returnLane_standing r.lane

theorem State.stands_flushReturns (s : State) (i : Nat) : s.Stands (s.flushReturns i) := by
  unfold State.flushReturns
  exact State.Stands.trans (.of_teams rfl) (State.stands_foldl State.stands_laneBack _ _)

theorem State.stands_returnsTo (s : State) (i parent lane : Nat) : s.Stands (s.returnsTo i parent lane) :=
  State.Stands.trans (.of_teams rfl) (State.stands_flushReturns _ _)


theorem State.stands_ackUnit (s : State) (i u : Nat) : s.Stands (s.ackUnit i u) := by
  unfold State.ackUnit
  refine State.Stands.trans ?_ (State.stands_flushReturns _ _)
  exact s.stands_withTeam i fun _ => rfl

/-! ## Slices (R186, R215, R389) -/

@[simp] theorem Team.land_standing (t : Team) (r : Result) : (t.land r).standing = t.standing := by
  unfold Team.land
  split <;> dsimp only <;> split <;> rfl

theorem State.stands_ackOp (s : State) (i op : Nat) : s.Stands (s.ackOp i op) := by
  refine s.stands_withTeam i fun t => ?_
  dsimp only
  split
  · rfl
  · split
    · split <;> rfl
    · rfl

theorem State.stands_answer (s : State) (m : MortarOp) (v poison : Nat) : s.Stands (s.answer m v poison) := by
  unfold State.answer
  dsimp only
  split
  · refine (s.stands_withTeam m.team fun t => ?_).trans (State.stands_ackOp _ _ _)
    split
    · rfl
    · split <;> simp
  · exact State.stands_ackOp _ _ _

theorem State.stands_tag (s : State) (key n asid : Nat) : s.Stands (s.tag key n asid) := by
  unfold State.tag
  split
  · refine State.stands_foldl (fun s p => ?_) _ _
    exact .of_teams rfl
  · exact .refl s

theorem State.stands_cover (s : State) (group key n : Nat) : s.Stands (s.cover group key n) := by
  unfold State.cover
  split
  · refine State.stands_foldl (fun s p => ?_) _ _
    dsimp only
    split
    · split
      · exact .of_teams rfl
      · split <;> exact .of_teams rfl
    · exact .refl s
  · exact .refl s

theorem State.stands_applyEntry (s : State) (m : MortarOp) : s.Stands (s.applyEntry m) := by
  unfold State.applyEntry
  split
  · exact s.stands_answer m _ _
  · exact State.Stands.trans (.of_teams rfl) (State.stands_tag _ _ _ _)

theorem State.stands_drainOver (s : State) (key n : Nat) : s.Stands (s.drainOver key n) := by
  unfold State.drainOver
  dsimp only
  split
  · exact State.Stands.trans (.of_teams rfl) (State.stands_foldl State.stands_applyEntry _ _)
  · exact .refl s

theorem State.stands_store (s : State) (key : Nat) (bs : List Byte) (asid group : Nat) : s.Stands (s.store key bs asid group) := by
  unfold State.store State.storeKept
  refine State.Stands.trans (State.Stands.trans ?_ (State.stands_tag _ _ _ _)) (State.stands_cover _ _ _ _)
  exact (s.stands_drainOver key bs.length).trans (.of_teams rfl)

/-! ## Actions -/

/-- An action after which every team stands as before, however it ends. -/
def Act.Stands {α : Type} (m : Act α) : Prop := ∀ s : State, s.Stands (Act.go m s).2

theorem Act.Stands.pure {α : Type} (a : α) : Act.Stands (pure a) := fun s => .refl s
theorem Act.Stands.get : Act.Stands get := fun s => .refl s
theorem Act.Stands.modify {f : State → State} (h : ∀ s : State, s.Stands (f s)) : Act.Stands (modify f) := h

theorem Act.Stands.ite {α : Type} {c : Prop} [Decidable c] {m n : Act α} (hm : Act.Stands m) (hn : Act.Stands n) :
    Act.Stands (if c then m else n) := by
  split
  · exact hm
  · exact hn

theorem Act.Stands.bind {α β : Type} {m : Act α} {f : α → Act β} (hm : Act.Stands m) (hf : ∀ a, Act.Stands (f a)) :
    Act.Stands (m >>= f) := by
  intro s
  rw [Act.go_bind]
  have h := hm s
  rcases hg : Act.go m s with ⟨r, s'⟩
  rw [hg] at h
  cases r with
  | ok a => exact h.trans (hf a s')
  | error e => exact h

theorem Act.Stands.mapM {α β : Type} {f : α → Act β} (h : ∀ a, Act.Stands (f a)) (l : List α) : Act.Stands (l.mapM f) := by
  induction l with
  | nil => exact .pure _
  | cons a l ih =>
    rw [List.mapM_cons]
    exact (h a).bind fun b => ih.bind fun bs => .pure _

/-! ## Walks and page requests (R336, R345) -/

theorem stands_readPhys (key n : Nat) : Act.Stands (readPhys key n) :=
  .bind (.bind (.modify fun s => s.stands_drainOver key n) fun _ => .bind .get fun _ => .pure _) fun _ => .pure _

theorem stands_readEntry (addr : Nat) : Act.Stands (readEntry addr) :=
  .bind .get fun _ => .bind (stands_readPhys _ _) fun _ => .pure _

theorem stands_walkTo (va : Nat) (levels : List Nat) (table : Nat) : Act.Stands (walkTo va levels table) := by
  induction levels generalizing table with
  | nil => exact .pure _
  | cons level rest ih =>
    refine .bind (stands_readEntry _) fun p => ?_
    exact .ite (.pure _) (.ite (.pure _) (.ite (.pure _) (ih _)))

theorem stands_walk (asid va u g : Nat) (need : Need) : Act.Stands (walk asid va u g need) := by
  refine .bind .get fun s => .bind (stands_walkTo _ _ _) fun r => ?_
  match r with
  | .error e => exact .pure _
  | .ok (level, lo, hi, at_) =>
    refine .ite (.pure _) (.ite (.pure _) (.ite
      (.bind (.mapM (fun i => stands_readEntry _) _) fun _ => .bind (.pure _) fun good => ?_) (.bind (.pure _) fun good => ?_)))
    all_goals
      refine .ite (.pure _) (.ite (.pure _) (.ite (.pure _) (.ite (.pure _) ?_)))
      dsimp only
      split <;> exact .pure _

theorem State.stands_keep (s : State) (h : Holder) (e : Tlb) (walked : Bool) : s.Stands (s.keep h e walked) := by
  cases h <;> cases walked
  case lane.true i l => exact State.Stands.trans (.of_teams rfl) (State.stands_withTeam _ _ fun _ => rfl)
  case lane.false i l => exact State.stands_withTeam _ _ fun _ => rfl
  case front.true i => exact State.Stands.trans (.of_teams rfl) (State.stands_withTeam _ _ fun _ => rfl)
  case front.false i => exact State.stands_withTeam _ _ fun _ => rfl
  all_goals exact .of_teams rfl

theorem stands_leafFor (h : Holder) (asid u g a : Nat) (need : Need) : Act.Stands (leafFor h asid u g a need) := by
  refine .bind .get fun s => ?_
  split
  · exact .bind (.modify fun s => s.stands_keep _ _ _) fun _ => .pure _
  · refine .bind (stands_walk _ _ _ _ _) fun r => ?_
    split
    · exact .pure _
    · exact .bind (.modify fun s => s.stands_keep _ _ _) fun _ => .pure _

theorem stands_translate (h : Holder) (asid u g : Nat) (va : Word) (need : Need) : Act.Stands (translate h asid u g va need) := by
  refine .ite (.pure _) (.bind (stands_leafFor _ _ _ _ _ _) fun r => ?_)
  split
  · exact .bind .get fun _ => .pure _
  · exact .pure _

theorem stands_postRequest (asid u g : Nat) (va : Word) (c : Cause) (detail access : Nat) :
    Act.Stands (postRequest asid u g va c detail access) := by
  intro s
  unfold postRequest
  rw [Act.go_bind_ok (Act.go_get s)]
  dsimp only
  split
  · exact .refl s
  · split
    · exact .refl s
    · exact ((s.stands_store _ _ _ _).trans (State.stands_store _ _ _ _ _)).trans (.of_teams (State.withHearth_teams _ _))

/-! ## Counts and floors (R253, R338) -/

theorem State.stands_settleFloor (s : State) (asid t : Nat) : s.Stands (s.settleFloor asid t) := by
  unfold State.settleFloor
  dsimp only
  split
  · exact .refl s
  · split
    · exact .of_teams rfl
    · exact State.Stands.trans (.of_teams rfl) (State.stands_store _ _ _ _ _)

theorem State.stands_dropCount (s : State) (asid t loc : Nat) (st : Stamp) (n : Nat) : s.Stands (s.dropCount asid t loc st n) := by
  unfold State.dropCount
  exact State.Stands.trans (.of_teams rfl) (State.stands_settleFloor _ _ _)

theorem State.stands_releaseHolds (s : State) (i : Nat) : s.Stands (s.releaseHolds i) := by
  unfold State.releaseHolds
  refine State.Stands.trans (State.stands_foldl (fun s h => ?_) (s.team i).holds s) (State.stands_withTeam _ _ fun _ => rfl)
  exact .of_teams rfl

/-! ## Records (R354, R366) -/

theorem State.stands_logFaults (s : State) (rs : List Rec) : s.Stands (s.logFaults rs) := by
  unfold State.logFaults
  refine State.stands_foldl (fun s r => ?_) rs s
  exact .of_teams (State.withHearth_teams _ _)

theorem State.stands_headerRec (s : State) (i : Nat) (r : Rec) : s.Stands (s.headerRec i r) := by
  unfold State.headerRec
  dsimp only
  split
  · exact .of_teams (State.withHearth_teams _ _)
  · exact s.stands_withTeam _ fun _ => rfl

/-! ## The side log (R347 to R349, R364) -/

theorem State.stands_declareEntry (s : State) (e : SideEntry) (c : Cause) (d : Nat) : s.Stands (s.declareEntry e c d) := by
  unfold State.declareEntry
  exact (s.stands_headerRec _ _).trans (State.stands_ackUnit _ _ _)

theorem State.stands_replayAt (s : State) (e : SideEntry) (key : Nat) : s.Stands (s.replayAt e key) := by
  unfold State.replayAt
  dsimp only
  split
  · exact s.stands_withTeam _ fun _ => rfl
  · split <;> exact .of_teams rfl

theorem stands_replayEntry (e : SideEntry) : Act.Stands (replayEntry e) := by
  refine .bind (stands_translate _ _ _ _ _ _) fun r => ?_
  split
  · exact .bind (.modify fun s => s.stands_replayAt _ _) fun _ => .pure _
  · exact .bind (stands_postRequest _ _ _ _ _ _ _) fun _ => .pure _
  · exact .bind (.modify fun s => s.stands_declareEntry _ _ _) fun _ => .pure _
  · exact .pure _

theorem State.stands_replayLog (s : State) (core : Nat) (p : SideEntry → Bool) : s.Stands (s.replayLog core p) := by
  unfold State.replayLog
  dsimp only
  split
  · exact .refl s
  · refine State.Stands.trans ?_ (State.stands_foldl State.stands_flushReturns _ _)
    refine Act.Stands.bind (.mapM (fun e => .ite (stands_replayEntry e) (.pure _)) _) (fun keep => .modify fun s => ?_) s
    exact .of_teams rfl

theorem State.stands_replaySaved (s : State) (core ctx : Nat) : s.Stands (s.replaySaved core ctx) := by
  unfold State.replaySaved
  dsimp only
  split
  · exact s.stands_replayLog _ _
  · exact .refl s

/-! ## What a team's end concerns (R33, R183, R200, R267, R283, R328) -/

theorem State.stands_startColl (s : State) (core : Nat) (k : Coll) : s.Stands (s.startColl core k) := by
  unfold State.startColl
  refine State.Stands.trans (.of_teams rfl) (State.stands_foldl (fun s x => ?_) _ _)
  dsimp only
  split
  · exact State.stands_foldl (fun s h => s.stands_dropCount _ _ _ _ _) _ _
  · exact .of_teams rfl

theorem State.stands_startColls (s : State) (core : Nat) : s.Stands (s.startColls core) := by
  unfold State.startColls
  refine State.stands_foldl (fun s k => ?_) _ _
  split
  · exact s.stands_startColl _ _
  · exact .refl s

theorem State.stands_detach (s : State) (i : Nat) : s.Stands (s.detach i) := by
  unfold State.detach
  split
  · exact .refl s
  · exact ((s.stands_store _ _ _ _).trans (State.stands_foldl (fun s q => s.stands_dropCount _ _ _ _ _) _ _)).trans (.of_teams rfl)

theorem State.stands_freeAlloc (s : State) (core : Nat) (l : LaunchId) : s.Stands (s.freeAlloc core l) := by
  unfold State.freeAlloc
  extract_lets live mine s0 s1 al s2 moving kept s3' s3
  have h0 : s.Stands s0 := State.stands_foldl (fun s (r : Nat × Ring) => s.stands_detach r.1) mine s
  have h1 : s0.Stands s1 := State.stands_foldl (fun s k => s.stands_startColl core k) _ s0
  have h3 : s1.Stands s3 := by
    dsimp only [s3]
    split
    · exact .of_teams (by simp only [s3', s2, State.withCore_teams])
    · exact .of_teams (State.withCore_teams _ _ _)
  split
  · exact .refl s
  · exact ((h0.trans h1).trans h3).trans (.of_teams (State.withHearth_teams _ _))

theorem State.stands_endOfBlock (s : State) (g : Nat) : s.Stands (s.endOfBlock g) := by
  unfold State.endOfBlock
  split
  · exact .refl s
  · split <;> exact .of_teams rfl

theorem State.stands_stopGrids (s : State) (i : Nat) : s.Stands (s.stopGrids i) := by
  unfold State.stopGrids
  dsimp only
  refine State.Stands.trans (State.stands_foldl (fun s g => ?_) _ s) (State.stands_foldl (fun s u => ?_) _ _)
  · exact State.Stands.trans (.of_teams rfl) (State.stands_foldl (fun s _ => s.stands_endOfBlock g.1) _ _)
  · split
    · exact State.Stands.trans (.of_teams rfl) (State.stands_foldl (fun s (b : SillBlock) => s.stands_endOfBlock b.grid) _ _)
    · exact .refl s

theorem State.stands_retireBind (s : State) (b : Nat) : s.Stands (s.retireBind b) := by
  unfold State.retireBind
  split
  · exact .refl s
  · dsimp only
    split
    · exact .of_teams rfl
    · exact .refl s

/-! ## The end of a team (R32, R33) -/

theorem State.withLaunch_teams (s : State) (l : LaunchId) (f : Launch → Launch) : (s.withLaunch l f).teams = s.teams :=
  s.withRegion_teams _ _
theorem State.settleCtx_teams (s : State) (c : Nat) : (s.settleCtx c).teams = s.teams := s.withHearth_teams _

/-- A team that ends has ended. -/
theorem State.place_endTeam {s : State} {i : Nat} {t : Team} (hf : SMap.find s.teams i = some t) :
    ((s.endTeam i).team i).place = .ended := by
  unfold State.endTeam
  extract_lets t0 open_ sa ta s1 s2 s3 s4 gone s5 s6 s7 s8
  split
  · assumption
  · have ha : s.Stands sa := State.stands_foldl (fun s u => s.stands_ackUnit i u) _ s
    have h1 : sa.Stands s1 := by
      dsimp only [s1]
      split
      · exact .of_teams rfl
      · exact .refl sa
    have h4 : s1.Stands s4 :=
      ((s1.stands_releaseHolds i).trans (State.stands_logFaults _ _)).trans (State.stands_stopGrids _ _)
    obtain ⟨u, hu, -⟩ := ((ha.trans h1).trans h4).find hf
    have h5 : (s5.team i).place = .ended := by rw [State.team_withTeam _ hu]
    have h7 : s5.Stands s7 := by
      refine State.Stands.trans (.trans ?_ (State.stands_startColls _ _)) (State.stands_freeAlloc _ _ _)
      exact .of_teams (s5.withLaunch_teams _ _)
    have h8 : s5.Stands s8 := (h7.trans (State.stands_replaySaved _ _ _)).trans (.of_teams (State.settleCtx_teams _ _))
    split
    · exact ((h8.trans (State.stands_retireBind _ _)).place i).trans h5
    · exact (h8.place i).trans h5

end Sys2Proof.Machine
end

section
/-! PROOF. ctl.exit and ctl.retq: lanes leave their team, and callee lanes return to their parents (R26, R91 to
R93). -/

open Sys2Proof Sys2Proof.Machine Sys2Proof.Claims

namespace Sys2Proof.Machine

/-! ## What returns leave alone -/

@[simp] theorem State.laneBack_serial (s : State) (r : Return) : (s.laneBack r).serial = s.serial := rfl
@[simp] theorem State.laneBack_cur (s : State) (r : Return) : (s.laneBack r).cur = s.cur := rfl

theorem State.foldl_keeps {α β : Type} {f : State → α → State} {g : State → β} (h : ∀ s a, g (f s a) = g s) (l : List α) (s : State) :
    g (l.foldl f s) = g s := by
  induction l generalizing s with
  | nil => rfl
  | cons a l ih => exact (ih _).trans (h s a)

@[simp] theorem State.passBack_serial (s : State) (i l p pl : Nat) : (s.passBack i l p pl).serial = s.serial := by
  unfold State.passBack
  refine State.foldl_keeps (g := State.serial) ?_ _ s
  intros; rfl
@[simp] theorem State.passBack_cur (s : State) (i l p pl : Nat) : (s.passBack i l p pl).cur = s.cur := by
  unfold State.passBack
  refine State.foldl_keeps (g := State.cur) ?_ _ s
  intros; rfl

/-! ## Folds -/

/-- An action for each of a list that only changes the state is a fold. -/
theorem go_forM_modify {α : Type} {act : α → Act Unit} {f : State → α → State} (h : ∀ a s, Act.go (act a) s = (.ok (), f s a))
    (l : List α) (s : State) : Act.go (l.forM act) s = (.ok (), l.foldl f s) := by
  induction l generalizing s with
  | nil => rfl
  | cons a l ih =>
    show Act.go (act a >>= fun _ => l.forM act) s = _
    rw [Act.go_bind_ok (h a s), ih]
    rfl

/-- Two folds agree where their steps agree on every state with a property that the steps keep. -/
theorem foldl_congr_of {σ α : Type} {P : σ → Prop} {f g : σ → α → σ} (h : ∀ s a, P s → f s a = g s a ∧ P (f s a)) (l : List α)
    {s : σ} (hs : P s) : l.foldl f s = l.foldl g s := by
  induction l generalizing s with
  | nil => rfl
  | cons a l ih =>
    obtain ⟨he, hp⟩ := h s a hs
    rw [List.foldl_cons, List.foldl_cons, ih hp, he]

/-! ## ctl.exit (R93) -/

/-- A lane of a callee returns its parent, where a task stands behind it (R92). -/
def State.laneReturns (i : Nat) (t : Team) (s : State) (l : Nat) : State :=
  match t.tasks[l]? with
  | some k => s.returnsTo i k.parent k.lane
  | none => s

/-- The same with the units the team has issued named. -/
def State.laneReturnsAt (i issued : Nat) (t : Team) (s : State) (l : Nat) : State :=
  match t.tasks[l]? with
  | some k => ({ s with returns := s.returns ++ [⟨i, issued, s.serial, k.parent, k.lane⟩] } : State).flushReturns i
  | none => s

theorem State.laneReturns_eq (s : State) (i : Nat) (t : Team) (l : Nat) :
    State.laneReturns i t s l = State.laneReturnsAt i (s.team i).issued t s l := by
  unfold State.laneReturns State.laneReturnsAt
  cases t.tasks[l]? <;> rfl

theorem State.stands_laneReturns (i : Nat) (t : Team) (s : State) (l : Nat) : s.Stands (State.laneReturns i t s l) := by
  unfold State.laneReturns
  split
  · exact s.stands_returnsTo _ _ _
  · exact .refl s

/-- Returns take the units the team has issued, which they leave as they are. -/
theorem State.foldl_laneReturns {s : State} {i n : Nat} (h : (s.team i).issued = n) (t : Team) (lanes : List Nat) :
    lanes.foldl (State.laneReturns i t) s = lanes.foldl (State.laneReturnsAt i n t) s :=
  foldl_congr_of (P := fun s => (s.team i).issued = n) (fun s l hs =>
    ⟨by rw [State.laneReturns_eq, hs], ((State.stands_laneReturns i t s l).issued i).trans hs⟩) lanes h

/-- Only the lanes of tasks have shares to retire. -/
theorem State.exitShares_other {s : State} {i : Nat} (lanes : List Nat) (h : (s.team i).origin ≠ 1) : s.exitShares i lanes = s := by
  simp only [State.exitShares, h, if_false]

variable {s : State} {i : Nat} {t : Team}

/-- Outside a callee team the lanes leave, and shares retire. -/
theorem go_ctlExit (h : AtIssue s i t) {f : TForm} (ho : t.origin ≠ 2) :
    Act.go (ctlExit f) s =
      (.ok (), (s.withTeam i fun _ => t.exitLanes (maskOf (t.lanesOf f.km.val))).exitShares i (t.lanesOf f.km.val)) := by
  unfold ctlExit
  rw [Act.go_bind_ok h.go_tm, Act.go_bind_ok (Act.go_me s), h.cur, Act.go_bind_ok (h.go_modTm _)]
  simp only [ho, if_false]
  rfl

/-- In one each lane returns its parent. -/
theorem go_ctlExit_callee (h : AtIssue s i t) {f : TForm} (ho : t.origin = 2) :
    Act.go (ctlExit f) s = (.ok (), (t.lanesOf f.km.val).foldl (State.laneReturns i t)
      (s.withTeam i fun _ => t.exitLanes (maskOf (t.lanesOf f.km.val)))) := by
  have hs := State.stands_foldl (State.stands_laneReturns i t) (t.lanesOf f.km.val)
    (s.withTeam i fun _ => t.exitLanes (maskOf (t.lanesOf f.km.val)))
  unfold ctlExit
  rw [Act.go_bind_ok h.go_tm, Act.go_bind_ok (Act.go_me s), h.cur, Act.go_bind_ok (h.go_modTm _)]
  simp only [ho, if_true]
  rw [Act.go_bind_ok (go_forM_modify (f := State.laneReturns i t) ?_ _ _), Act.go_modify, State.exitShares_other]
  · rw [hs.origin, State.team_withTeam _ h.2]
    show t.origin ≠ 1
    omega
  · intro l s
    unfold State.laneReturns
    cases t.tasks[l]? <;> rfl

/-! ## ctl.retq (R91) -/

/-- Without an active lane nothing happens. -/
theorem go_ctlRetq_none (h : AtIssue s i t) {f : TForm} (hl : lanesIn t.lanes t.exm = []) : Act.go (ctlRetq f) s = (.ok (), s) := by
  unfold ctlRetq
  rw [Act.go_bind_ok h.go_tm, Act.go_bind_ok (Act.go_me s)]
  simp only [hl, List.isEmpty_nil, if_true, Act.go_pure]

/-- A callee team waits until all that it has issued has drained. -/
theorem go_ctlRetq_waits (h : AtIssue s i t) {f : TForm} (ho : t.origin = 2) (hl : lanesIn t.lanes t.exm ≠ [])
    (hd : s.drainedTo i t.issued s.serial = false) :
    Act.go (ctlRetq f) s = (.error (.block { point := false }), s) := by
  unfold ctlRetq
  rw [Act.go_bind_ok h.go_tm, Act.go_bind_ok (Act.go_me s), h.cur]
  simp only [List.isEmpty_iff, hl, if_false, ho, bne_self_eq_false, Bool.false_eq_true]
  rw [Act.go_bind_ok (Act.go_get s)]
  simp only [hd, Bool.not_false, if_true]
  rfl

/-- A lane of a callee hands V0 to V3 back and returns its parent, where a task stands behind it (R91). -/
def State.handBack (i issued before : Nat) (t : Team) (s : State) (l : Nat) : State :=
  match t.tasks[l]? with
  | some k => (s.passBack i l k.parent k.lane).laneBack ⟨i, issued, before, k.parent, k.lane⟩
  | none => s

theorem State.handBack_serial (i n m : Nat) (t : Team) (s : State) (l : Nat) : (State.handBack i n m t s l).serial = s.serial := by
  unfold State.handBack
  split <;> simp
theorem State.handBack_cur (i n m : Nat) (t : Team) (s : State) (l : Nat) : (State.handBack i n m t s l).cur = s.cur := by
  unfold State.handBack
  split <;> simp

/-- Once it has drained every lane hands back and leaves. -/
theorem go_ctlRetq_returns (h : AtIssue s i t) {f : TForm} (ho : t.origin = 2) (hl : lanesIn t.lanes t.exm ≠ [])
    (hd : s.drainedTo i t.issued s.serial = true) :
    Act.go (ctlRetq f) s = (.ok (), ((lanesIn t.lanes t.exm).foldl (State.handBack i t.issued s.serial t) s).withTeam i
      fun u => u.exitLanes (maskOf (lanesIn t.lanes t.exm))) := by
  have hs : (lanesIn t.lanes t.exm).foldl (fun s => State.handBack i t.issued s.serial t s) s =
      (lanesIn t.lanes t.exm).foldl (State.handBack i t.issued s.serial t) s :=
    foldl_congr_of (P := fun u => u.serial = s.serial) (fun u l hu =>
      ⟨by rw [hu], (State.handBack_serial i _ _ t u l).trans hu⟩) _ rfl
  have hc : ((lanesIn t.lanes t.exm).foldl (State.handBack i t.issued s.serial t) s).cur.getD 0 = i := by
    rw [State.foldl_keeps (g := State.cur) (State.handBack_cur i t.issued s.serial t), h.cur]
  unfold ctlRetq
  rw [Act.go_bind_ok h.go_tm, Act.go_bind_ok (Act.go_me s), h.cur]
  simp only [List.isEmpty_iff, hl, if_false, ho, bne_self_eq_false, Bool.false_eq_true]
  rw [Act.go_bind_ok (Act.go_get s)]
  simp only [hd, Bool.not_true, if_false, Bool.false_eq_true]
  rw [Act.go_bind_ok (go_forM_modify (f := fun s => State.handBack i t.issued s.serial t s) ?_ _ _), hs, Act.go_modTm, hc]
  intro l s
  unfold State.handBack
  cases t.tasks[l]? <;> rfl

end Sys2Proof.Machine

namespace Sys2Proof.Claims

/-- Settles O10: by where the team comes from, and for the return by whether it has drained. -/
theorem laneExits : Obligations.LaneExits := by
  intro f s i t h lanes s1 later
  refine ⟨fun ho => ?_, fun ho => ?_, fun ho => ?_, fun hl => h.completes_self rfl (go_ctlRetq_none h hl), fun ho hl hd => ?_,
    fun ho hl hd => ?_⟩
  · have hs : (s1.team i).origin ≠ 1 := by
      rw [State.team_withTeam _ h.2]
      show t.origin ≠ 1
      omega
    refine h.completes rfl ?_
    rw [go_ctlExit h (by omega), State.exitShares_other _ hs]
  · exact runCore_ok h.1 h.2 (go_ctlExit h (by omega))
  · have hs : (s1.team i).issued = t.issued := by rw [State.team_withTeam _ h.2]; rfl
    have he := runCore_ok h.1 h.2 (go_ctlExit_callee (f := f) h ho)
    rw [State.foldl_laneReturns hs] at he
    exact he
  · exact runCore_block h.1 h.2 (go_ctlRetq_waits h ho hl hd)
  · exact runCore_ok h.1 h.2 (go_ctlRetq_returns h ho hl hd)

end Sys2Proof.Claims
end

section
/-! PROOF. How an instruction ends: it retires, or it traps (R18, R24, R32, R350 to R356, R369). -/

open Sys2Proof Sys2Proof.Machine Sys2Proof.Claims

namespace Sys2Proof.Machine

variable {s : State} {i : Nat} {t : Team} {o : OpenClause}

/-! ## Closing an instruction -/

/-- Closing once is closing. -/
theorem Team.closed_closed (t : Team) : t.closed.closed = t.closed := by
  simp only [Team.closed, Bool.and_assoc, Bool.and_self]

/-- Where no write unit stands open, closing an instruction changes its team alone. -/
theorem State.closeInstr_eq (hf : SMap.find s.teams i = some t) (hu : t.unitNow = none) :
    s.closeInstr i = s.withTeam i fun _ => t.closed := by
  simp only [State.closeInstr, State.team_of_find hf, hu]
  exact State.withTeam_congr hf rfl

/-- A team that was written. -/
theorem State.find_written (hf : SMap.find s.teams i = some t) (u : Team) :
    SMap.find (s.withTeam i fun _ => u).teams i = some u := State.find_withTeam _ hf

/-- Writing a team that was written anew. -/
theorem State.withTeam_again (s : State) (i : Nat) (u : Team) (g : Team → Team) :
    (s.withTeam i fun _ => u).withTeam i g = s.withTeam i fun _ => g u := s.withTeam_withTeam i _ _

/-! ## A spent team (R32) -/

theorem State.endIfSpent_live (hf : SMap.find s.teams i = some t) (h : t.spent = false) : s.endIfSpent i = s := by
  simp only [State.endIfSpent, State.team_of_find hf, h, Bool.false_and, Bool.false_eq_true, if_false]

theorem State.endIfSpent_faulty (hf : SMap.find s.teams i = some t) (h : t.faulty ≠ none) : s.endIfSpent i = s := by
  simp [State.endIfSpent, State.team_of_find hf, h]

theorem State.endIfSpent_spent (hf : SMap.find s.teams i = some t) (h : t.spent = true) (hn : t.faulty = none) :
    s.endIfSpent i = s.endTeam i := by
  simp [State.endIfSpent, State.team_of_find hf, h, hn]

/-! ## Retirement (R18, R20) -/

/-- Inside a clause the next word comes next. -/
theorem State.retire_inside (hf : SMap.find s.teams i = some t) (hu : t.unitNow = none) (hc : t.clause = some o)
    (hl : o.idx + 1 < o.words.length) :
    s.retire i = (s.withTeam i fun _ => { t.closed with clause := some { o with idx := o.idx + 1 } }).endIfSpent i := by
  have hc' : t.closed.clause = some o := hc
  simp only [State.retire, State.closeInstr_eq hf hu, State.team_withTeam _ hf, hc', hl, if_true, State.withTeam_again]

/-- At its last word control leaves the clause. -/
theorem State.retire_last (hf : SMap.find s.teams i = some t) (hu : t.unitNow = none) (hc : t.clause = some o)
    (hl : o.words.length ≤ o.idx + 1) :
    s.retire i = ((s.withTeam i fun _ => t.closed).endClause i o).endIfSpent i := by
  have hc' : t.closed.clause = some o := hc
  simp only [State.retire, State.closeInstr_eq hf hu, State.team_withTeam _ hf, hc', Nat.not_lt.mpr hl, if_false]

/-- Without a transfer the next clause follows. -/
theorem State.endClause_next (hf : SMap.find s.teams i = some t) (ha : t.after = none) (hr : t.returning = none) :
    s.endClause i o = s.withTeam i fun _ => { t with clause := none, pc := o.next } := by
  have e : s.endClause i o = s.withTeam i fun u => { u with clause := none, after := none, pc := o.next } := by
    simp only [State.endClause, State.team_of_find hf, ha, hr]
  exact e.trans (State.withTeam_congr hf (by simp [ha]))

/-- A transfer takes effect. -/
theorem State.endClause_jump (hf : SMap.find s.teams i = some t) {a : Word} (ha : t.after = some (.jump a))
    (hr : t.returning = none) : s.endClause i o = s.withTeam i fun _ => { t with clause := none, after := none, pc := a } := by
  have e : s.endClause i o = s.withTeam i fun u => { u with clause := none, after := none, pc := a } := by
    simp only [State.endClause, State.team_of_find hf, ha, hr]
  exact e.trans (State.withTeam_congr hf rfl)

/-- A cp.yield waits before the clause it goes to. -/
theorem State.endClause_yield (hf : SMap.find s.teams i = some t) {h : Nat} {a : Word} (ha : t.after = some (.yield h a))
    (hr : t.returning = none) :
    s.endClause i o = s.withTeam i fun _ => { t with clause := none, pc := a } := by
  have e : s.endClause i o = s.withTeam i fun u => { u with clause := none, after := some (.yield h a), pc := a } := by
    simp only [State.endClause, State.team_of_find hf, ha, hr]
  exact e.trans (State.withTeam_congr hf (by simp [ha]))

/-- A return takes a launch team back from its handler. -/
theorem State.eret_eq (hf : SMap.find s.teams i = some t) (ho : t.origin = 0) (m : Nat) :
    (s.withTeam i fun _ => t.closed).eret i m = s.withTeam i fun _ => returned t m := by
  have ho' : t.closed.origin = 0 := ho
  simp only [State.eret, State.team_withTeam _ hf, ho', State.withTeam_again]
  rw [List.foldl_fixed']
  · rfl
  · intro l
    split <;> rfl

/-- It goes ahead of any transfer, and a sys.yield of the clause takes effect behind it. -/
theorem State.endClause_return (hf : SMap.find s.teams i = some t) (ho : t.origin = 0) {m : Nat} (hr : t.returning = some m) :
    (s.withTeam i fun _ => t.closed).endClause i o =
      if t.gaveUp && !(returned t m).spent then (s.withTeam i fun _ => returned t m).goBehind i
      else s.withTeam i fun _ => returned t m := by
  have hr' : t.closed.returning = some m := hr
  have hx : ((s.withTeam i fun _ => returned t m).team i).origin ≠ 1 := by
    rw [State.team_withTeam _ hf]
    show t.origin ≠ 1
    omega
  simp only [State.endClause, State.team_withTeam _ hf, hr', State.eret_eq hf ho, State.exitShares_other _ hx]
  rfl

/-! ## Faults of an earlier instruction in flight (R24) -/

theorem State.trapInstr_eq (hf : SMap.find s.teams i = some t) (hu : t.unitNow = none) (rs : List Rec) :
    s.trapInstr i rs = (s.withTeam i fun _ => t.closed).deliver i rs (t.here false true) := by
  simp only [State.trapInstr, State.closeInstr_eq hf hu, State.team_of_find hf]

/-- They are reported first, and the younger instruction is issued again. -/
theorem State.trapInstr_faulty (hf : SMap.find s.teams i = some t) (hu : t.unitNow = none) {x : Op} (hx : t.faulty = some x)
    (rs : List Rec) : s.trapInstr i rs = (s.withTeam i fun _ => reported t x).handOn i x.faults x.resume := by
  have hx' : t.closed.faulty = some x := hx
  have hc := State.closeInstr_eq (State.find_written hf t.closed) rfl
  rw [Team.closed_closed, State.withTeam_again] at hc
  simp only [State.trapInstr_eq hf hu, State.deliver, State.team_withTeam _ hf, hx', State.reportOp, hc, State.withTeam_again]
  rfl

/-- Without any, the records are handed on. -/
theorem State.trapInstr_clean (hf : SMap.find s.teams i = some t) (hu : t.unitNow = none) (hx : t.faulty = none)
    (rs : List Rec) : s.trapInstr i rs = (s.withTeam i fun _ => t.closed).handOn i rs (t.here false true) := by
  have hx' : t.closed.faulty = none := hx
  simp only [State.trapInstr_eq hf hu, State.deliver, State.team_withTeam _ hf, hx']

/-- A team whose records are put in place. -/
def Team.delivering (t : Team) (rs : List Rec) : Team := { t.closed with delivery := some ⟨rs, t.here false true⟩, gap := 0 }

/-- Where no save is due they go to the handler. -/
theorem State.trapInstr_enters (hf : SMap.find s.teams i = some t) (hu : t.unitNow = none) (hx : t.faulty = none)
    (hp : t.place = .resident) (hk : (s.ctxOf i).state ≠ .seek) (rs : List Rec) :
    s.trapInstr i rs = (s.withTeam i fun _ => t.delivering rs).enterHandler i := by
  have hk' : ((s.withTeam i fun _ => t.delivering rs).ctxOf i).state ≠ .seek := by
    have e : (s.withTeam i fun _ => t.delivering rs).ctxOf i = s.ctxOf i := by
      simp only [State.ctxOf, State.team_withTeam _ hf, State.team_of_find hf]
      rfl
    rwa [e]
  have hp' : ((s.withTeam i fun _ => t.delivering rs).team i).place = .resident := by rw [State.team_withTeam _ hf]; exact hp
  rw [State.trapInstr_clean hf hu hx]
  simp only [State.handOn, State.withTeam_again]
  show (if ((s.withTeam i fun _ => t.delivering rs).team i).place ≠ .resident then _ else
    if ((s.withTeam i fun _ => t.delivering rs).ctxOf i).state = .seek && ((s.withTeam i fun _ => t.delivering rs).ctxOf i).late
      then _ else (s.withTeam i fun _ => t.delivering rs).enterHandler i) = _
  simp [hp', hk']

/-- With no handler, or inside it, they are fatal (R356). -/
theorem State.trapInstr_fatal (hf : SMap.find s.teams i = some t) (hu : t.unitNow = none) (hx : t.faulty = none)
    (hp : t.place = .resident) (hk : (s.ctxOf i).state ≠ .seek) (h : t.desc.traph = 0 ∨ t.handler = true) (rs : List Rec) :
    s.trapInstr i rs = (s.withTeam i fun _ => t.delivering rs).fatal i rs := by
  have hd : (t.delivering rs).delivery = some ⟨rs, t.here false true⟩ := rfl
  have h' : (t.delivering rs).desc.traph = 0 ∨ (t.delivering rs).handler = true := h
  rw [State.trapInstr_enters hf hu hx hp hk]
  simp only [State.enterHandler, State.team_withTeam _ hf, hd]
  rcases h' with h' | h' <;> simp [h']

end Sys2Proof.Machine
end

section
/-! PROOF. The entry of a handler whose record places are mapped (R351, R355, R374). -/

open Sys2Proof Sys2Proof.Machine Sys2Proof.Claims

namespace Sys2Proof.Machine

/-! ## Mapped addresses in other states -/

/-- A mapped address stays mapped where the team has no translation that it had not before. -/
theorem Mapped.of_translations {s s' : State} {i : Nat} {t t' : Team} {va : Word} {need : Need} {key : Nat}
    (m : Mapped s i t va need key) (hc : s'.cores = s.cores) (hch : s'.channels = s.channels)
    (hi : (s'.team i).core = (s.team i).core)
    (ht : t'.declared = t.declared ∧ t'.core = t.core ∧ t'.asid = t.asid ∧ t'.timeline = t.timeline ∧ t'.now = t.now)
    (hsub : ∀ e ∈ t'.translations s', e ∈ t.translations s) : Mapped s' i t' va need key := by
  obtain ⟨hva, hlog, hdec, k, hany, hall⟩ := m
  obtain ⟨h1, h2, h3, h4, h5⟩ := ht
  have hcore : ∀ c, s'.core c = s.core c := fun c => by simp only [State.core, hc]
  have hthrough : ∀ e, s'.through e (va.toNat % 2 ^ 57) need = s.through e (va.toNat % 2 ^ 57) need := fun e => by
    simp only [State.through, State.keyOf, State.deviceKey, hch]
  refine ⟨hva, ?_, ?_, k, ?_, ?_⟩
  · simpa only [State.inLog, hcore, hi] using hlog
  · rw [h1]; exact hdec
  · simpa only [h2, hcore, h3, h4, Team.gen, h5] using hany
  · intro e he hs
    rw [hthrough]
    exact hall e (hsub e he) (by simpa only [h3, h4, Team.gen, h5] using hs)

/-! ## Actions for each of a list -/

/-- An action for each of a list that answers a function of the element, in states of one kind. -/
theorem Act.go_mapM {α β : Type} {f : α → Act β} {g : α → β} {P : State → Prop} (l : List α)
    (h : ∀ a ∈ l, ∀ s, P s → ∃ s', Act.go (f a) s = (.ok (g a), s') ∧ P s') {s : State} (hs : P s) :
    ∃ s', Act.go (l.mapM f) s = (.ok (l.map g), s') ∧ P s' := by
  induction l generalizing s with
  | nil => exact ⟨s, rfl, hs⟩
  | cons a l ih =>
    obtain ⟨s1, h1, hp1⟩ := h a (by simp) s hs
    obtain ⟨s2, h2, hp2⟩ := ih (fun b hb => h b (by simp [hb])) hp1
    refine ⟨s2, ?_, hp2⟩
    rw [List.mapM_cons, Act.go_bind_ok h1, Act.go_bind_ok h2]
    rfl

/-! ## Places of records (R351) -/

/-- A team with another front page register. -/
def State.fronted (s : State) (i : Nat) (front : Option Tlb) : State := s.withTeam i fun u => { u with frontPage := front }

theorem State.fronted_written (s : State) (i : Nat) (u : Team) :
    (s.withTeam i fun _ => u).fronted i u.frontPage = s.withTeam i fun _ => u := s.withTeam_again i _ _

/-- The team's own translation serves its front unit, which keeps it. -/
theorem State.go_translate_front {s : State} {i : Nat} {t : Team} (hf : SMap.find s.teams i = some t) {va : Word} {need : Need}
    {key : Nat} (m : Mapped s i t va need key) :
    ∃ e k, e ∈ t.translations s ∧
      Act.go (translate (.front i) t.asid t.timeline t.gen va need) s = (.ok (.ok key k), s.fronted i (some e)) := by
  obtain ⟨hva, -, -, k, hany, hall⟩ := m
  have hcached : s.cached (.front i) = t.frontPage.toList ++ (s.core t.core).tlb := by
    simp only [State.cached, State.team_of_find hf]
  cases h : (s.cached (.front i)).find? (fun e => e.usable t.asid (va.toNat % 2 ^ 57) t.timeline t.gen need) with
  | none =>
    obtain ⟨e, he, hu⟩ := List.any_eq_true.mp hany
    rw [hcached] at h
    exact absurd hu (by simpa using List.find?_eq_none.mp h e (List.mem_append_right _ he))
  | some e =>
    have he : e ∈ t.translations s := by
      have hm := List.mem_of_find?_eq_some h
      rw [hcached] at hm
      simp only [Team.translations, List.mem_append] at hm ⊢
      tauto
    exact ⟨e, k, he, go_translate hva h (hall e he (by simpa using List.find?_some h))⟩

/-- The side log has nothing of a page of a mapped address. -/
theorem Mapped.log_none {s : State} {i : Nat} {t : Team} {va : Word} {need : Need} {key : Nat} (m : Mapped s i t va need key)
    (hf : SMap.find s.teams i = some t) :
    ((s.core t.core).log.find? fun e => e.team == i && e.va.toNat % 2 ^ 57 / 4096 * 4096 == va.toNat % 2 ^ 57 / 4096 * 4096) =
      none := by
  obtain ⟨-, hlog, -⟩ := m
  rw [List.find?_eq_none]
  intro e he hm
  simp only [State.inLog, State.team_of_find hf, List.any_eq_false, Bool.and_eq_true, beq_iff_eq] at hlog
  simp only [Bool.and_eq_true, beq_iff_eq] at hm
  exact hlog e he ⟨hm.1, Nat.eq_of_mul_eq_mul_right (by decide) hm.2⟩

/-- A state in which only the front unit's page register of a team has changed, to a translation of the team's. -/
def State.FrontedBy (s : State) (i : Nat) (t : Team) (s' : State) : Prop :=
  ∃ front : Option Tlb, s' = s.fronted i front ∧ ∀ e ∈ front.toList, e ∈ t.translations s

theorem State.frontedBy_self {s : State} {i : Nat} {t : Team} (hs : s.fronted i t.frontPage = s) : s.FrontedBy i t s :=
  ⟨t.frontPage, hs.symm, fun e he => by simp [Team.translations, Option.mem_toList.mp he]⟩

/-- What is mapped for the team stays so, and its next translation changes no more than that register. -/
theorem State.FrontedBy.translate {s s' : State} {i : Nat} {t : Team} (h : s.FrontedBy i t s')
    (hf : SMap.find s.teams i = some t) {va : Word} {need : Need} {key : Nat} (m : Mapped s i t va need key) :
    ∃ k s'', Act.go (translate (.front i) t.asid t.timeline t.gen va need) s' = (.ok (.ok key k), s'') ∧ s.FrontedBy i t s'' := by
  obtain ⟨front, rfl, hfr⟩ := h
  have hf' : SMap.find (s.fronted i front).teams i = some { t with frontPage := front } := State.find_withTeam _ hf
  have hsub : ∀ e ∈ ({ t with frontPage := front } : Team).translations (s.fronted i front), e ∈ t.translations s := by
    intro e he
    simp only [Team.translations, List.mem_append] at he
    rcases he with (he | he) | he
    · exact List.mem_append_left _ (List.mem_append_left _ he)
    · exact List.mem_append_left _ (List.mem_append_right _ he)
    · exact hfr e he
  have m' := m.of_translations (t' := { t with frontPage := front }) (s' := s.fronted i front) rfl rfl
    (by rw [State.team_of_find hf', State.team_of_find hf]) ⟨rfl, rfl, rfl, rfl, rfl⟩ hsub
  obtain ⟨e, k, he, hgo⟩ := State.go_translate_front hf' m'
  refine ⟨k, _, hgo, some e, ?_, fun x hx => ?_⟩
  · simp only [State.fronted, State.withTeam_withTeam]
  · simp only [Option.toList_some, List.mem_singleton] at hx
    exact hx ▸ hsub e he

/-- The places of a delivery whose team may write them all, with their keys. -/
theorem State.go_recordPlaces {s : State} {i n : Nat} {t : Team} {key : Nat → Nat} (hf : SMap.find s.teams i = some t)
    (hs : s.fronted i t.frontPage = s) (hd : t.declared = []) (hm : ∀ j < n, Mapped s i t (recordPlace t j) { w := true } (key j)) :
    ∃ front : Option Tlb, Act.go (recordPlaces i n) s =
      (.ok ((List.range n).map fun j => (recordPlace t j, key j)), s.fronted i front) := by
  suffices h : ∃ s', Act.go (recordPlaces i n) s = (.ok ((List.range n).map fun j => (recordPlace t j, key j)), s') ∧
      s.FrontedBy i t s' by
    obtain ⟨_, h, front, rfl, -⟩ := h
    exact ⟨front, h⟩
  unfold recordPlaces
  rw [Act.go_bind_ok (Act.go_get s)]
  simp only [State.team_of_find hf]
  refine Act.go_mapM (P := s.FrontedBy i t) _ (fun j hj s' hs' => ?_) (State.frontedBy_self hs)
  have m := hm j (List.mem_range.mp hj)
  obtain ⟨k, s'', hgo, hs''⟩ := hs'.translate hf m
  have hlog : ((s'.core t.core).log.find? fun e => e.team == i &&
      e.va.toNat % 2 ^ 57 / 4096 * 4096 == (recordPlace t j).toNat % 2 ^ 57 / 4096 * 4096) = none := by
    obtain ⟨front, rfl, -⟩ := hs'
    exact m.log_none hf
  refine ⟨s'', ?_, hs''⟩
  simp only [hd, List.any_nil, Bool.false_eq_true, if_false]
  rw [Act.go_bind_ok (Act.go_get s')]
  unfold recordPlace at hlog hgo
  rw [hlog]
  dsimp only
  rw [Act.go_bind_ok hgo]
  rfl

/-! ## Writes of records (R355, R374) -/

/-- The four words of a record at a place, with the numbers from one on (R389). -/
def recordWords (i asid base : Nat) (p : Word × Nat) (r : Rec) : List PendWrite :=
  (List.range 4).map fun q =>
    { team := i, unit := 0, path := 1, va := p.1 + BitVec.ofNat 64 (8 * q), key := p.2 + 8 * q
      bytes := (r.bytes.drop (8 * q)).take 8, asid := asid, group := base + q }

/-- A state with further pending writes, each with a number of its own. -/
def State.withWrites (s : State) (ws : List PendWrite) : State :=
  { s with serial := s.serial + ws.length, writes := s.writes ++ ws }

theorem State.withWrites_withWrites (s : State) (a b : List PendWrite) :
    (s.withWrites a).withWrites b = s.withWrites (a ++ b) := by
  simp only [State.withWrites, List.length_append, List.append_assoc, Nat.add_assoc]

/-- Outside a deterministic launch the words of a record wait for their slices. -/
theorem State.writeRecords_one {s : State} {i : Nat} (hd : s.detOf (s.team i) = false) (p : Word × Nat) (r : Rec) :
    s.writeRecords i [p] [r] = s.withWrites (recordWords i (s.team i).asid s.serial p r) := by
  unfold State.writeRecords
  generalize s.team i = t at hd ⊢
  simp only [State.detOf, State.region] at hd
  simp only [show List.range 4 = [0, 1, 2, 3] from rfl, List.zip_cons_cons, List.zip_nil_left, List.foldl_cons, List.foldl_nil,
    State.detOf, State.region, hd, Bool.false_eq_true, if_false, State.withWrites, recordWords, List.map_cons, List.map_nil,
    List.length_cons, List.length_nil, List.append_assoc, List.cons_append, List.nil_append, Nat.add_assoc]
  rfl

/-- One record is written after another. -/
theorem State.writeRecords_cons {s : State} {i : Nat} (hd : s.detOf (s.team i) = false) (p : Word × Nat) (ps : List (Word × Nat))
    (r : Rec) (rs : List Rec) : s.writeRecords i (p :: ps) (r :: rs) = (s.writeRecords i [p] [r]).writeRecords i ps rs := by
  have ht : (s.writeRecords i [p] [r]).team i = s.team i := by rw [State.writeRecords_one hd]; rfl
  rw [State.writeRecords.eq_1 (s.writeRecords i [p] [r]), ht]
  rfl

/-- The words of a list of records, numbered from one on. -/
def wordsFrom (i asid base : Nat) (l : List ((Word × Nat) × Rec)) : List PendWrite :=
  ((List.range l.length).zip l).flatMap fun x => recordWords i asid (base + 4 * x.1) x.2.1 x.2.2

theorem wordsFrom_cons (i asid base : Nat) (p : (Word × Nat) × Rec) (l : List ((Word × Nat) × Rec)) :
    wordsFrom i asid base (p :: l) = recordWords i asid base p.1 p.2 ++ wordsFrom i asid (base + 4) l := by
  simp only [wordsFrom, List.length_cons, List.range_succ_eq_map, List.zip_cons_cons, List.flatMap_cons, Nat.mul_zero,
    Nat.add_zero, List.zip_map_left, List.flatMap_map, Prod.map_fst, Prod.map_snd, id_eq, Nat.mul_succ, Nat.add_assoc,
    Nat.add_comm 4]

theorem length_wordsFrom (i asid base : Nat) (l : List ((Word × Nat) × Rec)) : (wordsFrom i asid base l).length = 4 * l.length := by
  induction l generalizing base with
  | nil => rfl
  | cons p l ih =>
    rw [wordsFrom_cons, List.length_append, ih, List.length_cons]
    simp only [recordWords, List.length_map, List.length_range]
    omega

/-- The records of a delivery are written in turn. -/
theorem State.writeRecords_eq {s : State} {i : Nat} (hd : s.detOf (s.team i) = false) (places : List (Word × Nat)) (rs : List Rec) :
    s.writeRecords i places rs = s.withWrites (wordsFrom i (s.team i).asid s.serial (places.zip rs)) := by
  induction places generalizing s rs with
  | nil => simp [State.writeRecords, wordsFrom, State.withWrites]
  | cons p ps ih => cases rs with
    | nil => simp [State.writeRecords, wordsFrom, State.withWrites]
    | cons r rs =>
      rw [State.writeRecords_cons hd, State.writeRecords_one hd, ih (s := s.withWrites _) hd, State.withWrites_withWrites, List.zip_cons_cons,
        wordsFrom_cons]
      rfl

/-! ## The entry -/

/-- A team that takes its handler's header, with a delivery behind it (R352, R355). -/
def Team.handling (t : Team) (d : Delivery) : Team :=
  { t with
    delivery := none, block := none, declared := [], stalled := 0, clause := none, after := none, skip := 0
    returning := none, gaveUp := false
    rpc := d.resume, handler := true, handled := d.recs
    causeCount := d.recs.length % 2 ^ 16
    causeOrigin := (d.recs.head?.map (·.origin)).getD 0
    causeCode := (d.recs.head?.map fun r => r.cause.code).getD 0
    pc := t.desc.traph }

/-- A delivery whose places are found is written and handed to the handler. -/
theorem State.enterHandler_eq {s : State} {i : Nat} {u : Team} {d : Delivery} {places : List (Word × Nat)} {front : Option Tlb}
    (hf : SMap.find s.teams i = some u) (hd : u.delivery = some d) (ht : u.desc.traph ≠ 0) (hh : u.handler = false)
    (hn : s.detOf u = false) (hgo : Act.go (recordPlaces i d.recs.length) s = (.ok places, s.fronted i front)) :
    s.enterHandler i =
      (((s.fronted i front).withWrites (wordsFrom i u.asid s.serial (places.zip d.recs))).withTeam i (·.handling d)).endIfSpent i := by
  have hu : (s.fronted i front).team i = { u with frontPage := front } := State.team_withTeam _ hf
  have hw : (s.fronted i front).writeRecords i places d.recs =
      (s.fronted i front).withWrites (wordsFrom i u.asid s.serial (places.zip d.recs)) := by
    have hn' : (s.fronted i front).detOf ((s.fronted i front).team i) = false := by rw [hu]; exact hn
    rw [State.writeRecords_eq hn', hu]
    rfl
  simp only [State.enterHandler, State.team_of_find hf, hd, ht, hh, decide_false, Bool.or_self, Bool.false_eq_true, if_false, hgo,
    hw]
  rfl

theorem zip_zip_map {α β γ : Type} (g : α → γ) (l : List α) (m : List β) :
    l.zip ((l.map g).zip m) = (l.zip m).map fun p => (p.1, g p.1, p.2) := by
  induction l generalizing m with
  | nil => rfl
  | cons a l ih => cases m with
    | nil => rfl
    | cons b m => simp [ih]

/-- The words of records at their places. -/
theorem wordsFrom_places (s : State) (i : Nat) (t : Team) (rs : List Rec) (key : Nat → Nat) :
    wordsFrom i t.asid s.serial (((List.range rs.length).map fun j => (recordPlace t j, key j)).zip rs) =
      ((List.range rs.length).zip rs).flatMap fun p => recordWrites s i t p.2 p.1 (key p.1) := by
  simp only [wordsFrom, List.length_zip, List.length_map, List.length_range, Nat.min_self, zip_zip_map, List.flatMap_map]
  rfl

/-- Records whose places are mapped are written, and the team enters its handler (R355). -/
theorem State.trapInstr_handled {s : State} {i : Nat} {t : Team} {rs : List Rec} {key : Nat → Nat}
    (hf : SMap.find s.teams i = some t) (hu : t.unitNow = none) (hx : t.faulty = none) (hp : t.place = .resident)
    (ht : t.desc.traph ≠ 0) (hh : t.handler = false) (hk : (s.ctxOf i).state ≠ .seek) (hd : s.detOf t = false)
    (hm : ∀ j < rs.length, Mapped s i { t with declared := [] } (recordPlace t j) { w := true } (key j)) :
    ∃ front : Option Tlb, s.trapInstr i rs =
      ({ s.withTeam i fun _ => { inHandler t rs (t.here false true) with frontPage := front } with
         serial := s.serial + 4 * rs.length
         writes := s.writes ++ ((List.range rs.length).zip rs).flatMap fun p => recordWrites s i t p.2 p.1 (key p.1) }
        : State).endIfSpent i := by
  have hf' := State.find_written hf (t.delivering rs)
  have hmap : ∀ j < rs.length, Mapped (s.withTeam i fun _ => t.delivering rs) i (t.delivering rs) (recordPlace t j)
      { w := true } (key j) := fun j hj =>
    (hm j hj).of_translations rfl rfl (by rw [State.team_of_find hf', State.team_of_find hf]; rfl) ⟨rfl, rfl, rfl, rfl, rfl⟩
      fun e he => he
  obtain ⟨front, hgo⟩ := State.go_recordPlaces (t := t.delivering rs) hf' (State.fronted_written s i _) rfl hmap
  refine ⟨front, ?_⟩
  have hwords := wordsFrom_places s i t rs key
  have hlen := congrArg List.length hwords
  rw [length_wordsFrom, List.length_zip, List.length_map, List.length_range, Nat.min_self] at hlen
  rw [State.trapInstr_enters hf hu hx hp hk, State.enterHandler_eq hf' rfl ht hh hd hgo]
  congr 1
  show (((s.withTeam i fun _ => t.delivering rs).fronted i front).withTeam i (·.handling ⟨rs, t.here false true⟩)).withWrites
    (wordsFrom i t.asid s.serial (((List.range rs.length).map fun j => (recordPlace t j, key j)).zip rs)) = _
  rw [hwords, State.fronted, State.withTeam_again, State.withTeam_again]
  simp only [State.withWrites, ← hlen]
  rfl

end Sys2Proof.Machine
end

section
/-! PROOF. O49, from the rules about retirement, traps and returns. -/

open Sys2Proof Sys2Proof.Machine Sys2Proof.Claims
namespace Sys2Proof.Claims

/-- Settles O49: each way an instruction ends, by the lemma about it. -/
theorem instructionEnds : Obligations.InstructionEnds := by
  intro s i t o hf hu hc go
  have hf' := State.find_written hf t.closed
  refine ⟨fun hl => State.retire_inside hf hu hc hl, fun hl ha hr => ?_, fun a hl ha hr => ?_, fun h a hl ha hr => ?_,
    fun m hl hr ho => ?_, fun hs => State.endIfSpent_live hf hs, fun hs hn _ => ?_, fun hn => State.endIfSpent_faulty hf hn,
    fun rs x hx => State.trapInstr_faulty hf hu hx rs, fun rs key hx hp ht hh hk hd hm =>
      State.trapInstr_handled hf hu hx hp ht hh hk hd hm, fun rs hx hp ht hk =>
      State.trapInstr_fatal hf hu hx hp hk ht rs⟩
  · rw [State.retire_last hf hu hc hl, State.endClause_next hf' ha hr, State.withTeam_again, OpenClause.next]
  · rw [State.retire_last hf hu hc hl, State.endClause_jump hf' ha hr, State.withTeam_again]
  · rw [State.retire_last hf hu hc hl, State.endClause_yield hf' ha hr, State.withTeam_again]
  · rw [State.retire_last hf hu hc hl, State.endClause_return hf ho hr]
    refine ⟨fun h => ?_, fun hg hs => ?_⟩
    · rw [if_neg]
      rcases h with h | h <;> simp [h]
    · rw [if_pos (by simp [hg, hs])]
  · rw [State.endIfSpent_spent hf hs hn]
    exact State.place_endTeam hf

end Sys2Proof.Claims
end

section
/-! PROOF. Sill units: blocks, sub-waves, stalls, limits and layouts (R307, R311, R312, R323, R327). -/

open Sys2Proof Sys2Proof.Machine Sys2Proof.Claims

namespace Sys2Proof.Machine

variable {s : State} {c : Nat} {u : Sill} {b : SillBlock}

/-! ## Units -/

theorem State.sill_withSill (s : State) (c : Nat) (f : Sill → Sill) : (s.withSill c f).sill c = f (s.sill c) := by
  simp only [State.sill, State.withSill, SMap.upd, SMap.val_set_same]

/-- A change that leaves a unit as another one does is that one. -/
theorem State.withSill_congr (hu : s.sill c = u) {f g : Sill → Sill} (h : f u = g u) : s.withSill c f = s.withSill c g := by
  have h' : f (SMap.val s.sills {} c) = g (SMap.val s.sills {} c) := by
    rw [show SMap.val s.sills {} c = u from hu, h]
  simp only [State.withSill, SMap.upd, h']

/-! ## Actions of a unit -/

/-- What an action of a unit comes to. -/
def SAct.go {α : Type} (m : SAct α) (s : State) : Except SillStop α × State := (ExceptT.run m).run s

/-- A first action that ends well. -/
theorem SAct.go_bind_ok {α β : Type} {m : SAct α} {f : α → SAct β} {s s' : State} {a : α} (h : SAct.go m s = (.ok a, s')) :
    SAct.go (m >>= f) s = SAct.go (f a) s' := by
  simp only [SAct.go, ExceptT.run, bind, ExceptT.bind, ExceptT.mk, StateT.run, StateT.bind] at h ⊢
  show (match (m : StateM State (Except SillStop α)) s with | (a, s') => ExceptT.bindCont f a s') = _
  rw [h]
  rfl

theorem SAct.go_su (s : State) : SAct.go su s = (.ok (s.sill (s.curUnit.getD 0)), s) := rfl
theorem SAct.go_modSu (f : Sill → Sill) (s : State) : SAct.go (modSu f) s = (.ok (), s.withSill (s.curUnit.getD 0) f) := rfl
theorem SAct.go_sillAddr (f : SillK) (s : State) :
    SAct.go (sillAddr f) s = (.ok ((s.sill (s.curUnit.getD 0)).getG f.g.toNat + BitVec.ofNat 64 (64 * f.off.toNat)), s) := rfl

/-- An action for each of a list that does nothing. -/
theorem SAct.go_forM_pure {α : Type} (l : List α) (s : State) :
    SAct.go (l.forM fun _ => (pure () : SAct Unit)) s = (.ok (), s) := by
  induction l with
  | nil => rfl
  | cons a l ih => exact ih

/-- A sub-wave of an all-bank command whose banks have nothing to do takes the next ones, or is the last (R312). -/
theorem go_bankCommand_idle {f : SillK} {need : Need} (hc : s.curUnit = some c) (hu : s.sill c = u) (hw : u.wave ≠ 0)
    (ha : u.allBank = true) :
    SAct.go (bankCommand f need fun _ _ => pure ()) s =
      if u.wave + waveWidth u < 16 then
        (.error .again, s.withSill c fun v => { v with wave := v.wave + waveWidth u })
      else (.ok (), s) := by
  have hsu : SAct.go su s = (.ok u, s) := by rw [SAct.go_su, hc, Option.getD_some, hu]
  unfold bankCommand
  rw [SAct.go_bind_ok hsu, SAct.go_bind_ok (SAct.go_sillAddr f s), if_neg hw, SAct.go_bind_ok hsu]
  simp only [ha, if_true]
  rw [SAct.go_bind_ok (SAct.go_forM_pure _ s)]
  unfold waveWidth
  split
  · rw [SAct.go_bind_ok (SAct.go_modSu _ s), hc]
    rfl
  · rfl

/-- An instruction of a unit whose action ends well completes. -/
theorem runSill_ok {s' : State} {act : SAct Unit} (hc : s.curUnit = some c) (hr : (s.sill c).running = some b)
    (h : SAct.go act s = (.ok (), s')) : runSill act s = .next (s'.withSill c Sill.advance) := by
  unfold SAct.go at h
  simp only [runSill, hc, hr, h]

/-- One that has banks left goes on later. -/
theorem runSill_again {s' : State} {act : SAct Unit} (hc : s.curUnit = some c) (hr : (s.sill c).running = some b)
    (h : SAct.go act s = (.error .again, s')) : runSill act s = .next s' := by
  unfold SAct.go at h
  simp only [runSill, hc, hr, h]

/-- The outcome of an action for a unit whose block runs is a state. -/
theorem State.onUnit_eq (hr : (s.sill c).running = some b) (act : SAct Unit) :
    .next (s.onUnit c act) = runSill act { s with cur := none, curUnit := some c } := by
  have hr' : (({ s with cur := none, curUnit := some c } : State).sill c).running = some b := hr
  simp only [State.onUnit, runSill, hr']

end Sys2Proof.Machine

namespace Sys2Proof.Claims

variable {s : State} {c : Nat} {u : Sill} {b : SillBlock}

/-! ## Their events -/

/-- The oldest block that waits starts. -/
theorem exec_sillBlockStart (hu : s.sill c = u) {rest : List SillBlock} (hr : u.running = none) (hp : u.pending = b :: rest) :
    exec (.sillBlockStart c) s = .next (s.withSill c fun _ => u.start b rest) := by
  show Host.Outcome.next (sillStarts c s) = _
  simp only [sillStarts, hu, hr, hp]
  exact congrArg Host.Outcome.next (State.withSill_congr hu rfl)

/-- A block finds its affinity, index and split in the G registers. -/
theorem start_getG (u : Sill) (b : SillBlock) (rest : List SillBlock) : (u.start b rest).getG 0 = b.affinity ∧
    (u.start b rest).getG 1 = BitVec.ofNat 64 b.index ∧ (u.start b rest).getG 2 = BitVec.ofNat 64 b.split ∧
    (u.start b rest).getG 3 = 0 := by
  simp [Sill.start, Sill.getG, SMap.val_set_other]
  rfl

/-- A sub-wave of sl.act. -/
theorem exec_sillSubwave_act (hu : s.sill c = u) {f : SillK} (hr : u.running = some b) (hw : u.wave ≠ 0)
    (ha : u.allBank = true) (hc : u.command = some (.slAct f)) :
    exec (.sillSubwave c) s = .next (({ s with cur := none, curUnit := some c } : State).withSill c fun _ =>
      if u.wave + waveWidth u < 16 then { u with wave := u.wave + waveWidth u } else u.advance) := by
  have hu' : ({ s with cur := none, curUnit := some c } : State).sill c = u := hu
  have hgo := go_bankCommand_idle (f := f) (need := { use := 4 }) rfl hu' hw ha
  show Host.Outcome.next (sillWaves c s) = _
  simp only [sillWaves, hu, hw, hc, if_false]
  rw [State.onUnit_eq (hu.symm ▸ hr)]
  by_cases h : u.wave + waveWidth u < 16
  · rw [if_pos h] at hgo
    rw [runSill_again (act := slAct f) rfl (hu'.symm ▸ hr) hgo]
    exact congrArg Host.Outcome.next (State.withSill_congr hu' (if_pos h).symm)
  · rw [if_neg h] at hgo
    rw [runSill_ok (act := slAct f) rfl (hu'.symm ▸ hr) hgo]
    exact congrArg Host.Outcome.next (State.withSill_congr hu' (if_neg h).symm)

/-- A sub-wave of sl.mac is the instruction once more. -/
theorem exec_sillSubwave_mac (hu : s.sill c = u) {f : SillK} (hr : u.running = some b) (hw : u.wave ≠ 0)
    (hc : u.command = some (.slMac f)) :
    exec (.sillSubwave c) s = exec (.slMac f) { s with cur := none, curUnit := some c } := by
  show Host.Outcome.next (sillWaves c s) = _
  simp only [sillWaves, hu, hw, hc, if_false]
  exact State.onUnit_eq (hu.symm ▸ hr) _

/-- A block that has waited too long for its team is stopped. -/
theorem exec_sillStall (hu : s.sill c = u) {t : Team} (hr : u.running = some b) (hw : u.waiting = true) (hs : b.stop = false)
    (hf : SMap.find s.teams b.team = some t) (hp : t.place = .resident) :
    exec (.sillStall c) s = .next (s.endBlock c (some 8)) := by
  show Host.Outcome.next (sillStalls c s) = _
  simp [sillStalls, hu, hr, hw, hs, hf, State.team_of_find hf, hp]

/-- A limit in its range is taken. -/
theorem exec_banklim (s : State) {c limit : Nat} (hc : c < 512) (h1 : 1 ≤ limit) (h16 : limit ≤ 16) :
    exec (.banklim c limit) s = .next (s.withSill c fun v => { v with limitLess := 16 - limit }) := by
  show Host.Outcome.next (limits c limit s) = _
  simp [limits, hc, h1, h16]

/-- A bank leaves service on a channel without blocks, and the layout has a new id. -/
theorem exec_layoutChange (hu : s.sill c = u) (hr : u.running = none) (hp : u.pending = []) (hc : c < 512)
    (hl : u.liveLess < 15) (hi : s.layoutId c < 0xFFFFFFFE) (hg : ∀ g ∈ s.grids, ∀ x ∈ g.2.rest, x.1 ≠ c) :
    exec (.layoutChange c c 0 0 0) s =
      .next (({ s with channels := SMap.upd {} s.channels c fun x => { x with layoutMore := x.layoutMore + 1 } } : State).withSill c
        fun v => { v with liveLess := v.liveLess + 1 }) := by
  have hcoming : (s.grids.any fun g => g.2.rest.any fun x => x.1 == c) = false := by
    simp only [List.any_eq_false, List.any_eq_true, not_exists, not_and, beq_iff_eq]
    exact hg
  show Host.Outcome.next (layoutChanges c ⟨c, 0, 0, 0⟩ s) = _
  simp [layoutChanges, hu, hr, hp, hcoming, Nat.not_le.mpr hc, Nat.not_le.mpr hi, Nat.not_le.mpr hl]

end Sys2Proof.Claims
end

section
/-! PROOF. Events of a team: blocking points, results that land, and walks (R187, R23, R136, R339). -/

open Sys2Proof Sys2Proof.Machine Sys2Proof.Claims

namespace Sys2Proof.Machine

variable {s : State} {i : Nat} {t : Team} {o : Op}

/-! ## Results that land -/

/-- Results go to registers alone. -/
theorem Team.land_others (t : Team) (r : Result) :
    (t.land r).ops = t.ops ∧ (t.land r).fpf = t.fpf ∧ (t.land r).dcf = t.dcf := by
  unfold Team.land
  split <;> split <;> exact ⟨rfl, rfl, rfl⟩

theorem Team.foldl_land_others (rs : List Result) (t : Team) : (rs.foldl Team.land t).ops = t.ops ∧
    (rs.foldl Team.land t).fpf = t.fpf ∧ (rs.foldl Team.land t).dcf = t.dcf := by
  induction rs generalizing t with
  | nil => exact ⟨rfl, rfl, rfl⟩
  | cons r rs ih =>
    obtain ⟨h1, h2, h3⟩ := t.land_others r
    obtain ⟨g1, g2, g3⟩ := ih (t.land r)
    exact ⟨g1.trans h1, g2.trans h2, g3.trans h3⟩

/-- The team with every result of an operation in place and none of them left in it. -/
def Team.landedAll (t : Team) (o : Op) : Team :=
  { o.results.foldl Team.land t with ops := t.ops.map fun p => if p.ident = o.ident then { p with results := [] } else p }

/-- Operations of another number are as they were. -/
theorem filter_emptied (ops : List Op) (n : Nat) :
    (ops.map fun p => if p.ident = n then { p with results := [] } else p).filter (fun p => p.ident != n) =
      ops.filter fun p => p.ident != n := by
  induction ops with
  | nil => rfl
  | cons p ops ih =>
    by_cases h : p.ident = n <;> simp [h, ih]

/-- Its completion then takes it out of the list and raises its flags. -/
theorem Team.complete_landedAll (t : Team) (o : Op) :
    (t.landedAll o).complete { o with results := [] } =
      { o.results.foldl Team.land t with
        ops := t.ops.filter fun p => p.ident != o.ident
        fpf := t.fpf ||| BitVec.ofNat 5 o.fpf, dcf := t.dcf ||| BitVec.ofNat 5 o.dcf } := by
  obtain ⟨-, h2, h3⟩ := t.foldl_land_others o.results
  simp only [Team.complete, Team.landedAll, List.foldl_nil, filter_emptied, h2, h3]

/-- The faults of the first operation that has any are reported. -/
def State.reportFirst (s : State) (i : Nat) : State :=
  match (s.team i).faulty with
  | some first => s.reportOp i first
  | none => s

/-- With all its lanes the whole operation lands. -/
theorem longLands_all (hf : SMap.find s.teams i = some t) {lanes : Mask}
    (ho : t.ops.find? (fun p => p.ident == o.ident && p.window.isSome) = some o)
    (hl : ∀ r ∈ o.results, lanes.getLsbD r.lane = true) :
    longLands i o.ident lanes s =
      let s1 := s.withTeam i fun _ => t.landedAll o
      if o.faults.isEmpty then s1.withTeam i (·.complete { o with results := [] })
      else if t.parkWait then s1
      else s1.reportFirst i := by
  have hnow : o.results.filter (fun r => lanes.getLsbD r.lane) = o.results := List.filter_eq_self.mpr hl
  have hrest : o.results.filter (fun r => !lanes.getLsbD r.lane) = [] := by
    rw [List.filter_eq_nil_iff]
    exact fun r hr => by simp [hl r hr]
  have hs1 : (s.withTeam i fun u => { o.results.foldl Team.land u with
      ops := (o.results.foldl Team.land u).ops.map fun p => if p.ident = o.ident then { p with results := [] } else p }) =
      s.withTeam i fun _ => t.landedAll o :=
    State.withTeam_congr hf (by simp only [Team.landedAll, (t.foldl_land_others o.results).1])
  simp only [longLands, State.team_of_find hf, ho, hnow, hrest, hs1, List.isEmpty_nil, Bool.not_true, Bool.false_eq_true, if_false]
  rfl

/-! ## Side logs -/

/-- A core's side log stays where its store of translations changes. -/
theorem State.log_withTlb (s : State) (c : Nat) (g : List Tlb → List Tlb) :
    ((s.withCore c fun x => { x with tlb := g x.tlb }).core c).log = (s.core c).log := by
  simp only [State.core, State.withCore_cores, SMap.upd, SMap.val_set_same]

/-- A team without side-log entries of a page has none there to walk for again. -/
theorem State.replayLog_unposted {core : Nat} {va : Word} (h : ((s.core core).log.any fun e =>
      e.team == i && e.va.toNat % 2 ^ 57 / 4096 == va.toNat % 2 ^ 57 / 4096) = false) :
    s.replayLog core (s.unposted i (va.toNat % 2 ^ 57 / 4096)) = s := by
  have hmine : (s.core core).log.filter (s.unposted i (va.toNat % 2 ^ 57 / 4096)) = [] := by
    rw [List.filter_eq_nil_iff]
    intro e he hx
    simp only [State.unposted, Bool.and_eq_true] at hx
    simp only [List.any_eq_false, Bool.and_eq_true] at h
    exact h e he hx.1
  simp only [State.replayLog, hmine, List.isEmpty_nil, if_true]

end Sys2Proof.Machine

namespace Sys2Proof.Claims

variable {s : State} {i : Nat} {t : Team} {o : Op} {b : Block}

/-! ## Results -/

/-- An operation without faults completes with its last results. -/
theorem exec_longLatencyComplete (hf : SMap.find s.teams i = some t) {lanes : Mask}
    (ho : t.ops.find? (fun p => p.ident == o.ident && p.window.isSome) = some o)
    (hl : ∀ r ∈ o.results, lanes.getLsbD r.lane = true) (hn : o.faults = []) :
    exec (.longLatencyComplete i o.ident lanes) s = .next (s.withTeam i fun _ =>
      { o.results.foldl Team.land t with
        ops := t.ops.filter fun p => p.ident != o.ident
        fpf := t.fpf ||| BitVec.ofNat 5 o.fpf, dcf := t.dcf ||| BitVec.ofNat 5 o.dcf }) := by
  show Host.Outcome.next (longLands i o.ident lanes s) = _
  rw [longLands_all hf ho hl]
  dsimp only
  rw [if_pos (List.isEmpty_iff.mpr hn), State.withTeam_again, Team.complete_landedAll]

/-- With faults they are reported, but for a team that waits for its parent. -/
theorem exec_longLatencyComplete_faulty (hf : SMap.find s.teams i = some t) {lanes : Mask}
    (ho : t.ops.find? (fun p => p.ident == o.ident && p.window.isSome) = some o)
    (hl : ∀ r ∈ o.results, lanes.getLsbD r.lane = true) (hn : o.faults ≠ []) :
    exec (.longLatencyComplete i o.ident lanes) s =
      .next (if t.parkWait then s.withTeam i fun _ => t.landedAll o else (s.withTeam i fun _ => t.landedAll o).reportFirst i) := by
  show Host.Outcome.next (longLands i o.ident lanes s) = _
  rw [longLands_all hf ho hl]
  dsimp only
  rw [if_neg (by simpa using hn)]

/-! ## Blocking points -/

/-- A team that may go on takes its word again where a slot is free. -/
theorem exec_blockingPointResume (hf : SMap.find s.teams i = some t) (hb : t.block = some b) {o : OpenClause}
    (hm : s.mayIssue i = true) (hc : t.clause = some o) (hd : t.delivery = none) (hr : t.headerRecs = [])
    (hs : s.slotFree i o.eng = true) :
    let s1 := s.withTeam i fun u => { u with block := none }
    exec (.blockingPointResume i) s = .next { s1 with turns := .team i :: s.turns } := by
  show Host.Outcome.next (blockingPointAt i s) = _
  simp [blockingPointAt, State.team_of_find hf, hb, hm, hc, hd, hr, hs]

/-- A point that has waited too long ends in QSTALL. -/
theorem exec_qstall (hf : SMap.find s.teams i = some t) (hb : t.block = some b) (hp : t.place = .resident)
    (hc : t.clause.isSome = true) (hd : t.delivery = none) (hr : b.rids = []) (h : b.detail ≠ 0) :
    exec (.qstall i) s = .next ((s.withTeam i fun u => { u with stalled := 2 ^ 20 }).stallInstr i
      [{ t.record .qstall b.detail with lane := b.lane }]) := by
  show Host.Outcome.next (qstallAt i s) = _
  simp [qstallAt, State.team_of_find hf, hb, hp, hc, hd, hr, h]

/-- One that is exempt does not. -/
theorem exec_qstall_exempt (hf : SMap.find s.teams i = some t) (hb : t.block = some b) (h : b.detail = 0) :
    exec (.qstall i) s = .next s := by
  show Host.Outcome.next (qstallAt i s) = _
  simp [qstallAt, State.team_of_find hf, hb, h]

/-! ## Walks -/

/-- A walk that ends with a leaf fills the core's store. -/
theorem exec_pageWalk {s : State} {i : Nat} {va : Word} {write : Bool} {l : Tlb} (hp : (s.team i).place = .resident)
    (hc : canonical va = true) (hl : s.inLog i va = false)
    (hw : Act.go (walk (s.team i).asid (va.toNat % 2 ^ 57) (s.team i).timeline (s.team i).gen
      (if write then { w := true } else { r := true })) s = (.ok (.ok l), s)) :
    exec (.pageWalk i va write) s =
      .next (s.withCore (s.team i).core fun c => { c with tlb := l :: c.tlb.filter (· != l) }) := by
  show Host.Outcome.next (walksPage i va write s) = _
  unfold walksPage
  extract_lets t need s1
  have hs1 : s1 = s.withCore (s.team i).core fun c => { c with tlb := l :: c.tlb.filter (· != l) } := by
    have hgo := Act.go_bind_ok (f := fun
      | .ok l => modify fun (s : State) => s.withCore t.core fun c => { c with tlb := l :: c.tlb.filter fun x => x != l }
      | .error _ => pure ()) hw
    exact congrArg Prod.snd hgo
  have hlog := s.log_withTlb (s.team i).core fun ls => l :: ls.filter (· != l)
  rw [if_pos (by simp [t, hp, hc]), hs1, State.replayLog_unposted (by rw [hlog]; exact hl)]

end Sys2Proof.Claims
end

section
/-! PROOF. Clause headers: the fetch of code, the checks and waits of a header, the start of a clause (R16 to R20, R58). -/

open Sys2Proof Sys2Proof.Machine Sys2Proof.Claims

namespace Sys2Proof.Machine

variable {s : State} {i : Nat} {t : Team}

/-! ## The fetch of code (R58) -/

/-- A range that lies in one page is one piece. -/
theorem pagePieces_one {a n : Nat} (hn : 0 < n) (h : a % 4096 + n ≤ 4096) : pagePieces a n = [(a, n)] := by
  have hk : min n (4096 - a % 4096) = n := by omega
  show pieces 4096 (n / 4096 + 1 + 1) a n = _
  simp only [pieces, Nat.ne_of_gt hn, if_false, hk, Nat.sub_self, if_true]

/-- A slice without Mortar entries is read as it stands. -/
theorem go_readPhys (hm : s.mortar = []) (key n : Nat) :
    Act.go (readPhys key n) s = (.ok (readBytes s.mem key n), s) := by
  have hd : s.drainOver key n = s := by simp [State.drainOver, hm]
  show (Except.ok (readBytes (s.drainOver key n).mem key n), s.drainOver key n) = _
  rw [hd]

/-- Code of one mapped page is fetched from its key. -/
theorem go_fetchCode (hi : AtIssue s i t) (hm : s.mortar = []) {a : Word} {n key : Nat} (m : Mapped s i t a { x := true } key)
    (hn : 0 < n) (hp : a.toNat % 4096 + n ≤ 4096) : Act.go (fetchCode a n) s = (.ok (readBytes s.mem key n), s) := by
  obtain ⟨e, k, -, hr⟩ := go_reach hi m (h := .core t.core) (.inl rfl) accFetch false false
  rw [State.keep_core] at hr
  unfold fetchCode
  rw [pagePieces_one hn hp, List.mapM_cons, List.mapM_nil]
  simp only [BitVec.ofNat_toNat, BitVec.setWidth_eq, bind_assoc]
  rw [Act.go_bind_ok hi.go_tm, Act.go_bind_ok hr]
  dsimp only
  rw [Act.go_bind_ok (go_readPhys hm key n)]
  simp

/-- A part of bytes that were read is read at its place. -/
theorem bytesAt_readBytes (m : List Host.Cell) (a : Nat) {n off k : Nat} (h : off + k ≤ n) :
    bytesAt (readBytes m a n) off k = leNat (readBytes m (a + off) k) := by
  have : ((readBytes m a n).drop off).take k = readBytes m (a + off) k := by
    unfold readBytes
    apply List.ext_getElem
    · simp; omega
    · intro j h1 h2
      simp [Nat.add_assoc]
  rw [bytesAt, this]

/-! ## The turn of a team before a clause -/

/-- Passing changes no more than the teams. -/
theorem State.passed_eq (s : State) (i : Nat) : ∃ ts, s.passed i = { s with teams := ts } := by
  unfold State.passed
  split
  · exact ⟨_, rfl⟩
  · exact ⟨s.teams, rfl⟩

/-- A turn of a team with nothing to do first takes its header. -/
theorem State.headerTurn_eq (hf : SMap.find s.teams i = some t) (hd : t.delivery = none) (hc : t.clause = none)
    (hg : t.gaveUp = false) (hk : t.keptKey = false) (ha : t.after = none) (hr : t.headerRecs = [])
    (hx : (s.ctxOf i).state ≠ .seek) :
    s.headerTurn i = State.concludeHeader i (atHeader.go { s with cur := some i, curUnit := none }) := by
  simp [State.headerTurn, State.team_of_find hf, hd, hc, hg, hk, hr, hx, Team.yields, ha]

end Sys2Proof.Machine

namespace Sys2Proof.Claims

variable {s : State} {i key : Nat} {t : Team} {h : Word}

/-! ## What a header comes to -/

/-- A team whose header is looked at, with nothing that comes before it. -/
structure AtHeader (s : State) (i key : Nat) (t : Team) (h : Word) : Prop where
  issue : AtIssue s i t
  code : ClauseAt s i t key h
  recs : t.headerRecs = []
  skip : t.skip = 0
  block : t.block = none
  seek : (s.ctxOf i).state ≠ .seek

/-- The header is read from its key. -/
theorem AtHeader.go_header (a : AtHeader s i key t h) : Act.go (fetchCode t.pc 8) s = (.ok (readBytes s.mem key 8), s) := by
  obtain ⟨hm, -, hp, m, -, -⟩ := a.code
  exact go_fetchCode a.issue hm m (by decide) (by omega)

/-- The bytes read are the header. -/
theorem AtHeader.header_eq (a : AtHeader s i key t h) : BitVec.ofNat 64 (leNat (readBytes s.mem key 8)) = h := by
  obtain ⟨-, -, -, -, -, hh⟩ := a.code
  exact hh.symm

/-- A header that fails a check traps (R16). -/
theorem AtHeader.go_fails (a : AtHeader s i key t h) {d : Nat} (hd : headerFail t.desc.livecnt h = some d) :
    Act.go atHeader s = (.error (.trap [t.record .header d]), s) := by
  unfold atHeader
  rw [Act.go_bind_ok a.issue.go_tm, Act.go_bind_ok (Act.go_me s), a.issue.cur, Act.go_bind_ok a.go_header]
  dsimp only
  rw [a.header_eq, hd]
  simp only [a.recs, Option.isNone_some, Bool.false_and, List.isEmpty_nil, Bool.not_true, Bool.false_eq_true, if_false]
  rw [Act.go_bind_ok (Act.go_get s), Act.go_bind, Act.go_trap]

/-- A good one goes on to its waits (R19). -/
theorem AtHeader.go_waits (a : AtHeader s i key t h) (g : HeaderGood s t h) :
    Act.go atHeader s =
      if t.counterReady h && s.lineReady t h then Act.go (startClause h) s else (.error (.block { point := false }), s) := by
  obtain ⟨hd, hsafe, hgap, hline⟩ := g
  have hseek : ((s.ctxOf i).state == .seek) = false := beq_eq_false_iff_ne.mpr a.seek
  have hpark : (hdrSafe h && (s.region t.launch.region).kind == 2 && t.allow == 0) = false := by
    cases hs : hdrSafe h with
    | false => rfl
    | true =>
      have := (hsafe hs).2
      simpa using this
  have hbudget : (hdrSafe h && t.budgetDue) = false := by
    cases hs : hdrSafe h with
    | false => rfl
    | true => exact (hsafe hs).1
  have hgap' : (!hdrSafe h && decide (8192 < t.gap)) = false := by
    cases hs : hdrSafe h with
    | false => simpa using hgap hs
    | true => rfl
  have hline' : (hdrWfe h && decide (s.scratchOf t ≤ t.lineWaited h)) = false := by
    cases hs : hdrWfe h with
    | false => rfl
    | true => simpa using hline hs
  unfold atHeader
  rw [Act.go_bind_ok a.issue.go_tm, Act.go_bind_ok (Act.go_me s), a.issue.cur, Act.go_bind_ok a.go_header]
  dsimp only
  rw [a.header_eq, hd]
  simp only [a.recs, Option.isNone_none, Bool.true_and, List.isEmpty_nil, Bool.not_true, Bool.false_and, Bool.false_eq_true, if_false]
  rw [Act.go_bind_ok (Act.go_get s)]
  simp only [hseek, Bool.and_false, Bool.false_eq_true, if_false]
  rw [Act.go_bind_ok (Act.go_get s)]
  simp only [hpark, hbudget, hgap', Bool.false_eq_true, if_false]
  rw [Act.go_bind_ok (Act.go_get s)]
  simp only [hline', Bool.false_eq_true, if_false]
  cases hw : t.counterReady h && s.lineReady t h with
  | true => simp only [Bool.not_true, Bool.false_eq_true, if_false, if_true]
  | false =>
    simp only [Bool.not_false, if_true, Bool.false_eq_true, if_false]
    rw [Act.go_bind, Act.go_blockAt]

/-- The team with the clause at its header started. -/
def startedClause (s : State) (t : Team) (key : Nat) (h : Word) : Team :=
  { t with clause := some (clauseOf s t key h), declared := [], behind := [], gap := if hdrSafe h then 0 else t.gap }

/-- Without a slot the clause waits (R20). -/
theorem AtHeader.go_startClause_full (a : AtHeader s i key t h) (hf : s.slotFree i (hdrEng h) = false) :
    Act.go (startClause h) s = (.error (.block { point := false }), s) := by
  unfold startClause
  rw [Act.go_bind_ok a.issue.go_tm, Act.go_bind_ok (Act.go_me s), a.issue.cur, Act.go_bind_ok (Act.go_get s)]
  simp only [hf, Bool.not_false, if_true]
  rw [Act.go_bind, Act.go_blockAt]

theorem hdrWords_pos (h : Word) : 0 < hdrWords h := Nat.succ_pos _

/-- The words behind the header are read from theirs. -/
theorem AtHeader.go_words (a : AtHeader s i key t h) :
    Act.go (fetchCode (t.pc + 8) (8 * hdrWords h)) s = (.ok (readBytes s.mem (key + 8) (8 * hdrWords h)), s) := by
  obtain ⟨hm, h8, hp, -, m, -⟩ := a.code
  have hpos := hdrWords_pos h
  have hlt := t.pc.isLt
  have hpc : (t.pc + 8).toNat = t.pc.toNat + 8 := by
    rw [BitVec.toNat_add]
    show (t.pc.toNat + 8) % 2 ^ 64 = _
    omega
  exact go_fetchCode a.issue hm m (by omega) (by omega)

/-- With one it starts (R20). -/
theorem AtHeader.go_startClause_free (a : AtHeader s i key t h) (hf : s.slotFree i (hdrEng h) = true) :
    Act.go (startClause h) s = (.ok (), s.withTeam i fun u => startedClause s u key h) := by
  unfold startClause
  rw [Act.go_bind_ok a.issue.go_tm, Act.go_bind_ok (Act.go_me s), a.issue.cur, Act.go_bind_ok (Act.go_get s)]
  simp only [hf, Bool.not_true, Bool.false_eq_true, if_false]
  rw [Act.go_bind_ok a.go_words, Act.go_bind_ok (Act.go_modTm _ s), a.issue.cur]
  simp only [a.skip, Nat.not_le.mpr (hdrWords_pos h), if_false]
  rw [Act.go_pure]
  refine congrArg _ (State.withTeam_congr a.issue.2 ?_)
  have hwords : (List.range (hdrWords h)).map (fun k => BitVec.ofNat 64 (bytesAt (readBytes s.mem (key + 8) (8 * hdrWords h)) (8 * k) 8)) =
      (clauseOf s t key h).words :=
    List.map_congr_left fun k hk => by
      have := List.mem_range.mp hk
      rw [bytesAt_readBytes _ _ (by omega)]
  simp only [hwords, startedClause, clauseOf, a.skip, a.block]

/-- What comes of the header, concluded. -/
theorem AtHeader.concluded (a : AtHeader s i key t h) :
    (∀ d, headerFail t.desc.livecnt h = some d → State.concludeHeader i (atHeader.go s) =
      (s.withTeam i fun u => { u with declared := [] }).deliver i [t.record .header d] (t.here false false)) ∧
    (HeaderGood s t h → t.counterReady h = true → s.lineReady t h = true → s.slotFree i (hdrEng h) = true →
      State.concludeHeader i (atHeader.go s) = s.withTeam i fun u => startedClause s u key h) ∧
    (HeaderGood s t h → (t.counterReady h && s.lineReady t h && s.slotFree i (hdrEng h)) = false →
      State.concludeHeader i (atHeader.go s) = s.withTeam i fun u => { u with block := some { point := false } }) := by
  refine ⟨fun d hd => ?_, fun g hc hl hs => ?_, fun g hw => ?_⟩
  · rw [a.go_fails hd, State.concludeHeader]
    dsimp only
    rw [a.issue.team]
  · rw [a.go_waits g, hc, hl, Bool.and_self, if_pos rfl, a.go_startClause_free hs]
    rfl
  · have hgo : atHeader.go s = (.error (.block { point := false }), s) := by
      cases hr : t.counterReady h && s.lineReady t h with
      | false => rw [a.go_waits g, hr, if_neg Bool.false_ne_true]
      | true =>
        rw [hr, Bool.true_and] at hw
        rw [a.go_waits g, hr, if_pos rfl, a.go_startClause_full hw]
    have hctx : (s.withTeam i fun u => { u with block := some { point := false } }).ctxOf i = s.ctxOf i := by
      simp only [State.ctxOf, State.team_withTeam _ a.issue.2, a.issue.team]
      rfl
    rw [hgo, State.concludeHeader]
    dsimp only
    rw [State.seekSave]
    simp only [hctx, a.seek, decide_false, Bool.false_and, Bool.false_eq_true, if_false]

/-! ## The two events that look at it -/

/-- The team that looks at its header. -/
def looking (t : Team) (b : List Nat) : Team := { t with behind := b, block := none }

/-- A state that differs from another one in no more than whose turn it is and the team that looks. -/
structure LooksFrom (s here : State) (i : Nat) (u : Team) : Prop where
  issue : AtIssue here i u
  cores : here.cores = s.cores
  channels : here.channels = s.channels
  regions : here.regions = s.regions
  hearth : here.hearth = s.hearth
  mem : here.mem = s.mem
  mortar : here.mortar = s.mortar

variable {here : State} {b : List Nat}

/-- It finds what the team finds. -/
theorem LooksFrom.atHeader (l : LooksFrom s here i (looking t b)) (hs : StandsAtHeader s i t) (hc : ClauseAt s i t key h) :
    AtHeader here i key (looking t b) h := by
  obtain ⟨hf, -, -, -, -, -, -, hskip, hrecs, hseek⟩ := hs
  obtain ⟨hm, h8, hp, m1, m2, hh⟩ := hc
  have hteam := l.issue.team
  have hmap : ∀ {va : Word} {k : Nat}, Mapped s i t va { x := true } k → Mapped here i (looking t b) va { x := true } k :=
    fun m => m.of_translations l.cores l.channels (by rw [hteam, State.team_of_find hf]; rfl) ⟨rfl, rfl, rfl, rfl, rfl⟩
      fun e he => by
        simp only [Team.translations, State.core, l.cores] at he ⊢
        exact he
  have hctx : here.ctxOf i = s.ctxOf i := by
    simp only [State.ctxOf, hteam, State.team_of_find hf, l.hearth]
    rfl
  exact ⟨l.issue, ⟨l.mortar.trans hm, h8, hp, hmap m1, hmap m2, by rw [l.mem]; exact hh⟩, hrecs, hskip, rfl, hctx ▸ hseek⟩

theorem LooksFrom.allocOf (l : LooksFrom s here i (looking t b)) : here.allocOf (looking t b) = s.allocOf t := by
  simp only [State.allocOf, State.core, l.cores]
  rfl

theorem LooksFrom.lineReady (l : LooksFrom s here i (looking t b)) : here.lineReady (looking t b) h = s.lineReady t h := by
  simp only [State.lineReady, l.allocOf]
  rfl

theorem LooksFrom.headerGood (l : LooksFrom s here i (looking t b)) (g : HeaderGood s t h) : HeaderGood here (looking t b) h := by
  have hreg : ∀ r, here.region r = s.region r := fun r => by simp only [State.region, l.regions]
  have hscr : here.scratchOf (looking t b) = s.scratchOf t := by
    simp only [State.scratchOf, l.allocOf]
    rfl
  unfold HeaderGood
  rw [hreg, hscr]
  exact g

theorem LooksFrom.clauseOf (l : LooksFrom s here i (looking t b)) : clauseOf here (looking t b) key h = clauseOf s t key h := by
  simp only [Claims.clauseOf, l.mem]
  rfl

/-- Each of the two events has the team take its header, from the state that it names. -/
theorem headerLooks_exec (hs : StandsAtHeader s i t) : ∀ p ∈ headerLooks s i t, p.2.1 = true →
    ∃ b, LooksFrom s p.2.2 i (looking t b) ∧ exec p.1 s = .next (State.concludeHeader i (atHeader.go p.2.2)) := by
  obtain ⟨hf, hb, hc, hd, hg, hk, ha, -, hr, hx⟩ := hs
  obtain ⟨b, hp⟩ := State.find_passed (i := i) hf
  obtain ⟨ts, hts⟩ := s.passed_eq i
  have hteam := State.team_of_find hf
  have hctx : ∀ s' : State, s'.hearth = s.hearth → SMap.find s'.teams i = some (looking t b) → (s'.ctxOf i).state ≠ .seek := by
    intro s' hh hf'
    rw [State.ctxOf, State.team_of_find hf', hh]
    rw [State.ctxOf, hteam] at hx
    exact hx
  intro p hmem hon
  simp only [headerLooks, List.mem_cons, List.not_mem_nil, or_false] at hmem
  rcases hmem with rfl | rfl
  · have hnone : t.block = none := Option.isNone_iff_eq_none.mp hon
    have hp' : SMap.find (s.passed i).teams i = some (looking t b) := by rw [hp, looking, ← hnone]
    refine ⟨b, ⟨⟨rfl, hp'⟩, by rw [hts], by rw [hts], by rw [hts], by rw [hts], by rw [hts], by rw [hts]⟩, ?_⟩
    show Host.Outcome.next (clauseHeaderAt i s) = _
    rw [clauseHeaderAt, if_pos (by simp [hb, hteam, hnone]),
      State.headerTurn_eq hp' hd hc hg hk ha hr (hctx _ (by rw [hts]) hp')]
  · have hp' : SMap.find ((s.passed i).withTeam i fun u => { u with block := none }).teams i = some (looking t b) :=
      State.find_withTeam _ hp
    refine ⟨b, ⟨⟨rfl, hp'⟩, by rw [hts]; rfl, by rw [hts]; rfl, by rw [hts]; rfl, by rw [hts]; rfl, by rw [hts]; rfl,
      by rw [hts]; rfl⟩, ?_⟩
    show Host.Outcome.next (clauseWaitAt i s) = _
    have hsome : t.block.isSome = true := hon
    rw [clauseWaitAt, if_pos (by simp [hb, hteam, hsome]),
      State.headerTurn_eq hp' hd hc hg hk ha hr (hctx _ (by rw [hts]; rfl) hp')]
    rfl

end Sys2Proof.Claims
end

section
/-! PROOF. O52, from the rules about headers, teams and units. -/

open Sys2Proof Sys2Proof.Machine Sys2Proof.Claims

namespace Sys2Proof.Claims

/-- Settles O52: headers by what they come to, the other events by the lemma about each. -/
theorem coreAndSillEvents : Obligations.CoreAndSillEvents := by
  refine ⟨fun s i key t h hs hc p hp hon => ?_, fun s i t b hf hb => ⟨fun o hm hc hd hr hsl =>
    exec_blockingPointResume hf hb hm hc hd hr hsl, fun hp hc hd hr => ⟨fun h => exec_qstall hf hb hp hc hd hr h,
    fun h => exec_qstall_exempt hf hb h⟩⟩, fun s i t o lanes hf ho hl => ⟨fun hn => exec_longLatencyComplete hf ho hl hn,
    fun hn => exec_longLatencyComplete_faulty hf ho hl hn⟩, fun s i va write l hp hc hl hw => exec_pageWalk hp hc hl hw,
    fun s c limit u hu => ⟨fun b rest hr hp => ?_, fun b f hr hw ha hc => exec_sillSubwave_act hu hr hw ha hc,
    fun b f hr hw hc => exec_sillSubwave_mac hu hr hw hc, fun b t hr hw hst hf hp => exec_sillStall hu hr hw hst hf hp,
    fun hc h1 h16 => exec_banklim s hc h1 h16, fun hr hp hc hl hi hg => ?_⟩⟩
  · obtain ⟨b, l, he⟩ := headerLooks_exec hs p hp hon
    obtain ⟨hfail, hstart, hwait⟩ := (l.atHeader hs hc).concluded
    rw [he]
    refine ⟨fun d hd => congrArg _ (hfail d hd), fun g hcr hlr hsl => congrArg _ ?_, fun g hw => congrArg _ ?_⟩
    · rw [hstart (l.headerGood g) hcr (l.lineReady.trans hlr) hsl]
      exact State.withTeam_congr l.issue.2 (by rw [startedClause, l.clauseOf]; rfl)
    · exact hwait (l.headerGood g) (by rw [l.lineReady]; exact hw)
  · obtain ⟨g0, g1, g2, g3⟩ := start_getG u b rest
    exact ⟨_, exec_sillBlockStart hu hr hp, rfl, rfl, rfl, fun _ _ => rfl, g0, g1, g2, g3, rfl, rfl, rfl, rfl, rfl, rfl⟩
  · refine ⟨_, exec_layoutChange hu hr hp hc hl hi hg, ?_, ?_, rfl, rfl⟩
    · simp [State.layoutId, State.channel, SMap.upd]
    · rw [State.sill_withSill]
      exact congrArg (·.liveLess + 1) hu

end Sys2Proof.Claims
end

section
/-! PROOF. Words and their fields (R59, R60, R62, R313). -/

namespace Sys2Proof

/-! ## Register specifiers and type codes -/

@[simp] theorem Reg.ofByte_toByte (r : Reg) : Reg.ofByte r.toByte = r := by
  cases r with
  | v n => revert n; decide
  | s n => revert n; decide
  | k n => revert n; decide
  | q n => revert n; decide
  | a n => revert n; decide
  | zero | lane | teamix | teams => rfl
  | reserved n => revert n; decide

@[simp] theorem Reg.toByte_ofByte (b : BitVec 8) : (Reg.ofByte b).toByte = b := by
  revert b
  decide

@[simp] theorem Ty.ofCode_code (ty : Ty) : Ty.ofCode ty.code = ty := by cases ty <;> rfl

theorem Ty.code_lt (ty : Ty) : ty.code < 16 := by cases ty <;> decide

theorem Ty.code_ofCode {n : Nat} (h : n < 16) : (Ty.ofCode n).code = n := by
  revert h n
  decide

/-! ## The forms of a core word: from fields to a word and back -/

@[simp] theorem TForm.ofWord_word (f : TForm) (op fn : Nat) : TForm.ofWord (f.word op fn) = f := by
  simp (disch := decide) only [TForm.ofWord, TForm.word, headBits, field, BitVec.extractLsb'_append_eq_of_le,
    BitVec.extractLsb'_append_eq_of_add_le, Nat.reduceSub, BitVec.extractLsb'_eq_self]
  simp [Nat.mod_eq_of_lt f.ty.code_lt, Nat.mod_eq_of_lt f.km.isLt]

@[simp] theorem IForm.ofWord_word (f : IForm) (op fn : Nat) : IForm.ofWord (f.word op fn) = f := by
  simp (disch := decide) only [IForm.ofWord, IForm.word, headBits, field, BitVec.extractLsb'_append_eq_of_le,
    BitVec.extractLsb'_append_eq_of_add_le, Nat.reduceSub, BitVec.extractLsb'_eq_self]
  simp [Nat.mod_eq_of_lt f.ty.code_lt, Nat.mod_eq_of_lt f.km.isLt]

@[simp] theorem BForm.ofWord_word (f : BForm) (op fn : Nat) : BForm.ofWord (f.word op fn) = f := by
  simp (disch := decide) only [BForm.ofWord, BForm.word, headBits, field, BitVec.extractLsb'_append_eq_of_le,
    BitVec.extractLsb'_append_eq_of_add_le, Nat.reduceSub, BitVec.extractLsb'_eq_self]
  simp [Nat.mod_eq_of_lt f.ty.code_lt, Nat.mod_eq_of_lt f.km.isLt]

/-! ## OP and FN of a word -/

@[simp] theorem TForm.op_word (f : TForm) (op fn : Nat) : wordOp (f.word op fn) = op % 256 := by
  simp (disch := decide) only [wordOp, TForm.word, headBits, field, BitVec.extractLsb'_append_eq_of_le,
    Nat.reduceSub, BitVec.extractLsb'_eq_self, BitVec.toNat_ofNat, Nat.reducePow]

@[simp] theorem TForm.fn_word (f : TForm) (op fn : Nat) : wordFn (f.word op fn) = fn % 64 := by
  simp (disch := decide) only [wordFn, TForm.word, headBits, field, BitVec.extractLsb'_append_eq_of_le,
    BitVec.extractLsb'_append_eq_of_add_le, Nat.reduceSub, BitVec.extractLsb'_eq_self, BitVec.toNat_ofNat, Nat.reducePow]

@[simp] theorem IForm.op_word (f : IForm) (op fn : Nat) : wordOp (f.word op fn) = op % 256 := by
  simp (disch := decide) only [wordOp, IForm.word, headBits, field, BitVec.extractLsb'_append_eq_of_le,
    Nat.reduceSub, BitVec.extractLsb'_eq_self, BitVec.toNat_ofNat, Nat.reducePow]

@[simp] theorem IForm.fn_word (f : IForm) (op fn : Nat) : wordFn (f.word op fn) = fn % 64 := by
  simp (disch := decide) only [wordFn, IForm.word, headBits, field, BitVec.extractLsb'_append_eq_of_le,
    BitVec.extractLsb'_append_eq_of_add_le, Nat.reduceSub, BitVec.extractLsb'_eq_self, BitVec.toNat_ofNat, Nat.reducePow]

@[simp] theorem BForm.op_word (f : BForm) (op fn : Nat) : wordOp (f.word op fn) = op % 256 := by
  simp (disch := decide) only [wordOp, BForm.word, headBits, field, BitVec.extractLsb'_append_eq_of_le,
    Nat.reduceSub, BitVec.extractLsb'_eq_self, BitVec.toNat_ofNat, Nat.reducePow]

@[simp] theorem BForm.fn_word (f : BForm) (op fn : Nat) : wordFn (f.word op fn) = fn % 64 := by
  simp (disch := decide) only [wordFn, BForm.word, headBits, field, BitVec.extractLsb'_append_eq_of_le,
    BitVec.extractLsb'_append_eq_of_add_le, Nat.reduceSub, BitVec.extractLsb'_eq_self, BitVec.toNat_ofNat, Nat.reducePow]

/-! ## From a word to fields and back -/

theorem field_lt (w : Word) (lo len : Nat) : field w lo len < 2 ^ len := (w.extractLsb' lo len).isLt

theorem ofNat_field (w : Word) (lo len : Nat) : BitVec.ofNat len (field w lo len) = w.extractLsb' lo len := by
  simp only [field, BitVec.ofNat_toNat, BitVec.setWidth_eq]

/-- The head of a word is put together again from its fields. -/
theorem headBits_ofWord (w : Word) (h : field w 38 4 % 16 < 16) :
    headBits (wordOp w) (wordFn w) (Ty.ofCode (field w 46 4)) (w.extractLsb' 42 4) ⟨field w 38 4 % 16, h⟩
      (Reg.ofByte (w.extractLsb' 30 8)) = w.extractLsb' 30 34 := by
  have hk : field w 38 4 % 16 = field w 38 4 := Nat.mod_eq_of_lt (field_lt w 38 4)
  simp only [headBits, wordOp, wordFn, Ty.code_ofCode (field_lt w 46 4), hk, Reg.toByte_ofByte, ofNat_field]
  simp (disch := decide) only [BitVec.extractLsb'_append_extractLsb'_eq_extractLsb']

theorem TForm.word_ofWord (w : Word) : (TForm.ofWord w).word (wordOp w) (wordFn w) = w := by
  simp (disch := decide) only [TForm.word, TForm.ofWord, headBits_ofWord, Reg.toByte_ofByte,
    BitVec.extractLsb'_append_extractLsb'_eq_extractLsb', BitVec.extractLsb'_eq_self]

theorem IForm.word_ofWord (w : Word) : (IForm.ofWord w).word (wordOp w) (wordFn w) = w := by
  simp (disch := decide) only [IForm.word, IForm.ofWord, headBits_ofWord, Reg.toByte_ofByte,
    BitVec.extractLsb'_append_extractLsb'_eq_extractLsb', BitVec.extractLsb'_eq_self]

theorem BForm.word_ofWord (w : Word) : (BForm.ofWord w).word (wordOp w) (wordFn w) = w := by
  simp (disch := decide) only [BForm.word, BForm.ofWord, headBits_ofWord,
    BitVec.extractLsb'_append_extractLsb'_eq_extractLsb', BitVec.extractLsb'_eq_self]

end Sys2Proof
end

section
/-! PROOF. Sill words and their fields, and words as bytes (R55, R58, R313). -/

namespace Sys2Proof

/-! ## The forms of a Sill word -/

@[simp] theorem SillV.ofWord_word (f : SillV) (op : Nat) : SillV.ofWord (f.word op) = f := by
  simp (disch := decide) only [SillV.ofWord, SillV.word, BitVec.extractLsb'_append_eq_of_le,
    BitVec.extractLsb'_append_eq_of_add_le, Nat.reduceSub, BitVec.extractLsb'_eq_self]

@[simp] theorem SillI.ofWord_word (f : SillI) (op : Nat) : SillI.ofWord (f.word op) = f := by
  simp (disch := decide) only [SillI.ofWord, SillI.word, BitVec.extractLsb'_append_eq_of_le,
    BitVec.extractLsb'_append_eq_of_add_le, Nat.reduceSub, BitVec.extractLsb'_eq_self]

@[simp] theorem SillK.ofWord_word (f : SillK) (op : Nat) : SillK.ofWord (f.word op) = f := by
  simp (disch := decide) only [SillK.ofWord, SillK.word, BitVec.extractLsb'_append_eq_of_le,
    BitVec.extractLsb'_append_eq_of_add_le, Nat.reduceSub, BitVec.extractLsb'_eq_self]

@[simp] theorem SillA.ofWord_word (f : SillA) (op : Nat) : SillA.ofWord (f.word op) = f := by
  simp (disch := decide) only [SillA.ofWord, SillA.word, BitVec.extractLsb'_append_eq_of_le,
    BitVec.extractLsb'_append_eq_of_add_le, Nat.reduceSub, BitVec.extractLsb'_eq_self]

@[simp] theorem SillL.ofWord_word (f : SillL) (op : Nat) : SillL.ofWord (f.word op) = f := by
  simp (disch := decide) only [SillL.ofWord, SillL.word, BitVec.extractLsb'_append_eq_of_le,
    BitVec.extractLsb'_append_eq_of_add_le, Nat.reduceSub, BitVec.extractLsb'_eq_self]

@[simp] theorem SillQ.ofWord_word (f : SillQ) (op : Nat) (src : BitVec 1) : SillQ.ofWord (f.word op src) = f := by
  simp (disch := decide) only [SillQ.ofWord, SillQ.word, BitVec.extractLsb'_append_eq_of_le,
    BitVec.extractLsb'_append_eq_of_add_le, Nat.reduceSub, BitVec.extractLsb'_eq_self]

/-! ## OP of a Sill word, and FROM of the Q form -/

theorem SillV.op_word (f : SillV) (op : Nat) : ((f.word op).extractLsb' 27 5).toNat = op % 32 := by
  simp (disch := decide) only [SillV.word, BitVec.extractLsb'_append_eq_of_le, Nat.reduceSub,
    BitVec.extractLsb'_eq_self, BitVec.toNat_ofNat, Nat.reducePow]

theorem SillI.op_word (f : SillI) (op : Nat) : ((f.word op).extractLsb' 27 5).toNat = op % 32 := by
  simp (disch := decide) only [SillI.word, BitVec.extractLsb'_append_eq_of_le, Nat.reduceSub,
    BitVec.extractLsb'_eq_self, BitVec.toNat_ofNat, Nat.reducePow]

theorem SillK.op_word (f : SillK) (op : Nat) : ((f.word op).extractLsb' 27 5).toNat = op % 32 := by
  simp (disch := decide) only [SillK.word, BitVec.extractLsb'_append_eq_of_le, Nat.reduceSub,
    BitVec.extractLsb'_eq_self, BitVec.toNat_ofNat, Nat.reducePow]

theorem SillA.op_word (f : SillA) (op : Nat) : ((f.word op).extractLsb' 27 5).toNat = op % 32 := by
  simp (disch := decide) only [SillA.word, BitVec.extractLsb'_append_eq_of_le, Nat.reduceSub,
    BitVec.extractLsb'_eq_self, BitVec.toNat_ofNat, Nat.reducePow]

theorem SillL.op_word (f : SillL) (op : Nat) : ((f.word op).extractLsb' 27 5).toNat = op % 32 := by
  simp (disch := decide) only [SillL.word, BitVec.extractLsb'_append_eq_of_le, Nat.reduceSub,
    BitVec.extractLsb'_eq_self, BitVec.toNat_ofNat, Nat.reducePow]

theorem SillQ.op_word (f : SillQ) (op : Nat) (src : BitVec 1) :
    ((f.word op src).extractLsb' 27 5).toNat = op % 32 := by
  simp (disch := decide) only [SillQ.word, BitVec.extractLsb'_append_eq_of_le, Nat.reduceSub,
    BitVec.extractLsb'_eq_self, BitVec.toNat_ofNat, Nat.reducePow]

theorem SillQ.from_word (f : SillQ) (op : Nat) (src : BitVec 1) : (f.word op src).extractLsb' 26 1 = src := by
  simp (disch := decide) only [SillQ.word, BitVec.extractLsb'_append_eq_of_le,
    BitVec.extractLsb'_append_eq_of_add_le, Nat.reduceSub, BitVec.extractLsb'_eq_self]

/-! ## Bytes -/

/-- The lowest of the bytes from bit `k` of a word on. -/
theorem bytesOfNat_shiftRight {v : Nat} (w : BitVec v) (n k : Nat) :
    bytesOfNat (n + 1) (w.toNat >>> k) = w.extractLsb' k 8 :: bytesOfNat n (w.toNat >>> (k + 8)) := by
  simp only [bytesOfNat, BitVec.extractLsb', Nat.shiftRight_add, Nat.shiftRight_eq_div_pow _ 8, Nat.reducePow]

/-- Eight bytes are read back as the core word they are of. -/
theorem decodeBytes_word (w : Word) : decodeBytes (bytesOfNat 8 w.toNat) = decodeWord w := by
  rw [← Nat.shiftRight_zero (n := w.toNat)]
  simp only [bytesOfNat_shiftRight, Nat.reduceAdd]
  simp only [bytesOfNat, decodeBytes]
  simp (disch := decide) only [BitVec.extractLsb'_append_extractLsb'_eq_extractLsb', BitVec.extractLsb'_eq_self]

/-- Four bytes are read back as the Sill word they are of. -/
theorem decodeBytes_sill (w : BitVec 32) : decodeBytes (bytesOfNat 4 w.toNat) = decodeSill w := by
  rw [← Nat.shiftRight_zero (n := w.toNat)]
  simp only [bytesOfNat_shiftRight, Nat.reduceAdd]
  simp only [bytesOfNat, decodeBytes]
  simp (disch := decide) only [BitVec.extractLsb'_append_extractLsb'_eq_extractLsb', BitVec.extractLsb'_eq_self]

end Sys2Proof
end

section
/-! PROOF. Entries of the opcode map and the instructions they build (R67, R68). -/

namespace Sys2Proof

/-- The word with the fields that a word has under a form, and another OP and FN (R59). -/
def Form.reword (fm : Form) (w : Word) (op fn : Nat) : Word :=
  match fm with
  | .t => (TForm.ofWord w).word op fn
  | .i => (IForm.ofWord w).word op fn
  | .b => (BForm.ofWord w).word op fn

/-- Under its own OP and FN it is the word itself. -/
theorem Form.reword_self (fm : Form) (w : Word) : fm.reword w (wordOp w) (wordFn w) = w := by
  cases fm with
  | t => exact TForm.word_ofWord w
  | i => exact IForm.word_ofWord w
  | b => exact BForm.word_ofWord w

theorem mn_buildCore (m : Mn) (w : Word) : (buildCore m w).mn = some m := by cases m <;> rfl

theorem fields_buildCore (m : Mn) (w : Word) : (buildCore m w).fields = Fields.ofWord m.row.form w := by
  cases m <;> rfl

/-- The encoder gives an entry the OP and FN under which the opcode map has it (R67, R68). -/
theorem encodeCore_buildCore_of_opFn {op fn : Nat} {m : Mn} (h : Mn.ofOpFn op fn = some m) (w : Word) :
    encodeCore (buildCore m w) = m.row.form.reword w op fn := by
  unfold Mn.ofOpFn at h
  repeat' split at h
  all_goals cases h <;> rfl

theorem encodeCore_buildCore {m : Mn} {w : Word} (h : Mn.ofOpFn (wordOp w) (wordFn w) = some m) :
    encodeCore (buildCore m w) = w := by
  rw [encodeCore_buildCore_of_opFn h, Form.reword_self]

/-- The opcode map has an instruction's entry under the OP and FN of its word. -/
theorem ofOpFn_encodeCore {i : Instr} {m : Mn} (h : i.mn = some m) :
    Mn.ofOpFn (wordOp (encodeCore i)) (wordFn (encodeCore i)) = some m := by
  cases i <;> cases h
  all_goals
    dsimp only [encodeCore]
    simp only [TForm.op_word, TForm.fn_word, IForm.op_word, IForm.fn_word, BForm.op_word, BForm.fn_word]
    rfl

/-- An entry builds the instruction from the instruction's word. -/
theorem buildCore_encodeCore {i : Instr} {m : Mn} (h : i.mn = some m) : buildCore m (encodeCore i) = i := by
  cases i <;> cases h
  all_goals
    dsimp only [encodeCore, buildCore]
    simp only [TForm.ofWord_word, IForm.ofWord_word, BForm.ofWord_word]

theorem fields_encodeCore {i : Instr} {m : Mn} (h : i.mn = some m) :
    Fields.ofWord m.row.form (encodeCore i) = i.fields := by
  rw [← fields_buildCore, buildCore_encodeCore h]

/-! ## The decoder -/

theorem wellFormed_core {i : Instr} {m : Mn} (h : i.mn = some m) :
    WellFormed i = true ↔ fieldsFail m 128 64 i.fields = none := by
  simp only [WellFormed, h, Option.isNone_iff_eq_none]

/-- A core word decodes to what its entry builds when tests 5 to 9 of R69 pass, and to nothing else. -/
theorem decodeWord_eq_ok {w : Word} {i : Instr} : decodeWord w = .ok i ↔
    ∃ m, Mn.ofOpFn (wordOp w) (wordFn w) = some m ∧ fieldsFail m 128 64 (Fields.ofWord m.row.form w) = none ∧
      buildCore m w = i := by
  unfold decodeWord
  split
  next h => simp [h]
  next m h =>
    split
    next n hf => simp [h, hf]
    next hf => simp [h, hf]

theorem decodeWord_encodeCore {i : Instr} {m : Mn} (hm : i.mn = some m) (hw : WellFormed i = true) :
    decodeWord (encodeCore i) = .ok i :=
  decodeWord_eq_ok.mpr ⟨m, ofOpFn_encodeCore hm, by rw [fields_encodeCore hm, (wellFormed_core hm).mp hw],
    buildCore_encodeCore hm⟩

theorem encodeCore_of_decodeWord {w : Word} {i : Instr} (h : decodeWord w = .ok i) :
    WellFormed i = true ∧ encodeCore i = w := by
  obtain ⟨m, hm, hf, rfl⟩ := decodeWord_eq_ok.mp h
  exact ⟨(wellFormed_core (mn_buildCore m w)).mpr (by rw [fields_buildCore, hf]), encodeCore_buildCore hm⟩

/-! ## Sill words -/

/-- An instruction that is no core instruction and has bytes is a Sill instruction: the bytes are those of its word,
and OP and FROM of the word build it again (R313, R314). -/
theorem buildSill_encodeSill {i : Instr} (hm : i.mn = none) (he : encode i ≠ []) :
    encode i = bytesOfNat 4 (encodeSill i).toNat ∧ buildSill (encodeSill i) = some i := by
  cases i
  case slNop | slHalt | slAbm | slSbm | slFence => exact ⟨rfl, rfl⟩
  case slBx | slAdd | slSub | slMul | slFma | slMin | slMax | slCmp | slSel | slCvt | slMov =>
    exact ⟨rfl, by simp only [encodeSill, buildSill, SillV.op_word, SillV.ofWord_word]⟩
  case slMovi =>
    exact ⟨rfl, by simp only [encodeSill, buildSill, SillI.op_word, SillI.ofWord_word]⟩
  case slAct | slRd | slWr | slMac | slBred =>
    exact ⟨rfl, by simp only [encodeSill, buildSill, SillK.op_word, SillK.ofWord_word]⟩
  case slAg =>
    exact ⟨rfl, by simp only [encodeSill, buildSill, SillA.op_word, SillA.ofWord_word]⟩
  case slLoop =>
    exact ⟨rfl, by simp only [encodeSill, buildSill, SillL.op_word, SillL.ofWord_word]⟩
  case slSendBa | slRecv =>
    exact ⟨rfl, by simp only [encodeSill, buildSill, SillQ.op_word, SillQ.from_word, SillQ.ofWord_word, if_true]⟩
  case slSendW =>
    exact ⟨rfl, by simp only [encodeSill, buildSill, SillQ.op_word, SillQ.from_word, SillQ.ofWord_word]; rfl⟩
  all_goals first | exact absurd hm (Option.some_ne_none _) | exact absurd rfl he

/-- What a Sill word builds is neither a core instruction nor an event. -/
theorem mn_of_buildSill {w : BitVec 32} {i : Instr} (h : buildSill w = some i) : i.mn = none ∧ i.eventOk = true := by
  unfold buildSill at h
  repeat' split at h
  all_goals cases h <;> exact ⟨rfl, rfl⟩

theorem wellFormed_of_no_mn {i : Instr} (h : i.mn = none) :
    WellFormed i = true ↔ i.sillOk = true ∧ i.eventOk = true := by
  simp only [WellFormed, h, Bool.and_eq_true]

/-- A Sill word decodes to what it builds when that passes R315 and is encoded as the word, and to nothing else. -/
theorem decodeSill_eq_ok {w : BitVec 32} {i : Instr} :
    decodeSill w = .ok i ↔ buildSill w = some i ∧ i.sillOk = true ∧ encodeSill i = w := by
  unfold decodeSill
  cases buildSill w with
  | none => simp
  | some j =>
    simp only [Option.some.injEq, Bool.and_eq_true, beq_iff_eq]
    constructor
    · intro h
      split at h
      next hj =>
        cases h
        exact ⟨rfl, hj⟩
      next => cases h
    · rintro ⟨rfl, h⟩
      rw [if_pos h]

end Sys2Proof
end

section
/-! PROOF. O56 and O57, from the rules about words. -/

open Sys2Proof

namespace Sys2Proof.Claims

/-- Settles O57: a core word and a Sill word each come back from their bytes, and what decodes is encoded as it was. -/
theorem roundTrip : Obligations.RoundTrip := by
  refine ⟨fun i hw he => ?_, fun w i h => encodeCore_of_decodeWord h, fun w i h => ?_⟩
  · cases hm : i.mn with
    | some m =>
      have hb : encode i = bytesOfNat 8 (encodeCore i).toNat := by simp only [encode, hm]
      rw [hb, decodeBytes_word, decodeWord_encodeCore hm hw]
    | none =>
      obtain ⟨hb, hs⟩ := buildSill_encodeSill hm he
      obtain ⟨hok, -⟩ := (wellFormed_of_no_mn hm).mp hw
      rw [hb, decodeBytes_sill, decodeSill_eq_ok.mpr ⟨hs, hok, rfl⟩]
  · obtain ⟨hs, hok, he⟩ := decodeSill_eq_ok.mp h
    obtain ⟨hm, hev⟩ := mn_of_buildSill hs
    exact ⟨(wellFormed_of_no_mn hm).mpr ⟨hok, hev⟩, he⟩

/-- Settles O56: each word is decoded by computing. -/
theorem decodedWords : Obligations.DecodedWords := by
  unfold Obligations.DecodedWords
  and_intros <;> rfl

end Sys2Proof.Claims
end

section
/-! PROOF. Control registers: their values, and writes to those that can be written (R64, R85, R131 to R133, R164). -/

open Sys2Proof Sys2Proof.Machine Sys2Proof.Claims

namespace Sys2Proof.Machine

/-! ## Masks, lane by lane -/

theorem getLsbD_foldl_laneBit (ls : List Nat) (m : Mask) {l : Nat} (hl : l < 1024) :
    (ls.foldl (fun m l => m ||| laneBit l) m).getLsbD l = (m.getLsbD l || decide (l ∈ ls)) := by
  induction ls generalizing m with
  | nil => simp
  | cons a ls ih =>
    rw [List.foldl_cons, ih]
    simp [laneBit, hl, Bool.or_assoc]

theorem getLsbD_maskOf (ls : List Nat) {l : Nat} (hl : l < 1024) : (maskOf ls).getLsbD l = decide (l ∈ ls) := by
  rw [maskOf, getLsbD_foldl_laneBit ls 0 hl]
  simp

/-- A mask word replaced by zero clears its lanes alone. -/
theorem getLsbD_clearWord (m : Mask) {w l : Nat} (hw : w < 32) (hl : l < 1024) :
    (setMaskWord m w 0).getLsbD l = (m.getLsbD l && !decide (l / 32 = w)) := by
  rw [setMaskWord, if_pos hw]
  simp only [BitVec.getLsbD_or, BitVec.getLsbD_and, BitVec.getLsbD_not, BitVec.getLsbD_shiftLeft,
    BitVec.truncate_eq_setWidth, BitVec.getLsbD_setWidth, BitVec.getLsbD_allOnes, hl, decide_true, Bool.true_and]
  by_cases h : l / 32 = w
  · have hlo : ¬ l < 32 * w := by omega
    have hhi : l - 32 * w < 32 := by omega
    have hmask : l - 32 * w < 1024 := by omega
    simp [h, hlo, hhi, hmask]
  · have hout : l < 32 * w ∨ ¬ l - 32 * w < 32 := by omega
    rcases hout with ho | ho <;> simp [h, ho]

theorem getLsbD_foldl_clearWord (m : Mask) (x : Word) (ws : List Nat) (hw : ∀ w ∈ ws, w < 32) {l : Nat} (hl : l < 1024) :
    (ws.foldl (fun m w => if x.getLsbD w then m else setMaskWord m w 0) m).getLsbD l =
      (m.getLsbD l && (x.getLsbD (l / 32) || !decide (l / 32 ∈ ws))) := by
  induction ws generalizing m with
  | nil => simp
  | cons w ws ih =>
    rw [List.foldl_cons, ih _ (fun v hv => hw v (by simp [hv]))]
    split
    next hx => by_cases h : l / 32 = w <;> simp [h, hx]
    next hx =>
      rw [getLsbD_clearWord m (hw w (by simp)) hl]
      by_cases h : l / 32 = w <;> simp [h, hx]

theorem getLsbD_keepWords (m : Mask) (x : Word) {l : Nat} (hl : l < 1024) :
    (keepWords m x).getLsbD l = (m.getLsbD l && x.getLsbD (l / 32)) := by
  rw [keepWords, getLsbD_foldl_clearWord m x _ (by simp) hl]
  have hr : l / 32 < 32 := by omega
  simp [hr]

/-- A write of EXM through its view leaves the lanes whose mask words it keeps (R12). -/
theorem keepWords_eq (m : Mask) (x : Word) :
    keepWords m x = maskOf ((lanesIn 1024 m).filter fun l => x.getLsbD (l / 32)) := by
  refine BitVec.eq_of_getLsbD_eq fun l hl => ?_
  rw [getLsbD_keepWords m x hl, getLsbD_maskOf _ hl]
  simp [lanesIn, hl, Bool.and_comm]

/-! ## Reading -/

variable {s : State} {i : Nat} {t : Team}

/-- A control register other than CYC is read as it stands; one that holds flags, once nothing that can raise flags is
left (R85, R136). -/
theorem go_readCsr (h : AtIssue s i t) {n : Nat} (hn : n ≠ 0x040) (hq : isFlags n = true → t.flagsQuiet = true) :
    Act.go (readCsr n) s = (.ok (csrValue s t n), s) := by
  unfold readCsr
  rw [Act.go_bind_ok h.go_tm, Act.go_bind_ok (Act.go_get s)]
  split
  -- FPF and DCF, then CYC, then a number that is not assigned, then the registers read as they stand.
  case h_10 | h_12 => simp [hq rfl, csrValue]
  case h_16 => exact absurd rfl hn
  case h_21 => simp [csrValue]
  all_goals rfl

/-- The state once CYC has been read: the counter has moved on by a free value (R29; log 5). -/
def State.cycRead (s : State) (t : Team) : State :=
  { s with free := s.free + 1 }.withCore t.core fun c => { c with cyc := c.cyc + Config.cycleGap s.free }

theorem go_readCsr_cyc (h : AtIssue s i t) :
    Act.go (readCsr 0x040) s = (.ok ((s.cycRead t).core t.core).cyc, s.cycRead t) := by
  show Act.go (tm >>= fun _ => get >>= fun _ => readCyc) s = _
  rw [Act.go_bind_ok h.go_tm, Act.go_bind_ok (Act.go_get s), readCyc, Act.go_bind_ok h.go_tm,
    Act.go_bind_ok (Act.go_nextFree s), Act.go_bind_ok (Act.go_modify ..)]
  rfl

/-! ## Writing -/

theorem and_seven_eq_mod (x : Word) : x &&& 7 = BitVec.ofNat 64 (x.toNat % 8) := by
  refine BitVec.eq_of_toNat_eq ?_
  rw [BitVec.toNat_and, BitVec.toNat_ofNat, Nat.mod_eq_of_lt (by omega)]
  exact Nat.and_two_pow_sub_one_eq_mod x.toNat 3

/-- DCC keeps its value under a mode that is reserved (R133). -/
theorem csrWrite_dcc (t : Team) (x : Word) :
    csrWrite t 0x022 x = { t with dcc := if x.toNat % 8 < 5 then x &&& 7 else t.dcc } := by
  rw [and_seven_eq_mod]
  by_cases hx : x.toNat % 8 < 5 <;> simp only [csrWrite, hx, if_true, if_false]

/-- A control register is written once nothing that its write waits for is left: what can raise flags for FPF and DCF
(R136), the matrix stream for ACCB (R164). -/
theorem go_writeCsr (h : AtIssue s i t) {n : Nat} (x : Word) (hq : isFlags n = true → t.flagsQuiet = true)
    (ha : n = 0x002 → t.mxq = []) :
    ∃ s', Act.go (writeCsr n x) s = (.ok (), s') ∧ s'.retire i = (s.withTeam i fun _ => csrWrite t n x).retire i := by
  unfold writeCsr
  rw [Act.go_bind_ok h.go_tm]
  split
  -- EXM, ACCB, FPF and DCF, DCC, then what a write leaves as it is, then FPC, FRECB and SCORE.
  case h_1 => exact ⟨_, h.go_modTm _, by rw [csrWrite, keepWords_eq]⟩
  case h_2 => exact ⟨_, by rw [Act.go_bind_ok h.go_tm]; simp only [ha rfl]; exact h.go_modTm _, rfl⟩
  case h_4 | h_6 => exact ⟨_, by simp only [hq rfl]; exact h.go_modTm _, rfl⟩
  case h_5 => exact ⟨_, h.go_modTm _, by rw [csrWrite_dcc]⟩
  case h_9 => exact ⟨s, rfl, by simp [csrWrite, State.retire_self h.2]⟩
  all_goals exact ⟨_, h.go_modTm _, rfl⟩

/-- A write to ACCB is held while mx words are left in the team's stream (R164; log 19). -/
theorem go_writeCsr_accb (h : AtIssue s i t) (x : Word) (ha : t.mxq ≠ []) :
    Act.go (writeCsr 0x002 x) s = (.error (.block { held := true }), s) := by
  have hq : t.mxq.isEmpty = false := by simpa using ha
  unfold writeCsr
  rw [Act.go_bind_ok h.go_tm]
  show Act.go (tm >>= _) s = _
  rw [Act.go_bind_ok h.go_tm]
  simp only [hq]
  rfl

/-! ## The instructions -/

theorem exec_frCsrr (f : IForm) (s : State) : exec (.frCsrr f) s = runCore (frCsrr f) s := rfl

theorem exec_frCsrw (f : IForm) (s : State) : exec (.frCsrw f) s = runCore (frCsrw f) s := rfl

/-- A scalar result is as good as written before the instruction retires, ZERO too. -/
theorem go_swrite_retires (h : AtIssue s i t) (r : Reg) (x : Word) :
    ∃ s', Act.go (swrite r x) s = (.ok (), s') ∧ s'.retire i = (s.withTeam i fun _ => t.putScalar r x).retire i := by
  refine ⟨_, go_swrite h r x, ?_⟩
  cases r <;> first | rfl | exact (State.retire_self h.2).symm

theorem frCsrr_completes (h : AtIssue s i t) {f : IForm} (hn : f.imm.toNat % 2 ^ 12 ≠ 0x040)
    (hq : isFlags (f.imm.toNat % 2 ^ 12) = true → t.flagsQuiet = true) :
    Completes (.frCsrr f) s i (t.putScalar f.d (csrValue s t (f.imm.toNat % 2 ^ 12))) :=
  h.completes_swrite (exec_frCsrr f s) (by rw [frCsrr, Act.go_bind_ok (go_readCsr h hn hq)])

theorem frCsrr_cyc_completes (h : AtIssue s i t) {f : IForm} (hn : f.imm.toNat % 2 ^ 12 = 0x040) :
    CompletesAs (.frCsrr f) s i
      ((s.cycRead t).withTeam i fun _ => t.putScalar f.d ((s.cycRead t).core t.core).cyc) := by
  have h' : AtIssue (s.cycRead t) i t := h
  obtain ⟨s', hs, hr⟩ := go_swrite_retires h' f.d ((s.cycRead t).core t.core).cyc
  rw [CompletesAs, exec_frCsrr, ← hr]
  exact runCore_ok h.1 h.2 (by rw [frCsrr, hn, Act.go_bind_ok (go_readCsr_cyc h), hs])

theorem frCsrw_completes (h : AtIssue s i t) {f : IForm} (hd : Readable t f.d)
    (hq : isFlags (f.imm.toNat % 2 ^ 12) = true → t.flagsQuiet = true)
    (ha : f.imm.toNat % 2 ^ 12 = 0x002 → t.mxq = []) :
    Completes (.frCsrw f) s i (csrWrite t (f.imm.toNat % 2 ^ 12) (t.scalar (s.teamsOf t) f.d)) := by
  obtain ⟨s', hs, hr⟩ := go_writeCsr h (t.scalar (s.teamsOf t) f.d) hq ha
  rw [Completes, exec_frCsrw, ← hr]
  exact runCore_ok h.1 h.2 (by rw [frCsrw, Act.go_bind_ok (go_sread h hd), hs])

theorem frCsrw_accb_waits (h : AtIssue s i t) {f : IForm} (hd : Readable t f.d)
    (hn : f.imm.toNat % 2 ^ 12 = 0x002) (ha : t.mxq ≠ []) :
    exec (.frCsrw f) s = .next (s.stand i { held := true }) := by
  rw [exec_frCsrw]
  exact runCore_block h.1 h.2 (by rw [frCsrw, Act.go_bind_ok (go_sread h hd), hn, go_writeCsr_accb h _ ha])

end Sys2Proof.Machine
end

section
/-! PROOF. O5, from the rules about control registers. -/

open Sys2Proof Sys2Proof.Machine Sys2Proof.Claims

namespace Sys2Proof.Claims

/-- Settles O5: each clause is a rule about reading or writing a control register. -/
theorem controlRegisters : Obligations.ControlRegisters :=
  fun _ _ _ _ h => ⟨fun hn hq => frCsrr_completes h hn hq, fun hn => frCsrr_cyc_completes h hn,
    fun hd hq ha => frCsrw_completes h hd hq ha, fun hd hn ha => frCsrw_accb_waits h hd hn ha⟩

end Sys2Proof.Claims
end

section
/-! PROOF. The lanes' integer operations as exact integers narrowed to the type (R98, R100, R101, R103, R106, R107). -/

open Sys2Proof Sys2Proof.Machine Sys2Proof.Claims

namespace Sys2Proof.Machine

/-! ## Widths -/

theorem tyWidth_le (ty : Ty) : tyWidth ty ≤ 64 := by cases ty <;> decide

theorem two_mul_tyWidth_lt {ty : Ty} (h : tySigned ty = true) : 2 * tyWidth ty < 2 ^ tyWidth ty := by
  revert h
  cases ty <;> decide

theorem lowBits_eq_zero_iff (ty : Ty) (x : Word) : lowBits (tyWidth ty) x = 0 ↔ valueOf ty x = 0 := by
  constructor
  · intro h
    rw [← readAs_lowBits, h]
    simp [readAs, toSigned]
  · intro h
    have e := ofInt_valueOf ty x
    rw [h] at e
    simpa [lowBits] using (congrArg BitVec.toNat e).symm

/-! ## Results as registers take them -/

theorem lnExt_eq_narrow (ty : Ty) (n : Nat) : lnExt ty n = narrow ty n := extendTo_eq_narrow ty n

@[simp] theorem lnExt_ofSigned (ty : Ty) (z : Int) : lnExt ty (ofSigned (tyWidth ty) z) = narrow ty z :=
  extendTo_of ty (ofNat_ofSigned _ z)

@[simp] theorem lnExt_lowBits (ty : Ty) (x : Word) : lnExt ty (lowBits (tyWidth ty) x) = narrow ty (valueOf ty x) :=
  extendTo_lowBits ty x

@[simp] theorem narrow_zero (ty : Ty) : narrow ty 0 = 0 := by simp [narrow]

@[simp] theorem lnExt_zero (ty : Ty) : lnExt ty 0 = 0 := by
  rw [lnExt_eq_narrow]
  exact narrow_zero ty

@[simp] theorem lnExt_satTo (ty : Ty) (z : Int) : lnExt ty (satTo ty z) = clamped ty z := lnExt_ofSigned ty _

@[simp] theorem lnExt_wrapOrSat (ty : Ty) (sat : Bool) (z : Int) : lnExt ty (wrapOrSat ty sat z) = satOr ty sat z := by
  unfold wrapOrSat satOr
  cases sat <;> simp

/-- A word narrowed depends on its low bits alone. -/
theorem lnExt_of_setWidth (ty : Ty) {n : Nat} {x : Word} (h : BitVec.ofNat (tyWidth ty) n = x.setWidth (tyWidth ty)) :
    lnExt ty n = narrow ty x.toNat :=
  extendTo_of ty (by rw [h, BitVec.ofInt_natCast, BitVec.ofNat_toNat])

/-- A count of bits fits every type. -/
theorem lnExt_count (ty : Ty) {n : Nat} (h : n ≤ tyWidth ty) : lnExt ty n = BitVec.ofNat 64 n := by
  have hlt : n < 2 ^ tyWidth ty := Nat.lt_of_le_of_lt h Nat.lt_two_pow_self
  unfold lnExt extendTo
  split
  next hs =>
    have h2 := two_mul_tyWidth_lt hs
    have hn : (BitVec.ofNat (tyWidth ty) n).toNat = n := Nat.mod_eq_of_lt hlt
    rw [BitVec.toInt_eq_toNat_of_lt (by rw [hn]; omega), hn, BitVec.ofInt_natCast]
  next => rw [Nat.mod_eq_of_lt hlt]

/-! ## Multiplication and division by MOD (R100) -/

theorem lnExt_lnMul (ty : Ty) (mod : Nat) (a b : Word) :
    lnExt ty (lnMul ty mod (lowBits (tyWidth ty) a) (lowBits (tyWidth ty) b)) = laneMul ty mod a b := by
  match mod with
  | 0 => exact onLow_iMul ty a b
  | 1 => simp [lnMul, laneMul, readAs_lowBits]
  | 2 =>
    simp only [lnMul, laneMul, lowBits_eq_zero_iff]
    split
    · exact lnExt_zero ty
    · exact onLow_iQuot ty a b
  | m + 3 =>
    simp only [lnMul, laneMul, lowBits_eq_zero_iff]
    split
    · exact lnExt_zero ty
    · exact onLow_iRem ty a b

/-! ## Bits (R100) -/

theorem lnExt_lnNot (ty : Ty) (a : Word) :
    lnExt ty (lnNot ty (lowBits (tyWidth ty) a)) = narrow ty (~~~a).toNat := by
  apply lnExt_of_setWidth
  rw [BitVec.setWidth_not (tyWidth_le ty)]
  apply BitVec.eq_of_toNat_eq
  rw [BitVec.toNat_ofNat, BitVec.toNat_not, BitVec.toNat_setWidth, lnNot, lowBits]
  exact Nat.mod_eq_of_lt (by have := Nat.two_pow_pos (tyWidth ty); omega)

theorem lnExt_lnRot (ty : Ty) (a : Word) (n : Nat) :
    lnExt ty (lnRot ty (lowBits (tyWidth ty) a) n) = rotated ty a n := by
  unfold rotated
  rw [lnExt_eq_narrow, BitVec.toNat_rotateLeft, Nat.mod_mod, BitVec.toNat_ofNat, Nat.shiftLeft_eq, Nat.shiftRight_eq_div_pow]
  rfl

theorem lnExt_iClz (ty : Ty) (a : Word) :
    lnExt ty (iClz ty (lowBits (tyWidth ty) a)) =
      BitVec.ofNat 64 (tyWidth ty - Num.bitlen (a.toNat % 2 ^ tyWidth ty)) :=
  lnExt_count ty (Nat.sub_le ..)

theorem iPopc_lowBits (ty : Ty) (a : Word) :
    iPopc ty (lowBits (tyWidth ty) a) = ((List.range (tyWidth ty)).filter fun i => a.getLsbD i).length := by
  unfold iPopc
  congr 1
  refine List.filter_congr fun i hi => ?_
  rw [lowBits, Nat.testBit_mod_two_pow, decide_eq_true (List.mem_range.mp hi), Bool.true_and]
  rfl

theorem lnExt_iPopc (ty : Ty) (a : Word) :
    lnExt ty (iPopc ty (lowBits (tyWidth ty) a)) =
      BitVec.ofNat 64 ((List.range (tyWidth ty)).filter fun i => a.getLsbD i).length := by
  rw [iPopc_lowBits]
  exact lnExt_count ty (by simpa using List.length_filter_le (fun i => a.getLsbD i) (List.range (tyWidth ty)))

/-! ## Bit fields (R106) -/

theorem lnExt_bitExtract (ty : Ty) (sign : Bool) (a : Word) (p n : Nat) :
    lnExt ty (bitExtract ty sign (lowBits (tyWidth ty) a) p n) = bitField ty sign a p n := by
  unfold bitExtract bitField
  by_cases h : n = 0 ∨ tyWidth ty ≤ p
  · have hm : min n (tyWidth ty - p) = 0 := by omega
    have hc : (decide (n = 0) || decide (tyWidth ty ≤ p)) = true := by simpa using h
    simp [hm, hc, Nat.mod_one]
  · have hc : (decide (n = 0) || decide (tyWidth ty ≤ p)) = false := by simpa using h
    cases sign
    · simp [hc, lnExt_eq_narrow, lowBits]
    · simp [hc, lowBits, toSigned]

/-- Where bits of A are put into D: below them, in them, above them. -/
theorem testBit_bitInsert (ty : Ty) (d a p n i : Nat) :
    let m := min n (tyWidth ty - p)
    (bitInsert ty d a p n).testBit i = if p ≤ i ∧ i < p + m then a.testBit (i - p) else d.testBit i := by
  intro m
  have hlo : d % 2 ^ p < 2 ^ p := Nat.mod_lt _ (Nat.two_pow_pos p)
  have hmid : a % 2 ^ m < 2 ^ m := Nat.mod_lt _ (Nat.two_pow_pos m)
  have split_d : d = 2 ^ p * (2 ^ m * (d / 2 ^ p / 2 ^ m) + d / 2 ^ p % 2 ^ m) + d % 2 ^ p := by
    rw [Nat.div_add_mod, Nat.div_add_mod]
  have split_r : bitInsert ty d a p n = 2 ^ p * (2 ^ m * (d / 2 ^ p / 2 ^ m) + a % 2 ^ m) + d % 2 ^ p := by
    have e : bitInsert ty d a p n = d - (d / 2 ^ p % 2 ^ m) * 2 ^ p + a % 2 ^ m * 2 ^ p := rfl
    rw [e, Nat.mul_add] at *
    have := Nat.mul_comm (2 ^ p) (d / 2 ^ p % 2 ^ m)
    have := Nat.mul_comm (2 ^ p) (a % 2 ^ m)
    omega
  rw [split_r, Nat.testBit_two_pow_mul_add _ hlo]
  by_cases h1 : i < p
  · rw [if_pos h1, if_neg (by omega), Nat.testBit_mod_two_pow]
    simp [h1]
  · rw [if_neg h1, Nat.testBit_two_pow_mul_add _ hmid]
    by_cases h2 : i - p < m
    · rw [if_pos h2, if_pos (by omega), Nat.testBit_mod_two_pow]
      simp [h2]
    · rw [if_neg h2, if_neg (by omega), Nat.testBit_div_two_pow, Nat.testBit_div_two_pow]
      congr 1
      omega

theorem lnExt_bitInsert (ty : Ty) (d a : Word) {p n : Nat} (hn : n ≠ 0) (hp : p < tyWidth ty) :
    lnExt ty (bitInsert ty (lowBits (tyWidth ty) d) (lowBits (tyWidth ty) a) p n) = inserted ty d a p n := by
  have hw := tyWidth_le ty
  rw [inserted, if_neg (by omega)]
  apply lnExt_of_setWidth
  refine BitVec.eq_of_getLsbD_eq fun i hi => ?_
  rw [BitVec.getLsbD_ofNat, decide_eq_true hi, Bool.true_and, testBit_bitInsert]
  have hi64 : i < 64 := by omega
  have hd : (lowBits (tyWidth ty) d).testBit i = d.getLsbD i := by simp [lowBits, Nat.testBit_mod_two_pow, hi, BitVec.testBit_toNat]
  have ha : (lowBits (tyWidth ty) a).testBit (i - p) = a.getLsbD (i - p) := by
    simp [lowBits, Nat.testBit_mod_two_pow, BitVec.testBit_toNat, show i - p < tyWidth ty by omega]
  simp only [hd, ha, BitVec.getLsbD_setWidth, BitVec.getLsbD_or, BitVec.getLsbD_and, BitVec.getLsbD_not,
    BitVec.getLsbD_shiftLeft, BitVec.getLsbD_ofNat, Nat.testBit_mul_two_pow, Nat.testBit_two_pow_sub_one, hi, hi64,
    decide_true, Bool.true_and]
  by_cases h1 : p ≤ i
  · by_cases h2 : i - p < min n (tyWidth ty - p)
    · simp [h1, h2, show i < p + min n (tyWidth ty - p) by omega, show ¬ i < p by omega]
    · simp [h1, h2, show ¬ i < p + min n (tyWidth ty - p) by omega]
  · simp [h1]

/-! ## Bytes (R106) -/

/-- Byte `i` of a number. -/
def byteOf (x i : Nat) : Byte := BitVec.ofNat 8 (x / 256 ^ i)

theorem leBytes_eq (n x : Nat) : leBytes n x = (List.range n).map (byteOf x) := by
  induction n generalizing x with
  | zero => rfl
  | succ n ih =>
    rw [leBytes, ih, List.range_succ_eq_map, List.map_cons, List.map_map]
    congr 1
    · simp [byteOf]
    · refine List.map_congr_left fun i _ => ?_
      simp [byteOf, Nat.pow_succ', Nat.div_div_eq_div_mul]

theorem leNat_append_single (bs : List Byte) (b : Byte) : leNat (bs ++ [b]) = leNat bs + b.toNat * 256 ^ bs.length := by
  induction bs with
  | nil => simp [leNat]
  | cons c bs ih =>
    rw [List.cons_append, leNat, ih, leNat, List.length_cons, Nat.pow_succ]
    ring

theorem leNat_map_range (n : Nat) (g : Nat → Byte) :
    leNat ((List.range n).map g) = (List.range n).foldl (fun x i => x + (g i).toNat * 256 ^ i) 0 := by
  induction n with
  | zero => rfl
  | succ n ih =>
    rw [List.range_succ, List.map_append, List.map_singleton, leNat_append_single, ih, List.foldl_append]
    simp

/-- A byte inside a type's width is a byte of the register. -/
theorem byteOf_lowBits (ty : Ty) (a : Word) {i : Nat} (h : i < tyWidth ty / 8) :
    lowBits (tyWidth ty) a / 256 ^ i % 256 = (byteOf a.toNat i).toNat := by
  have e : tyWidth ty = 8 * i + (tyWidth ty - 8 * i - 8 + 8) := by omega
  have p : (256 : Nat) ^ i = 2 ^ (8 * i) := by rw [Nat.pow_mul]
  have q : (256 : Nat) ∣ 2 ^ (tyWidth ty - 8 * i - 8 + 8) := Nat.pow_dvd_pow 2 (show 8 ≤ _ by omega)
  rw [lowBits, byteOf, BitVec.toNat_ofNat, p, e, Nat.pow_add, Nat.mod_mul_right_div_self, Nat.mod_mod_of_dvd _ q]

/-- A byte of A, then of B, by its number. -/
theorem getD_bytes_append (n a b j : Nat) (h : j < 2 * n) :
    (leBytes n a ++ leBytes n b).getD j 0 = if j < n then byteOf a j else byteOf b (j - n) := by
  simp only [leBytes_eq]
  split
  next hj => rw [List.getD_append _ _ _ _ (by simpa using hj), List.getD_eq_getElem _ _ (by simpa using hj)]; simp
  next hj =>
    rw [List.getD_append_right _ _ _ _ (by simpa using hj), List.length_map, List.length_range,
      List.getD_eq_getElem _ _ (by simp; omega)]
    simp

theorem lnExt_bytePermute (ty : Ty) (a b c : Word) :
    lnExt ty (bytePermute ty (lowBits (tyWidth ty) a) (lowBits (tyWidth ty) b) (lowBits (tyWidth ty) c)) = picked ty a b c := by
  unfold picked bytePermute
  rw [lnExt_eq_narrow]
  simp only [leBytes_eq _ c.toNat, List.map_map]
  rw [leNat_map_range]
  congr 2
  refine List.foldl_ext _ _ _ fun x i hi => ?_
  have hi : i < tyWidth ty / 8 := List.mem_range.mp hi
  simp only [Function.comp_apply, byteOf_lowBits ty c hi]
  congr 2
  by_cases hs : (byteOf c.toNat i).toNat < 128
  · have hj : (byteOf c.toNat i).toNat % 16 % (2 * (tyWidth ty / 8)) < 2 * (tyWidth ty / 8) := Nat.mod_lt _ (by omega)
    rw [if_neg (by omega), if_pos hs, getD_bytes_append _ _ _ _ hj]
    split
    next h => exact byteOf_lowBits ty a h
    next h => exact byteOf_lowBits ty b (by omega)
  · rw [if_pos (by omega), if_neg hs]
    rfl

/-! ## Immediates (R61) -/

theorem narrow_valueOf_immOf (ty : Ty) (f : IForm) : narrow ty (valueOf ty (immOf f)) = narrow ty f.imm.toInt := by
  have hw := tyWidth_le ty
  apply narrow_congr
  rw [ofInt_valueOf]
  apply BitVec.eq_of_toNat_eq
  have e : (immOf f).toNat = (f.imm.toInt % (2 ^ 64 : Nat)).toNat := BitVec.toNat_ofInt ..
  have d : ((2 ^ tyWidth ty : Nat) : Int) ∣ ((2 ^ 64 : Nat) : Int) := by exact_mod_cast Nat.pow_dvd_pow 2 hw
  rw [BitVec.toNat_ofNat, BitVec.toNat_ofInt, e, ← Int.emod_emod_of_dvd _ d,
    Int.toNat_emod (Int.emod_nonneg _ (by norm_num)) (Int.natCast_nonneg _), Int.toNat_natCast]

end Sys2Proof.Machine
end

section
/-! PROOF. The ln instructions by shape: each row of registers, and each with an immediate (R97 to R101, R103, R105 to
R107). -/

open Sys2Proof Sys2Proof.Machine Sys2Proof.Claims

namespace Sys2Proof.Machine

variable {s : State} {i : Nat} {t : Team}

/-! ## Completion -/

/-- An ln instruction completes with the value it computes in every active lane. -/
theorem AtIssue.completes_lnWords (h : AtIssue s i t) {ins : Instr} {km : Fin 16} {ty : Ty} {d : Reg} {uses : List (Reg × Nat)}
    {g : Team → Nat → Nat → Word} {x : Nat → Word} (he : exec ins s = runCore (lnWords km ty d uses g) s)
    (hp : Unpoisoned t km uses) (hx : g t (s.teamsOf t) = x) :
    Completes ins s i (t.putLanes (t.lanesOf km.val) (tyWide ty) d x) := by
  subst hx
  exact h.completes he (go_lnWords h hp)

/-- The same for a number extended as its register takes it. -/
theorem AtIssue.completes_lnRun (h : AtIssue s i t) {ins : Instr} {km : Fin 16} {ty : Ty} {d : Reg} {uses : List (Reg × Nat)}
    {g : Team → Nat → Nat → Nat} {x : Nat → Word} (he : exec ins s = runCore (lnRun km ty d uses g) s)
    (hp : Unpoisoned t km uses) (hx : ∀ l, lnExt ty (g t (s.teamsOf t) l) = x l) :
    Completes ins s i (t.putLanes (t.lanesOf km.val) (tyWide ty) d x) :=
  h.completes_lnWords he hp (funext hx)

end Sys2Proof.Machine

namespace Sys2Proof.Claims

/-- A row's instructions put its value into every active lane. -/
def LaneRow.Holds (p : LaneRow) : Prop :=
  ∀ (f : TForm) (s : State) (i : Nat) (t : Team), AtIssue s i t → Unpoisoned t f.km (p.uses f) →
    Completes (p.ins f) s i (t.putLanes (t.lanesOf f.km.val) (tyWide f.ty) f.d (p.val f t (s.teamsOf t)))

/-! ## Rows by shape -/

variable {ins : TForm → Instr}

theorem lane1_holds {g : TForm → Nat → Nat} {op : TForm → Word → Word} (he : ∀ f s, exec (ins f) s = runCore (lnUn f (g f)) s)
    (hx : ∀ f a, lnExt f.ty (g f (lowBits (tyWidth f.ty) a)) = op f a) : (lane1 ins op).Holds :=
  fun f _ _ _ h hp => h.completes_lnRun (he f _) hp fun _ => hx f _

theorem lane2_holds {g : TForm → Nat → Nat → Nat} {op : TForm → Word → Word → Word}
    (he : ∀ f s, exec (ins f) s = runCore (lnBin f (g f)) s)
    (hx : ∀ f a b, lnExt f.ty (g f (lowBits (tyWidth f.ty) a) (lowBits (tyWidth f.ty) b)) = op f a b) : (lane2 ins op).Holds :=
  fun f _ _ _ h hp => h.completes_lnRun (he f _) hp fun _ => hx f _ _

theorem laneShift_holds {g : TForm → Nat → Nat → Nat} {op : TForm → Word → Nat → Word}
    (he : ∀ f s, exec (ins f) s = runCore (lnShift f (g f)) s)
    (hx : ∀ f a n, lnExt f.ty (g f (lowBits (tyWidth f.ty) a) n) = op f a n) : (laneShift ins op).Holds :=
  fun f _ _ _ h hp => h.completes_lnRun (he f _) hp fun _ => hx f _ _

theorem lane3_holds {g : TForm → Nat → Nat → Nat → Nat} {op : TForm → Word → Word → Word → Word}
    (he : ∀ f s, exec (ins f) s = runCore (lnRun f.km f.ty f.d [useOf f.ty f.a, useOf f.ty f.b, useOf f.ty f.c] fun t n l =>
      g f (lnSrc f.ty t n l f.a) (lnSrc f.ty t n l f.b) (lnSrc f.ty t n l f.c)) s)
    (hx : ∀ f a b c, lnExt f.ty (g f (lowBits (tyWidth f.ty) a) (lowBits (tyWidth f.ty) b) (lowBits (tyWidth f.ty) c)) =
      op f a b c) : (lane3 ins op).Holds :=
  fun f _ _ _ h hp => h.completes_lnRun (he f _) hp fun _ => hx f _ _ _

/-- A value converted from the type that MOD names (R107). -/
theorem lnConvert_completes {s : State} {i : Nat} {t : Team} (h : AtIssue s i t) {sat : Bool} {f : TForm}
    (he : exec (ins f) s = runCore (lnConvert f sat) s) (hp : Unpoisoned t f.km [useOf (Ty.ofCode (f.mod.toNat % 8)) f.a]) :
    Completes (ins f) s i (t.putLanes (t.lanesOf f.km.val) (tyWide f.ty) f.d fun l =>
      satOr f.ty sat (valueOf (Ty.ofCode (f.mod.toNat % 8))
        (t.lsrc (s.teamsOf t) l (tyWide (Ty.ofCode (f.mod.toNat % 8))) f.a))) :=
  h.completes_lnRun he hp fun _ => by rw [lnExt_wrapOrSat, lnSrc, readAs_lowBits]

theorem lnBfx_completes {s : State} {i : Nat} {t : Team} {f : TForm} (h : AtIssue s i t)
    (hp : Unpoisoned t f.km [useOf f.ty f.a, (f.b, 1), (f.c, 1)]) :
    Completes (.lnBfx f) s i (t.putLanes (t.lanesOf f.km.val) (tyWide f.ty) f.d fun l =>
      bitField f.ty (f.mod.getLsbD 0) (t.lsrc (s.teamsOf t) l (tyWide f.ty) f.a)
        ((t.lsrc (s.teamsOf t) l false f.b).toNat % 2 ^ 32) ((t.lsrc (s.teamsOf t) l false f.c).toNat % 2 ^ 32)) :=
  h.completes_lnRun rfl hp fun _ => lnExt_bitExtract f.ty _ _ _ _

/-! ## The rows -/

/-- Every row of the ln instructions on registers, in the order of the table. -/
theorem laneRows_hold : ∀ p ∈ laneRows, p.Holds := by
  unfold laneRows
  simp only [List.forall_mem_cons]
  refine ⟨?mov, ?add, ?sub, ?mul, ?mulh, ?mad, ?and, ?or, ?xor, ?min, ?max, ?not, ?abs, ?neg, ?shl, ?shr, ?sra, ?rot,
    ?clz, ?popc, ?sel, ?bfx, ?perm, ?cvt, ?sat, by simp⟩
  case mov => exact lane1_holds (g := fun _ => id) (fun _ _ => rfl) fun f => lnExt_lowBits f.ty
  case add =>
    exact lane2_holds (g := fun f => lnAdd f.ty (f.mod.getLsbD 0)) (fun _ _ => rfl) fun f a b => by
      rw [lnAdd, lnExt_wrapOrSat, readAs_lowBits, readAs_lowBits]
  case sub =>
    exact lane2_holds (g := fun f => lnSub f.ty (f.mod.getLsbD 0)) (fun _ _ => rfl) fun f a b => by
      rw [lnSub, lnExt_wrapOrSat, readAs_lowBits, readAs_lowBits]
  case mul => exact lane2_holds (g := fun f => lnMul f.ty f.mod.toNat) (fun _ _ => rfl) fun f => lnExt_lnMul f.ty _
  case mulh => exact lane2_holds (g := fun f => iMulh f.ty) (fun _ _ => rfl) fun f => onLow_iMulh f.ty
  case mad =>
    exact lane3_holds
      (g := fun f a b c => wrapOrSat f.ty (f.mod.getLsbD 0) (readAs f.ty a * readAs f.ty b + readAs f.ty c))
      (fun _ _ => rfl) fun f a b c => by rw [lnExt_wrapOrSat, readAs_lowBits, readAs_lowBits, readAs_lowBits]
  case and => exact lane2_holds (g := fun f => iAnd f.ty) (fun _ _ => rfl) fun f => onLow_iAnd f.ty
  case or => exact lane2_holds (g := fun f => iOr f.ty) (fun _ _ => rfl) fun f => onLow_iOr f.ty
  case xor => exact lane2_holds (g := fun f => iXor f.ty) (fun _ _ => rfl) fun f => onLow_iXor f.ty
  case min => exact lane2_holds (g := fun f => iMin f.ty) (fun _ _ => rfl) fun f => onLow_iMin f.ty
  case max => exact lane2_holds (g := fun f => iMax f.ty) (fun _ _ => rfl) fun f => onLow_iMax f.ty
  case not => exact lane1_holds (g := fun f => lnNot f.ty) (fun _ _ => rfl) fun f => lnExt_lnNot f.ty
  case abs =>
    exact lane1_holds (g := fun f => lnAbs f.ty (f.mod.getLsbD 0)) (fun _ _ => rfl) fun f a => by
      rw [lnAbs, lnExt_wrapOrSat, readAs_lowBits]
  case neg =>
    exact lane1_holds (g := fun f => lnNeg f.ty (f.mod.getLsbD 0)) (fun _ _ => rfl) fun f a => by
      rw [lnNeg, lnExt_wrapOrSat, readAs_lowBits]
  case shl => exact laneShift_holds (g := fun f => iShl f.ty) (fun _ _ => rfl) fun f => shiftLow_iShl f.ty
  case shr => exact laneShift_holds (g := fun f => iShr f.ty) (fun _ _ => rfl) fun f => shiftLow_iShr f.ty
  case sra => exact laneShift_holds (g := fun f => iSra f.ty) (fun _ _ => rfl) fun f => shiftLow_iSra f.ty
  case rot => exact laneShift_holds (g := fun f => lnRot f.ty) (fun _ _ => rfl) fun f => lnExt_lnRot f.ty
  case clz => exact lane1_holds (g := fun f => iClz f.ty) (fun _ _ => rfl) fun f => lnExt_iClz f.ty
  case popc => exact lane1_holds (g := fun f => iPopc f.ty) (fun _ _ => rfl) fun f => lnExt_iPopc f.ty
  case sel => exact fun f _ _ _ h hp => h.completes_lnRun (ins := .lnSel f) rfl hp fun _ => lnExt_lowBits f.ty _
  case bfx => exact fun f _ _ _ h hp => lnBfx_completes h hp
  case perm => exact lane3_holds (g := fun f => bytePermute f.ty) (fun _ _ => rfl) fun f => lnExt_bytePermute f.ty
  case cvt => exact fun _ _ _ _ h hp => lnConvert_completes (sat := false) h rfl hp
  case sat => exact fun _ _ _ _ h hp => lnConvert_completes (sat := true) h rfl hp

/-! ## Immediates (R61, R100) -/

/-- A row with an immediate puts the result of A and the sign-extended field into every active lane. -/
def ImmediateHolds (p : (IForm → Instr) × (Ty → Word → Word → Word)) : Prop :=
  ∀ (f : IForm) (s : State) (i : Nat) (t : Team), AtIssue s i t → Unpoisoned t f.km [useOf f.ty f.a] →
    Completes (p.1 f) s i (t.putLanes (t.lanesOf f.km.val) (tyWide f.ty) f.d fun l =>
      p.2 f.ty (t.lsrc (s.teamsOf t) l (tyWide f.ty) f.a) (f.imm.signExtend 64))

theorem lnImm_holds {ins : IForm → Instr} {g : Ty → Nat → Nat → Nat} {op : Ty → Word → Word → Word}
    (he : ∀ f s, exec (ins f) s = runCore (lnImm f (g f.ty)) s) (hx : ∀ ty a b, onLow g ty a b = op ty a b) :
    ImmediateHolds (ins, op) :=
  fun f _ _ _ h hp => h.completes_lnRun (he f _) hp fun _ => hx f.ty _ _

theorem lnShiftImm_holds {ins : IForm → Instr} {g : Ty → Nat → Nat → Nat} {op : Ty → Word → Nat → Word}
    (he : ∀ f s, exec (ins f) s = runCore (lnShiftImm f (g f.ty)) s) (hx : ∀ ty a n, shiftLow g ty a n = op ty a n) :
    ImmediateHolds (ins, fun ty a b => op ty a (b.toNat % 2 ^ 32)) :=
  fun f _ _ _ h hp => h.completes_lnRun (he f _) hp fun _ => hx f.ty _ _

theorem lnMovi_completes {s : State} {i : Nat} {t : Team} (h : AtIssue s i t) (f : IForm) :
    Completes (.lnMovi f) s i
      (t.putLanes (t.lanesOf f.km.val) (tyWide f.ty) f.d fun _ => narrow f.ty f.imm.toInt) :=
  h.completes_lnRun (uses := []) rfl (fun _ _ => rfl) fun _ => by rw [lnExt_lowBits, narrow_valueOf_immOf]

theorem onLow_lnAdd (ty : Ty) (a b : Word) :
    onLow (fun ty => lnAdd ty false) ty a b = narrow ty (valueOf ty a + valueOf ty b) := by
  show lnExt ty (wrapOrSat ty false _) = _
  rw [lnExt_wrapOrSat, readAs_lowBits, readAs_lowBits]
  rfl

theorem onLow_lnSub (ty : Ty) (a b : Word) :
    onLow (fun ty => lnSub ty false) ty a b = narrow ty (valueOf ty a - valueOf ty b) := by
  show lnExt ty (wrapOrSat ty false _) = _
  rw [lnExt_wrapOrSat, readAs_lowBits, readAs_lowBits]
  rfl

/-- Every row of the ln instructions with an immediate, in the order of the table. -/
theorem laneImm_hold : ∀ p ∈ laneImm, ImmediateHolds p := by
  unfold laneImm
  simp only [List.forall_mem_cons]
  refine ⟨?add, ?sub, ?mul, ?and, ?or, ?xor, ?min, ?max, ?shl, ?shr, ?sra, ?rot, by simp⟩
  case add => exact lnImm_holds (g := fun ty => lnAdd ty false) (fun _ _ => rfl) onLow_lnAdd
  case sub => exact lnImm_holds (g := fun ty => lnSub ty false) (fun _ _ => rfl) onLow_lnSub
  case mul => exact lnImm_holds (g := iMul) (fun _ _ => rfl) onLow_iMul
  case and => exact lnImm_holds (g := iAnd) (fun _ _ => rfl) onLow_iAnd
  case or => exact lnImm_holds (g := iOr) (fun _ _ => rfl) onLow_iOr
  case xor => exact lnImm_holds (g := iXor) (fun _ _ => rfl) onLow_iXor
  case min => exact lnImm_holds (g := iMin) (fun _ _ => rfl) onLow_iMin
  case max => exact lnImm_holds (g := iMax) (fun _ _ => rfl) onLow_iMax
  case shl => exact lnShiftImm_holds (g := iShl) (op := shiftLeft) (fun _ _ => rfl) shiftLow_iShl
  case shr => exact lnShiftImm_holds (g := iShr) (op := shiftRight) (fun _ _ => rfl) shiftLow_iShr
  case sra => exact lnShiftImm_holds (g := iSra) (op := shiftSigned) (fun _ _ => rfl) shiftLow_iSra
  case rot => exact lnShiftImm_holds (g := lnRot) (op := rotated) (fun _ _ => rfl) lnExt_lnRot

end Sys2Proof.Claims
end

section
/-! PROOF. O12 and O13, from the rows of the ln instructions. -/

open Sys2Proof Sys2Proof.Machine Sys2Proof.Claims

namespace Sys2Proof.Claims

/-- Settles O12: each row of the table by its shape and the exact integer its operation comes to. -/
theorem laneRegisterForms : Obligations.LaneRegisterForms := laneRows_hold

/-- Settles O13: each row of the table, and ln.movi, whose immediate is narrowed. -/
theorem laneImmediateForms : Obligations.LaneImmediateForms :=
  fun f _ _ _ h => ⟨fun hp p hr => laneImm_hold p hr f _ _ _ h hp, lnMovi_completes h f⟩

end Sys2Proof.Claims
end

section
/-! PROOF. ln.addc, ln.subb, ln.cmp, ln.movs and ln.bfi (R102 to R104, R106). -/

open Sys2Proof Sys2Proof.Machine Sys2Proof.Claims

namespace Sys2Proof.Machine

variable {s : State} {i : Nat} {t : Team}

/-! ## Carry chains (R102) -/

/-- The carry that a lane takes in (R102). -/
def carryIn (f : TForm) (t : Team) (l : Nat) : Nat :=
  match f.c with
  | .k n => if (t.getK n.val).getLsbD l then 1 else 0
  | _ => 0

theorem carrySum_eq (f : TForm) (sub : Bool) (t : Team) (n l : Nat) :
    carrySum f sub t n l =
      if sub then (lnSrc f.ty t n l f.a : Int) - lnSrc f.ty t n l f.b - carryIn f t l
      else (lnSrc f.ty t n l f.a : Int) + lnSrc f.ty t n l f.b + carryIn f t l := by
  unfold carrySum carryIn
  cases f.c <;> simp [lnSrc, lowBits]

theorem go_lnCarry (h : AtIssue s i t) {f : TForm} (hp : Unpoisoned t f.km [useOf f.ty f.a, useOf f.ty f.b]) (sub : Bool) :
    Act.go (lnCarry f sub) s = (.ok (), s.withTeam i fun _ =>
      (t.putLanes (t.lanesOf f.km.val) (tyWide f.ty) f.d fun l => narrow f.ty (carrySum f sub t (s.teamsOf t) l)).setK
        (f.mod.toNat % 16) ((t.getK (f.mod.toNat % 16) &&& ~~~maskOf (t.lanesOf f.km.val)) |||
          maskOf ((t.lanesOf f.km.val).filter fun l => carrySum f sub t (s.teamsOf t) l < 0 ∨
            (2 ^ tyWidth f.ty : Int) ≤ carrySum f sub t (s.teamsOf t) l))) := by
  unfold lnCarry
  rw [Act.go_bind_ok h.go_tm, Act.go_bind_ok (Act.go_get s)]
  simp only [hp.filter]
  rw [Act.go_bind_ok (h.go_modTm _), hp.records]
  simp only [lnExt_ofSigned, carrySum_eq, Bool.decide_or]
  rfl

/-! ## Comparisons (R104) -/

/-- A team with exceptions raised as flags, binary or decimal. -/
def Team.raise (t : Team) (dec : Bool) (fl : BitVec 5) : Team :=
  if dec then { t with dcf := t.dcf ||| fl } else { t with fpf := t.fpf ||| fl }

theorem Team.raise_zero (t : Team) (dec : Bool) : t.raise dec 0 = t := by
  cases dec <;> simp [Team.raise]

/-- An instruction ends with flags and no record. -/
theorem AtIssue.go_raise (h : AtIssue s i t) (dec : Bool) (fl : BitVec 5) :
    Act.go (modTm (fun u => u.raise dec fl) >>= fun _ => finishLanes []) s = (.ok (), s.withTeam i fun _ => t.raise dec fl) := by
  rw [Act.go_bind_ok (h.go_modTm _)]
  rfl

/-- The same after a write of its team. -/
theorem AtIssue.go_write_raise (h : AtIssue s i t) (g : Team → Team) (dec : Bool) (fl : BitVec 5) :
    Act.go (modTm g >>= fun _ => modTm (fun u => u.raise dec fl) >>= fun _ => finishLanes []) s =
      (.ok (), s.withTeam i fun _ => (g t).raise dec fl) := by
  rw [Act.go_bind_ok (h.go_modTm g), (h.withTeam _).go_raise, State.withTeam_withTeam]

/-- A comparison none of whose lanes traps. -/
theorem go_writeCond_bits (h : AtIssue s i t) (f : TForm) (dec : Bool) (b : Nat → Bool) (e : Nat → BitVec 5) :
    Act.go (writeCond f dec ((t.lanesOf f.km.val).map fun l => (l, .bit (b l) (e l)))) s =
      (.ok (), s.withTeam i fun _ => (compared t f b).raise dec (raised ((t.lanesOf f.km.val).map e))) := by
  have hmask (m : Mask) : m &&& maskOf [] = 0 := by simp [maskOf]
  have hfl : (t.lanesOf f.km.val).foldl (fun a l => a ||| e l) 0 = raised ((t.lanesOf f.km.val).map e) := by
    rw [raised, List.foldl_map]
  unfold writeCond compared
  simp only [List.filterMap_map, List.foldl_map, Function.comp_def, List.filterMap_eq_map', List.filterMap_none,
    List.map_map, List.filter_map, List.map_id', hmask, hfl]
  cases f.d
  case k | v => exact h.go_write_raise _ dec _
  all_goals exact h.go_raise dec _

theorem raised_map_zero {α : Type} (xs : List α) : raised (xs.map fun _ => 0) = 0 := by
  induction xs with
  | nil => rfl
  | cons x xs ih => simpa [raised] using ih

/-- A comparison of the lanes that raises nothing: every lane's bit goes to D, and nothing else changes. -/
theorem go_runCond_quiet (h : AtIssue s i t) {f : TForm} {dec : Bool} {uses : List (Reg × Nat)} {g : Team → Nat → Nat → Bool}
    (hp : Unpoisoned t f.km uses) :
    Act.go (runCond f dec uses fun t n l => (g t n l, 0)) s =
      (.ok (), s.withTeam i fun _ => compared t f (g t (s.teamsOf t))) := by
  have hw := go_writeCond_bits h f dec (g t (s.teamsOf t)) fun _ => 0
  rw [raised_map_zero, Team.raise_zero] at hw
  unfold runCond
  rw [Act.go_bind_ok h.go_tm, Act.go_bind_ok (Act.go_get s), ← hw]
  refine congrArg (fun o => Act.go (writeCond f dec o) s) (List.map_congr_left fun l hl => ?_)
  simp [hp l hl]

/-- A condition code on the low bits of two registers (R104). -/
theorem iCond_lowBits (ty : Ty) (c : Nat) (a b : Word) :
    iCond ty c (lowBits (tyWidth ty) a) (lowBits (tyWidth ty) b) = relation c (valueOf ty a) (valueOf ty b) := by
  rcases c with _ | _ | _ | _ | _ | c
  all_goals simp only [iCond, relation, readAs_lowBits]
  case zero => exact beq_eq_decide ..
  case succ.zero => rw [bne, beq_eq_decide, decide_not]

theorem go_lnCmp (h : AtIssue s i t) {f : TForm} (hp : Unpoisoned t f.km [useOf f.ty f.a, useOf f.ty f.b]) :
    Act.go (lnCmp f) s = (.ok (), s.withTeam i fun _ => compared t f fun l =>
      relation (f.mod.toNat % 8) (valueOf f.ty (t.lsrc (s.teamsOf t) l (tyWide f.ty) f.a))
        (valueOf f.ty (t.lsrc (s.teamsOf t) l (tyWide f.ty) f.b))) := by
  unfold lnCmp
  rw [go_runCond_quiet h hp]
  simp only [lnSrc, iCond_lowBits]

/-! ## Named registers (R103) -/

/-- What ln.movs reads in a lane: the register named there, where the team has it (R103). -/
def movedValue (f : TForm) (t : Team) (n l : Nat) : Word :=
  if isNamed f t n l then
    narrow f.ty (valueOf f.ty
      (if tyWide f.ty then t.getPair l (namedReg f t n l) else (t.getV l (namedReg f t n l)).setWidth 64))
  else 0

theorem go_lnMovs (h : AtIssue s i t) {f : TForm} (hp : Unpoisoned t f.km [(f.b, 1)])
    (hq : ∀ l ∈ t.lanesOf f.km.val, isNamed f t (s.teamsOf t) l → t.lpoison l (if tyWide f.ty then 2 else 1)
      (Reg.ofByte (BitVec.ofNat 8 (namedReg f t (s.teamsOf t) l))) = none) :
    Act.go (lnMovs f) s = (.ok (), s.withTeam i fun _ =>
      t.putLanes (t.lanesOf f.km.val) (tyWide f.ty) f.d (movedValue f t (s.teamsOf t))) := by
  have hread (l : Nat) : lnExt f.ty (lowBits (tyWidth f.ty) (if !isNamed f t (s.teamsOf t) l then 0
      else if tyWide f.ty then t.getPair l (namedReg f t (s.teamsOf t) l)
      else (t.getV l (namedReg f t (s.teamsOf t) l)).setWidth 64)) = movedValue f t (s.teamsOf t) l := by
    rw [lnExt_lowBits, movedValue]
    cases isNamed f t (s.teamsOf t) l <;> simp [valueOf]
  have hnamed : ∀ l ∈ t.lanesOf f.km.val, (if isNamed f t (s.teamsOf t) l then
      (t.lpoison l (if tyWide f.ty then 2 else 1) (Reg.ofByte (BitVec.ofNat 8 (namedReg f t (s.teamsOf t) l)))).map
        fun p => t.poisonRec l p.1 p.2 else none) = none := fun l hl => by
    split
    next hi => rw [hq l hl hi, Option.map_none]
    next => rfl
  have hindex : ∀ l ∈ t.lanesOf f.km.val, t.lpoison l 1 f.b = none := fun l hl => by
    simpa [Team.firstPoison] using hp l hl
  unfold lnMovs
  rw [Act.go_bind_ok h.go_tm, Act.go_bind_ok (Act.go_get s)]
  dsimp only
  rw [List.filter_eq_self.mpr, Act.go_bind_ok (h.go_modTm _), List.filterMap_eq_nil_iff.mpr]
  · rw [Team.putLanes, ← funext hread]
    rfl
  · intro l hl
    rw [hindex l hl]
    exact hnamed l hl
  · intro l hl
    rw [hindex l hl]
    exact Option.isNone_iff_eq_none.mpr (hnamed l hl)

/-! ## Bit fields put in (R106) -/

theorem lnBfi_completes (h : AtIssue s i t) {f : TForm}
    (hp : Unpoisoned t f.km [useOf f.ty f.d, useOf f.ty f.a, (f.b, 1), (f.c, 1)]) :
    Completes (.lnBfi f) s i (t.putLanes (t.lanesOf f.km.val) (tyWide f.ty) f.d fun l =>
      inserted f.ty (t.lsrc (s.teamsOf t) l (tyWide f.ty) f.d) (t.lsrc (s.teamsOf t) l (tyWide f.ty) f.a)
        ((t.lsrc (s.teamsOf t) l false f.b).toNat % 2 ^ 32) ((t.lsrc (s.teamsOf t) l false f.c).toNat % 2 ^ 32)) := by
  refine h.completes_lnWords (uses := [useOf f.ty f.d, useOf f.ty f.a, (f.b, 1), (f.c, 1)]) rfl hp (funext fun l => ?_)
  show (if _ then _ else _) = _
  split
  next hk =>
    simp only [Bool.or_eq_true, decide_eq_true_eq] at hk
    exact (if_pos hk).symm
  next hk =>
    simp only [Bool.or_eq_true, decide_eq_true_eq, not_or, Nat.not_le] at hk
    obtain ⟨hcount, hplace⟩ := hk
    exact lnExt_bitInsert f.ty _ _ hcount hplace

end Sys2Proof.Machine
end

section
/-! PROOF. O14, from the rules about chains, comparisons, named registers and bit fields. -/

open Sys2Proof Sys2Proof.Machine Sys2Proof.Claims

namespace Sys2Proof.Claims

/-- Settles O14: a chain's sums and carries, a comparison's bits, a named register or 0, a field put over D. -/
theorem laneChainsAndMoves : Obligations.LaneChainsAndMoves := by
  intro f s i t h lanes n w
  refine ⟨fun hp => ⟨?chains, h.completes rfl (go_lnCmp h hp)⟩, fun hp hq => h.completes rfl (go_lnMovs h hp hq),
    fun hp => lnBfi_completes h hp⟩
  simp only [List.forall_mem_cons]
  exact ⟨h.completes rfl (go_lnCarry h hp false), h.completes rfl (go_lnCarry h hp true), by simp⟩

end Sys2Proof.Claims
end

section
/-! PROOF. The xl instructions that move values between lanes, where no register is poisoned (R108 to R110, R114). -/

open Sys2Proof Sys2Proof.Machine Sys2Proof.Claims

namespace Sys2Proof.Machine

variable {s : State} {i : Nat} {t : Team}

/-! ## No poison -/

/-- A team none of whose registers is poisoned. -/
def Team.Clean (t : Team) : Prop := t.vPoison = [] ∧ t.sPoison = []

theorem Team.Clean.lpoison (c : t.Clean) (l n : Nat) (r : Reg) : t.lpoison l n r = none := by
  obtain ⟨hv, hs⟩ := c
  cases r <;> simp [Team.lpoison, Team.poisonV, Team.poisonS, hv, hs, SMap.val, SMap.find]

theorem Team.Clean.firstPoison (c : t.Clean) (l : Nat) (uses : List (Reg × Nat)) : t.firstPoison l uses = none :=
  List.findSome?_eq_none_iff.mpr fun u _ => c.lpoison l u.2 u.1

/-! ## Shuffles (R109) -/

theorem go_xlMove (h : AtIssue s i t) (c : t.Clean) (km : Fin 16) (ty : Ty) (d a : Reg) (uses : List (Reg × Nat))
    (src : Team → Nat → Nat → Option Nat) :
    Act.go (xlMove km ty d a uses src) s = (.ok (), s.withTeam i fun _ => t.putLanes (t.lanesOf km.val) (tyWide ty) d fun l =>
      narrow ty (valueOf ty (t.lsrc (s.teamsOf t) ((src t (s.teamsOf t) l).getD l) (tyWide ty) a))) := by
  unfold xlMove
  rw [Act.go_bind_ok h.go_tm, Act.go_bind_ok (Act.go_get s)]
  simp only [c.firstPoison, c.lpoison, Option.map_none, Option.isNone_none, List.filter_true, List.filterMap_none]
  rw [Act.go_bind_ok (h.go_modTm _)]
  simp only [lnSrc, lnExt_lowBits]
  rfl

theorem shufLane_eq (t : Team) (x : Bool) (mod l b : Nat) : shufLane t x mod l b = shuffleFrom t.lanes x mod l b := by
  unfold shufLane shuffleFrom
  simp only [Bool.and_eq_true, decide_eq_true_eq]
  rfl

theorem xlShuffle_completes (h : AtIssue s i t) (c : t.Clean) {ins : Instr} {f : TForm} {x : Bool}
    (he : exec ins s = runCore (xlShuffle f x) s) :
    Completes ins s i (t.putLanes (t.lanesOf f.km.val) (tyWide f.ty) f.d fun l =>
      narrow f.ty (valueOf f.ty (t.lsrc (s.teamsOf t) ((shuffleFrom t.lanes x f.mod.toNat l
        ((t.lsrc (s.teamsOf t) l false f.b).toNat % 2 ^ 32)).getD l) (tyWide f.ty) f.a))) := by
  refine h.completes he ?_
  rw [xlShuffle, go_xlMove h c]
  simp only [shufLane_eq, lnSrc32, lowBits]

theorem xlShuffleImm_completes (h : AtIssue s i t) (c : t.Clean) {ins : Instr} {f : IForm} {x : Bool}
    (he : exec ins s = runCore (xlShuffleImm f x) s) :
    Completes ins s i (t.putLanes (t.lanesOf f.km.val) (tyWide f.ty) f.d fun l =>
      narrow f.ty (valueOf f.ty (t.lsrc (s.teamsOf t) ((shuffleFrom t.lanes x 0 l f.imm.toNat).getD l)
        (tyWide f.ty) f.a))) := by
  refine h.completes he ?_
  rw [xlShuffleImm, go_xlMove h c]
  simp only [shufLane_eq]

/-! ## Broadcasts (R110) -/

/-- What a broadcast of lane `j` delivers: 0 for a lane outside the team. -/
def broadcastOf (t : Team) (n : Nat) (ty : Ty) (a : Reg) (j : Nat) : Word :=
  if j < t.lanes then narrow ty (valueOf ty (t.lsrc n j (tyWide ty) a)) else 0

/-- A team after a broadcast: an S register takes it once, a V register in every active lane. -/
def Team.putBroadcast (t : Team) (km : Fin 16) (wide : Bool) (d : Reg) (x : Word) : Team :=
  match d with
  | .s _ => t.putScalar d x
  | d => t.putLanes (t.lanesOf km.val) wide d fun _ => x

theorem xlBroadcast_completes (h : AtIssue s i t) (c : t.Clean) {ins : Instr} {km : Fin 16} {ty : Ty} {d a : Reg}
    {uses : List (Reg × Nat)} {j : Team → Nat → Nat} (he : exec ins s = runCore (xlBroadcast km ty d a uses j) s) :
    Completes ins s i (t.putBroadcast km (tyWide ty) d (broadcastOf t (s.teamsOf t) ty a (j t (s.teamsOf t)))) := by
  refine h.completes he ?_
  unfold xlBroadcast broadcastOf Team.putBroadcast
  rw [Act.go_bind_ok h.go_tm, Act.go_bind_ok (Act.go_get s)]
  simp only [c.firstPoison, c.lpoison, lnSrc, lnExt_lowBits, ite_self]
  cases d
  case s n => exact go_swrite h (.s n) _
  all_goals exact h.go_modTm _

/-! ## Ballots (R114) -/

/-- The votes of the active lanes: those whose A is not zero. -/
def votesOf (t : Team) (f : TForm) : Mask :=
  maskOf ((t.lanesOf f.km.val).filter fun l => (t.lsrc 0 l false f.a).toNat % 2 ^ 32 != 0)

/-- A team after a ballot: a K register takes all votes, a scalar the 64 that MOD names. -/
def Team.putVotes (t : Team) (f : TForm) (votes : Mask) : Team :=
  match f.d with
  | .k _ => t.putMask f.d votes
  | d => t.putScalar d (votes.extractLsb' (64 * (f.mod.toNat % 16)) 64)

/-- The write that a ballot ends with. -/
def writeVotes (f : TForm) (votes : Mask) : Act Unit :=
  match f.d with
  | .k n => modTm fun t => t.setK n.val votes
  | d => swrite d (votes.extractLsb' (64 * (f.mod.toNat % 16)) 64)

theorem go_xlBallot (h : AtIssue s i t) (c : t.Clean) (f : TForm) :
    Act.go (xlBallot f) s = Act.go (writeVotes f (votesOf t f)) s := by
  unfold xlBallot
  rw [Act.go_bind_ok h.go_tm]
  simp only [c.lpoison, Option.map_none, List.filterMap_none]
  rfl

theorem xlBallot_completes (h : AtIssue s i t) (c : t.Clean) (f : TForm) :
    Completes (.xlBallot f) s i (t.putVotes f (votesOf t f)) := by
  have ha := go_xlBallot h c f
  unfold writeVotes at ha
  unfold Team.putVotes
  cases hd : f.d
  all_goals rw [hd] at ha
  case k n => exact h.completes rfl (ha.trans (h.go_modTm _))
  all_goals exact h.completes_swrite rfl ha

end Sys2Proof.Machine
end

section
/-! PROOF. O16, from the rules about shuffles, broadcasts and ballots. -/

open Sys2Proof Sys2Proof.Machine Sys2Proof.Claims

namespace Sys2Proof.Claims

/-- Settles O16: each clause is the rule of its instruction, for a team without poison. -/
theorem crossLaneMoves : Obligations.CrossLaneMoves := by
  intro f g s i t h hv hs n from_ at_
  have c : t.Clean := ⟨hv, hs⟩
  simp only [List.forall_mem_cons]
  exact ⟨⟨xlShuffle_completes h c rfl, xlShuffle_completes h c rfl, by simp⟩,
    ⟨xlShuffleImm_completes h c rfl, xlShuffleImm_completes h c rfl, by simp⟩,
    xlBroadcast_completes (uses := [(f.b, 1)]) (j := fun t n => lnSrc32 t n 0 f.b) h c rfl,
    xlBroadcast_completes (uses := []) (j := fun _ _ => g.imm.toNat) h c rfl, xlBallot_completes h c f⟩

end Sys2Proof.Claims
end

section
/-! PROOF. How results are delivered and how a fold of the lanes ends (R23, R24, R99, R111 to R113, R115). -/

open Sys2Proof Sys2Proof.Machine Sys2Proof.Claims

namespace Sys2Proof.Machine

variable {s : State} {i : Nat} {t : Team}

/-! ## Delivery (R24) -/

/-- Results of a team that was written just before are delivered from what was written. -/
theorem State.delivered_withTeam (s : State) (i : Nat) (u : Team) (la : BitVec 4) (rs : List Result) (fpf dcf : BitVec 5)
    (faults : List Rec) :
    (s.withTeam i fun _ => u).delivered i u la rs fpf dcf faults = s.delivered i u la rs fpf dcf faults := by
  unfold State.delivered
  simp only [State.withTeam_withTeam]
  rfl

/-- Results under a non-zero LA stay in flight, with the faults of their lanes. -/
theorem go_deliver_later (h : AtIssue s i t) {la : BitVec 4} (hla : la ≠ 0) (rs : List Result) (fpf dcf : BitVec 5)
    (faults : List Rec) :
    Act.go (deliverResults la rs fpf dcf faults) s = (.ok (), s.delivered i t la rs fpf dcf faults) := by
  unfold deliverResults State.delivered
  rw [if_neg hla, if_neg hla, Act.go_bind_ok (Act.go_fresh s)]
  exact AtIssue.go_modTm (s := { s with serial := s.serial + 1 }) h _

/-- Results without a fault. -/
theorem go_deliver (h : AtIssue s i t) (la : BitVec 4) (rs : List Result) (fpf dcf : BitVec 5) :
    Act.go (deliverResults la rs fpf dcf) s = (.ok (), s.delivered i t la rs fpf dcf) := by
  by_cases hla : la = 0
  · subst hla
    exact go_deliver_now h rs fpf dcf
  · exact go_deliver_later h hla rs fpf dcf []

/-- Faults under LA 0 are found once the results have landed. -/
theorem go_deliver_faults_now (h : AtIssue s i t) (rs : List Result) (fpf dcf : BitVec 5) {faults : List Rec} (hf : faults ≠ []) :
    Act.go (deliverResults 0 rs fpf dcf faults) s = (.error (.trap faults), s.delivered i t 0 rs fpf dcf faults) := by
  unfold deliverResults
  rw [if_pos rfl, Act.go_bind_ok (h.go_modTm _), finishLanes, if_neg (by simpa using hf)]
  rfl

/-- An instruction that ends with faults alone reports them. -/
theorem AtIssue.reports (h : AtIssue s i t) {ins : Instr} {act : Act Unit} {la : BitVec 4} {rs : List Rec} (hr : rs ≠ [])
    (he : exec ins s = runCore act s) (ha : Act.go act s = Act.go (deliverResults la [] 0 0 rs) s) :
    Reports ins s i t la rs := by
  unfold Reports
  dsimp only
  by_cases hla : la = 0
  · subst hla
    rw [he, if_pos rfl]
    exact runCore_trap h.1 h.2 (ha.trans (go_deliver_faults_now h [] 0 0 hr))
  · rw [he, if_neg hla]
    exact runCore_ok h.1 h.2 (ha.trans (go_deliver_later h hla [] 0 0 rs))

/-! ## The end of a fold (R99, R115) -/

variable {f : TForm} {ins : Instr} {act now : Act Unit} {steps : List (BitVec 5)} {rs : List Result}

/-- A poisoned operand is all that a fold reports (R99). -/
theorem AtIssue.fold_reports_poison (h : AtIssue s i t) (hp : foldPoison t f ≠ []) (he : exec ins s = runCore act s)
    (ha : Act.go act s = Act.go (endFold t f steps now rs) s) : Reports ins s i t f.la (foldPoison t f) := by
  refine h.reports hp he (ha.trans ?_)
  have hfaults : foldFaults t f steps = foldPoison t f := by simp [foldFaults, hp]
  rw [endFold, hfaults, if_neg (by simpa using hp)]

/-- Without poison a fold writes its destination and raises its flags, unless a step raised an enabled exception. -/
theorem AtIssue.foldEnds (h : AtIssue s i t) (hp : foldPoison t f = []) {s' : State} (he : exec ins s = runCore act s)
    (ha : Act.go act s = Act.go (endFold t f steps now rs) s)
    (hs : Act.go (now >>= fun _ => deliverResults f.la rs (raised steps) 0) s = (.ok (), s')) :
    FoldEnds ins s i t f steps s' := by
  unfold FoldEnds
  by_cases hon : raised steps &&& t.enables false = 0
  · have hfaults : foldFaults t f steps = [] := by
      unfold foldFaults
      simp only [hp]
      exact if_pos hon
    rw [if_pos hon, CompletesAs, he]
    refine runCore_ok h.1 h.2 (ha.trans ?_)
    rw [endFold, hfaults]
    exact hs
  · have hfaults : foldFaults t f steps =
        [{ t.laneRec (1 + steps.findIdx fun e => e &&& t.enables false != 0) (lowestCause (raised steps &&& t.enables false))
            (raised steps).toNat with lane := 1 + steps.findIdx fun e => e &&& t.enables false != 0 }] := by
      unfold foldFaults
      simp only [hp]
      exact if_neg hon
    rw [if_neg hon]
    refine h.reports (by simp) he (ha.trans ?_)
    rw [endFold, hfaults]
    rfl

/-! ## xl.red and xl.scan (R111, R113) -/

variable {c : Nat} {cs : List Nat}

/-- The write of a fold that does not wait for LA: that of an S register. -/
def scalarNow (d : Reg) (x : Word) : Act Unit :=
  match d with
  | .s _ => swrite d x
  | _ => pure ()

theorem go_xlRed (h : AtIssue s i t) (hn : t.foldsNothing f = false) (hc : contributions t (s.teamsOf t) f = c :: cs) :
    let steps := foldFrom (foldStep t f.ty f.mod.toNat) c cs
    let acc := lnExt f.ty ((steps.getLast?.map (·.1)).getD (foldValue t f.ty c))
    Act.go (xlRed f) s = Act.go (endFold t f (steps.map (·.2)) (scalarNow f.d acc)
      ((t.lanesOf f.km.val).flatMap fun l => resultsAt l (tyWide f.ty) f.d acc)) s := by
  intro steps acc
  unfold xlRed
  rw [Act.go_bind_ok h.go_tm]
  simp only [hn]
  show Act.go (get >>= _) s = _
  rw [Act.go_bind_ok (Act.go_get s)]
  simp only [hc]
  rfl

/-- One value for all lanes goes to an S register at once, to a V register when the instruction completes. -/
theorem go_fold_value (h : AtIssue s i t) (x : Word) (fl : BitVec 5) :
    Act.go (scalarNow f.d x >>= fun _ => deliverResults f.la
      ((t.lanesOf f.km.val).flatMap fun l => resultsAt l (tyWide f.ty) f.d x) fl 0) s =
        (.ok (), folded s i t f (fun _ => x) fl) := by
  unfold folded
  cases f.d
  case s n =>
    rw [Act.go_bind_ok (show Act.go (scalarNow (.s n) x) s = _ from go_swrite h (.s n) x)]
    have hnone : ((t.lanesOf f.km.val).flatMap fun l => resultsAt l (tyWide f.ty) (.s n) x) = [] :=
      List.flatMap_eq_nil_iff.mpr fun _ _ => rfl
    rw [hnone, go_deliver (h.withTeam _), State.delivered_withTeam]
  all_goals exact go_deliver h f.la _ fl 0

theorem xlRed_ends (h : AtIssue s i t) (hp : foldPoison t f = []) (hn : t.foldsNothing f = false)
    (hc : contributions t (s.teamsOf t) f = c :: cs) :
    let steps := foldFrom (foldStep t f.ty f.mod.toNat) c cs
    FoldEnds (.xlRed f) s i t f (steps.map (·.2)) (folded s i t f
      (fun _ => lnExt f.ty ((steps.getLast?.map (·.1)).getD (foldValue t f.ty c))) (raised (steps.map (·.2)))) :=
  h.foldEnds hp rfl (go_xlRed h hn hc) (go_fold_value h _ _)

/-- What xl.scan gives in a lane: the fold up to it, under `excl` up to the lane before (R113). -/
def scanValue (t : Team) (n : Nat) (f : TForm) (c : Nat) (cs : List Nat) (l : Nat) : Nat :=
  let run := foldValue t f.ty c :: (foldFrom (foldStep t f.ty (f.mod.toNat % 8)) c cs).map (·.1)
  if f.mod.getLsbD 3 then (if l = 0 then foldValue t f.ty (lnSrc f.ty t n 0 f.b) else run.getD (l - 1) 0) else run.getD l 0

theorem go_xlScan (h : AtIssue s i t) (hn : t.foldsNothing f = false) (hc : contributions t (s.teamsOf t) f = c :: cs) :
    Act.go (xlScan f) s = Act.go (endFold t f ((foldFrom (foldStep t f.ty (f.mod.toNat % 8)) c cs).map (·.2)) (pure ())
      ((t.lanesOf f.km.val).flatMap fun l =>
        resultsAt l (tyWide f.ty) f.d (lnExt f.ty (scanValue t (s.teamsOf t) f c cs l)))) s := by
  unfold xlScan
  rw [Act.go_bind_ok h.go_tm]
  simp only [hn]
  show Act.go (get >>= _) s = _
  rw [Act.go_bind_ok (Act.go_get s)]
  simp only [hc]
  rfl

theorem xlScan_ends (h : AtIssue s i t) (hp : foldPoison t f = []) (hn : t.foldsNothing f = false)
    (hc : contributions t (s.teamsOf t) f = c :: cs) (hd : ∀ k, f.d ≠ .s k) :
    let steps := foldFrom (foldStep t f.ty (f.mod.toNat % 8)) c cs
    FoldEnds (.xlScan f) s i t f (steps.map (·.2)) (folded s i t f
      (fun l => lnExt f.ty (scanValue t (s.teamsOf t) f c cs l)) (raised (steps.map (·.2)))) := by
  refine h.foldEnds hp rfl (go_xlScan h hn hc) ?_
  unfold folded
  cases hk : f.d
  case s n => exact absurd hk (hd n)
  all_goals exact go_deliver h f.la _ _ 0

/-! ## xl.redi (R112) -/

/-- What a lane brings to xl.redi: its value with its number, or the identity's two halves. -/
def indexed (t : Team) (n : Nat) (f : TForm) (l : Nat) : Nat × Nat :=
  if (t.active f.km.val).getLsbD l then (lnSrc f.ty t n l f.a, l)
  else (lowBits (tyWidth f.ty) (t.lsrc n 0 true f.b), lowBits 32 (t.lsrc n 0 true f.b))

/-- One step of xl.redi: the better of two, with the exceptions of the comparison. -/
def keepBetter (t : Team) (f : TForm) (v x : Nat × Nat) : (Nat × Nat) × BitVec 5 :=
  let b := better t f.ty (f.mod == 2) x.1 v.1
  (if b.1 then x else v, b.2)

/-- The steps of xl.redi, those of lanes 1 on. -/
def rediSteps (t : Team) (n : Nat) (f : TForm) : List ((Nat × Nat) × BitVec 5) :=
  foldFrom (keepBetter t f) (indexed t n f 0) (((List.range t.lanes).drop 1).map (indexed t n f))

/-- The value that xl.redi keeps, with its number. -/
def rediBest (t : Team) (n : Nat) (f : TForm) : Nat × Nat := ((rediSteps t n f).getLast?.map (·.1)).getD (indexed t n f 0)

/-- The write of a value and its number into S registers: one each, or both in one. -/
def pairNow (f : TForm) (x : Word) (number : Nat) : Act Unit :=
  match f.d with
  | .s _ =>
    if tyWide f.ty then do
      swrite f.d x
      swriteAt f.d 1 (BitVec.ofNat 64 number)
    else swrite f.d (BitVec.ofNat 64 (number * 2 ^ 32 + lowBits 32 x))
  | _ => pure ()

/-- Their results in V registers, the number behind the value. -/
def pairResults (t : Team) (f : TForm) (x : Word) (number : Nat) : List Result :=
  match f.d with
  | .v n => (t.lanesOf f.km.val).flatMap fun l =>
    resultsAt l (tyWide f.ty) f.d x ++ [⟨.v l (n.val + if tyWide f.ty then 2 else 1), BitVec.ofNat 64 number, 0⟩]
  | _ => []

/-- A state after a value and its number have gone to D (R112). -/
def foldedPair (s : State) (i : Nat) (t : Team) (f : TForm) (x : Word) (number : Nat) (fl : BitVec 5) : State :=
  match f.d with
  | .s k =>
    let u := if tyWide f.ty then (t.putScalar f.d x).setS (k.val + 1) (BitVec.ofNat 64 number)
      else t.putScalar f.d (BitVec.ofNat 64 (number * 2 ^ 32 + x.toNat % 2 ^ 32))
    s.delivered i u f.la [] fl 0
  | .v k =>
    s.delivered i t f.la ((t.lanesOf f.km.val).flatMap fun l =>
      resultsAt l (tyWide f.ty) f.d x ++ [⟨.v l (k.val + if tyWide f.ty then 2 else 1), BitVec.ofNat 64 number, 0⟩]) fl 0
  | _ => s.delivered i t f.la [] fl 0

theorem go_xlRedi (h : AtIssue s i t) (hn : t.foldsNothing f = false) (hl : 0 < t.lanes) :
    let best := rediBest t (s.teamsOf t) f
    let x := lnExt f.ty (foldValue t f.ty best.1)
    Act.go (xlRedi f) s = Act.go (endFold t f ((rediSteps t (s.teamsOf t) f).map (·.2)) (pairNow f x best.2)
      (pairResults t f x best.2)) s := by
  have hlist : (List.range t.lanes).map (indexed t (s.teamsOf t) f) =
      indexed t (s.teamsOf t) f 0 :: ((List.range t.lanes).drop 1).map (indexed t (s.teamsOf t) f) := by
    obtain ⟨m, hm⟩ := Nat.exists_eq_succ_of_ne_zero (Nat.ne_of_gt hl)
    rw [hm, List.range_succ_eq_map]
    rfl
  intro best x
  unfold indexed at hlist
  unfold xlRedi
  rw [Act.go_bind_ok h.go_tm]
  simp only [hn]
  show Act.go (get >>= _) s = _
  rw [Act.go_bind_ok (Act.go_get s)]
  simp only [hlist]
  rfl

theorem go_pair (h : AtIssue s i t) (x : Word) (number : Nat) (fl : BitVec 5) :
    Act.go (pairNow f x number >>= fun _ => deliverResults f.la (pairResults t f x number) fl 0) s =
      (.ok (), foldedPair s i t f x number fl) := by
  unfold foldedPair pairNow pairResults
  cases f.d
  case s n =>
    dsimp only
    cases tyWide f.ty
    case false =>
      rw [if_neg (by simp), if_neg (by simp), Act.go_bind_ok (go_swrite h (.s n) _), go_deliver (h.withTeam _),
        State.delivered_withTeam]
      rfl
    case true =>
      rw [if_pos rfl, if_pos rfl]
      have hpair : Act.go (swrite (.s n) x >>= fun _ => swriteAt (.s n) 1 (BitVec.ofNat 64 number)) s =
          (.ok (), s.withTeam i fun _ => (t.putScalar (.s n) x).setS (n.val + 1) (BitVec.ofNat 64 number)) := by
        rw [Act.go_bind_ok (go_swrite h (.s n) x)]
        refine ((h.withTeam _).go_modTm _).trans ?_
        rw [State.withTeam_withTeam]
      rw [Act.go_bind_ok hpair, go_deliver (h.withTeam _), State.delivered_withTeam]
  all_goals exact go_deliver h f.la _ fl 0

theorem xlRedi_ends (h : AtIssue s i t) (hp : foldPoison t f = []) (hn : t.foldsNothing f = false) (hl : 0 < t.lanes) :
    let steps := rediSteps t (s.teamsOf t) f
    let best := rediBest t (s.teamsOf t) f
    FoldEnds (.xlRedi f) s i t f (steps.map (·.2)) (foldedPair s i t f (lnExt f.ty (foldValue t f.ty best.1)) best.2
      (raised (steps.map (·.2)))) :=
  h.foldEnds hp rfl (go_xlRedi h hn hl) (go_pair h _ _ _)

/-! ## Poison (R99) -/

theorem contributions_ne_nil (n : Nat) (hl : 0 < t.lanes) : contributions t n f ≠ [] := by
  simp [contributions, Nat.ne_of_gt hl]

/-- Each of the folds reports poison, and that alone. -/
theorem folds_report_poison (h : AtIssue s i t) (hn : t.foldsNothing f = false) (hl : 0 < t.lanes) (hp : foldPoison t f ≠ []) :
    ∀ ins ∈ [(.xlRed : TForm → Instr), .xlRedi, .xlScan], Reports (ins f) s i t f.la (foldPoison t f) := by
  obtain ⟨c, cs, hc⟩ := List.exists_cons_of_ne_nil (contributions_ne_nil (f := f) (s.teamsOf t) hl)
  simp only [List.forall_mem_cons]
  exact ⟨h.fold_reports_poison hp rfl (go_xlRed h hn hc), h.fold_reports_poison hp rfl (go_xlRedi h hn hl),
    h.fold_reports_poison hp rfl (go_xlScan h hn hc), by simp⟩

theorem lanes_pos_of_contributions {n : Nat} (hc : contributions t n f = c :: cs) : 0 < t.lanes := by
  refine Nat.pos_of_ne_zero fun h0 => ?_
  simp [contributions, h0] at hc

/-- Where nothing is to be folded each of the folds completes without an effect. -/
theorem folds_complete (h : AtIssue s i t) (hn : t.foldsNothing f = true) :
    ∀ ins ∈ [(.xlRed : TForm → Instr), .xlRedi, .xlScan], Completes (ins f) s i t := by
  simp only [List.forall_mem_cons]
  refine ⟨h.completes_self (act := xlRed f) rfl ?_, h.completes_self (act := xlRedi f) rfl ?_,
    h.completes_self (act := xlScan f) rfl ?_, by simp⟩
  · unfold xlRed
    rw [Act.go_bind_ok h.go_tm, if_pos hn, Act.go_pure]
  · unfold xlRedi
    rw [Act.go_bind_ok h.go_tm, if_pos hn, Act.go_pure]
  · unfold xlScan
    rw [Act.go_bind_ok h.go_tm, if_pos hn, Act.go_pure]

end Sys2Proof.Machine
end

section
/-! PROOF. O17, from the rules about the three folds. -/

open Sys2Proof Sys2Proof.Machine Sys2Proof.Claims

namespace Sys2Proof.Claims

/-- Settles O17: nothing to fold, poison alone, then each instruction's result or the record of its steps. -/
theorem crossLaneFolds : Obligations.CrossLaneFolds :=
  ⟨fun _ _ _ _ h hn => folds_complete h hn, fun _ _ _ _ h hn hl hp => folds_report_poison h hn hl hp,
    fun _ _ _ _ _ _ h hp hn hc => ⟨xlRed_ends h hp hn hc, fun hd => xlScan_ends h hp hn hc hd,
      xlRedi_ends h hp hn (lanes_pos_of_contributions hc)⟩⟩

end Sys2Proof.Claims
end

section
/-! PROOF. Integer folds as operations over all contributions (R108, R111, R139). -/

open Sys2Proof Sys2Proof.Machine Sys2Proof.Claims

namespace Sys2Proof.Machine

variable {t : Team}

/-! ## Steps that raise nothing -/

/-- The operation of an integer fold on numbers of the type's width (R111). -/
def intOp (op : Nat) : Ty → Nat → Nat → Nat :=
  match op with
  | 0 => iAdd
  | 1 => iMin
  | 2 => iMax
  | 3 => iAnd
  | 4 => iOr
  | _ => iXor

theorem floatOf_integer {ty : Ty} (h : ty.code < 8) : floatOf ty = none := by
  revert h
  cases ty <;> decide

theorem foldStep_integer {ty : Ty} (h : ty.code < 8) (op : Nat) : foldStep t ty op = fun a b => (intOp op ty a b, 0) := by
  funext a b
  unfold foldStep
  rw [floatOf_integer h]
  rfl

theorem foldValue_integer {ty : Ty} (h : ty.code < 8) (v : Nat) : foldValue t ty v = v := by
  rw [foldValue, floatOf_integer h]

theorem raised_foldFrom_quiet {α : Type} (g : α → α → α) (c : α) (cs : List α) :
    raised ((foldFrom (fun a b => (g a b, 0)) c cs).map (·.2)) = 0 := by
  induction cs generalizing c with
  | nil => rfl
  | cons x xs ih => simpa [foldFrom, raised] using ih (g c x)

theorem last_foldFrom_quiet {α : Type} (g : α → α → α) (c : α) (cs : List α) :
    ((foldFrom (fun a b => (g a b, (0 : BitVec 5))) c cs).getLast?.map (·.1)).getD c = cs.foldl g c := by
  induction cs generalizing c with
  | nil => rfl
  | cons x xs ih =>
    rw [List.foldl_cons, ← ih, foldFrom, List.getLast?_cons]
    cases (foldFrom (fun a b => (g a b, (0 : BitVec 5))) (g c x) xs).getLast? <;> rfl

/-! ## Contributions -/

theorem contributions_eq (t : Team) (n : Nat) (f : TForm) :
    contributions t n f = (contributed t n f).map (lowBits (tyWidth f.ty)) := by
  unfold contributions contributed
  rw [List.map_map]
  refine List.map_congr_left fun l _ => ?_
  simp only [Function.comp_apply]
  split <;> rfl

/-! ## Operations -/

theorem narrow_valueOf (ty : Ty) (x : Word) : narrow ty (valueOf ty x) = narrow ty x.toNat :=
  narrow_congr ty (by rw [ofInt_valueOf, BitVec.ofInt_natCast])

theorem lnExt_eq_narrow_readAs (ty : Ty) (n : Nat) : lnExt ty n = narrow ty (readAs ty n) := by
  unfold readAs
  split
  · exact extendTo_of ty (by rw [toSigned, BitVec.ofInt_toInt])
  · exact lnExt_eq_narrow ty n

theorem ofNat_foldl_iAdd (ty : Ty) (xs : List Word) {n : Nat} {z : Int}
    (h : BitVec.ofNat (tyWidth ty) n = BitVec.ofInt (tyWidth ty) z) :
    BitVec.ofNat (tyWidth ty) (xs.foldl (fun n y => iAdd ty n (lowBits (tyWidth ty) y)) n) =
      BitVec.ofInt (tyWidth ty) (z + (xs.map (valueOf ty)).sum) := by
  induction xs generalizing n z with
  | nil => simpa using h
  | cons y ys ih =>
    have hstep : BitVec.ofNat (tyWidth ty) (iAdd ty n (lowBits (tyWidth ty) y)) =
        BitVec.ofInt (tyWidth ty) (z + valueOf ty y) := by
      rw [BitVec.ofInt_add, ← h, ofInt_valueOf]
      apply BitVec.eq_of_toNat_eq
      simp [iAdd, lowBits]
    rw [List.foldl_cons, ih hstep, List.map_cons, List.sum_cons, Int.add_assoc]

theorem lnExt_foldl_iAdd (ty : Ty) (x : Word) (xs : List Word) :
    lnExt ty (xs.foldl (fun n y => iAdd ty n (lowBits (tyWidth ty) y)) (lowBits (tyWidth ty) x)) =
      narrow ty ((x :: xs).map (valueOf ty)).sum :=
  extendTo_of ty (ofNat_foldl_iAdd ty xs (by rw [ofNat_lowBits, ofInt_valueOf]))

theorem readAs_iMin (ty : Ty) (a b : Nat) : readAs ty (iMin ty a b) = min (readAs ty a) (readAs ty b) := by
  unfold iMin
  split
  · exact (Int.min_eq_right (by omega)).symm
  · exact (Int.min_eq_left (by omega)).symm

theorem readAs_iMax (ty : Ty) (a b : Nat) : readAs ty (iMax ty a b) = max (readAs ty a) (readAs ty b) := by
  unfold iMax
  split
  · exact (Int.max_eq_right (by omega)).symm
  · exact (Int.max_eq_left (by omega)).symm

/-- An operation that a type's reading carries over to integers is that operation on all values. -/
theorem lnExt_foldl_reading (ty : Ty) {g : Nat → Nat → Nat} {op : Int → Int → Int}
    (h : ∀ a b, readAs ty (g a b) = op (readAs ty a) (readAs ty b)) (x : Word) (xs : List Word) :
    lnExt ty (xs.foldl (fun n y => g n (lowBits (tyWidth ty) y)) (lowBits (tyWidth ty) x)) =
      narrow ty (foldAll op 0 ((x :: xs).map (valueOf ty))) := by
  rw [lnExt_eq_narrow_readAs, List.map_cons, foldAll, List.foldl_map, ← readAs_lowBits]
  exact congrArg (narrow ty) (List.foldl_hom (readAs ty) fun a y => by rw [h, readAs_lowBits]).symm

/-- An operation that the low bits carry over from words is that operation on all words. -/
theorem lnExt_foldl_bits (ty : Ty) {g : Nat → Nat → Nat} {op : Word → Word → Word}
    (h : ∀ a b, g (lowBits (tyWidth ty) a) (lowBits (tyWidth ty) b) = lowBits (tyWidth ty) (op a b)) (x : Word) (xs : List Word) :
    lnExt ty (xs.foldl (fun n y => g n (lowBits (tyWidth ty) y)) (lowBits (tyWidth ty) x)) =
      narrow ty (foldAll op 0 (x :: xs)).toNat := by
  rw [List.foldl_hom (lowBits (tyWidth ty)) h, lnExt_lowBits, narrow_valueOf]
  rfl

theorem iAnd_lowBits (ty : Ty) (a b : Word) :
    iAnd ty (lowBits (tyWidth ty) a) (lowBits (tyWidth ty) b) = lowBits (tyWidth ty) (a &&& b) :=
  (Nat.and_mod_two_pow ..).symm

theorem iOr_lowBits (ty : Ty) (a b : Word) :
    iOr ty (lowBits (tyWidth ty) a) (lowBits (tyWidth ty) b) = lowBits (tyWidth ty) (a ||| b) :=
  (Nat.or_mod_two_pow ..).symm

theorem iXor_lowBits (ty : Ty) (a b : Word) :
    iXor ty (lowBits (tyWidth ty) a) (lowBits (tyWidth ty) b) = lowBits (tyWidth ty) (a ^^^ b) :=
  (Nat.xor_mod_two_pow ..).symm

/-- A fold of the low bits of words is the operation over all the words. -/
theorem lnExt_foldl_intOp (ty : Ty) (op : Nat) (x : Word) (xs : List Word) :
    lnExt ty ((xs.map (lowBits (tyWidth ty))).foldl (intOp op ty) (lowBits (tyWidth ty) x)) = foldInts ty op (x :: xs) := by
  rw [List.foldl_map]
  match op with
  | 0 => exact lnExt_foldl_iAdd ty x xs
  | 1 => exact lnExt_foldl_reading ty (readAs_iMin ty) x xs
  | 2 => exact lnExt_foldl_reading ty (readAs_iMax ty) x xs
  | 3 => exact lnExt_foldl_bits ty (iAnd_lowBits ty) x xs
  | 4 => exact lnExt_foldl_bits ty (iOr_lowBits ty) x xs
  | m + 5 => exact lnExt_foldl_bits ty (iXor_lowBits ty) x xs

end Sys2Proof.Machine
end

section
/-! PROOF. O18, from the rules about the steps and the operations of integer folds. -/

open Sys2Proof Sys2Proof.Machine Sys2Proof.Claims

namespace Sys2Proof.Claims

/-- An integer fold raises nothing and gives the operation over all contributions. -/
theorem xlRed_integer {f : TForm} {s : State} {i : Nat} {t : Team} (h : AtIssue s i t) (hp : foldPoison t f = [])
    (hty : f.ty.code < 8) (hl : t.lanes ≠ 0) (hn : t.foldsNothing f = false) :
    CompletesAs (.xlRed f) s i
      (folded s i t f (fun _ => foldInts f.ty f.mod.toNat (contributed t (s.teamsOf t) f)) 0) := by
  obtain ⟨c, cs, hc⟩ := List.exists_cons_of_ne_nil (contributions_ne_nil (f := f) (s.teamsOf t) (Nat.pos_of_ne_zero hl))
  obtain ⟨x, xs, hx, rfl, rfl⟩ := List.map_eq_cons_iff.mp ((contributions_eq t (s.teamsOf t) f).symm.trans hc)
  have hend := xlRed_ends h hp hn hc
  simp only [foldStep_integer hty, foldValue_integer hty, raised_foldFrom_quiet, last_foldFrom_quiet, lnExt_foldl_intOp] at hend
  rw [FoldEnds, raised_foldFrom_quiet, if_pos (by simp)] at hend
  rw [hx]
  exact hend

/-- Settles O18: without steps that raise anything, a fold of low bits is the operation over the words. -/
theorem integerFolds : Obligations.IntegerFolds := by
  intro f s i t h hp hty hl _
  cases hn : t.foldsNothing f
  case true => exact folds_complete h hn _ (by simp)
  case false => exact xlRed_integer h hp hty hl hn

end Sys2Proof.Claims
end

section
/-! PROOF. Lanes that trap singly: what the others deliver, and the records of those that trap (R24, R135, R142). -/

open Sys2Proof Sys2Proof.Machine Sys2Proof.Claims

namespace Sys2Proof.Machine

variable {s : State} {i : Nat} {t : Team}

/-! ## What a lane comes to (R142) -/

/-- The results of a lane that does not trap. -/
def LaneOut.results : LaneOut → List Result
  | .done rs _ => rs
  | .trap _ => []

/-- Its exceptions, which become flags. -/
def LaneOut.flags : LaneOut → BitVec 5
  | .done _ fl => fl
  | .trap _ => 0

/-- The record of a lane that traps. -/
def LaneOut.record? : LaneOut → Option Rec
  | .done _ _ => none
  | .trap r => some r

/-- The record of a lane that raised some exceptions: the lowest enabled one, all of them in the detail (R135). -/
def Team.exceptionRec (t : Team) (dec : Bool) (l : Nat) (fl : BitVec 5) : Rec :=
  { t.laneRec l (lowestCause (fl &&& t.enables dec)) fl.toNat with decimal := dec }

theorem laneOut_eq (t : Team) (l : Nat) (dec : Bool) (rs : List Result) (fl : BitVec 5) :
    laneOut t l dec rs fl = if fl &&& t.enables dec = 0 then .done rs fl else .trap (t.exceptionRec dec l fl) := rfl

@[simp] theorem laneOut_results (t : Team) (l : Nat) (dec : Bool) (rs : List Result) (fl : BitVec 5) :
    (laneOut t l dec rs fl).results = if fl &&& t.enables dec = 0 then rs else [] := by
  rw [laneOut_eq]
  split <;> rfl

@[simp] theorem laneOut_flags (t : Team) (l : Nat) (dec : Bool) (rs : List Result) (fl : BitVec 5) :
    (laneOut t l dec rs fl).flags = if fl &&& t.enables dec = 0 then fl else 0 := by
  rw [laneOut_eq]
  split <;> rfl

@[simp] theorem laneOut_record? (t : Team) (l : Nat) (dec : Bool) (rs : List Result) (fl : BitVec 5) :
    (laneOut t l dec rs fl).record? = if fl &&& t.enables dec = 0 then none else some (t.exceptionRec dec l fl) := by
  rw [laneOut_eq]
  split <;> rfl

/-! ## The lanes of an instruction together (R135) -/

/-- The active lanes that raise no enabled exception. -/
def quietLanes (t : Team) (teams : Nat) (km : Fin 16) (dec : Bool) (g : Team → Nat → Nat → List Result × BitVec 5) : List Nat :=
  (t.lanesOf km.val).filter fun l => (g t teams l).2 &&& t.enables dec = 0

/-- The active lanes that raise one. -/
def trapLanes (t : Team) (teams : Nat) (km : Fin 16) (dec : Bool) (g : Team → Nat → Nat → List Result × BitVec 5) : List Nat :=
  (t.lanesOf km.val).filter fun l => (g t teams l).2 &&& t.enables dec ≠ 0

/-- Their records, in ascending order of the lanes. -/
def trapRecs (t : Team) (teams : Nat) (km : Fin 16) (dec : Bool) (g : Team → Nat → Nat → List Result × BitVec 5) : List Rec :=
  (trapLanes t teams km dec g).map fun l => t.exceptionRec dec l (g t teams l).2

theorem settleLanes_eq (la : BitVec 4) (dec : Bool) (outs : List LaneOut) :
    settleLanes la dec outs =
      deliverResults la (outs.flatMap LaneOut.results) (if dec then 0 else raised (outs.map LaneOut.flags))
        (if dec then raised (outs.map LaneOut.flags) else 0) (outs.filterMap LaneOut.record?) := by
  have hresults : LaneOut.results = fun o => match o with | .done rs _ => rs | .trap _ => [] := by
    funext o
    cases o <;> rfl
  have hrecs : LaneOut.record? = fun o => match o with | .trap r => some r | _ => none := by
    funext o
    cases o <;> rfl
  have hflags : raised (outs.map LaneOut.flags) =
      outs.foldl (fun a o => match o with | .done _ f => a ||| f | .trap _ => a) 0 := by
    rw [raised, List.foldl_map]
    congr 1
    funext a o
    cases o <;> simp [LaneOut.flags]
  rw [hresults, hrecs, hflags]
  rfl

theorem flatMap_ite_nil {α β : Type} (p : α → Bool) (g : α → List β) (xs : List α) :
    (xs.flatMap fun x => if p x then g x else []) = (xs.filter p).flatMap g := by
  induction xs with
  | nil => rfl
  | cons x xs ih => cases hx : p x <;> simp [hx, ih]

theorem raised_ite_zero {α : Type} (p : α → Bool) (g : α → BitVec 5) (xs : List α) :
    raised (xs.map fun x => if p x then g x else 0) = raised ((xs.filter p).map g) := by
  rw [raised, raised, List.foldl_map, List.foldl_map, List.foldl_filter]
  congr 1
  funext a x
  cases p x <;> simp

theorem filterMap_ite_some {α β : Type} (p : α → Bool) (g : α → β) (xs : List α) :
    (xs.filterMap fun x => if p x then some (g x) else none) = (xs.filter p).map g := by
  rw [← List.filterMap_filter (f := fun x => some (g x)), List.filterMap_eq_map']

/-- The quiet lanes settle with their results and flags, the others with their records. -/
theorem settleLanes_laneOut (t : Team) (teams : Nat) (km : Fin 16) (la : BitVec 4) (dec : Bool)
    (g : Team → Nat → Nat → List Result × BitVec 5) :
    let quiet := quietLanes t teams km dec g
    let fl := raised (quiet.map fun l => (g t teams l).2)
    settleLanes la dec ((t.lanesOf km.val).map fun l => laneOut t l dec (g t teams l).1 (g t teams l).2) =
      deliverResults la (quiet.flatMap fun l => (g t teams l).1) (if dec then 0 else fl) (if dec then fl else 0)
        (trapRecs t teams km dec g) := by
  intro quiet fl
  have hresults := flatMap_ite_nil (fun l => (g t teams l).2 &&& t.enables dec = 0) (fun l => (g t teams l).1) (t.lanesOf km.val)
  have hflags := raised_ite_zero (fun l => (g t teams l).2 &&& t.enables dec = 0) (fun l => (g t teams l).2) (t.lanesOf km.val)
  have hrecs := filterMap_ite_some (fun l => (g t teams l).2 &&& t.enables dec ≠ 0)
    (fun l => t.exceptionRec dec l (g t teams l).2) (t.lanesOf km.val)
  simp only [decide_eq_true_eq, ite_not] at hresults hflags hrecs
  simp only [settleLanes_eq, List.flatMap_map, List.map_map, List.filterMap_map, Function.comp_def, laneOut_results,
    laneOut_flags, laneOut_record?]
  rw [hresults, hflags, hrecs]
  rfl

/-- Without poison an instruction of the lanes delivers what the quiet ones give, and the others' records. -/
theorem go_runLanes_settled (h : AtIssue s i t) {f : TForm} {dec : Bool} {uses : List (Reg × Nat)}
    {g : Team → Nat → Nat → List Result × BitVec 5} (hp : Unpoisoned t f.km uses) :
    let n := s.teamsOf t
    let quiet := quietLanes t n f.km dec g
    let fl := raised (quiet.map fun l => (g t n l).2)
    Act.go (runLanes f dec uses g) s =
      Act.go (deliverResults f.la (quiet.flatMap fun l => (g t n l).1) (if dec then 0 else fl) (if dec then fl else 0)
        (trapRecs t n f.km dec g)) s := by
  intro n quiet fl
  unfold runLanes
  rw [Act.go_bind_ok h.go_tm, Act.go_bind_ok (Act.go_get s), ← settleLanes_laneOut]
  refine congrArg (fun o => Act.go (settleLanes f.la dec o) s) (List.map_congr_left fun l hl => ?_)
  simp [hp l hl, n]

/-- An instruction that delivers with faults traps with them at once, or under a non-zero LA retires and leaves them
in flight with its results (R24). -/
theorem AtIssue.delivers_faults (h : AtIssue s i t) {ins : Instr} {act : Act Unit} {la : BitVec 4} {rs : List Result}
    {fpf dcf : BitVec 5} {faults : List Rec} (hf : faults ≠ []) (he : exec ins s = runCore act s)
    (ha : Act.go act s = Act.go (deliverResults la rs fpf dcf faults) s) :
    let s' := s.delivered i t la rs fpf dcf faults
    exec ins s = .next (if la = 0 then s'.trapInstr i faults else s'.retire i) := by
  dsimp only
  by_cases hla : la = 0
  · subst hla
    rw [he, if_pos rfl]
    exact runCore_trap h.1 h.2 (ha.trans (go_deliver_faults_now h rs fpf dcf hf))
  · rw [he, if_neg hla]
    exact runCore_ok h.1 h.2 (ha.trans (go_deliver_later h hla rs fpf dcf faults))

end Sys2Proof.Machine
end

section
/-! PROOF. The fp and dc rows as instructions of the lanes: each row says what its lanes come to (R142). -/

open Sys2Proof Sys2Proof.Machine Sys2Proof.Claims

namespace Sys2Proof.Claims

/-- A row's instruction runs the row's lanes. -/
def FloatRow.Runs (p : FloatRow) : Prop :=
  ∀ (f : TForm) (s : State), exec (p.ins f) s = runCore (runLanes f p.dec (p.uses f) (p.out f)) s

/-- The magnitude bits of a source at its width are those of the register (R146). -/
theorem lnSrc_mod_sign (ty : Ty) (t : Team) (n l : Nat) (r : Reg) :
    lnSrc ty t n l r % 2 ^ (tyWidth ty - 1) = (t.lsrc n l (tyWide ty) r).toNat % 2 ^ (tyWidth ty - 1) :=
  Nat.mod_mod_of_dvd _ (Nat.pow_dvd_pow 2 (Nat.sub_le _ 1))

/-- A source at its width with the sign bit turned over (R146). -/
theorem xor_sign_lnSrc (ty : Ty) (t : Team) (n l : Nat) (r : Reg) :
    Nat.xor (2 ^ (tyWidth ty - 1)) (lnSrc ty t n l r) =
      ((t.lsrc n l (tyWide ty) r).toNat % 2 ^ tyWidth ty) ^^^ 2 ^ (tyWidth ty - 1) :=
  Nat.xor_comm _ _

/-- A count declared 32-bit reads as the low bits of its register. -/
theorem toSigned_lnSrc32 (t : Team) (n l : Nat) (r : Reg) :
    toSigned 32 (lnSrc32 t n l r) = (BitVec.ofNat 32 (t.lsrc n l false r).toNat).toInt :=
  congrArg BitVec.toInt (ofNat_lowBits .i32 _)

/-- Every fp row but fp.cmp, in the order of the table. -/
theorem floatRows_run : ∀ p ∈ floatRows, p.Runs := by
  unfold floatRows
  simp only [List.forall_mem_cons]
  refine ⟨?add, ?sub, ?mul, ?fma, ?min, ?max, ?abs, ?neg, ?cls, ?div, ?sqrt, ?rcp, ?rsq, ?exp2, ?log2, ?rnd, ?cvt, ?fti,
    ?itf, ?ldexp, ?frexp, by simp⟩
  case abs =>
    intro f s
    simp only [← lnSrc_mod_sign]
    rfl
  case neg =>
    intro f s
    simp only [← xor_sign_lnSrc]
    rfl
  case fti =>
    intro f s
    simp only [← lnExt_ofSigned]
    rfl
  case itf =>
    intro f s
    simp only [← readAs_lowBits]
    rfl
  case ldexp =>
    intro f s
    simp only [← toSigned_lnSrc32]
    rfl
  all_goals exact fun _ _ => rfl

/-- Every dc row but dc.cmp, in the order of the table. -/
theorem decimalRows_run : ∀ p ∈ decimalRows, p.Runs := by
  unfold decimalRows
  simp only [List.forall_mem_cons]
  refine ⟨?add, ?sub, ?mul, ?fma, ?div, ?quant, ?cvt, ?rnd, by simp⟩
  all_goals exact fun _ _ => rfl

end Sys2Proof.Claims
end

section
/-! PROOF. O22, from the rule about lanes that trap singly and the rows' lanes. -/

open Sys2Proof Sys2Proof.Machine Sys2Proof.Claims

namespace Sys2Proof.Claims

/-- Settles O22: each row runs its lanes, and the records of those that trap are delivered with the others' results. -/
theorem floatTraps : Obligations.FloatTraps := by
  intro p hp f s i t h hu n on lanes good bad hbad
  have hruns : p.Runs := (List.mem_append.mp hp).elim (floatRows_run p) (decimalRows_run p)
  exact h.delivers_faults (List.map_eq_nil_iff.not.mpr hbad) (hruns f s) (go_runLanes_settled h hu)

end Sys2Proof.Claims
end

section
/-! PROOF. The fp, dc and sc rows whose lanes all proceed, and comparisons none of whose lanes traps (R142, R147, R156). -/

open Sys2Proof Sys2Proof.Machine Sys2Proof.Claims

namespace Sys2Proof.Machine

variable {s : State} {i : Nat} {t : Team}

/-! ## Comparisons (R147) -/

/-- A comparison writes no flag of the binary formats. -/
@[simp] theorem compared_fpf (t : Team) (f : TForm) (yes : Nat → Bool) : (compared t f yes).fpf = t.fpf := by
  unfold compared
  split
  · exact Team.setK_fpf ..
  · exact List.foldlRecOn (motive := fun (u : Team) => u.fpf = t.fpf) _ _ rfl fun _ hu _ _ => hu
  · rfl

/-- Nor one of decimal. -/
@[simp] theorem compared_dcf (t : Team) (f : TForm) (yes : Nat → Bool) : (compared t f yes).dcf = t.dcf := by
  unfold compared
  split
  · exact Team.setK_dcf ..
  · exact List.foldlRecOn (motive := fun (u : Team) => u.dcf = t.dcf) _ _ rfl fun _ hu _ _ => hu
  · rfl

/-- Its flags come after its writes, to those the team had. -/
theorem compared_raise (t : Team) (f : TForm) (yes : Nat → Bool) (dec : Bool) (fl : BitVec 5) :
    (compared t f yes).raise dec fl =
      if dec then { compared t f yes with dcf := t.dcf ||| fl } else { compared t f yes with fpf := t.fpf ||| fl } := by
  rw [← compared_dcf t f yes, ← compared_fpf t f yes]
  rfl

/-- A comparison no lane of which raises an enabled exception: every lane's bit goes to D, and what the lanes raised
becomes flags. -/
theorem go_runCond_bits (h : AtIssue s i t) {f : TForm} {dec : Bool} {uses : List (Reg × Nat)}
    {g : Team → Nat → Nat → Bool × BitVec 5} (hp : Unpoisoned t f.km uses)
    (hq : ∀ l ∈ t.lanesOf f.km.val, (g t (s.teamsOf t) l).2 &&& t.enables dec = 0) :
    Act.go (runCond f dec uses g) s = (.ok (), s.withTeam i fun _ =>
      (compared t f fun l => (g t (s.teamsOf t) l).1).raise dec
        (raised ((t.lanesOf f.km.val).map fun l => (g t (s.teamsOf t) l).2))) := by
  unfold runCond
  rw [Act.go_bind_ok h.go_tm, Act.go_bind_ok (Act.go_get s), ← go_writeCond_bits h]
  refine congrArg (fun o => Act.go (writeCond f dec o) s) (List.map_congr_left fun l hl => ?_)
  simp [hp l hl, hq l hl]

end Sys2Proof.Machine

namespace Sys2Proof.Claims

/-! ## Rows (R142, R156) -/

/-- A row that runs its lanes delivers what they give, where they all proceed. -/
theorem FloatRow.Runs.completes {p : FloatRow} (hruns : p.Runs) : RowCompletes p := by
  intro f s i t h n hp fl
  exact (hruns f s).trans (runCore_ok h.1 h.2 ((go_runLanes h hp).trans (go_deliver h ..)))

/-- Every sc row, in the order of the table. -/
theorem scaledRows_run : ∀ p ∈ scaledRows, p.Runs := by
  unfold scaledRows
  simp only [List.forall_mem_cons]
  refine ⟨?quant, ?scale, ?deq, ?pack, ?unpack, ?spec, by simp⟩
  all_goals exact fun _ _ => rfl

/-- fp.cmp and dc.cmp run the lanes of their rows. -/
theorem comparisons_run : ∀ p ∈ comparisons, ∀ (f : TForm) (s : State),
    exec (p.1 f) s = runCore (runCond f p.2.1 (p.2.2.1 f) (p.2.2.2 f)) s := by
  unfold comparisons
  simp only [List.forall_mem_cons]
  refine ⟨?fp, ?dc, by simp⟩
  all_goals exact fun _ _ => rfl

end Sys2Proof.Claims
end

section
/-! PROOF. O19, O20 and O21, from the rows and the rule about comparisons. -/

open Sys2Proof Sys2Proof.Machine Sys2Proof.Claims

namespace Sys2Proof.Claims

/-- Settles O19: each row runs its lanes, which all proceed. -/
theorem floatForms : Obligations.FloatForms := fun p hp => (floatRows_run p hp).completes

/-- Settles O20: so does each row of the dc and of the sc instructions. -/
theorem decimalAndScaledForms : Obligations.DecimalAndScaledForms := fun p hp =>
  FloatRow.Runs.completes ((List.mem_append.mp hp).elim (decimalRows_run p) (scaledRows_run p))

/-- Settles O21: each comparison runs its lanes, whose bits go to D and whose exceptions go to FPF or DCF. -/
theorem floatComparisons : Obligations.FloatComparisons := by
  intro p hp f s i t h hu c hq u fl
  have hcompletes := h.completes (comparisons_run p hp f s) (go_runCond_bits h hu hq)
  rwa [compared_raise] at hcompletes

end Sys2Proof.Claims
end

section
/-! PROOF. Binary values at the places where the elementary functions are exact or have a stated result (R118, R119,
R143, R144). -/

open Sys2Proof Sys2Proof.Num

namespace Sys2Proof.Num

/-! ## Magnitudes -/

theorem bitlen_of_ne_zero {m : Nat} (h : m ≠ 0) : bitlen m = Nat.log2 m + 1 := if_neg h

@[simp] theorem bitlen_two_pow (k : Nat) : bitlen (2 ^ k) = k + 1 := by
  rw [bitlen_of_ne_zero (Nat.two_pow_pos k).ne', Nat.log2_two_pow]

@[simp] theorem bitlen_one : bitlen 1 = 1 := bitlen_two_pow 0

@[simp] theorem shiftInt_natCast (m k : Nat) : shiftInt m (k : Int) = m * 2 ^ k := by simp [shiftInt]

@[simp] theorem shiftInt_zero (m : Nat) : shiftInt m 0 = m := by simp [shiftInt]

/-- A magnitude that is a multiple of the unit keeps its value and loses nothing. -/
theorem roundAt_exact (rm : Rm) (neg : Bool) (m : Nat) {e g : Int} (h : g ≤ e) :
    roundAt rm neg m e false g = (shiftInt m (e - g), false) := by simp [roundAt, h]

/-! ## Powers of two -/

/-- The bits of a power of two in the normal range. -/
theorem Fmt.pack_two_pow (f : Fmt) {n : Int} (hn : f.emin ≤ n) :
    f.pack false (2 ^ f.fbits) (n - f.fbits) = (n + f.bias).toNat * 2 ^ f.fbits := by
  have htop : ((f.fbits + 1 : Nat) : Int) - 1 + (n - f.fbits) = n := by omega
  have hunit : n - (f.fbits : Int) - (n - f.fbits) = 0 := by omega
  simp only [Fmt.pack, (Nat.two_pow_pos f.fbits).ne', if_false, bitlen_two_pow, htop, not_lt.mpr hn, hunit, shiftInt_zero,
    Fmt.signBit, Nat.sub_self, Bool.false_eq_true]
  omega

/-- The bits of one that is no larger than the largest finite value (R118). -/
theorem Fmt.two_pow_le_maxBits {f : Fmt} (hi : f.ieee = true) (hb : 2 * f.bias + 2 = 2 ^ f.ebits) {n : Int}
    (hn : n ≤ f.bias) : (n + f.bias).toNat * 2 ^ f.fbits ≤ f.maxBits := by
  have hfield : (n + f.bias).toNat + 1 ≤ 2 ^ f.ebits - 1 := by omega
  have hpos := Nat.two_pow_pos f.fbits
  have hle := Nat.mul_le_mul_right (2 ^ f.fbits) hfield
  rw [Nat.add_mul] at hle
  rw [Fmt.maxBits, if_pos hi]
  omega

/-- A power of two in the normal range is delivered exactly in every rounding mode. -/
theorem Fmt.round_two_pow {f : Fmt} (hi : f.ieee = true) (hb : 2 * f.bias + 2 = 2 ^ f.ebits) (rm : Rm) (ftz sat : Bool)
    {n : Int} (hlo : f.emin ≤ n) (hhi : n ≤ f.bias) :
    f.round rm ftz sat false 1 n false = ((n + f.bias).toNat * 2 ^ f.fbits, 0) := by
  have hunit : ((1 : Nat) : Int) + n - (f.fbits + 1 : Nat) = n - f.fbits := by omega
  have hkept : roundAt rm false 1 n false (n - f.fbits) = (2 ^ f.fbits, false) := by
    rw [roundAt_exact rm false 1 (by omega), show n - (n - (f.fbits : Int)) = f.fbits by omega, shiftInt_natCast, one_mul]
  have htop : ((f.fbits + 1 : Nat) : Int) - 1 + (n - f.fbits) = n := by omega
  have hfield : ¬ (2 ^ f.ebits : Int) ≤ n + f.bias := by
    have : ((2 * f.bias + 2 : Nat) : Int) = 2 ^ f.ebits := by rw [hb]; norm_cast
    omega
  have hmax := not_lt.mpr (Fmt.two_pow_le_maxBits hi hb hhi)
  simp only [Fmt.round, one_ne_zero, decide_false, Bool.false_and, bitlen_one, hunit, hkept, (Nat.two_pow_pos f.fbits).ne',
    bitlen_two_pow, htop, not_lt.mpr hlo, Bool.or_self, Fmt.pack_two_pow f hlo, hfield, hmax, Fmt.signBit, Bool.false_eq_true,
    if_false, zero_add]

/-! ## Special operands (R144) -/

/-- 2^n for an integer n in the normal range is that power, exactly. -/
theorem Fmt.exp2_ofInt {f : Fmt} (hi : f.ieee = true) (hb : 2 * f.bias + 2 = 2 ^ f.ebits) (hbias : f.bias ≤ 4096) (rm : Rm)
    (ftz : Bool) {n : Int} (hlo : f.emin ≤ n) (hhi : n ≤ f.bias) :
    f.exp2 rm ftz (ofInt n 0 false) = ((n + f.bias).toNat * 2 ^ f.fbits, 0) := by
  rw [← Fmt.round_two_pow hi hb rm ftz false hlo hhi]
  by_cases hn : n = 0
  · subst hn
    rfl
  · have hm : n.natAbs ≠ 0 := Int.natAbs_ne_zero.mpr hn
    have hsign : (if decide (n < 0) then -(n.natAbs : Int) else n.natAbs) = n := by
      simp only [decide_eq_true_eq]
      omega
    have htop : ¬ ((n.natAbs.log2 + 1 : Nat) : Int) - 1 + 0 < -((f.fbits + 4 : Nat) : Int) - 4 := by omega
    have hleast : ¬ n < -4096 := by
      rw [Fmt.emin] at hlo
      omega
    have hgreatest : ¬ 4096 < n := by omega
    simp only [ofInt, hn, if_false, Fmt.exp2, hm, bitlen_of_ne_zero hm, htop, le_refl, decide_true, Bool.true_or, if_true,
      shiftInt_zero, hsign, hleast, hgreatest]

/-- Every function gives the canonical NaN for a NaN, and raises invalid for a signalling one. -/
theorem Fmt.elementary_nan (f : Fmt) (rm : Rm) (ftz sig : Bool) :
    ∀ op ∈ [f.rcp, f.rsq, f.exp2, f.log2], op rm ftz (.nan sig) = (f.nanBits, if sig then inv else 0) := by
  simp only [List.forall_mem_cons]
  refine ⟨?rcp, ?rsq, ?exp2, ?log2, by simp⟩
  all_goals rfl

/-- The logarithm of 1 is +0. -/
theorem Fmt.log2_one (f : Fmt) (rm : Rm) (ftz : Bool) : f.log2 rm ftz (.fin false 1 0) = (f.signBit false, 0) := by
  simp [Fmt.log2, Fmt.round]

/-- Below -0 the functions of a root and of a logarithm have no value. -/
theorem Fmt.rsq_negative (f : Fmt) (rm : Rm) (ftz : Bool) {m : Nat} (hm : m ≠ 0) (e : Int) :
    f.rsq rm ftz (.fin true m e) = (f.nanBits, inv) := by simp [Fmt.rsq, hm]

theorem Fmt.log2_negative (f : Fmt) (rm : Rm) (ftz : Bool) {m : Nat} (hm : m ≠ 0) (e : Int) :
    f.log2 rm ftz (.fin true m e) = (f.nanBits, inv) := by simp [Fmt.log2, hm]

end Sys2Proof.Num
end

section
/-! PROOF. O23, from the rules about special operands. -/

open Sys2Proof Sys2Proof.Machine Sys2Proof.Claims

namespace Sys2Proof.Claims

open Sys2Proof.Num (Fmt Rm)

/-- The table of special operands (R144), in its order: zeros and infinities by the functions' own cases, and 1. -/
theorem specials_hold (f : Fmt) (rm : Rm) (ftz : Bool) : ∀ p ∈ specials f, p.1 rm ftz p.2.1 = (p.2.2.1, p.2.2.2) := by
  unfold specials
  simp only [List.forall_mem_cons]
  refine ⟨?rcpZero, ?rcpMinusZero, ?rcpInf, ?rcpMinusInf, ?rsqZero, ?rsqMinusZero, ?rsqMinusInf, ?rsqInf, ?exp2MinusInf,
    ?exp2Inf, ?log2Zero, ?log2MinusZero, ?log2MinusInf, ?log2Inf, ?log2One, by simp⟩
  case log2One => exact f.log2_one rm ftz
  all_goals rfl

/-- Settles O23: FP32 and FP64 have the layout whose powers of two are exact up to the bias. -/
theorem floatSpecials : Obligations.FloatSpecials := by
  intro f hf rm ftz
  have hlayout : f.ieee = true ∧ 2 * f.bias + 2 = 2 ^ f.ebits ∧ f.bias ≤ 4096 := by
    revert f
    decide
  obtain ⟨hieee, hbias, hrange⟩ := hlayout
  exact ⟨specials_hold f rm ftz, fun op hop sig => f.elementary_nan rm ftz sig op hop,
    fun m e hm => ⟨f.rsq_negative rm ftz hm e, f.log2_negative rm ftz hm e⟩,
    fun n hlo hhi => Fmt.exp2_ofInt hieee hbias hrange rm ftz hlo hhi⟩

end Sys2Proof.Claims
end

section
/-! PROOF. Sorting columns by their rank: the order of mx.topk is linear, and insertion sorts by it (R178). -/

open Sys2Proof Sys2Proof.Machine Sys2Proof.Claims

namespace Sys2Proof.Machine

/-! ## The order of columns (R178) -/

/-- What columns are ranked by: numbers before NaNs, the values in ascending order or under `max` in descending order,
the lower index first. -/
def columnRank (max : Bool) (row : Nat → LaneWord) (i : Nat) : Bool ×ₗ Int ×ₗ Nat :=
  match rankKey (row i) with
  | some a => toLex (false, toLex (if max then -a else a, i))
  | none => toLex (true, toLex (0, i))

section
variable {max : Bool} {row : Nat → LaneWord}

theorem ranksBefore_iff {i j : Nat} :
    ranksBefore max row i j = true ↔ columnRank max row i < columnRank max row j := by
  unfold ranksBefore columnRank
  cases rankKey (row i) <;> cases rankKey (row j) <;> simp only [Prod.Lex.toLex_lt_toLex, lt_self_iff_false, true_and, false_or]
  case none.none => simp
  case none.some => simp
  case some.none => simp
  case some.some a b =>
    by_cases e : a = b
    · simp [e]
    · cases max <;> simp [e]

theorem columnRank_injective : Function.Injective (columnRank max row) := by
  have index (i : Nat) : (ofLex (ofLex (columnRank max row i)).2).2 = i := by
    unfold columnRank
    split <;> rfl
  intro i j h
  rw [← index i, h, index j]

theorem ranksBefore_trans {i j k : Nat} (hij : ranksBefore max row i j = true) (hjk : ranksBefore max row j k = true) :
    ranksBefore max row i k = true :=
  ranksBefore_iff.mpr ((ranksBefore_iff.mp hij).trans (ranksBefore_iff.mp hjk))

/-- Of two different columns one ranks before the other. -/
theorem ranksBefore_or {i j : Nat} (h : i ≠ j) : ranksBefore max row i j = true ∨ ranksBefore max row j i = true := by
  simp only [ranksBefore_iff]
  exact (columnRank_injective.ne h).lt_or_gt

end

/-! ## Insertion -/

variable {α : Type} {before : α → α → Bool}

theorem insertBy_perm (x : α) (l : List α) : (insertBy before x l).Perm (x :: l) := by
  induction l with
  | nil => exact .refl _
  | cons y ys ih =>
    unfold insertBy
    split
    · exact .refl _
    · exact (ih.cons y).trans (.swap x y ys)

/-- Insertion of a new element keeps a list sorted. -/
theorem insertBy_sorted (htrans : ∀ a b c, before a b = true → before b c = true → before a c = true)
    (htotal : ∀ a b, a ≠ b → before a b = true ∨ before b a = true) {x : α} {l : List α} (hx : x ∉ l)
    (hl : l.Pairwise fun a b => before a b = true) : (insertBy before x l).Pairwise fun a b => before a b = true := by
  induction l with
  | nil => simp [insertBy]
  | cons y ys ih =>
    obtain ⟨hy, hys⟩ := List.pairwise_cons.mp hl
    obtain ⟨hxy, hxys⟩ := not_or.mp (List.mem_cons.not.mp hx)
    unfold insertBy
    split
    next hb =>
      refine List.pairwise_cons.mpr ⟨fun z hz => ?_, hl⟩
      rcases List.mem_cons.mp hz with rfl | hz
      · exact hb
      · exact htrans x y z hb (hy z hz)
    next hb =>
      refine List.pairwise_cons.mpr ⟨fun z hz => ?_, ih hxys hys⟩
      rcases List.mem_cons.mp ((insertBy_perm x ys).mem_iff.mp hz) with rfl | hz
      · exact (htotal z y hxy).resolve_left hb
      · exact hy z hz

/-! ## Sorting -/

theorem foldl_insertBy_perm (xs acc : List α) : (xs.foldl (fun acc x => insertBy before x acc) acc).Perm (xs ++ acc) := by
  induction xs generalizing acc with
  | nil => exact .refl _
  | cons x xs ih => exact (ih _).trans (((insertBy_perm x acc).append_left xs).trans List.perm_middle)

theorem sortBy_perm (xs : List α) : (sortBy before xs).Perm xs := by
  simpa [sortBy] using foldl_insertBy_perm (before := before) xs []

/-- Distinct elements are sorted by a transitive relation that decides between any two of them. -/
theorem sortBy_sorted (htrans : ∀ a b c, before a b = true → before b c = true → before a c = true)
    (htotal : ∀ a b, a ≠ b → before a b = true ∨ before b a = true) {xs : List α} (hxs : xs.Nodup) :
    (sortBy before xs).Pairwise fun a b => before a b = true := by
  suffices ∀ acc : List α, (xs ++ acc).Nodup → acc.Pairwise (fun a b => before a b = true) →
      (xs.foldl (fun acc x => insertBy before x acc) acc).Pairwise fun a b => before a b = true from
    this [] (by simpa using hxs) .nil
  intro acc hnodup hacc
  induction xs generalizing acc with
  | nil => exact hacc
  | cons x xs ih =>
    obtain ⟨hx, hrest⟩ := List.nodup_cons.mp hnodup
    have hnew : (xs ++ insertBy before x acc).Nodup :=
      (((insertBy_perm x acc).append_left xs).trans List.perm_middle).nodup_iff.mpr hnodup
    exact ih (List.nodup_cons.mp hxs).2 _ hnew (insertBy_sorted htrans htotal (fun h => hx (by simp [h])) hacc)

/-- What is taken from the front of a sorted list comes before what is left. -/
theorem sorted_take_before {xs : List α} {m : Nat} (hs : xs.Pairwise fun a b => before a b = true) {a b : α}
    (ha : a ∈ xs.take m) (hb : b ∈ xs) (hnb : b ∉ xs.take m) : before a b = true := by
  rw [← List.take_append_drop m xs] at hs hb
  exact (List.pairwise_append.mp hs).2.2 a ha b ((List.mem_append.mp hb).resolve_left hnb)

end Sys2Proof.Machine

namespace Sys2Proof.Claims

/-- Settles O28: the columns are sorted by a linear order, and the first of them are taken. -/
theorem topRanks : Obligations.TopRanks := by
  intro max row m hm best
  have hperm : (sortBy (ranksBefore max row) (List.range 128)).Perm (List.range 128) := sortBy_perm _
  have hsorted := sortBy_sorted (before := ranksBefore max row) (fun _ _ _ => ranksBefore_trans) (fun _ _ => ranksBefore_or)
    (List.nodup_range (n := 128))
  have hmem {j : Nat} : j ∈ sortBy (ranksBefore max row) (List.range 128) ↔ j < 128 := hperm.mem_iff.trans List.mem_range
  refine ⟨?length, ?nodup, fun j hj => hmem.mp (List.mem_of_mem_take hj), hsorted.sublist (List.take_sublist ..),
    fun a ha b hb hnb => sorted_take_before hsorted ha (hmem.mpr hb) hnb⟩
  case length => rw [List.length_take, hperm.length_eq, List.length_range, Nat.min_eq_left hm]
  case nodup => exact (hperm.nodup_iff.mpr List.nodup_range).sublist (List.take_sublist ..)

end Sys2Proof.Claims
end

section
/-! PROOF. What the mx instructions share: the command stream that comes first, the Latchkey, uniform operands, the lanes
that have their accumulator row, and how an instruction of such lanes ends (R165, R171, R173, R205). -/

open Sys2Proof Sys2Proof.Machine Sys2Proof.Claims

namespace Sys2Proof.Machine

variable {s : State} {i : Nat} {t : Team} {ins : Instr} {act : Act Unit}

/-! ## The command stream (R205) -/

/-- A stream without words leaves the state. -/
theorem State.mxGo_of_empty (hq : (s.team i).mxq = []) : s.mxGo i = s := by
  simp [State.mxGo, State.mxDrain, hq]

/-- An mx instruction with no word before it is its action. -/
theorem AtIssue.go_mxDirect (h : AtIssue s i t) (hq : t.mxq = []) (act : Act Unit) : Act.go (mxDirect act) s = Act.go act s := by
  have hgo : s.mxGo i = s := State.mxGo_of_empty (h.team ▸ hq)
  unfold mxDirect
  rw [Act.go_bind_ok (Act.go_me s), h.cur, Act.go_bind_ok (Act.go_modify ..), hgo, Act.go_bind_ok h.go_tm, hq]
  rfl

/-! ## The Latchkey (R171, R173) -/

theorem AtIssue.holdsKey_iff (h : AtIssue s i t) : s.holdsKey i = true ↔ HasKey s i t := by
  rw [State.holdsKey, h.team, decide_eq_true_eq, HasKey]

theorem AtIssue.go_needKey (h : AtIssue s i t) (hk : HasKey s i t) (km : Nat) : Act.go (needKey km) s = (.ok (), s) := by
  unfold needKey
  rw [Act.go_bind_ok (Act.go_get s), Act.go_bind_ok (Act.go_me s), h.cur, h.holdsKey_iff.mpr hk]
  rfl

/-- A uniform fault names the lowest active lane. -/
theorem AtIssue.go_mxFail (h : AtIssue s i t) {α : Type} (km : Nat) (c : Cause) (d : Nat) (ea : Word) :
    Act.go (mxFail (α := α) km c d ea) s =
      (.error (.trap [{ t.record c d with ea := ea, lane := (t.lanesOf km).headD 0 }]), s) := by
  unfold mxFail
  rw [Act.go_bind_ok h.go_tm]
  rfl

/-- A record of the word at issue has no address. -/
theorem Team.record_ea (t : Team) (c : Cause) (d l : Nat) :
    { t.record c d with ea := 0, lane := l } = { t.record c d with lane := l } := by
  unfold Team.record
  split <;> rfl

theorem AtIssue.go_needKey_without (h : AtIssue s i t) (hk : ¬ HasKey s i t) (km : Nat) :
    Act.go (needKey km) s = (.error (.trap [{ t.record .latchkey 0 with lane := (t.lanesOf km).headD 0 }]), s) := by
  unfold needKey
  rw [Act.go_bind_ok (Act.go_get s), Act.go_bind_ok (Act.go_me s), h.cur,
    if_neg (h.holdsKey_iff.not.mpr hk), h.go_mxFail, Team.record_ea]

/-- Without the Latchkey an instruction that needs it traps. -/
theorem AtIssue.traps_without_key (h : AtIssue s i t) (hq : t.mxq = []) (hk : ¬ HasKey s i t) {km : Nat}
    {rest : Unit → Act Unit} (he : exec ins s = runCore (mxDirect (needKey km >>= rest)) s) :
    Traps ins s i [{ t.record .latchkey 0 with lane := (t.lanesOf km).headD 0 }] :=
  h.traps he (by rw [h.go_mxDirect hq, Act.go_bind, h.go_needKey_without hk])

/-- With it, it goes on to the rest of its action. -/
theorem AtIssue.go_keyed (h : AtIssue s i t) (hq : t.mxq = []) (hk : HasKey s i t) (km : Nat) (rest : Unit → Act Unit) :
    Act.go (mxDirect (needKey km >>= rest)) s = Act.go (rest ()) s := by
  rw [h.go_mxDirect hq, Act.go_bind_ok (h.go_needKey hk km)]

/-! ## Uniform operands (R173) -/

/-- A uniform operand that the mx instructions read: it is readable, and where it is a V register, which no well-formed
word names there, not poisoned in lane 0. -/
def Uniform (t : Team) (r : Reg) : Prop := Readable t r ∧ t.lpoison 0 1 r = none

/-- Of the operands that well-formed words name every readable one is uniform. -/
theorem Readable.uniform {r : Reg} (hr : Readable t r) (hv : ∀ n, r ≠ .v n) : Uniform t r := by
  refine ⟨hr, ?_⟩
  cases r with
  | v n => exact absurd rfl (hv n)
  | s n => exact if_pos hr
  | _ => rfl

theorem AtIssue.go_mxRead (h : AtIssue s i t) (km : Nat) {r : Reg} (hu : Uniform t r) :
    Act.go (mxRead km r) s = (.ok (t.scalar (s.teamsOf t) r), s) := by
  unfold mxRead
  rw [Act.go_bind_ok h.go_tm, hu.2]
  exact go_sread h hu.1

/-- What passes the tests of R69 has an admitted type and admitted specifiers D and A. -/
theorem fieldsFail_eq_none {m : Mn} {vregs sregs : Nat} {x : Fields} (h : fieldsFail m vregs sregs x = none) :
    m.row.ty.has x.ty = true ∧ test7 m vregs sregs x m.row.d x.d = true ∧ test7 m vregs sregs x m.row.a x.a = true := by
  unfold fieldsFail at h
  dsimp only at h
  split at h
  · cases h
  · split at h
    · cases h
    · split at h
      · cases h
      · simp_all

/-- A readable operand in a field that admits no V register is uniform. -/
theorem Readable.uniform_of_regOk {r : Reg} (hr : Readable t r) {m : Mn} {vregs sregs ty low : Nat} {adm : Adm} {wd : Wd}
    (hadm : adm.v = false) (hok : regOk m vregs sregs adm wd ty low r = true) : Uniform t r :=
  hr.uniform (by rintro n rfl; simp [regOk, hadm] at hok)

theorem mxCfg_uniform {f : TForm} (hw : WellFormed (.mxCfg f) = true) (hr : Readable t f.a) : Uniform t f.a := by
  obtain ⟨-, -, ha⟩ := fieldsFail_eq_none ((wellFormed_core rfl).mp hw)
  exact hr.uniform_of_regOk rfl ha

theorem mxAload_uniform {f : TForm} (hw : WellFormed (.mxAload f) = true) (hr : Readable t f.a) : Uniform t f.a := by
  obtain ⟨-, -, ha⟩ := fieldsFail_eq_none ((wellFormed_core rfl).mp hw)
  exact hr.uniform_of_regOk rfl ha

theorem mxAstore_uniform {f : TForm} (hw : WellFormed (.mxAstore f) = true) (hr : Readable t f.a) : Uniform t f.a := by
  obtain ⟨-, -, ha⟩ := fieldsFail_eq_none ((wellFormed_core rfl).mp hw)
  exact hr.uniform_of_regOk rfl ha

theorem mxWload_uniform {f : TForm} (hw : WellFormed (.mxWload f) = true) (ha : Readable t f.a) (hd : Readable t f.d) :
    Uniform t f.a ∧ Uniform t f.d := by
  obtain ⟨-, hokd, hoka⟩ := fieldsFail_eq_none ((wellFormed_core rfl).mp hw)
  exact ⟨ha.uniform_of_regOk rfl hoka, hd.uniform_of_regOk rfl hokd⟩

/-! ## Lanes and their rows (R165) -/

/-- Without poison in the way the lanes that have their row proceed, and the others trap. -/
theorem mxLanes_eq {km : Fin 16} {uses : List (Reg × Nat)} (hu : Unpoisoned t km uses) :
    mxLanes t km.val uses none = (rowFaults t km, rowLanes t km) := by
  unfold mxLanes rowFaults rowLanes
  refine Prod.ext ?faults ?lanes
  case faults =>
    rw [← filterMap_ite_some]
    refine List.filterMap_congr fun l hl => ?_
    by_cases hrow : t.accrows ≤ t.rowOf l <;> simp [hrow, hu l hl]
  case lanes =>
    refine List.filter_congr fun l hl => ?_
    by_cases hrow : t.accrows ≤ t.rowOf l
    · simp [hrow]
    · simp [hrow, hu l hl, Nat.lt_of_not_le hrow]

/-- An instruction without sources uses no poison. -/
theorem unpoisoned_nil (t : Team) (km : Fin 16) : Unpoisoned t km [] := fun _ _ => rfl

/-! ## The end of an instruction of such lanes (R24, R353) -/

/-- One that writes its team and then reports. -/
theorem AtIssue.settles (h : AtIssue s i t) {g : Team → Team} {rs : List Rec} (he : exec ins s = runCore act s)
    (ha : Act.go act s = Act.go (do modTm g; finishLanes rs) s) :
    exec ins s = .next (settled (s.withTeam i fun _ => g t) i false rs) := by
  rw [Act.go_bind_ok (h.go_modTm g)] at ha
  rw [he, settled, Bool.or_false]
  cases rs with
  | nil => exact runCore_ok h.1 h.2 ha
  | cons r rs => exact runCore_trap h.1 h.2 ha

/-- One that delivers results and reports with them. -/
theorem AtIssue.settles_delivery (h : AtIssue s i t) {la : BitVec 4} {out : List Result} {rs : List Rec}
    (he : exec ins s = runCore act s) (ha : Act.go act s = Act.go (deliverResults la out 0 0 rs) s) :
    exec ins s = .next (settled (s.delivered i t la out 0 0 rs) i (la != 0) rs) := by
  cases rs with
  | nil => exact he.trans (runCore_ok h.1 h.2 (ha.trans (go_deliver h la out 0 0)))
  | cons r rs =>
    rw [h.delivers_faults (List.cons_ne_nil r rs) he ha]
    by_cases hla : la = 0 <;> simp [settled, hla]

end Sys2Proof.Machine
end

section
/-! PROOF. The Latchkey: its instructions, and its handover (R170, R171, R174). -/

open Sys2Proof Sys2Proof.Machine Sys2Proof.Claims

namespace Sys2Proof.Machine

variable {s : State} {i : Nat} {t : Team}

/-! ## mx.take -/

/-- A free Latchkey is taken. -/
theorem mxTake_free (h : AtIssue s i t) (hq : t.mxq = []) (f : TForm) (hl : (s.core t.core).latch = .free) :
    CompletesAs (.mxTake f) s i
      ((s.withCore t.core fun c => { c with latch := .held i }).withTeam i fun _ => { t with wantsKey := false }) := by
  refine runCore_ok h.1 h.2 ((h.go_mxDirect hq _).trans ?_)
  unfold mxTake
  rw [Act.go_bind_ok h.go_tm, Act.go_bind_ok (Act.go_me s), Act.go_bind_ok (Act.go_get s), h.cur, hl, Act.go_modify,
    State.withTeam_const (s := s.withCore t.core _) h.2 fun t => { t with wantsKey := false }]

/-- One that the team holds stays with it. -/
theorem mxTake_held (h : AtIssue s i t) (hq : t.mxq = []) (f : TForm) (hl : (s.core t.core).latch = .held i) :
    Completes (.mxTake f) s i { t with wantsKey := false } := by
  refine runCore_ok h.1 h.2 ((h.go_mxDirect hq _).trans ?_)
  unfold mxTake
  rw [Act.go_bind_ok h.go_tm, Act.go_bind_ok (Act.go_me s), Act.go_bind_ok (Act.go_get s), h.cur, hl]
  dsimp only
  rw [if_pos rfl]
  exact h.go_modTm _

/-- For any other the team waits. -/
theorem mxTake_waits (h : AtIssue s i t) (hq : t.mxq = []) (f : TForm) (hfree : (s.core t.core).latch ≠ .free)
    (hheld : (s.core t.core).latch ≠ .held i) :
    exec (.mxTake f) s = .next ((s.withTeam i fun _ => { t with wantsKey := true }).stand i { held := true }) := by
  have waits : Act.go (do modTm (fun t => { t with wantsKey := true }); blockAt { held := true } : Act Unit) s =
      (.error (.block { held := true }), s.withTeam i fun _ => { t with wantsKey := true }) := by
    rw [Act.go_bind_ok (h.go_modTm _), Act.go_blockAt]
  refine runCore_block h.1 h.2 ((h.go_mxDirect hq _).trans ?_)
  unfold mxTake
  rw [Act.go_bind_ok h.go_tm, Act.go_bind_ok (Act.go_me s), Act.go_bind_ok (Act.go_get s), h.cur]
  cases hl : (s.core t.core).latch with
  | free => exact absurd hl hfree
  | held j =>
    have hj : j ≠ i := fun e => hheld (e ▸ hl)
    dsimp only
    rw [if_neg hj]
    exact waits
  | passing j slot => exact waits

/-! ## mx.give and mx.cfg -/

theorem mxGive_passes (h : AtIssue s i t) (hq : t.mxq = []) (f : TForm) (hk : HasKey s i t) :
    CompletesAs (.mxGive f) s i (s.withCore t.core fun c => { c with latch := .passing i t.slot }) := by
  refine runCore_ok h.1 h.2 ((h.go_keyed hq hk 0 _).trans ?_)
  rw [Act.go_bind_ok h.go_tm, Act.go_bind_ok (Act.go_me s), Act.go_modify, h.cur]

/-- mx.cfg puts the old MXC into D and takes a new one from a uniform operand: WSLOT modulo 96, ZACC in bit 7. -/
theorem mxCfg_completes (h : AtIssue s i t) (hq : t.mxq = []) (f : TForm) (hk : HasKey s i t) (hu : Uniform t f.a) :
    let x := t.scalar (s.teamsOf t) f.a
    Completes (.mxCfg f) s i { t.putScalar f.d (t.mxc.setWidth 64) with
      mxc := BitVec.ofNat 8 (x.toNat % 128 % 96 + if x.getLsbD 7 then 128 else 0) } := by
  intro x
  refine runCore_ok h.1 h.2 ((h.go_keyed hq hk 0 _).trans ?_)
  rw [Act.go_bind_ok (h.go_mxRead 0 hu), Act.go_bind_ok h.go_tm, Act.go_bind_ok (go_swrite h ..)]
  cases hd : f.d with
  | s n | a n =>
    rw [(h.withTeam _).go_modTm, State.withTeam_withTeam]
  | _ => exact h.go_modTm _

/-- Without the Latchkey every other mx instruction traps. -/
theorem keyed_trap (h : AtIssue s i t) (hq : t.mxq = []) (f : TForm) (hk : ¬ HasKey s i t) :
    ∀ p ∈ keyed, Traps (p.1 f) s i
      [{ t.record .latchkey 0 with lane := (t.lanesOf (if p.2 then f.km.val else 0)).headD 0 }] := by
  unfold keyed
  simp only [List.forall_mem_cons]
  refine ⟨?give, ?mma, ?mmas, ?dist, ?topk, ?wload, ?aload, ?astore, ?azero, ?cfg, by simp⟩
  all_goals exact h.traps_without_key hq hk rfl

/-! ## The handover (R171) -/

/-- A change of a team keeps what it keeps of every team, listed or not. -/
theorem State.team_withTeam_keeps {α : Type} {g : Team → α} {f : Team → Team} (s : State) (j : Nat)
    (hf : ∀ u, g (f u) = g u) : g ((s.withTeam j f).team j) = g (s.team j) := by
  cases hj : SMap.find s.teams j with
  | some u => rw [State.team_withTeam f hj, State.team_of_find hj, hf]
  | none => simp [State.team, SMap.alter, hj]

theorem exec_latchkeyHandover (core : Nat) (s : State) : exec (.latchkeyHandover core) s = .next (handOver core s) := rfl

/-- While the giver has mx work or weights on their way nothing changes. -/
theorem latchkeyHandover_busy {core slot : Nat} (hl : (s.core core).latch = .passing i slot)
    (hb : ((s.core core).wloads.any (·.team == i) || (s.team i).ops.any (·.matrix)) = true) :
    exec (.latchkeyHandover core) s = .next s := by
  rw [exec_latchkeyHandover, handOver]
  simp only [hl, hb, if_true]

/-- The first waiter in ring order, found with its slot. -/
theorem waiter_eq_nextForKey (s : State) (core slot : Nat) :
    ((((List.range 16).map fun k => (slot + 1 + k) % 16).findSome? fun k =>
      ((s.teams.filter fun x => s.wants core x.1).map fun x => (x.1, x.2.slot)).find? fun x => x.2 == k).map (·.1)) =
        nextForKey s core slot := by
  rw [nextForKey, List.map_findSome?]
  congr 1
  funext k
  simp only [Function.comp_apply, List.find?_map, Option.map_map]
  rfl

/-- Without a waiter the Latchkey is free. -/
theorem latchkeyHandover_free {core slot : Nat} (hl : (s.core core).latch = .passing i slot)
    (hb : ((s.core core).wloads.any (·.team == i) || (s.team i).ops.any (·.matrix)) = false)
    (hn : nextForKey s core slot = none) :
    exec (.latchkeyHandover core) s = .next (s.withCore core fun c => { c with latch := .free }) := by
  rw [← waiter_eq_nextForKey, Option.map_eq_none_iff] at hn
  rw [exec_latchkeyHandover, handOver]
  simp only [hl, hb, hn, Bool.false_eq_true, if_false]

/-- The waiter that is next, resident, without words in its stream, receives it. -/
theorem latchkeyHandover_next {core slot j : Nat} (hl : (s.core core).latch = .passing i slot)
    (hb : ((s.core core).wloads.any (·.team == i) || (s.team i).ops.any (·.matrix)) = false)
    (hn : nextForKey s core slot = some j) (hk : (s.team j).keptKey = false) (hq : (s.team j).mxq = []) :
    exec (.latchkeyHandover core) s =
      .next ((s.withCore core fun c => { c with latch := .held j }).withTeam j fun u => { u with wantsKey := false }) := by
  rw [← waiter_eq_nextForKey, Option.map_eq_some_iff] at hn
  obtain ⟨x, hx, rfl⟩ := hn
  rw [exec_latchkeyHandover, handOver]
  simp only [hl, hb, hx, hk, Bool.false_eq_true, if_false]
  have hempty := State.team_withTeam_keeps (g := Team.mxq) (f := fun u => { u with wantsKey := false })
    (s.withCore core fun c => { c with latch := .held x.1 }) x.1 fun _ => rfl
  rw [State.mxGo_of_empty (hempty.trans hq)]

end Sys2Proof.Machine
end

section
/-! PROOF. O25 fails: "readable" leaves V registers out of account, and mx.cfg does not. -/

open Sys2Proof Sys2Proof.Machine Sys2Proof.Claims

namespace Sys2Proof.Claims

/-- A team inside a matrix clause, with one lane and its accumulator row. -/
def oneLane : Team :=
  { lanes := 1, exm := 1, accrows := 1, clause := some { header := 0x1000, eng := 2, words := [0, 0] } }

/-- The same with the lane's V0 poisoned. -/
def poisonedTeam : Team := { oneLane with vPoison := [(0, 1)] }

/-- A state with a team at issue that holds the Latchkey of its core. -/
def withKey (t : Team) : State := { State.reset with cur := some 0, teams := [(0, t)], cores := [(0, { latch := .held 0 })] }

/-- The index of the word at which a team stands in its clause after an instruction: behind one that has retired. -/
def wordAfter : Host.Outcome State Fault Refusal → Option Nat
  | .next s => (s.team 0).clause.map (·.idx)
  | _ => none

/-- Refutes O25: mx.cfg whose operand A names a V register, which only R69 keeps out, uses the poison of lane 0's and traps;
V registers count as readable, so the statement has it complete. -/
theorem not_latchkey : ¬ Obligations.Latchkey := by
  unfold Obligations.Latchkey
  rintro ⟨hinstr, -⟩
  obtain ⟨-, -, -, -, hcfg, -⟩ := hinstr ⟨.i8, 0, 0, .zero, .v 0, .v 0, .v 0, 0⟩ (withKey poisonedTeam) 0 poisonedTeam
    ⟨rfl, rfl⟩ rfl
  exact absurd (congrArg wordAfter (hcfg rfl trivial)) (by decide +kernel)

end Sys2Proof.Claims
end

section
/-! PROOF. mx.mma, mx.mmas and mx.dist: what the model does to a lane's row are the sums of R176 and R177. -/

open Sys2Proof Sys2Proof.Machine Sys2Proof.Claims

namespace Sys2Proof.Machine

/-! ## Rows as they are written (R163) -/

@[simp] theorem Team.setAcc_mxc (t : Team) (row col : Nat) (x : LaneWord) : (t.setAcc row col x).mxc = t.mxc := rfl

@[simp] theorem Team.setAcc_rowOf (t : Team) (row col : Nat) (x : LaneWord) (l : Nat) :
    (t.setAcc row col x).rowOf l = t.rowOf l := rfl

@[simp] theorem Team.setCols_mxc (t : Team) (row col : Nat) (xs : List LaneWord) : (t.setCols row col xs).mxc = t.mxc := by
  induction xs generalizing t col with
  | nil => rfl
  | cons x xs ih => exact ih ..

/-! ## Rows as they are summed (R140, R176, R177) -/

variable {c : Core} {f : TForm} {u : Team} {l : Nat}

theorem rowLen_of_ne {ty : Ty} (h : ty ≠ .f64) : rowLen ty = 48 := if_neg h

/-- What mx.mma and mx.mmas write to a lane's row, from the tile at a slot. -/
def mulRow (c : Core) (f : TForm) (scaled : Bool) (slot : Nat) (u : Team) (l : Nat) : Team :=
  let w := match f.a with | .v n => (u.getV l n).toNat | _ => 0
  mmaRow u c f.ty (c.sparseAt f.ty slot) scaled slot l (vNum f.d) (w / 256 ^ (f.mod.toNat % 4) % 256)
    (w / 256 ^ (f.mod.toNat % 4 + 1) % 256)

/-- A row of mx.mma: in FP64 each product in turn, else the exact sum. -/
theorem mulRow_eq_multiplied : mulRow c f false u.wslot u l = multiplied c f u l := by
  unfold mulRow mmaRow multiplied
  dsimp only
  by_cases hty : f.ty = .f64
  · rw [if_pos hty, if_pos hty, fused]
    refine foldl_congr_of (P := fun v => v.rowOf l = u.rowOf l) (fun v j hv => ⟨?_, by simpa using hv⟩) _ rfl
    simp only [hv, hty, rowLen, if_true, ← List.map_prod_left_eq_zip, List.foldl_map, Bool.false_eq_true, if_false, Team.wslot]
  · rw [if_neg hty, if_neg hty, summed]
    refine congrArg _ (List.map_congr_left fun j _ => ?_)
    simp only [rowLen_of_ne hty, ← List.map_prod_left_eq_zip, List.map_map, Function.comp_def, Bool.false_eq_true, if_false,
      Team.wslot, oldColumn]

/-- A row of mx.mmas, whose types are the element types. -/
theorem mulRow_eq_multipliedScaled (hty : f.ty ≠ .f64) :
    mulRow c f true u.wslot u l = multipliedScaled c f u l := by
  unfold mulRow mmaRow multipliedScaled
  dsimp only
  rw [if_neg hty, summed]
  refine congrArg _ (List.map_congr_left fun j _ => ?_)
  simp only [rowLen_of_ne hty, ← List.map_prod_left_eq_zip, List.map_map, Function.comp_def, if_true, Team.wslot, oldColumn]
    <;> rfl

/-- What mx.dist writes to a lane's row. -/
def distRow (c : Core) (f : TForm) (slot : Nat) (u : Team) (l : Nat) : Team :=
  u.setCols (u.rowOf l) 0 ((List.range 128).map fun j =>
    let old := if f.mod.getLsbD 0 then (u.getAcc (u.rowOf l) j).toNat else 0
    let as := (List.range 48).map fun k => (Num.fmtOf f.ty.code).value (u.rowBits f.ty l (vNum f.d) k)
    let ps := ((List.range 48).zip as).map fun p =>
      let df := exactDiff p.2 (c.elem f.ty false false slot j p.1)
      Num.prod df df
    BitVec.ofNat 32 (Num.rne32 (Num.sumExact (Num.f32.value old :: ps))))

theorem distRow_eq_distanced : distRow c f u.wslot u l = distanced c f u l := by
  unfold distRow distanced summed
  refine congrArg _ (List.map_congr_left fun j _ => ?_)
  cases f.mod.getLsbD 0 <;>
    simp only [← List.map_prod_left_eq_zip, List.map_map, Function.comp_def, Team.wslot, oldColumn, exactDiff, Bool.not_true,
      Bool.not_false, Bool.false_eq_true, if_true, if_false]

/-! ## Every row writes accumulators alone, so the tile's slot stays -/

@[simp] theorem summed_mxc (zero : Bool) (term : Nat → Nat → Num.FVal) : (summed u l zero term).mxc = u.mxc :=
  Team.setCols_mxc ..

@[simp] theorem fused_mxc (zero : Bool) (a : Nat → Num.FVal) (b : Nat → Nat → Num.FVal) : (fused u l zero a b).mxc = u.mxc :=
  List.foldlRecOn (motive := fun v : Team => v.mxc = u.mxc) _ _ rfl fun v hv j _ => by simpa using hv

@[simp] theorem multiplied_mxc : (multiplied c f u l).mxc = u.mxc := by
  unfold multiplied
  dsimp only
  split
  · exact fused_mxc ..
  · exact summed_mxc ..

@[simp] theorem multipliedScaled_mxc : (multipliedScaled c f u l).mxc = u.mxc := summed_mxc ..

@[simp] theorem distanced_mxc : (distanced c f u l).mxc = u.mxc := summed_mxc ..

/-! ## The types that R69 admits -/

theorem mxMmas_type (hw : WellFormed (.mxMmas f) = true) : f.ty ≠ .f64 := by
  intro e
  obtain ⟨hty, -⟩ := fieldsFail_eq_none ((wellFormed_core rfl).mp hw)
  have hcode : TySet.has .el f.ty.code = true := hty
  rw [e] at hcode
  exact absurd hcode (by decide)

theorem mxDist_type (hw : WellFormed (.mxDist f) = true) : f.ty ≠ .f64 := by
  intro e
  obtain ⟨hty, -⟩ := fieldsFail_eq_none ((wellFormed_core rfl).mp hw)
  have hcode : TySet.has .dist f.ty.code = true := hty
  rw [e] at hcode
  exact absurd hcode (by decide)

/-! ## The instructions -/

variable {s : State} {i : Nat} {t : Team} {ins : Instr}

/-- An instruction that writes row after row writes each row's effect, as the slot it reads from stays. -/
theorem AtIssue.settles_rows (h : AtIssue s i t) {act : Act Unit} {lanes : List Nat} {rs : List Rec}
    {write : Nat → Team → Nat → Team} {g : Team → Nat → Team} (he : exec ins s = runCore act s)
    (ha : Act.go act s = Act.go (do modTm (fun u => lanes.foldl (write t.wslot) u); finishLanes rs) s)
    (hg : ∀ u l, write u.wslot u l = g u l) (hmxc : ∀ u l, (g u l).mxc = u.mxc) :
    exec ins s = .next (settled (s.withTeam i fun _ => Team.eachRow t lanes g) i false rs) := by
  have hrows : lanes.foldl (write t.wslot) t = Team.eachRow t lanes g := by
    refine foldl_congr_of (P := fun u => u.mxc = t.mxc) (fun u l hu => ?_) lanes rfl
    have hslot : t.wslot = u.wslot := by rw [Team.wslot, Team.wslot, hu]
    have hstep : write t.wslot u l = g u l := by rw [hslot, hg]
    exact ⟨hstep, by rw [hstep, hmxc, hu]⟩
  rw [← hrows]
  exact h.settles (g := fun u => lanes.foldl (write t.wslot) u) he ha

/-- The registers that a lane of mx.mma or mx.mmas uses. -/
def mulUses (f : TForm) (scaled : Bool) : List (Reg × Nat) :=
  (f.d, (arowSpan f.ty.code).1) :: if scaled then [(f.a, 1)] else []

/-- mx.mma and mx.mmas write a row in every lane that has one, where nothing they read is poisoned. -/
theorem mxMul_rows (h : AtIssue s i t) (hq : t.mxq = []) (hk : HasKey s i t) {f : TForm} {scaled : Bool}
    {g : Team → Nat → Team} (he : exec ins s = runCore (mxDirect (mxMul f scaled)) s)
    (hu : Unpoisoned t f.km (mulUses f scaled))
    (htile : (s.core t.core).tilePoison f.ty ((s.core t.core).sparseAt f.ty t.wslot) scaled t.wslot
      (if f.ty = .f64 then 64 else 128) = none)
    (hg : ∀ u l, mulRow (s.core t.core) f scaled u.wslot u l = g u l) (hmxc : ∀ u l, (g u l).mxc = u.mxc) :
    exec ins s = .next (settled (s.withTeam i fun _ => Team.eachRow t (rowLanes t f.km) g) i false (rowFaults t f.km)) := by
  refine h.settles_rows (write := mulRow (s.core t.core) f scaled) he ?_ hg hmxc
  refine (h.go_keyed hq hk _ _).trans ?_
  have hlanes := mxLanes_eq hu
  unfold mulUses at hlanes
  rw [Act.go_bind_ok h.go_tm, Act.go_bind_ok (Act.go_get s)]
  simp only [htile, hlanes]
  rfl

/-- mx.mma: the sums of R176 over the tile at the team's slot. -/
theorem mxMma_rows (h : AtIssue s i t) (hq : t.mxq = []) (hk : HasKey s i t) {f : TForm}
    (hu : Unpoisoned t f.km [(f.d, (arowSpan f.ty.code).1)])
    (htile : (s.core t.core).tilePoison f.ty ((s.core t.core).sparseAt f.ty t.wslot) false t.wslot
      (if f.ty = .f64 then 64 else 128) = none) :
    exec (.mxMma f) s = .next (settled (s.withTeam i fun _ =>
      Team.eachRow t (rowLanes t f.km) (multiplied (s.core t.core) f)) i false (rowFaults t f.km)) :=
  mxMul_rows h hq hk rfl hu htile (fun _ _ => mulRow_eq_multiplied) fun _ _ => multiplied_mxc

/-- mx.mmas: the same with scales, for the types it admits. -/
theorem mxMmas_rows (h : AtIssue s i t) (hq : t.mxq = []) (hk : HasKey s i t) {f : TForm} (hty : f.ty ≠ .f64)
    (hu : Unpoisoned t f.km [(f.d, (arowSpan f.ty.code).1), (f.a, 1)])
    (htile : (s.core t.core).tilePoison f.ty ((s.core t.core).sparseAt f.ty t.wslot) true t.wslot 128 = none) :
    exec (.mxMmas f) s = .next (settled (s.withTeam i fun _ =>
      Team.eachRow t (rowLanes t f.km) (multipliedScaled (s.core t.core) f)) i false (rowFaults t f.km)) :=
  mxMul_rows h hq hk rfl hu (by rwa [if_neg hty]) (fun _ _ => mulRow_eq_multipliedScaled hty) fun _ _ => multipliedScaled_mxc

/-- mx.dist: the squared differences of R177, from all 128 columns of the tile. -/
theorem mxDist_rows (h : AtIssue s i t) (hq : t.mxq = []) (hk : HasKey s i t) {f : TForm}
    (hu : Unpoisoned t f.km [(f.d, (arowSpan f.ty.code).1)])
    (htile : (s.core t.core).tilePoison f.ty false false t.wslot 128 = none) :
    exec (.mxDist f) s = .next (settled (s.withTeam i fun _ =>
      Team.eachRow t (rowLanes t f.km) (distanced (s.core t.core) f)) i false (rowFaults t f.km)) := by
  refine h.settles_rows (write := distRow (s.core t.core) f) rfl ?_ (fun _ _ => distRow_eq_distanced) fun _ _ => distanced_mxc
  refine (h.go_keyed hq hk _ _).trans ?_
  rw [Act.go_bind_ok h.go_tm, Act.go_bind_ok (Act.go_get s)]
  simp only [htile, mxLanes_eq hu]
  rfl

end Sys2Proof.Machine
end

section
/-! PROOF. O26 fails at FP64: mx.dist, which does not admit it, reads 128 columns there and not 64. -/

open Sys2Proof Sys2Proof.Machine Sys2Proof.Claims

namespace Sys2Proof.Claims

/-- Refutes O26: mx.dist under FP64, which only R69 keeps out, with the first byte of column 64 of the tile poisoned; the
statement looks at the first 64 columns, the model at all, so the lane traps with POISON. -/
theorem not_matrixProducts : ¬ Obligations.MatrixProducts := by
  unfold Obligations.MatrixProducts
  intro h
  let s : State := (withKey oneLane).withCore 0 fun c => { c with wpoison := [(96 * 64, 1)] }
  have hclean : oneLane.Clean := ⟨rfl, rfl⟩
  have hd := h (.mxDist, false, false, fun f => [(f.d, (arowSpan f.ty.code).1)], distanced) (by simp [products])
    ⟨.f64, 0, 0, .v 0, .v 0, .v 0, .v 0, 0⟩ s 0 oneLane ⟨rfl, rfl⟩ rfl rfl (fun l _ => hclean.firstPoison l _)
    (by decide +kernel)
  exact absurd (congrArg wordAfter hd) (by decide +kernel)

end Sys2Proof.Claims
end

section
/-! PROOF. mx.aload, mx.astore, mx.azero and mx.topk: columns to and from the rows of the lanes that have one (R178 to
R180). -/

open Sys2Proof Sys2Proof.Machine Sys2Proof.Claims

namespace Sys2Proof.Machine

variable {s : State} {i : Nat} {t : Team} {f : TForm} {ins : Instr}

/-! ## The column operand (R173, R179) -/

/-- mx.aload or mx.astore finds its first column: no lane is active, or the operand is uniform and the range in the row. -/
def ColumnOk (s : State) (t : Team) (f : TForm) : Prop :=
  t.lanesOf f.km.val = [] ∨ (Uniform t f.a ∧ (t.scalar (s.teamsOf t) f.a).toNat + (f.mod.toNat + 1) ≤ 128)

/-- A lane that has a row is active. -/
theorem lanesOf_ne_nil {km : Fin 16} {l : Nat} (hl : l ∈ rowLanes t km) : t.lanesOf km.val ≠ [] :=
  List.ne_nil_of_mem (List.mem_of_mem_filter hl)

/-- The column that is found is the operand's wherever a lane takes it. -/
theorem AtIssue.go_mxColumn (h : AtIssue s i t) (hc : ColumnOk s t f) :
    ∃ k, Act.go (mxColumn f) s = (.ok k, s) ∧ ∀ l ∈ rowLanes t f.km, k = (t.scalar (s.teamsOf t) f.a).toNat := by
  unfold mxColumn
  rw [Act.go_bind_ok h.go_tm]
  by_cases hl : t.lanesOf f.km.val = []
  · rw [hl]
    exact ⟨0, rfl, fun l hrow => absurd hl (lanesOf_ne_nil hrow)⟩
  · obtain ⟨hu, hrange⟩ := hc.resolve_left hl
    have hin : ¬ 128 < (t.scalar (s.teamsOf t) f.a).toNat + f.mod.toNat + 1 := by omega
    refine ⟨(t.scalar (s.teamsOf t) f.a).toNat, ?_, fun _ _ => rfl⟩
    simp only [List.isEmpty_iff, hl, if_false, hu.2]
    rw [Act.go_bind_ok (go_sread h hu.1), if_neg hin]
    rfl

/-- A range that goes past the last column is a uniform fault. -/
theorem AtIssue.go_mxColumn_past (h : AtIssue s i t) (hl : t.lanesOf f.km.val ≠ []) (hu : Uniform t f.a)
    (hpast : 128 < (t.scalar (s.teamsOf t) f.a).toNat + (f.mod.toNat + 1)) :
    Act.go (mxColumn f) s = (.error (.trap [{ t.record .accum 2 with
      ea := t.scalar (s.teamsOf t) f.a, lane := (t.lanesOf f.km.val).headD 0 }]), s) := by
  unfold mxColumn
  rw [Act.go_bind_ok h.go_tm]
  simp only [List.isEmpty_iff, hl, if_false, hu.2]
  rw [Act.go_bind_ok (go_sread h hu.1), if_pos (by omega), Act.go_bind, h.go_mxFail]

/-- A poisoned S operand stops every active lane, with ACCUM where it has no row. -/
theorem AtIssue.go_mxColumn_poisoned (h : AtIssue s i t) {k : Fin 64} (ha : f.a = .s k) (hp : t.poisonS k ≠ 0)
    (hl : t.lanesOf f.km.val ≠ []) :
    Act.go (mxColumn f) s = (.error (.trap ((t.lanesOf f.km.val).map fun l =>
      if t.accrows ≤ t.rowOf l then { t.laneRec l .accum 1 with ea := BitVec.ofNat 64 (t.rowOf l) }
      else t.poisonRec l f.a (t.poisonS k))), s) := by
  have hpoison (l : Nat) : t.lpoison l 1 f.a = some (f.a, t.poisonS k) := by rw [ha]; exact if_neg hp
  unfold mxColumn
  rw [Act.go_bind_ok h.go_tm]
  simp only [List.isEmpty_iff, hl, if_false, hpoison, Act.go_throw, mxLanes]
  refine congrArg (fun rs => (Except.error (Stop.trap rs), s)) ?_
  rw [← List.filterMap_eq_map]
  refine List.filterMap_congr fun l _ => ?_
  simp only [Team.firstPoison, List.findSome?_cons, hpoison, Function.comp_apply]
  split <;> rfl

/-! ## Columns into rows -/

theorem mxAload_rows (h : AtIssue s i t) (hq : t.mxq = []) (hk : HasKey s i t) (hc : ColumnOk s t f)
    (hu : Unpoisoned t f.km [(f.d, f.mod.toNat + 1)]) :
    exec (.mxAload f) s = .next (settled (s.withTeam i fun _ => Team.eachRow t (rowLanes t f.km) fun u l =>
      u.setCols (u.rowOf l) (t.scalar (s.teamsOf t) f.a).toNat
        ((List.range (f.mod.toNat + 1)).map fun k => u.getV l (vNum f.d + k))) i false (rowFaults t f.km)) := by
  obtain ⟨k, hcol, hsame⟩ := h.go_mxColumn hc
  have hrows := List.foldl_ext (fun (u : Team) l => u.setCols (u.rowOf l) k _) (fun (u : Team) l => u.setCols (u.rowOf l) _
    ((List.range (f.mod.toNat + 1)).map fun k => u.getV l (vNum f.d + k))) t fun u l hl => by rw [hsame l hl]
  rw [Team.eachRow, ← hrows]
  refine h.settles (g := fun u => (rowLanes t f.km).foldl _ u) rfl ?_
  refine (h.go_keyed hq hk _ _).trans ?_
  rw [Act.go_bind_ok hcol, Act.go_bind_ok h.go_tm]
  simp only [mxLanes_eq hu]
  rfl

theorem mxAzero_rows (h : AtIssue s i t) (hq : t.mxq = []) (hk : HasKey s i t) :
    exec (.mxAzero f) s = .next (settled (s.withTeam i fun _ => Team.eachRow t (rowLanes t f.km) fun u l =>
      u.setCols (u.rowOf l) 0 (List.replicate 128 0)) i false (rowFaults t f.km)) := by
  refine h.settles (g := fun u => Team.eachRow u (rowLanes t f.km) _) rfl ?_
  refine (h.go_keyed hq hk _ _).trans ?_
  rw [Act.go_bind_ok h.go_tm]
  simp only [mxLanes_eq (unpoisoned_nil t f.km)]
  rfl

/-! ## Columns out of rows -/

theorem mxAstore_delivers (h : AtIssue s i t) (hq : t.mxq = []) (hk : HasKey s i t) (hc : ColumnOk s t f) :
    exec (.mxAstore f) s = .next (settled (s.delivered i t f.la ((rowLanes t f.km).flatMap fun l =>
      columnResults t l (t.scalar (s.teamsOf t) f.a).toNat (vNum f.d) (f.mod.toNat + 1)) 0 0 (rowFaults t f.km)) i
        (f.la != 0) (rowFaults t f.km)) := by
  obtain ⟨k, hcol, hsame⟩ := h.go_mxColumn hc
  refine h.settles_delivery rfl ?_
  refine (h.go_keyed hq hk _ _).trans ?_
  rw [Act.go_bind_ok hcol, Act.go_bind_ok h.go_tm]
  simp only [mxLanes_eq (unpoisoned_nil t f.km)]
  refine congrArg (fun out => Act.go (deliverResults f.la out 0 0 _) s) (List.flatMap_congr fun l hl => ?_)
  rw [hsame l hl]
  rfl

/-- The columns that mx.topk takes from a lane's row (R178). -/
def bestColumns (t : Team) (f : TForm) (l : Nat) : List Nat :=
  (sortBy (ranksBefore (f.mod.getLsbD 4) fun j => t.getAcc (t.rowOf l) j) (List.range 128)).take (f.mod.toNat % 16 + 1)

/-- mx.topk gives the ranked indices, and with VAL the values behind them. -/
theorem mxTopk_delivers (h : AtIssue s i t) (hq : t.mxq = []) (hk : HasKey s i t) :
    let m := f.mod.toNat % 16 + 1
    exec (.mxTopk f) s = .next (settled (s.delivered i t f.la ((rowLanes t f.km).flatMap fun l =>
      let ranked := (List.range m).zip (bestColumns t f l)
      (ranked.map fun p => (⟨.v l (vNum f.d + p.1), BitVec.ofNat 64 p.2, 0⟩ : Result)) ++
        if f.mod.getLsbD 5 then
          ranked.map fun p => (⟨.v l (vNum f.d + (m + p.1)), (t.getAcc (t.rowOf l) p.2).setWidth 64, 0⟩ : Result)
        else []) 0 0 (rowFaults t f.km)) i (f.la != 0) (rowFaults t f.km)) := by
  intro m
  refine h.settles_delivery rfl ?_
  refine (h.go_keyed hq hk _ _).trans ?_
  rw [Act.go_bind_ok h.go_tm]
  simp only [mxLanes_eq (unpoisoned_nil t f.km)]
  refine congrArg (fun out => Act.go (deliverResults f.la out 0 0 _) s) (List.flatMap_congr fun l hl => ?_)
  simp only [← Nat.add_assoc]
  cases f.mod.getLsbD 5
  · exact (List.append_nil _).symm
  · rfl

/-! ## The column operand stops mx.aload and mx.astore alike -/

/-- Whatever stops the column operand stops the instruction. -/
theorem AtIssue.column_traps (h : AtIssue s i t) (hq : t.mxq = []) (hk : HasKey s i t) {rs : List Rec}
    (hc : Act.go (mxColumn f) s = (.error (.trap rs), s)) :
    ∀ ins ∈ [(.mxAload : TForm → Instr), .mxAstore], Traps (ins f) s i rs := by
  have stops (rest : Nat → Act Unit) :
      Act.go (mxDirect (needKey f.km.val >>= fun _ => mxColumn f >>= rest)) s = (.error (.trap rs), s) := by
    rw [h.go_keyed hq hk, Act.go_bind, hc]
  simp only [List.forall_mem_cons]
  refine ⟨?aload, ?astore, by simp⟩
  all_goals exact h.traps rfl (stops _)

end Sys2Proof.Machine
end

section
/-! PROOF. mx.wload: its acceptance with the keys of its bytes, and the bytes that become resident (R175, R188). -/

open Sys2Proof Sys2Proof.Machine Sys2Proof.Claims

namespace Sys2Proof.Machine

/-! ## The team at issue stays at issue while addresses are translated (R336, R345) -/

@[simp] theorem State.tag_cur (s : State) (key n asid : Nat) : (s.tag key n asid).cur = s.cur := by
  unfold State.tag
  split
  · refine State.foldl_keeps (g := State.cur) ?_ _ s
    intros
    rfl
  · rfl

@[simp] theorem State.cover_cur (s : State) (group key n : Nat) : (s.cover group key n).cur = s.cur := by
  unfold State.cover
  split
  · refine State.foldl_keeps (g := State.cur) (fun s p => ?_) _ s
    dsimp only
    split
    · split
      · rfl
      · split <;> rfl
    · rfl
  · rfl

@[simp] theorem State.answer_cur (s : State) (m : MortarOp) (v poison : Nat) : (s.answer m v poison).cur = s.cur := by
  unfold State.answer
  dsimp only
  split <;> rfl

@[simp] theorem State.applyEntry_cur (s : State) (m : MortarOp) : (s.applyEntry m).cur = s.cur := by
  unfold State.applyEntry
  split <;> simp

@[simp] theorem State.drainOver_cur (s : State) (key n : Nat) : (s.drainOver key n).cur = s.cur := by
  unfold State.drainOver
  dsimp only
  split
  · exact State.foldl_keeps (g := State.cur) State.applyEntry_cur _ _
  · rfl

@[simp] theorem State.store_cur (s : State) (key : Nat) (bs : List Byte) (asid group : Nat) :
    (s.store key bs asid group).cur = s.cur := by
  simp [State.store, State.storeKept]

@[simp] theorem State.keep_cur (s : State) (h : Holder) (e : Tlb) (walked : Bool) : (s.keep h e walked).cur = s.cur := by
  cases h <;> cases walked <;> rfl

/-- An action after which the same team is at issue, however it ends. -/
def Act.KeepsCur {α : Type} (m : Act α) : Prop := ∀ s : State, (Act.go m s).2.cur = s.cur

theorem Act.KeepsCur.pure {α : Type} (a : α) : Act.KeepsCur (pure a) := fun _ => rfl
theorem Act.KeepsCur.throw {α : Type} (e : Stop) : Act.KeepsCur (throw e : Act α) := fun _ => rfl
theorem Act.KeepsCur.get : Act.KeepsCur get := fun _ => rfl
theorem Act.KeepsCur.tm : Act.KeepsCur tm := fun _ => rfl
theorem Act.KeepsCur.me : Act.KeepsCur me := fun _ => rfl
theorem Act.KeepsCur.modify {f : State → State} (h : ∀ s : State, (f s).cur = s.cur) : Act.KeepsCur (modify f) := h

theorem Act.KeepsCur.ite {α : Type} {c : Prop} [Decidable c] {m n : Act α} (hm : Act.KeepsCur m) (hn : Act.KeepsCur n) :
    Act.KeepsCur (if c then m else n) := by
  split
  · exact hm
  · exact hn

theorem Act.KeepsCur.bind {α β : Type} {m : Act α} {f : α → Act β} (hm : Act.KeepsCur m) (hf : ∀ a, Act.KeepsCur (f a)) :
    Act.KeepsCur (m >>= f) := by
  intro s
  have h := hm s
  rw [Act.go_bind]
  split
  next a s' hg =>
    rw [hg] at h
    exact (hf a s').trans h
  next e s' hg =>
    rw [hg] at h
    exact h

theorem Act.KeepsCur.mapM {α β : Type} {f : α → Act β} (h : ∀ a, Act.KeepsCur (f a)) (l : List α) : Act.KeepsCur (l.mapM f) := by
  induction l with
  | nil => exact .pure _
  | cons a l ih =>
    rw [List.mapM_cons]
    exact (h a).bind fun _ => ih.bind fun _ => .pure _

theorem keepsCur_readEntry (addr : Nat) : Act.KeepsCur (readEntry addr) :=
  .bind .get fun _ => .bind (.bind (.bind (.modify fun s => s.drainOver_cur _ _) fun _ => .bind .get fun _ => .pure _)
    fun _ => .pure _) fun _ => .pure _

theorem keepsCur_walkTo (va : Nat) (levels : List Nat) (table : Nat) : Act.KeepsCur (walkTo va levels table) := by
  induction levels generalizing table with
  | nil => exact .pure _
  | cons level rest ih =>
    exact .bind (keepsCur_readEntry _) fun p => .ite (.pure _) (.ite (.pure _) (.ite (.pure _) (ih _)))

theorem keepsCur_walk (asid va u g : Nat) (need : Need) : Act.KeepsCur (walk asid va u g need) := by
  refine .bind .get fun s => .bind (keepsCur_walkTo _ _ _) fun r => ?_
  match r with
  | .error e => exact .pure _
  | .ok (level, lo, hi, at_) =>
    refine .ite (.pure _) (.ite (.pure _) (.ite
      (.bind (.mapM (fun i => keepsCur_readEntry _) _) fun _ => .bind (.pure _) fun good => ?_) (.bind (.pure _) fun good => ?_)))
    all_goals
      refine .ite (.pure _) (.ite (.pure _) (.ite (.pure _) (.ite (.pure _) ?_)))
      dsimp only
      split <;> exact .pure _

theorem keepsCur_translate (h : Holder) (asid u g : Nat) (va : Word) (need : Need) :
    Act.KeepsCur (translate h asid u g va need) := by
  have keeps (e : Tlb) (walked : Bool) : Act.KeepsCur (modify fun (s : State) => s.keep h e walked) :=
    .modify fun s => s.keep_cur _ _ _
  refine .ite (.pure _) (.bind (.bind .get fun s => ?leaf) fun r => ?_)
  case leaf =>
    split
    · exact .bind (keeps _ _) fun _ => .pure _
    · refine .bind (keepsCur_walk _ _ _ _ _) fun r => ?_
      split
      · exact .pure _
      · exact .bind (keeps _ _) fun _ => .pure _
  split
  · exact .bind .get fun _ => .pure _
  · exact .pure _

theorem keepsCur_postRequest (asid u g : Nat) (va : Word) (c : Cause) (detail access : Nat) :
    Act.KeepsCur (postRequest asid u g va c detail access) := by
  intro s
  unfold postRequest
  rw [Act.go_bind_ok (Act.go_get s)]
  dsimp only
  split
  · rfl
  · split
    · rfl
    · exact (State.store_cur _ _ _ _ _).trans (State.store_cur _ _ _ _ _)

theorem keepsCur_reach (h : Holder) (va : Word) (need : Need) (access : Nat) (ordered logged : Bool) :
    Act.KeepsCur (reach h va need access ordered logged) := by
  refine .bind .tm fun t => .bind .me fun i => .bind .get fun s => .ite (.pure _) (.ite (.ite ?inLog (.pure _)) ?found)
  case inLog => split <;> exact .pure _
  case found =>
    dsimp only
    split
    · exact .pure _
    · refine .bind (keepsCur_translate _ _ _ _ _ _) fun r => ?_
      split
      case h_4 => exact .bind (keepsCur_postRequest _ _ _ _ _ _ _) fun rid => .ite (.pure _) (.pure _)
      all_goals exact .pure _

/-- The keys of a range are found so (R175). -/
theorem keepsCur_reachRange (need : Need) (access : Nat) (a : Word) (n lane : Nat) :
    Act.KeepsCur (reachRange need access a n lane) := by
  refine .bind .tm fun t => .mapM (fun p => .bind (keepsCur_reach _ _ _ _ _ _) fun r => ?_) _
  cases r with
  | key | log => exact .pure _
  | trap | wait => exact .throw _

/-! ## Acceptance (R175) -/

variable {s s2 : State} {i : Nat} {t : Team} {f : TForm}

/-- The runs of a request: each piece of its bytes with its key and its offset in the buffer. -/
def wloadRuns (start : Nat) (ks : List (Nat × Nat)) : List (Nat × Nat × Nat) :=
  (List.range ks.length).map fun k =>
    ((ks.getD k (0, 0)).1, start + ((ks.take k).map (·.2)).sum, (ks.getD k (0, 0)).2)

theorem wloadRuns_cons (start : Nat) (k : Nat × Nat) (ks : List (Nat × Nat)) :
    wloadRuns start (k :: ks) = (k.1, start, k.2) :: wloadRuns (start + k.2) ks := by
  simp [wloadRuns, List.range_succ_eq_map, Function.comp_def, Nat.add_assoc]

/-- Offsets that are counted up piece by piece are those of the runs. -/
theorem foldl_offsets (ks : List (Nat × Nat)) (start : Nat) (acc : List (Nat × Nat × Nat)) :
    (ks.foldl (fun (p : Nat × List (Nat × Nat × Nat)) k => (p.1 + k.2, p.2 ++ [(k.1, p.1, k.2)])) (start, acc)).2 =
      acc ++ wloadRuns start ks := by
  induction ks generalizing start acc with
  | nil => simp [wloadRuns]
  | cons k ks ih => rw [List.foldl_cons, ih, wloadRuns_cons, List.append_assoc, List.singleton_append]

/-- mx.wload from a 128-byte address whose bytes are all reached is accepted: its slots' sparse tags change, and the core
has a request with the runs of its bytes. -/
theorem mxWload_accepted (h : AtIssue s i t) (hq : t.mxq = []) (hk : HasKey s i t) (ha : Uniform t f.a) (hd : Uniform t f.d)
    {ks : List (Nat × Nat)} (halign : (t.scalar (s.teamsOf t) f.a).toNat % 128 = 0)
    (hr : Act.go (reachRange { r := true } accRead (t.scalar (s.teamsOf t) f.a) (wloadBytes f) ((t.lanesOf 0).headD 0)) s =
      (.ok ks, s2)) :
    let start := 4096 * ((t.scalar (s.teamsOf t) f.d).toNat % 96)
    let slots := (List.range ((wloadBytes f + 4095) / 4096)).map fun k => (start / 4096 + k) % 96
    CompletesAs (.mxWload f) s i ({ s2 with serial := s2.serial + 1 }.withCore t.core fun c =>
      { c with
        tags := slots.foldl (fun m k => SMap.set false m k (f.mod.toNat % 4 == 1)) c.tags
        wloads := c.wloads ++ [Wload.mk s2.serial i (wloadRuns start ks) (counterOf f.b)] }) := by
  intro start slots
  have hcur : s2.cur.getD 0 = i := by
    have hkeeps := keepsCur_reachRange { r := true } accRead (t.scalar (s.teamsOf t) f.a) (wloadBytes f) ((t.lanesOf 0).headD 0) s
    rw [hr] at hkeeps
    rw [hkeeps, h.cur]
  refine runCore_ok h.1 h.2 ((h.go_keyed hq hk 0 _).trans ?_)
  rw [Act.go_bind_ok (h.go_mxRead 0 hd), Act.go_bind_ok (h.go_mxRead 0 ha)]
  simp only [halign, bne_self_eq_false, Bool.false_eq_true, if_false]
  rw [Act.go_bind_ok h.go_tm, Act.go_bind_ok hr, Act.go_bind_ok (Act.go_fresh s2), Act.go_bind_ok (Act.go_me _), Act.go_modify]
  simp only [foldl_offsets, List.nil_append, hcur]
  rfl

/-! ## Residency (R175, R188) -/

/-- A piece of the first run leaves the rest of it, and the runs behind it. -/
theorem cutRun_first (key off size n : Nat) (rest : List (Nat × Nat × Nat)) (hn : n ≤ size) :
    cutRun ((key, off, size) :: rest) 0 n = if n = size then rest else (key + n, off + n, size - n) :: rest := by
  have hbehind : (((List.range rest.length).map Nat.succ).zip rest).flatMap (fun r =>
      if r.1 = 0 then (if r.2.2.2 ≤ n then [] else [(r.2.1 + n, r.2.2.1 + n, r.2.2.2 - n)]) else [r.2]) = rest := by
    trans (((List.range rest.length).map Nat.succ).zip rest).flatMap fun r => [r.2]
    · refine List.flatMap_congr fun r hr => ?_
      obtain ⟨k, -, hk⟩ := List.mem_map.mp (List.of_mem_zip hr).1
      exact if_neg (by omega)
    · rw [← List.map_eq_flatMap, List.map_snd_zip (by simp)]
  rw [cutRun, List.length_cons, List.range_succ_eq_map, List.zip_cons_cons, List.flatMap_cons, hbehind]
  by_cases e : n = size
  · simp [e]
  · have hlt : ¬ size ≤ n := by omega
    simp [e, hlt]

/-- Bytes cut out of those that were read. -/
theorem readBytes_drop_take (mem : List Host.Cell) (a : Nat) {d n m : Nat} (h : d + n ≤ m) :
    ((readBytes mem a m).drop d).take n = readBytes mem (a + d) n := by
  refine List.ext_getElem (by simp [readBytes]; omega) fun k _ _ => ?_
  simp [readBytes, Nat.add_assoc]

theorem State.drainOver_of_empty (hm : s.mortar = []) (key n : Nat) : s.drainOver key n = s := by
  simp [State.drainOver, hm]

/-- A team's read where no Mortar entry is pending, and of a deterministic team no effect: memory as it stands. Its poison
is that of the aligned word in which the bytes begin. -/
theorem go_ownRead {before key n : Nat} (hm : s.mortar = []) (he : s.detOf (s.team i) = true → s.ownEffects i = []) :
    Act.go (ownRead i before key n) s = (.ok (readBytes s.mem key n, s.poisonAt (key / 8 * 8)), s) := by
  have hslice (k m : Nat) : Act.go (readSlice k m) s = (.ok (readBytes s.mem k m, s.poisonAt k), s) := by
    unfold readSlice
    rw [Act.go_bind_ok (Act.go_modify _ s), s.drainOver_of_empty hm]
    rfl
  have hown (bs : List Byte) : (if s.detOf (s.team i) then s.ownOver i before (key / 8 * 8) bs else bs) = bs := by
    split
    next hdet => rw [State.ownOver, if_pos hdet, he hdet]; rfl
    next => rfl
  have hbytes := readBytes_drop_take s.mem (key / 8 * 8) (d := key - key / 8 * 8) (n := n)
    (m := (key + n + 7) / 8 * 8 - key / 8 * 8) (by omega)
  unfold ownRead
  dsimp only
  rw [Act.go_bind_ok (hslice _ _), Act.go_bind_ok (Act.go_get s)]
  simp only [hown, hbytes, Act.go_pure, show key / 8 * 8 + (key - key / 8 * 8) = key by omega]

/-- Device memory is poisoned by the burst, and an expander as a whole; so a byte has the poison of its word. -/
theorem State.poisonAt_word (s : State) {key : Nat} (hk : key < 2 ^ 56) : s.poisonAt (key / 8 * 8) = s.poisonAt key := by
  have hdram : isDram (key / 8 * 8) = isDram key := by simp only [isDram, decide_eq_decide]; omega
  have hburst : key / 8 * 8 / 64 = key / 64 := by omega
  have hexp : expanderOf (key / 8 * 8) = expanderOf key := by
    have hin : (2 ^ 44 ≤ key / 8 * 8 ∧ key / 8 * 8 < 2 ^ 44 + 2 ^ 43) ↔ (2 ^ 44 ≤ key ∧ key < 2 ^ 44 + 2 ^ 43) := by omega
    have hnum : (key / 8 * 8 - 2 ^ 44) / 2 ^ 40 = (key - 2 ^ 44) / 2 ^ 40 := by omega
    simp only [expanderOf, Bool.and_eq_true, decide_eq_true_eq, hin, hnum]
  have hhost : hostOf key = none ∧ hostOf (key / 8 * 8) = none := by
    unfold hostOf
    exact ⟨if_neg (by omega), if_neg (by omega)⟩
  simp only [State.poisonAt, hdram, hburst, hexp, hhost]

/-- The team of a request stays where it is as bytes land. -/
theorem State.find_landWeights {w : Wload} {u : Team} (s : State) (hu : SMap.find s.teams w.team = some u) (first off : Nat)
    (bs : List Byte) (p : Nat) :
    ∃ v, SMap.find (s.landWeights w first off bs p).teams w.team = some v ∧ v.place = u.place := by
  refine ⟨_, State.find_withTeam _ hu, ?_⟩
  dsimp only
  split <;> rfl

/-- The bytes of a request's first run land in every buffer that it fills, up to the end of their burst, and with the last
byte the counter of its team gains one. -/
theorem wloadResident_lands {core count key off size n : Nat} {w : Wload} {rest : List (Nat × Nat × Nat)} {u : Team}
    (hw : (s.core core).wloads.find? (·.ident == w.ident) = some w) (hruns : w.runs = (key, off, size) :: rest)
    (hn : min count (min size (64 - key % 64)) = n)
    (hclear : ((s.core core).wloads.any fun v => v.ident < w.ident && (v.meets w || v.reads w.team key n)) = false)
    (hcount : 0 < count) (hsize : 0 < size) (hm : s.mortar = []) (hp : s.poisonAt (key / 8 * 8) = 0)
    (hu : SMap.find s.teams w.team = some u) (hplace : u.place ≠ .ended) (hdet : s.detOf u = true → s.ownEffects w.team = []) :
    let left := if n = size then rest else (key + n, off + n, size - n) :: rest
    exec (.wloadResident core w.ident 0 count) s =
      .next ((s.landWeights w 0 off (readBytes s.mem key n) 0).withTeam w.team fun t =>
        if left = [] then t.bumpA w.counter else t) := by
  intro left
  have hpos : n ≠ 0 := by omega
  have hread := go_ownRead (before := w.ident) (key := key) (n := n) hm (i := w.team) (by rwa [State.team_of_find hu])
  have hcut : cutRun w.runs 0 n = left := by rw [hruns, cutRun_first _ _ _ _ _ (by omega)]
  show Host.Outcome.next (wloadPlaces core w.ident 0 count s) = _
  unfold wloadPlaces
  have hfirst : w.runs[0]? = some (key, off, size) := by rw [hruns]; rfl
  simp only [hw, hfirst, hn]
  rw [if_neg (by simp only [hclear, Bool.or_false, decide_eq_true_eq]; exact hpos)]
  simp only [hread, hp, if_true, hcut]
  obtain ⟨v, hv, hresident⟩ := s.find_landWeights (w := w) hu 0 off (readBytes s.mem key n) 0
  refine congrArg Host.Outcome.next (State.withTeam_congr hv ?_)
  simp [hresident, hplace]

end Sys2Proof.Machine
end

section
/-! PROOF. O27 and O29 fail as O25 does: a poisoned V register counts as readable. -/

open Sys2Proof Sys2Proof.Machine Sys2Proof.Claims

namespace Sys2Proof.Claims

/-- Refutes O27: mx.astore whose column operand A names a V register, which only R69 keeps out, uses the poison of lane 0's
and traps; the statement has it complete, as V registers count as readable. -/
theorem not_accumulatorForms : ¬ Obligations.AccumulatorForms := by
  unfold Obligations.AccumulatorForms
  intro h
  obtain ⟨hcolumns, -⟩ := h ⟨.f32, 0, 0, .v 1, .v 0, .v 0, .v 0, 0⟩ (withKey poisonedTeam) 0 poisonedTeam ⟨rfl, rfl⟩
    rfl rfl
  obtain ⟨-, hstore⟩ := hcolumns (.inr ⟨trivial, by decide⟩)
  exact absurd (congrArg wordAfter hstore) (by decide +kernel)

/-- Refutes O29: mx.wload of 4,096 bytes whose address operand A names a V register, which only R69 keeps out. All its bytes
are reached at address 0, but the poison of lane 0's register is used and it traps. -/
theorem not_weightLoads : ¬ Obligations.WeightLoads := by
  unfold Obligations.WeightLoads
  rintro ⟨haccepted, -⟩
  let s : State := (withKey poisonedTeam).withCore 0 fun c => { c with tlb := [⟨0, 0, 65536, 0, 0, true, true, true, 0, 1⟩] }
  have hw := haccepted ⟨.e4m3, 0, 0, .zero, .v 0, .a 0, .v 0, 2⟩ s 0 poisonedTeam [(0, 4096)] _ ⟨rfl, rfl⟩ rfl rfl
    trivial trivial (by decide) (Prod.ext (by decide +kernel) rfl)
  exact absurd (congrArg wordAfter hw) (by decide +kernel)

end Sys2Proof.Claims
end
section
/-! PROOF. The canonical form of memory (O59), its rules: for states, for the actions of teams and the commands of
units. An action keeps the form where each of its parts does; a function of states that reaches no write leaves memory
as it is. The sections after this one say it of each function of the model, in the model's order. -/

namespace Sys2Proof.Machine

open Sys2Proof

set_option Elab.async false

variable {ε α β γ : Type}

/-! ## States -/

@[simp] theorem State.mem_ite {c : Prop} [Decidable c] (s s' : State) :
    (if c then s else s').mem = if c then s.mem else s'.mem := by split <;> rfl

@[simp] theorem ite_wf {c : Prop} [Decidable c] {m m' : List Host.Cell} (h : Memory.wf m = true)
    (h' : Memory.wf m' = true) :
    Memory.wf (if c then m else m') = true := by split <;> assumption

@[simp] theorem applyEntry_wf {s : State} (m : MortarOp) (hs : Memory.wf s.mem = true) :
    Memory.wf (s.applyEntry m).mem = true := s.applyEntry_wf m hs

@[simp] theorem drainOver_wf {s : State} (key n : Nat) (hs : Memory.wf s.mem = true) :
    Memory.wf (s.drainOver key n).mem = true := s.drainOver_wf key n hs

@[simp] theorem storeKept_wf {s : State} (key : Nat) (bs : List Byte) (asid : Nat) (hs : Memory.wf s.mem = true) :
    Memory.wf (s.storeKept key bs asid).mem = true := s.storeKept_wf key bs asid hs

@[simp] theorem store_wf {s : State} (key : Nat) (bs : List Byte) (asid group : Nat) (hs : Memory.wf s.mem = true) :
    Memory.wf (s.store key bs asid group).mem = true := s.store_wf key bs asid group hs

@[simp] theorem storePoisoned_wf {s : State} (key : Nat) (bs : List Byte) (asid : Nat) (hs : Memory.wf s.mem = true) :
    Memory.wf (s.storePoisoned key bs asid).mem = true := s.storePoisoned_wf key bs asid hs

@[simp] theorem drainEntry_wf {s : State} (i : Nat) (m : MortarOp) (hs : Memory.wf s.mem = true) :
    Memory.wf (s.drainEntry i m).mem = true := s.drainEntry_wf i m hs

@[simp] theorem makeRoom_wf {s : State} (key : Nat) (hs : Memory.wf s.mem = true) :
    Memory.wf (s.makeRoom key).mem = true := s.makeRoom_wf key hs

@[simp] theorem State.settleFloor_wf {s : State} (asid t : Nat) (hs : Memory.wf s.mem = true) :
    Memory.wf (s.settleFloor asid t).mem = true := by
  unfold State.settleFloor
  dsimp only
  repeat' split
  all_goals simp [hs]

theorem State.takeEntry_mem {s s' : State} {core : Option Nat} {asid loc : Nat} {st : Stamp}
    (e : s.takeEntry core asid loc st = some s') : s'.mem = s.mem := by
  unfold State.takeEntry at e
  dsimp only at e
  split at e
  · cases e; rfl
  · split at e
    · cases e; rfl
    · cases e

theorem State.addCount_wf {s s' : State} {core : Option Nat} {asid t loc : Nat} {st : Stamp} {n : Nat}
    (e : s.addCount core asid t loc st n = some s') (hs : Memory.wf s.mem = true) : Memory.wf s'.mem = true := by
  unfold State.addCount at e
  split at e
  · cases e
  · rename_i s1 h1
    cases e
    exact State.settleFloor_wf _ _ (by simpa [State.takeEntry_mem h1] using hs)

/-- A run of partial steps that has failed stays so. -/
theorem foldl_bind_none (f : α → β → Option β) (l : List α) :
    l.foldl (fun o a => o.bind (f a)) none = none := by
  induction l with
  | nil => rfl
  | cons a l ih => exact ih

/-- A run of partial steps, each of which keeps the form of memory, keeps it. -/
theorem foldl_bind_wf {f : α → State → Option State}
    (h : ∀ s s' a, f a s = some s' → Memory.wf s.mem = true → Memory.wf s'.mem = true) {l : List α}
    {s s' : State} (e : l.foldl (fun o a => o.bind (f a)) (some s) = some s') (hs : Memory.wf s.mem = true) :
    Memory.wf s'.mem = true := by
  induction l generalizing s with
  | nil =>
    cases e
    exact hs
  | cons a l ih =>
    rw [List.foldl_cons, Option.bind_some] at e
    cases ha : f a s with
    | none =>
      rw [ha, foldl_bind_none] at e
      cases e
    | some s1 =>
      rw [ha] at e
      exact ih e (h s s1 a ha hs)

theorem State.countPairs_wf {s s' : State} {core asid t : Nat} {ps : List Hold}
    (e : s.countPairs core asid t ps = some s') (hs : Memory.wf s.mem = true) : Memory.wf s'.mem = true :=
  foldl_bind_wf (fun _ _ _ e hs => State.addCount_wf e hs) e hs

theorem getD_wf {o : Option State} {s : State} (ho : ∀ s', o = some s' → Memory.wf s'.mem = true)
    (hs : Memory.wf s.mem = true) :
    Memory.wf (o.getD s).mem = true := by
  cases o with
  | none => exact hs
  | some s' => exact ho s' rfl

/-- A fold that carries a state beside something else keeps its memory's form where each step does. -/
theorem foldl_snd_wf {f : β × State → α → β × State}
    (h : ∀ x a, Memory.wf x.2.mem = true → Memory.wf (f x a).2.mem = true) (l : List α) {x : β × State}
    (hx : Memory.wf x.2.mem = true) : Memory.wf (l.foldl f x).2.mem = true := by
  induction l generalizing x with
  | nil => exact hx
  | cons a l ih => exact ih (h x a hx)

/-- The form by parts: a written state takes its writer's lemma, a fold that of its step, a branch both its arms. -/
theorem wfByParts {m : List Host.Cell} (h : Memory.wf m = true := by
    repeat' first
      | with_reducible assumption
      | intro _
      | with_reducible apply foldl_wf
      | with_reducible apply foldl_snd_wf
      | (simp +contextual [*, foldl_mem, foldl_wf]; done)
      | with_reducible exact State.addCount_wf ‹_› ‹_›
      | with_reducible exact State.countPairs_wf ‹_› ‹_›
      | split
      | dsimp only) : Memory.wf m = true := h

/-- What writes no memory, by parts: through folds and branches down to the functions it calls. -/
theorem memByParts {m m' : List Host.Cell} (h : m = m' := by
    repeat' first
      | intro _
      | (simp [foldl_mem]; done)
      | with_reducible refine (foldl_mem ?_ _ _).trans ?_
      | split
      | dsimp only) : m = m' := h

/-- An action keeps the form of memory, however it ends. -/
structure Keeps (m : ExceptT ε (StateM State) α) : Prop where
  run : ∀ s : State, Memory.wf s.mem = true → Memory.wf (StateT.run (ExceptT.run m) s).2.mem = true

theorem Keeps.go {m : Act α} (h : Keeps m) {s : State} (hs : Memory.wf s.mem = true) :
    Memory.wf (Act.go m s).2.mem = true :=
  h.run s hs

@[simp] theorem Keeps.pure (a : α) : Keeps (Pure.pure a : ExceptT ε (StateM State) α) := ⟨fun _ h => h⟩

@[simp] theorem Keeps.throw (e : ε) : Keeps (MonadExcept.throw e : ExceptT ε (StateM State) α) := ⟨fun _ h => h⟩

theorem Keeps.bind {m : ExceptT ε (StateM State) α} {f : α → ExceptT ε (StateM State) β} (hm : Keeps m)
    (hf : ∀ a, Keeps (f a)) : Keeps (m >>= f) := by
  constructor
  intro s h
  have hm := hm.run s h
  simp only [ExceptT.run, StateT.run, Bind.bind, ExceptT.bind, ExceptT.mk, StateT.bind] at hm ⊢
  generalize (show StateM State _ from m) s = x at hm ⊢
  obtain ⟨r, s'⟩ := x
  cases r with
  | ok a => exact (hf a).run s' hm
  | error e => exact hm

theorem Keeps.getBind {f : State → ExceptT ε (StateM State) β}
    (hf : ∀ s : State, Memory.wf s.mem = true → Keeps (f s)) :
    Keeps (MonadState.get >>= f) := ⟨fun s h => (hf s h).run s h⟩

@[simp] theorem Keeps.get : Keeps (MonadState.get : ExceptT ε (StateM State) State) := ⟨fun _ h => h⟩

theorem Keeps.set {s' : State} (h : Memory.wf s'.mem = true) :
    Keeps (MonadStateOf.set s' : ExceptT ε (StateM State) PUnit) := ⟨fun _ _ => h⟩

theorem keeps_modify {f : State → State} (hf : ∀ s : State, Memory.wf s.mem = true → Memory.wf (f s).mem = true) :
    Keeps (modify f : ExceptT ε (StateM State) PUnit) := ⟨hf⟩

theorem Keeps.mapM {f : α → ExceptT ε (StateM State) β} (hf : ∀ a, Keeps (f a)) (l : List α) :
    Keeps (l.mapM f) := by
  induction l with
  | nil => simp
  | cons a l ih =>
    rw [List.mapM_cons]
    exact .bind (hf a) fun b => .bind ih fun bs => .pure _

theorem Keeps.forM {f : α → ExceptT ε (StateM State) PUnit} (hf : ∀ a, Keeps (f a)) (l : List α) :
    Keeps (l.forM f) := by
  induction l with
  | nil => exact .pure _
  | cons a l ih => exact .bind (hf a) fun _ => ih

theorem Keeps.map {f : α → β} {m : ExceptT ε (StateM State) α} (hm : Keeps m) : Keeps (f <$> m) := by
  rw [map_eq_pure_bind]
  exact .bind hm fun _ => .pure _

theorem Keeps.tryCatch {m : ExceptT ε (StateM State) α} {h : ε → ExceptT ε (StateM State) α} (hm : Keeps m)
    (hh : ∀ e, Keeps (h e)) : Keeps (MonadExcept.tryCatch m h) := by
  constructor
  intro s hs
  have hm := hm.run s hs
  simp only [ExceptT.run, StateT.run, tryCatchThe, MonadExceptOf.tryCatch, MonadExcept.tryCatch,
    ExceptT.tryCatch, ExceptT.mk, Bind.bind, StateT.bind] at hm ⊢
  generalize (show StateM State _ from m) s = x at hm ⊢
  obtain ⟨r, s'⟩ := x
  cases r with
  | ok a => exact hm
  | error e => exact (hh e).run s' hm

/-- An action by parts: a sequence, a loop and a branch keep the form where what they are made of does. -/
theorem Keeps.byParts {m : ExceptT ε (StateM State) α} (h : Keeps m := by
    repeat' first
      | with_reducible assumption
      | intro _
      | with_reducible apply Keeps.getBind
      | with_reducible apply Keeps.bind
      | with_reducible apply Keeps.set
      | with_reducible apply keeps_modify
      | with_reducible apply Keeps.mapM
      | with_reducible apply Keeps.forM
      | with_reducible apply foldl_wf
      | with_reducible apply foldl_snd_wf
      | (simp [*]; done)
      | with_reducible exact State.addCount_wf ‹_› ‹_›
      | with_reducible exact State.countPairs_wf ‹_› ‹_›
      | split
      | dsimp only) : Keeps m := h

end Sys2Proof.Machine
end


section
/-! PROOF. What each function of the model does to the form of memory (O59). -/

namespace Sys2Proof.Machine

open Sys2Proof

set_option Elab.async false

/-! ### Machine/Base -/

@[simp] theorem State.withLaunch_mem (s : State) (l : LaunchId) (f : Launch → Launch) :
    (State.withLaunch s l f).mem = s.mem := by
  unfold State.withLaunch
  simp

@[simp] theorem me_keeps : Keeps (me) := by
  unfold me
  exact .byParts

@[simp] theorem tm_keeps : Keeps (tm) := by
  unfold tm
  exact .byParts

@[simp] theorem modTm_keeps (f : Team → Team) : Keeps (modTm f) := by
  unfold modTm
  exact .byParts

@[simp] theorem fresh_keeps : Keeps (fresh) := by
  unfold fresh
  exact .byParts

@[simp] theorem nextFree_keeps : Keeps (nextFree) := by
  unfold nextFree
  exact .byParts

@[simp] theorem blockAt_keeps {α : Type} (b : Block) : Keeps (blockAt (α := α) b) := by
  unfold blockAt
  exact .byParts

@[simp] theorem trap_keeps {α : Type} (r : Rec) : Keeps (trap (α := α) r) := by
  unfold trap
  exact .byParts

@[simp] theorem fail_keeps {α : Type} (c : Cause) (detail : Nat) (ea : Word) : Keeps (fail (α := α) c detail ea) := by
  unfold fail
  exact .byParts

/-! ### Machine/Memory -/

@[simp] theorem State.cleanBurst_mem (s : State) (b : Nat) : (State.cleanBurst s b).mem = s.mem := by
  unfold State.cleanBurst
  simp

@[simp] theorem State.returnsTo_mem (s : State) (team : Nat) (parent : Nat) (lane : Nat) :
    (State.returnsTo s team parent lane).mem = s.mem := by
  unfold State.returnsTo
  simp

@[simp] theorem State.ackUnit_mem (s : State) (team : Nat) (unit : Nat) : (State.ackUnit s team unit).mem = s.mem := by
  unfold State.ackUnit
  simp

@[simp] theorem State.ackOp_mem (s : State) (team : Nat) (op : Nat) : (State.ackOp s team op).mem = s.mem := by
  unfold State.ackOp
  simp

@[simp] theorem State.logFault_mem (s : State) (r : Rec) : (s.logFault r).mem = s.mem := by
  rw [State.logFault, State.withHearth_mem]

@[simp] theorem State.logFaults_mem (s : State) (rs : List Rec) : (State.logFaults s rs).mem = s.mem := by
  unfold State.logFaults
  simp [foldl_mem]

@[simp] theorem State.headerRec_mem (s : State) (i : Nat) (r : Rec) : (State.headerRec s i r).mem = s.mem := by
  unfold State.headerRec
  simp

@[simp] theorem readSlice_keeps (key : Nat) (n : Nat) : Keeps (readSlice key n) := by
  unfold readSlice
  exact .byParts

@[simp] theorem readPhys_keeps (key : Nat) (n : Nat) : Keeps (readPhys key n) := by
  unfold readPhys
  exact .byParts

@[simp] theorem State.refresh_mem (s : State) (core : Nat) (key : Nat) (bs : List Byte) :
    (State.refresh s core key bs).mem = s.mem := by
  unfold State.refresh
  simp

@[simp] theorem State.acceptWrite_wf {s : State} (w : PendWrite) (hs : Memory.wf s.mem = true) :
    Memory.wf (State.acceptWrite s w).mem = true := by
  unfold State.acceptWrite
  repeat' split
  all_goals simp [*]

@[simp] theorem State.arrive_wf {s : State} (b : MortarOp) (hs : Memory.wf s.mem = true) :
    Memory.wf (State.arrive s b).mem = true := by
  unfold State.arrive
  exact wfByParts

/-! ### Machine/Access -/

@[simp] theorem readEntry_keeps (addr : Nat) : Keeps (readEntry addr) := by
  unfold readEntry
  exact .byParts

@[simp] theorem walkTo_keeps (va : Nat) (levels : List Nat) (table : Nat) : Keeps (walkTo va levels table) := by
  induction levels generalizing table with
  | nil => exact .pure _
  | cons level rest ih =>
    unfold walkTo
    exact .byParts

@[simp] theorem walk_keeps (asid : Nat) (va : Nat) (u : Nat) (g : Nat) (need : Need) :
    Keeps (walk asid va u g need) := by
  unfold walk
  exact .byParts

@[simp] theorem State.withCopy_mem (s : State) (id : Nat) (f : Copy → Copy) : (State.withCopy s id f).mem = s.mem := by
  unfold State.withCopy
  simp

@[simp] theorem State.keep_mem (s : State) (h : Holder) (t : Tlb) (walked : Bool) :
    (State.keep s h t walked).mem = s.mem := by
  unfold State.keep
  repeat' split
  all_goals simp

@[simp] theorem leafFor_keeps (h : Holder) (asid : Nat) (u : Nat) (g : Nat) (a : Nat) (need : Need) :
    Keeps (leafFor h asid u g a need) := by
  unfold leafFor
  exact .byParts

@[simp] theorem translate_keeps (h : Holder) (asid : Nat) (u : Nat) (g : Nat) (va : Word) (need : Need) :
    Keeps (translate h asid u g va need) := by
  unfold translate
  exact .byParts

@[simp] theorem postRequest_keeps (asid : Nat) (u : Nat) (g : Nat) (va : Word) (c : Cause) (detail : Nat)
    (access : Nat) : Keeps (postRequest asid u g va c detail access) := by
  unfold postRequest
  exact .byParts

@[simp] theorem reach_keeps (h : Holder) (va : Word) (need : Need) (access : Nat) (ordered : Bool) (logged : Bool) :
    Keeps (reach h va need access ordered logged) := by
  unfold reach
  exact .byParts

@[simp] theorem refusedFirst_keeps (h : Holder) (va : Word) (need : Need) : Keeps (refusedFirst h va need) := by
  unfold refusedFirst
  exact .byParts

@[simp] theorem reachRange_keeps (need : Need) (access : Nat) (a : Word) (n : Nat) (lane : Nat) :
    Keeps (reachRange need access a n lane) := by
  unfold reachRange
  exact .byParts

@[simp] theorem ownRead_keeps (team : Nat) (before : Nat) (key : Nat) (n : Nat) :
    Keeps (ownRead team before key n) := by
  unfold ownRead
  exact .byParts

@[simp] theorem readPiece_keeps (need : Need) (access : Nat) (a : Word) (n : Nat) (ordered : Bool) :
    Keeps (readPiece need access a n ordered) := by
  unfold readPiece
  exact .byParts

@[simp] theorem readVirt_keeps (a : Word) (n : Nat) : Keeps (readVirt a n) := by
  unfold readVirt
  exact .byParts

@[simp] theorem loadAt_keeps (team : Nat) (before : Nat) (key : Nat) (n : Nat) (hit : Bool) :
    Keeps (loadAt team before key n hit) := by
  unfold loadAt
  exact .byParts

@[simp] theorem groupOf_keeps : Keeps (groupOf) := by
  unfold groupOf
  exact .byParts

@[simp] theorem unitRoom_keeps : Keeps (unitRoom) := by
  unfold unitRoom
  exact .byParts

@[simp] theorem unitOf_keeps : Keeps (unitOf) := by
  unfold unitOf
  exact .byParts

@[simp] theorem State.owe_mem (s : State) (team : Nat) (unit : Nat) : (State.owe s team unit).mem = s.mem := by
  unfold State.owe
  simp

@[simp] theorem issueWrite_keeps (path : Nat) (lane : Nat) (va : Word) (key : Nat) (bs : List Byte) (unit : Bool) :
    Keeps (issueWrite path lane va key bs unit) := by
  unfold issueWrite
  exact .byParts

@[simp] theorem sideLog_keeps (e : SideEntry) : Keeps (sideLog e) := by
  unfold sideLog
  exact .byParts

/-! ### Machine/Ltime -/

@[simp] theorem State.dropCount_wf {s : State} (asid : Nat) (t : Nat) (loc : Nat) (st : Stamp) (n : Nat)
    (hs : Memory.wf s.mem = true) : Memory.wf (State.dropCount s asid t loc st n).mem = true := by
  unfold State.dropCount
  simp [*]

@[simp] theorem State.owes_mem (s : State) (asid : Nat) (r : Retire) : (State.owes s asid r).mem = s.mem := by
  unfold State.owes
  simp

@[simp] theorem State.releaseHold_mem (s : State) (team : Nat) (h : Hold) :
    (State.releaseHold s team h).mem = s.mem := by
  unfold State.releaseHold
  simp

@[simp] theorem State.releaseHolds_mem (s : State) (team : Nat) : (State.releaseHolds s team).mem = s.mem := by
  unfold State.releaseHolds
  simp [foldl_mem]

@[simp] theorem holdFor_keeps (loc : Nat) (st : Stamp) : Keeps (holdFor loc st) := by
  refine .bind tm_keeps fun t => .bind me_keeps fun i => .getBind fun s hs => ?_
  split
  · exact .pure _
  · split
    · exact blockAt_keeps _
    · exact .set (by simpa using State.addCount_wf ‹_› hs)

@[simp] theorem countFor_keeps (loc : Nat) (st : Stamp) : Keeps (countFor loc st) := by
  unfold countFor
  exact .byParts

/-! ### Machine/Ops -/

@[simp] theorem State.startColl_wf {s : State} (core : Nat) (k : Coll) (hs : Memory.wf s.mem = true) :
    Memory.wf (State.startColl s core k).mem = true := by
  unfold State.startColl
  exact wfByParts

@[simp] theorem State.startColls_wf {s : State} (core : Nat) (hs : Memory.wf s.mem = true) :
    Memory.wf (State.startColls s core).mem = true := by
  unfold State.startColls
  exact wfByParts

@[simp] theorem State.startAllColls_wf {s : State} (hs : Memory.wf s.mem = true) :
    Memory.wf (State.startAllColls s).mem = true := by
  unfold State.startAllColls
  exact wfByParts

@[simp] theorem State.removeCopy_mem (s : State) (id : Nat) : (State.removeCopy s id).mem = s.mem := by
  unfold State.removeCopy
  repeat' split
  all_goals simp

@[simp] theorem State.cancelCopies_mem (s : State) (team : Nat) : (State.cancelCopies s team).mem = s.mem := by
  unfold State.cancelCopies
  exact memByParts

@[simp] theorem State.settleCtx_mem (s : State) (c : Nat) : (State.settleCtx s c).mem = s.mem := by
  unfold State.settleCtx
  simp

@[simp] theorem State.detach_wf {s : State} (i : Nat) (hs : Memory.wf s.mem = true) :
    Memory.wf (State.detach s i).mem = true := by
  unfold State.detach
  exact wfByParts

@[simp] theorem State.freeAlloc_wf {s : State} (core : Nat) (l : LaunchId) (hs : Memory.wf s.mem = true) :
    Memory.wf (s.freeAlloc core l).mem = true := by
  unfold State.freeAlloc
  dsimp only
  split
  · exact hs
  · simp only [State.withHearth_mem, State.mem_ite, State.withCore_mem, ite_self]
    exact foldl_wf (fun s k h => by simp [h]) _ (foldl_wf (fun s r h => by simp [h]) _ hs)

@[simp] theorem State.endOfBlock_mem (s : State) (g : Nat) : (State.endOfBlock s g).mem = s.mem := by
  unfold State.endOfBlock
  repeat' split
  all_goals simp

@[simp] theorem State.stopGrids_mem (s : State) (team : Nat) : (State.stopGrids s team).mem = s.mem := by
  unfold State.stopGrids
  simp [foldl_mem]

@[simp] theorem State.retireBind_mem (s : State) (b : Nat) : (State.retireBind s b).mem = s.mem := by
  unfold State.retireBind
  repeat' split
  all_goals simp

@[simp] theorem State.doing_wf {s : State} {a : Act Unit} (ha : Keeps a) (hs : Memory.wf s.mem = true) :
    Memory.wf (s.doing a).mem = true := ha.run s hs

@[simp] theorem State.declareEntry_mem (s : State) (e : SideEntry) (cause : Cause) (detail : Nat) :
    (State.declareEntry s e cause detail).mem = s.mem := by
  unfold State.declareEntry
  simp

@[simp] theorem State.replayAt_mem (s : State) (e : SideEntry) (key : Nat) : (State.replayAt s e key).mem = s.mem := by
  unfold State.replayAt
  repeat' split
  all_goals simp

@[simp] theorem replayEntry_keeps (e : SideEntry) : Keeps (replayEntry e) := by
  unfold replayEntry
  exact .byParts

@[simp] theorem State.replayLog_wf {s : State} (core : Nat) (p : SideEntry → Bool) (hs : Memory.wf s.mem = true) :
    Memory.wf (s.replayLog core p).mem = true := by
  unfold State.replayLog
  dsimp only
  split
  · exact hs
  · exact foldl_wf (fun s i h => by simp [h]) _ (State.doing_wf .byParts hs)

@[simp] theorem State.replaySaved_wf {s : State} (core : Nat) (ctx : Nat) (hs : Memory.wf s.mem = true) :
    Memory.wf (State.replaySaved s core ctx).mem = true := by
  unfold State.replaySaved
  simp [*]

@[simp] theorem State.endTeam_wf {s : State} (i : Nat) (hs : Memory.wf s.mem = true) :
    Memory.wf (s.endTeam i).mem = true := by
  unfold State.endTeam
  dsimp only
  split
  · exact hs
  · split <;> simp only [State.retireBind_mem, State.settleCtx_mem]
    all_goals
      refine State.replaySaved_wf _ _ (State.freeAlloc_wf _ _ (State.startColls_wf _ ?_))
      simp [hs, foldl_mem]

@[simp] theorem State.writeRcb_wf {s : State} (r : Nat) (off : Nat) (bs : List Byte) (hs : Memory.wf s.mem = true) :
    Memory.wf (State.writeRcb s r off bs).mem = true := by
  unfold State.writeRcb
  simp [*]

@[simp] theorem State.setRState_wf {s : State} (r : Nat) (st : RState) (hs : Memory.wf s.mem = true) :
    Memory.wf (State.setRState s r st).mem = true := by
  unfold State.setRState
  simp [*]

@[simp] theorem State.dropTasks_wf {s : State} (p : Task → Bool) (hs : Memory.wf s.mem = true) :
    Memory.wf (State.dropTasks s p).mem = true := by
  unfold State.dropTasks
  exact wfByParts

@[simp] theorem State.dropLaunchCount_wf {s : State} (l : LaunchId) (hs : Memory.wf s.mem = true) :
    Memory.wf (State.dropLaunchCount s l).mem = true := by
  unfold State.dropLaunchCount
  simp [*]

@[simp] theorem State.endLaunch_wf {s : State} (l : LaunchId) (cancel : Bool) (hs : Memory.wf s.mem = true) :
    Memory.wf (s.endLaunch l cancel).mem = true := by
  unfold State.endLaunch
  dsimp only
  refine State.dropLaunchCount_wf _ (foldl_wf (fun s b h => by simp [h]) _ ?_)
  have ended := foldl_wf (f := fun s (t : Nat × Team) => s.endTeam t.1) (fun s t h => State.endTeam_wf _ h)
  split
  · exact foldl_wf (fun s t h => by simp [h]) _ (ended _ (State.dropTasks_wf _ hs))
  · exact ended _ (State.dropTasks_wf _ hs)

@[simp] theorem State.settleReady_wf {s : State} (r : Nat) (hs : Memory.wf s.mem = true) :
    Memory.wf (State.settleReady s r).mem = true := by
  unfold State.settleReady
  exact wfByParts

@[simp] theorem State.writeRound_wf {s : State} (r : Nat) (hs : Memory.wf s.mem = true) :
    Memory.wf (State.writeRound s r).mem = true := by
  unfold State.writeRound
  simp [*]

@[simp] theorem State.failOne_wf {s : State} (cause r : Nat) (hs : Memory.wf s.mem = true) :
    Memory.wf (s.failOne cause r).mem = true := by
  unfold State.failOne
  dsimp only
  split
  · exact hs
  · have ended : Memory.wf ((List.range (s.region r).launches.length).foldl (fun s e => s.endLaunch ⟨r, e⟩ false)
        (s.withRegion r fun g => { g with cause := cause, state := .failed })).mem = true :=
      foldl_wf (fun s e h => State.endLaunch_wf _ _ h) _ hs
    generalize List.foldl _ _ _ = s3 at ended ⊢
    split <;> split <;> simp [ended]

@[simp] theorem State.failRegion_wf {s : State} (r : Nat) (cause : Nat) (hs : Memory.wf s.mem = true) :
    Memory.wf (State.failRegion s r cause).mem = true := by
  unfold State.failRegion
  exact wfByParts

@[simp] theorem State.killEntrant_wf {s : State} (r e : Nat) (hs : Memory.wf s.mem = true) :
    Memory.wf (s.killEntrant r e).mem = true := by
  unfold State.killEntrant
  refine State.settleReady_wf _
    (State.writeRound_wf _ (foldl_wf (fun s q h => State.failOne_wf _ _ h) _ (State.endLaunch_wf _ _ hs)))

@[simp] theorem State.fatal_wf {s : State} (i : Nat) (rs : List Rec) (hs : Memory.wf s.mem = true) :
    Memory.wf (State.fatal s i rs).mem = true := by
  unfold State.fatal
  exact wfByParts

@[simp] theorem State.saveTeam_mem (s : State) (i : Nat) (live : BitVec 240) (full : Bool) :
    (State.saveTeam s i live full).mem = s.mem := by
  unfold State.saveTeam
  simp

@[simp] theorem State.seekSave_mem (s : State) (i : Nat) : (State.seekSave s i).mem = s.mem := by
  unfold State.seekSave
  simp

@[simp] theorem State.closeInstr_mem (s : State) (i : Nat) : (State.closeInstr s i).mem = s.mem := by
  unfold State.closeInstr
  repeat' split
  all_goals simp

@[simp] theorem recordPlaces_keeps (i : Nat) (n : Nat) : Keeps (recordPlaces i n) := by
  unfold recordPlaces
  exact .byParts

@[simp] theorem State.writeRecords_mem (s : State) (i : Nat) (places : List (Word × Nat)) (rs : List Rec) :
    (State.writeRecords s i places rs).mem = s.mem := by
  unfold State.writeRecords
  simp [foldl_mem]

@[simp] theorem State.endIfSpent_wf {s : State} (i : Nat) (hs : Memory.wf s.mem = true) :
    Memory.wf (State.endIfSpent s i).mem = true := by
  unfold State.endIfSpent
  simp [*]

@[simp] theorem State.enterHandler_wf {s : State} (i : Nat) (hs : Memory.wf s.mem = true) :
    Memory.wf (s.enterHandler i).mem = true := by
  unfold State.enterHandler
  dsimp only
  split
  · exact hs
  · split
    · simp [hs]
    · rename_i d hd _
      have placed := (recordPlaces_keeps i d.recs.length).go hs
      split
      · exact State.endIfSpent_wf _ (by simpa using placed)
      · simpa using placed
      · exact State.fatal_wf _ _ placed

@[simp] theorem State.handOn_wf {s : State} (i : Nat) (rs : List Rec) (resume : Resume) (hs : Memory.wf s.mem = true) :
    Memory.wf (State.handOn s i rs resume).mem = true := by
  unfold State.handOn
  exact wfByParts

@[simp] theorem State.reportOp_wf {s : State} (i : Nat) (o : Op) (hs : Memory.wf s.mem = true) :
    Memory.wf (State.reportOp s i o).mem = true := by
  unfold State.reportOp
  simp [*]

@[simp] theorem State.deliver_wf {s : State} (i : Nat) (rs : List Rec) (resume : Resume) (hs : Memory.wf s.mem = true) :
    Memory.wf (State.deliver s i rs resume).mem = true := by
  unfold State.deliver
  repeat' split
  all_goals simp [*]

@[simp] theorem State.trapInstr_wf {s : State} (i : Nat) (rs : List Rec) (hs : Memory.wf s.mem = true) :
    Memory.wf (State.trapInstr s i rs).mem = true := by
  unfold State.trapInstr
  simp [*]

@[simp] theorem State.stallInstr_wf {s : State} (i : Nat) (rs : List Rec) (hs : Memory.wf s.mem = true) :
    Memory.wf (State.stallInstr s i rs).mem = true := by
  unfold State.stallInstr
  simp [*]

@[simp] theorem State.deliverHeader_wf {s : State} (i : Nat) (hs : Memory.wf s.mem = true) :
    Memory.wf (State.deliverHeader s i).mem = true := by
  unfold State.deliverHeader
  simp [*]

@[simp] theorem State.goBehind_mem (s : State) (i : Nat) : (State.goBehind s i).mem = s.mem := by
  unfold State.goBehind
  simp

@[simp] theorem State.giveWay_mem (s : State) (i : Nat) : (State.giveWay s i).mem = s.mem := by
  unfold State.giveWay
  simp

@[simp] theorem State.eret_mem (s : State) (i : Nat) (mod : Nat) : (State.eret s i mod).mem = s.mem := by
  unfold State.eret
  exact memByParts

@[simp] theorem State.exitShares_mem (s : State) (i : Nat) (lanes : List Nat) :
    (State.exitShares s i lanes).mem = s.mem := by
  unfold State.exitShares
  exact memByParts

@[simp] theorem State.endClause_mem (s : State) (i : Nat) (o : OpenClause) : (State.endClause s i o).mem = s.mem := by
  unfold State.endClause
  exact memByParts

@[simp] theorem State.retire_wf {s : State} (i : Nat) (hs : Memory.wf s.mem = true) :
    Memory.wf (State.retire s i).mem = true := by
  unfold State.retire
  exact wfByParts

@[simp] theorem State.stand_wf {s : State} (i : Nat) (b : Block) (hs : Memory.wf s.mem = true) :
    Memory.wf (State.stand s i b).mem = true := by
  unfold State.stand
  repeat' split
  all_goals simp [*]

@[simp] theorem conclude_wf (i : Nat) {r : Except Stop Unit × State} (hs : Memory.wf r.2.mem = true) :
    Memory.wf (conclude i r).mem = true := by
  unfold conclude
  split
  · exact State.retire_wf _ hs
  · exact State.stand_wf _ _ hs
  · exact State.trapInstr_wf _ _ hs
  · exact hs

/-! ### Machine/Operands -/

@[simp] theorem usePoison_keeps (r : Reg) : Keeps (usePoison r) := by
  unfold usePoison
  exact .byParts

@[simp] theorem usePoisons_keeps (r : Reg) (n : Nat) : Keeps (usePoisons r n) := by
  unfold usePoisons
  exact .byParts

@[simp] theorem sread_keeps (r : Reg) : Keeps (sread r) := by
  unfold sread
  exact .byParts

@[simp] theorem sreadAt_keeps (r : Reg) (i : Nat) : Keeps (sreadAt r i) := by
  unfold sreadAt
  exact .byParts

@[simp] theorem swrite_keeps (r : Reg) (x : Word) : Keeps (swrite r x) := by
  unfold swrite
  exact .byParts

@[simp] theorem swriteAt_keeps (r : Reg) (i : Nat) (x : Word) : Keeps (swriteAt r i x) := by
  unfold swriteAt
  exact .byParts

@[simp] theorem finishLanes_keeps (rs : List Rec) : Keeps (finishLanes rs) := by
  unfold finishLanes
  exact .byParts

@[simp] theorem deliverResults_keeps (la : BitVec 4) (rs : List Result) (fpf dcf : BitVec 5) (faults : List Rec) :
    Keeps (deliverResults la rs fpf dcf faults) := by
  unfold deliverResults
  exact .byParts

/-! ### Machine/Mem -/

@[simp] theorem reachLane_keeps (lane : Nat) (base : Word) (n : Nat) (size : Nat) (need : Need) (access : Nat)
    (logged : Bool) : Keeps (reachLane lane base n size need access logged) := by
  unfold reachLane
  exact .byParts

@[simp] theorem serve_keeps (lane : Nat) : Keeps (serve lane) := by
  unfold serve
  exact .byParts

@[simp] theorem lanesLeft_keeps (km : Nat) : Keeps (lanesLeft km) := by
  unfold lanesLeft
  exact .byParts

@[simp] theorem openOp_keeps (counter : Option Nat) : Keeps (openOp counter) := by
  unfold openOp
  exact .byParts

@[simp] theorem addPart_keeps (op : Nat) (p : Part) : Keeps (addPart op p) := by
  unfold addPart
  exact .byParts

@[simp] theorem ldiLane_keeps (f : TForm) (op : Nat) (lane : Nat) : Keeps (ldiLane f op lane) := by
  unfold ldiLane
  exact .byParts

@[simp] theorem memLdi_keeps (f : TForm) : Keeps (memLdi f) := by
  unfold memLdi
  exact .byParts

@[simp] theorem memAwait_keeps (f : TForm) : Keeps (memAwait f) := by
  unfold memAwait
  exact .byParts

@[simp] theorem stLane_keeps (f : TForm) (lane : Nat) : Keeps (stLane f lane) := by
  unfold stLane
  exact .byParts

@[simp] theorem memSt_keeps (f : TForm) : Keeps (memSt f) := by
  unfold memSt
  exact .byParts

@[simp] theorem State.withAlloc_mem (s : State) (core : Nat) (l : LaunchId) (f : Alloc → Alloc) :
    (State.withAlloc s core l f).mem = s.mem := by
  unfold State.withAlloc
  simp

@[simp] theorem memLds_keeps (f : TForm) : Keeps (memLds f) := by
  unfold memLds
  exact .byParts

@[simp] theorem memSts_keeps (f : TForm) : Keeps (memSts f) := by
  unfold memSts
  exact .byParts

@[simp] theorem memFe_keeps (f : TForm) : Keeps (memFe f) := by
  unfold memFe
  exact .byParts

@[simp] theorem atomDevice_keeps (f : TForm) (key : Nat) (b : Nat) (c : Nat) (asid : Nat) :
    Keeps (atomDevice f key b c asid) := by
  unfold atomDevice
  exact .byParts

@[simp] theorem atomTeam_keeps (f : TForm) (i : Nat) (lane : Nat) (key : Nat) (va : Word) (b : Nat) (c : Nat) :
    Keeps (atomTeam f i lane key va b c) := by
  unfold atomTeam
  exact .byParts

@[simp] theorem atomLane_keeps (f : TForm) (shut : List Nat) (lane : Nat) : Keeps (atomLane f shut lane) := by
  unfold atomLane
  exact .byParts

@[simp] theorem atomLanes_keeps (f : TForm) (shut lanes : List Nat) : Keeps (atomLanes f shut lanes) := by
  induction lanes generalizing shut with
  | nil => exact .pure _
  | cons l rest ih => exact .bind (atomLane_keeps f shut l) fun r => .bind (ih _) fun rs => .pure _

@[simp] theorem memAtom_keeps (f : TForm) : Keeps (memAtom f) := by
  unfold memAtom
  exact .byParts

@[simp] theorem State.stageFence_mem (s : State) (i : Nat) (from_ : Nat) (to_ : Nat) :
    (State.stageFence s i from_ to_).mem = s.mem := by
  unfold State.stageFence
  simp

@[simp] theorem memFence_keeps (f : TForm) : Keeps (memFence f) := by
  unfold memFence
  exact .byParts

@[simp] theorem memXfence_keeps (f : TForm) : Keeps (memXfence f) := by
  unfold memXfence
  exact .byParts

@[simp] theorem memPublish_keeps (f : TForm) : Keeps (memPublish f) := by
  unfold memPublish
  exact .byParts

@[simp] theorem memOptab_keeps (f : TForm) : Keeps (memOptab f) := by
  unfold memOptab
  exact .byParts

@[simp] theorem bindingAt_keeps (n : Nat) : Keeps (bindingAt n) := by
  unfold bindingAt
  exact .byParts

@[simp] theorem selected_keeps (sel : Nat) : Keeps (selected sel) := by
  unfold selected
  exact .byParts

@[simp] theorem issueMortar_keeps (m : MortarOp) : Keeps (issueMortar m) := by
  unfold issueMortar
  exact .byParts

@[simp] theorem opxSend_keeps (f : TForm) (op : Nat) (unit : Nat) (shut : Bool) (lane : Nat) (d : Selected) :
    Keeps (opxSend f op unit shut lane d) := by
  unfold opxSend
  exact .byParts

@[simp] theorem opxLane_keeps (f : TForm) (op : Nat) (unit : Nat) (shut : Bool) (lane : Nat) :
    Keeps (opxLane f op unit shut lane) := by
  unfold opxLane
  exact .byParts

@[simp] theorem opxLanes_keeps (f : TForm) (op unit : Nat) (shut : Bool) (lanes : List Nat) :
    Keeps (opxLanes f op unit shut lanes) := by
  induction lanes generalizing shut with
  | nil => exact .pure _
  | cons l rest ih => exact .bind (opxLane_keeps f op unit shut l) fun r => .bind (ih _) fun rs => .pure _

@[simp] theorem memOpx_keeps (f : TForm) : Keeps (memOpx f) := by
  unfold memOpx
  exact .byParts

/-! ### Machine/Copies -/

@[simp] theorem takeHandle_keeps : Keeps (takeHandle) := by
  unfold takeHandle
  exact .byParts

@[simp] theorem offSize_keeps (x : Word) (unit : Nat) : Keeps (offSize x unit) := by
  unfold offSize
  exact .byParts

@[simp] theorem copyRoom_keeps (off : Nat) (n : Nat) : Keeps (copyRoom off n) := by
  unfold copyRoom
  exact .byParts

@[simp] theorem countCopy_keeps : Keeps (countCopy) := by
  unfold countCopy
  exact .byParts

@[simp] theorem emptyLines_keeps (off : Nat) (n : Nat) : Keeps (emptyLines off n) := by
  unfold emptyLines
  exact .byParts

@[simp] theorem addCopy_keeps (c : Copy) : Keeps (addCopy c) := by
  unfold addCopy
  exact .byParts

@[simp] theorem contribute_keeps (key : Nat) (mem : Nat) (idx : Nat) (src : Word) (off : Nat) (n : Nat) (adv : Bool) :
    Keeps (contribute key mem idx src off n adv) := by
  unfold contribute
  exact .byParts

@[simp] theorem cpColl_keeps (f : TForm) : Keeps (cpColl f) := by
  unfold cpColl
  exact .byParts

@[simp] theorem cpGath_keeps (f : TForm) : Keeps (cpGath f) := by
  unfold cpGath
  exact .byParts

@[simp] theorem cpPut_keeps (f : TForm) : Keeps (cpPut f) := by
  unfold cpPut
  exact .byParts

@[simp] theorem cpWait_keeps (f : TForm) : Keeps (cpWait f) := by
  unfold cpWait
  exact .byParts

@[simp] theorem cpYield_keeps (f : BForm) : Keeps (cpYield f) := by
  unfold cpYield
  exact .byParts

/-! ### Machine/Matrix -/

@[simp] theorem mxFail_keeps {α : Type} (km : Nat) (c : Cause) (detail : Nat) (ea : Word) :
    Keeps (mxFail (α := α) km c detail ea) := by
  unfold mxFail
  exact .byParts

@[simp] theorem needKey_keeps (km : Nat) : Keeps (needKey km) := by
  unfold needKey
  exact .byParts

@[simp] theorem mxRead_keeps (km : Nat) (r : Reg) : Keeps (mxRead km r) := by
  unfold mxRead
  exact .byParts

@[simp] theorem mxMul_keeps (f : TForm) (scaled : Bool) : Keeps (mxMul f scaled) := by
  unfold mxMul
  exact .byParts

@[simp] theorem mxDist_keeps (f : TForm) : Keeps (mxDist f) := by
  unfold mxDist
  exact .byParts

@[simp] theorem mxTopk_keeps (f : TForm) : Keeps (mxTopk f) := by
  unfold mxTopk
  exact .byParts

@[simp] theorem mxColumn_keeps (f : TForm) : Keeps (mxColumn f) := by
  unfold mxColumn
  exact .byParts

@[simp] theorem mxAload_keeps (f : TForm) : Keeps (mxAload f) := by
  unfold mxAload
  exact .byParts

@[simp] theorem mxAstore_keeps (f : TForm) : Keeps (mxAstore f) := by
  unfold mxAstore
  exact .byParts

@[simp] theorem mxAzero_keeps (f : TForm) : Keeps (mxAzero f) := by
  unfold mxAzero
  exact .byParts

@[simp] theorem mxCfg_keeps (f : TForm) : Keeps (mxCfg f) := by
  unfold mxCfg
  exact .byParts

@[simp] theorem mxTake_keeps : Keeps (mxTake) := by
  unfold mxTake
  exact .byParts

@[simp] theorem mxGive_keeps : Keeps (mxGive) := by
  unfold mxGive
  exact .byParts

@[simp] theorem mxWload_keeps (f : TForm) : Keeps (mxWload f) := by
  unfold mxWload
  exact .byParts

@[simp] theorem mxWord_keeps (w : Word) : Keeps (mxWord w) := by
  unfold mxWord
  exact .byParts

theorem mxAct_keeps {i : Instr} {a : Act Unit} (h : mxAct i = some a) : Keeps a := by
  unfold mxAct at h
  split at h <;> simp only [Option.some.injEq, reduceCtorEq] at h <;> subst h <;> simp

/-- A word of the stream gives an action that keeps the form, or faults. -/
theorem mxWord_cases (w : Word) (s : State) :
    (∃ a, Keeps a ∧ Act.go (mxWord w) s = (.ok a, s)) ∨ ∃ e, Act.go (mxWord w) s = (.error e, s) := by
  unfold mxWord
  rw [Act.go_bind_ok (Act.go_tm s)]
  split
  · exact .inr ⟨_, rfl⟩
  · split
    · split
      · rename_i a ha
        exact .inl ⟨a, mxAct_keeps ha, rfl⟩
      · exact .inr ⟨_, rfl⟩
    · exact .inr ⟨_, rfl⟩

@[simp] theorem State.mxRun_wf {s : State} (i : Nat) (x : MxWord) (hs : Memory.wf s.mem = true) :
    Memory.wf (s.mxRun i x).2.mem = true := by
  unfold State.mxRun
  dsimp only
  rw [State.withTeam_mem, Act.go_bind]
  rcases mxWord_cases x.word _ with ⟨a, ha, e⟩ | ⟨e', e⟩
  · rw [e]
    exact ha.go hs
  · rw [e]
    exact hs

@[simp] theorem State.mxDrain_wf {s : State} (i fuel : Nat) (hs : Memory.wf s.mem = true) :
    Memory.wf (s.mxDrain i fuel).mem = true := by
  induction fuel generalizing s with
  | zero => exact hs
  | succ fuel ih =>
    unfold State.mxDrain
    dsimp only
    split
    · exact hs
    · split
      · exact hs
      · have ran := State.mxRun_wf i ‹MxWord› hs
        split
        · exact ran
        · exact ih ran
        · exact ih ran

@[simp] theorem State.mxGo_wf {s : State} (i : Nat) (hs : Memory.wf s.mem = true) :
    Memory.wf (State.mxGo s i).mem = true := by
  unfold State.mxGo
  simp [*]

@[simp] theorem mxDirect_keeps {a : Act Unit} (ha : Keeps a) : Keeps (mxDirect a) := by
  unfold mxDirect
  exact .byParts

@[simp] theorem mxPush_keeps (w : Word) : Keeps (mxPush w) := by
  unfold mxPush
  exact .byParts

/-! ### Machine/Regions -/

@[simp] theorem Opener.read_keeps (o : Opener) (a : Word) (n : Nat) (need : optParam Need { r := true }) :
    Keeps (Opener.read o a n need) := by
  unfold Opener.read
  exact .byParts

@[simp] theorem Opener.bytes_keeps (o : Opener) (a : Word) (n : Nat) : Keeps (Opener.bytes o a n) := by
  unfold Opener.bytes
  exact .byParts

@[simp] theorem Opener.tables_keeps (o : Opener) (d : Desc) : Keeps (Opener.tables o d) := by
  unfold Opener.tables
  exact .byParts

@[simp] theorem State.dropPsums_mem (s : State) (r : Nat) : (State.dropPsums s r).mem = s.mem := by
  unfold State.dropPsums
  simp

@[simp] theorem Opener.offer_keeps (o : Opener) (g : Region) (kdesc : Word) (args : Word) :
    Keeps (Opener.offer o g kdesc args) := by
  unfold Opener.offer
  exact .byParts

@[simp] theorem enrol_keeps (g : Region) (o : Offer) (parentRcb : Word) : Keeps (enrol g o parentRcb) := by
  refine .getBind fun s hs => ?_
  dsimp only
  split
  · exact blockAt_keeps _
  · rename_i s1 h1
    obtain ⟨s0, h0, h1⟩ := Option.bind_eq_some_iff.mp h1
    have once := State.addCount_wf h0 hs
    have counted : Memory.wf s1.mem = true := by
      split at h1
      · exact State.addCount_wf h1 once
      · cases h1
        exact once
    refine .bind (.set ?_) fun _ => .pure _
    split
    · exact State.writeRound_wf _ (State.writeRcb_wf _ _ _ (State.writeRcb_wf _ _ _ counted))
    · exact State.writeRcb_wf _ _ _ (State.writeRcb_wf _ _ _ counted)

@[simp] theorem openRegion_keeps (who : Opener) (rcb : Word) (key : Nat) (b : List Byte)
    (parent : Option (Nat × LaunchId)) (now : Stamp) (covers : Nat → Stamp → Bool) (queue : Nat) (tag : Word) :
    Keeps (openRegion who rcb key b parent now covers queue tag) := by
  unfold openRegion
  exact .byParts

@[simp] theorem State.forget_mem (s : State) (r : Nat) : (State.forget s r).mem = s.mem := by
  unfold State.forget
  simp

@[simp] theorem State.settleEntrant_mem (s : State) (l : LaunchId) : (State.settleEntrant s l).mem = s.mem := by
  unfold State.settleEntrant
  simp

@[simp] theorem State.parkTeam_mem (s : State) (i : Nat) : (State.parkTeam s i).mem = s.mem := by
  unfold State.parkTeam
  simp [foldl_mem]

/-! ### Machine/Header -/

@[simp] theorem fetchCode_keeps (a : Word) (n : Nat) : Keeps (fetchCode a n) := by
  unfold fetchCode
  exact .byParts

@[simp] theorem liveMask_keeps (n : Nat) : Keeps (liveMask n) := by
  unfold liveMask
  exact .byParts

@[simp] theorem saveFull_keeps : Keeps (saveFull) := by
  unfold saveFull
  exact .byParts

@[simp] theorem headerRaise_keeps (c : Cause) (detail : Nat) : Keeps (headerRaise c detail) := by
  unfold headerRaise
  exact .byParts

@[simp] theorem startClause_keeps (h : Word) : Keeps (startClause h) := by
  unfold startClause
  exact .byParts

@[simp] theorem atHeader_keeps : Keeps atHeader := by
  unfold atHeader
  refine .bind tm_keeps fun t => .bind me_keeps fun i => .bind (fetchCode_keeps _ _) fun code => ?_
  extract_lets h fails safe start noLine waits gap budget parks legal delivers
  have hstart : ∀ u, Keeps (start u) := fun u => startClause_keeps _
  have hwaits : ∀ u, Keeps (waits u) := fun u => by
    clear_value start
    unfold waits
    exact .byParts
  have hgap : ∀ u, Keeps (gap u) := fun u => by
    clear_value waits
    unfold gap
    exact .byParts
  have hbudget : ∀ u, Keeps (budget u) := fun u => by
    clear_value gap
    unfold budget
    exact .byParts
  have hparks : ∀ u, Keeps (parks u) := fun u => by
    clear_value budget
    unfold parks
    exact .byParts
  have hlegal : ∀ u, Keeps (legal u) := fun u => by
    clear_value parks fails
    unfold legal
    exact .byParts
  have hdelivers : ∀ u, Keeps (delivers u) := fun u => by
    clear_value legal
    unfold delivers
    exact .byParts
  clear_value delivers
  exact .byParts

@[simp] theorem State.takeKept_wf {s : State} (i : Nat) (hs : Memory.wf s.mem = true) :
    Memory.wf (State.takeKept s i).mem = true := by
  unfold State.takeKept
  simp [*]

@[simp] theorem State.concludeHeader_wf (i : Nat) {r : Except Stop Unit × State} (hs : Memory.wf r.2.mem = true) :
    Memory.wf (State.concludeHeader i r).mem = true := by
  unfold State.concludeHeader
  split
  · exact hs
  · simpa using hs
  · exact State.deliver_wf _ _ _ hs
  · exact hs

@[simp] theorem State.passed_mem (s : State) (i : Nat) : (State.passed s i).mem = s.mem := by
  unfold State.passed
  simp

@[simp] theorem State.headerTurn_wf {s : State} (i : Nat) (hs : Memory.wf s.mem = true) :
    Memory.wf (s.headerTurn i).mem = true := by
  have taken : Memory.wf (if (s.team i).keptKey then s.takeKept i else s).mem = true := by
    split <;> simp [hs]
  unfold State.headerTurn
  dsimp only
  generalize (if (s.team i).keptKey then s.takeKept i else s) = s1 at taken ⊢
  split
  · exact State.enterHandler_wf _ hs
  · split
    · exact hs
    · split
      · simpa using hs
      · split
        · simpa using hs
        · split
          · split <;> simpa using taken
          · split
            · exact State.deliverHeader_wf _ taken
            · exact State.concludeHeader_wf _ (atHeader_keeps.go taken)

/-! ### Machine/Residency -/

@[simp] theorem State.bindSpace_mem (s : State) (core : Nat) (asid : Nat) :
    (State.bindSpace s core asid).mem = s.mem := by
  unfold State.bindSpace
  simp

@[simp] theorem State.seat_mem (s : State) (core : Nat) (t : Team) : (s.seat core t).2.mem = s.mem := by
  unfold State.seat
  exact memByParts

theorem State.startTeam_wf {s s' : State} {core : Nat} {l : LaunchId} {bind : Option Nat} {teamix : Nat}
    (e : s.startTeam core l bind teamix = some s') (hs : Memory.wf s.mem = true) : Memory.wf s'.mem = true := by
  unfold State.startTeam at e
  dsimp only at e
  split at e
  · cases e
  · rename_i s1 h1
    have counted := State.addCount_wf h1 hs
    cases e
    split
    · exact State.startAllColls_wf (State.dropLaunchCount_wf _ (by simpa using counted))
    · simpa using counted

@[simp] theorem State.dropGroup_mem (s : State) (ks : List Task) : (State.dropGroup s ks).mem = s.mem := by
  unfold State.dropGroup
  simp

@[simp] theorem State.refuseGroup_wf {s : State} (ks : List Task) (hs : Memory.wf s.mem = true) :
    Memory.wf (s.refuseGroup ks).mem = true := by
  unfold State.refuseGroup
  refine State.startAllColls_wf (foldl_wf (fun s k h => ?_) _ (by simpa using hs))
  have logged := fun r => (congrArg (Memory.wf ·) (State.logFault_mem s r)).trans h
  dsimp only
  split
  · exact State.dropCount_wf _ _ _ _ _ (logged _)
  · rw [State.withTeam_mem]
    exact logged _

@[simp] theorem groupDesc_keeps (k : Task) : Keeps (groupDesc k) := by
  unfold groupDesc
  exact .byParts

@[simp] theorem State.form_wf {s : State} (ks : List Task) (cores : List Nat) (hs : Memory.wf s.mem = true) :
    Memory.wf (s.form ks cores).mem = true := by
  unfold State.form
  dsimp only
  split
  · exact hs
  · rename_i k _
    have read : Memory.wf (if k.rids.isEmpty then (groupDesc k).go s else (.error .gone, s)).2.mem = true := by
      split
      · exact (groupDesc_keeps k).go hs
      · exact hs
    generalize (if k.rids.isEmpty then (groupDesc k).go s else (.error .gone, s)) = r at read ⊢
    split
    · exact State.refuseGroup_wf _ read
    · split
      · exact State.startAllColls_wf (by simpa using read)
      · exact read
    · exact read

/-! ### Machine/EventsTeam -/

@[simp] theorem clauseHeaderAt_wf (i : Nat) {s : State} (hs : Memory.wf s.mem = true) :
    Memory.wf (clauseHeaderAt i s).mem = true := by
  unfold clauseHeaderAt
  simp [*]

@[simp] theorem clauseWaitAt_wf (i : Nat) {s : State} (hs : Memory.wf s.mem = true) :
    Memory.wf (clauseWaitAt i s).mem = true := by
  unfold clauseWaitAt
  simp [*]

@[simp] theorem blockingPointAt_wf (i : Nat) {s : State} (hs : Memory.wf s.mem = true) :
    Memory.wf (blockingPointAt i s).mem = true := by
  unfold blockingPointAt
  exact wfByParts

@[simp] theorem qstallAt_wf (i : Nat) {s : State} (hs : Memory.wf s.mem = true) :
    Memory.wf (qstallAt i s).mem = true := by
  unfold qstallAt
  exact wfByParts

@[simp] theorem loadLands_wf (i op part : Nat) (hit : Bool) {s : State} (hs : Memory.wf s.mem = true) :
    Memory.wf (loadLands i op part hit s).mem = true := by
  unfold loadLands
  dsimp only
  split
  · exact hs
  · split
    · exact hs
    · split
      · exact hs
      · split
        · exact (loadAt_keeps _ _ _ _ _).go hs
        · exact hs

@[simp] theorem longLands_wf (i : Nat) (op : Nat) (lanes : Mask) {s : State} (hs : Memory.wf s.mem = true) :
    Memory.wf (longLands i op lanes s).mem = true := by
  unfold longLands
  split
  · exact hs
  · extract_lets now rest s1
    have landed : Memory.wf s1.mem = true := by simpa [s1] using hs
    clear_value s1 rest
    repeat' split
    all_goals simp [landed]

@[simp] theorem State.landWeights_mem (s : State) (w : Wload) (first : Nat) (off : Nat) (bs : List Byte) (p : Nat) :
    (State.landWeights s w first off bs p).mem = s.mem := by
  unfold State.landWeights
  simp

@[simp] theorem wloadPlaces_wf (core id first count : Nat) {s : State} (hs : Memory.wf s.mem = true) :
    Memory.wf (wloadPlaces core id first count s).mem = true := by
  unfold wloadPlaces
  dsimp only
  split
  · exact hs
  · split
    · exact hs
    · split
      · exact hs
      · split
        · exact hs
        · rw [State.withTeam_mem, State.landWeights_mem]
          exact (ownRead_keeps _ _ _ _).go hs

@[simp] theorem handOver_wf (core : Nat) {s : State} (hs : Memory.wf s.mem = true) :
    Memory.wf (handOver core s).mem = true := by
  unfold handOver
  exact wfByParts

@[simp] theorem walksPage_wf (i : Nat) (va : Word) (write : Bool) {s : State} (hs : Memory.wf s.mem = true) :
    Memory.wf (walksPage i va write s).mem = true := by
  unfold walksPage
  dsimp only
  split
  · exact State.replayLog_wf _ _ (State.doing_wf .byParts hs)
  · exact hs

/-! ### Machine/EventsMemory -/

@[simp] theorem mortarArrives_wf (index : Nat) {s : State} (hs : Memory.wf s.mem = true) :
    Memory.wf (mortarArrives index s).mem = true := by
  unfold mortarArrives
  repeat' split
  all_goals simp [*]

@[simp] theorem mortarDrains_wf (addr : Nat) (size : Nat) {s : State} (hs : Memory.wf s.mem = true) :
    Memory.wf (mortarDrains addr size s).mem = true := by
  unfold mortarDrains
  exact wfByParts

@[simp] theorem writeAccepted_wf (index : Nat) {s : State} (hs : Memory.wf s.mem = true) :
    Memory.wf (writeAccepted index s).mem = true := by
  unfold writeAccepted
  repeat' split
  all_goals simp [*]

@[simp] theorem hostWrites_mem (addr : Nat) (data : List Byte) (poisoned : Bool) (s : State) :
    (hostWrites addr data poisoned s).mem = s.mem := by
  unfold hostWrites
  simp

@[simp] theorem countRetires_wf (index : Nat) {s : State} (hs : Memory.wf s.mem = true) :
    Memory.wf (countRetires index s).mem = true := by
  unfold countRetires
  repeat' split
  all_goals simp [*]

@[simp] theorem frontierHeard_mem (core : Nat) (asid : Nat) (loc : Nat) (s : State) :
    (frontierHeard core asid loc s).mem = s.mem := by
  unfold frontierHeard
  repeat' split
  all_goals simp

@[simp] theorem taskAccepted_wf (index : Nat) {s : State} (hs : Memory.wf s.mem = true) :
    Memory.wf (taskAccepted index s).mem = true := by
  unfold taskAccepted
  repeat' split
  all_goals simp [*]

@[simp] theorem groupTimesOut_wf (group : Nat) (core : Nat) {s : State} (hs : Memory.wf s.mem = true) :
    Memory.wf (groupTimesOut group core s).mem = true := by
  unfold groupTimesOut
  repeat' split
  all_goals simp [*]

@[simp] theorem Copy.reach_keeps (c : Copy) (va : Word) (need : Need) : Keeps (Copy.reach c va need) := by
  unfold Copy.reach
  exact .byParts

@[simp] theorem Copy.keys_keeps (c : Copy) (a : Word) (n : Nat) (need : Need) : Keeps (Copy.keys c a n need) := by
  unfold Copy.keys
  exact .byParts

@[simp] theorem Copy.fetch_keeps (c : Copy) (a : Word) (n : Nat) : Keeps (Copy.fetch c a n) := by
  unfold Copy.fetch
  exact .byParts

@[simp] theorem Copy.write_keeps (c : Copy) (ks : List (Word × Nat × Nat)) (bs : List Byte) (poison : Nat) :
    Keeps (c.write ks bs poison) := by
  refine keeps_modify fun s hs => foldl_snd_wf (fun x k h => ?_) _ hs
  dsimp only
  split <;> simpa using h

@[simp] theorem Copy.move_keeps (c : Copy) (id : Nat) (piece : Word × Nat × Nat) (rest : List (Word × Nat × Nat)) :
    Keeps (Copy.move c id piece rest) := by
  unfold Copy.move
  exact .byParts

@[simp] theorem Copy.resolve_keeps (c : Copy) (id : Nat) (row : Nat) : Keeps (Copy.resolve c id row) := by
  unfold Copy.resolve
  exact .byParts

@[simp] theorem State.declareCopy_mem (s : State) (id : Nat) (cause : Cause) :
    (State.declareCopy s id cause).mem = s.mem := by
  unfold State.declareCopy
  repeat' split
  all_goals simp

@[simp] theorem State.concludeCopy_wf {s : State} (id : Nat) {a : Act Unit} (ha : Keeps a)
    (hs : Memory.wf s.mem = true) :
    Memory.wf (s.concludeCopy id a).mem = true := by
  have acted := ha.go hs
  unfold State.concludeCopy
  dsimp only
  split
  · cases (SMap.find s.copies id).map (·.team)
    · exact acted
    · simpa using acted
  · exact acted
  · simpa using acted
  · exact acted

@[simp] theorem copyFills_wf (id chunk : Nat) {s : State} (hs : Memory.wf s.mem = true) :
    Memory.wf (copyFills id chunk s).mem = true := by
  unfold copyFills
  split
  · exact hs
  · split
    · split
      · exact State.concludeCopy_wf _ (Copy.move_keeps _ _ _ _) hs
      · exact State.concludeCopy_wf _ (Copy.resolve_keeps _ _ _) hs
    · exact hs

@[simp] theorem Copy.finish_keeps (c : Copy) : Keeps c.finish := by
  unfold Copy.finish
  exact .byParts

@[simp] theorem copyCompletes_wf (id : Nat) {s : State} (hs : Memory.wf s.mem = true) :
    Memory.wf (copyCompletes id s).mem = true := by
  unfold copyCompletes
  split
  · exact hs
  · split
    · refine State.concludeCopy_wf _ (.bind (Copy.finish_keeps _) fun _ => keeps_modify fun s hs => ?_) hs
      dsimp only
      split
      · rw [State.ackUnit_mem]
        exact foldl_wf (fun s p h => by simp [h]) _ (by simpa using hs)
      · exact foldl_wf (fun s p h => by simp [h]) _ (by simpa using hs)
    · exact hs

@[simp] theorem copyRestamps_wf (id : Nat) {s : State} (hs : Memory.wf s.mem = true) :
    Memory.wf (copyRestamps id s).mem = true := by
  unfold copyRestamps
  dsimp only
  split
  · exact hs
  · split
    · exact hs
    · split
      · exact hs
      · split
        · exact hs
        · rename_i s1 h1
          simpa [foldl_mem] using State.countPairs_wf h1 hs

@[simp] theorem State.answerPage_wf {s : State} (q : PageReq) (declare : Bool) (hs : Memory.wf s.mem = true) :
    Memory.wf (s.answerPage q declare).mem = true := by
  unfold State.answerPage
  dsimp only
  have woken : ∀ is : List Nat, Memory.wf
      (is.foldl (fun (s : State) i => (s.withTeam i fun t => t.answered q declare).mxGo i)
        (s.withHearth fun h => { h with requests := h.requests.filter fun r => r.rid != q.rid })).mem = true :=
    fun is => foldl_wf (fun s i h => State.mxGo_wf _ (by simpa using h)) _ hs
  split
  · have := woken
    split
    · simpa [foldl_mem] using woken _
    · exact State.refuseGroup_wf _ (by simpa [foldl_mem] using woken _)
  · refine foldl_wf (fun s c h => ?_) _ (by simpa using woken _)
    split <;> simp [h]

/-! ### Machine/Time -/

@[simp] theorem timeuse_keeps {α : Type} (detail : Nat) : Keeps (timeuse (α := α) detail) := by
  unfold timeuse
  exact .byParts

@[simp] theorem locArg_keeps (r : Reg) : Keeps (locArg r) := by
  unfold locArg
  exact .byParts

@[simp] theorem timeArg_keeps (r : Reg) (mod : BitVec 6) : Keeps (timeArg r mod) := by
  unfold timeArg
  exact .byParts

@[simp] theorem pairCheck_keeps (loc : Nat) (st : Stamp) : Keeps (pairCheck loc st) := by
  unfold pairCheck
  exact .byParts

@[simp] theorem writePair_keeps (r : Reg) (i : Nat) (st : Stamp) : Keeps (writePair r i st) := by
  unfold writePair
  exact .byParts

@[simp] theorem ltNow_keeps (f : TForm) : Keeps (ltNow f) := by
  unfold ltNow
  exact .byParts

@[simp] theorem moveNow_keeps (st : Stamp) : Keeps (moveNow st) := by
  unfold moveNow
  refine .bind tm_keeps fun t => .bind me_keeps fun i => .getBind fun s hs => ?_
  dsimp only
  split
  · exact blockAt_keeps _
  · rename_i s1 h1
    refine .set ?_
    rw [State.withTeam_mem, foldl_mem fun s h => State.releaseHold_mem s i h]
    refine foldl_bind_wf (fun s s' h e hs => ?_) h1 hs
    rcases ite_eq_iff.mp e with ⟨-, e⟩ | ⟨-, e⟩
    · cases e
      exact hs
    · exact State.addCount_wf e hs

@[simp] theorem ltAdv_keeps (f : TForm) : Keeps (ltAdv f) := by
  unfold ltAdv
  exact .byParts

@[simp] theorem ltEnter_keeps : Keeps (ltEnter) := by
  unfold ltEnter
  exact .byParts

@[simp] theorem ltLeave_keeps : Keeps (ltLeave) := by
  unfold ltLeave
  exact .byParts

@[simp] theorem ltHold_keeps (f : TForm) : Keeps (ltHold f) := by
  unfold ltHold
  exact .byParts

@[simp] theorem ltDrop_keeps (f : TForm) : Keeps (ltDrop f) := by
  unfold ltDrop
  exact .byParts

@[simp] theorem heard_keeps (loc : Nat) : Keeps (heard loc) := by
  unfold heard
  exact .byParts

@[simp] theorem observe_keeps : Keeps (observe) := by
  unfold observe
  exact .byParts

@[simp] theorem ltWait_keeps (f : TForm) : Keeps (ltWait f) := by
  unfold ltWait
  exact .byParts

@[simp] theorem ltTest_keeps (f : TForm) : Keeps (ltTest f) := by
  unfold ltTest
  exact .byParts

/-! ### Machine/Near -/

@[simp] theorem localAt_keeps (h : Holder) (asid : Nat) (u : Nat) (g : Nat) (va : Word) (need : Need) :
    Keeps (localAt h asid u g va need) := by
  unfold localAt
  exact .byParts

@[simp] theorem blockChannels_keeps (addrs : List Word) : Keeps (blockChannels addrs) := by
  unfold blockChannels
  exact .byParts

@[simp] theorem layoutCheck_keeps (want : List Nat) (chans : List Nat) : Keeps (layoutCheck want chans) := by
  unfold layoutCheck
  exact .byParts

@[simp] theorem queueBlocks_keeps (g : Nat) (bs : List (Nat × SillBlock)) : Keeps (queueBlocks g bs) := by
  induction bs with
  | nil => exact .pure _
  | cons b rest ih =>
    unfold queueBlocks
    exact .byParts

@[simp] theorem gridBlocks_keeps (f : TForm) : Keeps (gridBlocks f) := by
  unfold gridBlocks
  exact .byParts

@[simp] theorem nmLaunch_keeps (f : TForm) : Keeps (nmLaunch f) := by
  unfold nmLaunch
  exact .byParts

@[simp] theorem nmRatio_keeps (f : TForm) : Keeps (nmRatio f) := by
  unfold nmRatio
  exact .byParts

/-! ### Machine/SillOps -/

@[simp] theorem unitOfTurn_keeps : Keeps (unitOfTurn) := by
  unfold unitOfTurn
  exact .byParts

@[simp] theorem su_keeps : Keeps (su) := by
  unfold su
  exact .byParts

@[simp] theorem modSu_keeps (f : Sill → Sill) : Keeps (modSu f) := by
  unfold modSu
  exact .byParts

@[simp] theorem sillBlock_keeps : Keeps (sillBlock) := by
  unfold sillBlock
  exact .byParts

@[simp] theorem liftAct_keeps {α : Type} {a : Act α} (ha : Keeps a) : Keeps (liftAct a) := by
  refine .getBind fun s hs => .bind (.set (ha.go hs)) fun _ => ?_
  split
  · exact .pure _
  · exact .throw _

@[simp] theorem State.endBlock_mem (s : State) (chan : Nat) (fault : Option Nat) :
    (s.endBlock chan fault).mem = s.mem := by
  unfold State.endBlock
  exact memByParts

theorem runSill_wf {act : SAct Unit} {s s' : State} (ha : Keeps act) (hs : Memory.wf s.mem = true)
    (e : runSill act s = .next s') : Memory.wf s'.mem = true := by
  have acted := ha.run s hs
  unfold runSill at e
  split at e
  · cases e
  · split at e
    · cases e
    · cases e
      split <;> simpa using acted

@[simp] theorem sillWait_keeps {α : Type} : Keeps (sillWait (α := α)) := by
  unfold sillWait
  exact .byParts

@[simp] theorem sillAddr_keeps (f : SillK) : Keeps (sillAddr f) := by
  unfold sillAddr
  exact .byParts

@[simp] theorem sillReach_keeps (a : Word) (align : Nat) (need : Need) : Keeps (sillReach a align need) := by
  unfold sillReach
  exact .byParts

@[simp] theorem State.acceptOwn_wf {s : State} (b : SillBlock) (key : Nat) (n : Nat) (hs : Memory.wf s.mem = true) :
    Memory.wf (State.acceptOwn s b key n).mem = true := by
  unfold State.acceptOwn
  exact wfByParts

@[simp] theorem sillRead_keeps (off : Nat) : Keeps (sillRead off) := by
  unfold sillRead
  exact .byParts

@[simp] theorem slRd_keeps (f : SillK) : Keeps (slRd f) := by
  unfold slRd
  exact .byParts

@[simp] theorem slWr_keeps (f : SillK) : Keeps (slWr f) := by
  unfold slWr
  exact .byParts

@[simp] theorem bankCommand_keeps (f : SillK) (need : Need) {act : Nat → Nat → SAct Unit}
    (ha : ∀ b off, Keeps (act b off)) :
    Keeps (bankCommand f need act) := by
  unfold bankCommand
  exact .byParts

@[simp] theorem slMac_keeps (f : SillK) : Keeps (slMac f) :=
  bankCommand_keeps f _ fun _ off => .bind (sillRead_keeps off) fun _ => modSu_keeps _

@[simp] theorem slAct_keeps (f : SillK) : Keeps (slAct f) := by
  unfold slAct
  exact .byParts

@[simp] theorem slBx_keeps (f : SillV) : Keeps (slBx f) := by
  unfold slBx
  exact .byParts

@[simp] theorem slBred_keeps (f : SillK) : Keeps (slBred f) := by
  unfold slBred
  exact .byParts

@[simp] theorem slEach_keeps (f : SillV) (op : Num.Fmt → Nat → Nat → Nat → Nat) : Keeps (slEach f op) := by
  unfold slEach
  exact .byParts

@[simp] theorem slCvt_keeps (f : SillV) : Keeps (slCvt f) := by
  unfold slCvt
  exact .byParts

@[simp] theorem slMovi_keeps (f : SillI) : Keeps (slMovi f) := by
  unfold slMovi
  exact .byParts

@[simp] theorem slHalt_keeps : Keeps (slHalt) := by
  unfold slHalt
  exact .byParts

@[simp] theorem slFence_keeps : Keeps (slFence) := by
  unfold slFence
  exact .byParts

@[simp] theorem slAg_keeps (f : SillA) : Keeps (slAg f) := by
  unfold slAg
  exact .byParts

@[simp] theorem slLoop_keeps (f : SillL) : Keeps (slLoop f) := by
  unfold slLoop
  exact .byParts

@[simp] theorem sillSend_keeps (ws : List Word) : Keeps (sillSend ws) := by
  unfold sillSend
  exact .byParts

@[simp] theorem slSendBa_keeps (f : SillQ) : Keeps (slSendBa f) := by
  unfold slSendBa
  exact .byParts

@[simp] theorem slSendW_keeps (f : SillQ) : Keeps (slSendW f) := by
  unfold slSendW
  exact .byParts

@[simp] theorem slRecv_keeps (f : SillQ) : Keeps (slRecv f) := by
  unfold slRecv
  exact .byParts

/-! ### Machine/EventsSill -/

@[simp] theorem sillStarts_mem (chan : Nat) (s : State) : (sillStarts chan s).mem = s.mem := by
  unfold sillStarts
  exact memByParts

@[simp] theorem State.onUnit_wf {s : State} (chan : Nat) {act : SAct Unit} (ha : Keeps act)
    (hs : Memory.wf s.mem = true) :
    Memory.wf (s.onUnit chan act).mem = true := by
  unfold State.onUnit
  split
  · rename_i t e
    refine runSill_wf ha ?_ e
    exact hs
  · exact hs

@[simp] theorem sillWaves_wf (chan : Nat) {s : State} (hs : Memory.wf s.mem = true) :
    Memory.wf (sillWaves chan s).mem = true := by
  unfold sillWaves
  exact wfByParts

@[simp] theorem sillStalls_mem (chan : Nat) (s : State) : (sillStalls chan s).mem = s.mem := by
  unfold sillStalls
  exact memByParts

@[simp] theorem limits_mem (chan : Nat) (limit : Nat) (s : State) : (limits chan limit s).mem = s.mem := by
  unfold limits
  simp

@[simp] theorem layoutChanges_mem (chan : Nat) (m : Moved) (s : State) : (layoutChanges chan m s).mem = s.mem := by
  unfold layoutChanges
  simp

/-! ### Machine/Dispatching -/

@[simp] theorem teamStarts_wf (record core : Nat) {s : State} (hs : Memory.wf s.mem = true) :
    Memory.wf (teamStarts record core s).mem = true := by
  unfold teamStarts
  dsimp only
  split
  · exact hs
  · split
    · exact hs
    · split
      · rename_i b _ _ _ _ _ _
        refine getD_wf (fun s' e => State.startTeam_wf e ?_) hs
        exact hs
      · exact hs

@[simp] theorem State.halveLimits_mem (s : State) : (State.halveLimits s).mem = s.mem := by
  unfold State.halveLimits
  simp [foldl_mem]

@[simp] theorem State.giveStep_mem (s : State) : s.giveStep.mem = s.mem := by
  unfold State.giveStep
  split
  · rw [State.withHearth_mem, State.halveLimits_mem]
  · split
    · rw [State.withHearth_mem]
    · split
      · rw [State.withHearth_mem]
      · rfl

@[simp] theorem State.undoStep_mem (s : State) : s.undoStep.mem = s.mem := by
  unfold State.undoStep
  split
  · rw [State.withHearth_mem]
  · split
    · rw [State.withHearth_mem]
    · split
      · rfl
      · rw [State.withHearth_mem, foldl_mem fun s c => State.withSill_mem s c _]

@[simp] theorem timerFires_mem (watts east west : Nat) (s : State) : (timerFires watts east west s).mem = s.mem := by
  unfold timerFires
  dsimp only
  split
  · rfl
  · split <;> split <;> simp

@[simp] theorem State.settleCredits_mem (s : State) (c : List Nat) (r : Nat) (aged : Bool) :
    (s.settleCredits c r aged).mem = s.mem := by
  unfold State.settleCredits
  dsimp only
  rw [foldl_mem fun s q => State.withRegion_mem s q _, State.withRegion_mem]
  split
  · rfl
  · exact foldl_mem (fun s q => State.withRegion_mem s q _) _ s

@[simp] theorem State.writeBind_wf {s : State} (slot : Nat) (r : Nat) (p : BindPlan) (dp : Nat)
    (hs : Memory.wf s.mem = true) : Memory.wf (State.writeBind s slot r p dp).mem = true := by
  unfold State.writeBind
  simp [*, foldl_mem]

@[simp] theorem State.decideOver_wf {s : State} (fuel : Nat) (c : List Nat) (hs : Memory.wf s.mem = true) :
    Memory.wf (s.decideOver fuel c).mem = true := by
  induction fuel generalizing c with
  | zero => exact hs
  | succ fuel ih =>
    unfold State.decideOver
    dsimp only
    split
    · exact hs
    · split
      · rename_i t ht
        simp only [Option.bind_eq_bind, Option.bind_eq_some_iff, Option.pure_def, Option.some.injEq] at ht
        obtain ⟨p, -, slot, -, rfl⟩ := ht
        exact State.writeBind_wf _ _ _ _ (by simpa using hs)
      · exact ih _

@[simp] theorem State.preempt_wf {s : State} (k : Nat) (hs : Memory.wf s.mem = true) :
    Memory.wf (State.preempt s k).mem = true := by
  unfold State.preempt
  repeat' split
  all_goals simp [*]

@[simp] theorem hearthDecides_wf {s : State} (hs : Memory.wf s.mem = true) :
    Memory.wf (hearthDecides s).mem = true := by
  unfold hearthDecides
  split
  · exact hs
  · split
    · split
      · exact State.decideOver_wf _ _ hs
      · exact foldl_wf (fun s k h => State.preempt_wf k h) _ hs
    · exact State.decideOver_wf _ _ hs

/-! ### Machine/Contexts -/

@[simp] theorem drainPasses_mem (c : Nat) (s : State) : (drainPasses c s).mem = s.mem := by
  unfold drainPasses
  exact memByParts

@[simp] theorem seekEnds_mem (c : Nat) (s : State) : (seekEnds c s).mem = s.mem := by
  unfold seekEnds
  exact memByParts

@[simp] theorem State.retireBinds_mem (s : State) (l : LaunchId) : (State.retireBinds s l).mem = s.mem := by
  unfold State.retireBinds
  simp [foldl_mem]

@[simp] theorem State.carry_mem (s : State) (c : Nat) (l : LaunchId) (a : Nat) (b : Nat) :
    (State.carry s c l a b).mem = s.mem := by
  unfold State.carry
  simp

@[simp] theorem State.storeLog_mem (s : State) (core : Nat) (area : Nat) (c : Nat) :
    (State.storeLog s core area c).mem = s.mem := by
  unfold State.storeLog
  simp

@[simp] theorem saveDone_wf (c : Nat) {s : State} (hs : Memory.wf s.mem = true) :
    Memory.wf (saveDone c s).mem = true := by
  unfold saveDone
  repeat' split
  all_goals simp [*]

@[simp] theorem State.resume_wf {s : State} (i : Nat) (core : Nat) (hs : Memory.wf s.mem = true) :
    Memory.wf (State.resume s i core).mem = true := by
  unfold State.resume
  simp [*]

@[simp] theorem State.returnLog_wf {s : State} (area : Nat) (core : Nat) (mine : Nat → Bool)
    (hs : Memory.wf s.mem = true) : Memory.wf (State.returnLog s area core mine).mem = true := by
  unfold State.returnLog
  simp [*]

@[simp] theorem restoreDone_wf (c : Nat) {s : State} (hs : Memory.wf s.mem = true) :
    Memory.wf (restoreDone c s).mem = true := by
  unfold restoreDone
  split
  · dsimp only
    split
    · rename_i x _ _
      have resumed : ∀ (l : List Nat) (s : State), Memory.wf s.mem = true →
          Memory.wf (l.foldl (fun (s : State) i => s.resume i x.dest) s).mem = true := fun l s hs =>
        foldl_wf (fun s i h => State.resume_wf _ _ h) _ hs
      split
      · exact State.returnLog_wf _ _ _ (resumed _ _ (by simpa using hs))
      · rw [State.withCore_mem]
        exact State.returnLog_wf _ _ _ (resumed _ _ (by simpa using hs))
    · exact hs
  · exact hs

theorem State.undebug_wf {s s' : State} {i : Nat} (e : s.undebug i = some s') (hs : Memory.wf s.mem = true) :
    Memory.wf s'.mem = true := by
  unfold State.undebug at e
  dsimp only at e
  split at e
  · split at e
    · cases e
      exact State.returnLog_wf _ _ _ (State.resume_wf _ _ hs)
    · cases e
  · split at e
    · cases e
    · cases e
      simpa using hs

/-! ### Machine/Tasks -/

@[simp] theorem attachRing_keeps (desc : Word) : Keeps (attachRing desc) := by
  unfold attachRing
  exact .byParts

@[simp] theorem useRing_keeps (desc : Word) (pop : Bool) (push : Bool) : Keeps (useRing desc pop push) := by
  unfold useRing
  exact .byParts

@[simp] theorem State.ringPush_mem (s : State) (id : Nat) (x : RingSlot) : (State.ringPush s id x).mem = s.mem := by
  unfold State.ringPush
  simp

@[simp] theorem pushSlot_keeps (id : Nat) (bytes : List Byte) (eos : Bool) : Keeps (pushSlot id bytes eos) := by
  unfold pushSlot
  exact .byParts

@[simp] theorem headSlot_keeps (id : Nat) : Keeps (headSlot id) := by
  unfold headSlot
  exact .byParts

@[simp] theorem popSlot_keeps (id : Nat) (x : RingSlot) : Keeps (popSlot id x) := by
  unfold popSlot
  exact .byParts

@[simp] theorem ringArg_keeps (r : Reg) : Keeps (ringArg r) := by
  unfold ringArg
  exact .byParts

@[simp] theorem slotOffset_keeps (x : Word) : Keeps (slotOffset x) := by
  unfold slotOffset
  exact .byParts

@[simp] theorem slotRange_keeps (off : Nat) (n : Nat) : Keeps (slotRange off n) := by
  unfold slotRange
  exact .byParts

@[simp] theorem undone_keeps {α : Type} {act : Act α} (ha : Keeps act) : Keeps (undone act) := by
  refine .getBind fun s hs => .tryCatch ha fun e => ?_
  split
  · exact .bind (.set hs) fun _ => .throw _
  · exact .throw _

@[simp] theorem tkEq_keeps (f : TForm) : Keeps (tkEq f) := by
  refine undone_keeps ?_
  exact .byParts

@[simp] theorem tkDq_keeps (f : TForm) : Keeps (tkDq f) := by
  refine undone_keeps ?_
  exact .byParts

@[simp] theorem tkRing_keeps (f : TForm) : Keeps (tkRing f) := by
  unfold tkRing
  exact .byParts

@[simp] theorem sendTask_keeps (k : Task) : Keeps (sendTask k) := by
  unfold sendTask
  exact .byParts

@[simp] theorem pushTask_keeps {unit : Act Nat} (hu : Keeps unit) (desc : Word) (loc : Nat) (st : Stamp)
    (record : List Word) :
    Keeps (pushTask unit desc loc st record) := by
  unfold pushTask
  exact .byParts

@[simp] theorem tkPush_keeps (f : TForm) : Keeps (tkPush f) := by
  unfold tkPush
  exact .byParts

@[simp] theorem tkArgs_keeps (f : TForm) : Keeps (tkArgs f) := by
  unfold tkArgs
  exact .byParts

/-! ### Machine/Queue -/

@[simp] theorem setWords_keeps (n : Nat) (ws : List Word) : Keeps (setWords n ws) := by
  unfold setWords
  exact .byParts

@[simp] theorem atLane_keeps {α : Type} (lane : Nat) (mx : Bool) {act : Act α} (ha : Keeps act) :
    Keeps (atLane lane mx act) := by
  refine .tryCatch ha fun e => ?_
  split <;> exact .throw _

@[simp] theorem newUnit_keeps : Keeps (newUnit) := by
  unfold newUnit
  exact .byParts

@[simp] theorem copyCommand_keeps (engine : Nat) (ws : List Word) : Keeps (copyCommand engine ws) := by
  unfold copyCommand
  exact .byParts

@[simp] theorem State.sillTake_mem (s : State) (chan : Nat) (team : Nat) :
    (State.sillTake s chan team).mem = s.mem := by
  unfold State.sillTake
  simp

@[simp] theorem freePlaces_keeps (b : QBind) : Keeps (freePlaces b) := by
  unfold freePlaces
  exact .byParts

@[simp] theorem pushQ_keeps (n : Nat) (x : Word) : Keeps (pushQ n x) := by
  unfold pushQ
  exact .byParts

@[simp] theorem popQ_keeps (n : Nat) : Keeps (popQ n) := by
  unfold popQ
  exact .byParts

@[simp] theorem wordsReady_keeps (b : QBind) : Keeps (wordsReady b) := by
  unfold wordsReady
  exact .byParts

@[simp] theorem qread_keeps (slot : Nat) (r : Reg) : Keeps (qread slot r) := by
  unfold qread
  exact .byParts

@[simp] theorem qwrite_keeps (r : Reg) (x : Word) : Keeps (qwrite r x) := by
  unfold qwrite
  exact .byParts

@[simp] theorem bindQuiet_keeps (b : QBind) : Keeps (bindQuiet b) := by
  unfold bindQuiet
  exact .byParts

@[simp] theorem qBind_keeps (f : TForm) : Keeps (qBind f) := by
  unfold qBind
  refine .bind (sread_keeps _) fun x => .bind tm_keeps fun t => ?_
  extract_lets n kind ident bad desc bound attached valid decoded
  have hbound : ∀ u, Keeps (bound u) := fun u => modTm_keeps _
  have hattached : ∀ u, Keeps (attached u) := fun u => by
    clear_value bound
    unfold attached
    exact .byParts
  have hvalid : ∀ u, Keeps (valid u) := fun u => by
    clear_value bound attached
    unfold valid
    exact .byParts
  have hdecoded : ∀ u, Keeps (decoded u) := fun u => by
    clear_value valid bad
    unfold decoded
    exact .byParts
  clear_value decoded
  exact .byParts

@[simp] theorem qPut_keeps (f : TForm) : Keeps (qPut f) := by
  have lane : ∀ t l b n pair r, Keeps (atLane l b do
      pushQ n (Team.lsrc t 0 l pair r)
      serve l) := fun t l b n pair r => atLane_keeps l b .byParts
  unfold qPut
  exact .byParts

@[simp] theorem qTake_keeps (f : TForm) : Keeps (qTake f) := by
  have lane : ∀ l n pair r, Keeps (atLane l false do
      let x ← popQ n
      modTm fun t => t.ldst l pair r x
      serve l) := fun l n pair r => atLane_keeps l false .byParts
  unfold qTake
  exact .byParts

@[simp] theorem unblocked_keeps {α : Type} {act : Act α} (ha : Keeps act) : Keeps (unblocked act) := by
  refine .getBind fun s hs => .tryCatch (.map ha) fun e => ?_
  split
  · split
    · exact .throw _
    · exact .bind (.set hs) fun _ => .pure _
  · exact .throw _

@[simp] theorem qTry_keeps (f : TForm) : Keeps (qTry f) := by
  unfold qTry
  exact .byParts

@[simp] theorem qLen_keeps (f : TForm) : Keeps (qLen f) := by
  unfold qLen
  exact .byParts

/-! ### Machine/Front -/

@[simp] theorem useAll_keeps (rs : List Reg) : Keeps (useAll rs) := by
  unfold useAll
  exact .byParts

@[simp] theorem frSrc_keeps (ty : Ty) (slot : Nat) (r : Reg) : Keeps (frSrc ty slot r) := by
  unfold frSrc
  exact .byParts

@[simp] theorem frDst_keeps (ty : Ty) (r : Reg) (x : Nat) : Keeps (frDst ty r x) := by
  unfold frDst
  exact .byParts

@[simp] theorem frBin_keeps (op : Ty → Nat → Nat → Nat) (f : TForm) : Keeps (frBin op f) := by
  unfold frBin
  exact .byParts

@[simp] theorem frImm_keeps (op : Ty → Nat → Nat → Nat) (f : IForm) : Keeps (frImm op f) := by
  unfold frImm
  exact .byParts

@[simp] theorem frShift_keeps (op : Ty → Nat → Nat → Nat) (f : TForm) : Keeps (frShift op f) := by
  unfold frShift
  exact .byParts

@[simp] theorem frShiftImm_keeps (op : Ty → Nat → Nat → Nat) (f : IForm) : Keeps (frShiftImm op f) := by
  unfold frShiftImm
  exact .byParts

@[simp] theorem frUn_keeps (op : Ty → Nat → Nat) (f : TForm) : Keeps (frUn op f) := by
  unfold frUn
  exact .byParts

@[simp] theorem frDivide_keeps (op : Ty → Nat → Nat → Nat) (f : TForm) : Keeps (frDivide op f) := by
  unfold frDivide
  exact .byParts

@[simp] theorem frCmp_keeps (f : TForm) : Keeps (frCmp f) := by
  unfold frCmp
  exact .byParts

@[simp] theorem frSel_keeps (f : TForm) : Keeps (frSel f) := by
  unfold frSel
  exact .byParts

@[simp] theorem frMovi_keeps (f : IForm) : Keeps (frMovi f) := by
  unfold frMovi
  exact .byParts

@[simp] theorem frMovhi_keeps (f : IForm) : Keeps (frMovhi f) := by
  unfold frMovhi
  exact .byParts

@[simp] theorem frAddr_keeps (f : IForm) (store : Bool) : Keeps (frAddr f store) := by
  unfold frAddr
  exact .byParts

@[simp] theorem frLoad_keeps (f : IForm) : Keeps (frLoad f) := by
  unfold frLoad
  exact .byParts

@[simp] theorem frLd_keeps (f : IForm) : Keeps (frLd f) := by
  unfold frLd
  exact .byParts

@[simp] theorem frSt_keeps (f : IForm) : Keeps (frSt f) := by
  unfold frSt
  exact .byParts

@[simp] theorem readCyc_keeps : Keeps (readCyc) := by
  unfold readCyc
  exact .byParts

@[simp] theorem readCsr_keeps (n : Nat) : Keeps (readCsr n) := by
  unfold readCsr
  exact .byParts

@[simp] theorem writeCsr_keeps (n : Nat) (x : Word) : Keeps (writeCsr n x) := by
  unfold writeCsr
  exact .byParts

@[simp] theorem frCsrr_keeps (f : IForm) : Keeps (frCsrr f) := by
  unfold frCsrr
  exact .byParts

@[simp] theorem frCsrw_keeps (f : IForm) : Keeps (frCsrw f) := by
  unfold frCsrw
  exact .byParts

/-! ### Machine/Control -/

@[simp] theorem jumpTo_keeps (a : Word) : Keeps (jumpTo a) := by
  unfold jumpTo
  exact .byParts

@[simp] theorem ctlBr_keeps (f : BForm) : Keeps (ctlBr f) := by
  unfold ctlBr
  exact .byParts

@[simp] theorem ctlJmp_keeps (f : BForm) : Keeps (ctlJmp f) := by
  unfold ctlJmp
  exact .byParts

@[simp] theorem ctlCall_keeps (f : BForm) : Keeps (ctlCall f) := by
  unfold ctlCall
  exact .byParts

@[simp] theorem jumpBack_keeps (r : Reg) : Keeps (jumpBack r) := by
  unfold jumpBack
  exact .byParts

@[simp] theorem ctlBrv_keeps (f : BForm) : Keeps (ctlBrv f) := by
  unfold ctlBrv
  exact .byParts

@[simp] theorem ctlJoin_keeps : Keeps (ctlJoin) := by
  unfold ctlJoin
  exact .byParts

@[simp] theorem callLane_keeps (f : TForm) (lane : Nat) : Keeps (callLane f lane) := by
  unfold callLane
  exact .byParts

@[simp] theorem callPush_keeps (f : TForm) : Keeps (callPush f) := by
  unfold callPush
  exact .byParts

@[simp] theorem ctlCallv_keeps (f : TForm) : Keeps (ctlCallv f) := by
  unfold ctlCallv
  exact .byParts

@[simp] theorem State.passBack_mem (s : State) (team : Nat) (lane : Nat) (parent : Nat) (plane : Nat) :
    (State.passBack s team lane parent plane).mem = s.mem := by
  unfold State.passBack
  exact memByParts

@[simp] theorem ctlRetq_keeps (f : TForm) : Keeps (ctlRetq f) := by
  unfold ctlRetq
  exact .byParts

@[simp] theorem ctlExit_keeps (f : TForm) : Keeps (ctlExit f) := by
  unfold ctlExit
  exact .byParts

@[simp] theorem kDst_keeps (r : Reg) (m : Mask) : Keeps (kDst r m) := by
  unfold kDst
  exact .byParts

@[simp] theorem kmSetT_keeps (f : TForm) : Keeps (kmSetT f) := by
  unfold kmSetT
  exact .byParts

@[simp] theorem kmSetI_keeps (f : IForm) : Keeps (kmSetI f) := by
  unfold kmSetI
  exact .byParts

@[simp] theorem kmBin_keeps (op : Mask → Mask → Mask) (f : TForm) : Keeps (kmBin op f) := by
  unfold kmBin
  exact .byParts

@[simp] theorem kmNot_keeps (f : TForm) : Keeps (kmNot f) := by
  unfold kmNot
  exact .byParts

@[simp] theorem kmPop_keeps (f : TForm) : Keeps (kmPop f) := by
  unfold kmPop
  exact .byParts

@[simp] theorem kmFirst_keeps (f : TForm) : Keeps (kmFirst f) := by
  unfold kmFirst
  exact .byParts

@[simp] theorem kmInsert_keeps (d : Reg) (a : Reg) (word : Nat) : Keeps (kmInsert d a word) := by
  unfold kmInsert
  exact .byParts

@[simp] theorem kmInsT_keeps (f : TForm) : Keeps (kmInsT f) := by
  unfold kmInsT
  exact .byParts

@[simp] theorem kmExtract_keeps (d : Reg) (a : Reg) (word : Nat) : Keeps (kmExtract d a word) := by
  unfold kmExtract
  exact .byParts

@[simp] theorem kmExtT_keeps (f : TForm) : Keeps (kmExtT f) := by
  unfold kmExtT
  exact .byParts

@[simp] theorem kmExm_keeps (f : TForm) : Keeps (kmExm f) := by
  unfold kmExm
  exact .byParts

/-! ### Machine/Flags -/

@[simp] theorem settleLanes_keeps (la : BitVec 4) (dec : Bool) (outs : List LaneOut) :
    Keeps (settleLanes la dec outs) := by
  unfold settleLanes
  exact .byParts

@[simp] theorem runLanes_keeps (f : TForm) (dec : Bool) (uses : List (Reg × Nat))
    (g : Team → Nat → Nat → List Result × BitVec 5) : Keeps (runLanes f dec uses g) := by
  unfold runLanes
  exact .byParts

@[simp] theorem writeCond_keeps (f : TForm) (dec : Bool) (outs : List (Nat × CondOut)) :
    Keeps (writeCond f dec outs) := by
  unfold writeCond
  exact .byParts

@[simp] theorem runCond_keeps (f : TForm) (dec : Bool) (uses : List (Reg × Nat))
    (g : Team → Nat → Nat → Bool × BitVec 5) : Keeps (runCond f dec uses g) := by
  unfold runCond
  exact .byParts

/-! ### Machine/Lane -/

@[simp] theorem lnWords_keeps (km : Fin 16) (ty : Ty) (d : Reg) (uses : List (Reg × Nat))
    (g : Team → Nat → Nat → Word) : Keeps (lnWords km ty d uses g) := by
  unfold lnWords
  exact .byParts

@[simp] theorem lnRun_keeps (km : Fin 16) (ty : Ty) (d : Reg) (uses : List (Reg × Nat)) (g : Team → Nat → Nat → Nat) :
    Keeps (lnRun km ty d uses g) := by
  unfold lnRun
  exact .byParts

@[simp] theorem lnUn_keeps (f : TForm) (op : Nat → Nat) : Keeps (lnUn f op) := by
  unfold lnUn
  exact .byParts

@[simp] theorem lnBin_keeps (f : TForm) (op : Nat → Nat → Nat) : Keeps (lnBin f op) := by
  unfold lnBin
  exact .byParts

@[simp] theorem lnImm_keeps (f : IForm) (op : Nat → Nat → Nat) : Keeps (lnImm f op) := by
  unfold lnImm
  exact .byParts

@[simp] theorem lnShift_keeps (f : TForm) (op : Nat → Nat → Nat) : Keeps (lnShift f op) := by
  unfold lnShift
  exact .byParts

@[simp] theorem lnShiftImm_keeps (f : IForm) (op : Nat → Nat → Nat) : Keeps (lnShiftImm f op) := by
  unfold lnShiftImm
  exact .byParts

@[simp] theorem lnMad_keeps (f : TForm) : Keeps (lnMad f) := by
  unfold lnMad
  exact .byParts

@[simp] theorem lnCarry_keeps (f : TForm) (sub : Bool) : Keeps (lnCarry f sub) := by
  unfold lnCarry
  exact .byParts

@[simp] theorem lnMovi_keeps (f : IForm) : Keeps (lnMovi f) := by
  unfold lnMovi
  exact .byParts

@[simp] theorem lnMovs_keeps (f : TForm) : Keeps (lnMovs f) := by
  unfold lnMovs
  exact .byParts

@[simp] theorem lnCmp_keeps (f : TForm) : Keeps (lnCmp f) := by
  unfold lnCmp
  exact .byParts

@[simp] theorem lnSel_keeps (f : TForm) : Keeps (lnSel f) := by
  unfold lnSel
  exact .byParts

@[simp] theorem lnBfx_keeps (f : TForm) : Keeps (lnBfx f) := by
  unfold lnBfx
  exact .byParts

@[simp] theorem lnBfi_keeps (f : TForm) : Keeps (lnBfi f) := by
  unfold lnBfi
  exact .byParts

@[simp] theorem lnPerm_keeps (f : TForm) : Keeps (lnPerm f) := by
  unfold lnPerm
  exact .byParts

@[simp] theorem lnConvert_keeps (f : TForm) (sat : Bool) : Keeps (lnConvert f sat) := by
  unfold lnConvert
  exact .byParts

/-! ### Machine/Cross -/

@[simp] theorem xlMove_keeps (km : Fin 16) (ty : Ty) (d : Reg) (a : Reg) (uses : List (Reg × Nat))
    (src : Team → Nat → Nat → Option Nat) : Keeps (xlMove km ty d a uses src) := by
  unfold xlMove
  exact .byParts

@[simp] theorem xlShuffle_keeps (f : TForm) (x : Bool) : Keeps (xlShuffle f x) := by
  unfold xlShuffle
  exact .byParts

@[simp] theorem xlShuffleImm_keeps (f : IForm) (x : Bool) : Keeps (xlShuffleImm f x) := by
  unfold xlShuffleImm
  exact .byParts

@[simp] theorem xlBroadcast_keeps (km : Fin 16) (ty : Ty) (d : Reg) (a : Reg) (uses : List (Reg × Nat))
    (j : Team → Nat → Nat) : Keeps (xlBroadcast km ty d a uses j) := by
  unfold xlBroadcast
  exact .byParts

@[simp] theorem xlBcastT_keeps (f : TForm) : Keeps (xlBcastT f) := by
  unfold xlBcastT
  exact .byParts

@[simp] theorem xlBcastI_keeps (f : IForm) : Keeps (xlBcastI f) := by
  unfold xlBcastI
  exact .byParts

@[simp] theorem endFold_keeps (t : Team) (f : TForm) (steps : List (BitVec 5)) {now : Act Unit} (hn : Keeps now)
    (rs : List Result) : Keeps (endFold t f steps now rs) := by
  unfold endFold
  exact .byParts

@[simp] theorem xlRed_keeps (f : TForm) : Keeps (xlRed f) := by
  unfold xlRed
  exact .byParts

@[simp] theorem xlRedi_keeps (f : TForm) : Keeps (xlRedi f) := by
  unfold xlRedi
  refine .bind tm_keeps fun t => ?_
  split
  · exact .pure _
  · refine .getBind fun s hs => ?_
    dsimp only
    split
    · exact .pure _
    · refine endFold_keeps _ _ _ ?_ _
      exact .byParts

@[simp] theorem xlScan_keeps (f : TForm) : Keeps (xlScan f) := by
  unfold xlScan
  exact .byParts

@[simp] theorem xlBallot_keeps (f : TForm) : Keeps (xlBallot f) := by
  unfold xlBallot
  exact .byParts

/-! ### Machine/Float -/

@[simp] theorem fpUn_keeps (f : TForm) (op : Num.Fmt → Num.Rm → Bool → Num.FVal → Nat × BitVec 5) :
    Keeps (fpUn f op) := by
  unfold fpUn
  exact .byParts

@[simp] theorem fpBin_keeps (f : TForm) (op : Num.Fmt → Num.Rm → Bool → Num.FVal → Num.FVal → Nat × BitVec 5) :
    Keeps (fpBin f op) := by
  unfold fpBin
  exact .byParts

@[simp] theorem fpFma_keeps (f : TForm) : Keeps (fpFma f) := by
  unfold fpFma
  exact .byParts

@[simp] theorem fpLdexp_keeps (f : TForm) : Keeps (fpLdexp f) := by
  unfold fpLdexp
  exact .byParts

@[simp] theorem fpMinMax_keeps (f : TForm) (max : Bool) : Keeps (fpMinMax f max) := by
  unfold fpMinMax
  exact .byParts

@[simp] theorem fpSign_keeps (f : TForm) (op : Nat → Nat → Nat) : Keeps (fpSign f op) := by
  unfold fpSign
  exact .byParts

@[simp] theorem fpCmp_keeps (f : TForm) : Keeps (fpCmp f) := by
  unfold fpCmp
  exact .byParts

@[simp] theorem fpCls_keeps (f : TForm) : Keeps (fpCls f) := by
  unfold fpCls
  exact .byParts

@[simp] theorem fpRnd_keeps (f : TForm) : Keeps (fpRnd f) := by
  unfold fpRnd
  exact .byParts

@[simp] theorem fpCvt_keeps (f : TForm) : Keeps (fpCvt f) := by
  unfold fpCvt
  exact .byParts

@[simp] theorem fpFti_keeps (f : TForm) : Keeps (fpFti f) := by
  unfold fpFti
  exact .byParts

@[simp] theorem fpItf_keeps (f : TForm) : Keeps (fpItf f) := by
  unfold fpItf
  exact .byParts

@[simp] theorem fpFrexp_keeps (f : TForm) : Keeps (fpFrexp f) := by
  unfold fpFrexp
  exact .byParts

/-! ### Machine/DecimalOps -/

@[simp] theorem dcBin_keeps (f : TForm) (op : Num.Rm → Dec.DVal → Dec.DVal → Nat × BitVec 5) : Keeps (dcBin f op) := by
  unfold dcBin
  exact .byParts

@[simp] theorem dcFma_keeps (f : TForm) : Keeps (dcFma f) := by
  unfold dcFma
  exact .byParts

@[simp] theorem dcCmp_keeps (f : TForm) : Keeps (dcCmp f) := by
  unfold dcCmp
  exact .byParts

@[simp] theorem dcRnd_keeps (f : TForm) : Keeps (dcRnd f) := by
  unfold dcRnd
  exact .byParts

@[simp] theorem dcCvt_keeps (f : TForm) : Keeps (dcCvt f) := by
  unfold dcCvt
  exact .byParts

/-! ### Machine/EventsRegion -/

@[simp] theorem State.sendVector_mem (s : State) (v : Nat) : (State.sendVector s v).mem = s.mem := by
  unfold State.sendVector
  simp

@[simp] theorem State.queueDone_wf {s : State} (q : Nat) (tag : Word) (status : Nat) (state : Nat) (cause : Nat)
    (hs : Memory.wf s.mem = true) : Memory.wf (State.queueDone s q tag status state cause).mem = true := by
  unfold State.queueDone
  repeat' split
  all_goals simp [*]

@[simp] theorem bumpDone_keeps (g : Region) : Keeps (bumpDone g) := by
  unfold bumpDone
  exact .byParts

@[simp] theorem State.reportRegion_wf {s : State} (r : Nat) (hs : Memory.wf s.mem = true) :
    Memory.wf (State.reportRegion s r).mem = true := by
  unfold State.reportRegion
  exact wfByParts

@[simp] theorem regionEnds_wf (r : Nat) {s : State} (hs : Memory.wf s.mem = true) :
    Memory.wf (regionEnds r s).mem = true := by
  unfold regionEnds
  split
  · exact hs
  · rename_i g _
    dsimp only
    split
    · have bumped : ∀ s : State, Memory.wf s.mem = true → Memory.wf ((bumpDone g).go s).2.mem = true :=
        fun s hs => (bumpDone_keeps g).go hs
      split
      · rw [State.withRegion_mem]
        exact bumped _ (State.writeRcb_wf _ _ _ (by simp [hs]))
      · exact State.reportRegion_wf _ (bumped _ (State.writeRcb_wf _ _ _ (by simp [hs])))
    · exact hs

@[simp] theorem State.goOn_wf {s : State} (i : Nat) (allow : Word) (hs : Memory.wf s.mem = true) :
    Memory.wf (s.goOn i allow).mem = true := by
  unfold State.goOn
  rw [State.withTeam_mem, State.mem_ite]
  exact ite_wf (getD_wf (fun s' e => State.addCount_wf e hs) hs) hs

@[simp] theorem State.entrantOn_wf {s : State} (r e : Nat) (allow : Word) (hs : Memory.wf s.mem = true) :
    Memory.wf (s.entrantOn r e allow).mem = true := by
  unfold State.entrantOn
  dsimp only
  rw [State.mem_ite, State.withLaunch_mem, ite_self]
  exact foldl_wf (fun s t h => by split <;> simp [h]) _ hs

@[simp] theorem State.decideTournament_wf {s : State} (r w : Nat) (losers : List Nat) (hs : Memory.wf s.mem = true) :
    Memory.wf (s.decideTournament r w losers).mem = true := by
  have killed : Memory.wf (losers.foldl (fun s e => s.killEntrant r e) s).mem = true :=
    foldl_wf (fun s e h => State.killEntrant_wf r e h) _ hs
  unfold State.decideTournament
  dsimp only
  split
  · exact State.dropCount_wf _ _ _ _ _ (by simpa using State.entrantOn_wf _ _ _ killed)
  · simpa using State.entrantOn_wf _ _ _ killed

theorem State.nextRound_wf {s s' : State} {r : Nat} {survivors : List Nat} (e : s.nextRound r survivors = some s')
    (hs : Memory.wf s.mem = true) : Memory.wf s'.mem = true := by
  unfold State.nextRound at e
  dsimp only at e
  split at e
  · cases e
  · rename_i s2 h2
    cases e
    rw [State.withRegion_mem]
    exact State.dropCount_wf _ _ _ _ _ (State.addCount_wf h2 (foldl_wf (fun s e h => State.entrantOn_wf _ _ _ h) _ hs))

@[simp] theorem ranks_wf (r : Nat) {s : State} (hs : Memory.wf s.mem = true) : Memory.wf (ranks r s).mem = true := by
  unfold ranks
  split
  · exact hs
  · rename_i g0 _
    dsimp only
    split
    · exact hs
    · have settled :
    Memory.wf ((List.range g0.launches.length).foldl (fun s e => s.settleEntrant ⟨r, e⟩) s).mem = true :=
        foldl_wf (fun s e h => by simpa using h) _ hs
      generalize (List.range g0.launches.length).foldl (fun s e => s.settleEntrant ⟨r, e⟩) s = s0 at settled ⊢
      have shared : ∀ (l : List Nat) (f : Region → Region),
          Memory.wf ((l.foldl (fun s e => s.killEntrant r e) s0).withRegion r f).mem = true := fun l f => by
        rw [State.withRegion_mem]
        exact foldl_wf (fun s e h => State.killEntrant_wf r e h) _ settled
      split
      · rename_i t ht
        refine State.writeRound_wf _ ?_
        split at ht
        · cases ht
          exact State.decideTournament_wf _ _ _ (shared _ _)
        · exact State.nextRound_wf ht (shared _ _)
      · exact hs

theorem State.releaseOne_mem {s s' : State} {i : Nat} {e : Effect} (h : s.releaseOne i e = some s')
    (hs : Memory.wf s.mem = true) : Memory.wf s'.mem = true := by
  unfold State.releaseOne at h
  split at h
  · cases h
  · split at h
    · cases h
      exact hs
    · cases h
      exact hs
    · cases h
      exact hs
    · cases h
      simpa using hs
    · split at h
      · cases h
        exact State.dropCount_wf _ _ _ _ _ hs
      · split at h
        · cases h
          simpa using hs
        · cases h
    · dsimp only at h
      split at h
      · cases h
        exact hs
      · cases h

@[simp] theorem State.releaseAll_wf {s : State} (i : Nat) (fences es : List Effect) (hs : Memory.wf s.mem = true) :
    Memory.wf (s.releaseAll i fences es).mem = true := by
  induction es generalizing s fences with
  | nil =>
    unfold State.releaseAll
    rwa [State.withTeam_mem]
  | cons e rest ih =>
    unfold State.releaseAll
    split
    · exact ih _ hs
    · dsimp only
      split
      · rename_i s1 h1
        refine ih _ ?_
        split at h1
        · cases h1
        · exact State.releaseOne_mem h1 hs
      · simpa using hs

@[simp] theorem State.ticketTurn_wf {s : State} (l : LaunchId) (hs : Memory.wf s.mem = true) :
    Memory.wf (State.ticketTurn s l).mem = true := by
  unfold State.ticketTurn
  repeat' split
  all_goals simp [*]

@[simp] theorem ticketReleases_wf (r : Nat) {s : State} (hs : Memory.wf s.mem = true) :
    Memory.wf (ticketReleases r s).mem = true := by
  unfold ticketReleases
  exact wfByParts

/-! ### Machine/EventsHost -/

@[simp] theorem State.losing_mem (s : State) (hit : Nat → Bool) : (State.losing s hit).mem = s.mem := by
  unfold State.losing
  simp

@[simp] theorem State.loseExpander_mem (s : State) (e : Nat) : (State.loseExpander s e).mem = s.mem := by
  unfold State.loseExpander
  simp

@[simp] theorem State.loseBehind_mem (s : State) (link : Nat) : (State.loseBehind s link).mem = s.mem := by
  unfold State.loseBehind
  simp [foldl_mem]

@[simp] theorem hostTrains_mem (link : Nat) (lanes : Nat) (cxl : Bool) (s : State) :
    (hostTrains link lanes cxl s).mem = s.mem := by
  unfold hostTrains
  simp

@[simp] theorem cxlLost_mem (e : Nat) (s : State) : (cxlLost e s).mem = s.mem := by
  unfold cxlLost
  simp

@[simp] theorem timesOut_mem (e : Nat) (s : State) : (timesOut e s).mem = s.mem := by
  unfold timesOut
  simp

@[simp] theorem cxlTrains_mem (e : Nat) (s : State) : (cxlTrains e s).mem = s.mem := by
  unfold cxlTrains
  simp

@[simp] theorem portFails_mem (p : Nat) (s : State) : (portFails p s).mem = s.mem := by
  unfold portFails
  simp

@[simp] theorem resets_wf {s : State} (hs : Memory.wf s.mem = true) : Memory.wf (resets s).mem = true := by
  unfold resets
  simp [*]

@[simp] theorem State.vault_wf {s : State} (hs : Memory.wf s.mem = true) : Memory.wf s.vault.mem = true :=
  memory_filter_wf _ hs

@[simp] theorem goesIdle_wf {s : State} (hs : Memory.wf s.mem = true) : Memory.wf (goesIdle s).mem = true := by
  unfold goesIdle
  repeat' split
  all_goals simp [*]

@[simp] theorem wakes_mem (s : State) : (wakes s).mem = s.mem := by
  unfold wakes
  simp

@[simp] theorem State.setSev_mem (s : State) (b : Nat) (sev : Nat) : (State.setSev s b sev).mem = s.mem := by
  unfold State.setSev
  simp

@[simp] theorem State.withChannel_mem (s : State) (c : Nat) (f : Channel → Channel) :
    (State.withChannel s c f).mem = s.mem := by
  unfold State.withChannel
  simp

@[simp] theorem State.spoil_mem (s : State) (atom : Nat) (chan : Nat) : (State.spoil s atom chan).mem = s.mem := by
  unfold State.spoil
  simp

@[simp] theorem State.corrects_mem (s : State) (atom : Nat) (chan : Nat) :
    (State.corrects s atom chan).mem = s.mem := by
  unfold State.corrects
  simp

@[simp] theorem scrubs_mem (atom : Nat) (found : Nat) (s : State) : (scrubs atom found s).mem = s.mem := by
  unfold scrubs
  repeat' split
  all_goals simp

@[simp] theorem writeAdmpi_mem (v : BitVec 32) (s : State) : (writeAdmpi v s).mem = s.mem := by
  unfold writeAdmpi
  simp

@[simp] theorem writeAdmcc_mem (v : BitVec 32) (s : State) : (writeAdmcc v s).mem = s.mem := by
  unfold writeAdmcc
  simp

@[simp] theorem writeWqpi_mem (q : Nat) (v : BitVec 32) (s : State) : (writeWqpi q v s).mem = s.mem := by
  unfold writeWqpi
  simp

@[simp] theorem writeWqcc_mem (q : Nat) (v : BitVec 32) (s : State) : (writeWqcc q v s).mem = s.mem := by
  unfold writeWqcc
  simp

@[simp] theorem State.barWord_mem (s : State) (off : Nat) (v : Nat) : (State.barWord s off v).mem = s.mem := by
  unfold State.barWord
  simp

@[simp] theorem barWrites_mem (off : Nat) (size : Nat) (v : BitVec 64) (s : State) :
    (barWrites off size v s).mem = s.mem := by
  unfold barWrites
  simp

@[simp] theorem openRoot_keeps (q : Nat) (w : WorkQueue) (rcb : Word) (tag : Word) (good : Bool) :
    Keeps (openRoot q w rcb tag good) := by
  unfold openRoot
  exact .byParts

@[simp] theorem submits_wf (q : Nat) {s : State} (hs : Memory.wf s.mem = true) :
    Memory.wf (submits q s).mem = true := by
  unfold submits
  split
  · exact hs
  · split
    · dsimp only
      have opened := fun w r t g => (openRoot_keeps q w r t g).go hs
      split
      · simpa using opened _ _ _ _
      · exact State.queueDone_wf _ _ _ _ _ (by simpa using opened _ _ _ _)
      · simpa using opened _ _ _ _
      · exact opened _ _ _ _
    · exact hs

/-! ### Machine/Image -/

@[simp] theorem hearthRead_keeps (asid : Nat) (a : Nat) (n : Nat) : Keeps (hearthRead asid a n) := by
  unfold hearthRead
  exact .byParts

@[simp] theorem loadedAsFiled_keeps (asid : Nat) (b : List Byte) (hs : List SectHead) :
    Keeps (loadedAsFiled asid b hs) := by
  unfold loadedAsFiled
  exact .byParts

@[simp] theorem checkImage_keeps (asid : Nat) (a : Word) (length : Nat) : Keeps (checkImage asid a length) := by
  unfold checkImage
  exact .byParts

/-! ### Machine/EventsAdmin -/

@[simp] theorem State.adminDone_wf {s : State} (slot : List Byte) (status : Nat) (result : Option Word)
    (hs : Memory.wf s.mem = true) : Memory.wf (State.adminDone s slot status result).mem = true := by
  unfold State.adminDone
  simp [*]

/-- What an admin command comes to is a state whose memory is in its form. -/
def AdminWf (o : Option Admin) : Prop := ∀ x, o = some x → Memory.wf x.1.mem = true

@[simp] theorem adminWf_none : AdminWf none := fun _ e => by cases e

@[simp] theorem adminWf_some {x : Admin} : AdminWf (some x) ↔ Memory.wf x.1.mem = true :=
  ⟨fun h => h x rfl, fun h _ e => by cases e; exact h⟩

@[simp] theorem State.admin_wf {s : State} (op : Nat) {f : State → Option Admin} (hf : AdminWf (f s))
    (hs : Memory.wf s.mem = true) : Memory.wf (s.admin op f).mem = true := by
  unfold State.admin
  split
  · exact hs
  · split
    · exact hs
    · split
      · exact State.adminDone_wf _ _ _ hs
      · split
        · exact hs
        · split
          · exact State.adminDone_wf _ _ _ hs
          · split
            · exact hs
            · exact State.adminDone_wf _ _ _ (hf _ ‹_›)

/-- Each body of an admin command answers with a state whose memory is in its form. -/
@[simp] theorem createWq_wf (q : Nat) (ring : Word) (slots : Nat) (compl : Word) (asid vector : Nat) {s : State}
    (hs : Memory.wf s.mem = true) : AdminWf (createWq q ring slots compl asid vector s) := by
  unfold createWq
  repeat' split
  all_goals simp [hs]

@[simp] theorem deleteWq_wf (q : Nat) {s : State} (hs : Memory.wf s.mem = true) :
    Memory.wf (deleteWq q s).mem = true := by
  unfold deleteWq
  dsimp only
  have closed : Memory.wf (match s.adminSlot with
    | some b =>
      if bytesAt b 0 1 = 0x02 && bytesAt b 1 3 = 0 && s.hearth.cellar != 1 then
        s.withHearth fun h => { h with queues := SMap.alter h.queues q fun w => { w with closing := true } }
      else s
    | none => s).mem = true := by
    repeat' split
    all_goals simp [hs]
  refine State.admin_wf _ ?_ closed
  repeat' split
  all_goals simp [*]

@[simp] theorem registerAs_wf (record : Word) {s : State} (hs : Memory.wf s.mem = true) :
    AdminWf (registerAs record s) := by
  unfold registerAs
  dsimp only
  repeat' split
  all_goals simp [hs]

@[simp] theorem releaseAs_wf (asid : Nat) {s : State} (hs : Memory.wf s.mem = true) : AdminWf (releaseAs asid s) := by
  unfold releaseAs
  repeat' split
  all_goals simp [hs]

@[simp] theorem pageAnswers_wf (rid answer : Nat) {s : State} (hs : Memory.wf s.mem = true) :
    AdminWf (pageAnswers rid answer s) := by
  unfold pageAnswers
  repeat' split
  all_goals simp [hs]

@[simp] theorem raiseFloor_wf (asid timeline value : Nat) {s : State} (hs : Memory.wf s.mem = true) :
    AdminWf (raiseFloor asid timeline value s) := by
  unfold raiseFloor
  dsimp only
  repeat' split
  all_goals simp [hs]

@[simp] theorem setWindow_wf (n asid : Nat) (base length bar2 version : Word) {s : State}
    (hs : Memory.wf s.mem = true) :
    AdminWf (setWindow n asid base length bar2 version s) := by
  unfold setWindow
  repeat' split
  all_goals simp [hs]

@[simp] theorem clearWindow_wf (n : Nat) {s : State} (hs : Memory.wf s.mem = true) : AdminWf (clearWindow n s) := by
  unfold clearWindow
  repeat' split
  all_goals simp [hs]

@[simp] theorem setCap_wf (watts : Nat) {s : State} (hs : Memory.wf s.mem = true) : AdminWf (setCap watts s) := by
  unfold setCap
  split <;> simp [hs]

@[simp] theorem setLtol_wf (micros : BitVec 32) {s : State} (hs : Memory.wf s.mem = true) :
    AdminWf (setLtol micros s) := by
  unfold setLtol
  simp [hs]

@[simp] theorem setDrain_wf (cycles : Nat) {s : State} (hs : Memory.wf s.mem = true) : AdminWf (setDrain cycles s) := by
  unfold setDrain
  split <;> simp [hs]

@[simp] theorem debugs_wf (asid : Nat) (on : Bool) (ctx : Nat) {s : State} (hs : Memory.wf s.mem = true) :
    AdminWf (debugs asid on ctx s) := by
  unfold debugs
  dsimp only
  repeat' split
  case h_1 s2 h2 =>
    exact adminWf_some.mpr
      (foldl_bind_wf (f := fun i s => s.undebug i) (fun _ _ _ e h => State.undebug_wf e h) h2 (by simpa using hs))
  all_goals simp [hs]

@[simp] theorem resetLink_wf (link e : Nat) {s : State} (hs : Memory.wf s.mem = true) :
    AdminWf (resetLink link e s) := by
  unfold resetLink
  dsimp only
  repeat' split
  all_goals simp [hs]

@[simp] theorem readFaultlog_wf (buffer first : Word) (count : Nat) {s : State} (hs : Memory.wf s.mem = true) :
    AdminWf (readFaultlog buffer first count s) := by
  unfold readFaultlog
  simp [hs]

@[simp] theorem checksImage_wf (asid : Nat) (a : Word) (length : Nat) {s : State} (hs : Memory.wf s.mem = true) :
    AdminWf (checksImage asid a length s) := by
  have checked := (checkImage_keeps asid a length).go hs
  unfold checksImage
  dsimp only
  repeat' split
  all_goals simp [hs, checked]

@[simp] theorem enrolKey_wf (pair : Word) (slot : Nat) {s : State} (hs : Memory.wf s.mem = true) :
    AdminWf (enrolKey pair slot s) := by
  unfold enrolKey
  repeat' split
  all_goals simp [hs]

@[simp] theorem loadFw_wf (image : Word) {s : State} (hs : Memory.wf s.mem = true) : AdminWf (loadFw image s) := by
  unfold loadFw
  dsimp only
  split <;> simp [hs]

@[simp] theorem attests_wf (nonce : List Byte) (buffer : Word) {s : State} (hs : Memory.wf s.mem = true) :
    AdminWf (attests nonce buffer s) := by
  unfold attests
  split <;> simp [hs]

@[simp] theorem summarises_wf (buffer : Word) (length : Nat) {s : State} (hs : Memory.wf s.mem = true) :
    AdminWf (summarises buffer length s) := by
  unfold summarises
  dsimp only
  split <;> simp [hs]

@[simp] theorem State.cellarMoves_mem (s : State) : (State.cellarMoves s).mem = s.mem := by
  unfold State.cellarMoves
  simp

@[simp] theorem checkpoints_wf (target asids : Word) {s : State} (hs : Memory.wf s.mem = true) :
    Memory.wf (checkpoints target asids s).mem = true := by
  unfold checkpoints
  split
  · exact hs
  · split
    · dsimp only
      rw [State.withHearth_mem]
      exact foldl_wf (fun s r h => by split <;> simp [h]) _ (by simpa using hs)
    · exact State.admin_wf _ (by simpa using hs) hs

@[simp] theorem State.applyAll_wf {s : State} (hs : Memory.wf s.mem = true) :
    Memory.wf (State.applyAll s).mem = true := by
  unfold State.applyAll
  exact wfByParts

@[simp] theorem checkpointEnds_wf {s : State} (hs : Memory.wf s.mem = true) :
    Memory.wf (checkpointEnds s).mem = true := by
  unfold checkpointEnds
  exact wfByParts

@[simp] theorem State.cellarFails_wf {s : State} (hs : Memory.wf s.mem = true) :
    Memory.wf (State.cellarFails s).mem = true := by
  unfold State.cellarFails
  exact wfByParts

@[simp] theorem linkFails_wf (link : Nat) {s : State} (hs : Memory.wf s.mem = true) :
    Memory.wf (linkFails link s).mem = true := by
  unfold linkFails
  repeat' split
  all_goals simp [*]

@[simp] theorem restores_wf (target : Word) {s : State} (hs : Memory.wf s.mem = true) :
    AdminWf (restores target s) := by
  unfold restores
  split
  · simpa using hs
  · split
    · simpa using hs
    · rename_i c _
      refine adminWf_some.mpr ?_
      dsimp only
      rw [State.cellarMoves_mem, State.withHearth_mem]
      have kept := memory_filter_wf (fun x : Host.Cell => !s.inSpans c.spans x.1) hs
      generalize s.mem.filter (fun x : Host.Cell => !s.inSpans c.spans x.1) = m at kept ⊢
      induction c.mem generalizing m with
      | nil => exact kept
      | cons x l ih => exact ih _ (writeByte_wf _ _ kept)

@[simp] theorem restoreTurn_wf (target : Word) {s : State} (hs : Memory.wf s.mem = true) :
    Memory.wf (restoreTurn target s).mem = true := by
  unfold restoreTurn
  split
  · split
    · simpa using hs
    · exact State.admin_wf _ (restores_wf _ hs) hs
  · exact hs

/-! ### Machine/Issue -/

@[simp] theorem State.nextTurn_mem (s : State) : s.nextTurn.2.mem = s.mem := by
  unfold State.nextTurn
  split <;> rfl

@[simp] theorem State.illegal_wf {s : State} (i : Nat) (n : Nat) (o : OpenClause) (w : Word)
    (hs : Memory.wf s.mem = true) : Memory.wf (State.illegal s i n o w).mem = true := by
  unfold State.illegal
  simp [*]

@[simp] theorem State.placeCore_mem (s : State) (w : Word) : (State.placeCore s w).mem = s.mem := by
  unfold State.placeCore
  simp

@[simp] theorem State.placeSill_mem (s : State) (w : BitVec 32) : (State.placeSill s w).mem = s.mem := by
  unfold State.placeSill
  simp

/-! ### Machine/Region -/

@[simp] theorem rcbArg_keeps (r : Reg) (write : Bool) : Keeps (rcbArg r write) := by
  unfold rcbArg
  exact .byParts

@[simp] theorem rcbTurn_keeps (key : Nat) (n : Nat) : Keeps (rcbTurn key n) := by
  unfold rcbTurn
  exact .byParts

@[simp] theorem rcbRead_keeps (key : Nat) (n : Nat) : Keeps (rcbRead key n) := by
  unfold rcbRead
  exact .byParts

@[simp] theorem State.overStaged_mem (s : State) (i : Nat) (key : Nat) (n : Nat) :
    (State.overStaged s i key n).mem = s.mem := by
  unfold State.overStaged
  exact memByParts

@[simp] theorem rcbOfTime_keeps (rcb : Word) (b : List Byte) : Keeps (rcbOfTime rcb b) := by
  unfold rcbOfTime
  exact .byParts

@[simp] theorem rgOpen_keeps (f : TForm) : Keeps (rgOpen f) := by
  unfold rgOpen
  exact .byParts

@[simp] theorem childAt_keeps (rcb : Word) : Keeps (childAt rcb) := by
  unfold childAt
  exact .byParts

@[simp] theorem rgClose_keeps (f : TForm) : Keeps (rgClose f) := by
  unfold rgClose
  exact .byParts

@[simp] theorem rgScore_keeps (f : TForm) : Keeps (rgScore f) := by
  unfold rgScore
  exact .byParts

@[simp] theorem freeBehind_keeps (core : Nat) (l : LaunchId) : Keeps (freeBehind core l) := by
  unfold freeBehind
  exact .byParts

@[simp] theorem rgGrow_keeps (f : TForm) : Keeps (rgGrow f) := by
  unfold rgGrow
  exact .byParts

@[simp] theorem infoField_keeps (w : Nat) (x : Nat) : Keeps (infoField w x) := by
  unfold infoField
  exact .byParts

@[simp] theorem rgInfo_keeps (f : TForm) : Keeps (rgInfo f) := by
  unfold rgInfo
  exact .byParts

@[simp] theorem rgAllow_keeps (f : TForm) : Keeps (rgAllow f) := by
  unfold rgAllow
  exact .byParts

/-! ### Machine/Scaled -/

@[simp] theorem scRun_keeps (f : TForm) (uses : List (Reg × Nat)) (g : Team → Nat → List Result) :
    Keeps (scRun f uses g) := by
  unfold scRun
  exact .byParts

@[simp] theorem scQuant_keeps (f : TForm) : Keeps (scQuant f) := by
  unfold scQuant
  exact .byParts

@[simp] theorem scScale_keeps (f : TForm) : Keeps (scScale f) := by
  unfold scScale
  exact .byParts

@[simp] theorem scDeq_keeps (f : TForm) : Keeps (scDeq f) := by
  unfold scDeq
  exact .byParts

@[simp] theorem scPack_keeps (f : TForm) : Keeps (scPack f) := by
  unfold scPack
  exact .byParts

@[simp] theorem scUnpack_keeps (f : TForm) : Keeps (scUnpack f) := by
  unfold scUnpack
  exact .byParts

@[simp] theorem scSpec_keeps (f : TForm) : Keeps (scSpec f) := by
  unfold scSpec
  exact .byParts

/-! ### Machine/Sys -/

@[simp] theorem sysTrap_keeps (f : TForm) : Keeps (sysTrap f) := by
  unfold sysTrap
  exact .byParts

@[simp] theorem sysEret_keeps (f : TForm) : Keeps (sysEret f) := by
  unfold sysEret
  exact .byParts

@[simp] theorem sysFrec_keeps (f : TForm) : Keeps (sysFrec f) := by
  unfold sysFrec
  exact .byParts

@[simp] theorem sysFlog_keeps (f : TForm) : Keeps (sysFlog f) := by
  unfold sysFlog
  exact .byParts

@[simp] theorem sysYield_keeps : Keeps (sysYield) := by
  unfold sysYield
  exact .byParts

@[simp] theorem sysDbg_keeps (f : TForm) : Keeps (sysDbg f) := by
  unfold sysDbg
  exact .byParts

end Sys2Proof.Machine
end

section
/-! PROOF. The form of memory through a whole step (O59). -/

namespace Sys2Proof.Machine

open Sys2Proof

set_option Elab.async false

theorem runCore_wf {a : Act Unit} {s s' : State} (ha : Keeps a) (hs : Memory.wf s.mem = true)
    (e : runCore a s = .next s') : Memory.wf s'.mem = true := by
  unfold runCore at e
  split at e
  · cases e
  · split at e
    · cases e
    · cases e
      exact conclude_wf _ (ha.go hs)

theorem runEvent_wf {f : State → State} {s s' : State} (hf : Memory.wf (f s).mem = true)
    (e : runEvent f s = .next s') : Memory.wf s'.mem = true := by
  cases e
  exact hf

/-- Every meaning of the model keeps the form: it is an action of a team, a command of a unit, or an event. -/
theorem exec_wf {i : Instr} {s s' : State} (hs : Memory.wf s.mem = true) (e : exec i s = .next s') :
    Memory.wf s'.mem = true := by
  unfold exec at e
  split at e
  all_goals first | refine runCore_wf ?_ hs e | refine runSill_wf ?_ hs e | refine runEvent_wf ?_ e
  all_goals simp [hs]

/-- The state that a turn comes to. -/
def Pick.state : Pick → State
  | .run s _ => s
  | .done s => s

@[simp] theorem State.issue_wf {s : State} (i : Nat) (o : OpenClause) (hs : Memory.wf s.mem = true) :
    Memory.wf (s.issue i o).state.mem = true := by
  unfold State.issue
  dsimp only
  have taken : Memory.wf (if (s.team i).keptKey then s.takeKept i else s).mem = true := by split <;> simp [hs]
  generalize (if (s.team i).keptKey then s.takeKept i else s) = s0 at taken ⊢
  have counted : ∀ w, Memory.wf (if (s.team i).reissue then s0
      else (s0.passed i).withTeam i fun t => t.counted o.eng w).mem = true := fun w => by
    split <;> simp [taken]
  split
  · exact State.illegal_wf _ _ _ _ (counted _)
  · split <;> exact counted _

@[simp] theorem State.teamTurn_wf {s : State} (i : Nat) (hs : Memory.wf s.mem = true) :
    Memory.wf (s.teamTurn i).state.mem = true := by
  unfold State.teamTurn
  dsimp only
  split
  · exact hs
  · split
    · exact hs
    · split
      · exact hs
      · exact hs
      · exact hs
      · split
        · exact State.issue_wf i _ hs
        · exact hs

theorem State.sillTurn_mem (s : State) (c : Nat) : (s.sillTurn c).state.mem = s.mem := by
  unfold State.sillTurn
  dsimp only
  split
  · rfl
  · split
    · exact s.endBlock_mem c none
    · split <;> rfl

theorem State.pick_wf {s : State} (t : Turn) (hs : Memory.wf s.mem = true) : Memory.wf (s.pick t).state.mem = true := by
  cases t with
  | team i => exact State.teamTurn_wf i hs
  | sill c => exact (congrArg _ (s.sillTurn_mem c)).trans hs
  | event e => exact hs

theorem step_sound {s s' : State} (hs : s.Sound) (e : step s = .next s') : s'.Sound := by
  have picked := State.pick_wf s.nextTurn.1 ((congrArg Memory.wf s.nextTurn_mem).trans hs)
  unfold step at e
  dsimp only at e
  split at e
  · rename_i t i ht
    rw [ht] at picked
    exact exec_wf picked e
  · rename_i t ht
    rw [ht] at picked
    cases e
    exact picked

end Sys2Proof.Machine

namespace Sys2Proof.Claims

open Sys2Proof Sys2Proof.Machine Sys2Proof.Claims

/-- Settles O59: a turn moves no memory, and what it runs is an action, a command or an event, each of which keeps the
form. -/
theorem stepKeepsSound : Obligations.StepKeepsSound := fun _ _ hs e => step_sound hs e

end Sys2Proof.Claims
end

section
/-! PROOF. The lane path of the mem instructions: what the elements of a lane reach where all are mapped (R185, R188,
R191), and an action for each of a list of lanes. -/

namespace Sys2Proof.Machine

open Sys2Proof Sys2Proof.Claims

variable {s : State} {i : Nat} {t : Team} {α β : Type}

/-! ## Actions for each of a list -/

/-- An action for each of a list, where what holds of the state follows the elements served. -/
theorem Act.go_mapM_along {f : α → Act β} {g : α → β} {P : List α → State → Prop} (l : List α) (pre : List α)
    (h : ∀ pre a, a ∈ l → ∀ s, P pre s → ∃ s', Act.go (f a) s = (.ok (g a), s') ∧ P (pre ++ [a]) s')
    {s : State} (hs : P pre s) :
    ∃ s', Act.go (l.mapM f) s = (.ok (l.map g), s') ∧ P (pre ++ l) s' := by
  induction l generalizing s pre with
  | nil => exact ⟨s, rfl, by simpa using hs⟩
  | cons a l ih =>
    obtain ⟨s1, h1, hp1⟩ := h pre a (by simp) s hs
    obtain ⟨s2, h2, hp2⟩ := ih (pre ++ [a]) (fun p b hb => h p b (by simp [hb])) hp1
    refine ⟨s2, ?_, by simpa using hp2⟩
    rw [List.mapM_cons, Act.go_bind_ok h1, Act.go_bind_ok h2]
    rfl

/-- The same for actions without an answer. -/
theorem Act.go_forM_along {f : α → Act Unit} {P : List α → State → Prop} (l : List α) (pre : List α)
    (h : ∀ pre a, a ∈ l → ∀ s, P pre s → ∃ s', Act.go (f a) s = (.ok (), s') ∧ P (pre ++ [a]) s')
    {s : State} (hs : P pre s) :
    ∃ s', Act.go (l.forM f) s = (.ok (), s') ∧ P (pre ++ l) s' := by
  induction l generalizing s pre with
  | nil => exact ⟨s, rfl, by simpa using hs⟩
  | cons a l ih =>
    obtain ⟨s1, h1, hp1⟩ := h pre a (by simp) s hs
    obtain ⟨s2, h2, hp2⟩ := ih (pre ++ [a]) (fun p b hb => h p b (by simp [hb])) hp1
    refine ⟨s2, ?_, by simpa using hp2⟩
    show Act.go (f a >>= fun _ => l.forM f) s = _
    rw [Act.go_bind_ok h1, h2]

/-! ## One team alone -/

/-- A state that differs from another in one team alone, which is at issue there and stands as `u`. -/
structure OnlyTeam (s : State) (i : Nat) (u : Team) (s' : State) : Prop where
  atIssue : AtIssue s' i u
  rest : ∀ w : Team, (s'.withTeam i fun _ => w) = s.withTeam i fun _ => w

theorem OnlyTeam.refl (h : AtIssue s i t) : OnlyTeam s i t s := ⟨h, fun _ => rfl⟩

theorem OnlyTeam.trans {s' s'' : State} {u w : Team} (a : OnlyTeam s i u s') (b : OnlyTeam s' i w s'') : OnlyTeam s i w s'' :=
  ⟨b.atIssue, fun x => (b.rest x).trans (a.rest x)⟩

/-- The team written anew. -/
theorem OnlyTeam.write {s' : State} {u : Team} (o : OnlyTeam s i u s') (w : Team) : OnlyTeam s i w (s'.withTeam i fun _ => w) :=
  ⟨o.atIssue.withTeam _, fun x => (s'.withTeam_again i w fun _ => x).trans (o.rest x)⟩

/-- What no team's change touches is as it was. -/
theorem OnlyTeam.same {γ : Type} {s' : State} {u : Team} (o : OnlyTeam s i u s') (F : State → γ)
    (hF : ∀ (s : State) (w : Team), F (s.withTeam i fun _ => w) = F s) : F s' = F s :=
  calc F s' = F (s'.withTeam i fun _ => u) := (hF s' u).symm
    _ = F (s.withTeam i fun _ => u) := by rw [o.rest]
    _ = F s := hF s u

/-- A change of the team at issue. -/
theorem OnlyTeam.go_modTm {s' : State} {u : Team} (o : OnlyTeam s i u s') (g : Team → Team) :
    ∃ s'', Act.go (modTm g) s' = (.ok (), s'') ∧ OnlyTeam s i (g u) s'' :=
  ⟨_, o.atIssue.go_modTm g, o.write _⟩

/-- An instruction whose action leaves a state changed in its team alone completes, up to what retiring forgets. -/
theorem OnlyTeam.completes {ins : Instr} {act : Act Unit} {s0 s' : State} {t0 u w : Team} (o : OnlyTeam s i u s')
    (h : AtIssue s0 i t0) (hf : SMap.find s.teams i = some t) (he : exec ins s0 = runCore act s0)
    (hgo : Act.go act s0 = (.ok (), s')) (hc : u.closed = w.closed) (hu : u.unitNow = w.unitNow) :
    CompletesAs ins s0 i (s.withTeam i fun _ => w) := by
  rw [CompletesAs, he, runCore_ok h.1 h.2 hgo, ← State.retire_self o.atIssue.2, o.rest, State.retire_congr hf hc hu]

/-! ## The elements of a lane -/

/-- Page registers of lanes that hold translations the team may find. -/
def PagesOf (s : State) (t : Team) (pages : SMap Tlb) : Prop := ∀ x ∈ pages, x.2 ∈ t.translations s

theorem pagesOf_self (s : State) (t : Team) : PagesOf s t t.lanePages := fun x hx => by
  simp only [Team.translations, List.mem_append, List.mem_map]
  exact .inl (.inr ⟨x, hx, rfl⟩)

/-- What the page registers serve was the team's to find before. -/
theorem PagesOf.translations {pages : SMap Tlb} (h : PagesOf s t pages) {s' : State} {u : Team} (hc : s'.cores = s.cores)
    (hu : u.core = t.core ∧ u.frontPage = t.frontPage ∧ u.lanePages = pages) :
    ∀ e ∈ u.translations s', e ∈ t.translations s := by
  obtain ⟨core, front, lanes⟩ := hu
  intro e he
  simp only [Team.translations, State.core, hc, core, front, lanes, List.mem_append, List.mem_map] at he
  rcases he with (he | ⟨x, hx, rfl⟩) | he
  · simp only [Team.translations, State.core, List.mem_append]
    exact .inl (.inl he)
  · exact h x hx
  · simp only [Team.translations, List.mem_append]
    exact .inr he

/-- Elements reached at keys, each of a kind of its own. -/
def ReachedAt (rs : List Reached) (keys : List Nat) : Prop := List.Forall₂ (fun r k => ∃ kind, r = .key k kind) rs keys

theorem ReachedAt.keysOf {rs : List Reached} {keys : List Nat} (h : ReachedAt rs keys) : Machine.keysOf rs = keys := by
  induction h with
  | nil => rfl
  | cons hr _ ih =>
    obtain ⟨kind, rfl⟩ := hr
    simpa [Machine.keysOf] using ih

/-- Each is a key. -/
theorem ReachedAt.isKey {rs : List Reached} {keys : List Nat} (h : ReachedAt rs keys) : ∀ r ∈ rs, ∃ k kind, r = .key k kind := by
  induction h with
  | nil => simp
  | cons hr _ ih =>
    obtain ⟨kind, rfl⟩ := hr
    simpa using ih

/-- A state in which only page registers of the lanes of a team have changed, to translations of the team's. -/
structure PagedBy (s : State) (i : Nat) (t : Team) (pages : SMap Tlb) (s' : State) : Prop where
  own : PagesOf s t pages
  only : OnlyTeam s i (t.paged pages t.frontPage) s'

theorem PagedBy.refl (h : AtIssue s i t) : PagedBy s i t t.lanePages s := ⟨pagesOf_self s t, OnlyTeam.refl h⟩

theorem PagedBy.cores {pages : SMap Tlb} {s' : State} (p : PagedBy s i t pages s') : s'.cores = s.cores :=
  p.only.same State.cores fun _ _ => rfl

/-- What was mapped stays so. -/
theorem PagedBy.mapped {pages : SMap Tlb} {s' : State} (p : PagedBy s i t pages s') (h : AtIssue s i t) {va : Word} {need : Need}
    {key : Nat} (m : Mapped s i t va need key) : Mapped s' i (t.paged pages t.frontPage) va need key :=
  m.of_translations p.cores (p.only.same State.channels fun _ _ => rfl) (by rw [p.only.atIssue.team, h.team]; rfl)
    ⟨rfl, rfl, rfl, rfl, rfl⟩
    (p.own.translations p.cores ⟨rfl, rfl, rfl⟩)

/-- A mapped address is reached on the lane path, and no more changes than a page register. -/
theorem PagedBy.go_reach {pages : SMap Tlb} {s' : State} (p : PagedBy s i t pages s') (h : AtIssue s i t) {va : Word}
    {need : Need} {key : Nat} (m : Mapped s i t va need key) (lane access : Nat) (logged : Bool) :
    ∃ kind pages' s'', Act.go (reach (.lane i lane) va need access true logged) s' = (.ok (.key key kind), s'') ∧
      PagedBy s i t pages' s'' := by
  obtain ⟨e, kind, he, hgo⟩ := Machine.go_reach p.only.atIssue (p.mapped h m) (.inr (.inl ⟨lane, rfl⟩)) access true logged
  refine ⟨kind, SMap.put pages lane e, _, hgo, fun x hx => ?_, ?_⟩
  · rcases SMap.mem_put hx with rfl | hx
    · exact p.own.translations (u := t.paged pages t.frontPage) p.cores ⟨rfl, rfl, rfl⟩ e he
    · exact p.own x hx
  · have keep : s'.keep (.lane i lane) e false = s'.withTeam i fun x => { x with lanePages := SMap.put x.lanePages lane e } := rfl
    rw [keep, ← State.withTeam_const p.only.atIssue.2]
    exact p.only.write _

/-- The elements of a lane that are all mapped are reached at their keys. -/
theorem PagedBy.go_reachLane {pages : SMap Tlb} {s' : State} (p : PagedBy s i t pages s') (h : AtIssue s i t) {base : Word}
    {n size : Nat} {need : Need} {key : Nat → Nat}
    (hm : ∀ k < n, Mapped s i t (base + BitVec.ofNat 64 (k * size)) need (key k)) (lane access : Nat) (logged : Bool) :
    ∃ rs pages' s'', Act.go (reachLane lane base n size need access logged) s' = (.ok (.ok rs), s'') ∧
      ReachedAt rs ((List.range n).map key) ∧ PagedBy s i t pages' s'' := by
  have each : ∀ (ks : List Nat) (_ : ∀ k ∈ ks, k < n) (pages : SMap Tlb) (s' : State) (_ : PagedBy s i t pages s'),
      ∃ rs pages' s'', Act.go (ks.mapM fun k => reach (.lane i lane) (base + BitVec.ofNat 64 (k * size)) need access true logged)
          s' = (.ok rs, s'') ∧ ReachedAt rs (ks.map key) ∧ PagedBy s i t pages' s'' := by
    intro ks
    induction ks with
    | nil => exact fun _ pages s' p => ⟨[], pages, s', rfl, .nil, p⟩
    | cons k ks ih =>
      intro hk pages s' p
      obtain ⟨kind, pages1, s1, h1, p1⟩ := p.go_reach h (hm k (hk k (by simp))) lane access logged
      obtain ⟨rs, pages2, s2, h2, hrs, p2⟩ := ih (fun k hk' => hk k (by simp [hk'])) pages1 s1 p1
      refine ⟨.key (key k) kind :: rs, pages2, s2, ?_, .cons ⟨kind, rfl⟩ hrs, p2⟩
      rw [List.mapM_cons, Act.go_bind_ok h1, Act.go_bind_ok h2]
      rfl
  obtain ⟨rs, pages', s'', hgo, hrs, p'⟩ := each (List.range n) (fun k hk => List.mem_range.mp hk) pages s' p
  refine ⟨rs, pages', s'', ?_, hrs, p'⟩
  have canon : ((List.range n).find? fun k => !canonical (base + BitVec.ofNat 64 (k * size))) = none :=
    List.find?_eq_none.mpr fun k hk => by simp [(hm k (List.mem_range.mp hk)).1]
  unfold reachLane
  rw [Act.go_bind_ok p.only.atIssue.go_tm, Act.go_bind_ok (Act.go_me _), p.only.atIssue.cur]
  dsimp only
  rw [canon]
  dsimp only
  rw [Act.go_bind_ok hgo]
  split
  · rename_i r hr
    obtain ⟨x, hx, e⟩ := List.exists_of_findSome?_eq_some hr
    obtain ⟨k, kind, hk⟩ := hrs.isKey x.2 (List.of_mem_zip hx).2
    rw [hk] at e
    cases e
  · split
    · rename_i hw
      obtain ⟨r, hr, e⟩ := List.any_eq_true.mp hw
      obtain ⟨k, kind, rfl⟩ := hrs.isKey r hr
      cases e
    · rfl

end Sys2Proof.Machine
end

section
/-! PROOF. mem.ldi (O30): the operation opens, each active lane adds its elements to it, and the issue lets go of it
(R188, R189). -/

namespace Sys2Proof.Machine

open Sys2Proof Sys2Proof.Claims

variable {s : State} {i : Nat} {t : Team}

/-- The first issue takes a number. -/
theorem AtIssue.go_groupOf (h : AtIssue s i t) (hg : t.groupNow = none) :
    ∃ s', Act.go groupOf s = (.ok s.serial, s') ∧
      OnlyTeam { s with serial := s.serial + 1 } i { t with groupNow := some s.serial } s' := by
  have h1 : AtIssue { s with serial := s.serial + 1 } i t := h
  obtain ⟨s', hgo, o⟩ := (OnlyTeam.refl h1).go_modTm fun t => { t with groupNow := some s.serial }
  refine ⟨s', ?_, o⟩
  unfold groupOf
  rw [Act.go_bind_ok h.go_tm, hg]
  dsimp only
  rw [Act.go_bind_ok (Act.go_fresh s), Act.go_bind_ok hgo]
  rfl

/-- A team whose mem.ldi has opened its operation and requested parts. -/
def Team.loading (t : Team) (g c : Nat) (parts : List Part) (served : Mask) : Team :=
  { t with groupNow := some g, served := served, ops := t.ops ++ [{ ident := g, counter := some c, mortar := 1, parts := parts }] }

theorem any_ident_false {ops : List Op} {g : Nat} (hf : ∀ o ∈ ops, o.ident ≠ g) : (ops.any fun o => o.ident == g) = false := by
  simpa using hf

/-- A change of the operation in flight of a number leaves the others as they are. -/
theorem map_ident_other {ops : List Op} {g : Nat} (hf : ∀ o ∈ ops, o.ident ≠ g) (f : Op → Op) :
    (ops.map fun o => if o.ident = g then f o else o) = ops := by
  conv_rhs => rw [← List.map_id ops]
  exact List.map_congr_left fun o ho => by simp [hf o ho]

theorem go_openOp (h : AtIssue s i t) (hg : t.groupNow = none) (hs : t.served = 0) (hf : ∀ o ∈ t.ops, o.ident ≠ s.serial)
    (c : Nat) :
    ∃ s', Act.go (openOp (some c)) s = (.ok s.serial, s') ∧
      OnlyTeam { s with serial := s.serial + 1 } i (t.loading s.serial c [] 0) s' := by
  obtain ⟨s1, h1, o1⟩ := h.go_groupOf hg
  obtain ⟨s2, h2, o2⟩ := o1.go_modTm fun u =>
    if u.ops.any fun o => o.ident == s.serial then u
    else { u with ops := u.ops ++ [{ ident := s.serial, counter := some c, mortar := 1 }] }
  refine ⟨s2, ?_, ?_⟩
  · unfold openOp
    rw [Act.go_bind_ok h1, Act.go_bind_ok h2]
    rfl
  · rw [any_ident_false hf] at o2
    simpa [Team.loading, ← hs] using o2

/-- A part more of the operation. -/
theorem Team.loading_addPart (t : Team) {g c : Nat} {parts : List Part} {served : Mask} (hf : ∀ o ∈ t.ops, o.ident ≠ g) (p : Part)
    (pages : SMap Tlb) (front : Option Tlb) :
    ({ (t.loading g c parts served).paged pages front with
        ops := ((t.loading g c parts served).paged pages front).ops.map fun o =>
          if o.ident = g then { o with parts := o.parts ++ [p] } else o } : Team) =
      (t.loading g c (parts ++ [p]) served).paged pages front := by
  simp [Team.loading, Team.paged, map_ident_other hf]

theorem go_addParts {α : Type} {s' : State} {g c : Nat} {served : Mask} {pages : SMap Tlb} {front : Option Tlb} {parts : List Part}
    (hf : ∀ o ∈ t.ops, o.ident ≠ g) (xs : List α) (part : α → Part)
    (o : OnlyTeam s i ((t.loading g c parts served).paged pages front) s') :
    ∃ s'', Act.go (xs.forM fun x => addPart g (part x)) s' = (.ok (), s'') ∧
      OnlyTeam s i ((t.loading g c (parts ++ xs.map part) served).paged pages front) s'' := by
  induction xs generalizing parts s' with
  | nil => exact ⟨s', rfl, by simpa using o⟩
  | cons x xs ih =>
    obtain ⟨s1, h1, o1⟩ := o.go_modTm fun t =>
      { t with ops := t.ops.map fun o => if o.ident = g then { o with parts := o.parts ++ [part x] } else o }
    rw [t.loading_addPart hf] at o1
    obtain ⟨s2, h2, o2⟩ := ih o1
    refine ⟨s2, ?_, by simpa using o2⟩
    show Act.go (addPart g (part x) >>= fun _ => xs.forM fun x => addPart g (part x)) s' = _
    unfold addPart
    rw [Act.go_bind_ok h1]
    exact h2

theorem zip_map_self {α β : Type} (l : List α) (g : α → β) : l.zip (l.map g) = l.map fun a => (a, g a) := by
  induction l with
  | nil => rfl
  | cons a l ih => simp [ih]

/-- The elements that a lane of mem.ldi requests. -/
def loadLane (f : TForm) (key : Nat → Nat → Nat) (l : Nat) : List Part :=
  (List.range (f.mod.toNat + 1)).map fun k =>
    ⟨l, .v l (vNum f.d + (if tyWide f.ty then 2 else 1) * k), key l k, tyBytes f.ty, tySigned f.ty⟩

theorem loadParts_eq (f : TForm) (t : Team) (key : Nat → Nat → Nat) :
    loadParts f t key = (t.lanesOf f.km.val).flatMap (loadLane f key) :=
  rfl

/-- What is mapped for a team is mapped for it in a state changed in the team alone, whose page registers hold its
own translations. -/
theorem Mapped.onlyTeam {S s' : State} {u : Team} {pages : SMap Tlb} {va : Word} {need : Need} {key : Nat}
    (m : Mapped s i t va need key) (h : AtIssue s i t) (hp : PagesOf s t pages) (hS : S.cores = s.cores ∧ S.channels = s.channels)
    (o : OnlyTeam S i u s') (hu : u.lanePages = pages ∧ u.frontPage = t.frontPage)
    (ht : u.declared = t.declared ∧ u.core = t.core ∧ u.asid = t.asid ∧ u.timeline = t.timeline ∧ u.now = t.now) :
    Mapped s' i u va need key := by
  have cores : s'.cores = s.cores := (o.same State.cores fun _ _ => rfl).trans hS.1
  exact m.of_translations cores ((o.same State.channels fun _ _ => rfl).trans hS.2)
    (by rw [o.atIssue.team, h.team, ht.2.1]) ht (hp.translations cores ⟨ht.2.1, hu.2, hu.1⟩)

/-- A lane whose checks pass. -/
theorem laneChecks_pass {t : Team} {l : Nat} {uses : List (Reg × Nat)} {base size : Nat} (hp : t.firstPoison l uses = none)
    (ha : base % size = 0) (st ld : Bool) : laneChecks t l uses base size st ld = none := by
  simp [laneChecks, hp, ha]

theorem go_ldiLane {S s' : State} {f : TForm} {l g c : Nat} {parts : List Part} {served : Mask} {pages : SMap Tlb}
    {key : Nat → Nat → Nat} (h : AtIssue s i t) (hf : ∀ o ∈ t.ops, o.ident ≠ g)
    (hS : S.cores = s.cores ∧ S.channels = s.channels)
    (hp : PagesOf s t pages) (o : OnlyTeam S i ((t.loading g c parts served).paged pages t.frontPage) s')
    (clean : t.firstPoison l [addrUse f.a] = none) (aligned : (t.laneAddr l f.a).toNat % tyBytes f.ty = 0)
    (mapped : ∀ k < f.mod.toNat + 1, Mapped s i t (elemAddr f t l k) { r := true } (key l k)) :
    ∃ pages' s'', Act.go (ldiLane f g l) s' = (.ok (none, [], false), s'') ∧ PagesOf s t pages' ∧
      OnlyTeam S i ((t.loading g c (parts ++ loadLane f key l) (served ||| laneBit l)).paged pages' t.frontPage) s'' := by
  obtain ⟨rs, pages1, s1, h1, hrs, p1⟩ := (PagedBy.refl o.atIssue).go_reachLane o.atIssue
    (base := t.laneAddr l f.a) (n := f.mod.toNat + 1) (size := tyBytes f.ty) (need := { r := true }) (key := key l)
    (fun k hk => (mapped k hk).onlyTeam h hp hS o ⟨rfl, rfl⟩ ⟨rfl, rfl, rfl, rfl, rfl⟩) l accRead false
  have own1 : PagesOf s t pages1 := fun x hx =>
    hp.translations (u := (t.loading g c parts served).paged pages t.frontPage)
      ((o.same State.cores fun _ _ => rfl).trans hS.1) ⟨rfl, rfl, rfl⟩ _ (p1.own x hx)
  have o1 : OnlyTeam S i ((t.loading g c parts served).paged pages1 t.frontPage) s1 := o.trans p1.only
  obtain ⟨s2, h2, o2⟩ := go_addParts hf ((List.range (f.mod.toNat + 1)).zip (keysOf rs))
    (fun p => ⟨l, .v l (vNum f.d + (if tyWide f.ty then 2 else 1) * p.1), p.2, tyBytes f.ty, tySigned f.ty⟩) o1
  rw [hrs.keysOf, zip_map_self, List.map_map] at o2
  obtain ⟨s3, h3, o3⟩ := o2.go_modTm fun t => { t with served := t.served ||| laneBit l }
  refine ⟨pages1, s3, ?_, own1, o3⟩
  have checks : laneChecks ((t.loading g c parts served).paged pages t.frontPage) l [addrUse f.a] (t.laneAddr l f.a).toNat
      (tyBytes f.ty) false true = none := laneChecks_pass clean aligned _ _
  unfold ldiLane
  rw [Act.go_bind_ok o.atIssue.go_tm]
  change Act.go (match laneChecks ((t.loading g c parts served).paged pages t.frontPage) l [addrUse f.a] (t.laneAddr l f.a).toNat
      (tyBytes f.ty) false true with | some r => _ | none => _) s' = _
  rw [checks]
  change Act.go (reachLane l (t.laneAddr l f.a) (f.mod.toNat + 1) (tyBytes f.ty) { r := true } accRead false >>= _) s' = _
  rw [Act.go_bind_ok h1]
  refine (Act.go_bind_ok h2).trans ?_
  unfold serve
  rw [Act.go_bind_ok h3]
  rfl

/-- Before any lane is served all active lanes are left. -/
theorem AtIssue.go_lanesLeft (h : AtIssue s i t) (hs : t.served = 0) (km : Nat) :
    Act.go (lanesLeft km) s = (.ok (t.lanesOf km), s) := by
  unfold lanesLeft
  rw [Act.go_bind_ok h.go_tm]
  have all : ((t.lanesOf km).filter fun l => !t.served.getLsbD l) = t.lanesOf km := List.filter_eq_self.mpr fun l _ => by simp [hs]
  rw [all]
  rfl

theorem find_ident_append {ops : List Op} {o : Op} (hf : ∀ p ∈ ops, p.ident ≠ o.ident) :
    (ops ++ [o]).find? (·.ident == o.ident) = some o := by
  have none : ops.find? (·.ident == o.ident) = none := List.find?_eq_none.mpr fun p hp => by simpa using hf p hp
  simp [List.find?_append, none]

theorem filter_ident_append {ops : List Op} {o : Op} (hf : ∀ p ∈ ops, p.ident ≠ o.ident) :
    ((ops ++ [o]).filter fun p => p.ident != o.ident) = ops := by
  have same : (ops.filter fun p => p.ident != o.ident) = ops := List.filter_eq_self.mpr fun p hp => by simpa using hf p hp
  simp [List.filter_append, same]

/-- The operation of a mem.ldi lets go of the issue: with nothing requested its arrival counter gains one at once. -/
theorem go_ackOp_loading {s' : State} {g c : Nat} {parts : List Part} {served : Mask} {pages : SMap Tlb} {front : Option Tlb}
    (hf : ∀ o ∈ t.ops, o.ident ≠ g) (o : OnlyTeam s i ((t.loading g c parts served).paged pages front) s') :
    OnlyTeam s i
      { (if parts = [] then t.bumpA c else { t with ops := t.ops ++ [{ ident := g, counter := some c, parts := parts }] }) with
        groupNow := some g, served := served, lanePages := pages, frontPage := front } (s'.ackOp i g) := by
  have found := find_ident_append (o := { ident := g, counter := some c, mortar := 1, parts := parts }) hf
  have left := filter_ident_append (o := { ident := g, counter := some c, mortar := 1, parts := parts }) hf
  dsimp only at found left
  unfold State.ackOp
  rw [← State.withTeam_const o.atIssue.2]
  convert o.write _ using 1
  simp only [Team.loading, Team.paged, found, left]
  cases parts with
  | nil => rfl
  | cons p ps =>
    simp [List.map_append, map_ident_other hf]

theorem go_memLdi (h : AtIssue s i t) (first : t.FirstIssue) {f : TForm} {key : Nat → Nat → Nat}
    (clean : Unpoisoned t f.km [addrUse f.a])
    (hf : ∀ o ∈ t.ops, o.ident ≠ s.serial) (mapped : AllMapped f s i t (f.mod.toNat + 1) { r := true } key) :
    ∃ served pages s', Act.go (memLdi f) s = (.ok (), s') ∧ OnlyTeam { s with serial := s.serial + 1 } i
      { (if loadParts f t key = [] then t.bumpA (counterOf f.b)
          else { t with ops := t.ops ++ [{ ident := s.serial, counter := some (counterOf f.b), parts := loadParts f t key }] }) with
        groupNow := some s.serial, served := served, lanePages := pages, frontPage := t.frontPage } s' := by
  obtain ⟨hs, -, -, -, hg⟩ := first
  obtain ⟨s1, h1, o1⟩ := go_openOp h hg hs hf (counterOf f.b)
  obtain ⟨s2, h2, served, pages, hp, o2⟩ := Act.go_mapM_along (f := ldiLane f s.serial) (g := fun _ => (none, [], false))
    (P := fun pre s' => ∃ served pages, PagesOf s t pages ∧ OnlyTeam { s with serial := s.serial + 1 } i
      ((t.loading s.serial (counterOf f.b) (pre.flatMap (loadLane f key)) served).paged pages t.frontPage) s')
    (t.lanesOf f.km.val) [] (fun pre l hl s' ⟨served, pages, hp, o⟩ => by
      obtain ⟨aligned, each⟩ := mapped l hl
      obtain ⟨pages', s'', hgo, hp', o'⟩ := go_ldiLane (S := { s with serial := s.serial + 1 }) h hf ⟨rfl, rfl⟩ hp o
        (clean l hl) aligned each
      exact ⟨s'', hgo, _, pages', hp', by simpa using o'⟩) ⟨0, t.lanePages, pagesOf_self s t, o1⟩
  rw [List.nil_append, ← loadParts_eq] at o2
  refine ⟨served, pages, _, ?_, go_ackOp_loading hf o2⟩
  have rest : t.lanesOf f.km.val = (t.loading s.serial (counterOf f.b) [] 0).lanesOf f.km.val := rfl
  unfold memLdi
  refine (Act.go_bind_ok h1).trans ?_
  rw [Act.go_bind_ok (o1.atIssue.go_lanesLeft rfl _), ← rest, Act.go_bind_ok h2]
  have waits : ((t.lanesOf f.km.val).map fun _ => ((none : Option Rec), ([] : List Nat), false)).any (·.2.2) = false := by simp
  have faults : ((t.lanesOf f.km.val).map fun _ => ((none : Option Rec), ([] : List Nat), false)).filterMap (·.1) = [] := by simp
  rw [waits]
  simp only [Bool.false_eq_true, if_false]
  rw [Act.go_bind_ok (Act.go_me _), o2.atIssue.cur]
  refine (Act.go_bind_ok (Act.go_modify _ _)).trans ?_
  rw [faults]
  rfl

end Sys2Proof.Machine

namespace Sys2Proof.Claims

open Sys2Proof Sys2Proof.Machine Sys2Proof.Claims

theorem loadParts_eq_nil {f : TForm} {t : Team} {key : Nat → Nat → Nat} : loadParts f t key = [] ↔ t.lanesOf f.km.val = [] := by
  simp only [loadParts, List.flatMap_eq_nil_iff, List.map_eq_nil_iff, List.range_eq_nil]
  simp [List.eq_nil_iff_forall_not_mem]

/-- Settles O30, by the lanes of the issue one after another. -/
theorem loadRequests : Obligations.LoadRequests := by
  intro f s i t key h first clean hf mapped op
  obtain ⟨served, pages, s', hgo, o⟩ := go_memLdi h first clean hf mapped
  refine ⟨pages, t.frontPage, ?_⟩
  rw [State.withTeam_again]
  refine o.completes h h.2 rfl hgo ?_ ?_
  · simp only [loadParts_eq_nil]
    split <;> rfl
  · simp only [loadParts_eq_nil]
    split <;> rfl

end Sys2Proof.Claims
end

section
/-! PROOF. The arrival counters (O32): mem.await compares in the wrapping order of 8 bits (R190). -/

namespace Sys2Proof.Machine

open Sys2Proof Sys2Proof.Claims

variable {s : State} {i : Nat} {t : Team}

theorem reached_iff (a : BitVec 8) (n : Nat) : reached a n = true ↔ (a - BitVec.ofNat 8 n).toNat < 128 := by
  simp [reached]

theorem go_memAwait (h : AtIssue s i t) (f : TForm) :
    Act.go (memAwait f) s =
      if reached (t.getA (counterOf f.a)) f.c.code then (.ok (), s) else (.error (.block { detail := 7 }), s) := by
  unfold memAwait
  rw [Act.go_bind_ok h.go_tm]
  change Act.go (if !reached (t.getA (counterOf f.a)) f.c.code then _ else _) s = _
  cases reached (t.getA (counterOf f.a)) f.c.code <;> rfl

end Sys2Proof.Machine

namespace Sys2Proof.Claims

open Sys2Proof Sys2Proof.Machine Sys2Proof.Claims

/-- Settles O32, by the two outcomes of the comparison. -/
theorem arrivalWaits : Obligations.ArrivalWaits := by
  intro f s i t h gap
  have hgo := go_memAwait h f
  refine ⟨fun reaches => ?_, fun waits => ?_⟩
  · rw [if_pos ((reached_iff _ _).mpr reaches)] at hgo
    exact h.completes_self rfl hgo
  · rw [if_neg fun r => Nat.not_lt.mpr waits ((reached_iff _ _).mp r)] at hgo
    exact runCore_block h.1 h.2 hgo

end Sys2Proof.Claims
end

section
/-! PROOF. mem.st (O33): one write unit, in which each active lane issues its elements (R185, R186, R191). -/

namespace Sys2Proof.Machine

open Sys2Proof Sys2Proof.Claims

variable {s : State} {i : Nat} {t : Team}

/-- A change that touches no team and not whose turn it is goes with what differs in one team alone. -/
theorem OnlyTeam.map {s' : State} {u : Team} (o : OnlyTeam s i u s') (F : State → State)
    (keeps : ∀ s : State, (F s).cur = s.cur ∧ (F s).teams = s.teams)
    (apart : ∀ (s : State) (w : Team), ((F s).withTeam i fun _ => w) = F (s.withTeam i fun _ => w)) : OnlyTeam (F s) i u (F s') :=
  ⟨⟨(keeps s').1.trans o.atIssue.1, by rw [(keeps s').2]; exact o.atIssue.2⟩, fun w => by rw [apart, apart, o.rest]⟩

/-- Two teams whose registers hold the same, with the same poison. -/
structure Team.SameRegs (t u : Team) : Prop where
  v : u.v = t.v
  s : u.s = t.s
  vPoison : u.vPoison = t.vPoison
  sPoison : u.sPoison = t.sPoison

theorem Team.SameRegs.getV {u : Team} (h : t.SameRegs u) (l n : Nat) : u.getV l n = t.getV l n := by simp only [Team.getV, h.v]
theorem Team.SameRegs.getS {u : Team} (h : t.SameRegs u) (n : Nat) : u.getS n = t.getS n := by simp only [Team.getS, h.s]
theorem Team.SameRegs.getPair {u : Team} (h : t.SameRegs u) (l n : Nat) : u.getPair l n = t.getPair l n := by
  simp only [Team.getPair, h.getV]
theorem Team.SameRegs.laneAddr {u : Team} (h : t.SameRegs u) (l : Nat) (r : Reg) : u.laneAddr l r = t.laneAddr l r := by
  simp only [Team.laneAddr, h.getPair, h.getS]
theorem Team.SameRegs.storeData {u : Team} (h : t.SameRegs u) (l : Nat) (ty : Ty) (r : Reg) (k : Nat) :
    u.storeData l ty r k = t.storeData l ty r k := by
  simp only [Team.storeData, h.getPair, h.getV, h.getS]
theorem Team.SameRegs.lpoison {u : Team} (h : t.SameRegs u) (l n : Nat) (r : Reg) : u.lpoison l n r = t.lpoison l n r := by
  unfold Team.lpoison Team.poisonV Team.poisonS
  rw [h.vPoison, h.sPoison]
theorem Team.SameRegs.firstPoison {u : Team} (h : t.SameRegs u) (l : Nat) (uses : List (Reg × Nat)) :
    u.firstPoison l uses = t.firstPoison l uses := by
  simp only [Team.firstPoison, h.lpoison]

/-- A store of the team at issue: a lane, an address, a key and bytes. -/
abbrev LaneStore := Nat × Word × Nat × List Byte

/-- The write that a store waits as, in the unit that the issue opens. -/
def writeOf (s : State) (i : Nat) (t : Team) (x : LaneStore) : PendWrite :=
  { team := i, unit := t.issued + 1, path := 0, lane := x.1, va := x.2.1, key := x.2.2.1, bytes := x.2.2.2, asid := t.asid
    group := s.serial }

/-- A state after stores of the team at issue, but for the team. -/
def State.stored (s : State) (i : Nat) (t : Team) (xs : List LaneStore) : State :=
  { s with
    serial := s.serial + if xs = [] then 0 else 1
    writes := if Holds s t then s.writes else s.writes ++ xs.map (writeOf s i t) }

/-- The team after them. -/
def Team.storing (t : Team) (s : State) (i : Nat) (xs : List LaneStore) (served : Mask) : Team :=
  { t.openUnit xs.length with
    groupNow := if xs = [] then none else some s.serial
    served := served
    staged := if Holds s t then t.staged ++ xs.map fun x => .write (writeOf s i t x) else t.staged }

/-- The first issue opens a unit where the ticket unit has room. -/
theorem AtIssue.go_unitOf (h : AtIssue s i t) (hu : t.unitNow = none) (room : UnitRoom s t) :
    ∃ s', Act.go unitOf s = (.ok (t.issued + 1), s') ∧ OnlyTeam s i (t.openUnit 0) s' := by
  obtain ⟨s', hgo, o⟩ := (OnlyTeam.refl h).go_modTm fun t' =>
    { t' with issued := t.issued + 1, undrained := t'.undrained ++ [(t.issued + 1, 1)], unitNow := some (t.issued + 1) }
  refine ⟨s', ?_, o⟩
  have full : (s.detOf t && decide (4096 ≤ t.undrained.length)) = false := by
    cases hd : s.detOf t with
    | false => rfl
    | true => simpa using room hd
  have free : Act.go unitRoom s = (.ok (), s) := by
    unfold unitRoom
    rw [Act.go_bind_ok h.go_tm, Act.go_bind_ok (Act.go_get s), full]
    rfl
  unfold unitOf
  rw [Act.go_bind_ok h.go_tm, hu]
  dsimp only
  rw [Act.go_bind_ok free, Act.go_bind_ok hgo]
  rfl

/-- A unit that stands open is the instruction's. -/
theorem AtIssue.go_unitOf_open (h : AtIssue s i t) {u : Nat} (hu : t.unitNow = some u) : Act.go unitOf s = (.ok u, s) := by
  unfold unitOf
  rw [Act.go_bind_ok h.go_tm, hu]
  rfl

/-- The number of a later access of an instruction. -/
theorem AtIssue.go_groupOf_open (h : AtIssue s i t) {g : Nat} (hg : t.groupNow = some g) : Act.go groupOf s = (.ok g, s) := by
  unfold groupOf
  rw [Act.go_bind_ok h.go_tm, hg]
  rfl

/-- The number of the stores of an issue, taken with the first. -/
theorem OnlyTeam.go_groupOf {s' : State} {xs : List LaneStore} {served : Mask} {pages : SMap Tlb} {front : Option Tlb}
    (o : OnlyTeam (s.stored i t xs) i ((t.storing s i xs served).paged pages front) s') :
    ∃ s'', Act.go groupOf s' = (.ok s.serial, s'') ∧
      OnlyTeam { s.stored i t xs with serial := s.serial + 1 } i
        { (t.storing s i xs served).paged pages front with groupNow := some s.serial } s'' := by
  by_cases hx : xs = []
  · have serial : s'.serial = s.serial := (o.same State.serial fun _ _ => rfl).trans (by simp [State.stored, hx])
    obtain ⟨s'', hgo, o'⟩ := o.atIssue.go_groupOf (by simp [Team.storing, Team.paged, hx])
    rw [serial] at hgo o'
    exact ⟨s'', hgo, (o.map (fun s0 => { s0 with serial := s.serial + 1 }) (fun _ => ⟨rfl, rfl⟩) fun _ _ => rfl).trans o'⟩
  · refine ⟨s', o.atIssue.go_groupOf_open (by simp [Team.storing, Team.paged, hx]), ?_⟩
    have base : ({ s.stored i t xs with serial := s.serial + 1 } : State) = s.stored i t xs := by simp [State.stored, hx]
    have team : ({ (t.storing s i xs served).paged pages front with groupNow := some s.serial } : Team) =
        (t.storing s i xs served).paged pages front := by simp [Team.storing, Team.paged, hx]
    rw [base, team]
    exact o

/-- A store more in the unit: it goes to the slices, or to the ticket unit. -/
theorem OnlyTeam.go_issueWrite {s' : State} {xs : List LaneStore} {served : Mask} {pages : SMap Tlb} {front : Option Tlb}
    (issued : t.UnitsIssued) (o : OnlyTeam (s.stored i t xs) i ((t.storing s i xs served).paged pages front) s') (x : LaneStore) :
    ∃ s'', Act.go (issueWrite 0 x.1 x.2.1 x.2.2.1 x.2.2.2) s' = (.ok (), s'') ∧
      OnlyTeam (s.stored i t (xs ++ [x])) i ((t.storing s i (xs ++ [x]) served).paged pages front) s'' := by
  obtain ⟨s1, h1, o1⟩ := o.go_groupOf
  have owed : (t.undrained ++ [(t.issued + 1, 1 + xs.length)]).map (fun u => if u.1 = t.issued + 1 then (u.1, u.2 + 1) else u) =
      t.undrained ++ [(t.issued + 1, 1 + (xs ++ [x]).length)] := by
    have others : t.undrained.map (fun u => if u.1 = t.issued + 1 then (u.1, u.2 + 1) else u) = t.undrained := by
      conv_rhs => rw [← List.map_id t.undrained]
      refine List.map_congr_left fun u hu => if_neg ?_
      have := (issued u hu).2
      omega
    simp [others, Nat.add_assoc]
  have regions : (s1.owe i (t.issued + 1)).regions = s.regions := o1.same State.regions fun _ _ => rfl
  have det : (s1.owe i (t.issued + 1)).detOf ((t.storing s i xs served).paged pages front) = Holds s t := by
    simp only [Holds, State.detOf, State.region, regions]
    rfl
  have owes := o1.write { (t.storing s i xs served).paged pages front with
    groupNow := some s.serial, undrained := t.undrained ++ [(t.issued + 1, 1 + (xs ++ [x]).length)] }
  have owing : s1.owe i (t.issued + 1) = s1.withTeam i fun _ => { (t.storing s i xs served).paged pages front with
      groupNow := some s.serial, undrained := t.undrained ++ [(t.issued + 1, 1 + (xs ++ [x]).length)] } := by
    unfold State.owe
    rw [← State.withTeam_const o1.atIssue.2, ← owed]
    rfl
  unfold issueWrite
  rw [Act.go_bind_ok (Act.go_me s'), Act.go_bind_ok o.atIssue.go_tm, o.atIssue.cur, if_pos rfl,
    Act.go_bind_ok (o.atIssue.go_unitOf_open rfl), Act.go_bind_ok h1, Act.go_modify]
  refine ⟨_, rfl, ?_⟩
  dsimp only
  rw [det, owing]
  cases hd : Holds s t with
  | true =>
    rw [if_pos rfl, ← State.withTeam_const owes.atIssue.2]
    convert owes.write _ using 1
    · simp [State.stored, hd]
    · simp [Team.storing, Team.paged, hd, writeOf, Team.openUnit]
  | false =>
    rw [if_neg Bool.false_ne_true]
    convert owes.map (fun s0 => { s0 with writes := s0.writes ++ [writeOf s i t x] }) (fun _ => ⟨rfl, rfl⟩) (fun _ _ => rfl) using 1
    · simp [State.stored, hd]
    · simp [Team.storing, Team.paged, hd, Team.openUnit]
    · rfl

/-- The elements of a lane beside what they reached. -/
theorem ReachedAt.zip {rs : List Reached} {ks : List Nat} {key : Nat → Nat} (h : ReachedAt rs (ks.map key)) :
    (ks.zip rs).map Prod.fst = ks ∧ ∀ p ∈ ks.zip rs, ∃ kind, p.2 = .key (key p.1) kind := by
  induction ks generalizing rs with
  | nil => simp
  | cons k ks ih =>
    cases h with
    | cons hr hrs =>
      obtain ⟨fst, snd⟩ := ih hrs
      refine ⟨by simp [fst], ?_⟩
      simp only [List.zip_cons_cons, List.mem_cons, forall_eq_or_imp]
      exact ⟨hr, snd⟩

/-- The stores of a lane of mem.st. -/
def storeLane (f : TForm) (t : Team) (key : Nat → Nat → Nat) (l : Nat) : List LaneStore :=
  (List.range (f.mod.toNat + 1)).map fun k => (l, elemAddr f t l k, key l k, t.storeData l f.ty f.d k)

theorem laneStores_eq (f : TForm) (t : Team) (key : Nat → Nat → Nat) :
    laneStores f t key = (t.lanesOf f.km.val).flatMap (storeLane f t key) :=
  rfl

theorem laneStores_eq_nil {f : TForm} {t : Team} {key : Nat → Nat → Nat} : laneStores f t key = [] ↔ t.lanesOf f.km.val = [] := by
  simp only [laneStores, List.flatMap_eq_nil_iff, List.map_eq_nil_iff, List.range_eq_nil]
  simp [List.eq_nil_iff_forall_not_mem]

theorem Team.storing_regs (t : Team) (s : State) (i : Nat) (xs : List LaneStore) (served : Mask) (pages : SMap Tlb)
    (front : Option Tlb) : t.SameRegs ((t.storing s i xs served).paged pages front) := ⟨rfl, rfl, rfl, rfl⟩

/-- An element of a lane of mem.st that has been reached: it issues, or its page stands in the side log. -/
def storeElem (f : TForm) (t : Team) (l : Nat) (p : Nat × Reached) : Act Unit :=
  let va := t.laneAddr l f.a + BitVec.ofNat 64 (p.1 * tyBytes f.ty)
  let bs := t.storeData l f.ty f.d p.1
  match p.2 with
  | .key k _ => issueWrite 0 l va k bs
  | .log c d rid =>
    sideLog { kind := 0, team := 0, unit := 0, asid := 0, timeline := 0, va := va, size := Nat.log2 (tyBytes f.ty),
              data := BitVec.ofNat 64 (leNat bs), gen := 0, cause := c, detail := d, lane := l, rid := rid }
  | _ => pure ()

/-- The elements of a lane that have been reached at their keys issue one after another. -/
theorem go_storeElems {s' : State} {f : TForm} {l : Nat} {xs : List LaneStore} {served : Mask} {pages : SMap Tlb} {front : Option Tlb}
    {key : Nat → Nat → Nat} {rs : List Reached} (issued : t.UnitsIssued)
    (hrs : ReachedAt rs ((List.range (f.mod.toNat + 1)).map (key l)))
    (o : OnlyTeam (s.stored i t xs) i ((t.storing s i xs served).paged pages front) s') :
    ∃ s'', Act.go (((List.range (f.mod.toNat + 1)).zip rs).forM (storeElem f t l)) s' = (.ok (), s'') ∧
      OnlyTeam (s.stored i t (xs ++ storeLane f t key l)) i
        ((t.storing s i (xs ++ storeLane f t key l) served).paged pages front) s'' := by
  obtain ⟨fst, reached⟩ := hrs.zip
  obtain ⟨s2, h2, o2⟩ := Act.go_forM_along (f := storeElem f t l)
    (P := fun pre s' => OnlyTeam (s.stored i t (xs ++ pre.map fun p => (l, elemAddr f t l p.1, key l p.1, t.storeData l f.ty f.d p.1))) i
      ((t.storing s i (xs ++ pre.map fun p => (l, elemAddr f t l p.1, key l p.1, t.storeData l f.ty f.d p.1)) served).paged
        pages front) s')
    ((List.range (f.mod.toNat + 1)).zip rs) [] (fun pre p hpm s' o' => by
      obtain ⟨kind, hk⟩ := reached p hpm
      obtain ⟨s'', hgo, o''⟩ := o'.go_issueWrite issued (l, elemAddr f t l p.1, key l p.1, t.storeData l f.ty f.d p.1)
      refine ⟨s'', ?_, by simpa using o''⟩
      unfold storeElem
      rw [hk]
      exact hgo) (by simpa using o)
  have stores : ((List.range (f.mod.toNat + 1)).zip rs).map (fun p => (l, elemAddr f t l p.1, key l p.1, t.storeData l f.ty f.d p.1)) =
      storeLane f t key l := by
    unfold storeLane
    conv_rhs => rw [← fst, List.map_map]
    rfl
  rw [List.nil_append, stores] at o2
  exact ⟨s2, h2, o2⟩

theorem go_stLane {s' : State} {f : TForm} {l : Nat} {xs : List LaneStore} {served : Mask} {pages : SMap Tlb}
    {key : Nat → Nat → Nat} (h : AtIssue s i t) (issued : t.UnitsIssued) (hp : PagesOf s t pages)
    (o : OnlyTeam (s.stored i t xs) i ((t.storing s i xs served).paged pages t.frontPage) s')
    (clean : t.firstPoison l (dataUses f.ty (f.mod.toNat + 1) f.d ++ [addrUse f.a]) = none)
    (aligned : (t.laneAddr l f.a).toNat % tyBytes f.ty = 0)
    (mapped : ∀ k < f.mod.toNat + 1, Mapped s i t (elemAddr f t l k) { w := true } (key l k))
    (room : (s.core t.core).log.length ≤ 256) :
    ∃ pages' s'', Act.go (stLane f l) s' = (.ok none, s'') ∧ PagesOf s t pages' ∧
      OnlyTeam (s.stored i t (xs ++ storeLane f t key l)) i
        ((t.storing s i (xs ++ storeLane f t key l) (served ||| laneBit l)).paged pages' t.frontPage) s'' := by
  have cores : s'.cores = s.cores := o.same State.cores fun _ _ => rfl
  obtain ⟨rs, pages1, s1, h1, hrs, p1⟩ := (PagedBy.refl o.atIssue).go_reachLane o.atIssue
    (base := t.laneAddr l f.a) (n := f.mod.toNat + 1) (size := tyBytes f.ty) (need := { w := true }) (key := key l)
    (fun k hk => (mapped k hk).onlyTeam h hp (S := s.stored i t xs) ⟨rfl, rfl⟩ o ⟨rfl, rfl⟩ ⟨rfl, rfl, rfl, rfl, rfl⟩)
    l accWrite true
  have own1 : PagesOf s t pages1 := fun x hx =>
    hp.translations (u := (t.storing s i xs served).paged pages t.frontPage) cores ⟨rfl, rfl, rfl⟩ _ (p1.own x hx)
  have o1 : OnlyTeam (s.stored i t xs) i ((t.storing s i xs served).paged pages1 t.frontPage) s1 := o.trans p1.only
  have fits : (s1.core t.core).log.length ≤ 256 := by
    have same : s1.core t.core = s.core t.core := by
      simp only [State.core, show s1.cores = s.cores from (p1.only.same State.cores fun _ _ => rfl).trans cores]
    rwa [same]
  obtain ⟨s2, h2, o2⟩ := go_storeElems issued hrs o1
  obtain ⟨s3, h3, o3⟩ := o2.go_modTm fun t => { t with served := t.served ||| laneBit l }
  refine ⟨pages1, s3, ?_, own1, o3⟩
  have regs := t.storing_regs s i xs served pages t.frontPage
  have core : ((t.storing s i xs served).paged pages t.frontPage).core = t.core := rfl
  have atIssue := o.atIssue
  generalize (t.storing s i xs served).paged pages t.frontPage = u at regs core atIssue
  have checks : laneChecks u l (dataUses f.ty (elemsOf f) f.d ++ [addrUse f.a]) (t.laneAddr l f.a).toNat (tyBytes f.ty) true false =
      none := laneChecks_pass ((regs.firstPoison l _).trans clean) aligned _ _
  unfold stLane
  rw [Act.go_bind_ok atIssue.go_tm]
  dsimp only
  simp only [regs.laneAddr, regs.storeData, checks, core]
  refine (Act.go_bind_ok h1).trans ?_
  refine (Act.go_bind_ok (Act.go_get s1)).trans ?_
  rw [List.filter_eq_nil_iff.mpr fun r hr => by
    obtain ⟨k, kind, rfl⟩ := hrs.isKey r hr
    simp, List.length_nil, Nat.add_zero, if_neg (Nat.not_lt.mpr fits)]
  refine (Act.go_bind_ok h2).trans ?_
  exact (Act.go_bind_ok h3).trans rfl

theorem go_memSt (h : AtIssue s i t) (first : t.FirstIssue) (issued : t.UnitsIssued) (unit : UnitRoom s t) {f : TForm}
    {key : Nat → Nat → Nat} (clean : Unpoisoned t f.km (dataUses f.ty (f.mod.toNat + 1) f.d ++ [addrUse f.a]))
    (mapped : AllMapped f s i t (f.mod.toNat + 1) { w := true } key) (room : (s.core t.core).log.length ≤ 256) :
    ∃ served pages s', Act.go (memSt f) s = (.ok (), s') ∧ OnlyTeam (s.stored i t (laneStores f t key)) i
      ((t.storing s i (laneStores f t key) served).paged pages t.frontPage) s' := by
  obtain ⟨hs, -, -, hu, hg⟩ := first
  obtain ⟨s1, h1, o1⟩ := h.go_unitOf hu unit
  have begun : OnlyTeam (s.stored i t []) i ((t.storing s i [] 0).paged t.lanePages t.frontPage) s1 := by
    have base : s.stored i t [] = s := by simp [State.stored]
    have team : (t.storing s i [] 0).paged t.lanePages t.frontPage = t.openUnit 0 := by
      simp [Team.storing, Team.paged, Team.openUnit, hs, hg]
    rw [base, team]
    exact o1
  obtain ⟨s2, h2, served, pages, hp, o2⟩ := Act.go_mapM_along (f := stLane f) (g := fun _ => (none : Option Rec))
    (P := fun pre s' => ∃ served pages, PagesOf s t pages ∧ OnlyTeam (s.stored i t (pre.flatMap (storeLane f t key))) i
      ((t.storing s i (pre.flatMap (storeLane f t key)) served).paged pages t.frontPage) s')
    (t.lanesOf f.km.val) [] (fun pre l hl s' ⟨served, pages, hp, o⟩ => by
      obtain ⟨aligned, each⟩ := mapped l hl
      obtain ⟨pages', s'', hgo, hp', o'⟩ := go_stLane h issued hp o (clean l hl) aligned each room
      exact ⟨s'', hgo, _, pages', hp', by simpa using o'⟩) ⟨0, t.lanePages, pagesOf_self s t, begun⟩
  rw [List.nil_append, ← laneStores_eq] at o2
  refine ⟨served, pages, s2, ?_, o2⟩
  unfold memSt
  refine (Act.go_bind_ok h1).trans ?_
  refine (Act.go_bind_ok (begun.atIssue.go_lanesLeft rfl _)).trans ?_
  refine (Act.go_bind_ok h2).trans ?_
  rw [show ((t.lanesOf f.km.val).map fun _ => (none : Option Rec)).filterMap id = [] by simp]
  rfl

end Sys2Proof.Machine

namespace Sys2Proof.Claims

open Sys2Proof Sys2Proof.Machine Sys2Proof.Claims

/-- Settles O33, by the lanes of the issue one after another, and the elements of each. -/
theorem laneStores_hold : Obligations.LaneStores := by
  intro f s i t key h first issued unit clean mapped room
  obtain ⟨served, pages, s', hgo, o⟩ := go_memSt h first issued unit clean mapped room
  refine ⟨pages, t.frontPage, ?_⟩
  have issuedStores : ({ s.issueStores i t 0 (laneStores f t key) with
      serial := s.serial + if t.lanesOf f.km.val = [] then 0 else 1 } : State) =
      (s.stored i t (laneStores f t key)).withTeam i fun _ => { t.openUnit (laneStores f t key).length with
        staged := if Holds s t then t.staged ++ (laneStores f t key).map fun x => .write (writeOf s i t x) else t.staged } := by
    unfold State.issueStores State.stored
    simp only [laneStores_eq_nil]
    cases Holds s t <;> rfl
  rw [issuedStores, State.withTeam_again]
  exact o.completes h h.2 rfl hgo rfl rfl

end Sys2Proof.Claims
end

section
/-! PROOF. Landings of loads (O31): an element that its slice answers (R184, R188, R239). -/

namespace Sys2Proof.Machine

open Sys2Proof Sys2Proof.Claims

variable {s : State} {i : Nat} {t : Team}

/-- A slice where no Mortar entry is pending answers with memory as it stands. -/
theorem go_readSlice (hm : s.mortar = []) (key n : Nat) :
    Act.go (readSlice key n) s = (.ok (readBytes s.mem key n, s.poisonAt key), s) := by
  unfold readSlice
  rw [Act.go_bind_ok (Act.go_modify _ s), s.drainOver_of_empty hm]
  rfl

/-- A team with no write of its own under way, and of a deterministic launch with no effect, finds memory as it stands. -/
theorem State.ownOver_none (hw : (s.writes.any (·.team == i)) = false) (he : s.detOf (s.team i) = true → s.ownEffects i = [])
    (before key : Nat) (bs : List Byte) : s.ownOver i before key bs = bs := by
  unfold State.ownOver
  split
  · rename_i hd
    rw [he hd]
    rfl
  · have none : (s.writes.filter fun w => w.team == i && w.path < 2 && w.group < before) = [] :=
      List.filter_eq_nil_iff.mpr fun w hwm => by simp [List.any_eq_false.mp hw w hwm]
    rw [none]
    rfl

/-- A team with no write of its own under way reads what it will. -/
theorem State.mayLoad_of_none (hw : (s.writes.any (·.team == i)) = false) (before key n : Nat) : s.mayLoad i before key n = true := by
  have none : s.ownPending i before key n = false := List.any_eq_false.mpr fun w hwm => by simp [List.any_eq_false.mp hw w hwm]
  simp [State.mayLoad, none]

/-- The state after a load that its slice answers: the line enters the load cache of the core. -/
def State.filled (s : State) (core base : Nat) (bs : List Byte) : State :=
  let full := cacheLines ≤ (s.core core).cache.length
  { s with free := s.free + if full then 1 else 0 }.withCore core
    (·.fill ⟨base, bs, 0, []⟩ (if full then Config.cacheVictim s.free else 0))

/-- An aligned element lies in its line: it is read out of the words around it. -/
theorem readBytes_line (mem : List Host.Cell) {key n : Nat} (ha : key % n = 0) (hn : n ∣ 64) :
    (((readBytes mem (key / 64 * 64) 64).drop (key / 8 * 8 - key / 64 * 64)).take ((key + n + 7) / 8 * 8 - key / 8 * 8)
      |>.drop (key - key / 8 * 8)).take n = readBytes mem key n := by
  have inside : key % 64 + n ≤ 64 := by
    obtain ⟨a, ha⟩ := Nat.dvd_of_mod_eq_zero ha
    obtain ⟨b, hb⟩ := hn
    rw [ha, hb, Nat.mul_mod_mul_left, ← Nat.mul_succ]
    refine Nat.mul_le_mul_left n (Nat.mod_lt _ ?_)
    rcases Nat.eq_zero_or_pos b with rfl | h
    · omega
    · exact h
  rw [readBytes_drop_take mem _ (by omega), readBytes_drop_take mem _ (by omega)]
  congr 1
  omega

/-- A load that no cached line serves, where nothing of the team's own is under way. -/
theorem go_loadAt_miss (ht : SMap.find s.teams i = some t) (hm : s.mortar = []) (hw : (s.writes.any (·.team == i)) = false)
    (he : s.detOf t = true → s.ownEffects i = []) {before key n : Nat} (hp : s.poisonAt (key / 64 * 64) = 0) (ha : key % n = 0)
    (hn : n ∣ 64) :
    Act.go (loadAt i before key n false) s =
      (.ok (readBytes s.mem key n, 0), s.filled t.core (key / 64 * 64) (readBytes s.mem (key / 64 * 64) 64)) := by
  have team := State.team_of_find ht
  have own : ∀ bs : List Byte,
      (s.filled t.core (key / 64 * 64) (readBytes s.mem (key / 64 * 64) 64)).ownOver i before (key / 8 * 8) bs = bs :=
    State.ownOver_none (s := s.filled t.core (key / 64 * 64) (readBytes s.mem (key / 64 * 64) 64)) hw (by
      have same : (s.filled t.core (key / 64 * 64) (readBytes s.mem (key / 64 * 64) 64)).team i = t := team
      rw [same]
      exact he) before _
  unfold loadAt
  rw [Act.go_bind_ok (Act.go_get s)]
  simp only [team]
  rw [List.find?_eq_none.mpr fun l _ => by simp]
  dsimp only
  rw [Act.go_bind_ok (go_readSlice hm _ _), hp]
  have line := readBytes_line s.mem ha hn
  by_cases full : cacheLines ≤ (s.core t.core).cache.length
  · have state : ({ s with free := s.free + 1 } : State).withCore t.core
        (·.fill ⟨key / 64 * 64, readBytes s.mem (key / 64 * 64) 64, 0, []⟩
        (Config.cacheVictim s.free)) = s.filled t.core (key / 64 * 64) (readBytes s.mem (key / 64 * 64) 64) := by
      simp only [State.filled, full, if_true]
    rw [if_pos full, Act.go_bind_ok (Act.go_nextFree s), Act.go_bind_ok (Act.go_pure _ _), Act.go_bind_ok (Act.go_modify _ _), state,
      Act.go_bind_ok (Act.go_pure _ _), Act.go_bind_ok (Act.go_get _), if_pos rfl, own, line]
    rfl
  · have state : s.withCore t.core (·.fill ⟨key / 64 * 64, readBytes s.mem (key / 64 * 64) 64, 0, []⟩ 0) =
        s.filled t.core (key / 64 * 64) (readBytes s.mem (key / 64 * 64) 64) := by
      simp only [State.filled, full, if_false]
      rfl
    rw [if_neg full, Act.go_bind_ok (Act.go_pure _ _), Act.go_bind_ok (Act.go_modify _ _), state,
      Act.go_bind_ok (Act.go_pure _ _), Act.go_bind_ok (Act.go_get _), if_pos rfl, own, line]
    rfl

end Sys2Proof.Machine

namespace Sys2Proof.Claims

open Sys2Proof Sys2Proof.Machine Sys2Proof.Claims

/-- Settles O31: the slice answers with memory as it stands, and the element is taken out of its line. -/
theorem loadLandings : Obligations.LoadLandings := by
  intro s i part t o p ht hop hpart hafter hm hw he base hpoison haligned _ hdvd full s1
  have team := State.team_of_find ht
  have answered := go_loadAt_miss ht hm hw he (before := o.ident) hpoison haligned hdvd
  have written : SMap.find s1.teams i = some t := ht
  show Host.Outcome.next (loadLands i o.ident part false s) = _
  unfold loadLands
  simp only [team, hop, hpart, hafter, State.mayLoad_of_none hw, Bool.false_and, Bool.not_true, Bool.or_false, Bool.false_eq_true,
    if_false, answered]
  exact congrArg Host.Outcome.next (State.withTeam_const written fun u =>
    ((p.results (readBytes s.mem p.key p.size) 0).foldl Team.land u).landed o.ident part).symm

end Sys2Proof.Claims
end

section
/-! PROOF. Writes at the slices (O41): what a write leaves of a state, and the bursts of a host write (R186, R231, R239). -/

namespace Sys2Proof.Machine

open Sys2Proof Sys2Proof.Claims

variable {s : State}

/-! ## A write of bytes -/

/-- A state whose metadata and covers alone differ. -/
def State.marked (s : State) (md : SMap (BitVec 32)) (cv : List Cover) : State := { s with metadata := md, covers := cv }

/-- A fold of steps that each change metadata and covers alone does so. -/
theorem foldl_marked {α : Type} {f : State → α → State} (h : ∀ s a, ∃ md cv, f s a = s.marked md cv) (l : List α) (s : State) :
    ∃ md cv, l.foldl f s = s.marked md cv := by
  induction l generalizing s with
  | nil => exact ⟨s.metadata, s.covers, rfl⟩
  | cons a l ih =>
    obtain ⟨md, cv, e⟩ := h s a
    obtain ⟨md', cv', e'⟩ := ih (f s a)
    exact ⟨md', cv', by rw [List.foldl_cons, e', e]; rfl⟩

theorem State.tag_marked (s : State) (key n asid : Nat) : ∃ md cv, s.tag key n asid = s.marked md cv := by
  unfold State.tag
  split
  · exact foldl_marked (fun s p => ⟨_, s.covers, rfl⟩) _ s
  · exact ⟨s.metadata, s.covers, rfl⟩

theorem State.cover_marked (s : State) (group key n : Nat) : ∃ md cv, s.cover group key n = s.marked md cv := by
  unfold State.cover
  split
  · refine foldl_marked (fun s p => ?_) _ s
    dsimp only
    split
    · split
      · exact ⟨_, _, rfl⟩
      · split
        · exact ⟨s.metadata, s.covers, rfl⟩
        · exact ⟨s.metadata, _, rfl⟩
    · exact ⟨s.metadata, s.covers, rfl⟩
  · exact ⟨s.metadata, s.covers, rfl⟩

theorem State.uncover_marked (s : State) (key n : Nat) : ∃ md cv, s.uncover key n = s.marked md cv := by
  unfold State.uncover
  dsimp only
  split
  · exact ⟨s.metadata, s.covers, rfl⟩
  · exact ⟨s.metadata, _, rfl⟩

/-- Where no Mortar entry is pending a write changes its bytes, and beside memory metadata and covers alone. -/
theorem State.storeKept_eq (hm : s.mortar = []) (key : Nat) (bs : List Byte) (asid : Nat) :
    ∃ md cv, s.storeKept key bs asid = ({ s with mem := writeBytes s.mem key bs } : State).marked md cv := by
  unfold State.storeKept
  simp only [s.drainOver_of_empty hm]
  exact State.tag_marked _ _ _ _

theorem State.store_eq (hm : s.mortar = []) (key : Nat) (bs : List Byte) (asid group : Nat) :
    ∃ md cv, s.store key bs asid group = ({ s with mem := writeBytes s.mem key bs } : State).marked md cv := by
  obtain ⟨md, cv, e⟩ := State.storeKept_eq hm key bs asid
  obtain ⟨md', cv', e'⟩ := (s.storeKept key bs asid).cover_marked group key bs.length
  exact ⟨md', cv', by rw [State.store, e', e]; rfl⟩

theorem State.storePoisoned_eq (hm : s.mortar = []) (key : Nat) (bs : List Byte) (asid : Nat) :
    ∃ md cv, s.storePoisoned key bs asid = ({ s with mem := writeBytes s.mem key bs } : State).marked md cv := by
  obtain ⟨md, cv, e⟩ := State.storeKept_eq hm key bs asid
  obtain ⟨md', cv', e'⟩ := (s.storeKept key bs asid).uncover_marked key bs.length
  rw [State.storePoisoned, e', e]
  exact ⟨_, cv', rfl⟩

/-- A write that has been accepted stands in lines of the core's load cache. -/
theorem State.refresh_withCore (s : State) (core key : Nat) (bs : List Byte) :
    ∃ cores, s.refresh core key bs = { s with cores := cores } := by
  unfold State.refresh
  dsimp only
  split
  · exact ⟨_, rfl⟩
  · exact ⟨s.cores, rfl⟩

/-- A byte after a write of bytes. -/
theorem readByte_writeBytes (bs : List Byte) (m : List Host.Cell) (a x : Nat) :
    readByte (writeBytes m a bs) x = if a ≤ x ∧ x < a + bs.length then bs.getD (x - a) 0 else readByte m x := by
  split
  · rename_i h
    obtain ⟨i, rfl⟩ := Nat.exists_eq_add_of_le h.1
    have hi : i < bs.length := by omega
    rw [readByte_writeBytes_inside bs m a i hi, Nat.add_sub_cancel_left, List.getD_eq_getElem _ _ hi]
  · exact readByte_writeBytes_outside bs m a x (by omega)

/-- An expander that is not lost takes the write. -/
theorem State.acceptWrite_eq {w : PendWrite} (hm : s.mortar = [])
    (up : ∀ e, expanderOf w.key = some e → (SMap.val s.hearth.expanders {} e).state ≠ 2) :
    ∃ s' : State, s.acceptWrite w = s'.ackUnit w.team w.unit ∧ s'.writes = s.writes ∧ s'.teams = s.teams ∧
      s'.mem = writeBytes s.mem w.key w.bytes := by
  have wrote : ∃ md cv, (if w.poisoned then s.storePoisoned w.key w.bytes w.asid else s.store w.key w.bytes w.asid w.group) =
      ({ s with mem := writeBytes s.mem w.key w.bytes } : State).marked md cv := by
    split
    · exact State.storePoisoned_eq hm _ _ _
    · exact State.store_eq hm _ _ _ _
  obtain ⟨md, cv, e⟩ := wrote
  unfold State.acceptWrite
  extract_lets lost s1 s2
  have kept : lost = false := by
    simp only [lost]
    split
    · rename_i e he
      simpa using up e he
    · rfl
  rw [kept, if_neg Bool.false_ne_true]
  refine ⟨s2, rfl, ?_⟩
  simp only [s2, show s1 = _ from e]
  split
  · obtain ⟨cores, e'⟩ := (({ s with mem := writeBytes s.mem w.key w.bytes } : State).marked md cv).refresh_withCore
      ((({ s with mem := writeBytes s.mem w.key w.bytes } : State).marked md cv).team w.team).core w.key w.bytes
    rw [e']
    exact ⟨rfl, rfl, rfl⟩
  · exact ⟨rfl, rfl, rfl⟩

/-! ## The bursts of a host write (R375) -/

/-- Every piece lies in the range, in one burst, and is not empty. -/
theorem mem_pieces {u fuel a n : Nat} (hu : 0 < u) {p : Nat × Nat} (hp : p ∈ pieces u fuel a n) :
    a ≤ p.1 ∧ p.1 + p.2 ≤ a + n ∧ 0 < p.2 ∧ p.1 % u + p.2 ≤ u := by
  induction fuel generalizing a n with
  | zero => cases hp
  | succ fuel ih =>
    unfold pieces at hp
    split at hp
    · cases hp
    · have room := Nat.mod_lt a hu
      rcases List.mem_cons.mp hp with rfl | hp
      · dsimp only
        omega
      · have := ih hp
        omega

/-- The pieces of a range of data, one after another, are the data. -/
theorem flatMap_pieces {u fuel a n base : Nat} {data : List Byte} (hu : 0 < u) (hf : n + a % u ≤ u * fuel) (hb : base ≤ a)
    (hd : a - base + n ≤ data.length) :
    (pieces u fuel a n).flatMap (fun p => (data.drop (p.1 - base)).take p.2) = (data.drop (a - base)).take n := by
  induction fuel generalizing a n with
  | zero =>
    have : n = 0 := by omega
    simp [pieces, this]
  | succ fuel ih =>
    unfold pieces
    split
    · rename_i h
      simp [h]
    · have room := Nat.mod_lt a hu
      by_cases last : n ≤ u - a % u
      · have min_eq : min n (u - a % u) = n := Nat.min_eq_left last
        have none : pieces u fuel (a + n) 0 = [] := by cases fuel <;> rfl
        simp [min_eq, none]
      · have min_eq : min n (u - a % u) = u - a % u := Nat.min_eq_right (by omega)
        have aligned : (a + (u - a % u)) % u = 0 := by
          have e : a + (u - a % u) = a / u * u + u := by
            have := Nat.div_add_mod' a u
            omega
          rw [e, Nat.add_mod_right, Nat.mul_mod_left]
        simp only [min_eq, List.flatMap_cons]
        rw [ih (by rw [aligned]; rw [Nat.mul_succ] at hf; omega) (by omega) (by omega)]
        rw [show a + (u - a % u) - base = a - base + (u - a % u) by omega, ← List.drop_drop, ← List.take_add]
        congr 1
        omega

end Sys2Proof.Machine

namespace Sys2Proof.Claims

open Sys2Proof Sys2Proof.Machine Sys2Proof.Claims

/-- Settles O41: an accepted write is a write of its bytes, and the bursts of a host write are pieces of its range. -/
theorem sliceWrites : Obligations.SliceWrites := by
  refine ⟨fun s index w hw hwait hm up => ?_, fun s addr data poisoned => ?_⟩
  · obtain ⟨s', e, writes, teams, mem⟩ := State.acceptWrite_eq (s := { s with writes := s.writes.eraseIdx index }) (w := w) hm up
    refine ⟨s', ?_, writes, teams, fun x => by rw [mem, readByte_writeBytes]⟩
    show Host.Outcome.next (writeAccepted index s) = _
    simp [writeAccepted, hw, hwait, e]
  · intro bursts part write
    have inside : ∀ p ∈ bursts, addr ≤ p.1 ∧ p.1 + p.2 ≤ addr + data.length ∧ 0 < p.2 ∧ p.1 % 64 + p.2 ≤ 64 := fun p hp =>
      mem_pieces (by decide) hp
    refine ⟨fun p hp => ?_, ?_, fun h => ?_, fun h => ?_⟩
    · obtain ⟨low, high, pos, burst⟩ := inside p hp
      refine ⟨low, pos, burst, ?_⟩
      simp only [part, List.length_take, List.length_drop]
      omega
    · have whole := flatMap_pieces (u := 64) (fuel := data.length / 64 + 2) (a := addr) (n := data.length) (base := addr) (data := data)
        (by decide) (by omega) (Nat.le_refl _) (by omega)
      simpa using whole
    · show Host.Outcome.next (hostWrites addr data poisoned s) = _
      simp only [hostWrites, Nat.not_lt.mpr h, if_false]
      rfl
    · show Host.Outcome.next (hostWrites addr data poisoned s) = _
      simp only [hostWrites, h, if_true]

end Sys2Proof.Claims
end

section
/-! PROOF. The scratchpad (O34): the lanes whose ranges are good act, the others trap (R192, R194). -/

namespace Sys2Proof.Machine

open Sys2Proof Sys2Proof.Claims

variable {s : State} {i : Nat} {t : Team}

/-- An instruction that has served its lanes ends with the records of the others. -/
theorem AtIssue.finishes (h : AtIssue s i t) {act : Act Unit} {s' : State} {rs : List Rec}
    (hgo : Act.go act s = Act.go (finishLanes rs) s') : runCore act s = .next (settled s' i false rs) := by
  cases rs with
  | nil => exact runCore_ok h.1 h.2 hgo
  | cons r rs => exact runCore_trap h.1 h.2 hgo

/-- A team written as it stands is settled as it was. -/
theorem settled_self (h : AtIssue s i t) (waits : Bool) (rs : List Rec) :
    settled (s.withTeam i fun _ => t) i waits rs = settled s i waits rs := by
  have closed : (s.withTeam i fun _ => t).closeInstr i = s.closeInstr i := by
    unfold State.closeInstr
    rw [State.withTeam_withTeam, State.team_withTeam _ h.2, State.team_of_find h.2, State.withTeam_const h.2]
  have traps : (s.withTeam i fun _ => t).trapInstr i rs = s.trapInstr i rs := by
    unfold State.trapInstr
    rw [closed, State.team_withTeam _ h.2, State.team_of_find h.2]
  unfold settled
  rw [State.retire_self h.2, traps]

/-! ## Checks of each of a list of lanes -/

/-- The lanes whose check passes. -/
theorem filter_isNone {α : Type} {lanes : List Nat} {check : Nat → Option α} {p : Nat → Bool} {g : Nat → α}
    (hc : ∀ l ∈ lanes, check l = if p l then none else some (g l)) : lanes.filter (fun l => (check l).isNone) = lanes.filter p :=
  List.filter_congr fun l hl => by
    rw [hc l hl]
    cases p l <;> rfl

/-- The others. -/
theorem filter_isSome {α : Type} {lanes : List Nat} {check : Nat → Option α} {p : Nat → Bool} {g : Nat → α}
    (hc : ∀ l ∈ lanes, check l = if p l then none else some (g l)) :
    lanes.filter (fun l => (check l).isSome) = lanes.filter fun l => !p l :=
  List.filter_congr fun l hl => by
    rw [hc l hl]
    cases p l <;> rfl

/-- What the others report. -/
theorem filterMap_check {α : Type} {lanes : List Nat} {check : Nat → Option α} {p : Nat → Bool} {g : Nat → α}
    (hc : ∀ l ∈ lanes, check l = if p l then none else some (g l)) : lanes.filterMap check = (lanes.filter fun l => !p l).map g := by
  rw [← List.filterMap_eq_map, List.filterMap_filter]
  exact List.filterMap_congr fun l hl => by
    rw [hc l hl]
    cases p l <;> rfl

/-- The record of a lane of mem.lds or mem.sts whose range is not good. -/
def scratchFault (f : TForm) (t : Team) (st : Bool) (l : Nat) : Rec :=
  { t.laneRec l (if t.laneWord l f.a % tyBytes f.ty = 0 then .scratch else .misalign) 0 with
    ea := BitVec.ofNat 64 (t.laneWord l f.a), size := tyBytes f.ty, store := st, load := !st }

theorem scratchFaults_eq (f : TForm) (s : State) (t : Team) (st : Bool) :
    scratchFaults f s t st = ((t.lanesOf f.km.val).filter fun l => !inScratch f s t l).map (scratchFault f t st) := rfl

/-- A lane without poison passes where its range is good. -/
theorem scratchChecks_eq {f : TForm} {l : Nat} {uses : List (Reg × Nat)} (clean : t.firstPoison l uses = none) (st : Bool) :
    scratchChecks t (s.scratchOf t) l uses (t.laneWord l f.a) (f.mod.toNat + 1) (tyBytes f.ty) st =
      if inScratch f s t l then none else some (scratchFault f t st l) := by
  unfold scratchChecks laneChecks inScratch scratchFault
  rw [clean]
  dsimp only
  by_cases aligned : t.laneWord l f.a % tyBytes f.ty = 0
  · by_cases fits : t.laneWord l f.a + (f.mod.toNat + 1) * tyBytes f.ty ≤ s.scratchOf t
    · simp [aligned, fits]
    · simp [aligned, fits, Nat.lt_of_not_le fits]
  · simp [aligned]

/-! ## mem.lds -/

/-- What mem.lds reads. -/
def ldsResults (f : TForm) (s : State) (t : Team) (lanes : List Nat) : List Result :=
  lanes.flatMap fun l => (List.range (f.mod.toNat + 1)).flatMap fun k =>
    loadedAt f.ty l (vNum f.d) k ((s.allocOf t).read (t.laneWord l f.a + k * tyBytes f.ty) (tyBytes f.ty)) 0

/-- The lanes that mem.lds, mem.sts serve. -/
def scratchLanes (f : TForm) (s : State) (t : Team) : List Nat := (t.lanesOf f.km.val).filter (inScratch f s t)

theorem go_memLds (h : AtIssue s i t) {f : TForm} (clean : Unpoisoned t f.km [(f.a, 1)])
    (ready : ∀ l ∈ scratchLanes f s t, (s.allocOf t).full (t.laneWord l f.a) ((f.mod.toNat + 1) * tyBytes f.ty) = true ∧
      (s.allocOf t).poisonIn (t.laneWord l f.a) ((f.mod.toNat + 1) * tyBytes f.ty) = 0) :
    Act.go (memLds f) s = Act.go (finishLanes (scratchFaults f s t false))
      (s.delivered i t f.la (ldsResults f s t (scratchLanes f s t)) 0 0) := by
  have elems : elemsOf f = f.mod.toNat + 1 := rfl
  have check := fun l hl => scratchChecks_eq (s := s) (f := f) (clean l hl) false
  have good := filter_isNone check
  unfold memLds
  rw [Act.go_bind_ok h.go_tm, Act.go_bind_ok (Act.go_get s)]
  dsimp only
  rw [elems, good]
  have all : ((t.lanesOf f.km.val).filter (inScratch f s t)).all
      (fun l => (s.allocOf t).full (t.laneWord l f.a) ((f.mod.toNat + 1) * tyBytes f.ty)) = true :=
    List.all_eq_true.mpr fun l hl => (ready l hl).1
  rw [all]
  have clear : ∀ l ∈ (t.lanesOf f.km.val).filter (inScratch f s t),
      (s.allocOf t).poisonIn (t.laneWord l f.a) ((f.mod.toNat + 1) * tyBytes f.ty) = 0 := fun l hl => (ready l hl).2
  simp only [Bool.not_true, Bool.false_eq_true, if_false]
  rw [List.filter_eq_self.mpr fun l hl => by rw [if_pos (clear l hl)]; rfl]
  refine (Act.go_bind_ok (go_deliver h f.la _ 0 0)).trans ?_
  rw [scratchFaults_eq, ← filterMap_check check]
  refine congrArg (fun rs => Act.go (finishLanes rs) _) (List.filterMap_congr fun l hl => ?_)
  split
  · rename_i r hr
    exact hr.symm
  · rename_i hn
    have fine : inScratch f s t l = true := by
      rw [check l hl] at hn
      by_contra hb
      rw [if_neg hb] at hn
      cases hn
    rw [hn, if_pos (clear l (List.mem_filter.mpr ⟨hl, fine⟩))]

/-- A line of a range that is not full holds mem.lds up. -/
theorem go_memLds_waits (h : AtIssue s i t) {f : TForm} (clean : Unpoisoned t f.km [(f.a, 1)])
    (wait : ∃ l ∈ scratchLanes f s t, (s.allocOf t).full (t.laneWord l f.a) ((f.mod.toNat + 1) * tyBytes f.ty) = false) :
    Act.go (memLds f) s = (.error (.block {}), s) := by
  have elems : elemsOf f = f.mod.toNat + 1 := rfl
  have good := filter_isNone fun l hl => scratchChecks_eq (s := s) (f := f) (clean l hl) false
  unfold memLds
  rw [Act.go_bind_ok h.go_tm, Act.go_bind_ok (Act.go_get s)]
  dsimp only
  rw [elems, good]
  have some : ((t.lanesOf f.km.val).filter (inScratch f s t)).all
      (fun l => (s.allocOf t).full (t.laneWord l f.a) ((f.mod.toNat + 1) * tyBytes f.ty)) = false :=
    List.all_eq_false.mpr (wait.imp fun l hl => ⟨hl.1, by simp [hl.2]⟩)
  rw [some]
  rfl

/-! ## mem.sts -/

/-- An allocation after the stores of lanes of mem.sts, one after another. -/
def stsWrites (f : TForm) (t : Team) (lanes : List Nat) (a : Alloc) : Alloc :=
  lanes.foldl (fun a l => (List.range (f.mod.toNat + 1)).foldl (fun a k =>
    a.write (t.laneWord l f.a + k * tyBytes f.ty) (t.storeData l f.ty f.d k)) a) a

theorem go_memSts (h : AtIssue s i t) {f : TForm} (clean : Unpoisoned t f.km (dataUses f.ty (f.mod.toNat + 1) f.d ++ [(f.a, 1)])) :
    Act.go (memSts f) s = Act.go (finishLanes (scratchFaults f s t true))
      (s.withAlloc t.core t.launch (stsWrites f t (scratchLanes f s t))) := by
  have elems : elemsOf f = f.mod.toNat + 1 := rfl
  have check := fun l hl => scratchChecks_eq (s := s) (f := f) (clean l hl) true
  unfold memSts
  rw [Act.go_bind_ok h.go_tm, Act.go_bind_ok (Act.go_get s)]
  dsimp only
  rw [elems, filter_isNone check, filterMap_check check]
  exact Act.go_bind_ok (Act.go_modify _ _)

/-! ## mem.fe -/

/-- The record of a lane of mem.fe whose offset is past the allocation. -/
def feFault (f : TForm) (t : Team) (l : Nat) : Rec := { t.laneRec l .scratch 0 with ea := BitVec.ofNat 64 (t.laneWord l f.a) }

/-- The check of a lane of mem.fe. -/
def feCheck (f : TForm) (s : State) (t : Team) (l : Nat) : Option Rec :=
  match t.firstPoison l [(f.a, 1)] with
  | some (r, o) => some (t.poisonRec l r o)
  | none => if s.scratchOf t ≤ t.laneWord l f.a then some (feFault f t l) else none

/-- The lanes that mem.fe serves. -/
def feLanes (f : TForm) (s : State) (t : Team) : List Nat := (t.lanesOf f.km.val).filter fun l => t.laneWord l f.a < s.scratchOf t

/-- The others. -/
def feOut (f : TForm) (s : State) (t : Team) : List Nat := (t.lanesOf f.km.val).filter fun l => s.scratchOf t ≤ t.laneWord l f.a

theorem feCheck_eq {f : TForm} {l : Nat} (clean : t.firstPoison l [(f.a, 1)] = none) :
    feCheck f s t l = if decide (t.laneWord l f.a < s.scratchOf t) then none else some (feFault f t l) := by
  unfold feCheck
  rw [clean]
  by_cases out : s.scratchOf t ≤ t.laneWord l f.a
  · simp [out, Nat.not_lt.mpr out]
  · simp [out, Nat.lt_of_not_le out]

theorem feOut_eq (f : TForm) (s : State) (t : Team) :
    feOut f s t = (t.lanesOf f.km.val).filter fun l => !decide (t.laneWord l f.a < s.scratchOf t) :=
  List.filter_congr fun l _ => by rw [← decide_not, decide_eq_decide, Nat.not_lt]

/-- The test of lanes of mem.fe: whether the line of each is full. -/
def feTest (f : TForm) (s : State) (t : Team) (good bad : List Nat) : Act Unit :=
  match f.d with
  | .k n => modTm fun u => u.setK n.val ((u.getK n.val &&& maskOf bad) |||
      maskOf (good.filter fun l => !(s.allocOf t).empties.contains (t.laneWord l f.a / 128)))
  | .v n => modTm fun u => good.foldl (fun u l =>
      u.setV l n.val (if !(s.allocOf t).empties.contains (t.laneWord l f.a / 128) then 1 else 0)) u
  | _ => pure ()

/-- An allocation whose lines of lanes are filled. -/
def feFill (f : TForm) (t : Team) (good : List Nat) (a : Alloc) : Alloc :=
  { a with empties := a.empties.filter fun e => !(good.any fun l => t.laneWord l f.a / 128 == e) }

/-- One whose lines of lanes are emptied. -/
def feDrain (f : TForm) (t : Team) (good : List Nat) (a : Alloc) : Alloc :=
  { a with empties := (good.map fun l => t.laneWord l f.a / 128).foldl (fun es e => if es.contains e then es else es ++ [e]) a.empties }

/-- What mem.fe does, its lanes checked. -/
def feAct (f : TForm) (s : State) (t : Team) (good bad : List Nat) : Act Unit :=
  if f.mod.toNat % 4 = 0 then feTest f s t good bad
  else if f.mod.toNat % 4 = 1 then modify fun s => s.withAlloc t.core t.launch (feFill f t good)
  else modify fun s => s.withAlloc t.core t.launch (feDrain f t good)

/-- The team after the test. -/
def feTested (f : TForm) (s : State) (t : Team) (good bad : List Nat) : Team :=
  match f.d with
  | .k n => t.setK n.val ((t.getK n.val &&& maskOf bad) |||
      maskOf (good.filter fun l => !(s.allocOf t).empties.contains (t.laneWord l f.a / 128)))
  | .v n => good.foldl (fun u l => u.setV l n.val (if !(s.allocOf t).empties.contains (t.laneWord l f.a / 128) then 1 else 0)) t
  | _ => t

theorem go_feTest (h : AtIssue s i t) (f : TForm) (good bad : List Nat) :
    ∃ s', Act.go (feTest f s t good bad) s = (.ok (), s') ∧
      ∀ rs, settled s' i false rs = settled (s.withTeam i fun _ => feTested f s t good bad) i false rs := by
  unfold feTest feTested
  split
  · exact ⟨_, h.go_modTm _, fun _ => rfl⟩
  · exact ⟨_, h.go_modTm _, fun _ => rfl⟩
  · exact ⟨s, rfl, fun rs => (settled_self h false rs).symm⟩

theorem go_memFe (h : AtIssue s i t) {f : TForm} (clean : Unpoisoned t f.km [(f.a, 1)]) {s' : State}
    (hgo : Act.go (feAct f s t (feLanes f s t) (feOut f s t)) s = (.ok (), s')) :
    Act.go (memFe f) s = Act.go (finishLanes ((feOut f s t).map (feFault f t))) s' := by
  have check := fun l hl => feCheck_eq (s := s) (f := f) (clean l hl)
  have lanes : feLanes f s t = (t.lanesOf f.km.val).filter fun l => (feCheck f s t l).isNone := (filter_isNone check).symm
  have out : feOut f s t = (t.lanesOf f.km.val).filter fun l => (feCheck f s t l).isSome :=
    (feOut_eq f s t).trans (filter_isSome check).symm
  have faults : (feOut f s t).map (feFault f t) = (t.lanesOf f.km.val).filterMap (feCheck f s t) := by
    rw [feOut_eq]
    exact (filterMap_check check).symm
  rw [faults]
  rw [lanes, out] at hgo
  unfold memFe
  rw [Act.go_bind_ok h.go_tm, Act.go_bind_ok (Act.go_get s)]
  dsimp only
  unfold feAct at hgo
  split
  · rename_i mode
    rw [if_pos mode, feTest] at hgo
    cases d : f.d with
    | k n =>
      rw [d] at hgo
      exact Act.go_bind_ok hgo
    | v n =>
      rw [d] at hgo
      exact Act.go_bind_ok hgo
    | _ =>
      rw [d] at hgo
      cases hgo
      rfl
  · rename_i mode
    rw [if_neg (by omega), if_pos mode] at hgo
    exact Act.go_bind_ok hgo
  · rename_i no0 no1
    rw [if_neg no0, if_neg no1] at hgo
    exact Act.go_bind_ok hgo

end Sys2Proof.Machine

namespace Sys2Proof.Claims

open Sys2Proof Sys2Proof.Machine Sys2Proof.Claims

/-- Settles O34, by each instruction's lanes: those whose check passes act, the others are reported. -/
theorem scratchpad : Obligations.Scratchpad := by
  intro f s i t h n size lanes off a good
  refine ⟨fun clean ready => h.finishes (go_memLds h clean ready),
    fun clean wait => runCore_block h.1 h.2 (go_memLds_waits h clean wait),
    fun clean => h.finishes (go_memSts h clean), fun clean => ?_⟩
  intro inside out rs full lines
  refine ⟨fun mode => ?_, fun mode => h.finishes (go_memFe h clean ?_), fun mode => h.finishes (go_memFe h clean ?_)⟩
  · obtain ⟨s', hgo, same⟩ := go_feTest h f (feLanes f s t) (feOut f s t)
    have act : feAct f s t (feLanes f s t) (feOut f s t) = feTest f s t (feLanes f s t) (feOut f s t) := if_pos mode
    refine (h.finishes (go_memFe h clean (act ▸ hgo))).trans ?_
    rw [same]
    refine congrArg (fun u : Team => Host.Outcome.next (settled (s.withTeam i fun _ => u) i false rs)) ?_
    unfold feTested
    have isFull : ∀ l ∈ inside, full.contains l = !a.empties.contains (off l / 128) := fun l hl => by simp [full, hl]
    cases f.d with
    | k n => rfl
    | v n => exact List.foldl_ext _ _ _ fun u l hl => by rw [isFull l hl]
    | _ => rfl
  · rw [feAct, if_neg (by omega), if_pos mode, Act.go_modify]
    have fill : feFill f t (feLanes f s t) = fun a => { a with empties := a.empties.filter fun e => !lines.contains e } := by
      funext a
      unfold feFill
      refine congrArg (fun es => ({ a with empties := es } : Alloc)) (List.filter_congr fun e _ => congrArg not ?_)
      rw [Bool.eq_iff_iff, List.any_eq_true, List.contains_iff_mem, List.mem_map]
      exact exists_congr fun l => and_congr_right fun _ => beq_iff_eq
    rw [fill]
  · rw [feAct, if_neg (by omega), if_neg (by omega)]
    rfl

end Sys2Proof.Claims
end

section
/-! PROOF. Fences and publication (O36): each goes on or waits, and what it changes is one step of the state (R196 to
R198). -/

namespace Sys2Proof.Machine

open Sys2Proof Sys2Proof.Claims

variable {s : State} {i : Nat} {t : Team}

/-! ## Fences -/

/-- The fence that the ticket unit keeps, where the team stands as at issue. -/
theorem State.stageFence_eq {s' : State} {u : Team} (hf : SMap.find s'.teams i = some u) (issued : u.issued = t.issued)
    (det : s'.detOf u = s'.detOf t) (a b : Nat) : s'.stageFence i a b = fenced s' i t a b := by
  unfold State.stageFence fenced Holds
  rw [State.team_of_find hf, det]
  split
  · exact State.withTeam_congr hf (by rw [issued])
  · rfl

theorem AtIssue.find_acquire (h : AtIssue s i t) : SMap.find (s.acquire i).teams i = some { t with acquired := true } :=
  State.find_withTeam _ h.2

/-- A fence that waits. -/
def fenceWaits (s : State) (i : Nat) (f : TForm) : Prop :=
  (f.mod.toNat / 4 % 4 ≠ 2 ∧ f.mod.toNat % 4 ≠ 0 ∧ s.lanesQuiet i = false) ∨
    (f.mod.toNat / 4 % 4 ≠ 1 ∧ s.loadsQuiet i = false)

theorem go_memFence_waits (h : AtIssue s i t) {f : TForm} (waits : fenceWaits s i f) :
    Act.go (memFence f) s = (.error (.block { point := false }), s) := by
  unfold memFence
  rw [Act.go_bind_ok (Act.go_me s), Act.go_bind_ok (Act.go_get s), h.cur]
  dsimp only
  split
  · rfl
  · rename_i lanes
    split
    · rfl
    · rename_i loads
      simp only [Bool.and_eq_true, bne_iff_ne, Bool.not_eq_true'] at lanes loads
      rcases waits with ⟨kind, scope, quiet⟩ | waits
      · exact absurd ⟨⟨kind, scope⟩, quiet⟩ lanes
      · exact absurd waits loads

/-- What a mem.fence that goes on changes first. -/
def fenceAcquires (s : State) (i : Nat) (f : TForm) : State :=
  if f.mod.toNat / 4 % 4 ≠ 1 ∧ f.mod.toNat % 4 ≠ 0 then s.acquire i else s

/-- What it leaves. -/
def fencePast (s : State) (i : Nat) (t : Team) (f : TForm) : State :=
  if f.mod.toNat / 4 % 4 ≠ 2 ∧ f.mod.toNat % 4 ≠ 0 then fenced (fenceAcquires s i f) i t 3 3 else fenceAcquires s i f

theorem fenceAcquires_stages (h : AtIssue s i t) (f : TForm) (a b : Nat) :
    (fenceAcquires s i f).stageFence i a b = fenced (fenceAcquires s i f) i t a b := by
  unfold fenceAcquires
  split
  · exact State.stageFence_eq h.find_acquire rfl rfl a b
  · exact State.stageFence_eq h.2 rfl rfl a b

theorem go_memFence (h : AtIssue s i t) {f : TForm} (goes : ¬ fenceWaits s i f) :
    Act.go (memFence f) s = (.ok (), fencePast s i t f) := by
  obtain ⟨lanes, loads⟩ := not_or.mp goes
  have stages : Act.go (if (f.mod.toNat / 4 % 4 != 2 && f.mod.toNat % 4 != 0) = true then
      modify fun (s : State) => s.stageFence i 3 3 else pure PUnit.unit) (fenceAcquires s i f) = (.ok (), fencePast s i t f) := by
    unfold fencePast
    simp only [Bool.and_eq_true, bne_iff_ne]
    split
    · rw [Act.go_modify, fenceAcquires_stages h]
    · rfl
  unfold memFence
  rw [Act.go_bind_ok (Act.go_me s), Act.go_bind_ok (Act.go_get s), h.cur]
  dsimp only
  rw [if_neg fun c => lanes (by simpa [and_assoc] using c), if_neg fun c => loads (by simpa using c)]
  rw [← stages, fenceAcquires]
  simp only [Bool.and_eq_true, bne_iff_ne]
  split <;> rfl

/-! ## Fences between paths -/

/-- Whether a mem.xfence orders what the lane or front path does later. -/
abbrev xfenceAcquires (f : TForm) : Prop := bitOf f.b.code 0 ∨ bitOf f.b.code 1

/-- A mem.xfence that waits. -/
def xfenceWaits (s : State) (i : Nat) (f : TForm) : Prop :=
  s.pathsQuiet i f.a.code = false ∨ (xfenceAcquires f ∧ s.loadsQuiet i = false)

theorem go_memXfence_waits (h : AtIssue s i t) {f : TForm} (waits : xfenceWaits s i f) :
    Act.go (memXfence f) s = (.error (.block { point := false }), s) := by
  have blocks : (!s.pathsQuiet i f.a.code || ((bitOf f.b.code 0 || bitOf f.b.code 1) && !s.loadsQuiet i)) = true := by
    simpa [xfenceWaits, xfenceAcquires] using waits
  unfold memXfence
  rw [Act.go_bind_ok (Act.go_me s), Act.go_bind_ok (Act.go_get s), h.cur]
  dsimp only
  rw [if_pos blocks]
  rfl

/-- What a mem.xfence that goes on changes first: the team's later loads find no line that was filled before. -/
def xfencePast (s : State) (i : Nat) (t : Team) (f : TForm) : State :=
  if xfenceAcquires f then (if f.mod.toNat % 4 = 0 then s.unsee t.core i else s.acquire i) else s

theorem xfencePast_stages (h : AtIssue s i t) (f : TForm) (a b : Nat) :
    (xfencePast s i t f).stageFence i a b = fenced (xfencePast s i t f) i t a b := by
  unfold xfencePast
  split
  · split
    · exact State.stageFence_eq (by rw [State.unsee_teams]; exact h.2) rfl rfl a b
    · exact State.stageFence_eq h.find_acquire rfl rfl a b
  · exact State.stageFence_eq h.2 rfl rfl a b

theorem go_memXfence (h : AtIssue s i t) {f : TForm} (goes : ¬ xfenceWaits s i f) :
    Act.go (memXfence f) s = (.ok (), fenced (xfencePast s i t f) i t f.a.code f.b.code) := by
  have passes : ¬ (!s.pathsQuiet i f.a.code || ((bitOf f.b.code 0 || bitOf f.b.code 1) && !s.loadsQuiet i)) = true := by
    simpa [xfenceWaits, xfenceAcquires] using goes
  unfold memXfence
  rw [Act.go_bind_ok (Act.go_me s), Act.go_bind_ok (Act.go_get s), h.cur]
  dsimp only
  rw [if_neg passes, ← xfencePast_stages h]
  by_cases acq : bitOf f.b.code 0 ∨ bitOf f.b.code 1
  · have past : xfencePast s i t f = if f.mod.toNat % 4 = 0 then s.unsee t.core i else s.acquire i := if_pos acq
    rw [if_pos (by simpa using acq), past]
    refine (Act.go_bind_ok (Act.go_modify _ _)).trans ?_
    rw [h.team]
    rfl
  · have past : xfencePast s i t f = s := if_neg acq
    rw [if_neg (by simpa using acq), past]
    rfl

/-! ## Publication -/

/-- A window that the team may publish takes its next version. -/
def published (s : State) (n : Nat) (win : Window) : State :=
  (s.store (hostKey win.versionAt) (leBytes 8 (win.version + 1).toNat) 0 0).withHearth fun h =>
    { h with windows := SMap.put h.windows n { win with version := win.version + 1 } }

theorem AtIssue.published (h : AtIssue s i t) (n : Nat) (win : Window) : ∃ u, AtIssue (published s n win) i u := by
  obtain ⟨u, hu, -⟩ := (s.stands_store (hostKey win.versionAt) (leBytes 8 (win.version + 1).toNat) 0 0).find h.2
  exact ⟨u, (s.store_cur _ _ _ _).trans h.1, hu⟩

/-- The window that a number names. -/
def State.windowAt (s : State) (w : Word) : Option Window := if w.toNat < 64 then SMap.find s.hearth.windows w.toNat else none

/-- mem.publish refuses a window that is not its team's own. -/
theorem go_memPublish_refuses (h : AtIssue s i t) {f : TForm} (hr : Readable t f.a)
    (other : ∀ win, s.windowAt (t.scalar (s.teamsOf t) f.a) = some win → win.asid ≠ t.asid) :
    Act.go (memPublish f) s =
      (.error (.trap [{ t.record .protect 0 with ea := t.scalar (s.teamsOf t) f.a }]), s) := by
  unfold memPublish
  rw [Act.go_bind_ok (go_sread h hr), Act.go_bind_ok (Act.go_me s), Act.go_bind_ok h.go_tm, Act.go_bind_ok (Act.go_get s)]
  split
  · exact h.go_fail ..
  · rename_i win found
    have ne : (win.asid != t.asid) = true := by simpa using other win found
    dsimp only
    rw [if_pos ne, Act.go_bind, h.go_fail]

section
variable {f : TForm} {win : Window} (h : AtIssue s i t) (hr : Readable t f.a)
  (found : s.windowAt (t.scalar (s.teamsOf t) f.a) = some win) (own : win.asid = t.asid)
include h hr found own

theorem go_memPublish_waits (writes : s.writesInto i win = true) :
    Act.go (memPublish f) s = (.error (.block { point := false }), s) := by
  unfold memPublish
  rw [Act.go_bind_ok (go_sread h hr), Act.go_bind_ok (Act.go_me s), Act.go_bind_ok h.go_tm, Act.go_bind_ok (Act.go_get s), h.cur]
  unfold State.windowAt at found
  rw [found]
  dsimp only
  rw [if_neg (by simpa using own), if_pos writes]
  rfl

theorem go_memPublish (quiet : s.writesInto i win = false) :
    Act.go (memPublish f) s =
      Act.go (swrite f.d (win.version + 1)) (published s (t.scalar (s.teamsOf t) f.a).toNat win) := by
  unfold memPublish
  rw [Act.go_bind_ok (go_sread h hr), Act.go_bind_ok (Act.go_me s), Act.go_bind_ok h.go_tm, Act.go_bind_ok (Act.go_get s), h.cur]
  unfold State.windowAt at found
  rw [found]
  dsimp only
  rw [if_neg (by simpa using own), if_neg (by simp [quiet])]
  exact Act.go_bind_ok (Act.go_modify _ _)

end

/-- A scalar result after any change: the instruction ends as if the team's register had been written. -/
theorem AtIssue.retires_swrite (h : AtIssue s i t) {s' : State} {u : Team} (h' : AtIssue s' i u) {act : Act Unit} {r : Reg} {x : Word}
    (hgo : Act.go act s = Act.go (swrite r x) s') :
    runCore act s = .next ((s'.withTeam i fun u => u.putScalar r x).retire i) := by
  rw [go_swrite h'] at hgo
  rw [runCore_ok h.1 h.2 hgo, ← State.withTeam_const h'.2 fun u => u.putScalar r x]
  cases r with
  | s n => rfl
  | a n => rfl
  | _ => exact congrArg Host.Outcome.next (State.retire_self h'.2).symm

end Sys2Proof.Machine

namespace Sys2Proof.Claims

open Sys2Proof Sys2Proof.Machine Sys2Proof.Claims

/-- Settles O36, instruction by instruction: each waits, or goes on with what it changes. -/
theorem fencesAndPublication : Obligations.FencesAndPublication := by
  intro f s i t h scope kind
  refine ⟨?_, ?_, fun hr => ?_⟩
  · exact ⟨fun goes => runCore_ok h.1 h.2 (go_memFence h goes), fun waits => runCore_block h.1 h.2 (go_memFence_waits h waits)⟩
  · exact ⟨fun goes => runCore_ok h.1 h.2 (go_memXfence h goes), fun waits => runCore_block h.1 h.2 (go_memXfence_waits h waits)⟩
  · intro x n refuses
    have refused (other : ∀ win, s.windowAt x = some win → win.asid ≠ t.asid) : refuses :=
      runCore_trap h.1 h.2 (go_memPublish_refuses h hr other)
    refine ⟨fun absent => refused fun win found => ?_, fun win inside found => ?_⟩
    · unfold State.windowAt at found
      split at found
      · rename_i inside
        rcases absent with outside | none
        · exact absurd inside (Nat.not_lt.mpr outside)
        · cases none.symm.trans found
      · cases found
    · have named : s.windowAt x = some win := (if_pos inside).trans found
      refine ⟨fun other => refused fun win' found' => ?_,
        fun own writes => runCore_block h.1 h.2 (go_memPublish_waits h hr named own writes),
        fun own quiet => ?_⟩
      · cases named.symm.trans found'
        exact other
      · obtain ⟨u, h'⟩ := h.published n win
        exact h.retires_swrite h' (go_memPublish h hr named own quiet)

end Sys2Proof.Claims
end

section
/-! PROOF. O35 fails under a nonzero LA: mem.atom of a deterministic launch delivers its results, of which there are none, before
its lanes trap (R23, R195). -/

namespace Sys2Proof.Claims

open Sys2Proof Sys2Proof.Machine Sys2Proof.Claims

/-- A team of one lane at issue in a region that is deterministic. -/
def inDetRegion (t : Team) : State := { State.reset with cur := some 0, teams := [(0, t)], regions := [(0, { det := true })] }

/-- How many operations stand in flight for a team after an instruction. -/
def opsAfter : Host.Outcome State Fault Refusal → Nat
  | .next s => (s.team 0).ops.length
  | _ => 0

/-- Refutes O35: mem.atom at device scope in a deterministic launch, under LA 1. Its lanes trap, but the instruction has first put
an operation without results in flight, which the statement leaves out. -/
theorem not_atomics : ¬ Obligations.Atomics := by
  unfold Obligations.Atomics
  intro h
  have clean : oneLane.Clean := ⟨rfl, rfl⟩
  have det := (h ⟨.i32, 1, 0, .v 0, .v 0, .v 2, .zero, 0⟩ (inDetRegion oneLane) 0 oneLane (fun _ => 0) ⟨rfl, rfl⟩
    ⟨rfl, rfl, rfl, rfl, rfl⟩ fun l _ => clean.firstPoison l _).1 rfl rfl (fun _ => by decide +kernel)
    (by decide +kernel) (by decide +kernel)
  exact absurd (congrArg opsAfter det) (by decide +kernel)

end Sys2Proof.Claims
end

section
/-! PROOF. O42 fails where a count moves the floor of a timeline and a Mortar LOAD waits on the floor's host word: the write of the
floor drains the word, and the LOAD is answered to the team that copies (R223, R338). The statement's hypotheses say nothing of what is
pending at the slices, so they admit such a state. -/

namespace Sys2Proof.Claims

open Sys2Proof Sys2Proof.Machine Sys2Proof.Claims

/-- Host word of the floor of timeline 0. -/
def floorWord : Nat := hostKey 0x1000

/-- A Mortar STORE of 7 to the floor's word, and a LOAD of the team's behind it, whose answer nothing takes. -/
def floorEntries : List MortarOp :=
  [{ team := 0, unit := 0, asid := 0, key := floorWord, size := 4, kind := 1, ty := 0, fn := 0, value := 7 },
    { team := 0, unit := 0, asid := 0, key := floorWord, size := 4, kind := 0, ty := 0, fn := 0, op := 1 }]

/-- A team of one lane that holds a pair at time 5 and waits for that LOAD. Its Q0 is bound to a copy engine that has taken three
words of a command. -/
def holding : Team :=
  { oneLane with
    holds := [{ loc := 0, stamp := [5] }], ops := [{ ident := 1, counter := some 0, mortar := 1 }]
    q := [(0, { kind := 1, ident := 0, words := [0, 0, 0] })] }

/-- A state with it at issue, its timeline's floor still at 0, and the entries on the floor's word. -/
def beforeFloor : State :=
  { State.reset with cur := some 0, teams := [(0, holding)], spaces := [(0, { floorb := 0x1000 })], mortar := floorEntries }

/-- The state after the copy has been counted at the team's pair. -/
def afterFloor : State := (beforeFloor.countPairs holding.core holding.asid holding.timeline holding.holds).getD beforeFloor

theorem countPairs_beforeFloor :
    beforeFloor.countPairs holding.core holding.asid holding.timeline holding.holds = some afterFloor := by
  have counted : (beforeFloor.countPairs holding.core holding.asid holding.timeline holding.holds).isSome = true := by decide +kernel
  obtain ⟨s1, hs⟩ := Option.isSome_iff_exists.mp counted
  rw [afterFloor, hs]
  rfl

/-- Refutes O42: cp.gath of no row. Counting the copy at the team's pair moves the floor, whose write drains the entries on its
word, and the LOAD is answered; the statement leaves the team waiting for it. -/
theorem not_copyInstructions : ¬ Obligations.CopyInstructions := by
  unfold Obligations.CopyInstructions
  intro h
  obtain ⟨⟨-, -, rowless⟩, -⟩ := h ⟨.i32, 0, 0, .zero, .zero, .zero, .zero, 0⟩ ⟨.i32, 0, 0, .zero, 0⟩
    beforeFloor afterFloor 0 holding
    ⟨rfl, rfl⟩ ⟨rfl, rfl, rfl, rfl, rfl⟩ trivial trivial trivial countPairs_beforeFloor
  have gathers := rowless (by decide +kernel) (by decide +kernel) ⟨by decide +kernel, by decide +kernel, by decide +kernel⟩
    (by decide +kernel) (by decide +kernel)
  exact absurd (congrArg opsAfter gathers) (by decide +kernel)

end Sys2Proof.Claims
end

section
/-! PROOF. O44 fails for the same reason as O42: the word that completes a copy command counts the copy, which moves the floor and
answers a Mortar LOAD of the team's own (R205, R223, R338). -/

namespace Sys2Proof.Claims

open Sys2Proof Sys2Proof.Machine Sys2Proof.Claims

/-- The state that the statement has the fourth word of the command leave. -/
def afterCommand : State :=
  (started afterFloor (commandOf beforeFloor 0 holding 0 0 0 0 0)).withTeam 0 fun _ => keeping 0 [] (furtherUnit holding)

theorem pushes_afterCommand : Pushes beforeFloor 0 0 0 afterCommand := by
  have issued : holding.UnitsIssued := fun u hu => by cases hu
  have room : UnitRoom beforeFloor holding := fun _ => by decide +kernel
  exact ⟨holding, { kind := 1, ident := 0, words := [0, 0, 0] }, rfl, rfl, .inl (by decide +kernel), .inl ⟨rfl, .inr
    ⟨0, 0, 0, afterFloor, rfl, issued, room, countPairs_beforeFloor, rfl⟩⟩⟩

/-- Refutes O44: a scalar q.put of the word that completes a copy command. Counting the copy at the team's pair moves the floor,
whose write drains the entries on its word, and the LOAD is answered; the statement leaves the team waiting for it. -/
theorem not_queueInstructions : ¬ Obligations.QueueInstructions := by
  unfold Obligations.QueueInstructions
  intro h
  obtain ⟨-, puts, -⟩ := h ⟨.i32, 0, 0, .q 0, .zero, .zero, .zero, 0⟩ beforeFloor 0 holding 0
    ⟨rfl, rfl⟩ ⟨rfl, rfl, rfl, rfl, rfl⟩
    (fun _ _ => rfl) (.inl trivial) trivial
  obtain ⟨scalar, -⟩ := puts rfl (by decide +kernel)
  have completes := scalar afterCommand trivial (fun _ => by simp) pushes_afterCommand
  exact absurd (congrArg opsAfter completes) (by decide +kernel)

end Sys2Proof.Claims
end

section
/-! PROOF. Copies (O43): while a copy's addresses are translated no Mortar entry appears (R199, R336). -/

namespace Sys2Proof.Machine

open Sys2Proof Sys2Proof.Claims

/-! ## What actions leave as it is -/

/-- An action that leaves what a predicate says of the state, however it ends. -/
def Act.Leaves {α : Type} (P : State → Prop) (m : Act α) : Prop := ∀ s, P s → P (Act.go m s).2

section
variable {P : State → Prop} {α β : Type}

theorem Act.Leaves.pure (a : α) : Act.Leaves P (pure a) := fun _ h => h
theorem Act.Leaves.throw (e : Stop) : Act.Leaves P (throw e : Act α) := fun _ h => h
theorem Act.Leaves.get : Act.Leaves P get := fun _ h => h
theorem Act.Leaves.modify {f : State → State} (h : ∀ s, P s → P (f s)) : Act.Leaves P (modify f) := h

theorem Act.Leaves.ite {c : Prop} [Decidable c] {m n : Act α} (hm : Act.Leaves P m) (hn : Act.Leaves P n) :
    Act.Leaves P (if c then m else n) := by
  split
  · exact hm
  · exact hn

theorem Act.Leaves.bind {m : Act α} {f : α → Act β} (hm : Act.Leaves P m) (hf : ∀ a, Act.Leaves P (f a)) :
    Act.Leaves P (m >>= f) := by
  intro s hs
  have h := hm s hs
  rw [Act.go_bind]
  split
  next a s' hg =>
    rw [hg] at h
    exact hf a s' h
  next e s' hg =>
    rw [hg] at h
    exact h

theorem Act.Leaves.mapM {f : α → Act β} (h : ∀ a, Act.Leaves P (f a)) (l : List α) : Act.Leaves P (l.mapM f) := by
  induction l with
  | nil => exact .pure _
  | cons a l ih =>
    rw [List.mapM_cons]
    exact (h a).bind fun _ => ih.bind fun _ => .pure _

end

/-! ## Translation of a copy's addresses -/

/-- The team and the place in its program order of the copy of a number. -/
def State.copyOwner (s : State) (id : Nat) : Option (Nat × Nat) := (SMap.find s.copies id).map fun c => (c.team, c.order)

/-- No Mortar entry is pending, and the copies are these teams'. -/
def CopiesStand (owner : Nat → Option (Nat × Nat)) (s : State) : Prop := s.mortar = [] ∧ s.copyOwner = owner

variable {owner : Nat → Option (Nat × Nat)}

theorem State.copyOwner_withCopy (s : State) (id : Nat) {f : Copy → Copy} (hf : ∀ c, ((f c).team, (f c).order) = (c.team, c.order)) :
    (s.withCopy id f).copyOwner = s.copyOwner := by
  funext j
  unfold State.copyOwner State.withCopy
  by_cases e : j = id
  · subst e
    cases hc : SMap.find s.copies j with
    | none => simp [SMap.alter, hc]
    | some c => simpa [SMap.find_alter_same _ f hc] using hf c
  · simp [SMap.find_alter_other _ f e]

theorem CopiesStand.keep {s : State} (h : CopiesStand owner s) (g : Holder) (e : Tlb) (walked : Bool) :
    CopiesStand owner (s.keep g e walked) := by
  cases g with
  | copy id =>
    cases walked with
    | false => exact h
    | true => exact ⟨h.1, (s.copyOwner_withCopy id (f := fun c => { c with tlb := e :: c.tlb }) fun _ => rfl).trans h.2⟩
  | _ => cases walked <;> exact h

theorem CopiesStand.store {s : State} (h : CopiesStand owner s) (key : Nat) (bs : List Byte) (asid group : Nat) :
    CopiesStand owner (s.store key bs asid group) := by
  obtain ⟨md, cv, e⟩ := State.store_eq h.1 key bs asid group
  rw [e]
  exact h

theorem leaves_readEntry (addr : Nat) : Act.Leaves (CopiesStand owner) (readEntry addr) :=
  .bind .get fun _ => .bind (.bind (.bind (.modify fun s h => by rwa [s.drainOver_of_empty h.1]) fun _ => .bind .get fun _ => .pure _)
    fun _ => .pure _) fun _ => .pure _

theorem leaves_walkTo (va : Nat) (levels : List Nat) (table : Nat) : Act.Leaves (CopiesStand owner) (walkTo va levels table) := by
  induction levels generalizing table with
  | nil => exact .pure _
  | cons level rest ih => exact .bind (leaves_readEntry _) fun p => .ite (.pure _) (.ite (.pure _) (.ite (.pure _) (ih _)))

theorem leaves_walk (asid va u g : Nat) (need : Need) : Act.Leaves (CopiesStand owner) (walk asid va u g need) := by
  refine .bind .get fun s => .bind (leaves_walkTo _ _ _) fun r => ?_
  match r with
  | .error e => exact .pure _
  | .ok (level, lo, hi, at_) =>
    refine .ite (.pure _) (.ite (.pure _) (.ite
      (.bind (.mapM (fun i => leaves_readEntry _) _) fun _ => .bind (.pure _) fun good => ?_) (.bind (.pure _) fun good => ?_)))
    all_goals
      refine .ite (.pure _) (.ite (.pure _) (.ite (.pure _) (.ite (.pure _) ?_)))
      dsimp only
      split <;> exact .pure _

theorem leaves_translate (h : Holder) (asid u g : Nat) (va : Word) (need : Need) :
    Act.Leaves (CopiesStand owner) (translate h asid u g va need) := by
  have keeps (e : Tlb) (walked : Bool) : Act.Leaves (CopiesStand owner) (modify fun (s : State) => s.keep h e walked) :=
    .modify fun _ hs => hs.keep _ _ _
  refine .ite (.pure _) (.bind (.bind .get fun s => ?leaf) fun r => ?_)
  case leaf =>
    split
    · exact .bind (keeps _ _) fun _ => .pure _
    · refine .bind (leaves_walk _ _ _ _ _) fun r => ?_
      split
      · exact .pure _
      · exact .bind (keeps _ _) fun _ => .pure _
  split
  · exact .bind .get fun _ => .pure _
  · exact .pure _

theorem leaves_postRequest (asid u g : Nat) (va : Word) (c : Cause) (detail access : Nat) :
    Act.Leaves (CopiesStand owner) (postRequest asid u g va c detail access) := by
  intro s hs
  unfold postRequest
  rw [Act.go_bind_ok (Act.go_get s)]
  dsimp only
  split
  · exact hs
  · split
    · exact hs
    · exact CopiesStand.store (hs.store _ _ _ _) _ _ _ _

theorem leaves_copyReach (c : Copy) (va : Word) (need : Need) : Act.Leaves (CopiesStand owner) (c.reach va need) := by
  refine .bind (leaves_translate _ _ _ _ _ _) fun r => ?_
  split
  · exact .pure _
  · exact .bind (leaves_postRequest _ _ _ _ _ _ _) fun _ => .throw _
  · exact .throw _

theorem leaves_copyKeys (c : Copy) (a : Word) (n : Nat) (need : Need) : Act.Leaves (CopiesStand owner) (c.keys a n need) := by
  refine .bind (.mapM (fun p => .bind (leaves_copyReach c _ _) fun _ => .pure _) _) fun ks => .bind .get fun s => .ite ?_ (.pure _)
  exact .bind (.throw _) fun _ => .pure _

theorem copiesStand_of_copyKeys {s s' : State} {c : Copy} {a : Word} {n : Nat} {need : Need} {ks : List (Word × Nat × Nat)}
    (hm : s.mortar = []) (hk : Act.go (c.keys a n need) s = (.ok ks, s')) : CopiesStand s.copyOwner s' := by
  have h := leaves_copyKeys (owner := s.copyOwner) c a n need s ⟨hm, rfl⟩
  rwa [hk] at h

/-! ## Reads of a copy -/

variable {s : State}

/-- An action for each of a list that leaves the state as it is. -/
theorem Act.go_mapM_still {α β : Type} {f : α → Act β} {g : α → β} (l : List α)
    (h : ∀ a ∈ l, Act.go (f a) s = (.ok (g a), s)) :
    Act.go (l.mapM f) s = (.ok (l.map g), s) := by
  obtain ⟨s', hgo, e⟩ := Act.go_mapM (P := fun s' => s' = s) l (fun a ha s' e => ⟨s, by rw [e]; exact h a ha, rfl⟩) rfl
  rwa [e] at hgo

/-- A team's own read where no Mortar entry is pending: memory, with what the ticket unit holds of the team's own. -/
theorem go_ownRead_own (hm : s.mortar = []) (i before key n : Nat) :
    Act.go (ownRead i before key n) s = (.ok (s.ownBytes i before key n, s.poisonAt (key / 8 * 8)), s) := by
  unfold ownRead
  dsimp only
  rw [Act.go_bind_ok (go_readSlice hm _ _), Act.go_bind_ok (Act.go_get s)]
  rfl

/-- What a piece of a copy's source gives. -/
def fetched (s : State) (c : Copy) (k : Word × Nat × Nat) : List Byte × Nat :=
  if c.kind = 3 then (readBytes s.mem k.2.1 k.2.2, s.poisonAt k.2.1) else (copyBytes s c k, s.poisonAt (k.2.1 / 8 * 8))

theorem go_fetch {s2 : State} {c : Copy} {a : Word} {n : Nat} {ks : List (Word × Nat × Nat)} (hm : s.mortar = [])
    (hk : Act.go (c.keys a n { r := true }) s = (.ok ks, s2)) :
    Act.go (c.fetch a n) s = (.ok (ks.map (fetched s2 c)), s2) := by
  have hm2 := (copiesStand_of_copyKeys hm hk).1
  unfold Copy.fetch
  rw [Act.go_bind_ok hk]
  refine Act.go_mapM_still ks fun k _ => ?_
  unfold fetched
  split
  · exact go_readSlice hm2 _ _
  · exact go_ownRead_own hm2 _ _ _ _

/-- What pieces without poison give. -/
theorem fetched_own {s2 : State} {c : Copy} {ks : List (Word × Nat × Nat)} (kind : c.kind ≠ 3)
    (hp : ∀ k ∈ ks, s2.poisonAt (k.2.1 / 8 * 8) = 0) :
    (∀ p ∈ ks.map (fetched s2 c), p.2 = 0) ∧ (ks.map (fetched s2 c)).flatMap (·.1) = ks.flatMap (copyBytes s2 c) := by
  have src : ks.map (fetched s2 c) = ks.map fun k => (copyBytes s2 c k, s2.poisonAt (k.2.1 / 8 * 8)) :=
    List.map_congr_left fun k _ => if_neg kind
  rw [src]
  exact ⟨List.forall_mem_map.mpr hp, by rw [List.flatMap_map]⟩

/-- The same of a command. -/
theorem fetched_slice {s2 : State} {c : Copy} {ks : List (Word × Nat × Nat)} (kind : c.kind = 3)
    (hp : ∀ k ∈ ks, s2.poisonAt k.2.1 = 0) :
    (∀ p ∈ ks.map (fetched s2 c), p.2 = 0) ∧
      (ks.map (fetched s2 c)).flatMap (·.1) = ks.flatMap fun k => readBytes s2.mem k.2.1 k.2.2 := by
  have src : ks.map (fetched s2 c) = ks.map fun k => (readBytes s2.mem k.2.1 k.2.2, s2.poisonAt k.2.1) :=
    List.map_congr_left fun k _ => if_pos kind
  rw [src]
  exact ⟨List.forall_mem_map.mpr hp, by rw [List.flatMap_map]⟩

theorem foldl_max_zero {l : List Nat} (h : ∀ p ∈ l, p = 0) : l.foldl max 0 = 0 := by
  induction l with
  | nil => rfl
  | cons p l ih => simpa [h p (by simp)] using ih fun q hq => h q (by simp [hq])

/-! ## Scratchpad -/

/-- Two writes one behind the other are one. -/
theorem Alloc.write_append (al : Alloc) (off : Nat) (bs cs : List Byte) (poison : Nat) :
    al.write off (bs ++ cs) poison = (al.write off bs poison).write (off + bs.length) cs poison := by
  have behind : (List.range (bs.length + cs.length)).zip (bs ++ cs) =
      (List.range bs.length).zip bs ++ ((List.range cs.length).zip cs).map fun p => (bs.length + p.1, p.2) := by
    rw [List.range_add, List.zip_append (by simp), List.zip_map_left]
    rfl
  unfold Alloc.write
  rw [List.length_append, behind, List.foldl_append, List.foldl_map]
  simp only [Nat.add_assoc]

/-- Pieces without poison, written one behind the other. -/
theorem foldl_write (src : List (List Byte × Nat)) (h : ∀ p ∈ src, p.2 = 0) (off : Nat) (al : Alloc) :
    (src.foldl (fun (x : Nat × Alloc) p =>
      (x.1 + p.1.length, x.2.write x.1 (if p.2 = 0 then p.1 else zeros p.1.length) p.2)) (off, al)).2 =
      al.write off (src.flatMap (·.1)) := by
  induction src generalizing off al with
  | nil => rfl
  | cons p src ih =>
    rw [List.foldl_cons, ih fun q hq => h q (by simp [hq]), List.flatMap_cons, al.write_append, h p (by simp), if_pos rfl]

/-! ## Writes of a copy -/

/-- A step of a copy's write: the piece's bytes wait, one more operation of the copy's unit. -/
def writeStep (c : Copy) (s : State) (w : PendWrite) : State :=
  let s1 := s.owe c.team w.unit
  if c.held then s1.withTeam c.team fun t => { t with staged := stageAhead c.order w t.staged }
  else { s1 with writes := s1.writes ++ [w] }

/-- The writes of a copy's pieces, step by step. -/
theorem foldl_writeStep (c : Copy) (ks : List (Word × Nat × Nat)) (bs : List Byte) (at_ : Nat) (s : State) :
    (ks.foldl (fun (x : Nat × State) k =>
      let w : PendWrite :=
        { team := c.team, unit := c.unit.getD 0, path := 2, va := k.1, key := k.2.1, bytes := (bs.drop x.1).take k.2.2,
          asid := c.asid, group := c.order, part := c.part, poisoned := false }
      let s1 := x.2.owe c.team (c.unit.getD 0)
      (x.1 + k.2.2,
        if c.held then s1.withTeam c.team fun t => { t with staged := stageAhead c.order w t.staged }
        else { s1 with writes := s1.writes ++ [w] })) (at_, s)).2 = (copyWrites c ks (bs.drop at_)).foldl (writeStep c) s := by
  induction ks generalizing at_ s with
  | nil => rfl
  | cons k ks ih =>
    rw [List.foldl_cons, ih, copyWrites, List.foldl_cons, List.drop_drop]
    rfl

/-- The writes that wait for their slices. -/
theorem foldl_writeStep_open {c : Copy} (held : c.held = false) (ws before : List PendWrite) (s : State) :
    ws.foldl (writeStep c) { s with writes := before } =
      { ws.foldl (fun s w => s.owe c.team w.unit) s with writes := before ++ ws } := by
  induction ws generalizing before s with
  | nil => simp
  | cons w ws ih =>
    have step : writeStep c { s with writes := before } w = { s.owe c.team w.unit with writes := before ++ [w] } := by
      simp only [writeStep, held, Bool.false_eq_true, if_false]
      rfl
    rw [List.foldl_cons, step, ih, List.append_assoc]
    rfl

/-- Changes of one team, one after another, are one change. -/
theorem foldl_withTeam {α : Type} (i : Nat) (g : Team → α → Team) (a : α) (l : List α) (s : State) :
    (a :: l).foldl (fun s a => s.withTeam i fun t => g t a) s = s.withTeam i fun t => (a :: l).foldl g t := by
  induction l generalizing a s with
  | nil => rfl
  | cons b l ih =>
    rw [List.foldl_cons, ih, State.withTeam_withTeam]
    rfl

/-- A team with one operation more of a unit. -/
def Team.owing (t : Team) (unit : Nat) : Team :=
  { t with undrained := t.undrained.map fun u => if u.1 = unit then (u.1, u.2 + 1) else u }

/-- A team whose writes are staged ahead of a copy's mark. -/
def Team.ahead (c : Copy) (t : Team) (w : PendWrite) : Team :=
  { t.owing w.unit with staged := stageAhead c.order w t.staged }

theorem foldl_ahead (c : Copy) (ws : List PendWrite) (es : List Effect) (t : Team) :
    ws.foldl (Team.ahead c) { t with staged := es } =
      { ws.foldl (fun t w => t.owing w.unit) t with staged := ws.foldl (fun es w => stageAhead c.order w es) es } := by
  induction ws generalizing es t with
  | nil => rfl
  | cons w ws ih => exact ih (stageAhead c.order w es) (t.owing w.unit)

theorem foldl_owing_staged (ws : List PendWrite) (t : Team) : (ws.foldl (fun t w => t.owing w.unit) t).staged = t.staged := by
  induction ws generalizing t with
  | nil => rfl
  | cons w ws ih => exact ih (t.owing w.unit)

/-- Those that stand before the copy's mark at the ticket unit. -/
theorem foldl_writeStep_held {c : Copy} (held : c.held = true) (w : PendWrite) (ws : List PendWrite) (s : State) :
    (w :: ws).foldl (writeStep c) s = copyIssues s c (w :: ws) := by
  have step : writeStep c = fun s w => s.withTeam c.team fun t => t.ahead c w := by
    funext s w
    simp only [writeStep, held, if_true, State.owe, State.withTeam_withTeam]
    rfl
  have owes : (w :: ws).foldl (fun s w => s.owe c.team w.unit) s =
      s.withTeam c.team fun t => (w :: ws).foldl (fun t w => t.owing w.unit) t :=
    foldl_withTeam _ (fun t (w : PendWrite) => t.owing w.unit) _ _ _
  unfold copyIssues
  rw [step, foldl_withTeam _ (fun t w => t.ahead c w), owes, held, if_pos rfl, State.withTeam_withTeam]
  refine congrArg (s.withTeam c.team) (funext fun t => ?_)
  rw [foldl_owing_staged]
  exact foldl_ahead c (w :: ws) t.staged t

/-- A copy without poison writes its pieces. -/
theorem go_copyWrite {c : Copy} {ks : List (Word × Nat × Nat)} (hk : ks ≠ []) (bs : List Byte) (s : State) :
    Act.go (c.write ks bs 0) s = (.ok (), copyIssues s c (copyWrites c ks bs)) := by
  have steps : Act.go (c.write ks bs 0) s = (.ok (), (copyWrites c ks bs).foldl (writeStep c) s) :=
    congrArg (Prod.mk _) (foldl_writeStep c ks bs 0 s)
  rw [steps]
  cases held : c.held with
  | false =>
    have waits := foldl_writeStep_open held (copyWrites c ks bs) s.writes s
    rw [show (copyWrites c ks bs).foldl (writeStep c) s = _ from waits]
    simp [copyIssues, held]
  | true =>
    obtain ⟨k, ks, rfl⟩ := List.exists_cons_of_ne_nil hk
    rw [copyWrites, foldl_writeStep_held held]

/-! ## The pieces of a range -/

theorem Act.length_of_mapM {α β : Type} {f : α → Act β} {l : List α} {s s' : State} {bs : List β}
    (h : Act.go (l.mapM f) s = (.ok bs, s')) : bs.length = l.length := by
  induction l generalizing s bs with
  | nil =>
    cases h
    rfl
  | cons a l ih =>
    rw [List.mapM_cons, Act.go_bind] at h
    split at h
    · rw [Act.go_bind] at h
      split at h
      · rename_i hl
        cases h
        simp [ih hl]
      · cases h
    · cases h

theorem pieces_ne_nil {u fuel a n : Nat} (hn : 0 < n) : pieces u (fuel + 1) a n ≠ [] := by
  unfold pieces
  rw [if_neg (by omega)]
  simp

/-- A piece of at least a byte has keys. -/
theorem copyKeys_ne_nil {s s' : State} {c : Copy} {a : Word} {n : Nat} {need : Need} {ks : List (Word × Nat × Nat)} (hn : 0 < n)
    (h : Act.go (c.keys a n need) s = (.ok ks, s')) : ks ≠ [] := by
  unfold Copy.keys at h
  rw [Act.go_bind] at h
  split at h
  · rename_i ks1 s1 hm
    have length := Act.length_of_mapM hm
    rw [Act.go_bind_ok (Act.go_get s1)] at h
    split at h
    · cases h
    · cases h
      exact fun e => pieces_ne_nil hn (List.length_eq_zero_iff.mp (by rw [← length, e]; rfl))
  · cases h

theorem takeChunk_pos {runs rest : List (Word × Nat × Nat)} {chunk n off : Nat} {a : Word}
    (h : takeChunk runs chunk = some ((a, off, n), rest)) : 0 < n := by
  induction runs generalizing chunk rest with
  | nil => cases h
  | cons r runs ih =>
    obtain ⟨a', o, m⟩ := r
    unfold takeChunk at h
    dsimp only at h
    split at h
    · cases h
      omega
    · obtain ⟨p, hp, e⟩ := Option.map_eq_some_iff.mp h
      obtain ⟨⟨x, y, z⟩, q⟩ := p
      cases e
      exact ih hp

theorem chunksLeft_eq (runs : List (Word × Nat × Nat)) : chunksLeft runs = (runs.map fun r => (r.2.2 + 127) / 128).sum := by
  rw [List.sum_eq_foldl, List.foldl_map]
  rfl

/-- Past the pieces that are left there is none. -/
theorem takeChunk_past (runs : List (Word × Nat × Nat)) (j : Nat) : takeChunk runs (chunksLeft runs + j) = none := by
  induction runs with
  | nil => rfl
  | cons r runs ih =>
    obtain ⟨a, o, n⟩ := r
    have count : chunksLeft ((a, o, n) :: runs) = (n + 127) / 128 + chunksLeft runs := by simp [chunksLeft_eq]
    unfold takeChunk
    dsimp only
    rw [count, if_neg (by omega), show (n + 127) / 128 + chunksLeft runs + j - (n + 127) / 128 = chunksLeft runs + j by omega, ih]
    rfl

/-! ## Steps of a copy -/

theorem State.withCopy_withCopy (s : State) (id : Nat) (f g : Copy → Copy) :
    (s.withCopy id f).withCopy id g = s.withCopy id fun c => g (f c) := by
  simp [State.withCopy, SMap.alter_alter]

section
variable {id chunk : Nat} {c : Copy} (hc : SMap.find s.copies id = some c)
include hc

theorem concludeCopy_ok {act : Act Unit} {s' : State} (hgo : Act.go act s = (.ok (), s')) :
    s.concludeCopy id act = s'.flushReturns c.team := by
  simp [State.concludeCopy, hgo, hc]

theorem copyFills_moves {p : Word × Nat × Nat} {rest : List (Word × Nat × Nat)} (moves : s.copyMoves id c = true)
    (take : takeChunk c.runs chunk = some (p, rest)) {s' : State} (hgo : Act.go (c.move id p rest) s = (.ok (), s')) :
    exec (.copyLineFilled id chunk) s = .next (s'.flushReturns c.team) := by
  show Host.Outcome.next (copyFills id chunk s) = _
  simp only [copyFills, hc, moves, if_true, take]
  rw [concludeCopy_ok hc hgo]

/-- A copy whose completion word is written leaves. -/
theorem copyCompletes_leaves (held : c.held = false) (moves : s.copyMoves id c = true) (settled : s.copySettled id c = true)
    {s' : State} (hgo : Act.go c.finish s = (.ok (), s')) :
    exec (.copyComplete id) s = .next ((copyLeaves s' id c).flushReturns c.team) := by
  show Host.Outcome.next (copyCompletes id s) = _
  simp only [copyCompletes, hc, held, moves, settled, Bool.not_false, Bool.and_self, if_true]
  rw [concludeCopy_ok hc ((Act.go_bind_ok hgo).trans (Act.go_modify _ _))]
  unfold copyLeaves
  cases c.unit <;> rfl

end

section
variable {id n off : Nat} {c : Copy} {a : Word} {rest ks : List (Word × Nat × Nat)} {s2 : State}

/-- A piece of a put goes to memory. -/
theorem go_move_put (kind : c.kind = 2) (hn : 0 < n) (hk : Act.go (c.keys a n { w := true }) s = (.ok ks, s2)) {al : Alloc}
    (hal : (s.core c.core).allocs.find? (fun al => decide (al.launch = c.launch)) = some al)
    (readable : ((linesOf off n).all fun l => s.lineReadable c al l) = true) (clear : al.poisonIn off n = 0) :
    Act.go (c.move id (a, off, n) rest) s = (.ok (),
      (copyIssues s2 c (copyWrites c ks (al.read off n))).withCopy id fun d => d.advanced n rest d.rows) := by
  unfold Copy.move
  dsimp only
  split
  · rw [Act.go_bind_ok (Act.go_get s), Act.go_bind_ok (Act.go_get s), hal]
    simp only [Option.getD_some, readable, Bool.not_true, Bool.false_eq_true, if_false]
    rw [Act.go_bind_ok hk, clear, Act.go_bind_ok (go_copyWrite (copyKeys_ne_nil hn hk) _ _), Act.go_modify]
  · omega
  · contradiction

variable (hm : s.mortar = [])
include hm

/-- A piece of a fill lands in its line. -/
theorem go_move_fill (kind : c.kind < 2) (unread : c.kind = 0 → s.sourceUnread c off n = false)
    (hk : Act.go (c.keys a n { r := true }) s = (.ok ks, s2)) (hp : ∀ k ∈ ks, s2.poisonAt (k.2.1 / 8 * 8) = 0) :
    Act.go (c.move id (a, off, n) rest) s = (.ok (),
      (s2.withAlloc c.core c.launch fun al =>
          let w := al.write off (ks.flatMap (copyBytes s2 c))
          { w with empties := w.empties.erase (off / 128) }).withCopy id fun d =>
        { d.advanced n rest d.rows with lines := d.lines.erase (off / 128) }) := by
  obtain ⟨clear, bytes⟩ := fetched_own (show c.kind ≠ 3 by omega) hp
  have goes : (c.kind = 0 && s.sourceUnread c off n) = false := by
    by_cases zero : c.kind = 0
    · simp [unread zero]
    · simp [zero]
  unfold Copy.move
  dsimp only
  split
  · omega
  · omega
  · rw [Act.go_bind_ok (Act.go_get s), goes]
    simp only [Bool.false_eq_true, if_false]
    rw [Act.go_bind_ok (go_fetch hm hk), Act.go_bind_ok (Act.go_modify _ _), Act.go_modify]
    simp only [foldl_write _ clear, bytes]
    refine congrArg (Prod.mk _) ?_
    rw [State.withCopy_withCopy]
    rfl

/-- A piece of a copy command goes from memory to memory. -/
theorem go_move_command (kind : c.kind = 3) (hn : 0 < n) (hk : Act.go (c.keys a n { r := true }) s = (.ok ks, s2))
    (hp : ∀ k ∈ ks, s2.poisonAt k.2.1 = 0) {kd : List (Word × Nat × Nat)} {s3 : State}
    (hd : Act.go (c.keys (after c.dst off) n { w := true }) s2 = (.ok kd, s3)) :
    Act.go (c.move id (a, off, n) rest) s = (.ok (),
      (copyIssues s3 c (copyWrites c kd (ks.flatMap fun k => readBytes s2.mem k.2.1 k.2.2))).withCopy id fun d =>
        d.advanced n rest d.rows) := by
  obtain ⟨clear, bytes⟩ := fetched_slice kind hp
  have poison := foldl_max_zero (List.forall_mem_map.mpr clear)
  unfold Copy.move
  dsimp only
  split
  · omega
  · rw [Act.go_bind_ok (go_fetch hm hk), Act.go_bind_ok hd, poison, bytes,
      Act.go_bind_ok (go_copyWrite (copyKeys_ne_nil hn hd) _ _), Act.go_modify]
  · contradiction

/-- The index of a gather's row is read, and the row moves like a slice from then on. -/
theorem go_resolve (hc : SMap.find s.copies id = some c) {j : Nat} (kind : c.kind = 1) (row : c.rows[j]? = some (a, off, n))
    (hk : Act.go (c.keys a 4 { r := true }) s = (.ok ks, s2)) (hp : ∀ k ∈ ks, s2.poisonAt (k.2.1 / 8 * 8) = 0) :
    Act.go (c.resolve id j) s = (.ok (), s2.withCopy id fun d =>
      { d with runs := d.runs ++ [(after d.dst (leNat (ks.flatMap (copyBytes s2 d)) * n), off, n)], rows := d.rows.eraseIdx j }) := by
  obtain ⟨clear, bytes⟩ := fetched_own (show c.kind ≠ 3 by omega) hp
  unfold Copy.resolve
  rw [row]
  dsimp only
  rw [Act.go_bind_ok (go_fetch hm hk), foldl_max_zero (List.forall_mem_map.mpr clear), if_pos rfl, bytes, Act.go_modify]
  have same := congrFun (copiesStand_of_copyKeys hm hk).2 id
  simp only [State.copyOwner, hc, Option.map_some, Option.map_eq_some_iff, Prod.mk.injEq] at same
  obtain ⟨d, hd, team, order⟩ := same
  have own : copyBytes s2 d = copyBytes s2 c := by
    funext k
    rw [copyBytes, copyBytes, team, order]
  simp [State.withCopy, SMap.alter, hd, own]

/-- The completion word of a command takes its 1, or the mark of a fault. -/
theorem go_finish {k : Nat} (done : c.done ≠ 0) (inside : c.done.toNat % 4096 ≤ 4088)
    (hr : Act.go (c.reach c.done { r := true, w := true }) s = (.ok k, s2)) (first : s2.copyBehind c [(k, 8)] = false) :
    Act.go c.finish s = (.ok (), s2.store k
      (leBytes 8 (leNat (readBytes s2.mem k 8) + if c.failed then 2 ^ 63 + 1 else 1)) c.asid c.order) := by
  have hm2 : s2.mortar = [] := by
    have h := leaves_copyReach (owner := s.copyOwner) c c.done { r := true, w := true } s ⟨hm, rfl⟩
    rw [hr] at h
    exact h.1
  have one : pagePieces c.done.toNat 8 = [(c.done.toNat, 8)] := pagePieces_one (by decide) (by omega)
  have located : Act.go ((pagePieces c.done.toNat 8).mapM fun p => do
      return (← c.reach (BitVec.ofNat 64 p.1) { r := true, w := true }, p.2)) s = (.ok [(k, 8)], s2) := by
    rw [one, List.mapM_cons, BitVec.ofNat_toNat, BitVec.setWidth_eq]
    refine (Act.go_bind_ok (a := (k, 8)) (s' := s2) ?_).trans rfl
    exact Act.go_bind_ok hr
  have read : Act.go ([(k, 8)].mapM fun (p : Nat × Nat) => readPhys p.1 p.2) s2 = (.ok [readBytes s2.mem k 8], s2) :=
    Act.go_mapM_still (g := fun p => readBytes s2.mem p.1 p.2) [(k, 8)] fun p _ => go_readPhys hm2 p.1 p.2
  unfold Copy.finish
  rw [if_pos (by simpa using done), Act.go_bind_ok located, Act.go_bind_ok (Act.go_get s2)]
  simp only [first, Bool.false_eq_true, if_false]
  rw [Act.go_bind_ok read, Act.go_modify]
  simp only [List.foldl_cons, List.foldl_nil, List.drop_zero, List.flatten_cons, List.flatten_nil, List.append_nil]
  rw [List.take_of_length_le (by simp [leBytes])]

end

end Sys2Proof.Machine

namespace Sys2Proof.Claims

open Sys2Proof Sys2Proof.Machine Sys2Proof.Claims

/-- Settles O43, event by event: the pieces of each kind of copy, the index of a row, the end of a copy and its stamps. -/
theorem copyMovement : Obligations.CopyMovement := by
  intro s id c hc hm
  refine ⟨fun chunk n off a rest ks s2 moves take => ⟨fun kind unread hk hp => ?_, fun kind hk al hal readable clear => ?_,
    fun kind hk hp kd s3 hd => ?_⟩, fun j off n a ks s2 kind moves row hk hp => ?_, fun held moves settled => ⟨fun done => ?_,
    fun k s2 done inside hr first => ?_⟩, fun s1 stops => ?_, fun stops ended => ?_⟩
  · exact copyFills_moves hc moves take (go_move_fill hm kind unread hk hp)
  · exact copyFills_moves hc moves take (go_move_put kind (takeChunk_pos take) hk hal readable clear)
  · exact copyFills_moves hc moves take (go_move_command hm kind (takeChunk_pos take) hk hp hd)
  · show Host.Outcome.next (copyFills id (chunksLeft c.runs + j) s) = _
    simp only [copyFills, hc, moves, if_true, takeChunk_past, Nat.add_sub_cancel_left]
    rw [concludeCopy_ok hc (go_resolve hm hc kind row hk hp)]
  · exact copyCompletes_leaves hc held moves settled (by rw [Copy.finish, if_neg (by simpa using done)]; rfl)
  · exact copyCompletes_leaves hc held moves settled (go_finish hm done inside hr first)
  · intro t place counts
    show Host.Outcome.next (copyRestamps id s) = _
    simp only [copyRestamps, hc, stops, Bool.not_true, Bool.false_eq_true, if_false]
    rw [if_neg place, counts]
  · show Host.Outcome.next (copyRestamps id s) = _
    simp only [copyRestamps, hc, stops, Bool.not_true, Bool.false_eq_true, if_false]
    rw [if_pos ended]

end Sys2Proof.Claims
end

section
/-! PROOF. mem.optab (O37): the pages of the table are reached one after another and read, and its checks decide (R212, R213). -/

namespace Sys2Proof.Machine

open Sys2Proof Sys2Proof.Claims

variable {s : State} {i : Nat} {t : Team}

/-- A mapped piece of a structure is read where no Mortar entry is pending (R346). -/
theorem go_readPiece (h : AtIssue s i t) (hm : s.mortar = []) {a : Word} {need : Need} {key : Nat} (m : Mapped s i t a need key)
    (access n : Nat) (ordered : Bool) :
    ∃ kind, Act.go (readPiece need access a n ordered) s = (.ok (s.ownBytes i s.serial key n, key, kind), s) := by
  obtain ⟨e, kind, -, hgo⟩ := go_reach h m (h := .core t.core) (.inl rfl) access ordered false
  rw [State.keep_core] at hgo
  refine ⟨kind, ?_⟩
  unfold readPiece
  rw [Act.go_bind_ok h.go_tm, Act.go_bind_ok hgo]
  dsimp only
  rw [Act.go_bind_ok (Act.go_me s), Act.go_bind_ok (Act.go_get s), h.cur, Act.go_bind_ok (go_ownRead_own hm i s.serial key n)]
  rfl

/-- A piece of the table as mem.optab reads it: its bytes, its key, its size. -/
def tablePiece (p : Nat × Nat) : Act (List Byte × Nat × Nat) := do
  let x ← readPiece { r := true } (accRead + accMortar) (BitVec.ofNat 64 p.1) p.2 true
  return (x.1, x.2.1, p.2)

/-- Without a table its number is unbound. -/
theorem go_memOptab_zero (h : AtIssue s i t) {f : TForm} (hf : f.a = .zero) :
    Act.go (memOptab f) s =
      (.ok (), s.withSpace t.asid fun sp => { sp with bound := SMap.del sp.bound (f.mod.toNat % 8) }) := by
  unfold memOptab
  rw [Act.go_bind_ok h.go_tm]
  simp only [hf, Act.go_modify]

/-- What mem.optab does with the bytes of a table at an address: it goes by their checks. -/
def judgeTable (asid n : Nat) (a : Word) (bytes : List Byte) : Act Unit :=
  match optabFail bytes with
  | some (c, o) => fail .optab c (a + BitVec.ofNat 64 o)
  | none => do
    let v ← fresh
    modify fun (s : State) => s.withSpace asid fun sp =>
      { sp with tables := SMap.put sp.tables v bytes, bound := SMap.put sp.bound n v }

theorem go_judgeTable_passes {asid n : Nat} {a : Word} {bytes : List Byte} (passes : optabFail bytes = none) :
    Act.go (judgeTable asid n a bytes) s =
      (.ok (), ({ s with serial := s.serial + 1 } : State).withSpace asid fun sp =>
        { sp with tables := SMap.put sp.tables s.serial bytes, bound := SMap.put sp.bound n s.serial }) := by
  unfold judgeTable
  rw [passes]
  exact Act.go_bind_ok (Act.go_fresh s)

theorem go_judgeTable_fails (h : AtIssue s i t) {asid n c o : Nat} {a : Word} {bytes : List Byte}
    (fails : optabFail bytes = some (c, o)) :
    Act.go (judgeTable asid n a bytes) s =
      (.error (.trap [{ t.record .optab c with ea := a + BitVec.ofNat 64 o }]), s) := by
  unfold judgeTable
  rw [fails]
  exact h.go_fail ..

section
variable {key : Nat → Nat} (h : AtIssue s i t) (hm : s.mortar = [])
include h hm

theorem go_tablePieces (ps : List (Nat × Nat)) (mapped : ∀ p ∈ ps, Mapped s i t (BitVec.ofNat 64 p.1) { r := true } (key p.1)) :
    Act.go (ps.mapM tablePiece) s = (.ok (ps.map fun p => (s.ownBytes i s.serial (key p.1) p.2, key p.1, p.2)), s) :=
  Act.go_mapM_still ps fun p hp => by
    obtain ⟨kind, hgo⟩ := go_readPiece h hm (mapped p hp) (accRead + accMortar) p.2 true
    exact Act.go_bind_ok hgo

/-- A mapped table is read where no operation of the team's own is on its way. -/
theorem go_memOptab {f : TForm} {k : Fin 64} (hq : (s.mortarIn.any (·.team == i)) = false) (hf : f.a = .s k)
    (hr : Readable t f.a) (aligned : (t.scalar (s.teamsOf t) f.a).toNat % 16 = 0)
    (mapped : ∀ p ∈ pagePieces (t.scalar (s.teamsOf t) f.a).toNat 400,
      Mapped s i t (BitVec.ofNat 64 p.1) { r := true } (key p.1)) :
    Act.go (memOptab f) s =
      Act.go (judgeTable t.asid (f.mod.toNat % 8) (t.scalar (s.teamsOf t) f.a)
        ((pagePieces (t.scalar (s.teamsOf t) f.a).toNat 400).flatMap fun p => s.ownBytes i s.serial (key p.1) p.2)) s := by
  have quiet (ps : List (List Byte × Nat × Nat)) :
      (s.mortarIn.any fun m => m.team == i && ps.any fun p => meets m.key m.size p.2.1 p.2.2) = false :=
    List.any_eq_false.mpr fun m hmem => by simp [List.any_eq_false.mp hq m hmem]
  unfold memOptab
  rw [Act.go_bind_ok h.go_tm]
  simp only [hf] at hr aligned mapped ⊢
  rw [Act.go_bind_ok (go_sread h hr)]
  simp only [aligned, bne_self_eq_false, Bool.false_eq_true, if_false]
  refine (Act.go_bind_ok (go_tablePieces h hm _ mapped)).trans ?_
  rw [Act.go_bind_ok (Act.go_me s), Act.go_bind_ok (Act.go_get s), h.cur, quiet]
  simp only [Bool.false_eq_true, if_false, List.map_map, List.flatMap_def]
  rfl

end

end Sys2Proof.Machine

namespace Sys2Proof.Claims

open Sys2Proof Sys2Proof.Machine Sys2Proof.Claims

/-- Settles O37: a table number is unbound, or its table is read and goes by its checks. -/
theorem operatorTables : Obligations.OperatorTables := by
  intro f s i t key h n
  refine ⟨fun hf => runCore_ok h.1 h.2 (go_memOptab_zero h hf), ?_⟩
  intro k hf hr a ps bytes aligned hm hq mapped
  have reads := go_memOptab h hm hq hf hr aligned mapped
  exact ⟨fun passes => runCore_ok h.1 h.2 (reads.trans (go_judgeTable_passes passes)),
    fun c o fails => runCore_trap h.1 h.2 (reads.trans (go_judgeTable_fails h fails))⟩

end Sys2Proof.Claims
end

section
/-! PROOF. O38 fails where a table stands bound under a version of 2 ^ 64 or more, as it does once that many objects have been
numbered: mem.opx keeps the version that its first lane found for the lanes behind it (R214), and keeps it as a word of 64
bits, which has the low bits alone. -/

namespace Sys2Proof.Machine

open Sys2Proof Sys2Proof.Claims

variable {s : State} {i u : Nat} {t : Team} {o : OpenClause}

/-! ## An instruction with a write unit that retires inside its clause -/

/-- A team one of whose units has had an operation accepted (R186). -/
def Team.acked (t : Team) (u : Nat) : Team :=
  { t with undrained := (t.undrained.map fun x => if x.1 = u then (x.1, x.2 - 1) else x).filter fun x => decide (0 < x.2) }

/-- Where no lane waits to return, an accepted operation changes its team alone (R92, R186). -/
theorem State.ackUnit_of_no_returns (hr : s.returns = []) (i u : Nat) : s.ackUnit i u = s.withTeam i fun t => t.acked u := by
  unfold State.ackUnit State.flushReturns
  simp only [State.withTeam_returns, hr, List.filter_nil, List.foldl_nil]
  exact congrArg (fun rs => ({ s.withTeam i fun t => t.acked u with returns := rs } : State)) hr.symm

theorem State.closeInstr_open (hf : SMap.find s.teams i = some t) (hr : s.returns = []) (hu : t.unitNow = some u) :
    s.closeInstr i = s.withTeam i fun _ => t.closed.acked u := by
  unfold State.closeInstr
  rw [State.team_of_find hf, hu]
  dsimp only
  rw [State.ackUnit_of_no_returns (s := s.withTeam i Team.closed) hr, State.withTeam_withTeam]
  exact State.withTeam_congr hf rfl

theorem State.retire_open (hf : SMap.find s.teams i = some t) (hr : s.returns = []) (hu : t.unitNow = some u)
    (hc : t.clause = some o) (hl : o.idx + 1 < o.words.length) :
    s.retire i = (s.withTeam i fun _ => { t.closed.acked u with clause := some { o with idx := o.idx + 1 } }).endIfSpent i := by
  have hc' : (t.closed.acked u).clause = some o := hc
  simp only [State.retire, State.closeInstr_open hf hr hu, State.team_withTeam _ hf, hc', hl, if_true, State.withTeam_again]

/-- Whether a team is spent lies with the lanes that it has, those that have exited and those on its stack. -/
theorem Team.spent_congr {w : Team} (lanes : w.lanes = t.lanes) (exited : w.exited = t.exited) (stack : w.stack = t.stack) :
    w.spent = t.spent := by
  simp only [Team.spent, Team.stacked, lanes, exited, stack]

/-- What is on its way to the Mortar queues stays so. -/
theorem State.retire_mortarIn (hf : SMap.find s.teams i = some t) (hr : s.returns = []) (hu : t.unitNow = some u)
    (hc : t.clause = some o) (hl : o.idx + 1 < o.words.length) (live : t.spent = false) :
    (s.retire i).mortarIn = s.mortarIn := by
  have alive : ({ t.closed.acked u with clause := some { o with idx := o.idx + 1 } } : Team).spent = false :=
    (Team.spent_congr (t := t) rfl rfl rfl).trans live
  rw [State.retire_open hf hr hu hc hl, State.endIfSpent_live (State.find_written hf _) alive, State.withTeam_mortarIn]

end Sys2Proof.Machine

namespace Sys2Proof.Claims

open Sys2Proof Sys2Proof.Machine Sys2Proof.Claims

/-! ## The counterexample -/

/-- A team of two lanes at the first of two words of a memory clause. -/
def twoLanes : Team := { lanes := 2, exm := 3, clause := some { header := 0x1000, eng := 3, words := [0, 0] } }

/-- A table of one slot, a STORE of a 32-bit integer (R53, R210). -/
def storeTable : List Byte := [1, 1] ++ zeros 14 ++ [1] ++ zeros 383

/-- A state with the team at issue and address 0 mapped, in which the table has been bound as the object of number 2 ^ 64. -/
def boundLate : State :=
  { State.reset with
    cur := some 0, serial := 2 ^ 64 + 1, teams := [(0, twoLanes)]
    cores := [(0, { tlb := [⟨0, 0, 4096, 0, 0, true, true, true, 0, 1⟩] })]
    spaces := [(0, { tables := [(2 ^ 64, storeTable)], bound := [(0, 2 ^ 64)] })] }

/-- mem.opx whose address, operand and selector are 0 in every active lane. -/
def opxZero : TForm := ⟨.i8, 0, 0, .zero, .zero, .zero, .zero, 0⟩

/-- The operations that the statement has its two lanes send. -/
def lateOps : List MortarOp := (twoLanes.lanesOf opxZero.km.val).map (laneOp opxZero boundLate 0 twoLanes fun _ => 0)

theorem mapped_boundLate : Mapped boundLate 0 twoLanes 0 { w := true, use := 6 } 0 :=
  ⟨by decide +kernel, by decide +kernel, rfl, 0, by decide +kernel, by decide +kernel⟩

theorem slotGood_boundLate : ∀ l ∈ twoLanes.lanesOf opxZero.km.val, SlotGood opxZero boundLate 0 twoLanes (fun _ => 0) l := by
  have store : (laneOp opxZero boundLate 0 twoLanes (fun _ => 0) 0).kind = 1 := by decide +kernel
  have first : SlotGood opxZero boundLate 0 twoLanes (fun _ => 0) 0 := by
    refine ⟨by decide +kernel, by decide +kernel, by decide +kernel, fun _ => ⟨rfl, rfl⟩, fun _ => rfl, by decide +kernel, ?_⟩
    rw [store]
    exact mapped_boundLate
  exact fun _ _ => first

theorem twoLanes_live : twoLanes.spent = false := by decide +kernel

/-- How many Mortar operations are on their way after an instruction. -/
def sentAfter : Host.Outcome State Fault Refusal → Nat
  | .next s => s.mortarIn.length
  | _ => 0

theorem sentAfter_retire {s : State} {i u : Nat} {t : Team} {o : OpenClause} (hf : SMap.find s.teams i = some t)
    (hr : s.returns = []) (hu : t.unitNow = some u) (hc : t.clause = some o) (hl : o.idx + 1 < o.words.length)
    (live : t.spent = false) : sentAfter (.next (s.retire i)) = s.mortarIn.length :=
  congrArg List.length (State.retire_mortarIn hf hr hu hc hl live)

/-- Lane 0 sends its operation, and lane 1 finds version 0, which stands for no binding: it traps. -/
theorem sentAfter_boundLate : sentAfter (exec (.memOpx opxZero) boundLate) = 1 := by decide +kernel

/-- Refutes O38: mem.opx of two lanes that name one table, bound under version 2 ^ 64. The second lane sends nothing; the
statement has both send. -/
theorem not_mortarRequests : ¬ Obligations.MortarRequests := by
  unfold Obligations.MortarRequests
  intro h
  obtain ⟨sent, -⟩ := h opxZero boundLate 0 twoLanes (fun _ => 0) ⟨rfl, rfl⟩ ⟨rfl, rfl, rfl, rfl, rfl⟩ (fun u hu => by cases hu)
    (fun o ho => by cases ho) (fun l _ => rfl) slotGood_boundLate
  have active : lateOps ≠ [] := by decide +kernel
  unfold lateOps at active
  rw [if_neg active] at sent
  obtain ⟨lanes, front, completes⟩ := sent (by decide +kernel)
  have both := congrArg sentAfter completes
  rw [sentAfter_boundLate] at both
  have kept : 1 = (boundLate.mortarIn ++ lateOps).length := both.trans (sentAfter_retire (o := ⟨0x1000, 3, false, [0, 0], 0⟩)
    (State.find_withTeam _ (State.find_written (s := boundLate) (i := 0) (t := twoLanes) rfl _)) rfl rfl rfl (by decide)
    ((Team.spent_congr (t := twoLanes) rfl rfl rfl).trans twoLanes_live))
  exact absurd kept (by decide +kernel)

end Sys2Proof.Claims
end

section
/-! PROOF. The Mortar algebra of the integer types (O39): every function is associative on the words of a type and has the
identity that CANCEL looks for (R210 to R212, R215). -/

namespace Sys2Proof.Machine

open Sys2Proof Sys2Proof.Claims

/-! ## The functions -/

/-- A word of a slot as its integer type reads it: types 0 and 2 are signed (R210). -/
def slotInt (ty v : Nat) : Int := if ty = 0 || ty = 2 then (BitVec.ofNat (8 * slotSize ty) v).toInt else v

section
variable {ty : Nat} (int : ty < 4) (w x : Nat)
include int

theorem mortarFn_add : mortarFn ty 0 w x = (w + x) % 2 ^ (8 * slotSize ty) := by
  have h4 : ty ≠ 4 := by omega
  have h5 : ty ≠ 5 := by omega
  have h6 : ty ≠ 6 := by omega
  simp [mortarFn, h4, h5, h6]

theorem mortarFn_max : mortarFn ty 1 w x = if slotInt ty w < slotInt ty x then x else w := by
  have h4 : ty ≠ 4 := by omega
  have h5 : ty ≠ 5 := by omega
  simp only [mortarFn, h4, h5, decide_false, Bool.or_self, Bool.false_eq_true, if_false]
  rfl

theorem mortarFn_min : mortarFn ty 2 w x = if slotInt ty x < slotInt ty w then x else w := by
  have h4 : ty ≠ 4 := by omega
  have h5 : ty ≠ 5 := by omega
  simp only [mortarFn, h4, h5, decide_false, Bool.or_self, Bool.false_eq_true, if_false]
  rfl

end

theorem mortarFn_and (ty w x : Nat) : mortarFn ty 3 w x = w &&& x := rfl
theorem mortarFn_or (ty w x : Nat) : mortarFn ty 4 w x = w ||| x := rfl
theorem mortarFn_xor (ty w x : Nat) : mortarFn ty 5 w x = w ^^^ x := rfl

/-- The six functions of an integer type, one by one. -/
theorem fn_cases {P : Nat → Prop} (add : P 0) (max : P 1) (min : P 2) (and : P 3) (or : P 4) (xor : P 5) {fn : Nat} (h : fn ≤ 5) :
    P fn := by
  match fn, h with
  | 0, _ => exact add
  | 1, _ => exact max
  | 2, _ => exact min
  | 3, _ => exact and
  | 4, _ => exact or
  | 5, _ => exact xor

/-- A word stays one of its type. -/
theorem mortarFn_lt {ty fn w x : Nat} (int : ty < 4) (hfn : fn ≤ 5) (hw : w < 2 ^ (8 * slotSize ty)) (hx : x < 2 ^ (8 * slotSize ty)) :
    mortarFn ty fn w x < 2 ^ (8 * slotSize ty) := by
  refine fn_cases (P := fun fn => mortarFn ty fn w x < 2 ^ (8 * slotSize ty)) ?add ?max ?min ?and ?or ?xor hfn
  case add => rw [mortarFn_add int]; exact Nat.mod_lt _ (by positivity)
  case max => rw [mortarFn_max int]; split <;> assumption
  case min => rw [mortarFn_min int]; split <;> assumption
  case and => exact Nat.and_lt_two_pow _ hx
  case or => exact Nat.or_lt_two_pow hw hx
  case xor => exact Nat.xor_lt_two_pow hw hx

/-- The greatest of three by a measure, the first where several are, however they are paired. -/
theorem greatest_assoc (g : Nat → Int) (w x y : Nat) :
    (if g (if g w < g x then x else w) < g y then y else if g w < g x then x else w) =
      if g w < g (if g x < g y then y else x) then (if g x < g y then y else x) else w := by
  by_cases wx : g w < g x <;> by_cases xy : g x < g y
  · have wy : g w < g y := wx.trans xy
    simp [wx, xy, wy]
  · simp [wx, xy]
  · simp [wx, xy]
  · have wy : ¬ g w < g y := fun h => by omega
    simp [wx, xy, wy]

/-- Every function of an integer type is associative. -/
theorem mortarFn_assoc {ty fn : Nat} (int : ty < 4) (hfn : fn ≤ 5) (w x y : Nat) :
    mortarFn ty fn (mortarFn ty fn w x) y = mortarFn ty fn w (mortarFn ty fn x y) := by
  refine fn_cases (P := fun fn => mortarFn ty fn (mortarFn ty fn w x) y = mortarFn ty fn w (mortarFn ty fn x y))
    ?add ?max ?min ?and ?or ?xor hfn
  case add => simp only [mortarFn_add int, Nat.mod_add_mod, Nat.add_mod_mod, Nat.add_assoc]
  case max => simpa only [mortarFn_max int] using greatest_assoc (slotInt ty) w x y
  case min => simpa only [mortarFn_min int, neg_lt_neg_iff] using greatest_assoc (fun v => -slotInt ty v) w x y
  case and => exact Nat.and_assoc w x y
  case or => exact Nat.or_assoc w x y
  case xor => exact Nat.xor_assoc w x y

/-! ## The identities -/

/-- The least word of an integer type, as the type reads it. -/
def leastWord (ty : Nat) : Nat := if ty = 0 || ty = 2 then 2 ^ (8 * slotSize ty - 1) else 0

/-- The greatest. -/
def greatestWord (ty : Nat) : Nat := if ty = 0 || ty = 2 then 2 ^ (8 * slotSize ty - 1) - 1 else 2 ^ (8 * slotSize ty) - 1

theorem slotInt_signed {ty : Nat} (h : ty = 0 ∨ ty = 2) (v : Nat) : slotInt ty v = (BitVec.ofNat (8 * slotSize ty) v).toInt := by
  simp [slotInt, h]

theorem slotInt_unsigned {ty : Nat} (h : ¬ (ty = 0 ∨ ty = 2)) (v : Nat) : slotInt ty v = v := by
  simp [slotInt, h]

theorem leastWord_le {ty : Nat} (w : Nat) : slotInt ty (leastWord ty) ≤ slotInt ty w := by
  by_cases signed : ty = 0 ∨ ty = 2
  · have least : (BitVec.ofNat (8 * slotSize ty) (leastWord ty)).toInt = -2 ^ (8 * slotSize ty - 1) := by
      rcases signed with rfl | rfl <;> decide
    rw [slotInt_signed signed, slotInt_signed signed, least]
    exact BitVec.le_toInt _
  · have least : leastWord ty = 0 := by simp [leastWord, signed]
    rw [slotInt_unsigned signed, slotInt_unsigned signed, least]
    exact Int.natCast_nonneg w

theorem le_greatestWord {ty w : Nat} (hw : w < 2 ^ (8 * slotSize ty)) : slotInt ty w ≤ slotInt ty (greatestWord ty) := by
  by_cases signed : ty = 0 ∨ ty = 2
  · have greatest : (BitVec.ofNat (8 * slotSize ty) (greatestWord ty)).toInt = 2 ^ (8 * slotSize ty - 1) - 1 := by
      rcases signed with rfl | rfl <;> decide
    rw [slotInt_signed signed, slotInt_signed signed, greatest]
    exact Int.le_sub_one_of_lt (BitVec.toInt_lt)
  · have greatest : greatestWord ty = 2 ^ (8 * slotSize ty) - 1 := by simp [greatestWord, signed]
    rw [slotInt_unsigned signed, slotInt_unsigned signed, greatest]
    exact Int.ofNat_le.mpr (Nat.le_sub_one_of_lt hw)

/-- The word that a function of an integer type leaves every other as it is for (R210). -/
def identityWord (ty fn : Nat) : Nat :=
  match fn with
  | 0 | 4 | 5 => 0
  | 3 => 2 ^ (8 * slotSize ty) - 1
  | 1 => leastWord ty
  | _ => greatestWord ty

theorem mortarFn_identityWord {ty fn w : Nat} (int : ty < 4) (hfn : fn ≤ 5) (hw : w < 2 ^ (8 * slotSize ty)) :
    mortarFn ty fn w (identityWord ty fn) = w := by
  refine fn_cases (P := fun fn => mortarFn ty fn w (identityWord ty fn) = w) ?add ?max ?min ?and ?or ?xor hfn
  case add => rw [mortarFn_add int]; exact Nat.mod_eq_of_lt hw
  case max => rw [mortarFn_max int]; exact if_neg (Int.not_lt.mpr (leastWord_le w))
  case min => rw [mortarFn_min int]; exact if_neg (Int.not_lt.mpr (le_greatestWord hw))
  case and => exact (Nat.and_two_pow_sub_one_eq_mod w _).trans (Nat.mod_eq_of_lt hw)
  case or => exact Nat.or_zero w
  case xor => exact Nat.xor_zero w

/-! ## Entries -/

variable {m : MortarOp}

/-- The operand of an entry as its word takes it. -/
def MortarOp.operand (m : MortarOp) : Nat := m.value.toNat % 2 ^ (8 * m.size)

theorem MortarOp.operand_lt (m : MortarOp) : m.operand < 2 ^ (8 * m.size) := Nat.mod_lt _ (by positivity)

theorem MortarOp.apply_store (kind : m.kind = 1) (int : m.ty < 4) (w : Nat) : m.apply w = m.operand := by
  have h6 : m.ty ≠ 6 := by omega
  simp [MortarOp.apply, kind, h6, MortarOp.operand]

theorem MortarOp.apply_combine (kind : m.kind = 2) (int : m.ty < 4) (w : Nat) : m.apply w = mortarFn m.ty m.fn w m.operand := by
  have h6 : m.ty ≠ 6 := by omega
  simp [MortarOp.apply, kind, h6, MortarOp.operand]

theorem MortarOp.operand_of_isIdentity (int : m.ty < 4) (size : m.size = slotSize m.ty) (neutral : m.isIdentity = true) :
    m.operand = identityWord m.ty m.fn := by
  have h6 : m.ty ≠ 6 := by omega
  have either (p : Bool) (v a b : Nat) (h : (if p then v == a else v == b) = true) : v = if p then a else b := by
    cases p <;> exact eq_of_beq h
  unfold MortarOp.isIdentity at neutral
  simp only [h6, if_false, size] at neutral
  rw [MortarOp.operand, size]
  generalize m.fn = fn at neutral ⊢
  match fn with
  | 0 | 3 | 4 | 5 => exact eq_of_beq neutral
  | 1 => exact either _ _ _ _ neutral
  | 2 | _ + 6 => exact either _ _ _ _ neutral

/-- Two entries composed, where the result slot is of the earlier one's kind. -/
theorem State.compose_eq (s : State) (e b : MortarOp) (slot : Nat) (int : e.ty < 4) :
    let d := slotOf (SMap.val (s.space b.asid).tables [] b.version) slot
    let c := s.compose e b slot
    c.kind = d.1 ∧ c.ty = e.ty ∧ c.size = e.size ∧ c.fn = d.2.2.1 ∧
      c.value = BitVec.ofNat 64 (mortarFn e.ty b.fn e.operand (b.value.toNat % 2 ^ (8 * e.size))) := by
  have h6 : e.ty ≠ 6 := by omega
  simp only [State.compose, h6, if_false, and_self, MortarOp.operand]

/-- A composed entry's operand is the later function of the two. -/
theorem State.compose_operand (s : State) {e b : MortarOp} (slot : Nat) (int : e.ty < 4) (size : e.size = slotSize e.ty)
    (same : b.size = e.size) (hfn : b.fn ≤ 5) : (s.compose e b slot).operand = mortarFn e.ty b.fn e.operand b.operand := by
  obtain ⟨-, -, csize, -, value⟩ := s.compose_eq e b slot int
  have fits : mortarFn e.ty b.fn e.operand b.operand < 2 ^ (8 * e.size) := by
    have he := e.operand_lt
    have hb := b.operand_lt
    rw [same, size] at hb
    rw [size] at he ⊢
    exact mortarFn_lt int hfn he hb
  have word : 2 ^ (8 * e.size) ≤ 2 ^ 64 := by
    refine Nat.pow_le_pow_right (by decide) ?_
    rw [size]
    unfold slotSize
    split <;> decide
  rw [MortarOp.operand, value, csize, BitVec.toNat_ofNat, ← same, ← MortarOp.operand, same,
    Nat.mod_eq_of_lt (fits.trans_le word), Nat.mod_eq_of_lt fits]

end Sys2Proof.Machine

namespace Sys2Proof.Claims

open Sys2Proof Sys2Proof.Machine Sys2Proof.Claims

/-- Settles O39: a composed entry gives the later function of what the earlier one gives, and an identity changes nothing. -/
theorem mortarComposition : Obligations.MortarComposition := by
  intro s e b slot w int sameTy size same kind combine sameFn _ hfn hw d dkind dfn
  obtain ⟨ckind, cty, -, cfn, -⟩ := s.compose_eq e b slot int
  have operand := s.compose_operand slot int size same hfn
  have bint : b.ty < 4 := sameTy ▸ int
  refine ⟨?_, fun neutral => ?_⟩
  · rw [b.apply_combine combine bint, sameTy]
    rcases kind with store | kind
    · rw [MortarOp.apply_store (ckind.trans (dkind.trans store)) (cty ▸ int), MortarOp.apply_store store int, operand]
    · rw [MortarOp.apply_combine (ckind.trans (dkind.trans kind)) (cty ▸ int), MortarOp.apply_combine kind int, operand, cty,
        cfn, dfn kind, ← sameFn kind, mortarFn_assoc int hfn]
  · have bsize : b.size = slotSize b.ty := by rw [same, size, sameTy]
    rw [b.apply_combine combine bint, b.operand_of_isIdentity bint bsize neutral]
    exact mortarFn_identityWord bint hfn (by rwa [← bsize, same])

end Sys2Proof.Claims
end

section
/-! PROOF. The Mortar queues (O40): an operation that finds nothing pending, and the drain of the oldest entry (R215 to R217). -/

namespace Sys2Proof.Machine

open Sys2Proof Sys2Proof.Claims

variable {s : State} {m : MortarOp}

/-! ## Arrival -/

/-- An operation that finds nothing pending must be placed. -/
theorem State.reduce_none (none : entriesOf s.mortar m = []) (fuel : Nat) :
    s.reduce (fuel + 1) s.mortar m = (s.mortar, .place) := by
  simp only [State.reduce, none]

/-- An operation other than a LOAD stands behind all that is pending. -/
theorem State.arrive_placed (none : entriesOf s.mortar m = []) (kind : m.kind ≠ 0) (room : s.queueFull m.key = false) :
    s.arrive m = ({ s with mortar := s.mortar ++ [m] }.ackOp m.team m.op).ackUnit m.team m.unit := by
  have same : s.makeRoom m.key = s := by simp [State.makeRoom, room]
  simp only [State.arrive, State.reduce_none none, kind, same, beq_iff_eq, Bool.and_eq_true, false_and, if_false]

/-- A LOAD is answered from memory. -/
theorem State.arrive_answered (none : entriesOf s.mortar m = []) (kind : m.kind = 0) :
    s.arrive m = (s.answer m (leNat (readBytes s.mem m.key m.size)) (s.poisonAt m.key)).ackUnit m.team m.unit := by
  simp only [State.arrive, State.reduce_none none, kind, none, beq_self_eq_true, List.isEmpty_nil, Bool.and_self, if_true]

/-- An operation that no earlier one of its team keeps back arrives. -/
theorem mortarArrives_eq {index : Nat} (at_ : s.mortarIn[index]? = some m) (first : s.behindOwn index m = false) :
    mortarArrives index s = State.arrive { s with mortarIn := s.mortarIn.eraseIdx index } m := by
  simp only [mortarArrives, at_, first, Bool.false_eq_true, if_false]

/-! ## Drain -/

/-- Where every LOAD stands behind an entry that meets it none completes. -/
theorem State.completeLoads_of_wait (wait : LoadsWait s.mortar) (fuel : Nat) : s.completeLoads fuel = s := by
  cases fuel with
  | zero => rfl
  | succ fuel =>
    have none : ((List.range s.mortar.length).zip s.mortar).find? (fun p =>
        p.2.kind == 0 && !((s.mortar.take p.1).any fun e => meets e.key e.size p.2.key p.2.size)) = Option.none := by
      refine List.find?_eq_none.mpr fun p hp => ?_
      obtain ⟨j, hj⟩ := List.getElem?_of_mem hp
      obtain ⟨hr, hq⟩ := List.getElem?_zip_eq_some.mp hj
      have place : p.1 = j := by
        obtain ⟨hj, e⟩ := List.getElem?_eq_some_iff.mp hr
        rw [← e, List.getElem_range]
      by_cases kind : p.2.kind = 0
      · simp [place, wait _ _ hq kind]
      · simp [kind]
    simp only [State.completeLoads, none]

/-- An entry other than a LOAD is written to its word, and beside memory metadata and covers alone change. -/
theorem State.applyEntry_eq (kind : m.kind ≠ 0) :
    ∃ md cv, s.applyEntry m =
      ({ s with mem := writeBytes s.mem m.key (leBytes m.size (m.apply (leNat (readBytes s.mem m.key m.size)))) } : State).marked
        md cv := by
  simp only [State.applyEntry, kind, if_false]
  exact State.tag_marked _ _ _ _

/-- The oldest entry of all is the one that its word drains. -/
theorem mortarDrains_first {rest : List MortarOp} (hm : s.mortar = m :: rest) (single : m.gathers = false) (size : 0 < m.size) :
    mortarDrains m.key m.size s = s.drainEntry 0 m := by
  have itself : meets m.key m.size m.key m.size = true := by simp [meets, size]
  have first : s.mortar.findIdx (fun e => meets e.key e.size m.key m.size) = 0 := by
    rw [hm, List.findIdx_cons, itself]
    rfl
  have found : s.mortar[0]? = some m := by rw [hm]; rfl
  simp only [mortarDrains, first, found, single, Bool.false_and, Bool.false_eq_true, if_false, decide_true, Bool.and_self, if_true]

@[simp] theorem length_leBytes (n v : Nat) : (leBytes n v).length = n := by
  induction n generalizing v with
  | zero => rfl
  | succ n ih => simp [leBytes, ih]

/-- The drain of the oldest entry writes its word, and beside memory metadata and covers alone change. -/
theorem mortarDrains_eq {rest : List MortarOp} (hm : s.mortar = m :: rest) (kind : m.kind ≠ 0) (single : m.gathers = false)
    (size : 0 < m.size) (wait : LoadsWait rest) :
    ∃ md cv, mortarDrains m.key m.size s =
      ({ s with
          mortar := rest
          mem := writeBytes s.mem m.key (leBytes m.size (m.apply (leNat (readBytes s.mem m.key m.size)))) } : State).marked md cv := by
  obtain ⟨md, cv, e⟩ := State.applyEntry_eq (s := { s with mortar := rest }) kind
  refine ⟨md, cv, ?_⟩
  have left : s.mortar.eraseIdx 0 = rest := by rw [hm]; rfl
  rw [mortarDrains_first hm single size, State.drainEntry, left, e]
  exact State.completeLoads_of_wait wait _

end Sys2Proof.Machine

namespace Sys2Proof.Claims

open Sys2Proof Sys2Proof.Machine Sys2Proof.Claims

/-- Settles O40: what arrives is placed or answered, and what drains is a write of its word. -/
theorem mortarQueues : Obligations.MortarQueues := by
  intro s m
  refine ⟨?_, fun rest hm kind single size _ wait => ?_⟩
  · intro index rest at_ first left none s1
    subst left
    have arrives : exec (.mortarArrival index) s = .next (s1.arrive m) := congrArg Host.Outcome.next (mortarArrives_eq at_ first)
    exact ⟨fun kind room => arrives.trans (congrArg Host.Outcome.next (State.arrive_placed (s := s1) none kind room)),
      fun kind => arrives.trans (congrArg Host.Outcome.next (State.arrive_answered (s := s1) none kind))⟩
  · obtain ⟨md, cv, e⟩ := mortarDrains_eq hm kind single size wait
    refine ⟨_, congrArg Host.Outcome.next e, rfl, rfl, rfl, fun x => ?_⟩
    refine (readByte_writeBytes _ s.mem m.key x).trans ?_
    rw [length_leBytes]

end Sys2Proof.Claims
end

section
/-! PROOF. What no answer of the slices changes of a team: its time and the pairs that it holds. Adding a count may move a floor,
whose write drains Mortar entries and answers LOADs, and leaves both (R215, R253, R338). -/

namespace Sys2Proof.Machine

open Sys2Proof Sys2Proof.Claims

variable {s : State} {i : Nat} {t : Team}

/-- NOW and the holds of a team. -/
def Team.timing (t : Team) : Stamp × List Hold := (t.now, t.holds)

@[simp] theorem Team.timing_setV (t : Team) (l r : Nat) (x : LaneWord) : (t.setV l r x).timing = t.timing := rfl
@[simp] theorem Team.timing_setS (t : Team) (r : Nat) (x : Word) : (t.setS r x).timing = t.timing := rfl
@[simp] theorem Team.timing_bumpA (t : Team) (n : Nat) : (t.bumpA n).timing = t.timing := rfl

@[simp] theorem Team.timing_land (t : Team) (r : Result) : (t.land r).timing = t.timing := by
  unfold Team.land
  split <;> dsimp only <;> split <;> rfl

/-- A team is there at the time, and with the holds, of another. -/
def State.TimedAs (s : State) (i : Nat) (t : Team) : Prop := ∃ u, SMap.find s.teams i = some u ∧ u.timing = t.timing

theorem AtIssue.timedAs (h : AtIssue s i t) : s.TimedAs i t := ⟨t, h.2, rfl⟩

theorem State.TimedAs.of_teams {s' : State} (h : s.TimedAs i t) (e : s'.teams = s.teams) : s'.TimedAs i t := by
  unfold State.TimedAs
  rw [e]
  exact h

theorem State.TimedAs.withTeam (h : s.TimedAs i t) (j : Nat) {f : Team → Team} (hf : ∀ u, (f u).timing = u.timing) :
    (s.withTeam j f).TimedAs i t := by
  obtain ⟨u, hu, e⟩ := h
  by_cases ij : i = j
  · subst ij
    exact ⟨f u, State.find_withTeam f hu, (hf u).trans e⟩
  · exact ⟨u, by rw [State.withTeam_teams, SMap.find_alter_other _ _ ij, hu], e⟩

theorem State.TimedAs.foldl {α : Type} {f : State → α → State} (hf : ∀ (s : State) a, s.TimedAs i t → (f s a).TimedAs i t)
    (l : List α) {s : State} (h : s.TimedAs i t) : (l.foldl f s).TimedAs i t := by
  induction l generalizing s with
  | nil => exact h
  | cons a l ih => exact ih (hf s a h)

theorem State.TimedAs.ackOp (h : s.TimedAs i t) (j op : Nat) : (s.ackOp j op).TimedAs i t := by
  refine h.withTeam j fun u => ?_
  dsimp only
  split
  · rfl
  · split
    · split <;> rfl
    · rfl

theorem State.TimedAs.answer (h : s.TimedAs i t) (m : MortarOp) (v poison : Nat) : (s.answer m v poison).TimedAs i t := by
  unfold State.answer
  dsimp only
  split
  · refine (h.withTeam m.team fun u => ?_).ackOp _ _
    split
    · rfl
    · split <;> simp
  · exact h.ackOp _ _

theorem State.TimedAs.tag (h : s.TimedAs i t) (key n asid : Nat) : (s.tag key n asid).TimedAs i t := by
  obtain ⟨md, cv, e⟩ := s.tag_marked key n asid
  exact h.of_teams (by rw [e]; rfl)

theorem State.TimedAs.applyEntry (h : s.TimedAs i t) (m : MortarOp) : (s.applyEntry m).TimedAs i t := by
  unfold State.applyEntry
  split
  · exact h.answer m _ _
  · refine State.TimedAs.tag ?_ _ _ _
    exact h.of_teams rfl

theorem State.TimedAs.drainOver (h : s.TimedAs i t) (key n : Nat) : (s.drainOver key n).TimedAs i t := by
  unfold State.drainOver
  dsimp only
  split
  · exact State.TimedAs.foldl (fun _ m hs => hs.applyEntry m) _ (h.of_teams rfl)
  · exact h

theorem State.TimedAs.store (h : s.TimedAs i t) (key : Nat) (bs : List Byte) (asid group : Nat) :
    (s.store key bs asid group).TimedAs i t := by
  obtain ⟨md, cv, e⟩ := (s.storeKept key bs asid).cover_marked group key bs.length
  refine State.TimedAs.of_teams (s := s.storeKept key bs asid) ?_ (by rw [State.store, e]; rfl)
  unfold State.storeKept
  refine State.TimedAs.tag ?_ _ _ _
  exact (h.drainOver key bs.length).of_teams rfl

theorem State.TimedAs.settleFloor (h : s.TimedAs i t) (asid tl : Nat) : (s.settleFloor asid tl).TimedAs i t := by
  unfold State.settleFloor
  dsimp only
  split
  · exact h
  · split
    · exact h.of_teams rfl
    · refine State.TimedAs.store ?_ _ _ _ _
      exact h.of_teams rfl

/-- A team keeps its time and its holds while a count is added. -/
theorem State.TimedAs.addCount {s' : State} (h : s.TimedAs i t) {core : Option Nat} {asid tl loc : Nat} {st : Stamp} {n : Nat}
    (counted : s.addCount core asid tl loc st n = some s') : s'.TimedAs i t := by
  unfold State.addCount State.takeEntry at counted
  dsimp only at counted
  split at counted
  · cases counted
  · rename_i s1 taken
    have h1 : s1.TimedAs i t := by
      split at taken
      · cases taken
        exact h
      · split at taken
        · cases taken
          exact h.of_teams rfl
        · cases taken
    cases counted
    refine State.TimedAs.settleFloor ?_ _ _
    exact h1.of_teams rfl

/-- So it does while one is added for each of a list. -/
theorem State.TimedAs.addCounts {α : Type} {add : α → State → Option State}
    (hadd : ∀ a (s s' : State), s.TimedAs i t → add a s = some s' → s'.TimedAs i t) (l : List α) {s s' : State}
    (h : s.TimedAs i t) (counted : l.foldl (fun o a => o.bind (add a)) (some s) = some s') : s'.TimedAs i t := by
  induction l generalizing s with
  | nil =>
    cases counted
    exact h
  | cons a l ih =>
    rw [List.foldl_cons, Option.bind_some] at counted
    cases ha : add a s with
    | some s1 =>
      rw [ha] at counted
      exact ih (hadd a s s1 h ha) counted
    | none =>
      have stays : l.foldl (fun o a => o.bind (add a)) none = none := by
        clear counted ih
        induction l with
        | nil => rfl
        | cons b l ih => exact ih
      rw [ha, stays] at counted
      cases counted

end Sys2Proof.Machine
end

section
/-! PROOF. The lt instructions: their operands, the moves of NOW with the holds at it, the holds taken and dropped, and what is heard of
a frontier (R250, R258, R262 to R264). -/

namespace Sys2Proof.Machine

open Sys2Proof Sys2Proof.Claims

variable {s : State} {i : Nat} {t : Team} {α β : Type}

/-! ## Operands (R250, R263) -/

theorem AtIssue.go_timeuse (h : AtIssue s i t) (d : Nat) :
    Act.go (timeuse (α := α) d) s = (.error (.trap [t.record .timeuse d]), s) := h.go_fail_zero .timeuse d

theorem AtIssue.go_timeuse_bind (h : AtIssue s i t) (d : Nat) (k : α → Act β) :
    Act.go (timeuse d >>= k) s = (.error (.trap [t.record .timeuse d]), s) := by
  rw [Act.go_bind, h.go_timeuse]

theorem AtIssue.go_locArg (h : AtIssue s i t) {r : Reg} (hr : Readable t r) :
    Act.go (locArg r) s = (.ok (t.scalar (s.teamsOf t) r).toNat, s) := by
  unfold locArg
  rw [Act.go_bind_ok (go_sread h hr)]
  rfl

/-- Registers in a row without POISON may be used. -/
theorem AtIssue.go_usePoisons (h : AtIssue s i t) {r : Reg} {n : Nat} (hr : ReadableFrom t r n) :
    Act.go (usePoisons r n) s = (.ok (), s) := by
  cases r with
  | s b =>
    have each : ∃ s', Act.go (usePoisons (.s b) n) s = (.ok (), s') ∧ s' = s := by
      refine Act.go_forM_along (P := fun _ s' => s' = s) (List.range n) [] (fun _ k hk s' same => ⟨s, ?_, rfl⟩) rfl
      rw [same, Act.go_bind_ok h.go_tm, if_pos (hr k (List.mem_range.mp hk))]
      rfl
    obtain ⟨_, hgo, rfl⟩ := each
    exact hgo
  | _ => rfl

/-- A time operand is the stamp that it names. -/
theorem AtIssue.go_timeArg (h : AtIssue s i t) {r : Reg} (hr : ReadableFrom t r 2) (mod : BitVec 6) :
    Act.go (timeArg r mod) s = (.ok (timeOf t r mod), s) := by
  have used := h.go_usePoisons hr
  unfold timeArg
  rw [Act.go_bind_ok h.go_tm]
  cases r with
  | zero => rfl
  | q n => exact hr.elim
  | s n =>
    dsimp only
    rw [Act.go_bind_ok used, Act.go_bind_ok (m := sreadAt (.s n) 0) (Act.go_bind_ok h.go_tm),
      Act.go_bind_ok (m := sreadAt (.s n) 1) (Act.go_bind_ok h.go_tm)]
    rfl
  | _ => rfl

/-- Two operands, read without a pop or POISON, name a pair that an instruction may name. -/
structure NamesPair (s : State) (t : Team) (r p : Reg) (mod : BitVec 6) (loc : Nat) (st : Stamp) : Prop where
  readable : Readable t r
  readableFrom : ReadableFrom t p 2
  good : PairGood t loc st
  location : (t.scalar (s.teamsOf t) r).toNat = loc
  time : timeOf t p mod = st

/-- The instruction goes on with the pair. -/
theorem AtIssue.go_pair (h : AtIssue s i t) {r p : Reg} {mod : BitVec 6} {loc : Nat} {st : Stamp} (n : NamesPair s t r p mod loc st)
    (k : Nat → Stamp → Act α) :
    Act.go (do let loc ← locArg r; let st ← timeArg p mod; pairCheck loc st; k loc st) s = Act.go (k loc st) s := by
  obtain ⟨hr, hp, ⟨inside, deep⟩, rfl, rfl⟩ := n
  have passes : Act.go (pairCheck (t.scalar (s.teamsOf t) r).toNat (timeOf t p mod)) s = (.ok (), s) := by
    unfold pairCheck
    rw [Act.go_bind_ok h.go_tm, if_neg (by simp; omega)]
    rfl
  rw [Act.go_bind_ok (h.go_locArg hr), Act.go_bind_ok (h.go_timeArg hp mod), Act.go_bind_ok passes]

/-! ## Results (R250) -/

theorem OnlyTeam.go_swrite {s' : State} {u : Team} (o : OnlyTeam s i u s') (r : Reg) (x : Word) :
    ∃ s'', Act.go (swrite r x) s' = (.ok (), s'') ∧ OnlyTeam s i (u.putScalar r x) s'' := by
  cases r with
  | s n => exact o.go_modTm _
  | a n => exact o.go_modTm _
  | _ => exact ⟨s', rfl, o⟩

theorem OnlyTeam.go_swriteAt {s' : State} {u : Team} (o : OnlyTeam s i u s') (r : Reg) (k : Nat) (x : Word) :
    ∃ s'', Act.go (swriteAt r k x) s' = (.ok (), s'') ∧ OnlyTeam s i (putAt u r k x) s'' := by
  cases r with
  | s n => exact o.go_modTm _
  | _ => exact ⟨s', rfl, o⟩

theorem OnlyTeam.go_writePair {s' : State} {u : Team} (o : OnlyTeam s i u s') (r : Reg) (k : Nat) (st : Stamp) :
    ∃ s'', Act.go (writePair r k st) s' = (.ok (), s'') ∧ OnlyTeam s i (putStamp u r k st) s'' := by
  obtain ⟨s1, lo, o1⟩ := o.go_swriteAt r k (pairOf st).1
  obtain ⟨s2, hi, o2⟩ := o1.go_swriteAt r (k + 1) (pairOf st).2
  exact ⟨s2, (Act.go_bind_ok lo).trans hi, o2⟩

/-- An observation of a frontier (R242). -/
theorem OnlyTeam.go_observe {s' : State} {u : Team} (o : OnlyTeam s i u s') :
    ∃ s'', Act.go observe s' = (.ok (), s'') ∧ OnlyTeam s i { u with acquired := true } s'' := by
  refine ⟨_, ?_, o.write _⟩
  unfold observe
  rw [Act.go_bind_ok (Act.go_me s'), Act.go_modify, o.atIssue.cur, State.acquire,
    ← State.withTeam_const o.atIssue.2 fun u => { u with acquired := true }]

/-- An instruction that traps with TIMEUSE. -/
theorem AtIssue.traps_timeuse (h : AtIssue s i t) {ins : Instr} {act : Act Unit} {d : Nat} (he : exec ins s = runCore act s)
    (ha : Act.go act s = Act.go (timeuse (α := Unit) d) s) : Traps ins s i [t.record .timeuse d] :=
  h.traps he (ha.trans (h.go_timeuse d))

/-- An instruction whose action ends well in a state. -/
theorem AtIssue.completesAs (h : AtIssue s i t) {s' : State} {ins : Instr} {act : Act Unit} (he : exec ins s = runCore act s)
    (ha : Act.go act s = (.ok (), s')) : CompletesAs ins s i s' := he.trans (runCore_ok h.1 h.2 ha)

/-- lt.now writes NOW. -/
theorem ltNow_completes (h : AtIssue s i t) (f : TForm) : Completes (.ltNow f) s i (putStamp t f.d 0 t.now) := by
  obtain ⟨s', hgo, o⟩ := (OnlyTeam.refl h).go_writePair f.d 0 t.now
  exact o.completes h h.2 rfl ((Act.go_bind_ok h.go_tm).trans hgo) rfl rfl

/-! ## Moves (R263) -/

/-- A hold goes along to a new time: it joins the one that its location has there, or stands behind the others. -/
def joinHold (st : Stamp) (acc : List Hold) (h : Hold) : List Hold :=
  match acc.find? fun k => k.loc == h.loc && k.stamp == st with
  | some k =>
    acc.map fun j => if j = k then { k with share := if h.task then h.share else k.share, task := k.task || h.task } else j
  | none => acc ++ [{ h with stamp := st }]

theorem movedHolds_foldl (hs : List Hold) (now st : Stamp) :
    movedHolds hs now st = (hs.filter fun h => h.stamp == now).foldl (joinHold st) (hs.filter fun h => h.stamp != now) := rfl

theorem joinHold_new {st : Stamp} {acc : List Hold} {h : Hold} (free : ∀ k ∈ acc, ¬ (k.loc = h.loc ∧ k.stamp = st)) :
    joinHold st acc h = acc ++ [{ h with stamp := st }] := by
  have none_there : (acc.find? fun k => k.loc == h.loc && k.stamp == st) = none := by
    rw [List.find?_eq_none]
    intro k hk
    simpa using free k hk
  unfold joinHold
  rw [none_there]

/-- Holds of different locations, none of which is held at the new time, go along one by one. -/
theorem foldl_joinHold {st : Stamp} (olds acc : List Hold) (apart : olds.Pairwise fun a b => a.loc ≠ b.loc)
    (free : ∀ h ∈ olds, ∀ k ∈ acc, ¬ (k.loc = h.loc ∧ k.stamp = st)) :
    olds.foldl (joinHold st) acc = acc ++ olds.map fun h => { h with stamp := st } := by
  induction olds generalizing acc with
  | nil => simp
  | cons h olds ih =>
    obtain ⟨first, rest⟩ := List.pairwise_cons.mp apart
    rw [List.foldl_cons, joinHold_new (free h List.mem_cons_self), ih _ rest ?_]
    · simp
    · intro j hj k hk
      rcases List.mem_append.mp hk with hk | hk
      · exact free j (List.mem_cons_of_mem _ hj) k hk
      · rw [List.mem_singleton.mp hk]
        exact fun e => first j hj e.1

/-- The holds of a team that moves freely are those at NOW at the new time, behind the others. -/
theorem movedHolds_eq {st : Stamp} (free : MovesFreely t st) :
    movedHolds t.holds t.now st =
      (t.holds.filter fun h => h.stamp != t.now) ++ (t.holds.filter fun h => h.stamp == t.now).map fun h => { h with stamp := st } := by
  obtain ⟨-, once, other⟩ := free
  rw [movedHolds_foldl]
  refine foldl_joinHold _ _ ?_ fun h _ k hk => ?_
  · have pairs : t.holds.Pairwise fun a b => (a.loc, a.stamp) ≠ (b.loc, b.stamp) := List.pairwise_map.mp once
    refine (pairs.filter _).imp_of_mem fun {a b} ha hb ne same => ne ?_
    have at_now {x : Hold} (hx : x ∈ t.holds.filter fun h => h.stamp == t.now) : x.stamp = t.now := by
      simpa using (List.mem_filter.mp hx).2
    rw [same, at_now ha, at_now hb]
  · exact fun e => (other k (List.mem_filter.mp hk).1).1 e.2

@[simp] theorem State.foldl_releaseHold_teams (l : List Hold) (s : State) :
    (l.foldl (fun s h => s.releaseHold i h) s).teams = s.teams := by
  induction l generalizing s with
  | nil => rfl
  | cons h l ih => rw [List.foldl_cons, ih]; rfl

/-- The counts that a team takes at a new time leave its time and its holds. -/
theorem timedAs_countedAt {s1 : State} (h : AtIssue s i t) {st : Stamp} (counted : countedAt s t st = some s1) : s1.TimedAs i t :=
  State.TimedAs.addCounts (add := fun (h : Hold) (s : State) => s.addCount (some t.core) t.asid t.timeline h.loc st h.share)
    (fun _ _ _ hs ha => hs.addCount ha) _ h.timedAs counted

/-- Each hold of a team that moves freely takes its whole share along. -/
theorem go_moveNow (h : AtIssue s i t) {st : Stamp} {s1 : State} (free : MovesFreely t st) (counted : countedAt s t st = some s1) :
    Act.go (moveNow st) s = (.ok (), movedTo s1 i t st) := by
  obtain ⟨u, hu, timing⟩ := timedAs_countedAt h counted
  obtain ⟨now, holds⟩ := Prod.mk.inj timing
  have other := free.2.2
  have whole (k : Hold) : (t.holds.any fun j => j.loc == k.loc && j.stamp == st) = false := by
    rw [List.any_eq_false]
    intro j hj
    simp [(other j hj).1]
  unfold moveNow
  rw [Act.go_bind_ok h.go_tm, Act.go_bind_ok (Act.go_me s), Act.go_bind_ok (Act.go_get s), h.cur]
  simp only [whole, Bool.false_eq_true, if_false]
  have added : ((t.holds.filter fun h => h.stamp == t.now).foldl (fun o h => o.bind fun s =>
      if h.share = 0 then some s else s.addCount (some t.core) t.asid t.timeline h.loc st h.share) (some s)) = some s1 := by
    rw [← counted]
    refine List.foldl_ext _ _ _ fun o k hk => ?_
    simp only [(other k (List.mem_filter.mp hk).1).2, if_false]
  rw [added]
  dsimp only
  rw [Act.go_set, movedTo]
  refine congrArg (Prod.mk _) (State.withTeam_congr (t := u) (by rw [State.foldl_releaseHold_teams]; exact hu) ?_)
  rw [holds, now, movedHolds_eq free]

/-- lt.adv by 0 does nothing. -/
theorem ltAdv_zero (h : AtIssue s i t) {f : TForm} (hr : Readable t f.d) (zero : t.scalar (s.teamsOf t) f.d = 0) :
    Completes (.ltAdv f) s i t := by
  refine h.completes_self (act := ltAdv f) rfl ?_
  unfold ltAdv
  rw [Act.go_bind_ok (go_sread h hr), Act.go_bind_ok h.go_tm, zero]
  rfl

/-- A move that may be made is one of NOW to the new time, one that may not is TIMEUSE. -/
theorem moves_go (h : AtIssue s i t) {f : TForm} (hr : Readable t f.d) {m : Instr × Bool × Stamp × Nat}
    (hm : m ∈ moves s t f) : ∃ act : Act Unit, exec m.1 s = runCore act s ∧
      (m.2.1 = true → Act.go act s = Act.go (moveNow m.2.2.1) s) ∧
      (m.2.1 = false → Act.go act s = Act.go (timeuse (α := Unit) m.2.2.2) s) := by
  have stops (d : Nat) (k : Unit → Act Unit) : Act.go (timeuse d >>= k) s = Act.go (timeuse (α := Unit) d) s := by
    rw [h.go_timeuse_bind, h.go_timeuse]
  rcases List.mem_append.mp hm with hm | hm
  · split at hm
    · cases hm
    rename_i k0
    rw [List.mem_singleton.mp hm]
    refine ⟨ltAdv f, rfl, fun may => ?_, fun may => ?_⟩
    · have fits := of_decide_eq_true may
      unfold ltAdv
      rw [Act.go_bind_ok (go_sread h hr), Act.go_bind_ok h.go_tm, if_pos (by simpa using k0),
        if_neg (by simp only [Bool.or_eq_true, decide_eq_true_eq]; omega)]
    · have past := of_decide_eq_false may
      unfold ltAdv
      rw [Act.go_bind_ok (go_sread h hr), Act.go_bind_ok h.go_tm, if_pos (by simpa using k0),
        if_pos (by simp only [Bool.or_eq_true, decide_eq_true_eq]; omega), stops]
  · rcases List.mem_cons.mp hm with rfl | hm
    · refine ⟨ltEnter, rfl, fun may => ?_, fun may => ?_⟩
      · have room := of_decide_eq_true may
        unfold ltEnter
        rw [Act.go_bind_ok h.go_tm, if_neg (by omega)]
      · have deep := of_decide_eq_false may
        unfold ltEnter
        rw [Act.go_bind_ok h.go_tm, if_pos (by omega), stops]
    · rw [List.mem_singleton.mp hm]
      refine ⟨ltLeave, rfl, fun may => ?_, fun may => ?_⟩
      · have deep := of_decide_eq_true may
        unfold ltLeave
        rw [Act.go_bind_ok h.go_tm, if_neg deep]
      · have top := of_decide_eq_false may
        unfold ltLeave
        rw [Act.go_bind_ok h.go_tm, if_pos (not_not.mp top), stops]

/-! ## Holds (R258, R263) -/

section
variable {f : TForm} {loc : Nat} {st : Stamp} (h : AtIssue s i t) (n : NamesPair s t f.d f.a f.mod loc st)
include h n

/-- lt.hold of a pair that the team may hold. -/
theorem go_ltHold (covers : t.covers (s.space t.asid) loc st = true)
    (room : (t.holds.any fun k => k.loc == loc && k.stamp == st) = true ∨ t.holds.length < 16) :
    Act.go (ltHold f) s = Act.go (holdFor loc st) s := by
  refine (h.go_pair n _).trans ?_
  rw [Act.go_bind_ok h.go_tm, Act.go_bind_ok (Act.go_get s)]
  dsimp only
  rw [if_neg (by simp [covers]), if_neg]
  rcases room with held | room
  · simp [held]
  · simp [room]

/-- A pair that is held already is held. -/
theorem ltHold_held (covers : t.covers (s.space t.asid) loc st = true)
    (held : (t.holds.any fun k => k.loc == loc && k.stamp == st) = true) : Completes (.ltHold f) s i t := by
  refine h.completes_self rfl ((go_ltHold h n covers (.inl held)).trans ?_)
  unfold holdFor
  rw [Act.go_bind_ok h.go_tm, Act.go_bind_ok (Act.go_me s), Act.go_bind_ok (Act.go_get s), if_pos held]
  rfl

/-- Another pair is counted and held. -/
theorem ltHold_new {s1 : State} (covers : t.covers (s.space t.asid) loc st = true)
    (new : (t.holds.any fun k => k.loc == loc && k.stamp == st) = false) (room : t.holds.length < 16)
    (counted : s.addCount (some t.core) t.asid t.timeline loc st = some s1) :
    CompletesAs (.ltHold f) s i (s1.withTeam i fun u => { u with holds := t.holds ++ [{ loc := loc, stamp := st }] }) := by
  obtain ⟨u, hu, timing⟩ := h.timedAs.addCount counted
  obtain ⟨-, holds⟩ := Prod.mk.inj timing
  refine h.completesAs rfl ((go_ltHold h n covers (.inr room)).trans ?_)
  unfold holdFor
  rw [Act.go_bind_ok h.go_tm, Act.go_bind_ok (Act.go_me s), Act.go_bind_ok (Act.go_get s), if_neg (by simp [new]), counted, h.cur]
  exact congrArg (Prod.mk _) (State.withTeam_congr hu (by rw [holds]))

/-- A pair that the team does not cover. -/
theorem ltHold_uncovered (covers : t.covers (s.space t.asid) loc st = false) :
    Traps (.ltHold f) s i [t.record .timeuse 1] := by
  refine h.traps rfl ((h.go_pair n _).trans ?_)
  rw [Act.go_bind_ok h.go_tm, Act.go_bind_ok (Act.go_get s)]
  dsimp only
  rw [if_pos (by simp [covers]), h.go_timeuse_bind]

/-- A 17th pair. -/
theorem ltHold_full (covers : t.covers (s.space t.asid) loc st = true)
    (new : (t.holds.any fun k => k.loc == loc && k.stamp == st) = false) (full : 16 ≤ t.holds.length) :
    Traps (.ltHold f) s i [t.record .timeuse 7] := by
  refine h.traps rfl ((h.go_pair n _).trans ?_)
  rw [Act.go_bind_ok h.go_tm, Act.go_bind_ok (Act.go_get s)]
  dsimp only
  rw [if_neg (by simp [covers]), if_pos (by simp [new, full]), h.go_timeuse_bind]

/-- lt.drop of a pair that is not its tasks' releases its count and takes it off the holds. -/
theorem ltDrop_held {k : Hold} (held : (t.holds.find? fun k => k.loc == loc && k.stamp == st && !k.task) = some k) :
    CompletesAs (.ltDrop f) s i ((s.releaseHold i k).withTeam i fun u => { u with holds := t.holds.filter (· != k) }) := by
  refine h.completesAs rfl ((h.go_pair n _).trans ?_)
  rw [Act.go_bind_ok h.go_tm, Act.go_bind_ok (Act.go_me s), held, h.cur]
  exact congrArg (Prod.mk _) (State.withTeam_congr (s := s.releaseHold i k) h.2 rfl)

/-- A pair that is not held cannot be dropped. -/
theorem ltDrop_missing (missing : (t.holds.any fun k => k.loc == loc && k.stamp == st) = false) :
    Traps (.ltDrop f) s i [t.record .timeuse 2] := by
  have none_there : (t.holds.find? fun k => k.loc == loc && k.stamp == st && !k.task) = none := by
    rw [List.find?_eq_none]
    intro k hk
    simp [List.any_eq_false.mp missing k hk]
  refine h.traps_timeuse rfl ((h.go_pair n _).trans ?_)
  rw [Act.go_bind_ok h.go_tm, Act.go_bind_ok (Act.go_me s), none_there]

/-! ## Frontiers (R264) -/

omit n in
theorem AtIssue.go_heard (loc : Nat) : Act.go (heard loc) s = (.ok (s.heardAt t.core t.asid loc), s) := Act.go_bind_ok h.go_tm

/-- lt.wait, which a hold of the team's own does not keep from passing, goes by what the core has heard. -/
theorem go_ltWait (apart : t.covers (s.space t.asid) loc st = false ∨ t.reissue = true) :
    Act.go (ltWait f) s =
      if passedBy (s.heardAt t.core t.asid loc) st = true then (.ok (), s.acquire i) else (.error (.block {}), s) := by
  refine (h.go_pair n _).trans ?_
  rw [Act.go_bind_ok h.go_tm, Act.go_bind_ok (h.go_heard loc), Act.go_bind_ok (Act.go_get s)]
  dsimp only
  rw [if_neg (by rcases apart with e | e <;> simp [e])]
  split
  · rename_i waits
    rw [if_neg (by simpa using waits)]
    rfl
  · rename_i passed
    rw [if_pos (by simpa using passed), ← h.cur]
    rfl

/-- A wait that a hold of the team's own keeps from passing. -/
theorem ltWait_covered (covers : t.covers (s.space t.asid) loc st = true) (first : t.reissue = false) :
    Traps (.ltWait f) s i [t.record .timeuse 9] := by
  refine h.traps rfl ((h.go_pair n _).trans ?_)
  rw [Act.go_bind_ok h.go_tm, Act.go_bind_ok (h.go_heard loc), Act.go_bind_ok (Act.go_get s)]
  dsimp only
  rw [if_pos (by simp [first, covers]), h.go_timeuse_bind]

end

/-! That a team has observed does not depend on a register written before (R242). -/

theorem Team.putScalar_acquired (t : Team) (r : Reg) (x : Word) :
    { t.putScalar r x with acquired := true } = ({ t with acquired := true } : Team).putScalar r x := by
  cases r <;> rfl

theorem Team.putAt_acquired (t : Team) (r : Reg) (k : Nat) (x : Word) :
    { putAt t r k x with acquired := true } = putAt ({ t with acquired := true } : Team) r k x := by
  cases r <;> rfl

theorem Team.putStamp_acquired (t : Team) (r : Reg) (k : Nat) (st : Stamp) :
    { putStamp t r k st with acquired := true } = putStamp ({ t with acquired := true } : Team) r k st := by
  rw [putStamp, Team.putAt_acquired, Team.putAt_acquired, putStamp]

section
variable {f : TForm} {loc : Nat} {st : Stamp} (h : AtIssue s i t) (n : NamesPair s t f.a f.b f.mod loc st)
include h n

/-- lt.test writes whether the frontier has passed; where it has, that is an observation. -/
theorem ltTest_completes (plain : f.mod.getLsbD 2 = false) :
    CompletesAs (.ltTest f) s i ((if passedBy (s.heardAt t.core t.asid loc) st then s.acquire i else s).withTeam i fun u =>
      u.putScalar f.d (if passedBy (s.heardAt t.core t.asid loc) st then 1 else 0)) := by
  generalize hx : (if passedBy (s.heardAt t.core t.asid loc) st then 1 else 0 : Word) = x
  obtain ⟨s1, written, o1⟩ := (OnlyTeam.refl h).go_swrite f.d x
  have start : Act.go (ltTest f) s = Act.go (if passedBy (s.heardAt t.core t.asid loc) st then observe else pure ()) s1 := by
    refine (h.go_pair n _).trans ?_
    rw [Act.go_bind_ok (h.go_heard loc), if_neg (ne_true_of_eq_false plain), hx, Act.go_bind_ok written]
  by_cases passed : passedBy (s.heardAt t.core t.asid loc) st
  · rw [if_pos passed] at start ⊢
    obtain ⟨s2, observed, o2⟩ := o1.go_observe
    rw [Team.putScalar_acquired] at o2
    rw [State.acquire, State.withTeam_withTeam, ← State.withTeam_const h.2]
    exact o2.completes h h.2 rfl (start.trans observed) rfl rfl
  · rw [if_neg passed] at start ⊢
    rw [← State.withTeam_const h.2]
    exact o1.completes h h.2 rfl start rfl rfl

/-- With `front` it writes the frontier itself and its depth. -/
theorem ltTest_front (front : f.mod.getLsbD 2 = true) :
    CompletesAs (.ltTest f) s i ((s.acquire i).withTeam i fun u =>
      putAt (putStamp u f.d 0 ((s.heardAt t.core t.asid loc).getD [])) f.d 2
        (BitVec.ofNat 64 ((s.heardAt t.core t.asid loc).getD []).length)) := by
  obtain ⟨s1, pair, o1⟩ := (OnlyTeam.refl h).go_writePair f.d 0 ((s.heardAt t.core t.asid loc).getD [])
  obtain ⟨s2, depth, o2⟩ := o1.go_swriteAt f.d 2 (BitVec.ofNat 64 ((s.heardAt t.core t.asid loc).getD []).length)
  obtain ⟨s3, observed, o3⟩ := o2.go_observe
  have run : Act.go (ltTest f) s = (.ok (), s3) := by
    refine (h.go_pair n _).trans ?_
    rw [Act.go_bind_ok (h.go_heard loc), if_pos front, Act.go_bind_ok pair, Act.go_bind_ok depth, observed]
  rw [Team.putAt_acquired, Team.putStamp_acquired] at o3
  rw [State.acquire, State.withTeam_withTeam, ← State.withTeam_const h.2]
  exact o3.completes h h.2 rfl run rfl rfl

end

/-! ## Counts that retire, frontiers that are announced (R256, R259) -/

/-- A −1 that is due is released. -/
theorem countRetires_due {index asid k : Nat} {r : Retire} (owes : s.owing[index]? = some (asid, k, r)) (due : s.due r.till = true) :
    countRetires index s =
      (s.withSpace asid fun sp => { sp with retires := sp.retires.eraseIdx k }).dropCount asid r.timeline r.loc r.stamp r.n := by
  unfold countRetires
  rw [owes]
  exact if_pos due

/-- A core that is told a frontier has heard it. -/
theorem heardAt_frontierHeard {core asid loc : Nat} {sp : Space} (found : SMap.find s.spaces asid = some sp) (device : core < 160)
    (location : loc < 4096) : (frontierHeard core asid loc s).heardAt core asid loc = sp.frontier loc := by
  have told : frontierHeard core asid loc s = s.withCore core fun c =>
      { c with heard := ⟨asid, loc, sp.frontier loc⟩ :: c.heard.filter fun a => !(a.asid == asid && a.loc == loc) } := by
    unfold frontierHeard
    rw [found]
    exact if_pos (by simp [device, location])
  rw [told]
  simp only [State.heardAt, State.core, State.withCore_cores, SMap.upd, SMap.val_set_same]
  rw [List.find?_cons_of_pos (by simp)]

theorem frontierHeard_frame (core asid loc : Nat) :
    (frontierHeard core asid loc s).teams = s.teams ∧ (frontierHeard core asid loc s).mem = s.mem := by
  unfold frontierHeard
  split
  · split <;> exact ⟨rfl, rfl⟩
  · exact ⟨rfl, rfl⟩

end Sys2Proof.Machine

namespace Sys2Proof.Claims

open Sys2Proof Sys2Proof.Machine Sys2Proof.Claims

/-- Settles O45: each instruction by what its operands name and what the team holds, each event by what it changes. -/
theorem logicalTime : Obligations.LogicalTime := by
  refine ⟨fun f s i t h => ⟨ltNow_completes h f, ltAdv_zero h, fun hr m hm => ?_, fun hr hp good => ?_, fun hr hp good => ?_⟩,
    fun s index asid k r owes due => congrArg Host.Outcome.next (countRetires_due owes due),
    fun s core asid loc sp found device location =>
      ⟨_, rfl, heardAt_frontierHeard found device location, frontierHeard_frame core asid loc⟩⟩
  · obtain ⟨act, runs, moves, stops⟩ := moves_go h hr hm
    exact ⟨fun s1 may free counted => h.completesAs runs ((moves may).trans (go_moveNow h free counted)),
      fun may => h.traps_timeuse runs (stops may)⟩
  · have n : NamesPair s t f.d f.a f.mod _ _ := ⟨hr, hp, good, rfl, rfl⟩
    refine ⟨ltHold_held h n, fun s1 covers new room counted => ltHold_new h n covers new room counted, ltHold_uncovered h n,
      ltHold_full h n, fun k held => ltDrop_held h n held, ltDrop_missing h n, fun apart => ⟨fun passed => ?_, fun passed => ?_⟩,
      ltWait_covered h n⟩
    · exact h.completesAs rfl ((go_ltWait h n apart).trans (if_pos passed))
    · exact runCore_block h.1 h.2 ((go_ltWait h n apart).trans (if_neg (by simp [passed])))
  · have n : NamesPair s t f.a f.b f.mod _ _ := ⟨hr, hp, good, rfl, rfl⟩
    exact ⟨ltTest_completes h n, ltTest_front h n⟩

end Sys2Proof.Claims
end

section
/-! PROOF. O46 fails for the same reason as O42 and O44: a tk.push counts its task, which moves the floor and answers a Mortar LOAD of
the team's own (R223, R272, R338). The statement takes the team as it was before the count. -/

namespace Sys2Proof.Claims

open Sys2Proof Sys2Proof.Machine Sys2Proof.Claims

/-- The team that waits for the LOAD behind the floor's word, at the time of the pair that it holds. -/
def pushing : Team := { holding with now := [5] }

/-- The state with it at issue, its timeline's floor still at 0, and the entries on the floor's word. -/
def beforePush : State := { beforeFloor with teams := [(0, pushing)] }

/-- The state after a task has been counted at location 0 and the team's NOW. -/
def afterCount : State := (beforePush.addCount (some pushing.core) pushing.asid pushing.timeline 0 pushing.now).getD beforePush

theorem addCount_beforePush :
    beforePush.addCount (some pushing.core) pushing.asid pushing.timeline 0 pushing.now = some afterCount := by
  have counted : (beforePush.addCount (some pushing.core) pushing.asid pushing.timeline 0 pushing.now).isSome = true := by
    decide +kernel
  obtain ⟨s1, hs⟩ := Option.isSome_iff_exists.mp counted
  rw [afterCount, hs]
  rfl

/-- Refutes O46: tk.push with every operand ZERO, of a team that holds (0, NOW). Counting the task moves the floor, whose write drains
the entries on its word, and the LOAD is answered; the statement leaves the team waiting for it. -/
theorem not_tasksAndRings : ¬ Obligations.TasksAndRings := by
  unfold Obligations.TasksAndRings
  intro h
  obtain ⟨push, -⟩ := h
  have issued : pushing.UnitsIssued := fun u hu => by cases hu
  have room : UnitRoom beforePush pushing := fun _ => by decide +kernel
  have completes := push ⟨.i8, 0, 0, .zero, .zero, .zero, .zero, 0⟩ beforePush afterCount 0 pushing
    ⟨rfl, rfl⟩ ⟨rfl, rfl, rfl, rfl, rfl⟩ issued room trivial trivial trivial trivial rfl
    ⟨by decide +kernel, by decide +kernel⟩ (by decide +kernel) (fun _ => by decide +kernel) addCount_beforePush
  exact absurd (congrArg opsAfter completes) (by decide +kernel)

end Sys2Proof.Claims
end
